-- ==== Sys2Proof/Word.lean ====
section
/-! DEFINITION. The word types of the E64 (R7: registers are 32 bits, little-endian; R12: bit 0 is the least
significant). Nothing here computes more than the plainest conversions. -/

namespace Sys2Proof

/-- One byte of any memory. -/
abbrev Byte := BitVec 8

/-- One register (R7). -/
abbrev Word := BitVec 32

/-- A 64-bit quantity: a register pair (R11), an address, a fence value. -/
abbrev Quad := BitVec 64

/-- A SHA-256 digest: byte 0 of the digest in bits [7:0], as it is stored in memory (R372). -/
abbrev Digest := BitVec 256

/-- A table keyed by numbers: (key, value) pairs, keys strictly rising, no value equal to the table's default. -/
abbrev Tab (α : Type) := List (Nat × α)

end Sys2Proof
end

