-- ==== Sys2Proof/Syntax.lean ====
section
/-! DEFINITION. The commands: one constructor per row of opcode_table.json, with the operands the row's event carries.
Where a row is an event of the machine itself (a turn, a delivery, a sample), its operands are what the manual leaves
to physics, to an arbiter (R48) or to the outside. -/

namespace Sys2Proof

/-- The two ways to a register: BAR0, and the control complex's local port (R419, R437). -/
inductive Path where
  | bar0
  | localPort
deriving DecidableEq, Repr

/-- One command in flight: its queue and its SEQ (R301). -/
structure Key where
  q : BitVec 16
  seq : Word
deriving DecidableEq, Repr

/-- The sender of an Ethernet frame, as a reply needs it (R469). -/
structure NetAddr where
  mac : BitVec 48
  v6 : Bool
  ip : BitVec 128
  udp : BitVec 16
deriving DecidableEq, Repr

/-- What a frame's IP and UDP headers say (R453): IHL in words (IPv4), PROTOCOL or NEXT HEADER, whether it is a
fragment, whether the IPv4 header checksum verifies, the UDP checksum field and whether it verifies. -/
structure IpHdr where
  ihl : Nat := 5
  proto : BitVec 8 := 17
  fragment : Bool := false
  sumOk : Bool := true
  udpSum : BitVec 16 := 0xFFFF
  udpSumOk : Bool := true
deriving DecidableEq, Repr

/-- A frame with an IP datagram at an Ethernet port: sender, 802.1Q tags (R452: TPID in the upper half), headers, UDP
destination port and payload. -/
structure Datagram where
  port : Fin 2
  src : NetAddr
  tags : List Word
  ip : IpHdr := {}
  dst : BitVec 16
  payload : List Byte
deriving DecidableEq, Repr

/-- A frame's head: all of a datagram but its port, its UDP destination port and its payload. -/
structure FrameHead where
  src : NetAddr := ⟨0, false, 0, 0⟩
  tags : List Word := []
  ip : IpHdr := {}
deriving DecidableEq, Repr

/-- The datagram that arrives at `port` for UDP port `udp` with this payload. -/
def FrameHead.datagram (h : FrameHead) (port : Fin 2) (udp : BitVec 16) (payload : List Byte) : Datagram :=
  { port := port, src := h.src, tags := h.tags, ip := h.ip, dst := udp, payload := payload }

/-- The head of a datagram. -/
def Datagram.head (d : Datagram) : FrameHead := { src := d.src, tags := d.tags, ip := d.ip }

/-- A Kweow flit (R473, R474): header fields, payload, CHECK, parity. A received one is the code word nearest to what
came. -/
structure Flit where
  kind : BitVec 8
  lsn : BitVec 24
  vc : BitVec 2
  som : Bool
  eom : Bool
  ack : BitVec 24
  cum0 : BitVec 8
  cum1 : BitVec 8
  cum2 : BitVec 10
  epoch : BitVec 16
  payload : List Byte
  check : BitVec 128
  parity : BitVec 128
deriving DecidableEq, Repr

/-- An installation certificate (R486): the serial it names, the installation, the owner's signature over both. -/
structure Cert where
  serial : BitVec 56
  inst : BitVec 128
  sig : List Byte
deriving DecidableEq, Repr

/-- What IDENTIFY learns of the peer (R479, R486, R487): its serial and certificate, its ephemeral public key, its
identity key and its signature over the exchange, its policy, its next expected LSN, whether it was reset. -/
structure PeerInfo where
  serial : BitVec 56
  cert : Option Cert
  pub : List Byte
  idKey : List Byte
  sig : List Byte
  encrypt : Bool
  nextLsn : BitVec 24
  wasReset : Bool
deriving DecidableEq, Repr

/-- A service-port request after its OP (R489): LENGTH, word 1, body, and the signature of an owner operation. -/
structure SvcReq where
  length : BitVec 16
  nonce : Word
  body : List Byte
  sig : List Byte
deriving DecidableEq, Repr

/-- The outcome of an ECC check (R187, R258, R275). -/
inductive Ecc where
  | clean
  | corrected (symbols : Nat)
  | uncorrectable
deriving DecidableEq, Repr

/-- What SP0 measures every 100 µs (R536, R541): powers in W, sensor readings in 1/16 °C, step rate in M steps/s. -/
structure PowerReading where
  totalW : BitVec 16
  vcoreW : BitVec 16
  temps : List (Option (BitVec 16))
  rate : BitVec 16
deriving DecidableEq, Repr

/-- What a boot finds out about the part (R40, R277, R278, R498): engines and cluster memories that fail self-test,
columns repaired now per scratchpad bank (key 48·engine + bank) and cluster-memory bank (key 4096 + 16·cluster + bank),
milliseconds to BAR0, measured step rate, and the Carafe channels that trained. -/
structure BootFindings where
  badEngines : BitVec 72
  badClusters : BitVec 8
  softRepairs : List (Nat × BitVec 8)
  readyMs : BitVec 16
  rate : BitVec 16
  trained : BitVec 24 := 0xFFFFFF
deriving DecidableEq, Repr

/-- The commands of opcode_table.json. A default operand is the plain form of its row: an instruction that begins and ends
at once, a record in the simplest frame, a frame whose FEC codewords could all be corrected, rail 0. -/
inductive Instr where
  -- reset and boot
  | powerOn
  | resetN (lowNs : Nat)
  | boot (f : BootFindings)
  | extentZeroed (ext : BitVec 13)
  | watchdog (proc : Fin 5)
  | trialTimeout
  | confirm (path : Path)
  | abandon (path : Path)
  -- registers and PCIe
  | registerWrite (path : Path) (addr : Nat) (bytes : Nat) (value : Quad)
  | badRegisterAccess (write : Bool) (addr : Nat) (bytes : Nat)
  | lowWordRead (path : Path) (addr : Nat) (bytes : Nat)
  | bar2Access (off : Nat) (write : Bool) (len : Nat) (data : List Byte)
  | atsInvalidation (addr : Quad) (size : Nat)
  | functionLevelReset
  | perstN
  | hostReadTimeout (k : Key) (addr : Quad)
  -- front end
  | feDbSq (q : BitVec 16) (t : Word)
  | feDbCq (q : BitVec 16) (h : Word)
  | feAqEnable (value : BitVec 31)
  | feAqDisable (value : BitVec 31)
  | commandFetch (q : BitVec 16)
  | admission
  | commandStart (k : Key) (place : List (Fin 64))
  | commandTimeout (k : Key)
  | drainTimeout (k : Key)
  | copyDone (k : Key)
  -- ring commands
  | queueCreate (k : Key)
  | queueDestroy (k : Key)
  | queueReset (k : Key)
  | map (k : Key)
  | unmap (k : Key)
  | unmapComplete (k : Key)
  | fenceSet (k : Key)
  | peerBind (k : Key)
  | modelLoad (k : Key)
  | modelLoadEnd (k : Key)
  | modelUnload (k : Key)
  | runAnneal (k : Key)
  | runProgram (k : Key)
  | pause (k : Key)
  | resume (k : Key)
  | copy (k : Key)
  | nop (k : Key)
  | peerSignal (k : Key)
  | abort (k : Key)
  -- annealing
  | turn (k : Key)
  | sweepBoundary (k : Key)
  | bestStateCopy (k : Key) (rowBlock : Nat)
  | engineFailure (phys : Fin 72)
  -- engine programs: an instruction of logical engine n; `begins`: its beginning alone, else its end (and its beginning)
  | openGroup (n : Fin 64) (begins : Bool := false)
  | mma (n : Fin 64) (begins : Bool := false)
  | drain (n : Fin 64) (begins : Bool := false)
  | sample (n : Fin 64) (begins : Bool := false)
  | discard (n : Fin 64)
  | red (n : Fin 64)
  | vop (n : Fin 64)
  | dma (n : Fin 64)
  | atomf (n : Fin 64)
  | set (n : Fin 64)
  | add (n : Fin 64)
  | ld (n : Fin 64)
  | st (n : Fin 64)
  | br (n : Fin 64)
  | loop (n : Fin 64)
  | bar (n : Fin 64)
  | claim (n : Fin 64)
  | waitany (n : Fin 64) (ended : Option (BitVec 12))
  | time (n : Fin 64)
  | endProgram (n : Fin 64)
  | park (n : Fin 64) (g : Fin 8)
  | unpark (n : Fin 64) (g : Fin 8) (ecc : Ecc)
  -- Carafe, wipe, tamper
  | refresh (ch : Fin 24)
  | scrubRead (ch : Fin 24)
  | wipeCheck (clean : Bool)
  | tamper (lowNs : Nat)
  -- capture ingest and job frames
  | record (port : Fin 2) (udp : BitVec 16) (payload : List Byte) (head : FrameHead := {})
  | reasmTimeout (i : Fin 16) (frameSeq : Quad)
  | frameCommit (i : Fin 16)
  | streamEnable (i : Fin 16) (value : BitVec 31)
  | streamStop (i : Fin 16) (value : BitVec 31)
  | submit (d : Datagram)
  | poll (d : Datagram)
  | pauseFrame (port : Fin 2)
  | arpRequest (port : Fin 2) (src : NetAddr) (target : BitVec 32) (tags : List Word)
  | neighborSolicitation (port : Fin 2) (src : NetAddr) (target : BitVec 128) (tags : List Word)
  | badFcsFrame (port : Fin 2) (codewords : Nat := 0)
  | droppedDatagram (d : Datagram)
  -- Kweow links
  | signalDetect (l : Fin 8)
  | equalizeDone (l : Fin 8)
  | alignDone (l : Fin 8) (reversed : Bool)
  | identifyDone (l : Fin 8) (p : PeerInfo)
  | trainingTimeout (l : Fin 8)
  | holdoffEnd (l : Fin 8)
  | retrain (l : Fin 8)
  | laneLoss (l : Fin 8)
  | dataFlit (l : Fin 8) (f : Flit) (byteErrors : Nat)
  | idleFlit (l : Fin 8) (f : Flit) (byteErrors : Nat)
  | retryReq (l : Fin 8) (f : Flit) (byteErrors : Nat)
  | retryTimeout (l : Fin 8)
  | alignmentFlit (l : Fin 8)
  | jobMessage (l : Fin 8)
  | jobReply (l : Fin 8)
  | peerSignalMessage (l : Fin 8)
  | signalAck (l : Fin 8)
  | checkpointMessage (l : Fin 8)
  | cmdEnd (l : Fin 8)
  | splitJoin (l : Fin 8)
  | splitSpins (l : Fin 8)
  | splitEnergy (l : Fin 8)
  | splitFail (l : Fin 8)
  -- service port
  | getStatus (r : SvcReq)
  | setGlobalTimeout (r : SvcReq)
  | setCarafeCrypt (r : SvcReq)
  | setKwPolicy (r : SvcReq)
  | setEthAddr (r : SvcReq)
  | setJobKey (r : SvcReq)
  | installCert (r : SvcReq)
  | stageTable (r : SvcReq)
  | commitTable (r : SvcReq)
  | takeOwnership (r : SvcReq)
  | releaseOwnership (r : SvcReq)
  | decommission (r : SvcReq)
  | setOwnerLock (r : SvcReq)
  | clearOwnerLock (r : SvcReq)
  | updateBegin (r : SvcReq)
  | updateBlock (r : SvcReq)
  | updateCommit (r : SvcReq)
  | updateActivate (r : SvcReq)
  | updateCancel (r : SvcReq)
  | setConfirmWindow (r : SvcReq)
  | updateStatus (r : SvcReq)
  | bbRead (r : SvcReq)
  -- interrupt controller
  | messageArrival (src : Fin 512)
  | levelAssert (src : Fin 512)
  | levelDrop (src : Fin 512)
  | delivery
  | targetAwake (t : Fin 5)
  | targetSleep (t : Fin 5)
  | icuTClaim (path : Path) (t : Fin 5)
  | icuTComplete (path : Path) (t : Fin 5) (value : Word)
  | icuPendSet (path : Path) (w : Fin 16) (mask : Word)
  | icuPendClr (path : Path) (w : Fin 16) (mask : Word)
  | icuEnSet (path : Path) (w : Fin 16) (mask : Word)
  | icuEnClr (path : Path) (w : Fin 16) (mask : Word)
  | icuTCtrlWrite (path : Path) (t : Fin 5) (value : Word)
  | icuSrcCfgWrite (path : Path) (src : Fin 512) (value : Word)
  -- random numbers
  | blockPeriod (raw : BitVec 1024)
  | startupTestEnd (katOk : Bool)
  | failRunClear
  | rngRequest (port : Fin 3)
  | rngSwStatRead (path : Path) (bytes : Nat)
  | rngSwDataRead (path : Path)
  | katEntry (path : Path) (len : BitVec 8)
  | katExit (path : Path) (len : BitVec 8)
  | katGo (path : Path) (len : BitVec 8)
  -- Blotter
  | blotterWrite
  | suppressed
  -- power
  | powerSample (p : PowerReading)
  | pointSet (value : Word)
  | thermtrip (sensor : Fin 111) (temp : BitVec 16) (vio : Bool)
  | brownout (rail : Fin 8) (vioHeld : Bool)
  | railRestored (rail : Fin 8 := 0)
  | holdup
  | holdupRelease
  | lowVoltage
  | lowVoltageRelease
  | refclkLost
  | refclkRestored
  | domainWake (d : Fin 96)
  | domainFault (d : Fin 96)
  | domainOff (d : Fin 96)
  | idleOff (n : Fin 64)
  -- the rows after the families
  | spadWinWrite (size : Bool) (w : Fin 16) (value : Word)
  | copyStopsAtBoundary (k : Key) (done : Nat)
  | unknownOp (op : BitVec 8) (r : SvcReq)
deriving DecidableEq, Repr

end Sys2Proof
end

