-- ==== Sys2Proof/Decode.lean ====
section
/-! DEFINITION. The table gives no row any bits (every "fields" list is empty), so no word spells a command. -/

namespace Sys2Proof

/-- The command a word spells by the table's bits: none, for every word (no row has bits). -/
def decodeTableWord (_nbits _w : Nat) : Option Instr := none

end Sys2Proof
end

