-- ==== Sys2Proof/Machine/Tab.lean ====
section
/-! DEFINITION. Tables in one canonical form: keys strictly rising, no entry equal to what an unlisted key reads as.
Every memory, register file and sparse array of the model is such a table, so equal tables are equal data. -/

namespace Sys2Proof

/-- The value at key `i`; an unlisted key reads as `d`. -/
def Tab.get {α : Type} (d : α) : Tab α → Nat → α
  | [], _ => d
  | (k, v) :: t, i => if i = k then v else Tab.get d t i

/-- The table without key `i`. -/
def Tab.remove {α : Type} : Tab α → Nat → Tab α
  | [], _ => []
  | (k, w) :: t, i => if i = k then Tab.remove t i else (k, w) :: Tab.remove t i

/-- The table with an entry for key `i`, which it does not list, before the first greater key. -/
def Tab.insert {α : Type} : Tab α → Nat → α → Tab α
  | [], i, v => [(i, v)]
  | (k, w) :: t, i, v => if i < k then (i, v) :: (k, w) :: t else (k, w) :: Tab.insert t i v

/-- The table with `v` at key `i`, canonical if the table was: writing the default removes the entry. -/
def Tab.put {α : Type} [DecidableEq α] (d : α) (t : Tab α) (i : Nat) (v : α) : Tab α :=
  if v = d then Tab.remove t i else Tab.insert (Tab.remove t i) i v

/-- Every key of the table lies above `b`, keys rise strictly, and no value is the default. -/
def Tab.above {α : Type} [DecidableEq α] (d : α) : Nat → Tab α → Bool
  | _, [] => true
  | b, (k, v) :: t => decide (b ≤ k) && !decide (v = d) && Tab.above d (k + 1) t

/-- The canonical form. -/
def Tab.wf {α : Type} [DecidableEq α] (d : α) (t : Tab α) : Bool := Tab.above d 0 t

/-- The table changed at one key by a function of the value there. -/
def Tab.upd {α : Type} [DecidableEq α] (d : α) (t : Tab α) (i : Nat) (f : α → α) : Tab α :=
  Tab.put d t i (f (Tab.get d t i))

/-- The keys that hold something other than the default. -/
def Tab.keys {α : Type} (t : Tab α) : List Nat := t.map Prod.fst

/-- The table with consecutive values written from key `i` on. -/
def Tab.putList {α : Type} [DecidableEq α] (d : α) (t : Tab α) (i : Nat) : List α → Tab α
  | [] => t
  | v :: vs => Tab.putList d (Tab.put d t i v) (i + 1) vs

/-- `n` consecutive values from key `i` on. -/
def Tab.getList {α : Type} (d : α) (t : Tab α) (i n : Nat) : List α :=
  (List.range n).map fun k => Tab.get d t (i + k)

/-- `n` consecutive values from key `i` on, in one pass over a table whose keys below `i` are dropped. -/
def Tab.fill {α : Type} (d : α) : Nat → Nat → Tab α → List α
  | 0, _, _ => []
  | n + 1, i, [] => d :: Tab.fill d n (i + 1) []
  | n + 1, i, (k, v) :: t => if k = i then v :: Tab.fill d n (i + 1) t else d :: Tab.fill d n (i + 1) ((k, v) :: t)

/-- The values of keys `i` to `i + n - 1` of a canonical table. -/
def Tab.window {α : Type} (d : α) (t : Tab α) (i n : Nat) : List α :=
  Tab.fill d n i (t.dropWhile fun p => decide (p.1 < i))

end Sys2Proof
end

