-- ==== Sys2Proof/Machine/Bits.lean ====
section
/-! DEFINITION. Bit fields, signs and byte order, and the counters of the register tables (R12, R360). -/

namespace Sys2Proof

/-- The field [hi:lo] of a number (R12). -/
def fld (x hi lo : Nat) : Nat := x / 2 ^ lo % 2 ^ (hi + 1 - lo)

/-- Bit `n` of a number. -/
def bit (x n : Nat) : Bool := x.testBit n

/-- One for true. -/
def b2n (b : Bool) : Nat := if b then 1 else 0

/-- A bit at position `n`. -/
def at' (b : Bool) (n : Nat) : Nat := if b then 2 ^ n else 0

/-- A number's low bits placed at `lo` (a field of `w` bits). -/
def put' (x w lo : Nat) : Nat := x % 2 ^ w * 2 ^ lo

/-- The two's-complement value of the low `w` bits. -/
def sgn (w x : Nat) : Int :=
  let y := x % 2 ^ w
  if y < 2 ^ (w - 1) then (y : Int) else (y : Int) - (2 ^ w : Nat)

/-- The low `w` bits of an integer, two's complement. -/
def toBits (w : Nat) (x : Int) : Nat := (x % ((2 ^ w : Nat) : Int)).toNat

/-- Bytes of a little-endian number. -/
def leBytes : Nat → Nat → List Byte
  | 0, _ => []
  | n + 1, x => BitVec.ofNat 8 x :: leBytes n (x / 256)

/-- The number that little-endian bytes spell. -/
def leNat : List Byte → Nat
  | [] => 0
  | b :: bs => b.toNat + 256 * leNat bs

/-- Bytes of a big-endian number. -/
def beBytes (n x : Nat) : List Byte := (leBytes n x).reverse

/-- The number that big-endian bytes spell. -/
def beNat (bs : List Byte) : Nat := leNat bs.reverse

/-- The `n` bytes of a list from offset `o`, missing bytes read as 0. -/
def slice (o n : Nat) (bs : List Byte) : List Byte :=
  let t := (bs.drop o).take n
  t ++ List.replicate (n - t.length) 0

/-- The little-endian field of `n` bytes at offset `o` of a record. -/
def leAt (bs : List Byte) (o n : Nat) : Nat := leNat (slice o n bs)

/-- A record with `n` bytes at offset `o` replaced. -/
def patchAt (bs : List Byte) (o : Nat) (new : List Byte) : List Byte :=
  bs.take o ++ new ++ bs.drop (o + new.length)

/-- Are all bytes zero? -/
def allZero (bs : List Byte) : Bool := bs.all (· == 0)

/-- A 32-bit counter that saturates at 0xFFFF_FFFF. -/
def satAdd (x : Word) (n : Nat) : Word := BitVec.ofNat 32 (min (x.toNat + n) 0xFFFFFFFF)

/-- One more, saturating. -/
def satInc (x : Word) : Word := satAdd x 1

/-- The signed 32-bit difference of two free-running counts (R295, R301). -/
def diff32 (a b : Word) : Int := (a - b).toInt

/-- Ceiling of a division. -/
def ceilDiv (a b : Nat) : Nat := (a + b - 1) / b

/-- A W1C field: bits written 1 are cleared (R14). -/
def w1c {w : Nat} (cur wr : BitVec w) : BitVec w := cur &&& ~~~wr

/-- The number of set bits. -/
def popcount (w x : Nat) : Nat := ((List.range w).filter fun i => x.testBit i).length

/-- The positions of the set bits, lowest first. -/
def bitsOf (w x : Nat) : List Nat := (List.range w).filter fun i => x.testBit i

/-- The number with exactly these bits set. -/
def ofBits (l : List Nat) : Nat := l.foldl (fun a i => a ||| 2 ^ i) 0

/-- Clear or set one bit. -/
def setBit (x i : Nat) (b : Bool) : Nat :=
  if b then x ||| 2 ^ i else if x.testBit i then x - 2 ^ i else x

/-- Rounded division to nearest, ties to even, of an integer by a positive number. -/
def rneDiv (x : Int) (d : Nat) : Int :=
  let q := x / (d : Int)
  let r := x % (d : Int)
  if 2 * r < d then q
  else if 2 * r > d then q + 1
  else if q % 2 = 0 then q else q + 1

/-- An integer held between two bounds. -/
def clampI (lo hi x : Int) : Int := if x < lo then lo else if x > hi then hi else x

end Sys2Proof
end

