-- ==== Sys2Proof/Machine/Noise.lean ====
section
/-! DEFINITION. The noise generator: Philox4x32-10 (R118), the logit L_raw (R118) and the exponential variate X_raw
(R146), each rounded to nearest from a value exact to far beyond the last bit (log 11). -/

namespace Sys2Proof

/-- Four 32-bit words. -/
structure Quad4 where
  x0 : Nat
  x1 : Nat
  x2 : Nat
  x3 : Nat
deriving DecidableEq, Repr

/-- `n` rounds of Philox4x32 with keys `k0`, `k1` bumped after each. -/
def philoxRounds : Nat → Nat → Nat → Quad4 → Quad4
  | 0, _, _, c => c
  | n + 1, k0, k1, c =>
    let p0 := 0xD2511F53 * c.x0
    let p1 := 0xCD9E8D57 * c.x2
    philoxRounds n ((k0 + 0x9E3779B9) % 2 ^ 32) ((k1 + 0xBB67AE85) % 2 ^ 32)
      ⟨Nat.xor (Nat.xor (p1 / 2 ^ 32) c.x1) k0, p1 % 2 ^ 32,
       Nat.xor (Nat.xor (p0 / 2 ^ 32) c.x3) k1, p0 % 2 ^ 32⟩

/-- Philox4x32-10 with a 64-bit key (R118). -/
def philox (seed : Quad) (c : Quad4) : Quad4 :=
  philoxRounds 10 (seed.toNat % 2 ^ 32) (seed.toNat / 2 ^ 32) c

/-- Output word `i`, 0 to 3. -/
def Quad4.word (q : Quad4) (i : Nat) : Nat :=
  if i = 0 then q.x0 else if i = 1 then q.x1 else if i = 2 then q.x2 else q.x3

/-- Σ z^(2k+1)/(2k+1) for the ratio `num/den` scaled by 2^`p`: `n` terms from the power `zp`. -/
def atanhSum (zz p : Nat) : Nat → Nat → Nat → Nat
  | 0, _, _ => 0
  | n + 1, k, zp => zp / (2 * k + 1) + atanhSum zz p n (k + 1) (zp * zz / 2 ^ p)

/-- 2^p · 2·atanh(num/den), for num/den at most 1/3. -/
def ln2At (p num den : Nat) : Nat :=
  let z := num * 2 ^ p / den
  2 * atanhSum (z * z / 2 ^ p) p 60 0 z

/-- 2^p · ln a for a ≥ 1, with p guard bits (the error is below 2^-(p-8)). -/
def lnScaled (p a : Nat) : Nat :=
  let k := Nat.log2 a
  k * ln2At p 1 3 + ln2At p (a - 2 ^ k) (a + 2 ^ k)

/-- Guard bits of the logarithms. -/
def lnBits : Nat := 128

/-- L_raw for the 24-bit draw `k` (R118): ln(u/(1-u))·2^18 rounded, u = (k + 1/2)/2^24. -/
def logitRaw (k : Nat) : Int :=
  rneDiv (((lnScaled lnBits (2 * k + 1) : Nat) : Int) - (lnScaled lnBits (2 ^ 25 - (2 * k + 1)) : Nat))
    (2 ^ (lnBits - 18))

/-- X_raw for the 24-bit draw `k` (R146): -ln(u)·2^18 rounded. -/
def expRaw (k : Nat) : Int :=
  rneDiv (((lnScaled lnBits (2 ^ 25) : Nat) : Int) - (lnScaled lnBits (2 * k + 1) : Nat)) (2 ^ (lnBits - 18))

/-- The noise of spin `i`, replica `r`, sweep `w` under a stream tag (R118, R119). It depends on the coordinates alone, so
that equal ones draw equal noise and the engine has no part in it (R122, R224). -/
def noiseL (seed : Quad) (i w r tag : Nat) : Int :=
  logitRaw ((philox seed ⟨i / 4, w, r, tag⟩).word (i % 4) / 256)

/-- The noise of an exchange decision: rung `k`, sweep `w`, ladder `g` (R146). -/
def noiseX (seed : Quad) (k w g : Nat) : Int :=
  expRaw ((philox seed ⟨k / 4, w, g, 1⟩).word (k % 4) / 256)

/-- The random initial spin (R138): bit 31 of the draw under tag 2. -/
def randomSpin (seed : Quad) (i r : Nat) : Bool :=
  ((philox seed ⟨i / 4, 0, r, 2⟩).word (i % 4)).testBit 31

/-- The comparator (R114): f·2^35 ≥ T·L, both exact, for a field f = m·2^e. -/
def acceptUp (m : Int) (e : Int) (tRaw : Nat) (l : Int) : Bool :=
  let x := e + 35
  if x ≥ 0 then decide (m * (2 ^ x.toNat : Nat) ≥ (tRaw : Int) * l)
  else decide (m ≥ (tRaw : Int) * l * (2 ^ (-x).toNat : Nat))

end Sys2Proof
end

