-- ==== Sys2Proof/Machine/Sha.lean ====
section
/-! DEFINITION. SHA-256 (FIPS 180-4, named by R360, R424, R489), the chunked digest LD of R360, HMAC and HKDF
(R487), and the CRCs of R475 and R521. -/

namespace Sys2Proof

/-- A string of `n` 32-bit words written as one number, first word highest. -/
def wordsOf (n x : Nat) : List Nat := (List.range n).map fun i => x / 2 ^ (32 * (n - 1 - i)) % 2 ^ 32

/-- The sum modulo 2^32. -/
def sum32 (l : List Nat) : Nat := l.foldl (· + ·) 0 % 2 ^ 32

/-- The three-way exclusive or of a word's rotations right by `p`, `q` and `r`; with `cut` the last is a shift. -/
def shaMix (cut : Bool) (p q r x : Nat) : Nat :=
  let rot := fun n => x / 2 ^ n + x % 2 ^ n * 2 ^ (32 - n)
  Nat.xor (rot p) (Nat.xor (rot q) (if cut then x / 2 ^ r else rot r))

/-- The 64 round constants, eight to a number. -/
def shaRounds : List Nat :=
  List.flatMap (wordsOf 8)
    [0x428a2f9871374491b5c0fbcfe9b5dba53956c25b59f111f1923f82a4ab1c5ed5,
     0xd807aa9812835b01243185be550c7dc372be5d7480deb1fe9bdc06a7c19bf174,
     0xe49b69c1efbe47860fc19dc6240ca1cc2de92c6f4a7484aa5cb0a9dc76f988da,
     0x983e5152a831c66db00327c8bf597fc7c6e00bf3d5a7914706ca635114292967,
     0x27b70a852e1b21384d2c6dfc53380d13650a7354766a0abb81c2c92e92722c85,
     0xa2bfe8a1a81a664bc24b8b70c76c51a3d192e819d6990624f40e3585106aa070,
     0x19a4c1161e376c082748774c34b0bcb5391c0cb34ed8aa4a5b9cca4f682e6ff3,
     0x748f82ee78a5636f84c878148cc7020890befffaa4506cebbef9a3f7c67178f2]

/-- The eight words that a hash starts from. -/
def shaInit : List Nat :=
  wordsOf 8 0x6a09e667bb67ae853c6ef372a54ff53a510e527f9b05688c1f83d9ab5be0cd19

/-- The eight working words after a round whose constant and message word sum to `kw`. -/
def shaRound (kw : Nat) : List Nat → List Nat
  | [a, b, c, d, e, f, g, h] =>
    let t := h + shaMix false 6 11 25 e + Nat.xor g (Nat.land e (Nat.xor f g)) + kw
    let u := shaMix false 2 13 22 a + Nat.lor (Nat.land a b) (Nat.land c (Nat.lor a b))
    [sum32 [t, u], a, b, c, sum32 [d, t], e, f, g]
  | other => other

/-- A round together with the window of sixteen message words, whose next word follows from it. -/
def shaStep (st : List Nat × List Nat) (k : Nat) : List Nat × List Nat :=
  let w := fun i => st.2.getD i 0
  (shaRound (k + w 0) st.1,
   st.2.drop 1 ++ [sum32 [w 0, shaMix true 7 18 3 (w 1), w 9, shaMix true 17 19 10 (w 14)]])

/-- The chaining words after one block of 64 bytes. -/
def shaBlock (c : List Nat) (m : List Byte) : List Nat :=
  let w := (List.range 16).map fun i => beNat (slice (4 * i) 4 m)
  List.zipWith (fun x y => sum32 [x, y]) c (shaRounds.foldl shaStep (c, w)).1

/-- The chaining words after `n` blocks. -/
def shaBlocks : Nat → List Byte → List Nat → List Nat
  | 0, _, c => c
  | n + 1, m, c => shaBlocks n (m.drop 64) (shaBlock c m)

/-- The padded message. -/
def shaPad (m : List Byte) : List Byte :=
  let l := m.length
  m ++ [0x80] ++ List.replicate ((119 - l % 64) % 64) 0 ++ beBytes 8 (8 * l)

/-- SHA-256 as 32 bytes in output order. -/
def sha256 (m : List Byte) : List Byte :=
  let p := shaPad m
  (shaBlocks (p.length / 64) p shaInit).flatMap (beBytes 4)

/-- A digest as it is kept: first byte lowest (R372). -/
def digestOf (m : List Byte) : Digest := BitVec.ofNat 256 (leNat (sha256 m))

/-- The 32 bytes of a kept digest, in SHA-256 output order. -/
def digestBytes (d : Digest) : List Byte := leBytes 32 d.toNat

/-- The 1 MiB chunks of a byte string. -/
def chunks1M : Nat → List Byte → List (List Byte)
  | 0, _ => []
  | n + 1, x => x.take 0x100000 :: chunks1M n (x.drop 0x100000)

/-- The chunked digest LD(x) (R360). -/
def chunkedDigest (x : List Byte) : List Byte :=
  sha256 (leBytes 8 x.length ++ ((chunks1M (ceilDiv x.length 0x100000) x).map sha256).flatten)

/-- HMAC-SHA-256 with a key of at most 64 bytes. -/
def hmac (key m : List Byte) : List Byte :=
  let k := slice 0 64 key
  sha256 (k.map (· ^^^ 0x5c) ++ sha256 (k.map (· ^^^ 0x36) ++ m))

/-- HKDF-SHA-256, one block, empty info (R487). -/
def hkdf (salt ikm : List Byte) : List Byte := hmac (hmac salt ikm) [1]

/-- One bit of a reflected CRC. -/
def crcStep (poly : Nat) : Nat → Nat → Nat
  | 0, c => c
  | n + 1, c => crcStep poly n (if c % 2 = 1 then Nat.xor (c / 2) poly else c / 2)

/-- CRC-32 with the polynomial of IEEE 802.3 (R521). -/
def crc32 (m : List Byte) : Nat :=
  Nat.xor (m.foldl (fun c b => crcStep 0xEDB88320 8 (Nat.xor c b.toNat)) 0xFFFFFFFF) 0xFFFFFFFF

/-- One bit of the CRC-64 shift, most significant bit first. -/
def crc64Step : Nat → Nat → Nat
  | 0, c => c
  | n + 1, c =>
    crc64Step n (if c ≥ 2 ^ 63 then Nat.xor (c * 2 % 2 ^ 64) 0x42F0E1EBA9EA3693 else c * 2)

/-- CRC-64 with the ECMA-182 polynomial (R475). -/
def crc64 (m : List Byte) : Nat :=
  m.foldl (fun c b => crc64Step 8 (Nat.xor c (b.toNat * 2 ^ 56))) 0

end Sys2Proof
end

