-- ==== Sys2Proof/Machine/Crypto.lean ====
section
/-! DEFINITION. The signature and authentication functions the manual names: ECDSA P-256 with SHA-256 (R486, R489,
R501, R504) and AES-256-GCM (R466, R475, R489). Curve, tables and byte orders are those of FIPS 186-4, FIPS 197 and
SP 800-38D, which the manual names and does not reprint (log 12). -/

namespace Sys2Proof

def p256P : Nat := 0xFFFFFFFF00000001000000000000000000000000FFFFFFFFFFFFFFFFFFFFFFFF
def p256N : Nat := 0xFFFFFFFF00000000FFFFFFFFFFFFFFFFBCE6FAADA7179E84F3B9CAC2FC632551
def p256B : Nat := 0x5AC635D8AA3A93E7B3EBBD55769886BC651D06B0CC53B0F63BCE3C3E27D2604B
def p256Gx : Nat := 0x6B17D1F2E12C4247F8BCE6E563A440F277037D812DEB33A0F4A13945D898C296
def p256Gy : Nat := 0x4FE342E2FE1A7F9B8EE7EB4A7C0F9E162BCE33576B315ECECBB6406837BF51F5

/-- a^k mod m by square and multiply, `n` bits of the exponent. -/
def powMod (m : Nat) : Nat → Nat → Nat → Nat
  | 0, _, _ => 1 % m
  | n + 1, a, k =>
    let r := powMod m n (a * a % m) (k / 2)
    if k % 2 = 1 then a * r % m else r

/-- The inverse modulo a prime. -/
def invMod (m a : Nat) : Nat := powMod m 256 (a % m) (m - 2)

/-- a - b modulo m. -/
def subMod (m a b : Nat) : Nat := (a % m + (m - b % m)) % m

/-- A point of the curve in projective coordinates (x : y : z); z = 0 is the point at infinity. -/
structure P256Pt where
  x : Nat
  y : Nat
  z : Nat
deriving DecidableEq, Repr

/-- Doubling, Jacobian coordinates, a = -3. -/
def p256Dbl (q : P256Pt) : P256Pt :=
  if q.z = 0 then q else
  let p := p256P
  let d := q.z * q.z % p
  let g := q.y * q.y % p
  let b := q.x * g % p
  let a := 3 * (subMod p q.x d * (q.x + d)) % p
  let x3 := subMod p (a * a) (8 * b)
  let z3 := subMod p (subMod p ((q.y + q.z) * (q.y + q.z)) g) d
  ⟨x3, subMod p (a * subMod p (4 * b) x3) (8 * g * g), z3⟩

/-- Addition, Jacobian coordinates. -/
def p256Add (q r : P256Pt) : P256Pt :=
  if q.z = 0 then r else if r.z = 0 then q else
  let p := p256P
  let z1 := q.z * q.z % p
  let z2 := r.z * r.z % p
  let u1 := q.x * z2 % p
  let u2 := r.x * z1 % p
  let s1 := q.y * r.z % p * z2 % p
  let s2 := r.y * q.z % p * z1 % p
  let h := subMod p u2 u1
  let rr := subMod p s2 s1
  if h = 0 then (if rr = 0 then p256Dbl q else ⟨1, 1, 0⟩) else
  let h2 := h * h % p
  let h3 := h2 * h % p
  let v := u1 * h2 % p
  let x3 := subMod p (subMod p (rr * rr) h3) (2 * v)
  ⟨x3, subMod p (rr * subMod p v x3) (s1 * h3), h * q.z % p * r.z % p⟩

/-- k·q, `n` bits of k from the top. -/
def p256Mul : Nat → Nat → P256Pt → P256Pt
  | 0, _, _ => ⟨1, 1, 0⟩
  | n + 1, k, q =>
    let r := p256Dbl (p256Mul n (k / 2) q)
    if k % 2 = 1 then p256Add r q else r

/-- The affine x coordinate. -/
def p256X (q : P256Pt) : Nat :=
  let zi := invMod p256P q.z
  q.x * (zi * zi % p256P) % p256P

/-- Is (x, y) on the curve? -/
def p256On (x y : Nat) : Bool :=
  decide (x < p256P ∧ y < p256P ∧
    y * y % p256P = (x * x % p256P * x + p256B + (p256P - 3) * x) % p256P)

/-- A 512-bit key or signature as bytes. -/
def keyBytes (k : BitVec 512) : List Byte := leBytes 64 k.toNat

/-- ECDSA P-256 with SHA-256: does `sig` (r then s, 32 bytes each) verify over `m` under `key` (x then y)? -/
def ecdsaVerify (key m sig : List Byte) : Bool :=
  let x := beNat (slice 0 32 key)
  let y := beNat (slice 32 32 key)
  let r := beNat (slice 0 32 sig)
  let s := beNat (slice 32 32 sig)
  if p256On x y && decide (0 < r ∧ r < p256N ∧ 0 < s ∧ s < p256N) && decide (key.length = 64 ∧ sig.length = 64) then
    let e := beNat (sha256 m) % p256N
    let w := invMod p256N s
    let pt := p256Add (p256Mul 256 (e * w % p256N) ⟨p256Gx, p256Gy, 1⟩) (p256Mul 256 (r * w % p256N) ⟨x, y, 1⟩)
    decide (pt.z ≠ 0) && decide (p256X pt % p256N = r)
  else false

/-- The ECDH shared x coordinate of a private scalar and a peer's point. -/
def ecdh (priv : Nat) (key : List Byte) : List Byte :=
  beBytes 32 (p256X (p256Mul 256 priv ⟨beNat (slice 0 32 key), beNat (slice 32 32 key), 1⟩))

/-- The public key of a private scalar: x then y, 32 bytes each. -/
def ecdhPublic (priv : Nat) : List Byte :=
  let q := p256Mul 256 priv ⟨p256Gx, p256Gy, 1⟩
  let zi := invMod p256P q.z
  beBytes 32 (p256X q) ++ beBytes 32 (q.y * (zi * zi % p256P * zi % p256P) % p256P)

/-- HMAC-SHA-256 (FIPS 198-1). -/
def hmac256 (key m : List Byte) : List Byte :=
  let k := slice 0 64 (if 64 < key.length then sha256 key else key)
  sha256 (k.map (· ^^^ 0x5C) ++ sha256 (k.map (· ^^^ 0x36) ++ m))

/-- 32 bytes of HKDF-SHA-256 without an info string (RFC 5869). -/
def hkdf32 (salt secret : List Byte) : List Byte := hmac256 (hmac256 salt secret) [1]

/-- Multiplication in the field of AES, `n` bits of `b`. -/
def aesMul : Nat → Nat → Nat → Nat
  | 0, _, _ => 0
  | n + 1, a, b =>
    let a2 := if a ≥ 128 then Nat.xor (a * 2 % 256) 0x1b else a * 2
    Nat.xor (if b % 2 = 1 then a else 0) (aesMul n a2 (b / 2))

/-- The inverse in the field of AES: the 254th power, by seven squarings. -/
def aesInv (a : Nat) : Nat :=
  let sq := fun x => aesMul 8 x x
  let a2 := sq a
  let a4 := sq a2
  let a8 := sq a4
  let a16 := sq a8
  let a32 := sq a16
  let a64 := sq a32
  let a128 := sq a64
  aesMul 8 a128 (aesMul 8 a64 (aesMul 8 a32 (aesMul 8 a16 (aesMul 8 a8 (aesMul 8 a4 a2)))))

/-- Rotate a byte left. -/
def rotl8 (n x : Nat) : Nat := (x * 2 ^ n + x / 2 ^ (8 - n)) % 256

/-- The substitution box. -/
def aesSbox (x : Nat) : Nat :=
  let b := aesInv x
  Nat.xor (Nat.xor (Nat.xor (Nat.xor (Nat.xor b (rotl8 1 b)) (rotl8 2 b)) (rotl8 3 b)) (rotl8 4 b)) 0x63

/-- The key schedule, newest word first: `n` more words of four bytes from index `i`. -/
def aesExpand : Nat → Nat → Nat → List (List Nat) → List (List Nat)
  | 0, _, _, w => w
  | n + 1, i, rc, w =>
    let t := w.headD []
    let t1 := if i % 8 = 0 then
        (match (t.drop 1 ++ t.take 1).map aesSbox with
         | a :: r => Nat.xor a rc :: r
         | [] => [])
      else if i % 8 = 4 then t.map aesSbox else t
    aesExpand n (i + 1) (if i % 8 = 0 then aesMul 8 rc 2 else rc)
      ((List.zipWith Nat.xor (w.getD 7 []) t1) :: w)

/-- The 15 round keys of AES-256. -/
def aesKeys (key : List Byte) : List (List Nat) :=
  let k := (slice 0 32 key).map BitVec.toNat
  let ws := (aesExpand 52 8 1 (((List.range 8).map fun i => (k.drop (4 * i)).take 4).reverse)).reverse
  (List.range 15).map fun i => ((ws.drop (4 * i)).take 4).flatten

/-- ShiftRows on 16 bytes, column by column. -/
def aesShift (s : List Nat) : List Nat :=
  (List.range 16).map fun i => s.getD ((i + 4 * (i % 4)) % 16) 0

/-- MixColumns on one column. -/
def aesMixCol (c : List Nat) : List Nat :=
  (List.range 4).map fun i =>
    Nat.xor (Nat.xor (aesMul 8 (c.getD i 0) 2) (aesMul 8 (c.getD ((i + 1) % 4) 0) 3))
      (Nat.xor (c.getD ((i + 2) % 4) 0) (c.getD ((i + 3) % 4) 0))

/-- MixColumns. -/
def aesMix (s : List Nat) : List Nat :=
  ((List.range 4).map fun i => aesMixCol ((s.drop (4 * i)).take 4)).flatten

/-- The middle rounds. -/
def aesRounds : List (List Nat) → List Nat → List Nat
  | [], s => s
  | [k], s => List.zipWith Nat.xor (aesShift (s.map aesSbox)) k
  | k :: ks, s => aesRounds ks (List.zipWith Nat.xor (aesMix (aesShift (s.map aesSbox))) k)

/-- AES-256 of one block. -/
def aesBlock (key blk : List Byte) : List Byte :=
  match aesKeys key with
  | [] => []
  | k0 :: ks => (aesRounds ks (List.zipWith Nat.xor ((slice 0 16 blk).map BitVec.toNat) k0)).map (BitVec.ofNat 8)

/-- GHASH multiplication: `n` bits of `x` from the top, `v` doubling. -/
def ghMul : Nat → Nat → Nat → Nat
  | 0, _, _ => 0
  | n + 1, x, v =>
    Nat.xor (if x.testBit n then v else 0)
      (ghMul n x (if v % 2 = 1 then Nat.xor (v / 2) (0xE1 * 2 ^ 120) else v / 2))

/-- GHASH over 16-byte blocks, `n` of them. -/
def ghash (h : Nat) : Nat → List Byte → Nat → Nat
  | 0, _, y => y
  | n + 1, m, y => ghash h n (m.drop 16) (ghMul 128 (Nat.xor y (beNat (slice 0 16 m))) h)

/-- A byte string padded to whole blocks. -/
def pad16 (m : List Byte) : List Byte := m ++ List.replicate ((16 - m.length % 16) % 16) 0

/-- The AES-256-GCM tag of ciphertext `c` with additional data `a` and a 12-byte IV. -/
def gcmTag (key iv a c : List Byte) : List Byte :=
  let h := beNat (aesBlock key (List.replicate 16 0))
  let m := pad16 a ++ pad16 c ++ beBytes 8 (8 * a.length) ++ beBytes 8 (8 * c.length)
  let y := ghash h (m.length / 16) m 0
  List.zipWith (· ^^^ ·) (aesBlock key (slice 0 12 iv ++ beBytes 4 1)) (beBytes 16 y)

/-- Counter-mode encryption, `n` blocks from counter `i` (also decryption). -/
def gcmCtr (key iv : List Byte) : Nat → Nat → List Byte → List Byte
  | 0, _, _ => []
  | n + 1, i, m =>
    List.zipWith (· ^^^ ·) (m.take 16) (aesBlock key (slice 0 12 iv ++ beBytes 4 i)) ++
      gcmCtr key iv n (i + 1) (m.drop 16)

/-- GCTR of SP 800-38D with any 16-byte initial counter: its last 32 bits count. -/
def gctr (key icb m : List Byte) : List Byte :=
  gcmCtr key icb (ceilDiv m.length 16) (beNat (slice 12 4 icb)) m

/-- AES-256-GCM encryption of the text. -/
def gcmCrypt (key iv m : List Byte) : List Byte := gcmCtr key iv (ceilDiv m.length 16) 2 m

end Sys2Proof
end

