-- ==== Sys2Proof/Config.lean ====
section
/-! DEFINITION. What an implementation fixes and the manual leaves open. Every constant here is opaque: it has no
body, so nothing in Lean can evaluate it, and a theorem holds whatever it is (assumption log 1). -/

namespace Sys2Proof.Config

/-- A free number, fresh for each value of the counter `State.free` (log 1). -/
opaque freeNat : Nat → Nat

/-- A free byte at an address, fresh for each value of the counter: a byte of a model's own extents seen through
BAR2, whose layout the manual does not give (R76), or a line delivered with an undetected error (R258). -/
opaque freeByte : Nat → Nat → Byte

/-- Which of the FP32 values within 2 units in the last place of the exact one the vector unit's function number `f` gives
at an argument num/den: R195 leaves that to ARITH_REV. Its residue modulo 9, less 4, is the distance in FP32 values from
the nearest one; a distance that leaves the bound counts as 0 (log 10). -/
opaque ulpNoise : Nat → Int → Nat → Nat

/-- The smaller of two FP32 values where R228 states no result: a NaN among them, or zeros of both signs (log 10). -/
opaque vminOpen : Word → Word → Word

/-- A key made of words that the generator had not made yet when it was asked for (R519, log 12). -/
opaque freshKey : Nat → BitVec 256

/-- The exchange of IDENTIFY as bytes, from what the device with the lower serial and what the other one sends: R486 and
R487 sign it and salt the link key with it and do not lay it out (log 12). -/
opaque exchange : List Byte → List Byte → List Byte

/-- The device's signature over an exchange by its identity key, which is in no register (R486, log 12). -/
opaque identitySign : Nat → List Byte → List Byte

/-- The 16 parity bytes of a flit's other 256 (R473): RS(272,256) over GF(2^8), as the manual names it, has no generator
polynomial there, and no plain Reed-Solomon code over that field is so long (log 66). -/
opaque flitParity : List Byte → BitVec 128

/-- Ticks that the service port takes over a request of an operation (R488 gives no time) (log 25). -/
opaque svcTicks : Nat → Nat

/-- Ticks that an Ethernet port takes to retrain (R489) (log 25). -/
opaque portTicks : Nat → Nat

/-- BEST_REPLICA and BEST_ENERGY of a run whose best energies are all NaN (R117, R150), from its seed and those energies:
the manual names no holder, and equal runs agree (R22, R391, log 51). -/
opaque nanBestReplica : Quad → List Quad → Nat
opaque nanBestEnergy : Quad → List Quad → Quad

/-- A header field of a split run's result, by the field's number, that R164 has equal on every device and that no device
can form alone, from what all devices of the group share (log 30). -/
opaque splitField : Nat → List Nat → Nat

/-- How many DATA bytes a Blotter record of a code uses (log 14). -/
opaque blotterUsed : Nat → Nat

/-- The failure field of a TABLE_ENTRY record for an entry that is not applied as a command with a DETAIL (R522 names the
field and R490 gives no codes) (log 14). -/
opaque tableFailure : Nat → Nat

/-- How the DATA bytes of a Blotter record of code `c` hold their fields (R522 names the fields and gives no layout)
(log 14). -/
opaque blotterData : Nat → List Nat → BitVec 768

/-- The body of a GET_STATUS response, of which R489 gives only its name (log 14). -/
opaque statusBody : List Nat → List Byte

/-- The E64's own layout of the save area's last four sections (R387): the byte of the natural order is stored
changed by this mask at its offset, so nothing can be proved of a stored byte and what was saved is still restored
(log 14). -/
opaque saveMask : Nat → Byte

/-- The 16-byte initial counter of a Carafe line's encryption: R264 forms it from the boot nonce and the line's physical
address and does not say how (log 12). -/
opaque carafeCounter : Nat → Nat → List Byte

/-- The Carafe position that a scrub read visits (R261 gives the rate and not the order) (log 15). -/
opaque scrubLine : Nat → Nat → Nat
/-- The job key that a SET_JOB_KEY request's wrapped bytes hold for the part with this serial, or none where they do not
unwrap: R489 names ECDH P-256 and AES-256-GCM and gives neither the identity key nor the key derivation (log 12). -/
opaque unwrapJobKey : Nat → List Byte → Option (BitVec 256)

end Sys2Proof.Config
end

