-- ==== Sys2Proof/Machine/State.lean ====
section
/-! DEFINITION. The state of the E64: every piece of state the manual names, as plain data, with the queue of waiting
commands. INVENTORY.md lists each with its rule and reset value. -/

namespace Sys2Proof.Machine

/-- Why a step stops with a fault. No command of the table raises one: the manual gives every failure a status, a
counter or a state (NOTES.md, Stops). Safe. -/
inductive Fault where
  /-- Raised by nothing: kept so that the type has a member. Safe. -/
  | none
deriving DecidableEq, Repr

/-- Why a step refuses. -/
inductive Refusal where
  /-- A row of the table that has no meaning yet; raised by `exec` only. Safe. -/
  | notModelled (mnemonic : String)
deriving DecidableEq, Repr

/-! ## Fuses and flash (R496: kept across every reset) -/

/-- Fuses. `repairs`: columns repaired by fuses, per bank: scratchpad banks under key 48·engine + bank, banks of cluster
memory under key 4096 + 16·cluster + bank (R277). -/
structure Fuses where
  serial : BitVec 56
  badEngines : BitVec 72
  svnMin : BitVec 6
  noiseRev : BitVec 8
  arithRev : BitVec 8
  eccRev : BitVec 8
  mac : List (BitVec 48)
  vendorKey : BitVec 512
  repairs : Tab (BitVec 8)
  decommissioned : Bool
  identity : Bool
deriving DecidableEq, Repr

/-- Firmware slot states (R508), in the order of FW_SLOT.STATE. -/
inductive SlotState where
  | empty | receiving | pending | trial | active | backup | rejected
deriving DecidableEq, Repr

/-- A firmware slot: state, LENGTH and digest given at BEGIN, image bytes, offsets of the blocks received. -/
structure Slot where
  st : SlotState
  length : Nat
  digest : List Byte
  image : Tab Byte
  blocks : List Nat
deriving DecidableEq, Repr

/-- One of the two copies of the slot directory: its sequence number and the states of both slots (R508). -/
structure DirCopy where
  seq : Nat
  st0 : SlotState
  st1 : SlotState
deriving DecidableEq, Repr

/-- An Ethernet port's owner-set addresses (R454). -/
structure EthAddr where
  mac : Option (BitVec 48)
  ip4 : BitVec 32
  ip6 : BitVec 128
  jobPort : BitVec 16
deriving DecidableEq, Repr

/-- On-package flash. `softRepairs` is keyed as `Fuses.repairs` is; `jobNonce` counts the NONCEs that the device
has used in job frames of its own, kept as the job keys are (R466, R469). -/
structure Flash where
  owner : Option (BitVec 512)
  lock : Bool
  nonce : Word
  timeoutMs : BitVec 22
  crypt : Bool
  kwEncrypt : Bool
  kwRefuse : Bool
  eth : List EthAddr
  jobKey : List (Option (BitVec 256))
  cert : Option Cert
  staged : Tab Byte
  stagedLen : Nat
  table : List Byte
  portsOn : BitVec 10
  slot0 : Slot
  slot1 : Slot
  dirA : DirCopy
  dirB : DirCopy
  confirmS : BitVec 12
  retired : List (Nat × Nat)
  removed : List Nat
  softRepairs : Tab (BitVec 8)
  jobNonce : Nat
  bootCount : Nat
  watchdogs : List Nat
  lastOnline : Nat
  lastFails : Nat
deriving DecidableEq, Repr

/-! ## Boot and firmware -/

/-- Where the part stands between a reset and service. -/
inductive Phase where
  /-- Held in reset by a thermal trip or a brown-out (R532, R543). -/
  | held
  /-- Reset released, the boot sequence not yet run. -/
  | booting
  /-- BAR0 is accessible (R498). -/
  | running
  /-- R502. -/
  | recovery
  /-- R503. -/
  | decommissioned
deriving DecidableEq, Repr

/-- Boot state and the FW registers (R526). `trained` are the Carafe channels that this boot trained. -/
structure BootSt where
  phase : Phase
  cause : BitVec 4
  t0 : Nat
  trial : Bool
  windowS : Nat
  trained : BitVec 24
  thermal : Bool
  brown : List Nat
  latched : List Nat
  tableFails : Nat
  readyMs : BitVec 16
  major : BitVec 8
  minor : BitVec 8
  build : BitVec 16
  slot : Nat
  status : BitVec 5
  intEn : BitVec 5
  refOp : BitVec 8
  refReason : BitVec 8
deriving DecidableEq, Repr

/-! ## Front end (08) -/

/-- FE registers and the fault log. -/
structure FeSt where
  status : BitVec 6
  intEn : BitVec 6
  timeoutMs : BitVec 22
  badAccess : Word
  dupCmd : Word
  dupDoorbell : Word
  dbIgnored : Word
  peerReject : Word
  peerReplay : Word
  flogCount : Word
  flogSel : BitVec 20
  qsel : BitVec 16
  cmds : Quad
  aqSq : Quad
  aqCq : Quad
  aqCtrl : Word
  flog : Tab (BitVec 512)
  latch : Tab (Option Word)
deriving DecidableEq, Repr

inductive QState where
  | unused | active | error | destroying
deriving DecidableEq, Repr

/-- What becomes of a queue under destruction (R343): the destroying command's SEQ and the counts of the record. -/
structure Tally where
  seq : Word
  cancelled : Nat
  drained : Nat
  killed : Nat
  errFences : Nat
  killedCmds : Nat
  drainedCmds : Nat
deriving DecidableEq, Repr

/-- A queue (R288 to R306, R344). KIND: 0 admin, 1 kernel, 2 user. PORT as R305 codes it. -/
structure Queue where
  st : QState
  kind : BitVec 2
  cls : BitVec 3
  ctx : BitVec 8
  port : BitVec 4
  ringDev : Bool
  ats : Bool
  msix : BitVec 16
  sqAddr : Quad
  cqAddr : Quad
  sqLog : BitVec 5
  cqLog : BitVec 5
  expSeq : Word
  timeoutMs : Word
  drainMs : Word
  source : Quad
  sqTail : Word
  sqHead : Word
  cqTail : Word
  cqHead : Word
  cause : BitVec 4
  stopped : Bool
  diverted : Bool
  lastSeq : Option Word
  lastFrame : Quad
  notify : Option (NetAddr × Nat × List Word × Word)
  recent : List (Word × BitVec 8)
  tally : Tally
deriving DecidableEq, Repr

/-- A fence (R320). -/
structure Fence where
  val : BitVec 63
  err : Bool
  ctx : BitVec 8
  peerOk : Bool
  binding : BitVec 6
deriving DecidableEq, Repr

/-- A peer binding (R347, R482): signal numbers sent and accepted, checkpoints (SEQ, k) received in its epoch (R382). -/
structure Binding where
  bound : Bool
  serial : BitVec 56
  link : BitVec 3
  epoch : Word
  sent : Word
  got : Word
  seen : List (Word × Nat)
deriving DecidableEq, Repr

/-! ## Work in progress -/

/-- A flip list of one class and tile (R104): when it was written, and its entries (spin, replica mask). -/
structure FlipList where
  stamp : Nat
  entries : List (Nat × Nat)
deriving DecidableEq, Repr

/-- Lock-step of one command (R376 to R382). -/
structure LockStep where
  on : Bool
  entry : Nat
  binding : Nat
  window : Nat
  own : List (Nat × Digest)
  peer : List (Nat × Digest)
  firstBad : Option Nat
  alone : Bool
deriving DecidableEq, Repr

/-- A split run (R160 to R165): members joined (index, link, NEIGHBOURS), how many turns of each member have come whole,
spins not yet applied, partial energies. -/
structure SplitSt where
  devices : Nat
  index : Nat
  group : Word
  lag : Nat
  digest : Digest
  joined : List (Nat × Nat × Quad)
  complete : Bool
  spinsGot : List (Nat × Nat)
  spinsLate : List (Nat × Nat × Nat × Nat × List Byte)
  energies : List (Nat × Nat × List Quad)
  late : Quad
  sentPartial : Option Nat
deriving DecidableEq, Repr

/-- An annealing run. Replica r's spins are a number whose bit i is spin i by R18; energies are int64 or FP64 bits. -/
structure Run where
  model : Nat
  sweepBlk : List Byte
  repBlk : List Byte
  ladder : List Word
  seed : Quad
  ordered : Bool
  digest : Bool
  interval : Nat
  settings : Word
  started : Bool
  resumed : Bool
  spins : List Nat
  best : List Nat
  energy : List Quad
  bestE : List Quad
  bestSweep : List Word
  rung : List Nat
  att : List Word
  acc : List Word
  rungAtt : List Word
  rungAcc : List Word
  fields : Tab Word
  valid : Nat
  lists : Tab FlipList
  cls : Nat
  sweep : Nat
  turnNo : Nat
  done : Word
  full : Quad
  delta : Quad
  conflicts : Quad
  steps : Quad
  rounds : Word
  stall : Word
  runBest : Quad
  inertForced : Bool
  odd : Bool
  mismatch : Bool
  trunc : Bool
  nonfinite : Bool
  startTime : Quad
  endTime : Quad
  copies : List (Nat × List Nat)
  stop : Option (Nat × Nat)
  ckpts : Word
  chain : Digest
  inputDigest : Digest
  workspace : List Nat
  ls : LockStep
  split : SplitSt
deriving DecidableEq, Repr

/-- A program engine that waits in RED: its number, the reduce entry, the group, ORDER (R226). -/
structure RedWait where
  p : Nat
  entry : Nat
  group : Nat
  order : Bool
deriving DecidableEq, Repr

/-- A program engine that waits in a shared DMA: its number, the tag, the external range, its own ranges (R232). -/
structure ShareWait where
  p : Nat
  tag : Nat
  device : Bool
  addr : Nat
  rec' : Nat
  gap : Nat
  len : Nat
  dst : List (Nat × Nat)
deriving DecidableEq, Repr

/-- A running engine program. -/
structure Prog where
  image : List Byte
  preloads : List (List Byte)
  shares : List (Nat × Nat)
  reduces : List (List Nat)
  params : List Byte
  seed : Quad
  ordered : Bool
  digest : Bool
  settings : Word
  engs : List Nat
  claimNext : Nat
  claimCnt : Tab Nat
  ended : List Nat
  waitBar : List Nat
  waitShare : List ShareWait
  waitRed : List RedWait
  bars : Nat
  chain : Digest
  ckpts : Word
  preDigest : Digest
  inBytes : List (List Byte)
  outBytes : List (List Byte)
  outSince : List (List Byte)
  ls : LockStep
deriving DecidableEq, Repr

/-- What a RUNNING (or admitted) command is doing. -/
inductive Work where
  | none
  | copy
  | load (id : Nat)
  | anneal (r : Run)
  | program (p : Prog)
  | peerSignal (num : Word)
  | target (t : Key) (pause : Bool)
  | destroy
  | unmap (exts : List Nat) (waitFor : List Key) (count : Nat)
  | unload (id : Nat)
deriving DecidableEq, Repr

inductive CState where
  | waiting | admitting | ready | running
deriving DecidableEq, Repr

/-- A command's final status: STATUS, DETAIL, VALUE, and the record's PC, GROUP, WHERE. -/
structure Decision where
  status : BitVec 8
  detail : BitVec 8
  value : Quad
  pc : BitVec 12
  group : BitVec 3
  loc : BitVec 7
  time : Quad
deriving DecidableEq, Repr

/-- A pause's claim on a run: the save area's address, and the PAUSE's queue and SEQ. -/
structure PauseReq where
  area : Quad
  byQueue : BitVec 16
  seq : Word
deriving DecidableEq, Repr

/-- A translation entry (R249). -/
structure VEntry where
  valid : Bool
  read : Bool
  write : Bool
  ext : BitVec 13
deriving DecidableEq, Repr

/-- A command from FETCHED to COMPLETE. `blocks` are Quill's copies of the blocks it names (R309), patched (R311):
number, bytes. `retryWaits` are the Kweow retries it waited on (R372), `view` the translation entries as its admission
found them, which are the ones it uses (R251), and `spares` those of its engines that a spare serves (R357). -/
structure Cmd where
  key : Key
  raw : List Byte
  st : CState
  prev : Option Word
  order : Nat
  timeout : Nat
  freePoint : Word
  interval : Nat
  lsEntry : Option (Nat × Word)
  blocks : List (Nat × List Byte)
  blockFail : Option (Nat × Decision)
  engines : List Nat
  anyEngines : Nat
  decided : Option Decision
  pause : Option PauseReq
  retryWaits : Word
  work : Work
  view : Tab VEntry := []
  spares : Nat := 0
deriving DecidableEq, Repr

/-! ## Memory (07) -/

/-- What becomes of an allocatable extent. `zeroed` is one of a model in UNLOADING that has been zeroed and is held until
the unload completes (R88). -/
inductive ExtState where
  | unzeroed | free | owned | mapped | releasing | zeroed | removed
deriving DecidableEq, Repr

/-- Bytes of a scratchpad or cluster memory that hold what an on-chip model's load left there: the manual gives no layout
(R77), so each reads as a free value of the range's `seed` (log 8). Keys as in `spadKey` and `clusterKey`. -/
structure OpenRange where
  lo : Nat
  hi : Nat
  seed : Nat
deriving DecidableEq, Repr

/-- Memories, extents, translation and the MEM registers (R283). Scratchpads are keyed by physical engine. `carafe`
holds what the lines decrypt to (R264), `secure` the number of the secure region's contents, none when it is all zero
(R279). -/
structure MemSt where
  carafe : Tab Byte
  cluster : Tab Byte
  spad : Tab Byte
  symErr : Tab Nat
  poison : List Nat
  writeBack : List Nat
  ceLines : Tab Nat
  ext : Tab ExtState
  marked : List Nat
  vmap : Tab VEntry
  status : BitVec 7
  intEn : BitVec 7
  hot : Bool
  cryptOn : Bool
  locked : Bool
  carafeKey : Option (BitVec 256)
  carafeNonce : Quad
  openBytes : List OpenRange
  bar2Base : Nat
  ce : Quad
  ue : Word
  errInfo : Word
  errAddr : Quad
  tfInfo : Word
  tfAddr : Quad
  bar2Denied : Word
  scrubPasses : Word
  chanCe : Tab Word
  wipes : BitVec 16
  wipeCause : BitVec 2
  wipeFailed : Bool
  wipeActive : Bool
  wipeTries : Nat
  secure : Option Nat
  refSlots : Tab Nat
  scrubCount : Nat
deriving DecidableEq, Repr

/-- Host memory and the PCIe function as the E64 meets them: the outside changes these between steps (log 4). `aer` is
the function's uncorrectable error status (R446, log 65). -/
structure HostSt where
  mem : Tab Byte
  badRead : List (Nat × Nat)
  lost : List (Nat × Nat)
  atsRefused : List (Nat × Nat)
  atsReadOnly : List (Nat × Nat)
  atc : List Nat
  bme : Bool
  msixEn : Bool
  msixMask : Bool
  bar2Log : Nat
  msixTab : Tab Word
  pba : Tab Nat
  aer : Word
deriving DecidableEq, Repr

/-! ## Models (02) -/

inductive MState where
  | absent | loading | ready | inUse | unloading
deriving DecidableEq, Repr

/-- A resident model. Dense couplings are keyed by (row - ROW_FIRST)·N + column: the int8 byte or the BF16 bits. -/
structure Model where
  st : MState
  ctx : BitVec 8
  desc : List Byte
  form : Nat
  n : Nat
  band : Bool
  rowFirst : Nat
  rowCount : Nat
  onchip : Bool
  nnz : Nat
  colours : List (Nat × Nat)
  coup : Tab (BitVec 16)
  codes : Tab Nat
  rowptr : List Nat
  wts : Tab Byte
  idx : Tab Word
  bias : Tab Word
  pairs : List (Nat × Nat)
  trunc : Bool
  conflictPairs : Quad
  digest : Digest
  users : Nat
  exts : List Nat
  reqExts : Nat
  reqBytes : Nat
  avail : Nat
deriving DecidableEq, Repr

/-! ## Engines (05, 06, 07) -/

/-- The accumulators of one nib: integer value, float total and float run (R31, R177). -/
structure Acc where
  v : Word
  t : Quad
  r : Word
deriving DecidableEq, Repr

inductive GState where
  | closed | resident | parked | parking | unparking | draining | starting
deriving DecidableEq, Repr

/-- An accumulation group: flags in the order of R191 bits [5:0]; `tile` 0, 1 or 3; `slot` 0 to 5 or 7; `named` is
when an instruction last named it (R186). -/
structure Group where
  st : GState
  float : Bool
  k : Nat
  n : Nat
  acc : Tab Acc
  flags : BitVec 6
  tile : Nat
  slot : Nat
  named : Nat
deriving DecidableEq, Repr

/-- A tile register (R183). -/
inductive TState where
  | empty | start | accum | held | drain | park | unpark
deriving DecidableEq, Repr

/-- ARR_E_PC.STATE (R242), in its order. -/
inductive PState where
  | idle | preload | run | waitHazard | waitBar | waitShare | waitRed | ended
deriving DecidableEq, Repr

/-- An engine instruction: word 0 and the operands (R211). -/
structure Ins where
  w0 : Nat
  a : Nat
  b : Nat
  c : Nat
deriving DecidableEq, Repr

/-- An instruction that its engine has handed to a unit and that has not finished (R207): its index and words, the scalar
registers as it was issued, and whether it has begun. -/
structure Issued where
  pc : Nat
  ins : Ins
  areg : Tab Word
  begun : Bool
deriving DecidableEq, Repr

/-- A kept scratchpad region (R238): unit, length, source address, queue. -/
structure Kept where
  dst : Nat
  len : Nat
  src : Nat
  queue : BitVec 16
deriving DecidableEq, Repr

/-- A logical engine. `units` are the instructions its units have not finished, in the order of issue. `xwEng` and
`xwNet` are the exchange-window units that the last write there of the engine's port and of the cluster's wrote (R274). -/
structure Engine where
  groups : Tab Group
  tile0 : TState
  tile1 : TState
  fault : Word
  pfault : Word
  pst : PState
  pc : Nat
  progEngine : Nat
  areg : Tab Word
  names : Nat
  units : List Issued
  winBase : Tab (BitVec 17)
  winSize : Tab (BitVec 17)
  winBaseNow : Tab (BitVec 17)
  winSizeNow : Tab (BitVec 17)
  spStatus : BitVec 3
  spCe : Word
  xwCollide : Word
  xwEng : List Nat
  xwNet : List Nat
  cmd : Option Key
  zeroFirst : Bool
  kept : List Kept
  keepNext : List Kept
  dmaOut : List (BitVec 12)
deriving DecidableEq, Repr

/-- Which physical engine serves each logical one (number plus one; 0 none), and the engines lost for good. `offline` and
`subst` are DET_OFFLINE and DET_SUBST as the last boot or substitution set them (R356). -/
structure MapSt where
  phys : Tab Nat
  failed : List Nat
  bad : List Nat
  fuseRep : Tab (BitVec 8)
  softRep : Tab (BitVec 8)
  offline : BitVec 64
  subst : BitVec 64
deriving DecidableEq, Repr

/-- ARR (R201) and ANL (R134) device registers. -/
structure ArrSt where
  status : BitVec 7
  intEn : BitVec 7
  satTiles : Quad
  longTiles : Quad
  fpTiles : Quad
  i8Tiles : Word
  outTiles : Word
  steps : Quad
  parkCorr : Word
  parkUncorr : Word
deriving DecidableEq, Repr

structure AnlSt where
  status : BitVec 6
  intEn : BitVec 6
  sweeps : Quad
  full : Quad
  delta : Quad
  conflicts : Quad
  recompute : Quad
  mismatch : Word
deriving DecidableEq, Repr

/-- DET registers (R393). -/
structure DetSt where
  status : BitVec 4
  intEn : BitVec 5
  ckpt : BitVec 16
  records : Quad
  lsMismatch : Word
  lsReplay : Word
  pauses : Word
  resumes : Word
  lsLast : Word
  lsLastSeq : Word
  lsLastCkpt : Word
  lsCfg : Tab Word
  point : BitVec 8
  cap : BitVec 8
  refclk : BitVec 16
deriving DecidableEq, Repr

/-! ## Interrupt controller (10) -/

inductive SrcState where
  | idle | pending | delivered | active | activePending
deriving DecidableEq, Repr

/-- An interrupt source. `from'`: the target it was last withdrawn from, for ICU_REROUTE (R407). -/
structure Src where
  targets : BitVec 5
  prio : BitVec 4
  en : Bool
  st : SrcState
  holder : Nat
  line : Bool
  withdrawn : Option Nat
deriving DecidableEq, Repr

inductive TPower where
  | awake | sleeping | waking
deriving DecidableEq, Repr

/-- An interrupt target: claims held, with the priority each had when it was made (R403). -/
structure Tgt where
  mask : Bool
  threshold : BitVec 4
  power : TPower
  claims : List (Nat × Nat)
  wakeValid : Bool
  wakeSrc : BitVec 10
deriving DecidableEq, Repr

structure IcuSt where
  src : Tab Src
  tgt : Tab Tgt
  status : BitVec 3
  spurious : Word
  badComplete : Word
  merged : Word
  reroute : Word
  wakes : Word
  bar0Denied : Word
  hostVec : Word
  hostEn : Tab Word
  messages : List Nat
deriving DecidableEq, Repr

/-! ## TRNG (11) -/

inductive RngState where
  | startup | running | restart | kat | fatal
deriving DecidableEq, Repr

/-- The continuous tests of one cell (R426): last sample, run length; APT window's first sample, position, count. -/
structure CellTest where
  last : Option Bool
  run : Nat
  first : Bool
  pos : Nat
  count : Nat
deriving DecidableEq, Repr

/-- The generator. `waiting` are the requests held on private ports, `swWait` the software port's reads that wait (path,
bytes, tick); `seedWords` and `keyWords` the words that Quill and the cipher block have taken towards a seed or a key. -/
structure RngSt where
  st : RngState
  buffer : List Digest
  taken : Nat
  heldBlocks : List Digest
  cells : List CellTest
  periods : Nat
  clean : Nat
  failRun : Nat
  flags : BitVec 7
  intEn : BitVec 7
  katLen : BitVec 8
  katIn : Tab Word
  katOut : Tab Word
  latchBar0 : Word
  latchLocal : Word
  blocks : Quad
  discards : Word
  rctFails : Word
  aptFails : Word
  restarts : Word
  cellFail : BitVec 8
  swNotReady : Word
  waiting : List Nat
  swWait : List (Path × Nat × Nat)
  seedWords : List Word
  keyWords : List Word
  passed : Bool := false
deriving DecidableEq, Repr

/-! ## Ethernet and ingest (12) -/

/-- An Ethernet port's counters; it is up again at tick `upAt` after a retraining (R489). -/
structure PortSt where
  rx : Quad
  fcs : Word
  pause : Word
  dropIp : Word
  jobDrop : Word
  fecUncorr : Word
  upAt : Nat
deriving DecidableEq, Repr

/-- A capture frame in assembly or completed: FRAME_SEQ, the fields every record repeats, records held, and the
arrival of its last record. -/
structure CapFrame where
  seq : Quad
  recCount : Nat
  frameBytes : Nat
  format : BitVec 16
  capTime : Quad
  recs : List (Nat × List Byte)
  tainted : Bool
  time : Quad
deriving DecidableEq, Repr

/-- What the next gap entry will say (R464). -/
structure Gap where
  lo : Quad
  hi : Quad
  full : Nat
  incomplete : Nat
  evicted : Nat
  stopped : Nat
  records : Nat
  bytes : Nat
  bad : Nat
deriving DecidableEq, Repr

inductive StreamState where
  | disabled | active | stopping
deriving DecidableEq, Repr

/-- A stream. `badSeqs` are the numbers of the frames of which a bad record came, not yet accounted for (R457). -/
structure Stream where
  st : StreamState
  port : BitVec 2
  ringLog2 : BitVec 6
  tag : BitVec 16
  udp : BitVec 16
  recUnits : BitVec 8
  ring : Quad
  consAddr : Quad
  prodAddr : Quad
  reasm : BitVec 16
  prod : Quad
  frames : Word
  dropped : Word
  gaps : Word
  stale : Word
  asm : List CapFrame
  complete : List CapFrame
  recent : List Quad
  badSeqs : List Nat
  gap : Gap
deriving DecidableEq, Repr

structure IngSt where
  status : BitVec 4
  intEn : BitVec 4
  ports : Tab PortSt
  streams : Tab Stream
  routes : List (Nat × Nat)
  relays : List (Nat × Datagram)
deriving DecidableEq, Repr

/-! ## Kweow (12) -/

/-- A message of R481: type, VC, bytes 8-11, bytes 12-15, body. -/
structure Msg where
  ty : Nat
  vc : Nat
  w2 : Word
  w3 : Word
  body : List Byte
deriving DecidableEq, Repr

/-- KW_L_STATE.STATE (R494), in its order. -/
inductive LState where
  | disabled | detect | equalize | align | identify | active | holdoff
deriving DecidableEq, Repr

structure Link where
  st : LState
  cause : BitVec 3
  epoch : BitVec 16
  sameInst : Bool
  encrypted : Bool
  reversed : Bool
  peer : BitVec 56
  lastPeer : Option (BitVec 56)
  key : BitVec 256
  txLsn : Nat
  rxLsn : Nat
  unacked : List Flit
  queued : List Flit
  sentVc : List Nat
  freedVc : List Nat
  peerFreed : List Nat
  sinceAlign : Nat
  retriesInRow : Nat
  asm : List (Nat × List Byte)
  inbox : List Msg
  tx : Quad
  rx : Quad
  fecCorr : Word
  retries : Word
  dup : Word
  trainFails : Word
  retrains : Word
deriving DecidableEq, Repr

structure KwSt where
  status : BitVec 16
  intEn : BitVec 16
  encrypt : Bool
  refuse : Bool
  links : Tab Link
  past : List SplitSt
deriving DecidableEq, Repr

/-! ## Service port, Blotter, power -/

/-- The service port; the request in hand ends at tick `doneAt` (R488). -/
structure SvcSt where
  status : BitVec 3
  intEn : BitVec 4
  reqs : Word
  denied : Word
  tamper : Word
  tamperEnd : Nat
  doneAt : Nat
deriving DecidableEq, Repr

/-- An event waiting for the Blotter (R523). -/
structure Event where
  code : Nat
  source : Nat
  severity : Nat
  data : List Nat
  time : Nat
  boot : Nat
deriving DecidableEq, Repr

structure BbSt where
  slots : Tab (BitVec 1024)
  status : BitVec 3
  intEn : BitVec 3
  next : Quad
  done : Quad
  sel : BitVec 16
  lost : Word
  suppressed : Word
  torn : Word
  queue : List Event
  owed : Nat
  rate : List (Nat × Nat × Nat)
deriving DecidableEq, Repr

inductive DomState where
  | off | waking | on | failed
deriving DecidableEq, Repr

structure PwrSt where
  status : BitVec 7
  intEn : BitVec 7
  idleOff : BitVec 8
  cap : BitVec 8
  point : BitVec 3
  actual : BitVec 3
  hold : BitVec 3
  cause : BitVec 2
  trim : Nat
  rate : BitVec 16
  total : BitVec 16
  vcore : BitVec 16
  temps : Tab (Option (BitVec 16))
  tj : Word
  holdup : Bool
  lowv : Bool
  thermtrip : Bool
  refclkOk : Bool
  throttleMs : Word
  throttleSamples : Nat
  wakes : Word
  domFaults : Word
  dom : Tab DomState
  offReq : List Nat
  wakeAfter : List Nat
  samples : List (Nat × Nat)
  sinceLower : Nat
  quiet : Nat
  throttleRest : Nat := 0
  vout : Nat := 750
deriving DecidableEq, Repr

/-! ## The state -/

/-- What the block has sent to the outside, newest last. -/
inductive Sent where
  | readData (path : Path) (value : Quad)
  | bar2Data (bytes : List Byte) (poisoned : Bool)
  | msix (vector : Nat)
  | eth (port : Nat) (dst : NetAddr) (tags : List Word) (payload : List Byte)
  | arpReply (port : Nat) (dst : NetAddr) (tags : List Word) (v6 : Bool) (mac : BitVec 48)
  | flit (link : Nat) (f : Flit)
  | alignment (link : Nat)
  | identify (link : Nat) (serial : BitVec 56) (cert : Option Cert) (pub sig : List Byte) (peer : BitVec 56)
      (nextLsn : BitVec 24)
  | svc (op : Nat) (status : Nat) (body : List Byte)
  | atsRequest (page : Nat)
  | atsDone (addr : Quad)
  | rng (port : Nat) (code : Nat) (w : Word)
  | vout (mv : Nat)
deriving DecidableEq, Repr

/-- The state of the E64, with the queue of commands that wait. -/
structure State where
  pending : List Instr
  free : Nat
  now : Nat
  sent : List Sent
  fuse : Fuses
  flash : Flash
  boot : BootSt
  fe : FeSt
  queues : Tab Queue
  cmds : List Cmd
  fences : Tab Fence
  bindings : Tab Binding
  mem : MemSt
  host : HostSt
  models : Tab Model
  eng : Tab Engine
  emap : MapSt
  arr : ArrSt
  anl : AnlSt
  det : DetSt
  icu : IcuSt
  rng : RngSt
  ing : IngSt
  kw : KwSt
  svc : SvcSt
  bb : BbSt
  pwr : PwrSt
deriving DecidableEq, Repr

/-! ## Defaults: what an unlisted key of each table reads as -/

/-- Nothing counted. -/
def Tally.zero : Tally :=
  { seq := 0, cancelled := 0, drained := 0, killed := 0, errFences := 0, killedCmds := 0, drainedCmds := 0 }

/-- A queue that was never created (R344 UNUSED). -/
def Queue.init : Queue :=
  { st := .unused, kind := 0, cls := 0, ctx := 0, port := 0, ringDev := false, ats := false, msix := 0xFFFF
    sqAddr := 0, cqAddr := 0, sqLog := 4, cqLog := 4, expSeq := 0, timeoutMs := 0, drainMs := 0, source := 0
    sqTail := 0, sqHead := 0, cqTail := 0, cqHead := 0, cause := 0, stopped := false, diverted := false
    lastSeq := none, lastFrame := 0, notify := none, recent := [], tally := Tally.zero }

/-- A fence after power-on (R321). -/
def Fence.init : Fence := { val := 0, err := false, ctx := 0, peerOk := false, binding := 0 }

/-- A binding after power-on: unbound. -/
def Binding.init : Binding := { bound := false, serial := 0, link := 0, epoch := 0, sent := 0, got := 0, seen := [] }

/-- An invalid translation entry. -/
def VEntry.init : VEntry := { valid := false, read := false, write := false, ext := 0 }

/-- No model under an identifier. -/
def Model.init : Model :=
  { st := .absent, ctx := 0, desc := [], form := 0, n := 0, band := false, rowFirst := 0, rowCount := 0
    onchip := false, nnz := 0, colours := [], coup := [], codes := [], rowptr := [], wts := [], idx := []
    bias := [], pairs := [], trunc := false, conflictPairs := 0, digest := 0, users := 0, exts := []
    reqExts := 0, reqBytes := 0, avail := 0 }

/-- An accumulator of a group opened with a zero start. -/
def Acc.zero : Acc := { v := 0, t := 0, r := 0 }

/-- A closed group (R203's reset values, R205). -/
def Group.init : Group :=
  { st := .closed, float := false, k := 0, n := 0, acc := [], flags := 0, tile := 3, slot := 7, named := 0 }

/-- An engine after power-on. -/
def Engine.init : Engine :=
  { groups := [], tile0 := .empty, tile1 := .empty, fault := 0, pfault := 0, pst := .idle, pc := 0
    progEngine := 0, areg := [], names := 0, units := [], winBase := [], winSize := [], winBaseNow := [], winSizeNow := []
    spStatus := 0, spCe := 0, xwCollide := 0, xwEng := [], xwNet := [], cmd := none, zeroFirst := false, kept := [], keepNext := []
    dmaOut := [] }

/-- A source after power-on (R421's reset values). -/
def Src.init : Src :=
  { targets := 0, prio := 0, en := false, st := .idle, holder := 7, line := false, withdrawn := none }

/-- A target after power-on: MASK 1, THRESHOLD 0, AWAKE. -/
def Tgt.init : Tgt :=
  { mask := true, threshold := 0, power := .awake, claims := [], wakeValid := false, wakeSrc := 0x3FF }

/-- A cell's tests before its first sample. -/
def CellTest.init : CellTest := { last := none, run := 0, first := false, pos := 0, count := 0 }

/-- An Ethernet port's counters after power-on. -/
def PortSt.init : PortSt :=
  { rx := 0, fcs := 0, pause := 0, dropIp := 0, jobDrop := 0, fecUncorr := 0, upAt := 0 }

/-- Nothing dropped since the last gap entry. -/
def Gap.init : Gap :=
  { lo := 0, hi := 0, full := 0, incomplete := 0, evicted := 0, stopped := 0, records := 0, bytes := 0, bad := 0 }

/-- A stream after power-on (R492's reset values). -/
def Stream.init : Stream :=
  { st := .disabled, port := 0, ringLog2 := 0, tag := 0, udp := 0, recUnits := 0, ring := 0, consAddr := 0
    prodAddr := 0, reasm := 0x3E8, prod := 0, frames := 0, dropped := 0, gaps := 0, stale := 0, asm := []
    complete := [], recent := [], badSeqs := [], gap := Gap.init }

/-- A link after power-on: DISABLED. -/
def Link.init : Link :=
  { st := .disabled, cause := 0, epoch := 0, sameInst := false, encrypted := false, reversed := false, peer := 0
    lastPeer := none, key := 0, txLsn := 0, rxLsn := 0, unacked := [], queued := [], sentVc := [0, 0, 0]
    freedVc := [0, 0, 0], peerFreed := [0, 0, 0], sinceAlign := 0, retriesInRow := 0, asm := [], inbox := []
    tx := 0, rx := 0, fecCorr := 0, retries := 0, dup := 0, trainFails := 0, retrains := 0 }

/-- An empty firmware slot. -/
def Slot.init : Slot := { st := .empty, length := 0, digest := [], image := [], blocks := [] }

/-! ## Reset -/

/-- The fuses of the part that State.reset describes (log 6). -/
def Fuses.shipped : Fuses :=
  { serial := 0, badEngines := 0, svnMin := 0, noiseRev := 1, arithRev := 1, eccRev := 1, mac := [0, 0]
    vendorKey := 0, repairs := [], decommissioned := false, identity := true }

/-- The flash of a shipped part: UNOWNED, with the settings of R506 (log 6). -/
def Flash.shipped : Flash :=
  { owner := none, lock := false, nonce := 0, timeoutMs := 600000, crypt := true, kwEncrypt := true
    kwRefuse := false, eth := [⟨none, 0, 0, 0⟩, ⟨none, 0, 0, 0⟩], jobKey := [none, none], cert := none
    staged := [], stagedLen := 0, table := [], portsOn := 0, slot0 := { Slot.init with st := .active }
    slot1 := Slot.init, dirA := ⟨1, .active, .empty⟩, dirB := ⟨0, .active, .empty⟩, confirmS := 120,
    retired := [], removed := [], softRepairs := [], jobNonce := 0, bootCount := 0
    watchdogs := [], lastOnline := 0, lastFails := 0 }

def BootSt.reset (cause : BitVec 4) (t0 : Nat) : BootSt :=
  { phase := .booting, cause := cause, t0 := t0, trial := false, windowS := 0, trained := 0, thermal := false, brown := []
    latched := [], tableFails := 0, readyMs := 0, major := 0, minor := 0, build := 0, slot := 0, status := 0
    intEn := 0, refOp := 0, refReason := 0 }

def FeSt.reset : FeSt :=
  { status := 0, intEn := 0, timeoutMs := 0, badAccess := 0, dupCmd := 0, dupDoorbell := 0, dbIgnored := 0
    peerReject := 0, peerReplay := 0, flogCount := 0, flogSel := 0, qsel := 0, cmds := 0, aqSq := 0, aqCq := 0
    aqCtrl := 0x00440000, flog := [], latch := [] }

def MemSt.reset : MemSt :=
  { carafe := [], cluster := [], spad := [], symErr := [], poison := [], writeBack := [], ceLines := [], ext := []
    marked := [], vmap := [], status := 0, intEn := 0, hot := false, cryptOn := false
    locked := false, carafeKey := none, carafeNonce := 0, openBytes := [],
    bar2Base := 0, ce := 0, ue := 0, errInfo := 0, errAddr := 0, tfInfo := 0
    tfAddr := 0, bar2Denied := 0, scrubPasses := 0, chanCe := [], wipes := 0, wipeCause := 0, wipeFailed := false
    wipeActive := false, wipeTries := 0, secure := none, refSlots := [], scrubCount := 0 }

/-- The PCIe function after reset: nothing enabled (log 4). -/
def HostSt.reset : HostSt :=
  { mem := [], badRead := [], lost := [], atsRefused := [], atsReadOnly := [], atc := [], bme := false
    msixEn := false, msixMask := false, bar2Log := 30, msixTab := [], pba := [], aer := 0 }

def MapSt.reset : MapSt :=
  { phys := [], failed := [], bad := [], fuseRep := [], softRep := [], offline := 0, subst := 0 }

def ArrSt.reset : ArrSt :=
  { status := 0, intEn := 0, satTiles := 0, longTiles := 0, fpTiles := 0, i8Tiles := 0, outTiles := 0, steps := 0
    parkCorr := 0, parkUncorr := 0 }

def AnlSt.reset : AnlSt :=
  { status := 0, intEn := 0, sweeps := 0, full := 0, delta := 0, conflicts := 0, recompute := 0, mismatch := 0 }

def DetSt.reset : DetSt :=
  { status := 0, intEn := 0, ckpt := 0, records := 0, lsMismatch := 0, lsReplay := 0, pauses := 0, resumes := 0
    lsLast := 0, lsLastSeq := 0, lsLastCkpt := 0, lsCfg := [], point := 0, cap := 0, refclk := 0 }

def IcuSt.reset : IcuSt :=
  { src := [], tgt := [], status := 0, spurious := 0, badComplete := 0, merged := 0, reroute := 0, wakes := 0
    bar0Denied := 0, hostVec := 0, hostEn := [], messages := [] }

def RngSt.reset : RngSt :=
  { st := .startup, buffer := [], taken := 0, heldBlocks := [], cells := List.replicate 8 CellTest.init
    periods := 0, clean := 0, failRun := 0, flags := 0, intEn := 0, katLen := 0, katIn := [], katOut := []
    latchBar0 := 0, latchLocal := 0, blocks := 0, discards := 0, rctFails := 0, aptFails := 0, restarts := 0
    cellFail := 0, swNotReady := 0, waiting := [], swWait := [], seedWords := [], keyWords := [], passed := false }

def IngSt.reset : IngSt :=
  { status := 0, intEn := 0, ports := [], streams := [], routes := [], relays := [] }

def KwSt.reset : KwSt := { status := 0, intEn := 0, encrypt := false, refuse := false, links := [], past := [] }

def SvcSt.reset : SvcSt :=
  { status := 0, intEn := 0, reqs := 0, denied := 0, tamper := 0, tamperEnd := 0, doneAt := 0 }

/-- The Blotter's registers after a reset; its slots are kept (R496). -/
def BbSt.reset (slots : Tab (BitVec 1024)) : BbSt :=
  { slots := slots, status := 0, intEn := 0, next := 0, done := 0, sel := 0, lost := 0, suppressed := 0, torn := 0
    queue := [], owed := 0, rate := [] }

def PwrSt.reset : PwrSt :=
  { status := 0, intEn := 0, idleOff := 0x14, cap := 0, point := 4, actual := 0, hold := 0, cause := 0, trim := 0
    rate := 0, total := 0, vcore := 0, temps := [], tj := 0, holdup := false, lowv := false, thermtrip := false
    refclkOk := true, throttleMs := 0, throttleSamples := 0, wakes := 0, domFaults := 0, dom := [], offReq := [], wakeAfter := []
    samples := [], sinceLower := 10, quiet := 0, throttleRest := 0, vout := 750 }

/-- The machine right after power-on reset, before BOOT (R17, R496), with nothing waiting. -/
def State.reset : State :=
  { pending := [], free := 0, now := 0, sent := [], fuse := Fuses.shipped, flash := Flash.shipped
    boot := BootSt.reset 0 0, fe := FeSt.reset, queues := [], cmds := [], fences := [], bindings := []
    mem := MemSt.reset, host := HostSt.reset, models := [], eng := [], emap := MapSt.reset, arr := ArrSt.reset
    anl := AnlSt.reset, det := DetSt.reset, icu := IcuSt.reset, rng := RngSt.reset, ing := IngSt.reset
    kw := KwSt.reset, svc := SvcSt.reset, bb := BbSt.reset [], pwr := PwrSt.reset }

end Sys2Proof.Machine
end

