-- ==== Sys2Proof/Machine/Ops.lean ====
section
/-! DEFINITION. The operations every family shares: free values, time, status flags, Blotter events, block messages to
the interrupt controller, and MSI-X. -/

namespace Sys2Proof.Machine

/-! ## Free values and time -/

/-- A fresh free number below `n` (below 2^64 when `n` is 0), and the state with the counter advanced (log 1). -/
def freshBelow (n : Nat) (s : State) : Nat × State :=
  (Config.freeNat s.free % (if n = 0 then 2 ^ 64 else n), { s with free := s.free + 1 })

/-- The timestamp in 10 ns units since the release of reset (R50, R521). -/
def timeOf (s : State) : Quad := BitVec.ofNat 64 (s.now - s.boot.t0)

/-- BAR0, commands and messages are served (R498). -/
def isUp (s : State) : Bool := s.boot.phase == .running

/-- Is a register path served: BAR0 once it is accessible, the local port whenever the control complex is out of
reset? -/
def pathUp (s : State) : Path → Bool
  | .bar0 => isUp s
  | .localPort => s.boot.phase != .held

/-- Something sent to the outside. -/
def emit (x : Sent) (s : State) : State := { s with sent := s.sent ++ [x] }

/-! ## Status registers: an event sets its W1C bit (R15) -/

def feFlag (n : Nat) (s : State) : State :=
  { s with fe := { s.fe with status := s.fe.status ||| BitVec.ofNat 6 (2 ^ n) } }
def anlFlag (n : Nat) (s : State) : State :=
  { s with anl := { s.anl with status := s.anl.status ||| BitVec.ofNat 6 (2 ^ n) } }
def arrFlag (n : Nat) (s : State) : State :=
  { s with arr := { s.arr with status := s.arr.status ||| BitVec.ofNat 7 (2 ^ n) } }
def memFlag (n : Nat) (s : State) : State :=
  { s with mem := { s.mem with status := s.mem.status ||| BitVec.ofNat 7 (2 ^ n) } }
def detFlag (n : Nat) (s : State) : State :=
  { s with det := { s.det with status := s.det.status ||| BitVec.ofNat 4 (2 ^ n) } }
def rngFlag (n : Nat) (s : State) : State :=
  { s with rng := { s.rng with flags := s.rng.flags ||| BitVec.ofNat 7 (2 ^ n) } }
def ingFlag (n : Nat) (s : State) : State :=
  { s with ing := { s.ing with status := s.ing.status ||| BitVec.ofNat 4 (2 ^ n) } }
def kwFlag (n : Nat) (s : State) : State :=
  { s with kw := { s.kw with status := s.kw.status ||| BitVec.ofNat 16 (2 ^ n) } }
def svcFlag (n : Nat) (s : State) : State :=
  { s with svc := { s.svc with status := s.svc.status ||| BitVec.ofNat 3 (2 ^ n) } }
def fwFlag (n : Nat) (s : State) : State :=
  { s with boot := { s.boot with status := s.boot.status ||| BitVec.ofNat 5 (2 ^ n) } }
def bbFlag (n : Nat) (s : State) : State :=
  { s with bb := { s.bb with status := s.bb.status ||| BitVec.ofNat 3 (2 ^ n) } }
def pwrFlag (n : Nat) (s : State) : State :=
  { s with pwr := { s.pwr with status := s.pwr.status ||| BitVec.ofNat 7 (2 ^ n) } }
def icuFlag (n : Nat) (s : State) : State :=
  { s with icu := { s.icu with status := s.icu.status ||| BitVec.ofNat 3 (2 ^ n) } }

/-! ## Blotter events (R523) -/

/-- SEVERITY of an event code where R522 and R560 give one value (WIPE and the PWR codes pass their own). -/
def severityOf (code : Nat) : Nat :=
  if code = 0x03 ∨ code = 0x22 ∨ code = 0x31 then 4
  else if code ∈ [0x04, 0x15, 0x25, 0x32, 0x40, 0x50, 0xFF] then 3
  else if code ∈ [0x11, 0x20, 0x23, 0x24, 0x30, 0x41, 0x51, 0xFE] then 2
  else if code ∈ [0x10, 0x12, 0x13, 0x14, 0x21, 0x60] then 1
  else 0

/-- An event offered to the Blotter's queue of 256, of which 16 places are kept for SEVERITY 4 (R523). -/
def logSev (sev code source : Nat) (data : List Nat) (s : State) : State :=
  let room := if sev = 4 then 256 else 240
  if s.bb.queue.length < room then
    { s with bb := { s.bb with queue := s.bb.queue ++
      [{ code := code, source := source, severity := sev, data := data, time := s.now - s.boot.t0
         boot := s.flash.bootCount }] } }
  else
    bbFlag 2 { s with bb := { s.bb with lost := satInc s.bb.lost, owed := s.bb.owed + 1 } }

/-- An event with the severity R522 gives its code. -/
def logEvent (code source : Nat) (data : List Nat) (s : State) : State := logSev (severityOf code) code source data s

/-! ## Interrupts and MSI-X -/

/-- A block's message to the ICU, on its way (R397). -/
def icuSend (src : Nat) (s : State) : State := { s with icu := { s.icu with messages := s.icu.messages ++ [src] } }

/-- Word `k` of MSI-X table entry `v`; a vector is masked until the driver unmasks it (log 17). -/
def msixWord (t : Tab Word) (v k : Nat) : Word :=
  let w := Tab.get 0 t (4 * v + k)
  if k = 3 then w ^^^ 1 else w

/-- The table with word `k` of entry `v` written. -/
def msixPut (t : Tab Word) (v k : Nat) (w : Word) : Tab Word :=
  Tab.put 0 t (4 * v + k) (if k = 3 then (w ^^^ 1) &&& 1 else w)

/-- May vector `v` be sent now? -/
def msixOpen (h : HostSt) (v : Nat) : Bool :=
  h.msixEn && h.bme && !h.msixMask && !(msixWord h.msixTab v 3).getLsbD 0

/-- An MSI-X request on vector `v`: sent, or held pending while the vector or the function is masked. -/
def sendMsix (v : Nat) (s : State) : State :=
  if msixOpen s.host v then emit (.msix v) s
  else { s with host := { s.host with pba := Tab.put 0 s.host.pba v 1 } }

/-- Requests held pending whose vector is now open are sent, lowest vector first. -/
def msixRelease (s : State) : State :=
  (Tab.keys s.host.pba).foldl (fun st v =>
    if msixOpen st.host v then
      emit (.msix v) { st with host := { st.host with pba := Tab.put 0 st.host.pba v 0 } }
    else st) s

/-! ## Counters of the front end -/

def feDupDoorbell (s : State) : State :=
  feFlag 3 { s with fe := { s.fe with dupDoorbell := satInc s.fe.dupDoorbell } }
def feDupCmd (s : State) : State := feFlag 3 { s with fe := { s.fe with dupCmd := satInc s.fe.dupCmd } }
def feDbIgnored (s : State) : State := { s with fe := { s.fe with dbIgnored := satInc s.fe.dbIgnored } }
def feBadAccess (s : State) : State := feFlag 2 { s with fe := { s.fe with badAccess := satInc s.fe.badAccess } }

end Sys2Proof.Machine
end

