-- ==== Sys2Proof/Machine/Mem.lean ====
section
/-! DEFINITION. The memories (07): the device address map, translation, Carafe lines with their ECC, extents and their
retirement, scratchpad and cluster bytes. -/

namespace Sys2Proof.Machine

/-- Bytes of an extent (R249). -/
def extBytes : Nat := 0x4000000
/-- The first firmware extent (R252). -/
def fwExt : Nat := 6080
/-- The first retirement spare (R252). -/
def firstSpare : Nat := 6128
/-- Carafe's channels, and the bytes that each holds (R254). -/
def carafeChannels : Nat := 24
def channelBytes : Nat := 0x400000000
/-- The end of Carafe (R244). -/
def carafeEnd : Nat := carafeChannels * channelBytes
def clusterBase : Nat := 0x6000000000
def spadBase : Nat := 0x6100000000
/-- The scratchpad's slot and size (R244). -/
def slotBytes : Nat := 0x800000
def spadBytes : Nat := 0x600000

/-! ## Failures -/

/-- A final status with its DETAIL and VALUE; the record's other fields at rest (R330, R331). -/
def mkDecision (status detail value : Nat) : Decision :=
  { status := BitVec.ofNat 8 status, detail := BitVec.ofNat 8 detail, value := BitVec.ofNat 64 value, pc := 0
    group := 0, loc := 0x7F, time := 0 }

/-- The decision at logical engine `n`. -/
def atEngine (n : Nat) (d : Decision) : Decision := { d with loc := BitVec.ofNat 7 n }

/-! ## Where a device address lies -/

/-- A physical place: a Carafe byte, a cluster-memory byte, a byte of a logical engine's scratchpad. -/
inductive Place where
  | carafe (pa : Nat)
  | cluster (c off : Nat)
  | spad (n off : Nat)
deriving DecidableEq, Repr

/-- The spare that stands for an extent, or the extent itself (R248, R262). -/
def spareOf (s : State) (e : Nat) : Nat :=
  match s.flash.retired.find? (fun p => p.1 == e) with
  | some p => p.2
  | none => e

/-- The physical Carafe address of a context-0 Carafe address (R248). -/
def carafePhys (s : State) (a : Nat) : Nat := spareOf s (a / extBytes) * extBytes + a % extBytes

/-- Is the number one that R244 lists outside the allocatable extents? -/
def fixedRange (a : Nat) : Bool :=
  (decide (fwExt * extBytes ≤ a) && decide (a < clusterBase + 8 * slotBytes)) ||
    (decide (spadBase ≤ a) && decide (a < spadBase + 64 * slotBytes) && decide ((a - spadBase) % slotBytes < spadBytes))

/-- What an access is translated by: its context and the translation entries that count for it (R251). -/
structure View where
  ctx : Nat
  map : Tab VEntry

/-- Context 0, which needs no entries (R248). -/
def View.zero : View := ⟨0, []⟩

/-- Translation of one address (R248 to R250): its place, or the fault's KIND. -/
def locate (s : State) (v : View) (write : Bool) (a : Nat) : Except Nat Place :=
  if v.ctx = 0 then
    if a < fwExt * extBytes then .ok (.carafe (carafePhys s a))
    else if a < carafeEnd then .error 3
    else if a < clusterBase + 8 * slotBytes then
      .ok (.cluster ((a - clusterBase) / slotBytes) ((a - clusterBase) % slotBytes))
    else if spadBase ≤ a ∧ a < spadBase + 64 * slotBytes ∧ (a - spadBase) % slotBytes < spadBytes then
      .ok (.spad ((a - spadBase) / slotBytes) ((a - spadBase) % slotBytes))
    else .error 0
  else if 2 ^ 39 ≤ a then .error 2
  else if fixedRange a then .error 3
  else
    let e := Tab.get VEntry.init v.map (v.ctx * 8192 + a / extBytes)
    if !e.valid then .error 0
    else if (if write then e.write else e.read) then
      .ok (.carafe (carafePhys s (e.ext.toNat * extBytes + a % extBytes)))
    else .error 1

/-- The pieces of an access that never cross a 2 MiB boundary: address and length. Every boundary of the map and of
an extent is one. -/
def piecesOf : Nat → Nat → Nat → List (Nat × Nat)
  | 0, _, _ => []
  | fuel + 1, a, len =>
    if len = 0 then [] else
    let k := min len (0x200000 - a % 0x200000)
    (a, k) :: piecesOf fuel (a + k) (len - k)

/-- All pieces of an access of `len` bytes. -/
def pieces (a len : Nat) : List (Nat × Nat) := piecesOf (len / 0x200000 + 2) a len

/-- A translation fault is recorded (R250, R285). -/
def transFault (ctx kind a : Nat) (write : Bool) (s : State) : State :=
  let m := s.mem
  let m := if m.tfInfo.getLsbD 31 then m else
    { m with tfInfo := BitVec.ofNat 32 (2 ^ 31 + ctx * 2 ^ 16 + at' write 2 + kind), tfAddr := BitVec.ofNat 64 a }
  memFlag 3 { s with mem := m }

/-- The places of all pieces of an access, or the first fault (its KIND and address). -/
def locateAll (s : State) (v : View) (write : Bool) : List (Nat × Nat) → Except (Nat × Nat) (List (Place × Nat))
  | [] => .ok []
  | (a, k) :: rest =>
    match locate s v write a with
    | .error e => .error (e, a)
    | .ok p =>
      match locateAll s v write rest with
      | .error e => .error e
      | .ok ps => .ok ((p, k) :: ps)

/-! ## Extents (R253, R262, R263) -/

/-- The state of allocatable extent `e`. -/
def extState (s : State) (e : Nat) : ExtState := Tab.get .unzeroed s.mem.ext e

/-- Sets it. -/
def setExt (e : Nat) (x : ExtState) (s : State) : State :=
  { s with mem := { s.mem with ext := Tab.put .unzeroed s.mem.ext e x } }

/-- The bytes of a physical Carafe range read as zero from now on; while LOCKED the writes are dropped (R266). -/
def zeroCarafe (pa len : Nat) (s : State) : State :=
  if s.mem.locked then s else
  { s with mem := { s.mem with
      carafe := s.mem.carafe.filter (fun p => !(decide (pa ≤ p.1) && decide (p.1 < pa + len)))
      poison := s.mem.poison.filter (fun l => !(decide (pa / 64 ≤ l) && decide (l < (pa + len) / 64)))
      symErr := s.mem.symErr.filter (fun p => !(decide (pa / 64 ≤ p.1) && decide (p.1 < (pa + len) / 64)))
      writeBack := s.mem.writeBack.filter (fun l => !(decide (pa / 64 ≤ l) && decide (l < (pa + len) / 64))) } }

/-- The lowest spare that no extent uses (R262). -/
def freeSpare (s : State) : Option Nat :=
  ((List.range 16).map (· + firstSpare)).find? fun x => !(s.flash.retired.any fun p => p.2 == x)

/-- Unused spares, for MEM_RETIRE and the event's SPARES_LEFT. -/
def sparesLeft (s : State) : Nat := 16 - s.flash.retired.length

/-- EXTENT_RETIREMENT: the extent maps to the lowest free spare, or leaves the pool (R262, R263). -/
def retireExtent (e : Nat) (s : State) : State :=
  match freeSpare s with
  | some x =>
    let s := { s with flash := { s.flash with retired := s.flash.retired.filter (fun p => p.1 != e) ++ [(e, x)] } }
    let s := zeroCarafe (x * extBytes) extBytes s
    let s := memFlag 5 { s with mem := { s.mem with marked := s.mem.marked.filter (· != e) } }
    logEvent 0x41 3 [e, x, sparesLeft s] (setExt e .free s)
  | none =>
    let s := { s with flash := { s.flash with removed := s.flash.removed.filter (· != e) ++ [e] } }
    memFlag 6 (setExt e .removed { s with mem := { s.mem with marked := s.mem.marked.filter (· != e) } })

/-- The allocatable extent that a physical Carafe address serves, if any. -/
def extentAt (s : State) (pa : Nat) : Option Nat :=
  let x := pa / extBytes
  if x < fwExt then (if s.flash.retired.any (fun p => p.1 == x) then none else some x)
  else (s.flash.retired.find? fun p => p.2 == x).map Prod.fst

/-- An extent is marked for retirement; a free one is retired at once (R262). -/
def markExtent (e : Nat) (s : State) : State :=
  if extState s e = .removed then s
  else if extState s e = .free then retireExtent e s
  else if e ∈ s.mem.marked then s
  else { s with mem := { s.mem with marked := s.mem.marked ++ [e] } }

/-- Marks the extent that a physical address serves. -/
def markAt (pa : Nat) (s : State) : State :=
  match extentAt s pa with
  | some e => markExtent e s
  | none => s

/-- Does some context map the extent? -/
def isMapped (s : State) (e : Nat) : Bool :=
  (s.mem.vmap.any fun v => v.2.valid && v.2.ext.toNat == e) ||
    s.cmds.any fun c => match c.work with | .unmap es _ _ => decide (e ∈ es) | _ => false

/-- Zeroing of an extent ends: it becomes free, or is retired if marked (R253, R262); one that a context maps stays
mapped (R345). -/
def extentFreed (e : Nat) (s : State) : State :=
  let s := zeroCarafe (carafePhys s (e * extBytes)) extBytes s
  if isMapped s e then setExt e .mapped s
  else if e ∈ s.mem.marked then retireExtent e s else setExt e .free s

/-- A release begins: the extent is zeroed before it is free (R253). -/
def releaseExtent (s : State) (e : Nat) : State := setExt e .releasing s

/-- Free allocatable extents, lowest first. -/
def freeExtents (s : State) : List Nat :=
  (s.mem.ext.filter fun p => p.2 == ExtState.free).map Prod.fst

/-- Extents in the pool (MEM_EXTENTS.ALLOCATABLE). -/
def allocatable (s : State) : Nat := fwExt - s.flash.removed.length

/-! ## Carafe lines (R255 to R260) -/

/-- The channel of a physical Carafe address (R255). -/
def channelOf (pa : Nat) : Nat := pa / 256 % carafeChannels

/-- A position in a Carafe channel: the 256-byte unit of a 2 KiB row, the bank, the row, the line of the unit. -/
structure CarafePos where
  channel : Nat
  col : Nat
  bank : Nat
  row : Nat
  line : Nat
deriving DecidableEq, Repr

/-- Where a physical Carafe address lies (R255). -/
def carafePos (pa : Nat) : CarafePos :=
  let c := pa / 256 / 24
  { channel := channelOf pa, col := c % 8, bank := Nat.xor (c / 8 % 16) (c / 128 % 16), row := c / 128, line := pa / 64 % 4 }

/-- The physical address of a position's line. -/
def carafeAt (p : CarafePos) : Nat :=
  let c := p.row * 128 + Nat.xor p.bank (p.row % 16) * 8 + p.col
  (24 * c + p.channel) * 256 + p.line * 64

/-- A Carafe error is counted and, if none is recorded, recorded (R283, R285). -/
def carafeErr (kind line symbols : Nat) (s : State) : State :=
  let pa := line * 64
  let m := s.mem
  let m := if m.errInfo.getLsbD 31 then m else
    { m with errInfo := BitVec.ofNat 32 (2 ^ 31 + kind * 2 ^ 29 + channelOf pa * 2 ^ 16 + symbols)
             errAddr := BitVec.ofNat 64 pa }
  let m := if kind = 0 then
      { m with ce := m.ce + 1, chanCe := Tab.upd 0 m.chanCe (channelOf pa) satInc }
    else { m with ue := satInc m.ue }
  memFlag (if kind = 0 then 0 else 1) { s with mem := m }

/-- The error leaves a poisoned line behind: the extent is marked and the event recorded (R260, R262, R522). -/
def uncorrectable (kind line reader : Nat) (s : State) : State :=
  let s := carafeErr kind line 0xF s
  let s := { s with mem := { s.mem with
      poison := if line ∈ s.mem.poison then s.mem.poison else s.mem.poison ++ [line]
      symErr := Tab.put 0 s.mem.symErr line 0
      writeBack := s.mem.writeBack.filter (· != line) } }
  logEvent 0x40 3 [channelOf (line * 64), line * 64, reader] (markAt (line * 64) s)

/-- A corrected error: counted, queued for write-back, and the extent marked at its eighth line (R259, R262). -/
def corrected (line symbols : Nat) (s : State) : State :=
  let s := carafeErr 0 line symbols s
  let s := { s with mem := { s.mem with
      writeBack := if line ∈ s.mem.writeBack then s.mem.writeBack else s.mem.writeBack ++ [line]
      ceLines := Tab.put 0 s.mem.ceLines line 1 } }
  let x := line * 64 / extBytes
  if 8 ≤ (s.mem.ceLines.filter fun p => p.1 * 64 / extBytes == x).length then markAt (line * 64) s else s

/-- The line's stored bytes become free values: errors in more than 6 symbols that the code did not detect (R258). -/
def corruptLine (line : Nat) (s : State) : State :=
  let k := s.free
  { s with free := k + 1
           mem := { s.mem with
             symErr := Tab.put 0 s.mem.symErr line 0
             carafe := Tab.putList 0 s.mem.carafe (line * 64)
               ((List.range 64).map fun i => Config.freeByte k (line * 64 + i)) } }

/-- One line is read by `reader` (0 an engine or sequencer, 1 BAR2, 2 the scrubber): is it delivered? -/
def readLine (reader line : Nat) (s : State) : Bool × State :=
  let kind := if reader = 2 then 3 else 1
  if s.mem.locked then (false, carafeErr kind line 0xF s)
  else if line ∈ s.mem.poison then (false, uncorrectable (if reader = 2 then 3 else 2) line reader s)
  else
    let n := Tab.get 0 s.mem.symErr line
    if n = 0 then (true, s)
    else if n ≤ 2 then (true, corrected line n s)
    else if n ≤ 6 then (false, uncorrectable kind line reader s)
    else if (Config.freeNat s.free) % 2 = 0 then (true, corruptLine line { s with free := s.free + 1 })
    else (false, uncorrectable kind line reader { s with free := s.free + 1 })

/-- Reads the lines in ascending order up to the first that is not delivered. -/
def readLines (reader : Nat) : List Nat → State → Option Nat × State
  | [], s => (none, s)
  | l :: ls, s =>
    match readLine reader l s with
    | (true, s) => readLines reader ls s
    | (false, s) => (some l, s)

/-- The lines that an access touches. -/
def linesOf (pa len : Nat) : List Nat :=
  if len = 0 then [] else (List.range ((pa + len - 1) / 64 - pa / 64 + 1)).map (· + pa / 64)

/-- Lines whose reading needs more than their bytes: all of them while LOCKED, else the poisoned and the damaged. -/
def touchyLines (s : State) (pa len : Nat) : List Nat :=
  if s.mem.locked then (linesOf pa len).take 1
  else if s.mem.poison = [] ∧ s.mem.symErr = [] then []
  else (linesOf pa len).filter fun l => decide (l ∈ s.mem.poison) || decide (Tab.get 0 s.mem.symErr l ≠ 0)

/-- The memory-error decision for a line (R331). -/
def lineError (s : State) (line : Nat) : Decision :=
  mkDecision 6 (if s.mem.locked then 3 else 1) (line * 64)

/-- Does a range lie in an extent that a model or a run keeps for itself? The manual gives no layout there (R76,
log 8). -/
def ownedAt (s : State) (pa : Nat) : Bool :=
  match extentAt s pa with
  | some e => extState s e == .owned
  | none => false

/-- Reads a Carafe range; bytes of an owned extent are free values. -/
def carafeRead (reader pa len : Nat) (s : State) : Except Decision (List Byte) × State :=
  match readLines reader (touchyLines s pa len) s with
  | (some l, s) => (.error (lineError s l), s)
  | (none, s) =>
    if ownedAt s pa then
      (.ok ((List.range len).map fun i => Config.freeByte s.free (pa + i)), { s with free := s.free + 1 })
    else (.ok (Tab.getList 0 s.mem.carafe pa len), s)

/-- Writes the bytes of one line at `pa` (R256, R259, R260): dropped while LOCKED or into part of a poisoned line. -/
def writeLine (pa : Nat) (bs : List Byte) (s : State) : State :=
  let line := pa / 64
  if s.mem.locked then s
  else if bs.length = 64 then
    { s with mem := { s.mem with
        carafe := Tab.putList 0 s.mem.carafe pa bs
        poison := s.mem.poison.filter (· != line)
        symErr := Tab.put 0 s.mem.symErr line 0
        writeBack := s.mem.writeBack.filter (· != line) } }
  else
    match readLine 0 line s with
    | (true, s) =>
      { s with mem := { s.mem with
          carafe := Tab.putList 0 s.mem.carafe pa bs, symErr := Tab.put 0 s.mem.symErr line 0 } }
    | (false, s) => s

/-- Writes a Carafe range line by line. -/
def carafeWriteN : Nat → Nat → List Byte → State → State
  | 0, _, _, s => s
  | fuel + 1, pa, bs, s =>
    if bs.isEmpty then s else
    let k := 64 - pa % 64
    carafeWriteN fuel (pa + k) (bs.drop k) (writeLine pa (bs.take k) s)

/-- Writes a Carafe range. -/
def carafeWrite (pa : Nat) (bs : List Byte) (s : State) : State := carafeWriteN (bs.length / 64 + 2) pa bs s

/-! ## SECDED memories (R275): keys of damaged 16-byte units beside the Carafe lines -/

def clusterErrKey (c unit : Nat) : Nat := 2 ^ 40 + c * 2 ^ 20 + unit
def spadErrKey (phys unit : Nat) : Nat := 2 ^ 41 + phys * 2 ^ 20 + unit

/-- The physical engine that serves logical engine `n` (R40, R245). -/
def physOf (s : State) (n : Nat) : Option Nat :=
  match Tab.get 0 s.emap.phys n with
  | 0 => none
  | p + 1 => some p

/-- State of a power domain: 0 to 71 the physical engines, 72 to 79 the clusters, 80 to 85 the memory-controller groups,
86 to 93 the Kweow links, 94 and 95 the Ethernet ports (R546, R547). -/
def domState (s : State) (d : Nat) : DomState := Tab.get .off s.pwr.dom d

/-- Logical engines that no physical engine serves (R41, R356). -/
def offlineMask (s : State) : Nat := ofBits ((List.range 64).filter fun n => (physOf s n).isNone)

/-- DET_OFFLINE and DET_SUBST as a boot or a substitution leaves them (R356): the logical engines that none serves, and
those that their cluster's ninth serves. -/
def mapMasks (m : MapSt) : MapSt :=
  let at'' := fun n => Tab.get 0 m.phys n
  { m with
    offline := BitVec.ofNat 64 (ofBits ((List.range 64).filter fun n => at'' n == 0))
    subst := BitVec.ofNat 64 (ofBits ((List.range 64).filter fun n => at'' n != 0 && at'' n != 9 * (n / 8) + n % 8 + 1)) }

/-- An engine's record. -/
def eng (s : State) (n : Nat) : Engine := Tab.get Engine.init s.eng n
/-- Changes it. -/
def setEng (n : Nat) (e : Engine) (s : State) : State := { s with eng := Tab.put Engine.init s.eng n e }
def updEng (n : Nat) (f : Engine → Engine) (s : State) : State := setEng n (f (eng s n)) s

/-- The 16-byte units that a byte range touches. -/
def unitsOf (off len : Nat) : List Nat :=
  if len = 0 then [] else (List.range ((off + len - 1) / 16 - off / 16 + 1)).map (· + off / 16)

/-- The units of an access with one bit error, and whether one of its units holds more (R275). -/
def secded (t : Tab Nat) (keys : List Nat) : Nat × Bool :=
  if t = [] then (0, false)
  else ((keys.filter fun k => Tab.get 0 t k == 1).length, keys.any fun k => decide (2 ≤ Tab.get 0 t k))

/-- Corrected units are counted at a logical engine (R275, R286). -/
def noteCe (n k : Nat) (s : State) : State :=
  if k = 0 then s else updEng n (fun e => { e with spStatus := e.spStatus ||| 1, spCe := satAdd e.spCe k }) s

/-! ## Banks (R267, R276) -/

/-- The first word of the exchange window, and the words of a scratchpad (R267). -/
def firstWindowWord : Nat := 94208
def spadWords : Nat := 98304

/-- Bank and row of a scratchpad word (R267). -/
def spadBank (w : Nat) : Nat × Nat :=
  if w < firstWindowWord then (w % 46, w / 46) else (46 + w % 2, (w - firstWindowWord) / 2)

/-- Bank and row of a word of cluster memory (R276). -/
def clusterBank (w : Nat) : Nat × Nat := (w % 16, w / 16)

/-- The exchange-window units of a byte range. -/
def windowUnits (off len : Nat) : List Nat :=
  (unitsOf off len).filter fun u => decide (firstWindowWord ≤ u / 4) && decide (u / 4 < spadWords)

/-! ## Bytes whose contents are open (R77) -/

/-- Keys of a scratchpad byte of a physical engine and of a cluster-memory byte among the open ranges. -/
def spadKey (p off : Nat) : Nat := p * slotBytes + off
def clusterKey (c off : Nat) : Nat := 2 ^ 40 + c * slotBytes + off

/-- `len` bytes: those of the table at `a`, the open ones at key `k` free. -/
def openRead (l : List OpenRange) (t : Tab Byte) (k a len : Nat) : List Byte :=
  if l = [] then Tab.getList 0 t a len
  else (List.range len).map fun i =>
    match l.find? fun r => decide (r.lo ≤ k + i) && decide (k + i < r.hi) with
    | some r => Config.freeByte r.seed (k + i)
    | none => Tab.get 0 t (a + i)

/-- The open ranges without the keys from `lo` to below `hi`. -/
def cutOpen (lo hi : Nat) (l : List OpenRange) : List OpenRange :=
  l.flatMap fun r =>
    (if r.lo < min r.hi lo then [{ r with hi := min r.hi lo }] else []) ++
      (if max r.lo hi < r.hi then [{ r with lo := max r.lo hi }] else [])

/-- Reads bytes of a logical engine's scratchpad; an offline engine's slot reads 0 (log 21). -/
def spadRead (n off len : Nat) (s : State) : Except Decision (List Byte) × State :=
  match physOf s n with
  | none => (.ok (List.replicate len 0), s)
  | some p =>
    let c := secded s.mem.symErr ((unitsOf off len).map (spadErrKey p))
    let s := noteCe n c.1 s
    if c.2 then
      (.error (atEngine n (mkDecision 4 3 0)), updEng n (fun e => { e with spStatus := e.spStatus ||| 2 }) s)
    else (.ok (openRead s.mem.openBytes s.mem.spad (spadKey p off) (p * slotBytes + off) len), s)

/-- Clears the damage of overwritten units. -/
def healUnits (keys : List Nat) (t : Tab Nat) : Tab Nat :=
  if t = [] then [] else keys.foldl (fun t k => Tab.put 0 t k 0) t

/-- Bytes reach the scratchpad of physical engine `p`. -/
def spadStore (p off : Nat) (bs : List Byte) (s : State) : State :=
  { s with mem := { s.mem with
      spad := Tab.putList 0 s.mem.spad (p * slotBytes + off) bs
      openBytes := cutOpen (spadKey p off) (spadKey p (off + bs.length)) s.mem.openBytes
      symErr := healUnits ((unitsOf off bs.length).map (spadErrKey p)) s.mem.symErr } }

/-- Units of the exchange window that both ports write, when a command runs on the engine (R274). -/
def sharedUnits (e : Engine) (net : Bool) (off len : Nat) : List Nat :=
  if e.cmd.isNone then [] else (windowUnits off len).filter fun u => decide (u ∈ if net then e.xwEng else e.xwNet)

/-- What a write leaves where the arbiter may see both ports in one word at once: free number `k` says in which words it
does, free number `k + 1` which units keep the other port's bytes (R274, log 49). -/
def collide (k off : Nat) (shared : List Nat) (old bs : List Byte) : List Byte :=
  (List.range bs.length).map fun i =>
    let u := (off + i) / 16
    (if decide (u ∈ shared) && (Config.freeNat k).testBit (u / 4) && (Config.freeNat (k + 1)).testBit u then old else bs).getD i 0

/-- The words that collide. -/
def hitWords (k : Nat) (shared : List Nat) : Nat :=
  ((shared.map (· / 4)).eraseDups.filter fun w => (Config.freeNat k).testBit w).length

/-- The port that wrote exchange-window units, noted. -/
def notePort (net : Bool) (units : List Nat) (hits : Nat) (e : Engine) : Engine :=
  { e with
    xwEng := if net then e.xwEng else units, xwNet := if net then units else e.xwNet
    xwCollide := satAdd e.xwCollide hits, spStatus := if hits = 0 then e.spStatus else e.spStatus ||| 4 }

/-- Writes bytes of a logical engine's scratchpad through the engine's port or the cluster's (R273, R274); an offline
engine's slot drops them (log 21). -/
def portWrite (net : Bool) (n off : Nat) (bs : List Byte) (s : State) : State :=
  match physOf s n with
  | none => s
  | some p =>
    let units := windowUnits off bs.length
    if units = [] then spadStore p off bs s
    else
      let shared := sharedUnits (eng s n) net off bs.length
      if shared = [] then updEng n (notePort net units 0) (spadStore p off bs s)
      else
        let k := s.free
        let old := openRead s.mem.openBytes s.mem.spad (spadKey p off) (p * slotBytes + off) bs.length
        updEng n (notePort net units (hitWords k shared))
          (spadStore p off (collide k off shared old bs) { s with free := k + 2 })

/-- A write of the engine itself. -/
def spadWrite (n off : Nat) (bs : List Byte) (s : State) : State := portWrite false n off bs s

/-- The scratchpad of physical engine `p` reads as zero from now on. -/
def zeroSpad (p : Nat) (s : State) : State :=
  { s with mem := { s.mem with
      spad := s.mem.spad.filter (fun q => !(q.1 / slotBytes == p))
      openBytes := cutOpen (spadKey p 0) (spadKey (p + 1) 0) s.mem.openBytes
      symErr := s.mem.symErr.filter (fun q => !(decide (2 ^ 41 ≤ q.1) && ((q.1 - 2 ^ 41) / 2 ^ 20 == p))) } }

/-- The cluster memory of cluster `c` reads as zero from now on. -/
def zeroCluster (c : Nat) (s : State) : State :=
  { s with mem := { s.mem with
      cluster := s.mem.cluster.filter (fun q => !(q.1 / slotBytes == c))
      openBytes := cutOpen (clusterKey c 0) (clusterKey (c + 1) 0) s.mem.openBytes
      symErr := s.mem.symErr.filter (fun q =>
        !(decide (2 ^ 40 ≤ q.1) && decide (q.1 < 2 ^ 41) && ((q.1 - 2 ^ 40) / 2 ^ 20 == c))) } }

/-- Reads bytes of a cluster's memory. Corrected units are counted at engine `n`: R275 names SPAD_E_CE and not whose
(log 49). -/
def clusterRead (n c off len : Nat) (s : State) : Except Decision (List Byte) × State :=
  let e := secded s.mem.symErr ((unitsOf off len).map (clusterErrKey c))
  let s := noteCe n e.1 s
  if e.2 then (.error (mkDecision 6 2 (clusterBase + c * slotBytes + off)), s)
  else (.ok (openRead s.mem.openBytes s.mem.cluster (clusterKey c off) (c * slotBytes + off) len), s)

/-- Writes bytes of a cluster's memory. -/
def clusterWrite (c off : Nat) (bs : List Byte) (s : State) : State :=
  { s with mem := { s.mem with
      cluster := Tab.putList 0 s.mem.cluster (c * slotBytes + off) bs
      openBytes := cutOpen (clusterKey c off) (clusterKey c (off + bs.length)) s.mem.openBytes
      symErr := healUnits ((unitsOf off bs.length).map (clusterErrKey c)) s.mem.symErr } }

/-- An on-chip model's load: the scratchpads of the engines and the cluster memories hold the model, in a layout the
manual does not give (R77, log 8). -/
def openOnchip (s : State) : State :=
  let k := s.free
  let s := (s.emap.phys.map fun m => m.2 - 1).foldl (fun st p => zeroSpad p st) s
  let s := (List.range 8).foldl (fun st c => zeroCluster c st) s
  { s with
    free := k + 1
    mem := { s.mem with openBytes := s.mem.openBytes ++
      (s.emap.phys.map fun m => ⟨spadKey (m.2 - 1) 0, spadKey (m.2 - 1) spadBytes, k⟩) ++
      ((List.range 8).map fun c => ⟨clusterKey c 0, clusterKey (c + 1) 0, k⟩) } }

/-- Damaged units of the scratchpads of engines `ns` that hold part of an on-chip model are read: the first engine with
an uncorrectable one ends the command (R275). -/
def onchipSpads : List Nat → State → Option Decision × State
  | [], s => (none, s)
  | n :: ns, s =>
    let p := (physOf s n).getD 72
    let mine := (s.mem.symErr.filter fun q =>
      decide (spadErrKey p 0 ≤ q.1) && decide (q.1 < spadErrKey (p + 1) 0) &&
        s.mem.openBytes.any fun r => decide (r.lo ≤ spadKey p (16 * (q.1 - spadErrKey p 0))) &&
          decide (spadKey p (16 * (q.1 - spadErrKey p 0)) < r.hi)).map Prod.fst
    let c := secded s.mem.symErr mine
    let s := noteCe n c.1 s
    if c.2 then (some (atEngine n (mkDecision 4 3 0)), updEng n (fun e => { e with spStatus := e.spStatus ||| 2 }) s)
    else onchipSpads ns s

/-- The same for the cluster memories. -/
def onchipClusters : List Nat → State → Option Decision × State
  | [], s => (none, s)
  | c :: cs, s =>
    let mine := (s.mem.symErr.filter fun q =>
      decide (clusterErrKey c 0 ≤ q.1) && decide (q.1 < clusterErrKey (c + 1) 0) &&
        s.mem.openBytes.any fun r => decide (r.lo ≤ clusterKey c (16 * (q.1 - clusterErrKey c 0))) &&
          decide (clusterKey c (16 * (q.1 - clusterErrKey c 0)) < r.hi)).map Prod.fst
    let e := secded s.mem.symErr mine
    let s := noteCe (8 * c) e.1 s
    match mine.find? fun k => decide (2 ≤ Tab.get 0 s.mem.symErr k) with
    | some k => (some (mkDecision 6 2 (clusterBase + c * slotBytes + 16 * (k - clusterErrKey c 0))), s)
    | none => onchipClusters cs s

/-! ## Device accesses of a context -/

/-- Does a place lie in a power domain that is not on, whose memory holds nothing (R547)? -/
def unpowered (s : State) : Place → Bool
  | .carafe _ => false
  | .cluster c _ => domState s (72 + c) != .on
  | .spad n _ => match physOf s n with | none => false | some p => domState s p != .on

/-- Reads one located piece. What a memory without power delivers is a free value (log 72). -/
def readPlace (reader : Nat) (p : Place) (len : Nat) (s : State) : Except Decision (List Byte) × State :=
  if unpowered s p then
    (.ok ((List.range len).map fun i => Config.freeByte s.free i), { s with free := s.free + 1 })
  else match p with
  | .carafe pa => carafeRead reader pa len s
  | .cluster c off => clusterRead (8 * c) c off len s
  | .spad n off => spadRead n off len s

/-- Writes one located piece; a memory without power keeps nothing (R547). -/
def writePlace (p : Place) (bs : List Byte) (s : State) : State :=
  if unpowered s p then s
  else match p with
  | .carafe pa => carafeWrite pa bs s
  | .cluster c off => clusterWrite c off bs s
  | .spad n off => portWrite true n off bs s

def readPlaces (reader : Nat) : List (Place × Nat) → State → Except Decision (List Byte) × State
  | [], s => (.ok [], s)
  | (p, k) :: ps, s =>
    match readPlace reader p k s with
    | (.error d, s) => (.error d, s)
    | (.ok bs, s) =>
      match readPlaces reader ps s with
      | (.error d, s) => (.error d, s)
      | (.ok cs, s) => (.ok (bs ++ cs), s)

def writePlaces : List (Place × Nat) → List Byte → State → State
  | [], _, s => s
  | (p, k) :: ps, bs, s => writePlaces ps (bs.drop k) (writePlace p (bs.take k) s)

/-- A read of `len` bytes at a device address as a view translates it: the bytes, or the failure's decision (R250, R260). -/
def devRead (v : View) (a len : Nat) (s : State) : Except Decision (List Byte) × State :=
  match locateAll s v false (pieces a len) with
  | .error (k, x) => (.error (mkDecision 5 k x), transFault v.ctx k x false s)
  | .ok ps => readPlaces 0 ps s

/-- A write at a device address (R250: a failed access moves no byte). -/
def devWrite (v : View) (a : Nat) (bs : List Byte) (s : State) : Except Decision Unit × State :=
  match locateAll s v true (pieces a bs.length) with
  | .error (k, x) => (.error (mkDecision 5 k x), transFault v.ctx k x true s)
  | .ok ps => (.ok (), writePlaces ps bs s)

/-! ## The secure region's wipe (R266, R280 to R282) -/

/-- A trigger of the wipe: cause 1 tamper, 2 lifecycle. One that arrives during a wipe is only recorded. -/
def startWipe (cause : Nat) (s : State) : State :=
  if s.mem.wipeActive then logSev 2 0x23 8 [cause, s.mem.wipeTries, 0, 1] s
  else { s with mem := { s.mem with
      locked := true, carafeKey := none, wipeActive := true, wipeTries := 0, wipeCause := BitVec.ofNat 2 cause
      secure := none } }

end Sys2Proof.Machine
end

