-- ==== Sys2Proof/Machine/HostPort.lean ====
section
/-! DEFINITION. Host memory through PCIe: failed reads and writes as R332 detects them, ATS (R447), and the address
space of a queue (R292). -/

namespace Sys2Proof.Machine

/-- A failed access: its decision and the CAUSE a fault-log entry gives it (R335). -/
structure AccErr where
  dec : Decision
  cause : Nat
deriving DecidableEq, Repr

/-- Does a range meet one of the ranges of a list (start, length)? -/
def meets (rs : List (Nat × Nat)) (a len : Nat) : Bool :=
  rs.any fun r => decide (r.1 < a + len) && decide (a < r.1 + r.2)

/-- The 4 KiB pages of a range. -/
def pagesOf (a len : Nat) : List Nat :=
  if len = 0 then [] else (List.range ((a + len - 1) / 4096 - a / 4096 + 1)).map (· + a / 4096)

/-- A translation request for each page the cache of 512 does not hold; a refused one is not cached (R447). -/
def atsFetch (page : Nat) (s : State) : State :=
  if page ∈ s.host.atc then s else
  let s := emit (.atsRequest page) s
  if meets s.host.atsRefused (page * 4096) 4096 then s else
  let c := s.host.atc ++ [page]
  { s with host := { s.host with atc := c.drop (c.length - 512) } }

/-- The translations of an access are requested: the state, and the fault-log cause if one is refused or lacks write
permission. -/
def atsCheck (ats write : Bool) (a len : Nat) (s : State) : Option (Nat × Nat) × State :=
  if !ats then (none, s) else
  let ps := pagesOf a len
  let s := ps.foldl (fun st p => atsFetch p st) s
  match ps.find? (fun p => meets s.host.atsRefused (p * 4096) 4096 && !decide (p ∈ s.host.atc)) with
  | some p => (some (0, max a (p * 4096)), s)
  | none =>
    match ps.find? fun p => write && meets s.host.atsReadOnly (p * 4096) 4096 with
    | some p => (some (1, max a (p * 4096)), s)
    | none => (none, s)

/-- A read of host memory. -/
def hostRead (ats : Bool) (a len : Nat) (s : State) : Except AccErr (List Byte) × State :=
  if !s.host.bme then (.error ⟨mkDecision 5 0x11 a, 3⟩, s)
  else
    match atsCheck ats false a len s with
    | (some (c, x), s) => (.error ⟨mkDecision 5 0x11 x, c⟩, s)
    | (none, s) =>
      if meets s.host.badRead a len then (.error ⟨mkDecision 5 0x11 a, 2⟩, s)
      else (.ok (Tab.getList 0 s.host.mem a len), s)

/-- Bytes reach host memory, but for those that the host loses in silence (R332). -/
def hostStore (lost : List (Nat × Nat)) (t : Tab Byte) (a : Nat) : List Byte → Tab Byte
  | [] => t
  | b :: bs => hostStore lost (if meets lost a 1 then t else Tab.put 0 t a b) (a + 1) bs

/-- A write to host memory. -/
def hostWrite (ats : Bool) (a : Nat) (bs : List Byte) (s : State) : Except AccErr Unit × State :=
  if !s.host.bme then (.error ⟨mkDecision 5 0x10 a, 3⟩, s)
  else
    match atsCheck ats true a bs.length s with
    | (some (c, x), s) => (.error ⟨mkDecision 5 0x10 x, c⟩, s)
    | (none, s) =>
      (.ok (), { s with host := { s.host with mem := hostStore s.host.lost s.host.mem a bs } })

/-- The fault-log cause of a failed device access (R335). -/
def devCause (d : Decision) : Nat := if d.status = 5 then 4 else 5

/-- A read in a queue's address space: host memory on a PCIe queue, else its context's device memory (R292). -/
def spaceRead (host ats : Bool) (v : View) (a len : Nat) (s : State) : Except AccErr (List Byte) × State :=
  if host then hostRead ats a len s
  else
    match devRead v a len s with
    | (.ok bs, s) => (.ok bs, s)
    | (.error d, s) => (.error ⟨d, devCause d⟩, s)

/-- A write in a queue's address space. -/
def spaceWrite (host ats : Bool) (v : View) (a : Nat) (bs : List Byte) (s : State) : Except AccErr Unit × State :=
  if host then hostWrite ats a bs s
  else
    match devWrite v a bs s with
    | (.ok _, s) => (.ok (), s)
    | (.error d, s) => (.error ⟨d, devCause d⟩, s)

/-! ## Queues -/

/-- Queue `q`'s record. -/
def que (s : State) (q : Nat) : Queue := Tab.get Queue.init s.queues q
def setQue (q : Nat) (x : Queue) (s : State) : State := { s with queues := Tab.put Queue.init s.queues q x }
def updQue (q : Nat) (f : Queue → Queue) (s : State) : State := setQue q (f (que s q)) s

/-- Is the queue bound to PCIe (R305)? -/
def Queue.onPcie (x : Queue) : Bool := x.port == 0

/-- A context-0 queue: the admin queue, or a kernel queue bound to context 0 (R292). -/
def Queue.ctx0 (x : Queue) : Bool := x.kind != 2 && x.ctx == 0

/-- The translation of a queue's own accesses: its context as it is mapped now. -/
def queView (s : State) (q : Nat) : View := ⟨(que s q).ctx.toNat, s.mem.vmap⟩

/-- The number of a command's queue. -/
def Cmd.queue (c : Cmd) : Nat := c.key.q.toNat

/-- The translation of a command's accesses: its queue's context as its admission found it mapped (R251). -/
def cmdView (s : State) (c : Cmd) : View := ⟨(que s c.queue).ctx.toNat, c.view⟩

/-- A read of a block that a command names. -/
def cmdRead (c : Cmd) (a len : Nat) (s : State) : Except AccErr (List Byte) × State :=
  let x := que s c.queue
  spaceRead x.onPcie x.ats (cmdView s c) a len s

/-- A write of a result that a command names. -/
def cmdWrite (c : Cmd) (a : Nat) (bs : List Byte) (s : State) : Except AccErr Unit × State :=
  let x := que s c.queue
  spaceWrite x.onPcie x.ats (cmdView s c) a bs s

/-- A write in a queue's address space for a command that is never admitted. -/
def queWrite (q a : Nat) (bs : List Byte) (s : State) : Except AccErr Unit × State :=
  let x := que s q
  spaceWrite x.onPcie x.ats (queView s q) a bs s

/-- A write of part of a queue's rings: where the rings lie. -/
def ringRead (q a len : Nat) (s : State) : Except AccErr (List Byte) × State :=
  let x := que s q
  spaceRead (!x.ringDev) x.ats (queView s q) a len s
def ringWrite (q a : Nat) (bs : List Byte) (s : State) : Except AccErr Unit × State :=
  let x := que s q
  spaceWrite (!x.ringDev) x.ats (queView s q) a bs s

end Sys2Proof.Machine
end

