-- ==== Sys2Proof/Machine/Link.lean ====
section
/-! DEFINITION. Kweow flits and messages as the transmitter forms them (R473 to R481), and the replies and notices of
job frames (R469, R470). -/

namespace Sys2Proof.Machine

/-- Link `l`'s record. -/
def lnk (s : State) (l : Nat) : Link := Tab.get Link.init s.kw.links l
def setLnk (l : Nat) (x : Link) (s : State) : State :=
  { s with kw := { s.kw with links := Tab.put Link.init s.kw.links l x } }
def updLnk (l : Nat) (f : Link → Link) (s : State) : State := setLnk l (f (lnk s l)) s

/-- Entry `i` of a list of three counts, one a virtual channel. -/
def vcGet (c : List Nat) (i : Nat) : Nat := c.getD i 0
def vcInc (c : List Nat) (i : Nat) : List Nat := c.set i (vcGet c i + 1)

/-- Receive buffers per virtual channel (R480). -/
def vcSize (vc : Nat) : Nat := if vc = 2 then 512 else 64
/-- The modulus of a virtual channel's cumulative count (R474). -/
def vcMod (vc : Nat) : Nat := if vc = 2 then 1024 else 256

/-- The 16 header bytes of a flit (R474). -/
def flitHeader (f : Flit) : List Byte :=
  leBytes 4 (f.lsn.toNat * 256 + f.kind.toNat) ++
  leBytes 4 (at' f.eom 27 + at' f.som 26 + f.vc.toNat * 2 ^ 24 + f.ack.toNat) ++
  leBytes 4 (f.cum2.toNat * 2 ^ 16 + f.cum1.toNat * 2 ^ 8 + f.cum0.toNat) ++
  leBytes 4 f.epoch.toNat

/-- The IV of an encrypted flit (R475): epoch, direction, extended LSN. -/
def flitIv (epoch : Nat) (higher : Bool) (lsn : Nat) : List Byte :=
  leBytes 2 epoch ++ leBytes 2 (b2n higher) ++ leBytes 8 lsn

/-- Is this device the one with the higher serial on the link (R475)? -/
def weAreHigher (s : State) (l : Nat) : Bool := decide ((lnk s l).peer.toNat < s.fuse.serial.toNat)

/-- CHECK of a flit whose payload is as sent (R475). -/
def flitCheck (x : Link) (iv : List Byte) (f : Flit) : BitVec 128 :=
  if x.encrypted then BitVec.ofNat 128 (leNat (gcmTag (leBytes 32 x.key.toNat) iv (flitHeader f) f.payload))
  else BitVec.ofNat 128 (crc64 (flitHeader f ++ f.payload))

/-- Encrypts or decrypts a payload (R475). -/
def flitCrypt (x : Link) (iv p : List Byte) : List Byte :=
  if x.encrypted then gcmCrypt (leBytes 32 x.key.toNat) iv p else p

/-- Can the link's flits be sealed and checked: no key operation succeeds once a wipe has failed (R281)? -/
def sealable (s : State) (l : Nat) : Bool := !((lnk s l).encrypted && s.mem.wipeFailed)

/-- The parity of a flit (R473). -/
def flitCode (f : Flit) : BitVec 128 := Config.flitParity (flitHeader f ++ f.payload ++ leBytes 16 f.check.toNat)

/-- The current ACK_LSN, cumulative counts and epoch of link `l` put into a flit (R476: every flit carries them). -/
def flitStamp (x : Link) (f : Flit) : Flit :=
  { f with
    ack := BitVec.ofNat 24 (x.rxLsn + 2 ^ 24 - 1), epoch := x.epoch
    cum0 := BitVec.ofNat 8 (vcGet x.freedVc 0), cum1 := BitVec.ofNat 8 (vcGet x.freedVc 1)
    cum2 := BitVec.ofNat 10 (vcGet x.freedVc 2) }

/-- An empty flit of a kind (0 IDLE, 2 RETRY_REQ). -/
def bareFlit (kind : Nat) : Flit :=
  { kind := BitVec.ofNat 8 kind, lsn := 0, vc := 0, som := false, eom := false, ack := 0, cum0 := 0, cum1 := 0
    cum2 := 0, epoch := 0, payload := List.replicate 224 0, check := 0, parity := 0 }

/-- One flit goes out with its parity; before the next after 4,095 flits an alignment flit goes first (R473). -/
def flitOut (l : Nat) (f : Flit) (s : State) : State :=
  let s := if 4095 ≤ (lnk s l).sinceAlign then
      emit (.alignment l) (updLnk l (fun x => { x with sinceAlign := 0 }) s) else s
  emit (.flit l { f with parity := flitCode f }) (updLnk l (fun x => { x with sinceAlign := x.sinceAlign + 1 }) s)

/-- An IDLE or RETRY_REQ flit goes out with the current counts. -/
def sendBare (l kind : Nat) (s : State) : State :=
  let x := lnk s l
  let iv := flitIv x.epoch.toNat (weAreHigher s l) 0
  let f := flitStamp x (bareFlit kind)
  let f := { f with payload := flitCrypt x iv f.payload }
  if sealable s l then flitOut l { f with check := flitCheck x iv f } s else s

/-- A DATA flit stamped, encrypted and checked for its extended LSN. -/
def sealFlit (s : State) (l lsn : Nat) (f : Flit) : Flit :=
  let x := lnk s l
  let iv := flitIv x.epoch.toNat (weAreHigher s l) lsn
  let f := flitStamp x { f with lsn := BitVec.ofNat 24 lsn }
  let f := { f with payload := flitCrypt x iv f.payload }
  { f with check := flitCheck x iv f }

/-- May a new DATA flit of `vc` be sent (R477, R480)? -/
def hasCredit (x : Link) (vc : Nat) : Bool :=
  decide (x.unacked.length < 512) &&
    decide ((vcGet x.sentVc vc + vcMod vc - vcGet x.peerFreed vc % vcMod vc) % vcMod vc < vcSize vc)

/-- Sends queued flits while one has credit, oldest first within a virtual channel. -/
def pumpLink (l : Nat) : Nat → State → State
  | 0, s => s
  | fuel + 1, s =>
    let x := lnk s l
    match x.queued.find? fun f => hasCredit x f.vc.toNat with
    | none => s
    | some f =>
      let sealed := sealFlit s l x.txLsn f
      let s := updLnk l (fun x => { x with
        queued := x.queued.erase f, unacked := x.unacked ++ [f], txLsn := x.txLsn + 1
        sentVc := vcInc x.sentVc f.vc.toNat, tx := x.tx + 1 }) s
      pumpLink l fuel (flitOut l sealed s)

/-- Sends what can be sent. -/
def pump (l : Nat) (s : State) : State := if sealable s l then pumpLink l ((lnk s l).queued.length) s else s

/-- The 16 message header bytes and the body (R481). -/
def msgBytes (m : Msg) : List Byte :=
  leBytes 4 m.ty ++ leBytes 4 m.body.length ++ leBytes 4 m.w2.toNat ++ leBytes 4 m.w3.toNat ++ m.body

/-- The flits of a message: 224 bytes each, the last padded with zeros. -/
def msgFlits (vc : Nat) : Nat → Bool → List Byte → List Flit
  | 0, _, _ => []
  | fuel + 1, first, bs =>
    let rest := bs.drop 224
    { bareFlit 1 with vc := BitVec.ofNat 2 vc, som := first, eom := rest.isEmpty, payload := slice 0 224 bs } ::
      (if rest.isEmpty then [] else msgFlits vc fuel false rest)

/-- A message is queued on link `l` and sent as credits allow; on a link that is not ACTIVE it is lost. -/
def kwSend (l : Nat) (m : Msg) (s : State) : State :=
  if (lnk s l).st == .active then
    let fs := msgFlits m.vc ((msgBytes m).length / 224 + 1) true (msgBytes m)
    pump l (updLnk l (fun x => { x with queued := x.queued ++ fs }) s)
  else s

/-- Fence binding `b`. -/
def bnd (s : State) (b : Nat) : Binding := Tab.get Binding.init s.bindings b
def setBnd (b : Nat) (x : Binding) (s : State) : State := { s with bindings := Tab.put Binding.init s.bindings b x }

/-- Does binding `b` name the device that is on its link now (R479, R482)? -/
def bindingLive (s : State) (b : Nat) : Bool :=
  let x := bnd s b
  x.bound && (lnk s x.link.toNat).st == .active && (lnk s x.link.toNat).peer == x.serial

/-- The binding a message of link `l` belongs to: identity and arrival link match (R482). -/
def bindingOf (s : State) (l : Nat) : List Nat :=
  (List.range 64).filter fun b =>
    let x := bnd s b
    x.bound && x.link.toNat == l && (lnk s l).peer == x.serial

/-! ## Job replies (R469, R470) -/

/-- Is an Ethernet port up: firmware serves it, its domain is on and it is not retraining (R443, R489)? -/
def portUp (s : State) (p : Nat) : Bool :=
  isUp s && Tab.get .off s.pwr.dom (94 + p) == .on && decide ((Tab.get PortSt.init s.ing.ports p).upAt ≤ s.now)

def prt (s : State) (p : Nat) : PortSt := Tab.get PortSt.init s.ing.ports p
def updPrt (p : Nat) (f : PortSt → PortSt) (s : State) : State :=
  { s with ing := { s.ing with ports := Tab.upd PortSt.init s.ing.ports p f } }

/-- The fixed 48 bytes and the records of a reply or notice. -/
def replyBytes (kind result q : Nat) (src : Word) (frameSeq nonce : Nat) (x : Queue) (recs : List (List Byte)) :
    List Byte :=
  leBytes 4 (0xCA9F0001) ++ leBytes 4 (kind * 2 ^ 24 + result * 2 ^ 16 + q) ++ leBytes 4 src.toNat ++
  leBytes 4 (recs.length * 2 ^ 24) ++ leBytes 8 frameSeq ++ leBytes 8 nonce ++
  leBytes 4 x.sqHead.toNat ++ leBytes 4 x.sqTail.toNat ++ leBytes 4 x.cqTail.toNat ++ leBytes 4 0 ++ recs.flatten

/-- A frame leaves Ethernet port `p`: tagged with the device's own NONCE when the port is keyed (R466, R469). One count
serves both ports, which may hold the same key. A port that is down sends nothing (R443), and no tag can be formed once
a wipe has failed (R281). -/
def sendReply (p : Nat) (dst : NetAddr) (tags : List Word) (src : Word) (body : Nat → List Byte) (s : State) : State :=
  let key := s.flash.jobKey.getD p none
  if !portUp s p || (key.isSome && s.mem.wipeFailed) then s
  else
    let n := 2 ^ 63 + s.flash.jobNonce % 2 ^ 63
    let s := { s with flash := { s.flash with jobNonce := s.flash.jobNonce + 1 } }
    let b := body n
    let tag := match key with
      | some k => gcmTag (leBytes 32 k.toNat) (leBytes 4 src.toNat ++ leBytes 8 n) b []
      | none => []
    emit (.eth p dst tags (b ++ tag)) s

/-- A NOTIFY of a new completion record (R470). -/
def notifyQueue (q : Nat) (record : List Byte) (s : State) : State :=
  let x := que s q
  if x.port = 1 ∨ x.port = 2 ∨ x.port = 3 then
    match x.notify with
    | some (dst, p, tags, src) =>
      sendReply p dst tags src (fun n => replyBytes 0x82 0 q src x.lastFrame.toNat n x [record]) s
    | none => s
  else s

end Sys2Proof.Machine
end

