-- ==== Sys2Proof/Machine/Finish.lean ====
section
/-! DEFINITION. The end of a command (08): its record, its fences, the fault log, and whatever other command its end
lets complete. -/

namespace Sys2Proof.Machine

/-! ## The command's fields (R302) -/

def Cmd.opcode (c : Cmd) : Nat := leAt c.raw 0 1
def Cmd.irq (c : Cmd) : Bool := bit (leAt c.raw 0 4) 8
def Cmd.freeMode (c : Cmd) : Bool := bit (leAt c.raw 0 4) 9
def Cmd.overlap (c : Cmd) : Bool := bit (leAt c.raw 0 4) 10
def Cmd.digest (c : Cmd) : Bool := bit (leAt c.raw 0 4) 11
def Cmd.waitFence (c : Cmd) : Nat := leAt c.raw 8 2
def Cmd.signalFence (c : Cmd) : Nat := leAt c.raw 10 2
def Cmd.p0 (c : Cmd) : Nat := leAt c.raw 12 4
def Cmd.waitValue (c : Cmd) : Nat := leAt c.raw 16 8
def Cmd.signalValue (c : Cmd) : Nat := leAt c.raw 24 8
def Cmd.patchAddr (c : Cmd) : Nat := leAt c.raw 32 8
def Cmd.p1 (c : Cmd) : Nat := leAt c.raw 40 8
def Cmd.p2 (c : Cmd) : Nat := leAt c.raw 48 8
def Cmd.p3 (c : Cmd) : Nat := leAt c.raw 56 8

/-! ## Commands in flight -/

def findCmd (s : State) (k : Key) : Option Cmd := s.cmds.find? fun c => c.key == k
def updCmd (k : Key) (f : Cmd → Cmd) (s : State) : State :=
  { s with cmds := s.cmds.map fun c => if c.key == k then f c else c }
def dropCmd (k : Key) (s : State) : State := { s with cmds := s.cmds.filter fun c => !(c.key == k) }

/-- A command's status is fixed now (R338): END_TIME is the timestamp of DECIDED. -/
def stampD (s : State) (d : Decision) : Decision := { d with time := timeOf s }

/-! ## Fault log (R335) -/

/-- The 64 bytes of an entry. -/
def flogBytes (q cause kind : Nat) (seq : Word) (time addr : Nat) (record : List Byte) : List Byte :=
  leBytes 4 (q * 2 ^ 16 + cause * 2 ^ 8 + kind) ++ leBytes 4 seq.toNat ++ leBytes 8 time ++ leBytes 8 addr ++
  leBytes 8 0 ++ slice 0 32 record

/-- An entry is written at slot FE_FLOG_COUNT mod 1,048,576. It lies in Carafe (R252): a write while LOCKED is dropped
(R266). -/
def flogWrite (q cause kind : Nat) (seq : Word) (addr : Nat) (record : List Byte) (s : State) : State :=
  let e := flogBytes q cause kind seq (timeOf s).toNat addr record
  let flog := if s.mem.locked then s.fe.flog
    else Tab.put 0 s.fe.flog (s.fe.flogCount.toNat % 2 ^ 20) (BitVec.ofNat 512 (leNat e))
  feFlag 1 { s with fe := { s.fe with flog := flog, flogCount := s.fe.flogCount + 1 } }

/-- A queue enters ERROR (R344): KIND is also its CAUSE. -/
def queueError (q kind cause : Nat) (seq : Word) (addr : Nat) (record : List Byte) (s : State) : State :=
  let s := flogWrite q cause kind seq addr record s
  if (que s q).st = .active then
    feFlag 0 (updQue q (fun x => { x with st := .error, cause := BitVec.ofNat 4 kind }) s)
  else s

/-! ## Completion records (R330) -/

/-- PHASE of the record at completion count `t` (R298). -/
def phaseAt (t log : Nat) : Bool := t / 2 ^ log % 2 == 0

/-- The 32 bytes of a completion record. -/
def recordBytes (opcode : Nat) (seq : Word) (phase : Bool) (d : Decision) : List Byte :=
  leBytes 4 (opcode * 2 ^ 24 + d.detail.toNat * 2 ^ 16 + d.status.toNat * 2 ^ 8 + b2n phase) ++
  leBytes 4 seq.toNat ++ leBytes 8 d.value.toNat ++
  leBytes 4 (d.pc.toNat * 2 ^ 16 + d.group.toNat * 2 ^ 8 + d.loc.toNat) ++ leBytes 4 0 ++
  leBytes 8 d.time.toNat

/-- The slot of completion count `t`. -/
def cqSlot (x : Queue) (t : Nat) : Nat := x.cqAddr.toNat + 32 * (t % 2 ^ x.cqLog.toNat)

/-- The record of a command reaches the ring, or the fault log when the queue is diverted or the write fails
(R330, R333). -/
def writeRecord (c : Cmd) (d : Decision) (s : State) : State :=
  let q := c.queue
  let x := que s q
  let rb := recordBytes c.opcode c.key.seq (phaseAt x.cqTail.toNat x.cqLog.toNat) d
  if x.diverted then flogWrite q 0xFF 1 c.key.seq 0 rb s
  else
    let a := cqSlot x x.cqTail.toNat
    match ringWrite q a rb s with
    | (.ok _, s) =>
      let s := updQue q (fun x => { x with cqTail := x.cqTail + 1 }) s
      let s := if c.irq && x.onPcie && decide (x.msix.toNat < 2048) then sendMsix x.msix.toNat s else s
      notifyQueue q rb s
    | (.error e, s) =>
      updQue q (fun x => { x with diverted := true }) (queueError q 1 e.cause c.key.seq a rb s)

/-! ## Fences (R320 to R323) -/

def fnc (s : State) (f : Nat) : Fence := Tab.get Fence.init s.fences f
def setFnc (f : Nat) (x : Fence) (s : State) : State := { s with fences := Tab.put Fence.init s.fences f x }

/-- May a queue name fence `f` (R308)? -/
def mayName (s : State) (q f : Nat) : Bool :=
  let x := que s q
  decide (f < 4096) && (x.ctx0 || (fnc s f).ctx == x.ctx)

/-- The fence takes the larger value (R323). -/
def raiseFence (f v : Nat) (s : State) : State :=
  let x := fnc s f
  setFnc f { x with val := BitVec.ofNat 63 (max x.val.toNat v) } s

/-- A completed command signals its fence, if it names one that exists: the value on OK, else ERR (R323). -/
def signalFence (c : Cmd) (d : Decision) (s : State) : State :=
  let f := c.signalFence
  if 4096 ≤ f then s
  else if d.status = 0 then raiseFence f c.signalValue s
  else setFnc f { fnc s f with err := true } s

/-- Is a command's fence wait satisfied (R320)? -/
def fenceMet (s : State) (c : Cmd) : Bool :=
  c.waitFence == 0xFFFF ||
    (!(fnc s c.waitFence).err && decide (c.waitValue ≤ (fnc s c.waitFence).val.toNat))

/-! ## Engines of a command -/

/-- A group closed, discarded or lost (R188, R205): its register fields keep their last values. -/
def closeGroup (g : Group) : Group := { g with st := .closed, acc := [], tile := 3, slot := 7 }

/-- Every open group of an engine is discarded and its tiles are empty (R188). -/
def discardGroups (e : Engine) : Engine :=
  let gs := e.groups.filterMap fun p =>
    let g := if p.2.st = .closed then p.2 else closeGroup p.2
    if g = Group.init then none else some (p.1, g)
  { e with groups := gs, tile0 := .empty, tile1 := .empty }

/-- An engine is released: its groups are discarded; a region kept by a command that ended with OK stays (R238); after
a kill its scratchpad is zeroed before its next command (R329). -/
def freeEngine (ok killed : Bool) (e : Engine) : Engine :=
  { discardGroups e with
    cmd := none, pst := .idle, units := [], dmaOut := [], zeroFirst := e.zeroFirst || killed
    kept := if ok && !killed then e.keepNext else [], keepNext := [] }

/-- Logical engines that serve a command. -/
def enginesOf (s : State) (k : Key) : List Nat := (List.range 64).filter fun n => (eng s n).cmd == some k

/-- Every engine of a command is released; each that has not reported its end does so now (R397). -/
def releaseEngines (ok killed : Bool) (k : Key) (s : State) : State :=
  (enginesOf s k).foldl (fun st n =>
    let st := if (eng st n).pst = .ended then st else icuSend (32 + n) st
    updEng n (freeEngine ok killed) st) s

/-! ## Models in use -/

def mdl (s : State) (i : Nat) : Model := Tab.get Model.init s.models i
def updMdl (i : Nat) (f : Model → Model) (s : State) : State := { s with models := Tab.upd Model.init s.models i f }

/-- A run of a model ends: the model is READY again when no other run uses it (R87). -/
def dropUser (i : Nat) (s : State) : State :=
  updMdl i (fun m => { m with users := m.users - 1
                              st := if m.users ≤ 1 ∧ m.st = .inUse then .ready else m.st }) s

/-- The identifier and its extents are given back, zeroed and free (R86). -/
def dropModel (id : Nat) (s : State) : State :=
  let es := (mdl s id).exts
  let s := es.foldl (fun st e => extentFreed e st) s
  { s with models := Tab.put Model.init s.models id Model.init }

/-! ## The admission report (R90) -/

/-- The 128 report bytes. -/
def reportBytes (id detail status reqExt reqBytes avail row col bound : Nat) (opts : List Byte)
    (conf diag round : Nat) (dig : List Byte) : List Byte :=
  leBytes 4 (id * 2 ^ 16 + detail * 2 ^ 8 + status) ++ leBytes 4 reqExt ++ leBytes 8 reqBytes ++ leBytes 4 avail ++
  leBytes 4 row ++ leBytes 4 col ++ leBytes 4 bound ++ slice 0 48 opts ++ leBytes 8 conf ++
  leBytes 4 diag ++ leBytes 4 round ++ slice 0 32 dig

/-- FAIL_ROW and FAIL_COL where there is none. -/
def noRow : Nat := 0xFFFFFFFF

/-- A report that is not ADMITTED. -/
def refusalReport (status detail reqExt reqBytes avail row col : Nat) (opts : List Byte) : List Byte :=
  reportBytes 0xFFFF detail status reqExt reqBytes avail row col 0 opts 0 0 0 []

/-- The report is written to the address the command names; one that cannot be written ends the command with
ADDRESS_FAULT (R334). -/
def writeReport (c : Cmd) (rep : List Byte) (d : Decision) (s : State) : Decision × State :=
  match cmdWrite c c.p2 rep s with
  | (.ok _, s) => (d, s)
  | (.error e, s) => ({ e.dec with status := 5, detail := 0x10, time := d.time }, s)

/-- A load that ends in LOADING for any other reason than its own checks (a timeout, a kill, an engine's failure, a
cancellation) releases its model and reports LOAD_FAILED, ABORTED (R86, R90). The detail is the model's choice but for an
abort (log 63). -/
def endLoad (c : Cmd) (d : Decision) (s : State) : Decision × State :=
  match c.work with
  | .load id =>
    let m := mdl s id
    if m.st = .loading then
      writeReport c (refusalReport 4 0x0D m.reqExts m.reqBytes m.avail noRow noRow []) d (dropModel id s)
    else (d, s)
  | _ => (d, s)

/-- A split run that ends leaves behind what relaying for its group needs: who was heard where (R485). -/
def keepGroup (p : SplitSt) (s : State) : State :=
  if p.devices ≤ 1 then s
  else { s with kw := { s.kw with past := (s.kw.past.filter fun x => x.group != p.group) ++
    [{ p with spinsGot := [], spinsLate := [], energies := [], sentPartial := none }] } }

/-- What a command gives back when it ends: its model and the extents of its workspace (R108). -/
def dropWork (c : Cmd) (s : State) : State :=
  match c.work with
  | .anneal r => keepGroup r.split (r.workspace.foldl (fun st e => releaseExtent st e) (dropUser r.model s))
  | _ => s

/-- The lock-step state of a command's work. -/
def Cmd.lockStep (c : Cmd) : Option LockStep :=
  match c.work with
  | .anneal r => some r.ls
  | .program p => some p.ls
  | _ => none

/-- Checkpoints a command's work has taken. -/
def Cmd.ckptCount (c : Cmd) : Nat :=
  match c.work with
  | .anneal r => r.ckpts.toNat
  | .program p => p.ckpts.toNat
  | _ => 0

/-- A message on a binding's link, with its epoch and a second word (R481). -/
def bindingSend (b ty : Nat) (w3 : Word) (body : List Byte) (s : State) : State :=
  if bindingLive s b then
    kwSend (bnd s b).link.toNat { ty := ty, vc := 0, w2 := (bnd s b).epoch, w3 := w3, body := body } s
  else s

/-- Has the command taken its final checkpoint: a run at its last boundary, a program at its last END (R368, R369)? -/
def Cmd.finalCkpt (c : Cmd) : Bool :=
  match c.work with
  | .anneal r => r.digest && (match r.stop with | some (reason, _) => reason != 0 | none => false)
  | .program p => p.digest && !p.engs.isEmpty && p.ended.length == p.engs.length
  | _ => false

/-- CMD_END of a lock-step command (R381, R481): the final checkpoint reached, or 0xFFFF_FFFF without it. -/
def sendCmdEnd (c : Cmd) (s : State) : State :=
  match c.lockStep with
  | some ls =>
    if ls.on then
      bindingSend ls.binding 6 c.key.seq (leBytes 4 (if c.finalCkpt then c.ckptCount else 0xFFFFFFFF)) s
    else s
  | none => s

/-! ## Split groups: who is told (R485) -/

/-- An ACTIVE link on which device index `i` of a split group was heard directly. -/
def directLink (s : State) (p : SplitSt) (i : Nat) : Option Nat :=
  (p.joined.find? fun m => m.1 == i && (lnk s m.2.1).st == .active).map (·.2.1)

/-- Was member `i` heard directly by member `m`, as far as this device knows? -/
def hears (p : SplitSt) (m i : Nat) : Bool := p.joined.any fun j => j.1 == m && j.2.2.toNat.testBit i

/-- The link towards member `i`: direct, or that of the lowest-indexed member that links to both (R485). -/
def routeTo (s : State) (p : SplitSt) (i : Nat) : Option Nat :=
  match directLink s p i with
  | some l => some l
  | none => ((List.range p.devices).find? fun m => hears p m i && (directLink s p m).isSome).bind (directLink s p)

/-- Turns of member `i` that have come whole. -/
def turnsGot (p : SplitSt) (i : Nat) : Nat := ((p.spinsGot.find? fun x => x.1 == i).map (·.2)).getD 0

/-- Members whose spins of a turn below `t` are still to come. -/
def behind (p : SplitSt) (t : Nat) : List Nat :=
  (List.range p.devices).filter fun i => i != p.index && decide (turnsGot p i < t)

/-- Member `i`'s parts of a sweep's energies so far. -/
def partsOf (p : SplitSt) (sweep i : Nat) : List Quad :=
  ((p.energies.find? fun x => x.1 == sweep && x.2.1 == i).map (·.2.2)).getD []

/-- A message to every other member of a split group. -/
def splitSend (p : SplitSt) (ty vc : Nat) (body : Nat → List Byte) (s : State) : State :=
  (List.range p.devices).foldl (fun st i =>
    if i = p.index then st else
    match routeTo st p i with
    | some l => kwSend l { ty := ty, vc := vc, w2 := p.group, w3 := BitVec.ofNat 32 (i * 2 ^ 8 + p.index), body := body i } st
    | none => st) s

/-- A device of a split run that ends otherwise than with OK tells the peers it hears, which pass it on (R165, R485); one
that ends because a peer told it has nothing to add. -/
def sendSplitFail (c : Cmd) (d : Decision) (s : State) : State :=
  match c.work with
  | .anneal r =>
    let p := r.split
    if 1 < p.devices ∧ d.status ≠ 0 ∧ !(d.status = 7 ∧ d.detail = 2) then
      (List.range p.devices).foldl (fun st i =>
        if i = p.index then st else
        match directLink st p i with
        | some l => kwSend l { ty := 10, vc := 0, w2 := p.group, w3 := BitVec.ofNat 32 p.index, body := [] } st
        | none => st) s
    else s
  | _ => s

/-! ## Destruction (R342, R343) -/

/-- The QUEUE_DESTROY that destroys queue `q`. -/
def destroyerOf (s : State) (q : Nat) : Option Cmd :=
  s.cmds.find? fun c => c.work == .destroy && c.p0 % 65536 == q

/-- Changes the counts of queue `q`'s destruction. -/
def destroyNote (q : Nat) (f : Tally → Tally) (s : State) : State := updQue q (fun x => { x with tally := f x.tally }) s

def Tally.addCancelled (t : Tally) : Tally := { t with cancelled := t.cancelled + 1 }
def Tally.addDrained (mask : Nat) (t : Tally) : Tally := { t with drained := t.drained ||| mask }
def Tally.addKilled (mask : Nat) (t : Tally) : Tally := { t with killed := t.killed ||| (mask - (mask &&& t.drained)) }
def Tally.addErr (n : Nat) (t : Tally) : Tally := { t with errFences := t.errFences + n }
def Tally.addKilledCmd (t : Tally) : Tally := { t with killedCmds := t.killedCmds + 1 }
def Tally.addDrainedCmd (t : Tally) : Tally := { t with drainedCmds := t.drainedCmds + 1 }

/-- The 32 bytes of a destruction record (R343). -/
def destructionBytes (q : Nat) (t : Tally) : List Byte :=
  leBytes 4 q ++ leBytes 4 t.cancelled ++ leBytes 8 t.drained ++ leBytes 8 t.killed ++ leBytes 4 t.errFences ++
  leBytes 4 (t.killedCmds * 2 ^ 16 + t.drainedCmds % 2 ^ 16)

/-- Does a final status tell of a kill (R165, R328, R340, R342)? -/
def Decision.isKill (d : Decision) : Bool :=
  d.status == 7 || d.status == 8 || d.status == 0x0B || (d.status == 9 && d.detail == 2)

/-- Has a run reached the boundary at which it ends or was to stop? -/
def Cmd.atStop (c : Cmd) : Bool := match c.work with | .anneal r => r.stop.isSome | _ => false

/-- Did a run that was to stop end before its turn boundary? -/
def Cmd.fellShort (c : Cmd) : Bool := match c.work with | .anneal _ => c.decided.isSome && !c.atStop | _ => false

/-- Counts a completed command of a queue under destruction; a run that was to stop and ended before its turn boundary
counts with the killed (log 33). -/
def destroyCount (c : Cmd) (d : Decision) (newErr : Nat) (s : State) : State :=
  if (que s c.queue).st = .destroying then
    let s := destroyNote c.queue (Tally.addErr newErr) s
    destroyNote c.queue (if d.status = 0x0A then Tally.addCancelled
      else if d.isKill || c.fellShort then Tally.addKilledCmd else Tally.addDrainedCmd) s
  else s

/-- The fate of a completing command's engines under destruction (R343): DRAINED at END or at the turn boundary of a
stopped run, KILLED otherwise. -/
def engineFate (c : Cmd) (d : Decision) (s : State) : State :=
  if (que s c.queue).st = .destroying then
    let es := enginesOf s c.key
    let all := d.status == 0 || c.atStop
    let dr := es.filter fun n => all || (eng s n).pst == .ended
    destroyNote c.queue (fun t => (t.addDrained (ofBits dr)).addKilled (ofBits es)) s
  else s

/-- The destruction record of a queue that a Function Level Reset destroys goes to the fault log (R449, R335). -/
def destroyLogged (q : Nat) (s : State) : State :=
  flogWrite q 0xFF 5 (que s q).tally.seq 0 (destructionBytes q (que s q).tally) s

/-- The destroy command of a queue whose last command has ended: the record is written, the number becomes unused, and
the command's own decision is returned (R342, R334). -/
def finishDestroy (q : Nat) (s : State) : List (Key × Decision) × State :=
  if (que s q).st = .destroying ∧ !(s.cmds.any fun c => c.queue == q) then
    match destroyerOf s q with
    | some c =>
      let d := c.decided.getD (stampD s (mkDecision 0 0 0))
      let w := cmdWrite c c.p1 (destructionBytes q (que s q).tally) s
      let s := { w.2 with queues := Tab.put Queue.init w.2.queues q Queue.init }
      match w.1 with
      | .ok _ => ([(c.key, d)], s)
      | .error e => ([(c.key, { e.dec with status := 5, detail := 0x10, time := d.time })], s)
    | none => ([], setQue q Queue.init (destroyLogged q s))
  else ([], s)

/-! ## Completion -/

/-- The last 256 completions of a queue, for ABORT (R341). -/
def noteRecent (c : Cmd) (d : Decision) (s : State) : State :=
  updQue c.queue (fun x =>
    let l := (x.recent.filter fun p => p.1 != c.key.seq) ++ [(c.key.seq, d.status)]
    { x with recent := l.drop (l.length - 256) }) s

/-- Commands not yet running. -/
def Cmd.notStarted (c : Cmd) : Bool := c.st == .waiting || c.st == .admitting || c.st == .ready

/-- Who completes because of a completion: waiters on a fence with ERR, the rest of a diverted queue, and the ABORT or
PAUSE that decided it or found it decided (R341). -/
def followers (k : Key) (wasDiverted : Bool) (d0 : Decision) (s : State) : List (Key × Decision) :=
  (s.cmds.filter fun c => c.st == .waiting && c.decided.isNone && c.waitFence != 0xFFFF && (fnc s c.waitFence).err).map
    (fun c => (c.key, stampD s (mkDecision 0x0A 1 0))) ++
  (if (que s k.q.toNat).diverted && !wasDiverted then
    (s.cmds.filter fun c => c.queue == k.q.toNat && c.notStarted && c.decided.isNone).map
      (fun c => (c.key, stampD s (mkDecision 0x0A 3 0)))
   else []) ++
  (s.cmds.filter fun c => match c.work with | .target t _ => t == k | _ => false).filterMap
    (fun c => c.decided.map fun d =>
      (c.key, if d.status = 0 ∧ d.detail = 1 then { d with value := BitVec.ofNat 64 d0.status.toNat } else d))

/-- One command completes (R299, R323, R330): it leaves the machine, its record is written, its fence is signalled.
The answer names the commands that complete because of it. -/
def finishOne (k : Key) (d : Decision) (s : State) : List (Key × Decision) × State :=
  match findCmd s k with
  | none => ([], s)
  | some c =>
    let wasDiverted := (que s c.queue).diverted
    let (d, s) := endLoad c d s
    let s := sendSplitFail c d (sendCmdEnd c (dropWork c s))
    let s := releaseEngines (d.status == 0) false k (dropCmd k (engineFate c d s))
    let s := { s with fe := { s.fe with cmds := s.fe.cmds + 1 } }
    let s := noteRecent c d (writeRecord c d s)
    let errBefore := (fnc s c.signalFence).err
    let s := signalFence c d s
    let newErr := if c.signalFence < 4096 ∧ !errBefore ∧ (fnc s c.signalFence).err then 1 else 0
    let s := if d.status = 0x0C ∧ d.detail.toNat < 0x10 then
        { s with det := { s.det with pauses := satInc s.det.pauses } } else s
    let s := destroyCount c d newErr s
    let f := followers k wasDiverted d s
    let r := finishDestroy c.queue s
    (f ++ r.1, r.2)

/-- Completes a list of decided commands and all that follow from them. -/
def settleN : Nat → List (Key × Decision) → State → State
  | 0, _, s => s
  | _, [], s => s
  | fuel + 1, (k, d) :: rest, s =>
    let r := finishOne k d s
    settleN fuel (rest ++ r.1) r.2

/-! ## Queue order (R314, R315) -/

/-- ABORT and PAUSE act when they are checked (R337). -/
def Cmd.actsAtOnce (c : Cmd) : Bool := c.opcode == 0x14 || c.opcode == 0x23

/-- Does queue order hold the command up (R314)? -/
def orderMet (s : State) (c : Cmd) : Bool :=
  match c.prev with
  | none => true
  | some p =>
    match findCmd s ⟨c.key.q, p⟩ with
    | none => true
    | some b => c.overlap && !(b.notStarted && b.decided.isNone)

/-- May a WAITING command leave WAITING? -/
def freeToGo (s : State) (c : Cmd) : Bool :=
  c.st == .waiting && c.decided.isNone && !c.actsAtOnce && orderMet s c && fenceMet s c

/-- Commands that have become free to leave WAITING are stamped with one further place in the order (R315). -/
def noteFree (s : State) : State :=
  let top := s.cmds.foldl (fun a c => max a c.order) 0 + 1
  { s with cmds := s.cmds.map fun c =>
      if c.st == .waiting then
        (if freeToGo s c then (if c.order = 0 then { c with order := top } else c) else { c with order := 0 })
      else c }

/-- The order in which commands entered READY (R317): one further place. -/
def readyOrder (k : Key) (s : State) : State :=
  let top := s.cmds.foldl (fun a c => max a c.order) 0 + 1
  updCmd k (fun c => { c with order := top }) s

/-- Completes decided commands. Each command completes once, so the number of commands in flight bounds the work. -/
def settle (l : List (Key × Decision)) (s : State) : State :=
  noteFree (settleN (l.length + s.cmds.length * (s.cmds.length + 2) + 1) l s)

/-- One command is decided now and completes at once. -/
def complete (k : Key) (d : Decision) (s : State) : State := settle [(k, stampD s d)] s

/-- A command is decided now; it completes when its work allows. -/
def decide' (k : Key) (d : Decision) (s : State) : State :=
  updCmd k (fun c => { c with decided := some (stampD s d) }) s

/-- A decided command whose stop has been reached completes. -/
def completeDecided (k : Key) (s : State) : State :=
  match findCmd s k with
  | some c => (match c.decided with | some d => settle [(k, d)] s | none => s)
  | none => s

/-- Commits with OK (R339). -/
def commitOk (k : Key) (value : Nat) (s : State) : State := complete k (mkDecision 0 0 value) s

/-- Refuses with a detail (R312). -/
def refuse (k : Key) (detail : Nat) (s : State) : State := complete k (mkDecision 1 detail 0) s

end Sys2Proof.Machine
end

