-- ==== Sys2Proof/Machine/Float.lean ====
section
/-! DEFINITION. Floating-point values as exact dyadic numbers, the formats of R167 and R189, rounding to nearest with
ties to even, and the vector unit's functions (R195, R228). -/

namespace Sys2Proof

/-- A floating-point value: NaN, an infinity, or (-1)^neg · m · 2^e exactly. -/
inductive FVal where
  | nan
  | inf (neg : Bool)
  | fin (neg : Bool) (m : Nat) (e : Int)
deriving DecidableEq, Repr

/-- A binary interchange format: exponent bits, mantissa bits. -/
structure Fmt where
  eb : Nat
  mb : Nat
deriving DecidableEq, Repr

def fp64 : Fmt := ⟨11, 52⟩
def fp32 : Fmt := ⟨8, 23⟩
def bf16 : Fmt := ⟨8, 7⟩
def e5m2 : Fmt := ⟨5, 2⟩
def e4m3 : Fmt := ⟨4, 3⟩

/-- The exponent of the least subnormal unit. -/
def Fmt.emin (f : Fmt) : Int := 2 - (2 ^ (f.eb - 1) : Nat) - f.mb

/-- The bits of +infinity. -/
def Fmt.infBits (f : Fmt) : Nat := (2 ^ f.eb - 1) * 2 ^ f.mb

/-- The value of finite bits (exponent field taken at face value). -/
def Fmt.finite (f : Fmt) (x : Nat) : FVal :=
  let man := x % 2 ^ f.mb
  let ex := x / 2 ^ f.mb % 2 ^ f.eb
  let neg := x.testBit (f.eb + f.mb)
  if ex = 0 then .fin neg man f.emin else .fin neg (2 ^ f.mb + man) (f.emin + ((ex : Nat) - 1 : Int))

/-- The value of bits in an IEEE format. -/
def Fmt.dec (f : Fmt) (x : Nat) : FVal :=
  if x / 2 ^ f.mb % 2 ^ f.eb = 2 ^ f.eb - 1 then
    (if x % 2 ^ f.mb = 0 then .inf (x.testBit (f.eb + f.mb)) else .nan)
  else f.finite x

/-- E4M3 (R167): no infinity; 0x7F and 0xFF are NaN. -/
def decE4M3 (x : Nat) : FVal := if x % 128 = 127 then .nan else e4m3.finite x

/-- Magnitude m·2^e rounded to the format's grid, to nearest with ties to even: bits, exponent unbounded above. -/
def Fmt.roundMag (f : Fmt) (m : Nat) (e : Int) : Nat :=
  if m = 0 then 0 else
  let q := max (e + (Nat.log2 m : Int) - f.mb) f.emin
  let m' := if q ≤ e then m * 2 ^ (e - q).toNat else (rneDiv m (2 ^ (q - e).toNat)).toNat
  (q - f.emin).toNat * 2 ^ f.mb + m'

/-- The bits of a value in an IEEE format, rounded; beyond the range, an infinity; NaN is canonical (R190). -/
def Fmt.enc (f : Fmt) : FVal → Nat
  | .nan => f.infBits + 2 ^ (f.mb - 1)
  | .inf s => f.infBits + at' s (f.eb + f.mb)
  | .fin s m e => min (f.roundMag m e) f.infBits + at' s (f.eb + f.mb)

/-- Saturating FP8 output with largest finite bits `top` (R189): the bits and whether it saturated (R190). -/
def Fmt.encSat (f : Fmt) (top nanBits : Nat) : FVal → Nat × Bool
  | .nan => (nanBits, false)
  | .inf s => (top + at' s 7, true)
  | .fin s m e =>
    let r := f.roundMag m e
    (min r top + at' s 7, decide (r > top))

def encE4M3 : FVal → Nat × Bool := e4m3.encSat 0x7E 0x7F
def encE5M2 : FVal → Nat × Bool := e5m2.encSat 0x7B 0x7E

def FVal.isNan : FVal → Bool
  | .nan => true
  | _ => false

def FVal.isInf : FVal → Bool
  | .inf _ => true
  | _ => false

def FVal.isFin : FVal → Bool
  | .fin _ _ _ => true
  | _ => false

def FVal.neg : FVal → FVal
  | .nan => .nan
  | .inf s => .inf (!s)
  | .fin s m e => .fin (!s) m e

/-- A finite value with its sign, as an integer mantissa. -/
def sm (neg : Bool) (m : Nat) : Int := if neg then -(m : Int) else m

/-- Exact sum; a zero sum of opposite values is +0 (R179). -/
def FVal.add : FVal → FVal → FVal
  | .nan, _ => .nan
  | _, .nan => .nan
  | .inf a, .inf b => if a = b then .inf a else .nan
  | .inf a, _ => .inf a
  | _, .inf b => .inf b
  | .fin a m e, .fin b n d =>
    let q := min e d
    let s := sm a m * (2 ^ (e - q).toNat : Nat) + sm b n * (2 ^ (d - q).toNat : Nat)
    if s = 0 then .fin (a && b) 0 q else .fin (decide (s < 0)) s.natAbs q

/-- Exact product. -/
def FVal.mul : FVal → FVal → FVal
  | .nan, _ => .nan
  | _, .nan => .nan
  | .inf a, .inf b => .inf (a != b)
  | .inf a, .fin b n _ => if n = 0 then .nan else .inf (a != b)
  | .fin a m _, .inf b => if m = 0 then .nan else .inf (a != b)
  | .fin a m e, .fin b n d => .fin (a != b) (m * n) (e + d)

/-- Times a power of two, exactly. -/
def FVal.scale (k : Int) : FVal → FVal
  | .fin s m e => .fin s m (e + k)
  | v => v

/-- An integer as an exact value. -/
def ofInt (x : Int) : FVal := .fin (decide (x < 0)) x.natAbs 0

/-- Is a ≤ b, for values that are not NaN? -/
def FVal.le : FVal → FVal → Bool
  | .nan, _ => false
  | _, .nan => false
  | .inf true, _ => true
  | _, .inf false => true
  | .inf false, .inf true => false
  | .inf false, .fin _ _ _ => false
  | .fin _ _ _, .inf true => false
  | .fin a m e, .fin b n d =>
    let q := min e d
    decide (sm a m * (2 ^ (e - q).toNat : Nat) ≤ sm b n * (2 ^ (d - q).toNat : Nat))

def FVal.lt (a b : FVal) : Bool := a.le b && !b.le a

def FVal.isZero : FVal → Bool
  | .fin _ 0 _ => true
  | _ => false

/-- FP32 and FP64 additions of stored bits, rounded to nearest with ties to even. -/
def add32 (a b : Word) : Word := BitVec.ofNat 32 (fp32.enc ((fp32.dec a.toNat).add (fp32.dec b.toNat)))
def add64 (a b : Quad) : Quad := BitVec.ofNat 64 (fp64.enc ((fp64.dec a.toNat).add (fp64.dec b.toNat)))

/-- A value stored in FP32 or FP64. -/
def to32 (v : FVal) : Word := BitVec.ofNat 32 (fp32.enc v)
def to64 (v : FVal) : Quad := BitVec.ofNat 64 (fp64.enc v)
def of32 (w : Word) : FVal := fp32.dec w.toNat
def of64 (w : Quad) : FVal := fp64.dec w.toNat

/-- A value rounded to the nearest integer, ties to even, held between bounds; NaN gives 0: result and whether it
clamped or met a NaN (R184, R228). -/
def toIntClamp (lo hi : Int) : FVal → Int × Bool
  | .nan => (0, true)
  | .inf s => (if s then lo else hi, true)
  | .fin s m e =>
    let x := if e ≥ 0 then sm s m * (2 ^ e.toNat : Nat) else rneDiv (sm s m) (2 ^ (-e).toNat)
    let y := clampI lo hi x
    (y, decide (y ≠ x))

/-- The larger of two values by R196: +0 above -0, NaN wins. -/
def FVal.max (a b : FVal) : FVal :=
  if a.isNan || b.isNan then .nan
  else if a.isZero && b.isZero then (match a with | .fin true _ _ => b | _ => a)
  else if a.le b then b else a

/-- Fixed-point fraction bits of the vector unit's reference functions. -/
def fxP : Nat := 640

/-- 1 + y/k·(1 + y/(k+1)·(...)): the exponential series by Horner's rule, `n` terms, y scaled by 2^P. -/
def expSeries : Nat → Nat → Int → Int
  | 0, _, _ => (2 ^ fxP : Nat)
  | n + 1, k, y => (2 ^ fxP : Nat) + y * expSeries n (k + 1) y / (2 ^ fxP : Nat) / (k : Int)

/-- Squared `n` times, in fixed point. -/
def sqrN : Nat → Int → Int
  | 0, x => x
  | n + 1, x => sqrN n (x * x / (2 ^ fxP : Nat))

/-- 2^P · e^(num/den), for |num/den| below 128. -/
def fxExp (num : Int) (den : Nat) : Nat :=
  (sqrN 12 (expSeries 60 1 (num * (2 ^ (fxP - 12) : Nat) / (den : Int)))).toNat

/-- num/den as FP32 bits, rounded to nearest. -/
def ratTo32 (neg : Bool) (num den : Nat) : Nat :=
  let q := num * 2 ^ 400 / den
  let st := if num * 2 ^ 400 % den = 0 then 0 else 1
  fp32.enc (.fin neg (2 * q + st) (-401))

/-- The value of an FP32 magnitude in units of 2^-149. -/
def mag32 (b : Nat) : Nat := if b < 2 ^ 23 then b else (2 ^ 23 + b % 2 ^ 23) * 2 ^ (b / 2 ^ 23 - 1)

/-- Is an FP32 magnitude within 2 units in the last place of num/den (R195)? -/
def near32 (num den b : Nat) : Bool :=
  let x := num * 2 ^ 149
  let u := 2 ^ (Nat.log2 (x / den) - 23)
  decide (b < 0x7F800000) && decide (mag32 b * den ≤ x + 2 * u * den) && decide (x ≤ mag32 b * den + 2 * u * den)

/-- The result of the vector unit's function `f` at an argument: one of the FP32 values within 2 units in the last place
of the exact one, ±xn/xd; `bits` is the nearest of them (R195, log 10). -/
def nudge (f : Nat) (num : Int) (den xn xd bits : Nat) : Word :=
  let mag := bits % 2 ^ 31
  let b := mag + Config.ulpNoise f num den % 9 - 4
  BitVec.ofNat 32 (bits / 2 ^ 31 % 2 * 2 ^ 31 + if near32 xn xd b then b else mag)

/-- A finite value as a ratio in lowest powers of two. -/
def ratOf (neg : Bool) (m : Nat) (e : Int) : Int × Nat :=
  if e ≥ 0 then (sm neg m * (2 ^ e.toNat : Nat), 1)
  else
    let d := 2 ^ (-e).toNat
    let g := Nat.gcd m d
    (sm neg (m / g), d / g)

/-- e^x of the ratio (R195, R228 EXP). -/
def expRat (num : Int) (den : Nat) : Word :=
  if num ≥ 128 * (den : Int) then BitVec.ofNat 32 fp32.infBits
  else
    let x := if num ≤ -128 * (den : Int) then 0 else fxExp num den
    nudge 0 num den x (2 ^ fxP) (ratTo32 false x (2 ^ fxP))

/-- 1/(1+e^-x) of the ratio (R228 SIGM). -/
def sigmRat (num : Int) (den : Nat) : Word :=
  let (xn, xd) :=
    if num ≥ 128 * (den : Int) then (2 ^ fxP - 1, 2 ^ fxP)
    else if num ≤ -128 * (den : Int) then (0, 2 ^ fxP)
    else (2 ^ fxP, 2 ^ fxP + fxExp (-num) den)
  nudge 1 num den xn xd (ratTo32 false xn xd)

/-- tanh x of the ratio (R225, R228 TANH). -/
def tanhRat (num : Int) (den : Nat) : Word :=
  let (xn, xd) :=
    if 60 * den ≤ num.natAbs then (2 ^ fxP - 1, 2 ^ fxP)
    else
      let a := fxExp (2 * (num.natAbs : Int)) den
      (a - 2 ^ fxP, a + 2 ^ fxP)
  nudge 2 num den xn xd (ratTo32 (decide (num < 0)) xn xd)

/-- The functions on values, with their limits at the infinities; NaN gives NaN. -/
def vExp : FVal → Word
  | .nan => 0x7FC00000
  | .inf s => if s then 0 else 0x7F800000
  | .fin s m e => let r := ratOf s m e; expRat r.1 r.2

def vSigm : FVal → Word
  | .nan => 0x7FC00000
  | .inf s => if s then 0 else 0x3F800000
  | .fin s m e => let r := ratOf s m e; sigmRat r.1 r.2

def vTanh : FVal → Word
  | .nan => 0x7FC00000
  | .inf s => if s then 0xBF800000 else 0x3F800000
  | .fin s m e => let r := ratOf s m e; tanhRat r.1 r.2

end Sys2Proof
end

