-- ==== Sys2Proof/Machine/Array.lean ====
section
/-! DEFINITION. Array arithmetic (05): products, the two accumulation paths, combination of parts, the drain's
conversions and row reductions, and what the closing of a group counts. -/

namespace Sys2Proof.Machine

/-! ## Group flags, in the order of R191 bits [5:0] -/

def flSat : Nat := 1
def flLong : Nat := 2
def flI8 : Nat := 4
def flInvalid : Nat := 8
def flInf : Nat := 16
def flOut : Nat := 32

/-- The flags that a floating-point result raises (R179). -/
def fpFlags (v : FVal) : Nat := if v.isNan then flInvalid else if v.isInf then flInf else 0

/-! ## Operands (R167) -/

/-- The integer value of an operand of format 0 to 2. -/
def opInt (fmt x : Nat) : Int :=
  if fmt = 0 then (if x % 256 = 0x80 then -127 else sgn 8 x)
  else if fmt = 1 then (if x % 2 = 1 then 1 else -1)
  else if x % 4 = 1 then 1 else if x % 4 = 3 then -1 else 0

/-- The exact value of an operand of any format. -/
def opVal (fmt x : Nat) : FVal :=
  if fmt = 3 then decE4M3 (x % 256) else if fmt = 4 then e5m2.dec (x % 256) else if fmt = 5 then bf16.dec (x % 65536)
  else ofInt (opInt fmt x)

/-- Is a format an integer one? -/
def fmtInt (f : Nat) : Bool := decide (f ≤ 2)

/-- Is a pairing in the table of R169: the path (true float), or none? -/
def pairPath (a b : Nat) : Option Bool :=
  if (a = 0 ∧ b ≤ 2) ∨ ((a = 1 ∨ a = 2) ∧ b = 0) then some false
  else if ((a = 3 ∨ a = 4) ∧ 1 ≤ b ∧ b ≤ 4) ∨ ((a = 1 ∨ a = 2) ∧ 3 ≤ b ∧ b ≤ 5) ∨
    (a = 5 ∧ (b = 5 ∨ b = 1 ∨ b = 2)) then
    some true
  else none

/-- Array steps of one product of a pairing (R169): 2 with a BF16 operand. -/
def pairSteps (a b : Nat) : Nat := if a = 5 ∨ b = 5 then 2 else 1

/-! ## The integer path (R170, R173, R174) -/

def int32Lo : Int := -2147483648
def int32Hi : Int := 2147483647

/-- One clamped addition: the new value and the flag. -/
def intStep (v : Word) (p : Int) : Word × Nat :=
  let x := v.toInt + p
  let y := clampI int32Lo int32Hi x
  (BitVec.ofInt 32 y, if y = x then 0 else flSat)

/-! ## The float path (R176 to R179) -/

/-- FP32 and FP64 sums with the flags they raise. -/
def addF32 (a b : Word) : Word × Nat := let r := add32 a b; (r, fpFlags (of32 r))
def addF64 (a b : Quad) : Quad × Nat := let r := add64 a b; (r, fpFlags (of64 r))

/-- One product (exact value `p`) added as the run's product number `n` (0 to 31). -/
def floatStep (n : Nat) (a : Acc) (p : FVal) : Acc × Nat :=
  let q := to32 p
  let f0 := fpFlags (of32 q)
  let (r, f1) := if n = 0 then (q, 0) else addF32 a.r q
  if n = 31 then
    let (t, f2) := addF64 a.t (to64 (of32 r))
    ({ a with t := t, r := 0 }, f0 ||| f1 ||| f2)
  else ({ a with r := r }, f0 ||| f1)

/-- The promotion of a run of `n` products at close. -/
def promote (n : Nat) (a : Acc) : Acc × Nat :=
  if n = 0 then (a, 0) else
  let (t, f) := addF64 a.t (to64 (of32 a.r))
  ({ a with t := t, r := 0 }, f)

/-- The flag of a float group with `k` products (R181). -/
def longFlag (k : Nat) : Nat := if 1048576 < k then flLong else 0

/-! ## Whole accumulations, for model evaluations -/

/-- A part of an evaluation: its v or promoted t (bits), flags, product count. -/
structure Part where
  bits : Quad
  flags : Nat
  k : Nat
deriving DecidableEq, Repr

/-- An integer accumulation of exact products from a start value. -/
def sumInt : Word → Nat → List Int → Word × Nat
  | v, f, [] => (v, f)
  | v, f, p :: ps => let (v, g) := intStep v p; sumInt v (f ||| g) ps

/-- A float accumulation: `n` products of the run so far. -/
def sumFloat : Nat → Acc → Nat → List FVal → Nat × Acc × Nat
  | n, a, f, [] => (n, a, f)
  | n, a, f, p :: ps => let (a, g) := floatStep n a p; sumFloat (if n = 31 then 0 else n + 1) a (f ||| g) ps

def intPart (start : Word) (ps : List Int) : Part :=
  let (v, f) := sumInt start 0 ps
  { bits := BitVec.ofInt 64 v.toInt, flags := f, k := ps.length }

def floatPart (start : Quad) (ps : List FVal) : Part :=
  let (n, a, f) := sumFloat 0 { v := 0, t := start, r := 0 } 0 ps
  let (a, g) := promote n a
  { bits := a.t, flags := f ||| g ||| longFlag ps.length, k := ps.length }

/-- Two parts combined (R198). -/
def combine2 (float : Bool) (a b : Part) : Part :=
  if float then
    let (t, f) := addF64 a.bits b.bits
    { bits := t, flags := a.flags ||| b.flags ||| f, k := a.k + b.k }
  else
    let (v, f) := intStep (BitVec.ofInt 32 a.bits.toInt) b.bits.toInt
    { bits := BitVec.ofInt 64 v.toInt, flags := a.flags ||| b.flags ||| f, k := a.k + b.k }

/-- One level of the pairwise order (R100). -/
def combineLevel (float : Bool) : List Part → List Part
  | a :: b :: r => combine2 float a b :: combineLevel float r
  | l => l

/-- The combination of up to 64 parts. -/
def combineParts (float : Bool) : Nat → List Part → Part
  | 0, l => l.headD ⟨0, 0, 0⟩
  | n + 1, l => combineParts float n (combineLevel float l)

/-! ## Opening values (R184) -/

/-- A start value of a format (0 int32, 1 FP32, 2 FP64) in a group: the accumulator and the flag. -/
def startAcc (float : Bool) (fmt x : Nat) : Acc × Nat :=
  if float then
    ({ v := 0, r := 0
       t := if fmt = 2 then BitVec.ofNat 64 x else if fmt = 1 then to64 (fp32.dec (x % 2 ^ 32))
            else to64 (ofInt (sgn 32 x)) }, 0)
  else if fmt = 1 then
    let (z, c) := toIntClamp int32Lo int32Hi (fp32.dec (x % 2 ^ 32))
    ({ v := BitVec.ofInt 32 z, t := 0, r := 0 }, if c then flSat else 0)
  else ({ v := BitVec.ofNat 32 x, t := 0, r := 0 }, 0)

/-! ## Drain (R189, R190) -/

/-- Bytes of an element of an output format. -/
def outBytes (fmt : Nat) : Nat :=
  if fmt = 3 then 8 else if fmt = 5 then 2 else if fmt = 1 ∨ fmt = 6 ∨ fmt = 7 then 1 else 4

/-- Is an output format one of the group's path? -/
def outAllowed (float : Bool) (fmt : Nat) : Bool := if float then decide (3 ≤ fmt ∧ fmt ≤ 7) else decide (fmt ≤ 2)

/-- An element as drained: its bits and the OUT_CLAMP flag. -/
def drainElem (fmt rshift : Nat) (a : Acc) : Nat × Nat :=
  if fmt = 0 then (a.v.toNat, 0)
  else if fmt = 1 then
    let x := rneDiv a.v.toInt (2 ^ rshift)
    let y := clampI (-127) 127 x
    (toBits 8 y, if x = y then 0 else flOut)
  else if fmt = 2 then (fp32.enc (ofInt a.v.toInt), 0)
  else
    let t := of64 a.t
    if fmt = 3 then (fp64.enc t, 0)
    else if fmt = 4 then
      let b := fp32.enc t
      (b, if t.isFin && (fp32.dec b).isInf then flOut else 0)
    else if fmt = 5 then
      let b := bf16.enc t
      (b, if t.isFin && (bf16.dec b).isInf then flOut else 0)
    else if fmt = 6 then let (b, c) := encE4M3 t; (b, if c then flOut else 0)
    else let (b, c) := encE5M2 t; (b, if c then flOut else 0)

/-- The value of a drained element: integers exactly, floats as values. -/
def outVal (fmt x : Nat) : FVal :=
  if fmt = 0 then ofInt (sgn 32 x) else if fmt = 1 then ofInt (sgn 8 x)
  else if fmt = 3 then fp64.dec x else if fmt = 5 then bf16.dec x
  else if fmt = 6 then decE4M3 x else if fmt = 7 then e5m2.dec x else fp32.dec x

/-! ## Row reductions (R193 to R197) -/

/-- One level of the pairwise tree of FP64 additions. -/
def treeLevel : List Quad → List Quad
  | a :: b :: r => add64 a b :: treeLevel r
  | l => l

/-- The tree over `2^n` leaves. -/
def treeSum : Nat → List Quad → Quad
  | 0, l => l.headD 0
  | n + 1, l => treeSum n (treeLevel l)

/-- A row's elements as 512 FP64 leaves, missing ones +0. -/
def leaves (l : List Quad) : List Quad := (l ++ List.replicate (512 - l.length) 0).take 512

/-- The largest of a row's values; none of an empty row. -/
def maxVal : List FVal → FVal
  | [] => .nan
  | [a] => a
  | a :: r => a.max (maxVal r)

/-- The 16 bytes of a row record entry: MAX, then SUM or EXPSUM. `fmt` is the output format; FP32 of an integer group
counts as a float output here (log 71). -/
def rowEntry (rowred fmt : Nat) (elems : List Nat) : List Byte :=
  let isInt := decide (fmt ≤ 1)
  let vals := elems.map (outVal fmt)
  let ints := elems.map fun x => if fmt = 0 then sgn 32 x else sgn 8 x
  let mx := maxVal vals
  let maxB := if isInt then toBits 64 (ints.foldl max (ints.headD 0)) else fp64.enc mx
  let sumB := if isInt then toBits 64 (ints.foldl (· + ·) 0)
    else (treeSum 9 (leaves (vals.map to64))).toNat
  let m32 := of32 (to32 mx)
  let expB := if mx.isNan then (to64 .nan).toNat
    else (treeSum 9 (leaves (vals.map fun v => to64 (of32 (vExp (of32 (to32 ((of32 (to32 v)).add m32.neg)))))))).toNat
  leBytes 8 (if rowred = 0 ∨ rowred = 2 then 0 else maxB) ++
  leBytes 8 (if rowred = 2 ∨ rowred = 3 then sumB else if rowred = 4 then expB else 0)

/-! ## What a closing counts (R192, R202) -/

/-- A group closes: its flags reach ARR_STATUS and the tile counters. -/
def countClose (fl : Nat) (s : State) : State :=
  let a := s.arr
  { s with arr := { a with
      status := a.status ||| BitVec.ofNat 7 (fl % 64)
      satTiles := a.satTiles + BitVec.ofNat 64 (b2n (bit fl 0))
      longTiles := a.longTiles + BitVec.ofNat 64 (b2n (bit fl 1))
      fpTiles := a.fpTiles + BitVec.ofNat 64 (b2n (bit fl 3 || bit fl 4))
      i8Tiles := satAdd a.i8Tiles (b2n (bit fl 2))
      outTiles := satAdd a.outTiles (b2n (bit fl 5)) } }

/-- A model evaluation's group closes through the comparator: EVAL_SAT and EVAL_LONGSUM too. -/
def countEval (fl : Nat) (s : State) : State :=
  let s := countClose fl s
  let s := if bit fl 0 then anlFlag 4 s else s
  if bit fl 1 then anlFlag 5 s else s

/-- Array steps are counted. -/
def addSteps (n : Nat) (s : State) : State :=
  { s with arr := { s.arr with steps := s.arr.steps + BitVec.ofNat 64 n } }

end Sys2Proof.Machine
end

