-- ==== Sys2Proof/Machine/Operands.lean ====
section
/-! DEFINITION. The operand forms of an engine instruction (R211 to R213, R225, R228, R231, R233): its words, scratchpad
operands and the ranges they name, vectors and their elements, external ranges. -/

namespace Sys2Proof.Machine

/-! ## The instruction's words (R211) -/

def insOf (bs : List Byte) : Ins := ⟨leAt bs 0 4, leAt bs 4 4, leAt bs 8 4, leAt bs 12 4⟩
def Ins.op (x : Ins) : Nat := x.w0 % 256
def Ins.group (x : Ins) : Nat := fld x.w0 10 8
def Ins.flag (x : Ins) : Bool := bit x.w0 11
/-- The field [hi:lo] of PARAM. -/
def Ins.par (x : Ins) (hi lo : Nat) : Nat := fld x.w0 (hi + 12) (lo + 12)

/-! ## Operand descriptors (R212) -/

/-- The NONE operand. -/
def noneOp : Nat := 0xC0000000
def dMode (d : Nat) : Nat := fld d 31 30
def dReg (d : Nat) : Nat := fld d 29 26
def dOff (d : Nat) : Nat := fld d 18 0
/-- Units of the scratchpad. -/
def spadUnits : Nat := 393216
/-- Words of the scratchpad, the limit of a window (R272). -/
def windowWords : Nat := 98304

/-- Register A[i]; A0 reads 0 (R215). -/
def aReg (e : Engine) (i : Nat) : Nat := if i = 0 then 0 else (Tab.get 0 e.areg i).toNat
/-- The engine with A[i] written; a write to A0 is ignored (R215). -/
def setA (i : Nat) (v : Nat) (e : Engine) : Engine :=
  if i = 0 then e else { e with areg := Tab.put 0 e.areg i (BitVec.ofNat 32 v) }

/-- Consecutive ranges of a circular window: `left` units from `pos` on (R271). -/
def wrapRanges (base size : Nat) : Nat → Nat → Nat → List (Nat × Nat)
  | 0, _, _ => []
  | fuel + 1, pos, left =>
    if left = 0 then [] else
    let k := min left (size - pos)
    (base + pos, k) :: wrapRanges base size fuel 0 (left - k)

/-- Does a descriptor name a window that no instruction may name (R272)? -/
def badWindow (e : Engine) (d : Nat) : Bool :=
  let sw := (Tab.get 0 e.winSizeNow (dReg d)).toNat
  dMode d == 2 && (sw == 0 || decide (windowWords < (Tab.get 0 e.winBaseNow (dReg d)).toNat + sw))

/-- The ranges (unit, count) that an operand of `units` units names; none is fault 0x10 (R212, R213, R242, R271, R272).
R212 bounds no sum: one past the scratchpad lies outside it. -/
def spanOf (e : Engine) (d units : Nat) (align : Bool) : Option (List (Nat × Nat)) :=
  if badWindow e d then none
  else if units = 0 then some []
  else if dMode d = 2 then
    let bw := (Tab.get 0 e.winBaseNow (dReg d)).toNat
    let sw := (Tab.get 0 e.winSizeNow (dReg d)).toNat
    if align ∧ dOff d % 4 ≠ 0 then none
    else some (wrapRanges (4 * bw) (4 * sw) (units / (4 * sw) + 2) (dOff d % (4 * sw)) units)
  else
    let a := if dMode d = 1 then aReg e (dReg d) + dOff d else dOff d
    if spadUnits < a + units ∨ (align ∧ a % 4 ≠ 0) then none else some [(a, units)]

/-- Do two unit ranges meet? -/
def rangesMeet (a n b m : Nat) : Bool := decide (a < b + m) && decide (b < a + n)

/-- Reads the bytes of ranges of engine `n`'s scratchpad. -/
def readSpan (n : Nat) : List (Nat × Nat) → State → Except Decision (List Byte) × State
  | [], s => (.ok [], s)
  | (u, k) :: rest, s =>
    match spadRead n (16 * u) (16 * k) s with
    | (.error d, s) => (.error d, s)
    | (.ok bs, s) =>
      match readSpan n rest s with
      | (.error d, s) => (.error d, s)
      | (.ok cs, s) => (.ok (bs ++ cs), s)

/-- Writes bytes into ranges, in order, through the engine's port or the cluster's (R273). -/
def writeSpanBy (net : Bool) (n : Nat) : List (Nat × Nat) → List Byte → State → State
  | [], _, s => s
  | (u, k) :: rest, bs, s => writeSpanBy net n rest (bs.drop (16 * k)) (portWrite net n (16 * u) (bs.take (16 * k)) s)

/-- A write of the engine itself. -/
def writeSpan (n : Nat) (ps : List (Nat × Nat)) (bs : List Byte) (s : State) : State := writeSpanBy false n ps bs s

/-! ## Vectors (R167, R213) -/

/-- Bits of an array operand's element. -/
def fmtBits (f : Nat) : Nat := if f = 1 then 1 else if f = 2 then 2 else if f = 5 then 16 else 8

/-- Units of a row vector (128 elements) and of a column vector (512). -/
def rowUnits (f : Nat) : Nat := fmtBits f
def colUnits (f : Nat) : Nat := 4 * fmtBits f

/-- Element `i` of a vector held as a little-endian number. -/
def elemOf (f v i : Nat) : Nat := v / 2 ^ (fmtBits f * i) % 2 ^ fmtBits f

/-- Consecutive vectors of `units` units each. -/
def vectors (units : Nat) : Nat → List Byte → List Nat
  | 0, _ => []
  | k + 1, bs => leNat (bs.take (16 * units)) :: vectors units k (bs.drop (16 * units))

/-! ## VOP elements (R228) -/

/-- Bytes of a VOP element; 0 for a format that VOP refuses. -/
def vopBytes (f : Nat) : Nat :=
  if f = 0 ∨ f = 3 ∨ f = 4 then 1 else if f = 5 then 2 else if f = 6 ∨ f = 7 then 4 else 0

/-- Units that `n` elements of `size` bytes touch. -/
def elemUnits (n size : Nat) : Nat := ceilDiv (n * size) 16

/-- Elements of `size` bytes. -/
def elems (size : Nat) : Nat → List Byte → List Nat
  | 0, _ => []
  | n + 1, bs => leNat (bs.take size) :: elems size n (bs.drop size)

/-- An input taken into FP32. -/
def vopIn (f x : Nat) : FVal :=
  if f = 0 then ofInt (opInt 0 x)
  else if f = 3 then decE4M3 x else if f = 4 then e5m2.dec x else if f = 5 then bf16.dec x
  else if f = 6 then fp32.dec x else of32 (to32 (ofInt (sgn 32 x)))

/-- A value converted to a float format of R167, or 6 for FP32 (R189). -/
def floatOut (f : Nat) (v : FVal) : Nat :=
  if f = 3 then (encE4M3 v).1 else if f = 4 then (encE5M2 v).1 else if f = 5 then bf16.enc v else fp32.enc v

/-- An FP32 result converted to a VOP output format. -/
def vopOut (f : Nat) (v : FVal) : Nat :=
  if f = 0 then toBits 8 (toIntClamp (-127) 127 v).1
  else if f = 7 then toBits 32 (toIntClamp (-2147483648) 2147483647 v).1
  else floatOut f v

/-! ## External ranges (R231, R233, R276) -/

/-- Units of a cluster's memory. -/
def clusterUnits : Nat := 524288

/-- An external address: in the engine's own cluster memory, or a device address. -/
inductive ExtAddr where
  | cluster (off : Nat)
  | device (a : Nat)
deriving DecidableEq, Repr

/-- The external address of a DMA. -/
def dmaAddr (e : Engine) (d : Nat) : ExtAddr :=
  if dMode d = 0 then .cluster (16 * dOff d)
  else .device (aReg e (dReg d + 1) * 2 ^ 32 + aReg e (dReg d) + 16 * dOff d)

/-- The unit of an ATOMF's cluster-memory operand. -/
def atomUnit (e : Engine) (d : Nat) : Nat :=
  if dMode d = 1 then aReg e (dReg d) + dOff d else dOff d

/-- The records of a DMA of `len` units: external byte offset and bytes of each (R231). -/
def dmaRuns (rec' gap len : Nat) : List (Nat × Nat) :=
  if gap = 0 then [(0, 16 * len)]
  else (List.range (ceilDiv len (2 ^ rec'))).map fun k =>
    (16 * 2 ^ (rec' + gap) * k, 16 * min (2 ^ rec') (len - 2 ^ rec' * k))

end Sys2Proof.Machine
end

