-- ==== Sys2Proof/Machine/Flags.lean ====
section
/-! DEFINITION. The words that show an accumulation group and its flags (R191, R203, R242). -/

namespace Sys2Proof.Machine

/-- An engine's group `g`. -/
def grp (e : Engine) (g : Nat) : Group := Tab.get Group.init e.groups g
def setGrp (g : Nat) (x : Group) (e : Engine) : Engine := { e with groups := Tab.put Group.init e.groups g x }

def Group.isOpen (g : Group) : Bool := g.st != .closed

/-- A product count as it is shown: saturating at 0xFFFF_FFFF. -/
def satK (k : Nat) : Nat := min k 0xFFFFFFFF

/-- The tile status word of a drain (R191). -/
def tileStatus (g : Nat) (x : Group) (outFmt flags : Nat) : List Byte :=
  leBytes 8 (satK x.k * 2 ^ 32 + outFmt * 2 ^ 12 + g * 2 ^ 8 + at' x.float 6 + flags % 64)

def GState.code : GState → Nat
  | .closed => 0
  | .resident => 1
  | .parked => 2
  | .parking => 3
  | .unparking => 4
  | .draining => 5
  | .starting => 6

def TState.code : TState → Nat
  | .empty => 0
  | .start => 1
  | .accum => 2
  | .held => 3
  | .drain => 4
  | .park => 5
  | .unpark => 6

def PState.code : PState → Nat
  | .idle => 0
  | .preload => 1
  | .run => 2
  | .waitHazard => 3
  | .waitBar => 4
  | .waitShare => 5
  | .waitRed => 6
  | .ended => 7

/-- ARR_E_GROUP_g (R204, R205). -/
def groupWord (x : Group) : Word :=
  BitVec.ofNat 32 (x.flags.toNat * 2 ^ 13 + x.slot % 8 * 2 ^ 10 + x.tile % 4 * 2 ^ 8 + at' x.float 4 + x.st.code)

/-- ARR_E_GROUP_K_g. -/
def groupKWord (x : Group) : Word := BitVec.ofNat 32 (satK x.k)

/-- ARR_E_STATUS (R203). -/
def engineStatusWord (e : Engine) : Word :=
  let open' := ofBits ((List.range 8).filter fun g => (grp e g).isOpen)
  let parked := ofBits ((List.range 8).filter fun g => (grp e g).st == .parked || (grp e g).st == .parking)
  BitVec.ofNat 32 (open' * 2 ^ 16 + parked * 2 ^ 8 + e.tile1.code * 2 ^ 4 + e.tile0.code)

/-- Does an instruction of this opcode wait for other engines? -/
def unitWaits (e : Engine) (op : Nat) : Bool := e.units.any fun u => u.begun && u.ins.w0 % 256 == op

/-- STATE: a running engine with a RED or a shared DMA that waits for other engines shows that wait (log 68). -/
def shownState (e : Engine) : PState :=
  if e.pst ≠ .run then e.pst else if unitWaits e 8 then .waitRed else if unitWaits e 0x18 then .waitShare else .run

/-- ARR_E_PC (R242). -/
def pcWord (e : Engine) : Word :=
  BitVec.ofNat 32 ((shownState e).code * 2 ^ 29 + e.progEngine % 64 * 2 ^ 14 + e.pc % 4096)

/-- ARR_E_FAULT and ARR_E_PFAULT of a fault (R203, R242). -/
def faultWord (group code : Nat) : Word := BitVec.ofNat 32 (group * 2 ^ 8 + code)
def pfaultWord (pc code : Nat) : Word := BitVec.ofNat 32 (pc * 2 ^ 12 + code)

end Sys2Proof.Machine
end

