-- ==== Sys2Proof/Machine/Failure.lean ====
section
/-! DEFINITION. How a command is stopped from outside its own work: kills (R329), engine failures and their spares
(R43). -/

namespace Sys2Proof.Machine

/-- A running command is killed: its engines stop at once and are zeroed before their next command (R329). -/
def killCmd (c : Cmd) (d : Decision) (s : State) : State :=
  complete c.key d (releaseEngines false true c.key (engineFate c d s))

/-- A command ends for a failure of its own work. A status that is fixed already stands (R338); a run that a PAUSE stopped
and that cannot reach its turn boundary has no save area and ends as R385 has it end. -/
def failCmd (c : Cmd) (d : Decision) (s : State) : State :=
  match c.decided, c.pause with
  | none, _ => complete c.key d s
  | some d0, none => settle [(c.key, d0)] s
  | some _, some p => complete c.key (mkDecision 9 2 p.seq.toNat) s

/-- Has the command committed? -/
def Cmd.committed (c : Cmd) : Bool := match c.decided with | some d => d.status == 0 | none => false

/-- The lowest usable unmapped physical engine of a cluster (R43). -/
def spareFor (s : State) (cluster : Nat) : Option Nat :=
  ((List.range 9).map (· + 9 * cluster)).find? fun p =>
    !decide (p ∈ s.emap.bad) && !decide (p ∈ s.emap.failed) && !(s.emap.phys.any fun m => m.2 == p + 1)

/-- The logical engine that a physical one serves. -/
def servedBy (s : State) (p : Nat) : Option Nat := (s.emap.phys.find? fun m => m.2 == p + 1).map Prod.fst

/-- A mapped physical engine fails (R43): its command ends with ENGINE_FAULT unless it has committed, and the cluster's
spare, if usable, takes its place. `cause` is the Blotter's. -/
def engineFail (p cause : Nat) (s : State) : State :=
  match servedBy s p with
  | none => { s with emap := { s.emap with failed := if p ∈ s.emap.failed then s.emap.failed else s.emap.failed ++ [p] } }
  | some n =>
    let s := logEvent 0x50 2 [n, p, cause] s
    let s := match (eng s n).cmd with
      | some k => (match findCmd s k with
        | some c => if c.committed then s else failCmd c (atEngine n (mkDecision 4 1 0)) s
        | none => s)
      | none => s
    let s := { s with emap := { s.emap with failed := s.emap.failed ++ [p], phys := Tab.put 0 s.emap.phys n 0 }
                      pwr := { s.pwr with dom := if Tab.get .off s.pwr.dom p = .failed then s.pwr.dom
                                                 else Tab.put .off s.pwr.dom p .off
                                          offReq := s.pwr.offReq.filter (· != p)
                                          wakeAfter := s.pwr.wakeAfter.filter (· != p) } }
    let s := updEng n (fun e => { e with kept := [], keepNext := [] }) s
    match spareFor s (p / 9) with
    | some q =>
      let s := zeroSpad q { s with emap := mapMasks { s.emap with phys := Tab.put 0 s.emap.phys n (q + 1) } }
      logEvent 0x51 2 [n, q] (detFlag 3 s)
    | none => s

end Sys2Proof.Machine
end

