-- ==== Sys2Proof/Machine/Fetch.lean ====
section
/-! DEFINITION. Doorbells, fetching and checking of submission entries, and the order of admission (08). -/

namespace Sys2Proof.Machine

/-! ## Doorbells (R295, R296, R300) -/

/-- A submission tail accepted or not (R295). -/
def sqDoorbell (q : Nat) (t : Word) (s : State) : State :=
  let x := que s q
  if diff32 t x.sqTail ≤ 0 then feDupDoorbell s
  else if 0 < diff32 t (x.sqHead + BitVec.ofNat 32 (2 ^ x.sqLog.toNat)) then
    queueError q 3 0xFF x.expSeq 0 [] s
  else icuSend (128 + x.cls.toNat) (updQue q (fun x => { x with sqTail := t }) s)

/-- A completion head accepted or not (R296). -/
def cqDoorbell (q : Nat) (h : Word) (s : State) : State :=
  let x := que s q
  if 0 < diff32 h x.cqHead ∧ diff32 h x.cqTail ≤ 0 then updQue q (fun x => { x with cqHead := h }) s
  else feDupDoorbell s

/-- Does a BAR0 doorbell reach the queue (R300, R342)? -/
def bar0Rings (s : State) (q : Nat) : Bool := (que s q).onPcie && (que s q).st == .active

/-! ## The opcode table (R303) -/

/-- Is the opcode in R303? -/
def knownOpcode (op : Nat) : Bool :=
  op ∈ [1, 2, 3, 4, 5, 6, 7, 0x10, 0x11, 0x12, 0x13, 0x14, 0x15, 0x18, 0x20, 0x21, 0x23]

/-- The bits of P0 that an opcode uses. -/
def maskP0 (op : Nat) : Nat :=
  if op ∈ [2, 3, 0x11, 0x12, 0x14, 0x23] then 0xFFFF
  else if op = 4 then 0x7FF else if op = 5 then 0x1FF else if op = 6 then 0xFFFFFFF else if op = 7 then 0x7F
  else if op = 0x10 then 1 else if op = 0x18 then 3 else if op = 0x21 then 0x0FFF003F else 0

def all64 : Nat := 0xFFFFFFFFFFFFFFFF

/-- The bits of P1. -/
def maskP1 (op : Nat) : Nat :=
  if op ∈ [1, 2, 0x10, 0x12, 0x13, 0x15, 0x18] then all64
  else if op ∈ [3, 0x14, 0x23] then 0xFFFFFFFF
  else if op = 4 ∨ op = 5 then 0x00001FFF00001FFF
  else if op = 6 ∨ op = 0x21 then 0x7FFFFFFFFFFFFFFF
  else if op = 7 then 0x07FFFFFFFFFFFFFF else 0

/-- The bits of P2; with ALLOC a MAP uses none. -/
def maskP2 (op p0 : Nat) : Nat :=
  if op ∈ [0x10, 0x12, 0x13, 0x14, 0x18] then all64
  else if op = 4 then (if bit p0 10 then 0 else all64)
  else if op = 7 then 0xFFFFFFFF else 0

/-- The bits of P3; a MODEL_LOAD uses it with BAND only. -/
def maskP3 (op p0 : Nat) : Nat :=
  if op = 0x13 then all64 else if op = 0x10 then (if bit p0 0 then all64 else 0)
  else if op = 0x18 then 0xFFFFFFFF else 0

/-- Is every bit outside the mask 0? -/
def within (x mask : Nat) : Bool := x - (x &&& mask) == 0

/-- Reserved fields and unused P fields are 0 and bit 63 of the fence values is clear (R302, R303, R308). -/
def fieldsOk (c : Cmd) : Bool :=
  let op := c.opcode
  within (leAt c.raw 0 4) 0xFFF && within c.p0 (maskP0 op) && within c.p1 (maskP1 op) &&
    within c.p2 (maskP2 op c.p0) && within c.p3 (maskP3 op c.p0) &&
    !bit c.waitValue 63 && !bit c.signalValue 63

/-- The first failing check of CHECKED, lowest detail first (R308, R562); ABORT and PAUSE must not wait (R337). -/
def checkDetail (s : State) (c : Cmd) : Option Nat :=
  let q := c.queue
  if !knownOpcode c.opcode then some 0x40
  else if !fieldsOk c then some 0x41
  else if c.opcode ≤ 7 ∧ (que s q).kind ≠ 0 then some 0x42
  else if (c.waitFence ≠ 0xFFFF ∧ !mayName s q c.waitFence) ∨ (c.signalFence ≠ 0xFFFF ∧ !mayName s q c.signalFence) then
    some 0x43
  else if c.opcode = 0x18 ∧ c.p0 % 4 ≠ 0 ∧ !(que s q).onPcie then some 0x44
  else if (c.opcode = 0x14 ∨ c.opcode = 0x23) ∧ c.waitFence ≠ 0xFFFF then some 0x4F
  else none

/-! ## Queue order (R314, R315) -/

/-- Does `a` go before `b`: lower class, then the earlier place, then the lower queue number (R315)? -/
def goesBefore (s : State) (a b : Cmd) : Bool :=
  let ka := ((que s a.queue).cls.toNat, a.order, a.queue)
  let kb := ((que s b.queue).cls.toNat, b.order, b.queue)
  decide (ka.1 < kb.1) || (ka.1 == kb.1 && (decide (ka.2.1 < kb.2.1) || (ka.2.1 == kb.2.1 && decide (ka.2.2 < kb.2.2))))

/-- The command that Quill takes next, if none is in ADMITTING. -/
def nextToAdmit (s : State) : Option Cmd :=
  if s.cmds.any (fun c => c.st == .admitting) then none
  else (s.cmds.filter fun c => freeToGo s c).foldl (fun best c =>
    match best with
    | none => some c
    | some b => if goesBefore s c b then some c else some b) none

/-! ## Fetching (R297, R301, R333) -/

/-- May Quill fetch from the queue: entries, a free completion slot (R297), at most 16 ahead (R319)? -/
def mayFetch (s : State) (q : Nat) : Bool :=
  let x := que s q
  let mine := s.cmds.filter fun c => c.queue == q
  x.st == .active && !x.stopped && x.sqHead != x.sqTail &&
    decide ((mine.filter fun c => c.st == .waiting).length < 16) &&
    decide (mine.length + (x.cqTail - x.cqHead).toNat < 2 ^ x.cqLog.toNat)

/-- A command as it is fetched. -/
def newCmd (q : Nat) (raw : List Byte) (prev : Option Word) : Cmd :=
  { key := ⟨BitVec.ofNat 16 q, BitVec.ofNat 32 (leAt raw 4 4)⟩, raw := raw, st := .waiting, prev := prev, order := 0
    timeout := 0, freePoint := 0, interval := 0, lsEntry := none, blocks := [], blockFail := none, engines := []
    anyEngines := 0, decided := none, pause := none, retryWaits := 0, work := .none }

/-- An accepted entry is checked: refused, cancelled by a fence's ERR (R322), or WAITING. -/
def takeCommand (q : Nat) (raw : List Byte) (s : State) : State :=
  let x := que s q
  let c := newCmd q raw x.lastSeq
  let s := updQue q (fun x => { x with sqHead := x.sqHead + 1, expSeq := x.expSeq + 1, lastSeq := some c.key.seq }) s
  let s := { s with cmds := s.cmds ++ [c] }
  match checkDetail s c with
  | some d => refuse c.key d s
  | none =>
    if c.waitFence ≠ 0xFFFF ∧ (fnc s c.waitFence).err then complete c.key (mkDecision 0x0A 1 0) s
    else noteFree s

/-- One entry is fetched and its SEQ compared (R301). -/
def fetchOne (q : Nat) (s : State) : State :=
  let x := que s q
  let a := x.sqAddr.toNat + 64 * (x.sqHead.toNat % 2 ^ x.sqLog.toNat)
  match ringRead q a 64 s with
  | (.error e, s) => queueError q 4 e.cause x.expSeq a [] s
  | (.ok raw, s) =>
    let d := diff32 (BitVec.ofNat 32 (leAt raw 4 4)) x.expSeq
    if d = 0 then takeCommand q raw s
    else if d < 0 then feDupCmd (updQue q (fun x => { x with sqHead := x.sqHead + 1 }) s)
    else queueError q 2 0xFF x.expSeq 0 [] s

/-! ## The admin queue (R350) -/

/-- A ring size field of FE_AQ_CTRL. -/
def aqLog (x : Nat) : Nat := if 4 ≤ x ∧ x ≤ 12 then x else 12

/-- Bits [30:0] of FE_AQ_CTRL that exist. -/
def aqMask : Nat := 0x40FF07FF

/-- ENABLE goes to 1: queue 0 starts afresh. -/
def aqStart (s : State) : State :=
  let c := s.fe.aqCtrl.toNat
  setQue 0 { Queue.init with
    st := .active, kind := 0, cls := 0, ctx := 0, port := 0, ats := bit c 30, msix := BitVec.ofNat 16 (fld c 10 0)
    sqAddr := s.fe.aqSq, cqAddr := s.fe.aqCq, sqLog := BitVec.ofNat 5 (aqLog (fld c 19 16))
    cqLog := BitVec.ofNat 5 (aqLog (fld c 23 20)), timeoutMs := BitVec.ofNat 32 s.fe.timeoutMs.toNat, drainMs := 10 } s

/-- A write of FE_AQ_CTRL with ENABLE = 1. -/
def aqEnable (v : Nat) (s : State) : State :=
  if s.fe.aqCtrl.getLsbD 31 then s
  else
    let busy := s.cmds.any fun c => c.queue == 0
    let s := { s with fe := { s.fe with aqCtrl := BitVec.ofNat 32 ((v &&& aqMask) + at' (!busy) 31) } }
    if busy then s else aqStart s

/-- A write of FE_AQ_CTRL with ENABLE = 0. -/
def aqDisable (v : Nat) (s : State) : State :=
  if s.fe.aqCtrl.getLsbD 31 then
    updQue 0 (fun x => { x with stopped := true })
      { s with fe := { s.fe with aqCtrl := s.fe.aqCtrl &&& 0x7FFFFFFF } }
  else { s with fe := { s.fe with aqCtrl := BitVec.ofNat 32 (v &&& aqMask) } }

end Sys2Proof.Machine
end

