-- ==== Sys2Proof/Machine/Models.lean ====
section
/-! DEFINITION. Models (02): the descriptor, admission in its order, load with its checks, and the report. -/

namespace Sys2Proof.Machine

/-! ## The descriptor (R82) -/

def descForm (d : List Byte) : Nat := fld (leAt d 4 4) 3 0
def descSrc (d : List Byte) : Nat := fld (leAt d 4 4) 7 4
def descPlacement (d : List Byte) : Nat := fld (leAt d 4 4) 9 8
def descDelta (d : List Byte) : Bool := bit (leAt d 4 4) 10
def descStrict (d : List Byte) : Bool := bit (leAt d 4 4) 11
def descSym (d : List Byte) : Bool := bit (leAt d 4 4) 12
def descExact (d : List Byte) : Bool := bit (leAt d 4 4) 13
def descLossy (d : List Byte) : Bool := bit (leAt d 4 4) 14
def descN (d : List Byte) : Nat := leAt d 8 4
def descColours (d : List Byte) : Nat := fld (leAt d 0xC 4) 8 0
def descReps (d : List Byte) : Nat := fld (leAt d 0x10 4) 13 0
def descHost (d : List Byte) : Bool := fld (leAt d 0x14 4) 1 0 == 0
def descNnz (d : List Byte) : Nat := leAt d 0x18 8
def descOffset (d : List Byte) : Nat := leAt d 0x20 8
def descCoup (d : List Byte) : Nat := leAt d 0x28 8
def descAux (d : List Byte) : Nat := leAt d 0x30 8
def descIdx (d : List Byte) : Nat := leAt d 0x38 8
def descBias (d : List Byte) : Nat := leAt d 0x40 8
def descColour (d : List Byte) : Nat := leAt d 0x48 8

/-- Is the form dense? -/
def denseForm (f : Nat) : Bool := f == 1 || f == 2

/-- Rows and columns of a band's alignment (R58, R160). -/
def formAlign (f : Nat) : Nat := if denseForm f then 512 else 128

/-- Is a code table or ROWPTR read from AUX (R82)? -/
def usesAux (d : List Byte) : Bool := descForm d == 3 || (descForm d == 1 && descSrc d == 0)

/-- Does the form leave AUX unused (R82)? DENSE_I8 uses it for the codes of an I8_EXP source; with a source code that R66
does not know it is not held to be unused: the model's choice (log 35). -/
def auxUnused (d : List Byte) : Bool := descForm d == 2 || (descForm d == 1 && (descSrc d == 1 || descSrc d == 2))

/-- Does the form leave INDEX unused (R82)? -/
def idxUnused (d : List Byte) : Bool := denseForm (descForm d)

/-- Check 2 of R84: the pairings of R66. -/
def pairingOk (d : List Byte) : Bool :=
  (descForm d, descSrc d) ∈ [(1, 0), (1, 1), (1, 2), (2, 2), (3, 0)]

/-- An address field that the form does not use holds 0 (R82). A FORM code without a form leaves no field unused. -/
def unusedZero (d : List Byte) : Bool := (!auxUnused d || descAux d == 0) && (!idxUnused d || descIdx d == 0)

/-- Check 1 of R84: the lowest detail among the fields' failures. Host addresses on a queue that is not bound to PCIe are
a refused source space: the model's choice, R82 naming no such case (log 62). -/
def descDetail (addr : Nat) (pcie : Bool) (d : List Byte) : Option Nat :=
  let resv := !within (leAt d 0 4) 0xFFFF || !within (leAt d 4 4) 0x7FFF || !within (leAt d 0xC 4) 0x1FF ||
    !within (leAt d 0x10 4) 0x3FFF || !within (leAt d 0x14 4) 3 || !allZero (slice 0x50 0x30 d)
  let mis := addr % 64 ≠ 0 || descCoup d % 64 ≠ 0 || descAux d % 64 ≠ 0 || descIdx d % 64 ≠ 0 ||
    descBias d % 64 ≠ 0 || descColour d % 64 ≠ 0 || !unusedZero d
  if leAt d 0 2 ≠ 1 then some 1
  else if descPlacement d = 3 then some 3
  else if resv then some 4
  else if descForm d = 3 ∧ descSym d then some 5
  else if mis then some 9
  else if 2 ≤ fld (leAt d 0x14 4) 1 0 ∨ (descHost d ∧ !pcie) then some 0xA
  else none

/-- Does |C| exceed 2^62 in an integer form (R63)? An infinite FP64 offset does; one that is no number is left to the
load (R68). -/
def offsetTooBig (d : List Byte) : Bool :=
  if descForm d = 2 then false
  else if descSrc d = 2 then
    match fp64.dec (descOffset d) with
    | .fin _ m e => !((FVal.fin false m e).le (.fin false 1 62))
    | .inf _ => true
    | .nan => false
  else decide ((sgn 64 (descOffset d)).natAbs > 2 ^ 62)

/-! ## Capacity (R76, R77) -/

/-- Bytes of a device's share: `form`, N, rows held, stored entries, replicas, stored fields, on-chip. -/
def modelBytes (form n rows nnz reps : Nat) (delta onchip : Bool) : Nat :=
  let state := 2 * (n / 8) + 64 + (if delta then 4 * n else 0)
  let base := 65536 + reps * state
  if onchip then base
  else if form = 1 then base + rows * n + ((rows / 512) * (n / 512) * 3 + 3) / 4 + 4 * rows
  else if form = 2 then base + 2 * rows * n + 4 * rows
  else base + 5 * nnz + 8 * (rows + 1) + 4 * rows

def toExtents (bytes : Nat) : Nat := ceilDiv bytes extBytes

/-- Does a dense model fit on-chip (R77 to R79)? -/
def onchipFits (form n rows : Nat) (band : Bool) : Bool :=
  if band then denseForm form && decide (rows * n * (if form = 2 then 2 else 1) ≤ 64 * 5308416)
  else if form = 1 then decide (n ≤ 18432) else if form = 2 then decide (n ≤ 12800) else false

/-- Is every logical engine served? -/
def allOnline (s : State) : Bool := offlineMask s == 0

/-- The placement admission chooses: on-chip or not, none when refused (R79). -/
def choosePlace (placement form n rows : Nat) (band online : Bool) : Option Bool :=
  let fits := onchipFits form n rows band && online
  if placement = 1 then some false
  else if placement = 2 then (if fits then some true else none)
  else some fits

/-- The detail of the first limit exceeded (R78); `entries` are the stored entries of the rows held. MAX_REPLICAS 0 and
N_COLOURS 0, below R82's ranges, are refused under their limits: the model's choice (log 62). -/
def limitDetail (s : State) (d : List Byte) (band : Bool) (rows entries : Nat) : Option Nat :=
  let n := descN d
  let dense := denseForm (descForm d)
  let nMax := if dense then (if band then 3145728 else 393216) else 67108864
  let rowMax := if dense then 393216 else 67108864
  if n > nMax ∨ (band ∧ rows > rowMax) then some 1
  else if !dense ∧ entries > 2 ^ 34 then some 2
  else if descReps d = 0 ∨ descReps d > 8192 then some 3
  else if descColours d = 0 ∨ descColours d > 256 then some 4
  else if 256 ≤ (s.models.filter fun m => m.2.st != MState.absent).length then some 5
  else if dense ∧ band ∧ (rows / 512) * (n / 512) > 589824 then some 6
  else none

/-! ## The colour table (R72, R73) -/

def colourTable (n : Nat) (t : List Byte) : List (Nat × Nat) :=
  (List.range n).map fun c => (leAt t (8 * c) 4, leAt t (8 * c + 4) 4)

/-- The end of each class. -/
def classEnds (n : Nat) : List (Nat × Nat) → List Nat
  | [] => []
  | [_] => [n]
  | _ :: (b, x) :: rest => b :: classEnds n ((b, x) :: rest)

def colourOk (n : Nat) (cs : List (Nat × Nat)) : Bool :=
  let ends := classEnds n cs
  (match cs with | (a, _) :: _ => a == 0 | [] => false) &&
  (cs.zip ends).all fun p =>
    p.1.1 % 128 == 0 && decide (p.1.1 < p.2) && decide (p.1.1 < n) && decide (1 ≤ p.1.2) &&
      decide (p.1.2 ≤ p.2 - p.1.1)

/-- The class of spin `i`: its number, START, end and ACTIVE. -/
def classOf (n : Nat) (cs : List (Nat × Nat)) (i : Nat) : Nat :=
  ((cs.zip (classEnds n cs)).takeWhile fun p => decide (p.2 ≤ i)).length

/-- Is spin `i` inert (R57)? -/
def inertAt (n : Nat) (cs : List (Nat × Nat)) (i : Nat) : Bool :=
  match cs[classOf n cs i]? with
  | some (st, act) => decide (st + act ≤ i)
  | none => true

/-! ## Reports (R90 to R92) -/

/-- An option entry (R91). A requirement wider than its field keeps the field's low bits, FITS being taken from all of
it: the model's choice (log 62). -/
def optionEntry (kind devices : Nat) (fits : Bool) (bytes : Nat) : List Byte :=
  leBytes 4 (devices * 2 ^ 16 + at' fits 4 + kind) ++ leBytes 4 (toExtents bytes) ++ leBytes 8 bytes

/-- The requirement of an option on one device's rows, for the placement admission would choose (R92). -/
def optionBytes (s : State) (d : List Byte) (form rows nnz : Nat) (band : Bool) : Nat :=
  let n := descN d
  let oc := (choosePlace (descPlacement d) form n rows band (allOnline s)).getD false
  modelBytes form n rows nnz (descReps d) (descDelta d) oc

/-- The SPLIT option: the smallest device count that fits, or 64 with DEVICES 0. -/
def splitOption (s : State) (d : List Byte) (avail : Nat) : List Byte :=
  let n := descN d
  let form := descForm d
  let al := formAlign form
  let need := fun D =>
    let rows := ceilDiv n (al * D) * al
    optionBytes s d form rows (ceilDiv (descNnz d * rows) (max n 1)) true
  match ((List.range 63).map (· + 2)).find? fun D => decide (toExtents (need D) ≤ avail) with
  | some D => optionEntry 3 D true (need D)
  | none => optionEntry 3 0 false (need 64)

/-- The option entries in their order, unused ones zero; those of a band are placed by the band's test (R78, R92). -/
def optionArea (s : State) (d : List Byte) (rows avail : Nat) (band : Bool) : List Byte :=
  let entry := fun kind form =>
    let b := optionBytes s d form rows (descNnz d) band
    optionEntry kind 1 (decide (toExtents b ≤ avail)) b
  let a := if descForm d = 2 ∧ descExact d then entry 1 1 else []
  let b := if denseForm (descForm d) ∧ descNnz d ≠ 0 ∧ (descForm d = 1 ∨ descExact d) then entry 2 3 else []
  slice 0 48 (a ++ b ++ splitOption s d avail)

/-- The report is written before the record; one that cannot be written gives ADDRESS_FAULT (R334). A verified model
whose report cannot be written stays READY all the same: the model's choice (log 63). -/
def reportAndComplete (c : Cmd) (rep : List Byte) (d : Decision) (s : State) : State :=
  let r := writeReport c rep (stampD s d) s
  settle [(c.key, r.1)] r.2

/-! ## Admission (R84, R561) -/

/-- A read from the model's source space. -/
def srcRead (c : Cmd) (host : Bool) (a len : Nat) (s : State) : Except AccErr (List Byte) × State :=
  let x := que s c.queue
  spaceRead host x.ats (cmdView s c) a len s

/-- What admission found: a refusal (status, detail, extents, bytes), a failed read, or a model with its needs. -/
inductive AdmitRes where
  | refused (status detail reqExt reqBytes : Nat)
  | failed (d : Decision)
  | admitted (onchip : Bool) (colours : List (Nat × Nat)) (reqExt reqBytes : Nat)

/-- Band fields of the command: BAND, ROW_FIRST, ROW_COUNT, the whole model without BAND. -/
def bandOf (c : Cmd) (n : Nat) : Bool × Nat × Nat :=
  if bit c.p0 0 then (true, c.p3 % 2 ^ 32, c.p3 / 2 ^ 32) else (false, 0, n)

/-- Checks 6 to 8 of R84. -/
def admitTail (c : Cmd) (d : List Byte) (band : Bool) (rows entries : Nat) (s : State) : AdmitRes × State :=
  let n := descN d
  match srcRead c (descHost d) (descColour d) (8 * descColours d) s with
  | (.error e, s) => (.failed e.dec, s)
  | (.ok t, s) =>
    let cs := colourTable (descColours d) t
    if !colourOk n cs then (.refused 2 7 0 0, s)
    else
      match choosePlace (descPlacement d) (descForm d) n rows band (allOnline s) with
      | none => (.refused 5 0 0 0, s)
      | some oc =>
        let b := modelBytes (descForm d) n rows entries (descReps d) (descDelta d) oc
        if (freeExtents s).length < toExtents b then (.refused 1 0 (toExtents b) b, s)
        else (.admitted oc cs (toExtents b) b, s)

/-- Checks 1 to 5 of R84. -/
def admitModel (c : Cmd) (d : List Byte) (s : State) : AdmitRes × State :=
  let n := descN d
  let (band, first, rows) := bandOf c n
  let al := formAlign (descForm d)
  match descDetail c.p1 (que s c.queue).onPcie d with
  | some k => (.refused 2 k 0 0, s)
  | none =>
    if !pairingOk d then (.refused 2 2 0 0, s)
    else if n % al ≠ 0 ∨ (band ∧ (first % al ≠ 0 ∨ rows % al ≠ 0 ∨ rows = 0 ∨ n < first + rows)) then
      (.refused 2 6 0 0, s)
    else if offsetTooBig d then (.refused 2 8 0 0, s)
    else if band ∧ descForm d = 3 then
      match srcRead c (descHost d) (descAux d + 8 * first) 8 s with
      | (.error e, s) => (.failed e.dec, s)
      | (.ok lo, s) =>
        match srcRead c (descHost d) (descAux d + 8 * (first + rows)) 8 s with
        | (.error e, s) => (.failed e.dec, s)
        | (.ok hi, s) =>
          if leNat hi < leNat lo then (.refused 2 0xC 0 0, s)
          else
            match limitDetail s d band rows (leNat hi - leNat lo) with
            | some k => (.refused 3 k 0 0, s)
            | none => admitTail c d band rows (leNat hi - leNat lo) s
    else
      match limitDetail s d band rows (descNnz d) with
      | some k => (.refused 3 k 0 0, s)
      | none => admitTail c d band rows (descNnz d) s

/-- The identifier of a new model (R85): the lowest unused one, the model's choice (log 62). -/
def freeModelId (s : State) : Nat := ((List.range 256).find? fun i => (mdl s i).st == .absent).getD 0

/-- Extents become a model's. -/
def ownExtents (es : List Nat) (s : State) : State :=
  es.foldl (fun st e => setExt e .owned st) s

/-- The model enters LOADING with its extents reserved (R85). -/
def reserveModel (c : Cmd) (d : List Byte) (oc : Bool) (cs : List (Nat × Nat)) (reqExt reqBytes : Nat) (s : State) :
    Nat × State :=
  let id := freeModelId s
  let es := (freeExtents s).take reqExt
  let (band, first, rows) := bandOf c (descN d)
  let avail := (freeExtents s).length
  let s := ownExtents es s
  (id, updMdl id (fun _ => { Model.init with
    st := .loading, ctx := (que s c.queue).ctx, desc := d, form := descForm d, n := descN d, band := band
    rowFirst := first, rowCount := rows, onchip := oc, nnz := descNnz d, colours := cs, exts := es
    reqExts := reqExt, reqBytes := reqBytes, avail := avail }) s)

/-- MODEL_LOAD in ADMITTING: refused with a report, or READY to be started (R84, R85, R316). -/
def modelLoad (c : Cmd) (s : State) : State :=
  let avail := (freeExtents s).length
  match c.blockFail with
  | some (_, e) => reportAndComplete c (refusalReport 2 0xB 0 0 avail noRow noRow []) e s
  | none =>
    let d := ((c.blocks.find? fun b => b.1 == 4).map (·.2)).getD []
    match admitModel c d s with
    | (.failed e, s) => reportAndComplete c (refusalReport 2 0xB 0 0 avail noRow noRow []) e s
    | (.refused st k re rb, s) =>
      let opts := if st = 1 ∨ (st = 3 ∧ k = 1 ∧ denseForm (descForm d)) then
        optionArea s d (bandOf c (descN d)).2.2 avail (bandOf c (descN d)).1 else []
      reportAndComplete c (refusalReport st k re rb avail noRow noRow opts)
        { mkDecision 2 st 0xFFFF with status := 2 } s
    | (.admitted oc cs re rb, s) =>
      let (id, s) := reserveModel c d oc cs re rb s
      readyOrder c.key
        (updCmd c.key (fun c => { c with st := .ready, work := .load id, engines := if oc then List.range 64 else [] }) s)

/-! ## Load (R86): one source coupling -/

/-- A source value: unreadable; not finite; a finite one that DENSE_I8 cannot hold because it is no integer, with its bits;
or a number with the bits a float form stores. -/
inductive SrcVal where
  | unread
  | nonfinite
  | inexact (raw : Nat)
  | val (z : Int) (raw : Nat)
deriving DecidableEq, Repr

/-- Bytes of one source coupling. -/
def srcSize (src : Nat) : Nat := if src = 0 then 1 else 2

/-- An FP value as an exact integer, if it is one. -/
def asInt : FVal → Option Int
  | .fin s m e =>
    if 0 ≤ e then some (sm s m * (2 ^ e.toNat : Nat))
    else if m % 2 ^ (-e).toNat = 0 then some (sm s (m / 2 ^ (-e).toNat)) else none
  | _ => none

/-- The value of raw source bits (R66, R68). A stored float is compared by its bits, zeros being equal. -/
def srcValue (form src x : Nat) : SrcVal :=
  if src = 0 then .val (sgn 8 x) x
  else if src = 1 then .val (sgn 16 x) x
  else
    match bf16.dec x with
    | .fin s m e =>
      if form = 2 then .val (if m = 0 then 0 else x) x
      else match asInt (.fin s m e) with
        | some z => .val z x
        | none => .inexact x
    | _ => .nonfinite

/-- A row's source values, element by element where the row as a whole cannot be read. -/
def srcElems (c : Cmd) (host : Bool) (size : Nat) : Nat → Nat → State → List (Option Nat) × State
  | 0, _, s => ([], s)
  | k + 1, a, s =>
    let r := srcRead c host a size s
    let x := match r.1 with | .ok b => some (leNat b) | .error _ => none
    let t := srcElems c host size k (a + size) r.2
    (x :: t.1, t.2)

def srcRow (c : Cmd) (host : Bool) (a size n : Nat) (s : State) : List (Option Nat) × State :=
  match srcRead c host a (n * size) s with
  | (.ok b, s) => ((List.range n).map fun j => some (leAt b (j * size) size), s)
  | (.error _, _) => srcElems c host size n a s

/-- `k` rows from row `i` on, row by row. -/
def srcRows (c : Cmd) (host : Bool) (base size n : Nat) : Nat → Nat → State → List (List (Option Nat)) × State
  | 0, _, s => ([], s)
  | k + 1, i, s =>
    let r := srcRow c host (base + i * n * size) size n s
    let t := srcRows c host base size n k (i + 1) r.2
    (r.1 :: t.1, t.2)

/-- What two reads of the same elements give: an element that either read missed is missing. -/
def bothReads (a b : List (List (Option Nat))) : List (List (Option Nat)) :=
  List.zipWith (List.zipWith fun x y => if x.isNone then none else y) a b

/-- The source in `k` bands of 512 rows from row `i` on; a conversion reads each band twice, to choose the codes and to
quantise (R70). -/
def srcBands (c : Cmd) (host twice : Bool) (base size n : Nat) : Nat → Nat → State → List (List (Option Nat)) × State
  | 0, _, s => ([], s)
  | k + 1, i, s =>
    let r := srcRows c host base size n 512 i s
    let r := if twice then
        (let r2 := srcRows c host base size n 512 i r.2
         (bothReads r.1 r2.1, r2.2)) else r
    let t := srcBands c host twice base size n k (i + 512) r.2
    (r.1 ++ t.1, t.2)

/-! ## Block codes (R67) -/

/-- The largest k ≤ 62 that divides every value. -/
def commonShift (zs : List Int) : Nat :=
  ((List.range 63).filter fun k => zs.all fun z => z % (2 ^ k : Nat) == 0).foldl max 0

/-- A block's code, and whether rounding was needed (R67). -/
def blockCode (lossy : Bool) (zs : List Int) : Nat × Bool :=
  if zs.all (· == 0) then (63, false)
  else
    let k := commonShift zs
    if zs.all fun z => decide ((z / (2 ^ k : Nat)).natAbs ≤ 127) then (k, false)
    else if lossy then
      match (List.range 63).find? fun k => zs.all fun z => decide ((rneDiv z (2 ^ k)).natAbs ≤ 127) with
      | some k => (k, true)
      | none => (62, true)
    else (k, false)

/-! ## Dense rows -/

/-- A dense row after R55: the diagonal is zero, one that could not be read included: the model's choice, as is that a
sparse diagonal entry that could not be read fails the load (log 61). -/
def dropDiag (i : Nat) (row : List SrcVal) : List SrcVal := row.set i (.val 0 0)

/-- The numbers of a list of source values. -/
def valsOf (l : List SrcVal) : List Int := l.filterMap fun v => match v with | .val z _ => some z | _ => none

/-- The stored byte and its value for a code (R59, R67). -/
def storedI8 (src code : Nat) (z : Int) : Int := if src = 0 then z else if code = 63 then 0 else rneDiv z (2 ^ code)

/-- J of a stored int8 under a code (R59). -/
def jOf (code : Nat) (q : Int) : Int := if code = 63 then 0 else q * (2 ^ code : Nat)

/-- What one coupling breaks: the lowest detail (R86). `asym`: SYM_CHECK finds the mirrored coupling to differ. A coupling
of a block whose supplied code cannot be read is one whose bytes could not be read: the model's choice (log 61). -/
def cellDetail (form src : Nat) (inert sameClass strict : Bool) (code : Option Nat) (v : SrcVal) (j : Int)
    (asym : Bool) : Option Nat :=
  match v with
  | .unread => some 0xC
  | .nonfinite => some 0xB
  | .inexact _ => some (if inert then 2 else if asym then 8 else if strict && sameClass then 9 else 0xA)
  | .val z _ =>
    if code.isNone ∧ form = 1 then some 0xC
    else if inert ∧ z ≠ 0 then some 2
    else if form = 1 ∧ src = 0 ∧ code = some 63 ∧ z ≠ 0 then some 3
    else if asym then some 8
    else if strict ∧ sameClass ∧ j ≠ 0 then some 9
    else if form = 1 ∧ src ≠ 0 ∧ 127 < (storedI8 src (code.getD 0) z).natAbs then some 0xA
    else none

/-- The magnitude of a finite value, rounded up to an integer. -/
def ceilAbs : FVal → Nat
  | .fin _ m e => if 0 ≤ e then m * 2 ^ e.toNat else ceilDiv m (2 ^ (-e).toNat)
  | _ => 0

/-- A row's bias: the bits stored, its magnitude for the row bound (rounded up where it is no integer), and the details
that it breaks by itself (R57, R68). -/
structure BiasVal where
  bits : Nat
  mag : Nat
  bad : List Nat

/-- The bias of a row (R57, R68). One of a BF16 source that is not finite fails the load in DENSE_BF16 too: the model's
choice, R68 naming BF16 values only (log 61). -/
def biasVal (form src : Nat) (inert : Bool) (x : Option Nat) : BiasVal :=
  match x with
  | none => ⟨0, 0, [0xC]⟩
  | some x =>
    if src ≠ 2 then ⟨x, (sgn 32 x).natAbs, if inert ∧ x ≠ 0 then [2] else []⟩
    else
      let v := fp32.dec x
      let hot := if inert && !v.isZero then [2] else []
      if !v.isFin then ⟨0, 0, [0xB]⟩
      else if form = 2 then ⟨x, 0, hot⟩
      else match asInt v with
        | some z => ⟨toBits 32 z, z.natAbs, hot ++ if -(2 ^ 31 : Int) ≤ z ∧ z < 2 ^ 31 then [] else [0xA]⟩
        | none => ⟨0, ceilAbs v, hot ++ [0xA]⟩

/-- The row's last checks, its bound among them (R62, R86 step 3): unreadable first, then not finite, then the lowest. -/
def rowTail (form : Nat) (b : BiasVal) (sumJ : Nat) : Option Nat :=
  if 0xC ∈ b.bad then some 0xC
  else if 0xB ∈ b.bad then some 0xB
  else if form ≠ 2 ∧ 0x7FFFFFFF < b.mag + sumJ then some 1
  else b.bad.min?

/-- A load's outcome: a failure (detail, row, column), or the stored model with the report's figures. -/
inductive LoadRes where
  | fail (detail row col : Nat)
  | ok (m : Model) (diag round bound : Nat)

/-- The first element of a list with an answer, with its position. -/
def firstAt {α : Type} : Nat → List (Option α) → Option (α × Nat)
  | _, [] => none
  | j, some a :: _ => some (a, j)
  | j, none :: r => firstAt (j + 1) r

/-- Entries (key, value) with keys from `k` on, zeros left out: a canonical table. -/
def mkTab {α : Type} [DecidableEq α] (d : α) : Nat → List α → Tab α
  | _, [] => []
  | k, v :: vs => if v = d then mkTab d (k + 1) vs else (k, v) :: mkTab d (k + 1) vs

/-- Unordered pairs within a class in ascending order, without repeats (R123). -/
def sortPairs (l : List (Nat × Nat)) : List (Nat × Nat) :=
  ((l.map fun p => (min p.1 p.2, max p.1 p.2)).mergeSort
    (fun a b => decide (a.1 < b.1) || (a.1 == b.1 && decide (a.2 ≤ b.2)))).eraseReps

/-- Everything stored of the pairs within classes: the first 7,680 and whether there were more. -/
def withPairs (m : Model) (l : List (Nat × Nat)) : Model :=
  let ps := sortPairs l
  { m with pairs := ps.take 7680, trunc := decide (7680 < ps.length), conflictPairs := BitVec.ofNat 64 l.length }

/-- The offset as the form stores it, or its failure (R68). An FP64 offset of DENSE_BF16 that is not finite fails the load:
the model's choice, R68 naming BF16 values only (log 61). -/
def loadOffset (d : List Byte) : Except Nat (List Byte) :=
  if descForm d = 1 ∧ descSrc d = 2 then
    match fp64.dec (descOffset d) with
    | .fin s m e =>
      match asInt (.fin s m e) with
      | some z => .ok (patchAt d 0x20 (leBytes 8 (toBits 64 z)))
      | none => .error 0xA
    | _ => .error 0xB
  else if descForm d = 2 ∧ !(fp64.dec (descOffset d)).isFin then .error 0xB
  else .ok d

/-- What SYM_CHECK compares of a coupling: the value that is stored, or the bits of one that has no integer. One that
cannot be read or is not finite compares as 0: the model's choice (log 61). -/
def symValue (v : SrcVal) (j : Int) : Int × Nat :=
  match v with
  | .val _ _ => (j, 0)
  | .inexact raw => (0, raw)
  | _ => (0, 0)

/-- The load of a dense model from the rows read. `codes`: the supplied table of an I8_EXP source, by block. -/
def loadDense (m : Model) (rows : List (List SrcVal)) (codes : List (Option Nat)) (biases : List (Option Nat)) :
    LoadRes :=
  let d := m.desc
  let form := descForm d
  let src := descSrc d
  let nb := m.n / 512
  let rows' := (List.range rows.length).map fun r => dropDiag (m.rowFirst + r) (rows.getD r [])
  let diag := ((List.range rows.length).filter fun r =>
    match (rows.getD r []).getD (m.rowFirst + r) .unread with
    | .val z _ => z != 0 | .nonfinite | .inexact _ => true | .unread => false).length
  let auto := (List.range (m.rowCount / 512)).flatMap fun p => (List.range nb).map fun q =>
    blockCode (descLossy d && src == 1) (((List.range 512).map fun r =>
      valsOf (((rows'.getD (512 * p + r) []).drop (512 * q)).take 512)).flatten)
  let code := fun r j => if form = 2 then some 0
    else if src = 0 then codes.getD ((m.rowFirst + r) / 512 * nb + j / 512) none
    else some (auto.getD (r / 512 * nb + j / 512) (0, false)).1
  let stored := fun r j => match (rows'.getD r []).getD j .unread with
    | .val z _ => if form = 2 then z else storedI8 src ((code r j).getD 0) z
    | _ => 0
  let jv := fun r j => if form = 2 then stored r j else jOf ((code r j).getD 63) (stored r j)
  let symv := fun r j => symValue ((rows'.getD r []).getD j .unread) (jv r j)
  let cells := fun r => (List.range m.n).map fun j =>
    let i := m.rowFirst + r
    if i = j then none else
    let inBand := decide (m.rowFirst ≤ j ∧ j < m.rowFirst + m.rowCount)
    cellDetail form src (inertAt m.n m.colours i || inertAt m.n m.colours j)
      (classOf m.n m.colours i == classOf m.n m.colours j) (descStrict d) (code r j)
      ((rows'.getD r []).getD j .unread) (jv r j)
      (descSym d && inBand && symv (j - m.rowFirst) i != symv r j)
  let sumJ := fun r => ((List.range m.n).map fun j => (jv r j).natAbs).sum
  let bias := fun r => biasVal form src (inertAt m.n m.colours (m.rowFirst + r)) (biases.getD r none)
  let rowFail := fun r => match firstAt 0 (cells r) with
    | some (k, j) => some (k, j)
    | none => (rowTail form (bias r) (if form = 2 then 0 else sumJ r)).map fun k => (k, noRow)
  match firstAt 0 ((List.range m.rowCount).map rowFail) with
  | some ((k, col), r) => .fail k (m.rowFirst + r) col
  | none =>
    let conf := (List.range m.rowCount).flatMap fun r => (List.range m.n).filterMap fun j =>
      if jv r j ≠ 0 ∧ classOf m.n m.colours (m.rowFirst + r) = classOf m.n m.colours j then
        some (m.rowFirst + r, j) else none
    let round := auto.filterMap fun c => if c.2 && src == 1 && form == 1 then some c.1 else none
    let bits := fun r => (List.range m.n).map fun j => match (rows'.getD r []).getD j .unread with
      | .val z raw => if form = 2 then BitVec.ofNat 16 raw
        else BitVec.ofNat 16 (toBits 8 (storedI8 src ((code r j).getD 0) z))
      | _ => 0
    let m := withPairs { m with
      coup := mkTab 0 0 ((List.range m.rowCount).flatMap bits)
      codes := if form = 1 then mkTab 0 0 ((List.range (m.rowCount / 512)).flatMap fun p =>
        (List.range nb).map fun q => (code (512 * p) (512 * q)).getD 0) else []
      bias := mkTab 0 0 ((List.range m.rowCount).map fun r => BitVec.ofNat 32 (bias r).bits) } conf
    let bound := if form = 2 then 0 else ((List.range m.rowCount).map fun r => (bias r).mag + sumJ r).foldl max 0
    .ok m diag (at' (!round.isEmpty) 6 + round.foldl max 0) bound

/-! ## Sparse rows (R64, R65) -/

/-- What one stored entry breaks, and its column; `prev` is the column before it plus one. An entry whose column is none
of the model's is no coupling of an inert row, and one whose index word cannot be read has no column to report: the
model's choices (log 61). -/
def entryDetail (m : Model) (i prev : Nat) (w : Option Nat) (x : Option Nat) : Option (Nat × Nat) :=
  match x with
  | none => some (0xC, noRow)
  | some x =>
    let col := fld x 25 0
    match w with
    | none => some (0xC, col)
    | some w =>
      let nz := w ≠ 0 ∧ col ≠ i
      if nz ∧ col < m.n ∧ (inertAt m.n m.colours i ∨ inertAt m.n m.colours col) then some (2, col)
      else if fld x 31 26 = 63 ∧ col ≠ i then some (4, col)
      else if m.n ≤ col then some (5, col)
      else if col < prev then some (6, col)
      else if descStrict m.desc ∧ nz ∧ classOf m.n m.colours i = classOf m.n m.colours col then some (9, col)
      else none

/-- The first failing entry of a row, in the order in which the row stores them, also where its columns fall: the model's
choice (log 61). -/
def entriesFail (m : Model) (i : Nat) : Nat → List (Option Nat × Option Nat) → Option (Nat × Nat)
  | _, [] => none
  | prev, (w, x) :: r =>
    match entryDetail m i prev w x with
    | some f => some f
    | none => entriesFail m i (match x with | some x => fld x 25 0 + 1 | none => prev) r

/-- J of a sparse entry off its diagonal. -/
def sparseJ (i w x : Nat) : Int :=
  if fld x 25 0 = i then 0 else sgn 8 w * (2 ^ fld x 31 26 : Nat)

/-- The ROWPTR failures of a row (R65); `ptr` are the pointers from ROW_FIRST on. A pointer that cannot be read fails the
row with 0x0C and no column: the model's choice (log 61). -/
def rowptrFail (m : Model) (ptr : List (Option Nat)) (r : Nat) : Option Nat :=
  let endPtr := if m.band then ptr.getD m.rowCount none else some m.nnz
  match ptr.getD r none, ptr.getD (r + 1) none with
  | some a, some b =>
    if m.rowFirst + r = 0 ∧ a ≠ 0 then some 7
    else if m.rowFirst + r + 1 = m.n ∧ b ≠ m.nnz then some 7
    else if b < a ∨ endPtr.getD b < b then some 7 else none
  | _, _ => some 0xC

/-- A sparse row as it was read: its number, its entries (weight, index word) and its bias. -/
structure SparseRow where
  row : Nat
  ents : List (Nat × Nat)
  bias : BiasVal

/-- The sum of the magnitudes of a row's couplings. -/
def SparseRow.sumJ (x : SparseRow) : Nat := (x.ents.map fun p => (sparseJ x.row p.1 p.2).natAbs).sum

/-- Rows read and checked in ascending order, up to the first failure (R86): a row's pointers before its entries are
read, its entries before its bias. `ptr` are the pointers from ROW_FIRST on, `k` rows remain from row `r` of the band. -/
def sparseRows (c : Cmd) (host : Bool) (m : Model) (ptr : List (Option Nat)) : Nat → Nat → State →
    Except (Nat × Nat × Nat) (List SparseRow) × State
  | 0, _, s => (.ok [], s)
  | k + 1, r, s =>
    let i := m.rowFirst + r
    match rowptrFail m ptr r with
    | some d => (.error (d, i, noRow), s)
    | none =>
      let a := (ptr.getD r none).getD 0
      let cnt := (ptr.getD (r + 1) none).getD 0 - a
      let w := srcRow c host (descCoup m.desc + a) 1 cnt s
      let x := srcRow c host (descIdx m.desc + 4 * a) 4 cnt w.2
      match entriesFail m i 0 (w.1.zip x.1) with
      | some (d, col) => (.error (d, i, col), x.2)
      | none =>
        let b := srcElems c host 4 1 (descBias m.desc + 4 * i) x.2
        let y : SparseRow := ⟨i, (w.1.zip x.1).filterMap fun p => match p with
          | (some w, some x) => some (w, x) | _ => none, biasVal 3 0 (inertAt m.n m.colours i) (b.1.getD 0 none)⟩
        match rowTail 3 y.bias y.sumJ with
        | some d => (.error (d, i, noRow), b.2)
        | none =>
          match sparseRows c host m ptr k (r + 1) b.2 with
          | (.ok ys, s) => (.ok (y :: ys), s)
          | (.error e, s) => (.error e, s)

/-- The load of a sparse model from its rows and its pointers. -/
def loadSparse (m : Model) (ptr : List (Option Nat)) (rows : List SparseRow) : LoadRes :=
  let base := (ptr.getD 0 none).getD 0
  let flat := rows.flatMap fun p => p.ents.map fun e => (p.row, e)
  let diag := (flat.filter fun e => fld e.2.2 25 0 == e.1 && e.2.1 != 0).length
  let conf := flat.filterMap fun e =>
    if e.2.1 ≠ 0 ∧ fld e.2.2 25 0 ≠ e.1 ∧ classOf m.n m.colours e.1 = classOf m.n m.colours (fld e.2.2 25 0) then
      some (e.1, fld e.2.2 25 0) else none
  let m := withPairs { m with
    nnz := flat.length
    rowptr := (ptr.take (m.rowCount + 1)).map fun p => p.getD 0 - base
    wts := mkTab 0 0 (flat.map fun e => if fld e.2.2 25 0 = e.1 then 0 else BitVec.ofNat 8 e.2.1)
    idx := mkTab 0 0 (flat.map fun e => BitVec.ofNat 32 e.2.2)
    bias := mkTab 0 0 (rows.map fun y => BitVec.ofNat 32 y.bias.bits) } conf
  let bound := (rows.map fun y => y.bias.mag + y.sumJ).foldl max 0
  .ok m diag 0 bound

/-! ## MODEL_DIGEST (R362) -/

/-- Codes packed at 6 bits a block (R61). -/
def packCodes (codes : List Nat) : List Byte :=
  leBytes (ceilDiv (codes.length * 3) 4) ((List.range codes.length).foldl (fun a i => a + codes.getD i 0 * 64 ^ i) 0)

/-- The code of block `b` of a packed table. -/
def codeAt (t : List Byte) (b : Nat) : Nat := leAt t (6 * b / 8) 2 / 2 ^ (6 * b % 8) % 64

/-- The 128-byte canonical descriptor. -/
def canonDesc (m : Model) : List Byte :=
  let d := m.desc
  leBytes 4 (leAt d 0 2) ++ leBytes 4 (descForm d) ++ leBytes 4 (descN d) ++ leBytes 4 (descColours d) ++
  List.replicate 8 0 ++ leBytes 8 (if descForm d = 3 then descNnz d else 0) ++ leBytes 8 (descOffset d) ++
  List.replicate 0x28 0 ++
  (if m.band then leBytes 4 m.rowFirst ++ leBytes 4 m.rowCount else List.replicate 8 0) ++ List.replicate 0x28 0

/-- The bytes that MODEL_DIGEST covers. -/
def modelDigestBytes (m : Model) : List Byte :=
  let cells := Tab.getList 0 m.coup 0 (m.rowCount * m.n)
  canonDesc m ++ (m.colours.map fun c => leBytes 4 c.1 ++ leBytes 4 c.2).flatten ++
  ((Tab.getList 0 m.bias 0 m.rowCount).map fun b => leBytes 4 b.toNat).flatten ++
  (if m.form = 1 then packCodes (Tab.getList 0 m.codes 0 (m.rowCount / 512 * (m.n / 512))) ++
      (cells.map fun x => leBytes 1 x.toNat).flatten
   else if m.form = 2 then (cells.map fun x => leBytes 2 x.toNat).flatten
   else (m.rowptr.map (leBytes 8)).flatten ++ Tab.getList 0 m.wts 0 m.nnz ++
      ((Tab.getList 0 m.idx 0 m.nnz).map fun x => leBytes 4 x.toNat).flatten)

/-! ## The end of a load -/

/-- The lines of a model's extents whose reading needs more than their bytes: every turn and boundary reads them
(log 8). -/
def modelLines (s : State) (m : Model) : List Nat :=
  let mine := fun l => m.exts.any fun e => spareOf s e == l * 64 / extBytes
  if s.mem.locked then (m.exts.map fun e => spareOf s e * (extBytes / 64)).take 1
  else ((s.mem.poison ++ (s.mem.symErr.filter fun p => p.1 < 2 ^ 40).map Prod.fst).filter mine).mergeSort (fun a b => decide (a ≤ b))

/-- The model is read, from Carafe and, on-chip, from the scratchpads and the cluster memories: the failure of the first
part that is not delivered (R260, R275). -/
def modelRead (m : Model) (s : State) : Option Decision × State :=
  match readLines 0 (modelLines s m) s with
  | (some l, s) => (some (lineError s l), s)
  | (none, s) =>
    if m.onchip then
      match onchipSpads (List.range 64) s with
      | (some d, s) => (some d, s)
      | (none, s) => onchipClusters (List.range 8) s
    else (none, s)

/-- SYM_CHECK reads the stored couplings once more (R70). Which coupling a line holds is open, so a stored coupling that
cannot be read is any of the band's (log 61). -/
def symRead (m : Model) (res : LoadRes) (s : State) : LoadRes × State :=
  if descSym m.desc then
    match modelRead m s, res with
    | (some _, s), .ok _ _ _ _ =>
      let (r, s) := freshBelow (max m.rowCount 1) s
      let (c, s) := freshBelow (max m.n 1) s
      (.fail 0xC (m.rowFirst + r) c, s)
    | (_, s), _ => (res, s)
  else (res, s)

/-- The source is read and the load's checks are made. -/
def loadModel (c : Cmd) (m : Model) (s : State) : LoadRes × State :=
  match loadOffset m.desc with
  | .error k => (.fail k noRow noRow, s)
  | .ok d =>
    let m := { m with desc := d }
    let h := descHost d
    if m.form = 3 then
      let p := srcElems c h 8 (m.rowCount + 1) (descAux d + 8 * m.rowFirst) s
      match sparseRows c h m p.1 m.rowCount 0 p.2 with
      | (.error f, s) => (.fail f.1 f.2.1 f.2.2, s)
      | (.ok rows, s) => (loadSparse m p.1 rows, s)
    else
      let src := descSrc d
      let rows := srcBands c h (src != 0 && m.form == 1) (descCoup d) (srcSize src) m.n (m.rowCount / 512) m.rowFirst s
      let vals := rows.1.map fun row => row.map fun x => match x with
        | some x => srcValue m.form src x | none => .unread
      let nb := m.n / 512
      let ct := if usesAux d then srcRow c h (descAux d) 1 (ceilDiv (nb * nb * 3) 4) rows.2 else ([], rows.2)
      let tab := ct.1.map fun x => BitVec.ofNat 8 (x.getD 0)
      let codes := (List.range (if usesAux d then nb * nb else 0)).map fun b =>
        if ((ct.1.drop (6 * b / 8)).take ((6 * b % 8 + 13) / 8)).all Option.isSome then some (codeAt tab b) else none
      let b := srcRow c h (descBias d + 4 * m.rowFirst) 4 m.rowCount ct.2
      symRead m (loadDense m vals codes b.1) b.2

/-- A load ends with LOAD_FAILED (R86, R89): extents and identifier released, the report written. -/
def loadFails (c : Cmd) (id detail row col : Nat) (d : Decision) (s : State) : State :=
  let m := mdl s id
  let s := dropModel id s
  reportAndComplete c (refusalReport 4 detail m.reqExts m.reqBytes m.avail row col []) d s

/-- Load verification ends (R86, R339). -/
def loadEnds (c : Cmd) (id : Nat) (s : State) : State :=
  match loadModel c (mdl s id) s with
  | (.fail k row col, s) => loadFails c id k row col (mkDecision 2 4 0xFFFF) s
  | (.ok m diag round bound, s) =>
    let dig := chunkedDigest (modelDigestBytes m)
    let m := { m with st := .ready, digest := BitVec.ofNat 256 (leNat dig) }
    let s := updMdl id (fun _ => m) s
    let rep := reportBytes id 0 0 m.reqExts m.reqBytes m.avail noRow noRow bound [] m.conflictPairs.toNat diag round dig
    reportAndComplete c rep (mkDecision 0 0 id) s

/-- A run's or unload's view of a model (R313): the model, or the refusal's detail. -/
def modelFor (s : State) (q id : Nat) : Option Model :=
  let m := mdl s id
  if id < 256 ∧ m.st ≠ .absent ∧ ((que s q).ctx0 ∨ m.ctx = (que s q).ctx) then some m else none

end Sys2Proof.Machine
end

