-- ==== Sys2Proof/Machine/Anneal.lean ====
section
/-! DEFINITION. The arithmetic of annealing (03): fields by FULL and DELTA evaluation, decisions, flips, flip lists,
energies, temperatures and the checks of the sweep block. -/

namespace Sys2Proof.Machine

/-! ## Couplings of a row -/

/-- A stored coupling that gives a product: column, byte or BF16 bits, code. -/
structure Cpl where
  j : Nat
  b : Nat
  k : Nat
deriving DecidableEq, Repr

/-- The couplings of held row `i` in ascending column; a block of code 63 gives none (R60). -/
def modelRow (m : Model) (i : Nat) : List Cpl :=
  let r := i - m.rowFirst
  if m.form = 3 then
    let a := m.rowptr.getD r 0
    let n := m.rowptr.getD (r + 1) 0 - a
    ((Tab.window 0 m.wts a n).zip (Tab.window 0 m.idx a n)).map fun p =>
      { j := fld p.2.toNat 25 0, b := p.1.toNat, k := fld p.2.toNat 31 26 }
  else
    ((List.range m.n).zip (Tab.window 0 m.coup (r * m.n) m.n)).filterMap fun p =>
      if m.form = 2 then some { j := p.1, b := p.2.toNat, k := 0 }
      else
        let code := Tab.get 0 m.codes (r / 512 * (m.n / 512) + p.1 / 512)
        if code = 63 then none else some { j := p.1, b := p.2.toNat, k := code }

/-- The stored row length of a SPARSE_I8 row. -/
def rowLen (m : Model) (i : Nat) : Nat :=
  m.rowptr.getD (i - m.rowFirst + 1) 0 - m.rowptr.getD (i - m.rowFirst) 0

/-- Is row `i` held by this device? -/
def held (m : Model) (i : Nat) : Bool := decide (m.rowFirst ≤ i) && decide (i < m.rowFirst + m.rowCount)

/-- Class `c`: START, end, ACTIVE. -/
def classSpan (m : Model) (c : Nat) : Nat × Nat × Nat :=
  let (st, act) := m.colours.getD c (0, 0)
  (st, (classEnds m.n m.colours).getD c m.n, act)

/-- The held active rows of class `c`, ascending. -/
def classRows (m : Model) (c : Nat) : List Nat :=
  let (st, _, act) := classSpan m c
  ((List.range act).map (· + st)).filter (held m)

/-- The held rows of class `c`, inert ones included (R72). -/
def classSlots (m : Model) (c : Nat) : List Nat :=
  let (st, e, _) := classSpan m c
  ((List.range (e - st)).map (· + st)).filter (held m)

/-- The held 128-row blocks of class `c`, by number. -/
def classBlocks (m : Model) (c : Nat) : List Nat :=
  let (st, e, _) := classSpan m c
  ((List.range ((e - st) / 128)).map (· + st / 128)).filter fun b => held m (128 * b)

def nColours (m : Model) : Nat := m.colours.length

/-- Has class `c` a coupling between two of its spins (R74)? -/
def classInternal (m : Model) (c : Nat) : Bool :=
  m.conflictPairs != 0 &&
  (classRows m c).any fun i => (modelRow m i).any fun x =>
    x.j != i && classOf m.n m.colours x.j == c &&
      (if m.form = 2 then x.b % 2 ^ 15 != 0 else x.b != 0)

/-! ## Replicas and tiles -/

/-- The replica block's fields (R156). -/
def repN (b : List Byte) : Nat := fld (leAt b 4 4) 13 0
def repRungs (b : List Byte) : Nat := fld (leAt b 8 4) 10 0
def repExch (b : List Byte) : Nat := fld (leAt b 0xC 4) 15 0
def repHost (b : List Byte) : Bool := fld (leAt b 0xC 4) 17 16 == 0
def repInit (b : List Byte) : Nat := fld (leAt b 0x10 4) 1 0
def repSpins (b : List Byte) : Nat := fld (leAt b 0x10 4) 3 2
def repTargetEn (b : List Byte) : Bool := bit (leAt b 0x10 4) 4
def repLag (b : List Byte) : Nat := fld (leAt b 0x10 4) 6 5
def repStall (b : List Byte) : Nat := leAt b 0x14 4
def repTarget (b : List Byte) : Nat := leAt b 0x18 8
def repLadder (b : List Byte) : Nat := leAt b 0x20 8
def repInitAddr (b : List Byte) : Nat := leAt b 0x28 8
def repResult (b : List Byte) : Nat := leAt b 0x30 8
def repSize (b : List Byte) : Nat := leAt b 0x38 8
def repDevices (b : List Byte) : Nat := fld (leAt b 0x40 4) 6 0
def repIndex (b : List Byte) : Nat := fld (leAt b 0x40 4) 22 16
def repGroup (b : List Byte) : Nat := leAt b 0x44 4

/-- The sweep block's fields (R132); segments follow at 0x80. -/
def swpSegs (b : List Byte) : Nat := fld (leAt b 4 4) 6 0
def swpRatio (b : List Byte) : Nat := fld (leAt b 8 4) 10 0
def swpCheck (b : List Byte) : Nat := leAt b 0xE 2
def swpRefresh (b : List Byte) : Nat := leAt b 0xC 2
def swpStart (b : List Byte) : Nat := leAt b 0x10 4
def swpSeed (b : List Byte) : Nat := leAt b 0x18 8
def swpMode (b : List Byte) (c : Nat) : Nat := leAt b (0x40 + c / 4) 1 / 4 ^ (c % 4) % 4
def segSweeps (b : List Byte) (m : Nat) : Nat := leAt b (0x80 + 16 * m) 4
def segStart (b : List Byte) (m : Nat) : Nat := leAt b (0x84 + 16 * m) 4
def segEnd (b : List Byte) (m : Nat) : Nat := leAt b (0x88 + 16 * m) 4

/-- All sweeps of the schedule. -/
def totalSweeps (b : List Byte) : Nat := ((List.range (swpSegs b)).map (segSweeps b)).sum

/-- The scale after `done` sweeps (R130), from segment `m` on. -/
def scaleFrom (b : List Byte) : Nat → Nat → Nat → Nat
  | 0, m, _ => segEnd b (m - 1)
  | k + 1, m, done =>
    if done < segSweeps b m then
      ((segStart b m : Int) + (((segEnd b m : Int) - segStart b m) * done).tdiv (segSweeps b m)).toNat
    else scaleFrom b k (m + 1) (done - segSweeps b m)

def scaleAt (b : List Byte) (done : Nat) : Nat := scaleFrom b (swpSegs b) 0 done

/-- The temperature of a rung in a sweep. -/
def effT (r : Run) (rung : Nat) : Nat :=
  min ((r.ladder.getD rung 0).toNat * scaleAt r.sweepBlk r.done.toNat / 2 ^ 24) 0xFFFFFFFF

/-- Replicas of a run, and its tiles of 512 (R96, R136). -/
def Run.reps (r : Run) : Nat := r.spins.length
def Run.tiles (r : Run) : Nat := ceilDiv r.reps 512

/-- Spin `i` of replica `a`: +1 or -1. -/
def spinOf (spins : List Nat) (a i : Nat) : Int := if (spins.getD a 0).testBit i then 1 else -1

/-- S_c (R99). -/
def splitFactor (m : Model) (c tiles : Nat) : Nat :=
  if m.form = 3 then 1 else
  let g := (classBlocks m c).length * tiles
  if 64 ≤ g then 1 else if 8 * g ≤ 64 then 8 else if 4 * g ≤ 64 then 4 else if 2 * g ≤ 64 then 2 else 1

/-! ## FULL fields (R98 to R100) -/

/-- A product coupling times ±1, or 0, times 2^(code + extra), and the I8_CLAMP flag of its byte. -/
def cplInt (x : Cpl) (d : Int) (extra : Nat) : Int := opInt 0 x.b * d * (2 ^ (x.k + extra) : Nat)
def cplVal (x : Cpl) (d : Int) (extra : Nat) : FVal := ((opVal 5 x.b).mul (ofInt d)).scale extra
def i8Flags (form : Nat) (xs : List Cpl) : Nat := if form ≠ 2 ∧ xs.any (fun x => x.b == 0x80) then flI8 else 0

/-- The bias of a held row. -/
def biasOf (m : Model) (i : Nat) : Word := Tab.get 0 m.bias (i - m.rowFirst)

/-- The evaluation of one field from a start value by signed products, in `s` parts by column. -/
def fullPart (m : Model) (row : List Cpl) (i s : Nat) (sp : Nat) : Part :=
  let part := fun p =>
    let xs := row.filter fun x => decide (p * (m.n / s) ≤ x.j) && (decide (x.j < (p + 1) * (m.n / s)) || p + 1 == s)
    let d := fun (x : Cpl) => if sp.testBit x.j then (1 : Int) else -1
    let q := if m.form = 2 then
        floatPart (if p = 0 then to64 (of32 (biasOf m i)) else 0) (xs.map fun x => cplVal x (d x) 0)
      else intPart (if p = 0 then biasOf m i else 0) (xs.map fun x => cplInt x (d x) 0)
    { q with flags := q.flags ||| i8Flags m.form xs }
  combineParts (m.form == 2) 3 ((List.range s).map part)

/-- A field as the comparator sees it: int32, or t rounded to FP32 (R182). -/
def fieldOf (form : Nat) (p : Part) : Word :=
  if form = 2 then to32 (of64 p.bits) else BitVec.ofInt 32 p.bits.toInt

/-! ## DELTA fields (R104 to R107) -/

/-- An empty flip list. -/
def FlipList.init : FlipList := { stamp := 0, entries := [] }

def flipList (r : Run) (c tile : Nat) : FlipList := Tab.get FlipList.init r.lists (c * 16 + tile)

/-- The pending lists of class `c` in a tile, oldest first: every list written after the class's own last one, and its
own where the class has internal couplings (R105, R106). At a turn these are the lists of all other classes. At the
boundary of a sweep a class does not take again the lists that its stored fields hold: the model's choice (log 71). -/
def pendingLists (m : Model) (r : Run) (c tile : Nat) : List FlipList :=
  let own := flipList r c tile
  let others := ((List.range (nColours m)).filter fun x => x != c).map (fun x => flipList r x tile)
  let ls := others.filter fun l => decide (own.stamp < l.stamp)
  (if classInternal m c then [own] else []) ++ ls.mergeSort (fun a b => decide (a.stamp ≤ b.stamp))

/-- The pending columns in order: spin and mask. -/
def pending (m : Model) (r : Run) (c tile : Nat) : List (Nat × Nat) :=
  (pendingLists m r c tile).flatMap FlipList.entries

/-- The pending count (R105). -/
def pendingCount (m : Model) (r : Run) (c tile : Nat) : Nat :=
  let ps := pending m r c tile
  if m.form = 3 then (ps.map fun p => if held m p.1 then rowLen m p.1 else 0).sum else ps.length

/-- The couplings that pending columns bring to row `i`, with each column's mask: for a dense form those of row `i`, for
SPARSE_I8 the entries (j, i) of the pending spins' own rows (R106). -/
def deltaCpls (m : Model) (i : Nat) (ps : List (Nat × Nat)) : List (Cpl × Nat) :=
  if m.form = 3 then
    ps.flatMap fun p => if held m p.1 then
      ((modelRow m p.1).filter fun x => x.j == i).map fun x => ({ x with j := p.1 }, p.2) else []
  else
    let row := modelRow m i
    ps.filterMap fun p => (row.find? fun x => x.j == p.1).map fun x => (x, p.2)

/-- One field brought up to date from its stored value. -/
def deltaPart (form : Nat) (start : Word) (xs : List (Cpl × Nat)) (col sp : Nat) : Part :=
  let d := fun (x : Cpl × Nat) => if x.2.testBit col then (if sp.testBit x.1.j then (1 : Int) else -1) else 0
  let q := if form = 2 then floatPart (to64 (of32 start)) (xs.map fun x => cplVal x.1 (d x) 1)
    else intPart start (xs.map fun x => cplInt x.1 (d x) 1)
  { q with flags := q.flags ||| i8Flags form (xs.map Prod.fst) }

/-- The stored field of spin `i` in replica `a`. -/
def storedField (m : Model) (r : Run) (a i : Nat) : Word := Tab.get 0 r.fields (a * m.n + i)

/-! ## The choice (R109 to R111) -/

/-- W_c. -/
def columnCount (m : Model) (c : Nat) : Nat :=
  if m.form = 3 then ((classSlots m c).map (rowLen m)).sum
  else if m.form = 2 then m.n
  else ((classBlocks m c).map fun b =>
    512 * ((List.range (m.n / 512)).filter fun q =>
      Tab.get 0 m.codes ((128 * b - m.rowFirst) / 512 * (m.n / 512) + q) != 63).length).foldl max 0

/-- Does class `c` take a DELTA turn now? -/
def takesDelta (m : Model) (r : Run) (c : Nat) : Bool :=
  let mode := swpMode r.sweepBlk c
  let ok := descDelta m.desc && r.valid.testBit c
  if m.form = 2 ∧ r.sweep % swpRefresh r.sweepBlk = 0 then false
  else if mode = 1 then false
  else if mode = 2 then ok
  else
    let pmax := ((List.range r.tiles).map (pendingCount m r c)).foldl max 0
    ok && decide (swpRatio r.sweepBlk ≠ 0) &&
      decide (pmax * 1024 * splitFactor m c r.tiles ≤ swpRatio r.sweepBlk * columnCount m c)

/-- The fields of a class: whether by DELTA, and for each held active row its parts by replica. -/
def evalClass (m : Model) (r : Run) (c : Nat) : Bool × List (Nat × List Part) :=
  let s := splitFactor m c r.tiles
  if takesDelta m r c then
    let ps := (List.range r.tiles).map (pending m r c)
    (true, (classRows m c).map fun i =>
      let xs := ps.map (deltaCpls m i)
      (i, (List.range r.reps).map fun a =>
        deltaPart m.form (storedField m r a i) (xs.getD (a / 512) []) (a % 512) (r.spins.getD a 0)))
  else
    (false, (classRows m c).map fun i =>
      let row := modelRow m i
      (i, r.spins.map fun sp => fullPart m row i s sp))

/-- The flags of each group of an evaluation: one 128-row block and one tile (R96, R192). -/
def groupFlags (m : Model) (r : Run) (c : Nat) (out : List (Nat × List Part)) : List Nat :=
  (classBlocks m c).flatMap fun b => (List.range r.tiles).map fun t =>
    (out.filter fun p => p.1 / 128 == b).foldl (fun f p =>
      ((p.2.drop (512 * t)).take 512).foldl (fun g q => g ||| q.flags) f) 0

/-- Array steps of an evaluation of a dense form: one or two for each issued column of each group (R169). -/
def evalSteps (m : Model) (r : Run) (c : Nat) (delta : Bool) : Nat :=
  let per := if m.form = 2 then 2 else 1
  ((classBlocks m c).map fun b =>
    let row := modelRow m (128 * b)
    if delta then ((List.range r.tiles).map fun t =>
      ((pending m r c t).filter fun p => row.any fun x => x.j == p.1).length).sum
    else row.length * r.tiles).sum * per

/-! ## Energies (R127, R128) -/

/-- The sum Σ s_i (f_i + h_i) over the held rows of one replica, from its fields. -/
def energySumInt (m : Model) (sp : Nat) (fs : List (Nat × Word)) : Int :=
  (fs.map fun p => (if sp.testBit p.1 then (1 : Int) else -1) * (p.2.toInt + (biasOf m p.1).toInt)).sum

def energySumFloat (m : Model) (sp : Nat) (fs : List (Nat × Word)) : FVal :=
  (fs.foldl (fun acc p =>
    let term := of64 (to64 ((of32 p.2).add (of32 (biasOf m p.1))))
    let term := if sp.testBit p.1 then term else term.neg
    match acc with
    | none => some term
    | some a => some (of64 (to64 (a.add term)))) none).getD (.fin false 0 0)

/-- A recomputed energy: its bits, and whether the sum was odd. -/
def energyOf (m : Model) (sp : Nat) (fs : List (Nat × Word)) : Quad × Bool :=
  if m.form = 2 then
    let v := (energySumFloat m sp fs).neg.scale (-1)
    (if v.isZero then 0 else to64 v, false)
  else
    let z := energySumInt m sp fs
    (BitVec.ofInt 64 ((-z) / 2), z % 2 != 0)

/-- What a device of a split group sends for one replica (R163): -½ Σ s_i (f_i + h_i) over its rows in FP64, and for an
integer form the sum before it is halved, since only the sum over all rows need be even (log 30). -/
def partialOf (m : Model) (sp : Nat) (fs : List (Nat × Word)) : Quad :=
  if m.form = 2 then to64 ((energySumFloat m sp fs).neg.scale (-1)) else BitVec.ofInt 64 (energySumInt m sp fs)

/-- The energy of one replica from the members' figures, in ascending SPLIT_INDEX, and whether the sum was odd. -/
def splitEnergy (m : Model) (ps : List Quad) : Quad × Bool :=
  if m.form = 2 then
    let e := match ps with
      | [] => 0
      | e :: rest => rest.foldl add64 e
    (if (of64 e).isZero then 0 else e, false)
  else
    let z := (ps.map BitVec.toInt).sum
    (BitVec.ofInt 64 ((-z) / 2), z % 2 != 0)

/-- Is an energy or field of a form infinite or NaN? -/
def badQuad (form : Nat) (e : Quad) : Bool := form == 2 && !(of64 e).isFin
def badWord (form : Nat) (f : Word) : Bool := form == 2 && !(of32 f).isFin

/-- The fields of every class at this point, in ascending row: per row, per replica; the group flags; the steps. -/
def allFields (m : Model) (r : Run) : List (Nat × List Part) × List Nat × Nat :=
  let es := (List.range (nColours m)).map fun c => (c, evalClass m r c)
  (es.flatMap fun e => e.2.2, es.flatMap fun e => groupFlags m r e.1 e.2.2,
   (es.map fun e => if m.form = 3 then 0 else evalSteps m r e.1 e.2.1).sum)

/-- The steps of an evaluation reach ARR_STEPS; those of the gather path are a free value (log 9). -/
def noteSteps (form steps : Nat) (s : State) : State :=
  if form = 3 then let (x, s) := freshBelow (2 ^ 40) s; addSteps x s else addSteps steps s

/-- What `f` makes of every replica's spins and current fields, and whether a field is infinite or NaN (R117). -/
def evalReplicas {α : Type} (m : Model) (r : Run) (f : Nat → List (Nat × Word) → α) (s : State) : List α × Bool × State :=
  let (out, fl, steps) := allFields m r
  let s := noteSteps m.form steps (fl.foldl (fun st f => countEval f st) s)
  let per := (List.range r.reps).map fun a =>
    let fs := out.map fun p => (p.1, fieldOf m.form (p.2.getD a ⟨0, 0, 0⟩))
    (f (r.spins.getD a 0) fs, fs.any fun p => badWord m.form p.2)
  (per.map Prod.fst, per.any Prod.snd, s)

/-- Recomputed energies are taken: an odd sum and a value that is not finite are noted (R117, R128). -/
def noteEnergies (m : Model) (es : List (Quad × Bool)) (bad : Bool) (r : Run) (s : State) : List Quad × Run × State :=
  let odd := es.any Prod.snd
  (es.map Prod.fst, { r with odd := r.odd || odd, nonfinite := r.nonfinite || bad || es.any fun e => badQuad m.form e.1 },
   if odd then anlFlag 3 s else s)

/-- The energies of every replica, recomputed (R128). -/
def recompute (m : Model) (r : Run) (s : State) : List Quad × Run × State :=
  let (es, bad, s) := evalReplicas m r (energyOf m) s
  noteEnergies m es bad r s

/-- A device's part of every replica's energy (R163). -/
def partials (m : Model) (r : Run) (s : State) : List Quad × Run × State :=
  let (es, bad, s) := evalReplicas m r (partialOf m) s
  (es, { r with nonfinite := r.nonfinite || bad }, s)

/-! ## Decisions (R114 to R117) -/

/-- The comparator on a field's bits. -/
def newSpin (form : Nat) (f : Word) (t : Nat) (l : Int) : Bool :=
  if form = 2 then
    match of32 f with
    | .nan => false
    | .inf n => !n
    | .fin n m e => acceptUp (sm n m) e t l
  else acceptUp f.toInt 0 t l

/-- One decided spin: index, replica, field, flipped. -/
structure Dec where
  i : Nat
  a : Nat
  f : Word
  flip : Bool
deriving DecidableEq, Repr

/-- The decisions of a class, in ascending spin and replica (R94, R118, R120). -/
def decisions (m : Model) (r : Run) (out : List (Nat × List Part)) : List Dec :=
  out.flatMap fun p => ((List.range r.reps).zip p.2).map fun q =>
    let f := fieldOf m.form q.2
    let up := newSpin m.form f (effT r (r.rung.getD q.1 0)) (noiseL r.seed p.1 r.sweep q.1 0)
    { i := p.1, a := q.1, f := f, flip := up != (r.spins.getD q.1 0).testBit p.1 }

/-- ΔE of a flip added to a running energy (R20, R115, R127). -/
def addDelta (form : Nat) (e : Quad) (up : Bool) (f : Word) : Quad :=
  if form = 2 then
    let d := (of32 f).scale 1
    to64 ((of64 e).add (if up then d else d.neg))
  else e + BitVec.ofInt 64 (2 * (if up then f.toInt else -f.toInt))

/-- The flips of one replica. -/
def flipsOf (ds : List Dec) (a : Nat) : List Dec := ds.filter fun d => d.a == a && d.flip

/-- The flip list entries of a tile (R104). -/
def listEntries (ds : List Dec) (tile : Nat) : List (Nat × Nat) :=
  let fs := ds.filter fun d => d.flip && d.a / 512 == tile
  (fs.map Dec.i).eraseReps.map fun i => (i, ofBits ((fs.filter fun d => d.i == i).map fun d => d.a % 512))

/-- Conflict events of a turn (R124). In a split run this device counts the pairs whose spins are both its own: the
model's choice (log 71). -/
def conflictEvents (m : Model) (c : Nat) (ds : List Dec) : Nat :=
  ((m.pairs.filter fun p => classOf m.n m.colours p.1 == c).map fun p =>
    ((ds.filter fun d => d.flip && d.i == p.1).filter fun d =>
      ds.any fun e => e.flip && e.i == p.2 && e.a == d.a).length).sum

/-- The run after the decisions of class `c`: spins, energies, fields and lists (R97, R103, R104). -/
def applyTurn (m : Model) (r : Run) (c : Nat) (delta : Bool) (ds : List Dec) : Run :=
  let per := (List.range r.reps).map fun a => flipsOf ds a
  let spins := (r.spins.zip per).map fun p => p.2.foldl (fun x d => setBit x d.i (!x.testBit d.i)) p.1
  let energy := ((r.spins.zip r.energy).zip per).map fun p =>
    p.2.foldl (fun e d => addDelta m.form e (p.1.1.testBit d.i) d.f) p.1.2
  let stored := descDelta m.desc
  { r with
    spins := spins, energy := energy
    fields := if stored then ds.foldl (fun t d => Tab.put 0 t (d.a * m.n + d.i) d.f) r.fields else r.fields
    valid := if stored then r.valid ||| 2 ^ c else r.valid
    lists := if r.workspace = [] then r.lists else (List.range r.tiles).foldl (fun t tile =>
      Tab.put FlipList.init t (c * 16 + tile) { stamp := r.turnNo + 1, entries := listEntries ds tile }) r.lists
    nonfinite := r.nonfinite || ds.any (fun d => badWord m.form d.f) || energy.any (badQuad m.form)
    conflicts := r.conflicts + BitVec.ofNat 64 (conflictEvents m c ds)
    full := r.full + (if delta then 0 else 1), delta := r.delta + (if delta then 1 else 0)
    cls := c + 1, turnNo := r.turnNo + 1 }

/-- The row blocks to which a turn applies flips (R151). -/
def flippedBlocks (ds : List Dec) : List Nat := ((ds.filter Dec.flip).map fun d => d.i / 128).eraseReps

/-! ## Remote spins of a split run (R162): a peer's new spins applied to the state and to stored fields -/

/-- The remote flips of one report: (spin, mask) for each tile, from first row, row count and packed spins (4 bytes a
replica, bit k for row first + k). -/
def remoteFlips (r : Run) (first count : Nat) (bytes : List Byte) (tile : Nat) : List (Nat × Nat) :=
  (List.range count).filterMap fun k =>
    let mask := ofBits ((List.range 512).filter fun col =>
      let a := 512 * tile + col
      decide (a < r.reps) && ((leAt bytes (4 * a) 4).testBit k != (r.spins.getD a 0).testBit (first + k)))
    if mask = 0 then none else some (first + k, mask)

/-- Couplings of held row `i` to remote spins. -/
def remoteCpls (m : Model) (i : Nat) (ps : List (Nat × Nat)) : List (Cpl × Nat) :=
  let row := modelRow m i
  ps.filterMap fun p => (row.find? fun x => x.j == p.1).map fun x => (x, p.2)

/-- The spins with one report applied. -/
def remoteSpins (r : Run) (ps : List (List (Nat × Nat))) : List Nat :=
  (List.range r.reps).map fun a =>
    (ps.getD (a / 512) []).foldl (fun x p => if p.2.testBit (a % 512) then setBit x p.1 (!x.testBit p.1) else x)
      (r.spins.getD a 0)

/-- The stored fields that one report changes: row, replica and part. -/
def remoteParts (m : Model) (r : Run) (ps : List (List (Nat × Nat))) (spins : List Nat) : List (Nat × Nat × Part) :=
  if !descDelta m.desc then [] else
  (((List.range (nColours m)).filter fun c => r.valid.testBit c).flatMap (classRows m)).flatMap fun i =>
    (List.range r.reps).filterMap fun a =>
      let xs := remoteCpls m i (ps.getD (a / 512) [])
      if xs.isEmpty then none else some (i, a, deltaPart m.form (storedField m r a i) xs (a % 512) (spins.getD a 0))

/-- The flags of each group that accumulated: one 128-row block and one tile (R168, R192). -/
def remoteFlags (parts : List (Nat × Nat × Part)) : List Nat :=
  let key := fun (p : Nat × Nat × Part) => (p.1 / 128, p.2.1 / 512)
  (parts.map key).eraseDups.map fun k => (parts.filter fun p => key p == k).foldl (fun f p => f ||| p.2.2.flags) 0

/-- The state and its stored fields with one report applied, and the flags of the accumulations (R162). -/
def applyRemote (m : Model) (r : Run) (first count : Nat) (bytes : List Byte) : Run × List Nat :=
  let ps := (List.range r.tiles).map (remoteFlips r first count bytes)
  let spins := remoteSpins r ps
  let parts := remoteParts m r ps spins
  ({ r with
     spins := spins
     fields := parts.foldl (fun t p => Tab.put 0 t (p.2.1 * m.n + p.1) (fieldOf m.form p.2.2)) r.fields },
   remoteFlags parts)

/-! ## The checks of the sweep block (R133): every detail that fails -/

def sweepDetails (m : Model) (addr : Nat) (b : List Byte) : List Nat :=
  let n := swpSegs b
  let segs := List.range (min n 64)
  let classes := List.range 256
  let resv := !within (leAt b 0 4) 0xFFFF || !within (leAt b 4 4) 0x7F || !within (leAt b 8 4) 0x7FF ||
    leAt b 0x14 4 ≠ 0 || !allZero (slice 0x20 0x20 b) || segs.any (fun k => leAt b (0x8C + 16 * k) 4 ≠ 0) ||
    addr % 64 ≠ 0
  (if leAt b 0 2 ≠ 1 then [1] else []) ++
  (if n = 0 ∨ 64 < n ∨ segs.any (fun k => segSweeps b k == 0) then [2] else []) ++
  (if 1024 < swpRatio b then [3] else []) ++
  (if m.form = 2 ∧ swpRefresh b = 0 then [4] else []) ++
  (if classes.any (fun c => swpMode b c == 3 || (decide (nColours m ≤ c) && swpMode b c != 0)) then [5] else []) ++
  (if !descDelta m.desc ∧ classes.any (fun c => swpMode b c == 2) then [6] else []) ++
  (if 2 ^ 32 - 1 < swpStart b + (segs.map (segSweeps b)).sum then [7] else []) ++
  (if resv then [8] else [])

/-- Does any class of the model use flip lists (R108)? -/
def needsLists (m : Model) (b : List Byte) : Bool := (List.range (nColours m)).any fun c => swpMode b c != 1

/-- Extents of the flip-list workspace (R108). -/
def workspaceExtents (m : Model) (b : List Byte) (reps : Nat) : Nat :=
  if needsLists m b then toExtents (68 * m.n * ceilDiv reps 512) else 0

end Sys2Proof.Machine
end

