-- ==== Sys2Proof/Machine/Replicas.lean ====
section
/-! DEFINITION. Replicas, results and audit (04, 09): initial states, best states, exchange, the sweep boundary,
checkpoints and lock-step, the result area, the digest record and the save area. -/

namespace Sys2Proof.Machine

/-! ## Settings (R351, R352) -/

/-- The settings word. -/
def settingsWord (s : State) (free : Bool) : Word :=
  BitVec.ofNat 32 (at' free 24 + s.boot.major.toNat * 2 ^ 16 + s.fuse.noiseRev.toNat * 2 ^ 8 + s.fuse.arithRev.toNat)

/-- The free point word now in force. -/
def freePointWord (s : State) : Word :=
  BitVec.ofNat 32 (s.det.refclk.toNat * 2 ^ 16 + s.det.cap.toNat * 2 ^ 8 + s.det.point.toNat)

/-- Is logical engine `n` served by a spare (R40, R356)? -/
def servedBySpare (s : State) (n : Nat) : Bool :=
  match physOf s n with
  | some p => p != 9 * (n / 8) + n % 8
  | none => false

def maskOf (l : List Nat) : Nat := ofBits l

/-! ## Runs in a command -/

def Cmd.run? (c : Cmd) : Option Run :=
  match c.work with
  | .anneal r => some r
  | _ => none

def setRun (k : Key) (r : Run) (s : State) : State := updCmd k (fun c => { c with work := .anneal r }) s

/-! ## Initial states (R138, R139) -/

/-- Bytes of one state of `n` spins. -/
def stateBytes (n : Nat) : Nat := ceilDiv n 512 * 64

/-- The mask of the active spins. -/
def activeMask (m : Model) : Nat :=
  ofBits ((List.range (nColours m)).flatMap fun c =>
    let (st, _, act) := classSpan m c
    (List.range act).map (· + st))

/-- RANDOM: replica `a`. -/
def randomState (m : Model) (seed : Quad) (a : Nat) : Nat :=
  ofBits ((List.range m.n).filter fun i => !inertAt m.n m.colours i && randomSpin seed i a)

/-- Supplied states: the spins of each replica, whether an inert bit was forced, and the bytes after R139. -/
def suppliedStates (m : Model) (mode reps : Nat) (bytes : List Byte) : List Nat × Bool × List Byte :=
  let sz := stateBytes m.n
  let act := activeMask m
  let all := 2 ^ m.n - 1
  let one := fun k => leNat (slice (k * sz) sz bytes)
  let cnt := if mode = 1 then reps else 1
  let forced := (List.range cnt).any fun k => (one k &&& (all - act)) != 0
  let clean := fun k => one k - (one k &&& (all - act))
  ((List.range reps).map fun a => clean (if mode = 1 then a else 0) &&& all, forced,
   ((List.range cnt).map fun k => leBytes sz (clean k)).flatten)

/-! ## Best energies (R149, R150) -/

/-- Is energy `a` strictly below `b`? A NaN never is (R117). -/
def energyLt (form : Nat) (a b : Quad) : Bool :=
  if form = 2 then (of64 a).lt (of64 b) else decide (a.toInt < b.toInt)

/-- The run best: replica and energy; none while every best energy is NaN (R117, R150). -/
def runBestOf (form : Nat) (es : List Quad) : Option (Nat × Quad) :=
  ((List.range es.length).zip es).foldl (fun b p =>
    if form = 2 ∧ (of64 p.2).isNan then b else
    match b with
    | none => some p
    | some q => if energyLt form p.2 q.2 then some p else some q) none

/-- The run best's energy bits, NaN when there is none. -/
def runBestBits (form : Nat) (es : List Quad) : Quad :=
  match runBestOf form es with
  | some p => p.2
  | none => 0x7FF8000000000000

/-- Step 2 of R155: best energies, BEST_SWEEP, the run best and STALL's count, and the copies now outstanding. -/
def updateBest (m : Model) (r : Run) : Run :=
  let imp := (List.range r.reps).filter fun a => energyLt m.form (r.energy.getD a 0) (r.bestE.getD a 0)
  let bestE := (List.range r.reps).map fun a => if a ∈ imp then r.energy.getD a 0 else r.bestE.getD a 0
  let bestSweep := (List.range r.reps).map fun a =>
    if a ∈ imp then BitVec.ofNat 32 r.sweep else r.bestSweep.getD a 0xFFFFFFFF
  let nb := runBestBits m.form bestE
  let fell := energyLt m.form nb r.runBest
  let blocks := (List.range (m.rowCount / 128)).map (· + m.rowFirst / 128)
  let old := fun b => ((r.copies.find? fun p => p.1 == b).map (·.2)).getD []
  { r with
    bestE := bestE, bestSweep := bestSweep, runBest := nb, stall := if fell then 0 else r.stall + 1
    copies := blocks.filterMap fun b =>
      let l := (List.range r.reps).filter fun a => decide (a ∈ imp) || decide (a ∈ old b)
      if l = [] then none else some (b, l) }

/-- The bits of one row block of one replica copied into its best state (R151). -/
def copyBlock (b : Nat) (best spins : Nat) : Nat :=
  let lo := 2 ^ (128 * b)
  let field := fun x => x / lo % 2 ^ 128
  best - field best * lo + field spins * lo

/-- A row block's copies done. -/
def copyBest (r : Run) (b : Nat) : Run :=
  match r.copies.find? fun p => p.1 == b with
  | none => r
  | some (_, reps) =>
    { r with
      best := (List.range r.reps).map fun a =>
        if a ∈ reps then copyBlock b (r.best.getD a 0) (r.spins.getD a 0) else r.best.getD a 0
      copies := r.copies.filter fun p => p.1 != b }

/-- All outstanding copies done. -/
def copyAll (r : Run) : Run := (r.copies.map Prod.fst).foldl copyBest r

/-! ## Exchange (R143 to R147) -/

def Run.rungs (r : Run) : Nat := repRungs r.repBlk

/-- The inequality of R145, exact. -/
def exchanges (form : Nat) (ea eb : Quad) (tlo thi : Nat) (x : Int) : Bool :=
  let dt : Int := (thi : Int) - tlo
  if form = 2 then
    match of64 ea, of64 eb with
    | .fin a m e, .fin b n d =>
      match (FVal.fin a m e).add (FVal.fin b n d).neg with
      | .fin s p q =>
        if 0 ≤ q then decide (0 ≤ dt * (sm s p * (2 ^ q.toNat : Nat)) * (2 ^ 34 : Nat) + x * tlo * thi)
        else decide (0 ≤ dt * sm s p * (2 ^ 34 : Nat) + x * tlo * thi * (2 ^ (-q).toNat : Nat))
      | _ => false
    | _, _ => false
  else decide (0 ≤ dt * (ea.toInt - eb.toInt) * (2 ^ 34 : Nat) + x * tlo * thi)

/-- The replica on rung `k` of ladder `g`. -/
def replicaAt (r : Run) (g k : Nat) : Nat :=
  ((List.range r.rungs).map (· + g * r.rungs)).find? (fun a => r.rung.getD a 0 == k) |>.getD 0

/-- The pairs of a round: ladder and lower rung (R144). -/
def exchangePairs (r : Run) : List (Nat × Nat) :=
  let x := (r.sweep + 1) / repExch r.repBlk
  (List.range (r.reps / r.rungs)).flatMap fun g =>
    ((List.range (r.rungs - 1)).filter fun k => k % 2 == (x + 1) % 2).map fun k => (g, k)

/-- Is a round due after this sweep (R143), the run not ending? -/
def exchangeDue (r : Run) : Bool :=
  repExch r.repBlk != 0 && decide (2 ≤ r.rungs) && (r.sweep + 1) % repExch r.repBlk == 0

def incAt (l : List Word) (i : Nat) : List Word := l.set i (satInc (l.getD i 0))

/-- One exchange round: decisions on the energies and rungs as they stood, then the trades. -/
def exchangeRound (form : Nat) (r : Run) : Run :=
  let ds := (exchangePairs r).map fun p =>
    let a := replicaAt r p.1 p.2
    let b := replicaAt r p.1 (p.2 + 1)
    (p.2, a, b, exchanges form (r.energy.getD a 0) (r.energy.getD b 0) (effT r p.2) (effT r (p.2 + 1))
      (noiseX r.seed p.2 r.sweep p.1))
  ds.foldl (fun q d =>
    let (k, a, b, yes) := d
    let q := { q with att := incAt (incAt q.att a) b, rungAtt := incAt q.rungAtt k }
    if yes then { q with rung := (q.rung.set a (k + 1)).set b k, acc := incAt (incAt q.acc a) b
                         rungAcc := incAt q.rungAcc k } else q)
    { r with rounds := satInc r.rounds }

/-! ## Lock-step (R376 to R382) -/

def LockStep.off : LockStep :=
  { on := false, entry := 0, binding := 0, window := 1, own := [], peer := [], firstBad := none, alone := false }

/-- A checkpoint compared with the peer's of the same number (R380). -/
def lsCompare (c : Cmd) (ls : LockStep) (k : Nat) (s : State) : LockStep × State :=
  match ls.own.find? (fun p => p.1 == k), ls.peer.find? (fun p => p.1 == k) with
  | some a, some b =>
    if ls.alone ∨ ls.firstBad.isSome ∨ a.2 = b.2 then (ls, s)
    else
      let d := s.det
      let d := if d.lsLast.getLsbD 31 then d else
        { d with lsLast := BitVec.ofNat 32 (2 ^ 31 + ls.entry * 2 ^ 16 + c.queue), lsLastSeq := c.key.seq
                 lsLastCkpt := BitVec.ofNat 32 k }
      ({ ls with firstBad := some k },
       detFlag 0 { s with det := { d with lsMismatch := satInc d.lsMismatch } })
  | _, _ => (ls, s)

/-- A checkpoint is formed: sent to the peer, also by a command that runs alone, and compared (R378, R380). -/
def lsForm (c : Cmd) (ls : LockStep) (k : Nat) (dig : Digest) (s : State) : LockStep × State :=
  if !ls.on then (ls, s) else
  let s := bindingSend ls.binding 5 c.key.seq (leBytes 4 k ++ leBytes 4 0 ++ digestBytes dig) s
  lsCompare c { ls with own := ls.own ++ [(k, dig)] } k s

/-- May work go past checkpoint `k` (R379)? -/
def lsMayPass (ls : LockStep) (k : Nat) : Bool :=
  !ls.on || ls.alone || ls.firstBad.isSome || decide (k < ls.window) || ls.peer.any fun p => p.1 == k - ls.window

/-- The lock-step state of a command when it is admitted, from the lowest valid entry that names its queue (R376,
R377, R381). -/
def lsAdmit (c : Cmd) (split : Bool) (s : State) : LockStep × State :=
  match c.lsEntry with
  | some (e, w) =>
    if c.digest && !split then
      let b := fld w.toNat 21 16
      let alone := !bindingLive s b
      ({ LockStep.off with on := true, entry := e, binding := b, window := fld w.toNat 25 22, alone := alone },
       if alone then detFlag 1 s else s)
    else (LockStep.off, s)
  | none => (LockStep.off, s)

/-- Lock-step commands of a binding that is unbound or whose link is down run alone (R381). -/
def runAlone (b : Nat) (s : State) : State :=
  let hit := fun (ls : LockStep) => ls.on && ls.binding == b && !ls.alone
  let any := s.cmds.any fun c => match c.lockStep with | some ls => hit ls | none => false
  let s := { s with cmds := s.cmds.map fun c => match c.work with
    | .anneal r => if hit r.ls then { c with work := .anneal { r with ls := { r.ls with alone := true } } } else c
    | .program p => if hit p.ls then { c with work := .program { p with ls := { p.ls with alone := true } } } else c
    | _ => c }
  if any then detFlag 1 s else s

/-! ## Annealing checkpoints and digests (R364 to R372) -/

/-- A digest as a number, from bytes. -/
def digOf (bs : List Byte) : Digest := BitVec.ofNat 256 (leNat bs)

/-- INPUT_DIGEST of an annealing run (R364). -/
def annealInput (r : Run) (states : List Byte) (interval : Nat) : Digest :=
  let rep := patchAt (patchAt r.repBlk 0x20 (List.replicate 32 0)) 0xC (leBytes 4 (leAt r.repBlk 0xC 4 % 2 ^ 16))
  digOf (chunkedDigest (patchAt r.sweepBlk 0x18 (leBytes 8 r.seed.toNat) ++ rep ++
    (r.ladder.map fun t => leBytes 4 t.toNat).flatten ++ states ++ leBytes 4 interval))

/-- C_0 (R367). -/
def firstCkpt (settings : Word) (mp input : Digest) : Digest :=
  digOf (sha256 (leBytes 4 settings.toNat ++ digestBytes mp ++ digestBytes input))

/-- C_k of an annealing run after its sweep (R368). -/
def annealCkpt (m : Model) (r : Run) : Digest :=
  let e := ((List.range r.reps).map fun a =>
    leBytes 8 (r.energy.getD a 0).toNat ++ leBytes 8 (r.bestE.getD a 0).toNat ++ leBytes 4 (r.rung.getD a 0) ++
    leBytes 4 (r.bestSweep.getD a 0).toNat).flatten
  let blocks := (List.range (m.rowCount / 128)).map (· + m.rowFirst / 128)
  let z := fun j => chunkedDigest ((blocks.filter fun b => b % 64 == j).flatMap fun b =>
    r.spins.flatMap fun sp => leBytes 16 (sp / 2 ^ (128 * b) % 2 ^ 128))
  digOf (sha256 (digestBytes r.chain ++ leBytes 4 r.sweep ++ chunkedDigest e ++ ((List.range 64).map z).flatten))

/-- Step 3 of R155. -/
def takeCkpt (c : Cmd) (m : Model) (r : Run) (s : State) : Run × State :=
  let d := annealCkpt m r
  let r := { r with chain := d, ckpts := r.ckpts + 1 }
  let (ls, s) := lsForm c r.ls r.ckpts.toNat d s
  ({ r with ls := ls }, s)

/-- The 256 bytes of a digest record (R372). -/
def digestRecord (kind : Nat) (settings freePoint : Word) (mayVary split : Bool) (seq : Word) (ckpts : Nat) (seed : Quad)
    (ls : LockStep) (retry engines subst : Nat) (mp input chain output : Digest) : List Byte :=
  let run := digOf (sha256 (leBytes 4 settings.toNat ++ digestBytes mp ++ digestBytes input ++ digestBytes chain ++
    digestBytes output))
  leBytes 4 (kind * 2 ^ 16 + 1) ++ leBytes 4 settings.toNat ++ leBytes 4 freePoint.toNat ++
  leBytes 4 (at' ls.alone 7 + at' ls.firstBad.isSome 6 + at' ls.on 5 + at' split 4 + at' mayVary 3) ++
  leBytes 4 seq.toNat ++ leBytes 4 ckpts ++ leBytes 8 seed.toNat ++ leBytes 4 (ls.firstBad.getD 0xFFFFFFFF) ++
  leBytes 4 retry ++ leBytes 8 engines ++ leBytes 8 subst ++ leBytes 8 0 ++
  digestBytes mp ++ digestBytes input ++ digestBytes chain ++ digestBytes output ++ digestBytes run ++
  List.replicate 32 0

/-! ## The result area (R159) -/

/-- Bytes of the rung table. -/
def rungTableBytes (rungs : Nat) : Nat := ceilDiv (8 * (rungs - 1)) 64 * 64

/-- States in a result area by RESULT_SPINS. -/
def resultStates (mode reps : Nat) : Nat := if mode = 0 then 0 else if mode = 1 then 1 else if mode = 2 then reps else 2 * reps

/-- Size of a result area: `n` spins a state. -/
def resultSize (b : List Byte) (n : Nat) : Nat :=
  128 + 32 * repN b + rungTableBytes (repRungs b) + resultStates (repSpins b) (repN b) * stateBytes n

/-- One state as stored in a result: the held rows, inert and padding bits 0. -/
def stateOut (m : Model) (sp : Nat) : List Byte :=
  leBytes (stateBytes m.rowCount) ((sp &&& activeMask m) / 2 ^ m.rowFirst % 2 ^ m.rowCount)

def modelOffset (m : Model) : Nat := descOffset m.desc

/-- May a device of a split group take another number of DELTA turns than this one: is a class left to AUTO (R109)? -/
def autoTurns (m : Model) (r : Run) : Bool :=
  descDelta m.desc && decide (swpRatio r.sweepBlk ≠ 0) && (List.range (nColours m)).any fun c => swpMode r.sweepBlk c == 0

/-- The five header fields that a device of a split group cannot form from its own rows alone (R164). -/
structure SharedFields where
  trunc : Bool
  nonfinite : Bool
  conflicts : Nat
  full : Nat
  delta : Nat

/-- The fields as this device alone finds them. -/
def Run.ownFields (r : Run) : SharedFields :=
  ⟨r.trunc, r.nonfinite, r.conflicts.toNat, r.full.toNat, r.delta.toNat⟩

/-- The fields as every device of the group writes them (R164): free values of what all devices share, where that does not
fix them (log 30). NONFINITE of an integer run is 0 and with an energy that is not finite 1; the turns are as many as this
device took, and where no class is left to AUTO of the same kind. -/
def groupFields (m : Model) (r : Run) : SharedFields :=
  let shared := r.split.group.toNat :: r.split.digest.toNat :: r.done.toNat :: r.energy.map BitVec.toNat
  let free := fun n => Config.splitField n shared
  let turns := r.full.toNat + r.delta.toNat
  let delta := if autoTurns m r then free 3 % (turns + 1) else r.delta.toNat
  { trunc := free 0 % 2 == 1
    nonfinite := m.form == 2 && ((r.energy ++ r.bestE).any (badQuad m.form) || free 1 % 2 == 1)
    conflicts := free 2 % 2 ^ 64, full := turns - delta, delta := delta }

/-- The 128 header bytes. -/
def resultHeader (m : Model) (r : Run) (bestRep : Nat) (bestE : Quad) (steps endTime : Nat) : List Byte :=
  let split := decide (1 < r.split.devices)
  let (reason, hit) := r.stop.getD (0, 0)
  let x := if split then groupFields m r else r.ownFields
  leBytes 4 (reason * 2 ^ 16 + 1) ++
  leBytes 4 (at' r.inertForced 10 + at' (m.form == 2) 9 + at' split 8 + at' x.trunc 7 + at' r.odd 6 +
    at' r.mismatch 5 + at' r.ordered 4 + at' x.nonfinite 3 + hit) ++
  leBytes 4 r.model ++ leBytes 4 r.done.toNat ++ leBytes 4 (swpStart r.sweepBlk) ++ leBytes 4 bestRep ++
  leBytes 8 bestE.toNat ++ leBytes 4 (r.bestSweep.getD bestRep 0).toNat ++ leBytes 4 r.rounds.toNat ++
  leBytes 8 (modelOffset m) ++ leBytes 8 r.seed.toNat ++ leBytes 8 x.conflicts ++
  leBytes 8 x.full ++ leBytes 8 x.delta ++ leBytes 8 steps ++
  leBytes 8 r.startTime.toNat ++ leBytes 8 endTime ++
  leBytes 8 r.split.late.toNat ++ leBytes 4 (if split then m.rowFirst else 0) ++
  leBytes 4 (if split then m.rowCount else m.n) ++ leBytes 4 (repIndex r.repBlk * 2 ^ 16 + repDevices r.repBlk) ++
  leBytes 4 0

/-- Entry `a` of the replica table. -/
def replicaEntry (r : Run) (a : Nat) : List Byte :=
  leBytes 8 (r.energy.getD a 0).toNat ++ leBytes 8 (r.bestE.getD a 0).toNat ++ leBytes 4 (r.bestSweep.getD a 0).toNat ++
  leBytes 4 (a / r.rungs * 2 ^ 10 + r.rung.getD a 0) ++ leBytes 4 (r.att.getD a 0).toNat ++ leBytes 4 (r.acc.getD a 0).toNat

/-- The rung table's entries. -/
def rungEntries (r : Run) : List Byte :=
  ((List.range (r.rungs - 1)).map fun k => leBytes 4 (r.rungAtt.getD k 0).toNat ++ leBytes 4 (r.rungAcc.getD k 0).toNat).flatten

/-- The whole area. -/
def resultArea (m : Model) (r : Run) (bestRep : Nat) (bestE : Quad) (steps endTime : Nat) : List Byte :=
  let mode := repSpins r.repBlk
  let best := (List.range r.reps).flatMap fun a => stateOut m (r.best.getD a 0)
  resultHeader m r bestRep bestE steps endTime ++ ((List.range r.reps).flatMap (replicaEntry r)) ++
  slice 0 (rungTableBytes r.rungs) (rungEntries r) ++
  (if mode = 0 then [] else if mode = 1 then stateOut m (r.best.getD bestRep 0)
   else if mode = 2 then best else best ++ (r.spins.flatMap fun sp => stateOut m sp))

/-- The area with the fields of R355 read as 0 (R366): STEPS, START_TIME, END_TIME, LATE_TURNS, MODEL_ID. -/
def resultMasked (a : List Byte) : List Byte :=
  patchAt (patchAt a 0x50 (List.replicate 32 0)) 0x8 (leBytes 4 0)

/-- STEPS: those of the segments before, and a free number for this one (R390, log 9). -/
def runSteps (r : Run) (s : State) : Nat × State :=
  let (n, s) := freshBelow 0 s
  ((r.steps.toNat + n) % 2 ^ 64, s)

/-- A decided run whose copies are done: result area, digest record, completion (R158, R299, R334, R375). -/
def finishRun (c : Cmd) (m : Model) (r : Run) (d : Decision) (s : State) : State :=
  let host := repHost r.repBlk
  let x := que s c.queue
  let (steps, s) := runSteps r s
  let (rep, e) := (runBestOf m.form r.bestE).getD
    (Config.nanBestReplica r.seed r.bestE % max r.reps 1, Config.nanBestEnergy r.seed r.bestE)
  let area := resultArea m r rep e steps r.endTime.toNat
  let fail := fun (e : AccErr) (s : State) => settle [(c.key, { e.dec with status := 5, detail := 0x10, time := d.time })] s
  match spaceWrite host x.ats (cmdView s c) (repResult r.repBlk) area s with
  | (.error e, s) => fail e s
  | (.ok _, s) =>
    if !r.digest then settle [(c.key, d)] s
    else
      let split := decide (1 < r.split.devices)
      let rec' := digestRecord 1 r.settings (if r.ordered then 0 else c.freePoint) false split c.key.seq r.ckpts.toNat
        r.seed r.ls c.retryWaits.toNat (maskOf c.engines)
        c.spares m.digest r.inputDigest r.chain
        (digOf (chunkedDigest (resultMasked area)))
      match spaceWrite host x.ats (cmdView s c) (repResult r.repBlk + ceilDiv (resultSize r.repBlk m.rowCount) 64 * 64) rec' s with
      | (.error e, s) => fail e s
      | (.ok _, s) => settle [(c.key, d)] { s with det := { s.det with records := s.det.records + 1 } }

/-! ## The save area (R387, R388) -/

/-- Bytes of the flip-list counts. -/
def countBytes (m : Model) (reps : Nat) : Nat := ceilDiv (4 * nColours m * ceilDiv reps 512) 64 * 64

/-- Size of a save area. -/
def saveSize (m : Model) (reps : Nat) (workspace : Bool) : Nat :=
  0x3600 + 32 * reps + countBytes m reps + 2 * reps * stateBytes m.n + (if descDelta m.desc then 4 * m.n * reps else 0) +
  (if workspace then 68 * m.n * ceilDiv reps 512 else 0)

/-- Flip-list entries of a tile, each class from 68·START_c on. -/
def listArea (m : Model) (r : Run) (tile : Nat) : List Byte :=
  (List.range (nColours m)).flatMap fun c =>
    let (st, e, _) := classSpan m c
    slice 0 (68 * (e - st)) ((flipList r c tile).entries.flatMap fun p => leBytes 4 p.1 ++ leBytes 64 p.2)

/-- The sections from 0x100 on. -/
def saveBody (m : Model) (r : Run) : List Byte :=
  slice 0 128 r.repBlk ++ slice 0 1152 r.sweepBlk ++ slice 0 4096 (r.ladder.map fun t => leBytes 4 t.toNat).flatten ++
  slice 0 8192 (rungEntries r) ++
  ((List.range r.reps).flatMap fun a =>
    leBytes 8 (r.energy.getD a 0).toNat ++ leBytes 8 (r.bestE.getD a 0).toNat ++
    leBytes 4 (r.bestSweep.getD a 0).toNat ++ leBytes 4 (r.rung.getD a 0) ++ leBytes 4 (r.att.getD a 0).toNat ++
    leBytes 4 (r.acc.getD a 0).toNat) ++
  slice 0 (countBytes m r.reps) ((List.range (nColours m)).flatMap fun c => (List.range r.tiles).flatMap fun t =>
    leBytes 4 (flipList r c t).entries.length) ++
  (let own := (r.spins.flatMap fun sp => leBytes (stateBytes m.n) sp) ++
      (r.best.flatMap fun sp => leBytes (stateBytes m.n) sp) ++
      (if descDelta m.desc then (Tab.window 0 r.fields 0 (m.n * r.reps)).flatMap (fun w => leBytes 4 w.toNat) else []) ++
      (if r.workspace = [] then [] else (List.range r.tiles).flatMap (listArea m r))
   ((List.range own.length).zip own).map fun p =>
      p.2 ^^^ Config.saveMask (0x3600 + 32 * r.reps + countBytes m r.reps + p.1))

/-- The save header up to SAVE_DIGEST. -/
def saveHeader (m : Model) (r : Run) (steps : Nat) : List Byte :=
  let last := decide (r.cls = nColours m)
  leBytes 4 (2 * 2 ^ 16 + 1) ++ leBytes 4 r.settings.toNat ++ leBytes 4 ((if last then 0 else r.cls) * 2 ^ 16) ++
  leBytes 4 r.sweep ++ leBytes 8 r.seed.toNat ++ digestBytes m.digest ++ leBytes 4 r.stall.toNat ++
  leBytes 4 r.rounds.toNat ++ leBytes 8 r.full.toNat ++ leBytes 8 r.delta.toNat ++ leBytes 8 r.conflicts.toNat ++
  leBytes 8 steps ++ leBytes 8 r.startTime.toNat ++
  leBytes 4 (at' r.nonfinite 5 + at' r.digest 4 + at' r.inertForced 0 + at' r.odd 1 + at' r.mismatch 2 + at' r.trunc 3) ++
  leBytes 4 r.ckpts.toNat ++ leBytes 8 (saveSize m r.reps (r.workspace != [])) ++ leBytes 4 r.interval ++ leBytes 4 0 ++
  leBytes 32 r.valid ++ digestBytes (if r.digest then r.chain else 0) ++
  digestBytes (if r.digest then r.inputDigest else 0)

/-- SAVE_DIGEST of a header and the bytes after it. -/
def saveDigest (h body : List Byte) : List Byte := sha256 (h ++ chunkedDigest body)

/-- The whole area. -/
def saveArea (m : Model) (r : Run) (steps : Nat) : List Byte :=
  let h := saveHeader m r steps
  let b := saveBody m r
  h ++ saveDigest h b ++ b

/-- A paused run writes its save area in the address space of the PAUSE's queue, and completes (R383 to R385). -/
def finishPause (c : Cmd) (m : Model) (r : Run) (p : PauseReq) (d : Decision) (s : State) : State :=
  let (steps, s) := runSteps r s
  let r := copyAll r
  match queWrite p.byQueue.toNat p.area.toNat (saveArea m r steps) s with
  | (.ok _, s) => settle [(c.key, { d with status := 0x0C, detail := 1 })] s
  | (.error e, s) => settle [(c.key, { e.dec with status := 5, detail := 0x10, time := d.time })] s

/-- A run rebuilt from a save area whose checks have passed (R390). -/
def restoreRun (m : Model) (modelId : Nat) (a : List Byte) (ordered : Bool) (workspace : List Nat) : Run :=
  let rep := slice 0x100 128 a
  let n := fld (leAt a 0x184 4) 6 0
  let swp := slice 0x180 (128 + 16 * n) a
  let reps := repN rep
  let tiles := ceilDiv reps 512
  let rungs := repRungs rep
  let recO := fun k => 0x3600 + 32 * k
  let cntO := 0x3600 + 32 * reps
  let ownO := cntO + countBytes m reps
  let own := ((List.range (a.length - ownO)).zip (a.drop ownO)).map fun p => p.2 ^^^ Config.saveMask (ownO + p.1)
  let sz := stateBytes m.n
  let fO := 2 * reps * sz
  let lO := fO + (if descDelta m.desc then 4 * m.n * reps else 0)
  let cls := leAt a 0xA 2
  let flags := leAt a 0x68 4
  let done := leAt a 0xC 4 - swpStart swp
  let cnt := fun c t => leAt a (cntO + 4 * (c * tiles + t)) 4
  let stamp := fun c => if c < cls then nColours m + c + 1 else c + 1
  let list := fun c t => (List.range (cnt c t)).map fun j =>
    let o := lO + 68 * (t * m.n + (classSpan m c).1 + j)
    (leAt own o 4, leAt own (o + 4) 64)
  let took := fun c => decide (c < cls) || decide (0 < done)
  { model := modelId, sweepBlk := swp, repBlk := rep
    ladder := (List.range rungs).map fun k => BitVec.ofNat 32 (leAt a (0x600 + 4 * k) 4)
    seed := BitVec.ofNat 64 (leAt a 0x10 8), ordered := ordered, digest := bit flags 4, interval := leAt a 0x78 4
    settings := BitVec.ofNat 32 (leAt a 4 4), started := false, resumed := true
    spins := (List.range reps).map fun k => leAt own (k * sz) sz
    best := (List.range reps).map fun k => leAt own ((reps + k) * sz) sz
    energy := (List.range reps).map fun k => BitVec.ofNat 64 (leAt a (recO k) 8)
    bestE := (List.range reps).map fun k => BitVec.ofNat 64 (leAt a (recO k + 8) 8)
    bestSweep := (List.range reps).map fun k => BitVec.ofNat 32 (leAt a (recO k + 16) 4)
    rung := (List.range reps).map fun k => leAt a (recO k + 20) 4
    att := (List.range reps).map fun k => BitVec.ofNat 32 (leAt a (recO k + 24) 4)
    acc := (List.range reps).map fun k => BitVec.ofNat 32 (leAt a (recO k + 28) 4)
    rungAtt := (List.range (rungs - 1)).map fun k => BitVec.ofNat 32 (leAt a (0x1600 + 8 * k) 4)
    rungAcc := (List.range (rungs - 1)).map fun k => BitVec.ofNat 32 (leAt a (0x1604 + 8 * k) 4)
    fields := if descDelta m.desc then mkTab 0 0 ((List.range (m.n * reps)).map fun k =>
      BitVec.ofNat 32 (leAt own (fO + 4 * k) 4)) else []
    valid := leAt a 0x80 32
    lists := if workspace = [] then [] else
      (List.range (nColours m)).foldl (fun t c => if took c then
        (List.range tiles).foldl (fun t tile =>
          Tab.put FlipList.init t (c * 16 + tile) { stamp := stamp c, entries := list c tile }) t else t) []
    cls := cls, sweep := leAt a 0xC 4, turnNo := nColours m + cls, done := BitVec.ofNat 32 done
    full := BitVec.ofNat 64 (leAt a 0x40 8), delta := BitVec.ofNat 64 (leAt a 0x48 8)
    conflicts := BitVec.ofNat 64 (leAt a 0x50 8), steps := BitVec.ofNat 64 (leAt a 0x58 8), rounds := BitVec.ofNat 32 (leAt a 0x3C 4)
    stall := BitVec.ofNat 32 (leAt a 0x38 4)
    runBest := runBestBits m.form ((List.range reps).map fun k => BitVec.ofNat 64 (leAt a (recO k + 8) 8))
    inertForced := bit flags 0, odd := bit flags 1, mismatch := bit flags 2, trunc := bit flags 3
    nonfinite := bit flags 5, startTime := BitVec.ofNat 64 (leAt a 0x60 8), endTime := 0, copies := [], stop := none
    ckpts := BitVec.ofNat 32 (leAt a 0x6C 4), chain := digOf (slice 0xA0 32 a), inputDigest := digOf (slice 0xC0 32 a)
    workspace := workspace, ls := LockStep.off
    split := { devices := 1, index := 0, group := 0, lag := 0, digest := 0, joined := [], complete := true
               spinsGot := [], spinsLate := [], energies := [], late := 0, sentPartial := none } }

/-! ## The checks of the replica block (R157): every detail that fails -/

/-- Host addresses on a queue that is not bound to PCIe are refused 0x44 together with the block's own details, since the
block is read in ADMITTING only (R309): the model's choice of a stage (log 62). -/
def replicaDetails (m : Model) (addr : Nat) (b : List Byte) (seed : Nat) (digest pcie : Bool)
    (ladder : Option (List Word)) : List Nat :=
  let n := repN b
  let k := repRungs b
  let d := repDevices b
  let falls := match ladder with
    | some l => (List.range (l.length - 1)).any fun i => decide ((l.getD (i + 1) 0).toNat < (l.getD i 0).toNat)
    | none => false
  let size := resultSize b m.rowCount
  let need := if digest then ceilDiv size 64 * 64 + 256 else size
  let resv := !within (leAt b 0 4) 0xFFFF || !within (leAt b 4 4) 0x3FFF || !within (leAt b 8 4) 0x7FF ||
    !within (leAt b 0xC 4) 0x3FFFF || !within (leAt b 0x10 4) 0x7F || !within (leAt b 0x40 4) 0x7F007F ||
    !allZero (slice 0x48 0x38 b) || decide (addr % 64 ≠ 0) || decide (repLadder b % 64 ≠ 0) ||
    decide (repInitAddr b % 64 ≠ 0) || decide (repResult b % 64 ≠ 0)
  (if leAt b 0 2 ≠ 1 then [0x10] else []) ++
  (if n = 0 ∨ 8192 < n ∨ descReps m.desc < n then [0x11] else []) ++
  (if k = 0 ∨ 1024 < k ∨ n % k ≠ 0 then [0x12] else []) ++
  (if falls then [0x13] else []) ++
  (if repInit b = 3 ∨ (repInit b = 0 ∧ repInitAddr b ≠ 0) then [0x14] else []) ++
  (if repSize b < need then [0x15] else []) ++
  (if d = 0 ∨ 64 < d ∨ d ≤ repIndex b ∨ (d = 1 ∧ repLag b ≠ 0) ∨ (1 < d ∧ repLag b ≠ 1 ∧ repLag b ≠ 2) then [0x16]
   else []) ++
  (if 1 < d ∧ seed = 0 then [0x17] else []) ++
  (if decide (1 < d) != m.band then [0x19] else []) ++
  (if 2 ≤ fld (leAt b 0xC 4) 17 16 then [0x1A] else []) ++
  (if resv then [0x1B] else []) ++
  (if repHost b ∧ !pcie then [0x44] else [])

end Sys2Proof.Machine
end

