-- ==== Sys2Proof/Machine/Blocks.lean ====
section
/-! DEFINITION. The blocks that a command names, read once when it enters ADMITTING, and its patch list (R309 to R311,
log 19). -/

namespace Sys2Proof.Machine

/-! ## Blocks of a command -/

/-- The numbers under which Quill keeps its copies. -/
def blkQueue : Nat := 0
def blkSweep : Nat := 1
def blkReplica : Nat := 2
def blkParam : Nat := 3
def blkModel : Nat := 4
def blkLadder : Nat := 5
def blkImage : Nat := 6
def blkPreload : Nat := 7
def blkShare : Nat := 8
def blkReduce : Nat := 9
def blkSave : Nat := 10
def blkMap : Nat := 11

/-- Quill's copy of a block, empty if it was not read. -/
def Cmd.block (c : Cmd) (n : Nat) : List Byte := ((c.blocks.find? fun b => b.1 == n).map (·.2)).getD []

def Cmd.setBlock (c : Cmd) (n : Nat) (bs : List Byte) : Cmd :=
  { c with blocks := (c.blocks.filter fun b => b.1 != n) ++ [(n, bs)] }

/-- The blocks an opcode names itself: number, address, length. -/
def topBlocks (c : Cmd) : List (Nat × Nat × Nat) :=
  let op := c.opcode
  if op = 1 then [(blkQueue, c.p1, 64)]
  else if op = 4 ∧ !bit c.p0 10 then [(blkMap, c.p2, 4 * fld c.p1 44 32)]
  else if op = 0x10 then [(blkModel, c.p1, 128)]
  else if op = 0x12 then [(blkSweep, c.p1, 128), (blkReplica, c.p2, 128)]
  else if op = 0x13 then [(blkImage, c.p1, 64), (blkParam, c.p2, 64)]
  else if op = 0x15 then [(blkSave, c.p1, 256)]
  else []

/-- Reads blocks in order up to the first that cannot be read. -/
def readBlocks (k : Cmd) : List (Nat × Nat × Nat) → Cmd → State → Except AccErr Cmd × State
  | [], c, s => (.ok c, s)
  | (n, a, len) :: rest, c, s =>
    match cmdRead k a len s with
    | (.ok bs, s) => readBlocks k rest (c.setBlock n bs) s
    | (.error e, s) => (.error e, s)

/-! ## The patch list -/

/-- A patch entry: source, size, target, offset. -/
structure PatchEntry where
  src : Nat
  size : Nat
  target : Nat
  off : Nat
deriving DecidableEq, Repr

def patchEntry (bs : List Byte) (e : Nat) : PatchEntry :=
  let w := leAt bs (0x18 + 16 * e) 4
  { src := leAt bs (0x10 + 16 * e) 8, size := if bit w 20 then 8 else 4, target := fld w 19 16, off := fld w 15 0 }

/-- Bytes of a target that the opcode has; the command's patchable fields are P0 and P1 to P3 (R311). -/
def patchOk (op : Nat) (p : PatchEntry) : Bool :=
  p.off % p.size == 0 &&
  (if p.target = 0 then (p.off == 0xC && p.size == 4) || (decide (0x28 ≤ p.off) && decide (p.off + p.size ≤ 0x40))
   else if op = 0x12 ∧ p.target = 1 then decide (p.off + p.size ≤ 0x480)
   else if op = 0x12 ∧ p.target = 2 then decide (p.off + p.size ≤ 128)
   else if op = 0x13 ∧ p.target = 3 then decide (p.off + p.size ≤ 64)
   else if op = 0x10 ∧ p.target = 4 then decide (p.off + p.size ≤ 128)
   else false)

/-- Does a list of `n` entries keep R310? -/
def patchListOk (op n : Nat) (bs : List Byte) : Bool :=
  allZero (slice 4 12 bs) &&
    (List.range n).all fun e => within (leAt bs (0x18 + 16 * e) 4) 0x1FFFFF && leAt bs (0x1C + 16 * e) 4 == 0 &&
      patchOk op (patchEntry bs e)

/-- Why patching stops: the list is refused with 0x45, or a read failed. -/
inductive PatchFail where
  | invalid
  | unread (e : AccErr)

/-- The entries of the list, checked. -/
def readPatchList (c : Cmd) (s : State) : Except PatchFail (List PatchEntry) × State :=
  let a := c.patchAddr
  if a = 0 then (.ok [], s)
  else if a % 64 ≠ 0 then (.error .invalid, s)
  else
    match cmdRead c a 16 s with
    | (.error e, s) => (.error (.unread e), s)
    | (.ok h, s) =>
      let n := leAt h 0 4
      if n = 0 ∨ 8 < n then (.error .invalid, s)
      else
        match cmdRead c (a + 16) (16 * n) s with
        | (.error e, s) => (.error (.unread e), s)
        | (.ok es, s) =>
          let bs := h ++ es
          if patchListOk c.opcode n bs then (.ok ((List.range n).map (patchEntry bs)), s) else (.error .invalid, s)

/-- One entry applied to the command or to a block. -/
def applyPatch (c : Cmd) (p : PatchEntry) (v : List Byte) : Cmd :=
  if p.target = 0 then { c with raw := patchAt c.raw p.off v }
  else c.setBlock p.target (patchAt (slice 0 (max (c.block p.target).length (p.off + p.size)) (c.block p.target)) p.off v)

/-- Entries applied in order, each source read as it stands at that moment. -/
def applyPatches : List PatchEntry → Cmd → State → Except AccErr Cmd × State
  | [], c, s => (.ok c, s)
  | p :: ps, c, s =>
    match cmdRead c p.src p.size s with
    | (.error e, s) => (.error e, s)
    | (.ok v, s) => applyPatches ps (applyPatch c p v) s

/-! ## Blocks named by blocks -/

/-- Keeps the first failed read of a stage for the checks of that stage (R562). -/
def noteFail (c : Cmd) (stage : Nat) (e : AccErr) : Cmd :=
  if c.blockFail.isSome then c else { c with blockFail := some (stage, e.dec) }

/-- A further block read in a given space. -/
def readDep (c : Cmd) (host : Bool) (stage n a len : Nat) (join : Bool) (s : State) : Cmd × State :=
  if len = 0 ∨ c.blockFail.isSome then (c, s) else
  let x := que s c.queue
  match spaceRead host x.ats (cmdView s c) a len s with
  | (.error e, s) => (noteFail c stage e, s)
  | (.ok bs, s) => (c.setBlock n (if join then
    (c.block n).take (if n = blkSweep then 128 else if n = blkSave then 256 else 64) ++ bs else bs), s)

/-- Does a replica block name a ladder table validly? -/
def ladderNamed (pcie : Bool) (b : List Byte) : Bool :=
  decide (repRungs b ≤ 1024) && decide (repLadder b % 64 = 0) && decide (fld (leAt b 0xC 4) 17 16 < 2) &&
    (pcie || !repHost b)

/-- The segments of a sweep block, then the ladder, read where the blocks name them validly. -/
def annealDeps (c : Cmd) (s : State) : Cmd × State :=
  let pcie := (que s c.queue).onPcie
  let n := swpSegs (c.block blkSweep)
  let (c, s) := readDep c pcie blkSweep blkSweep (c.p1 + 0x80) (if n ≤ 64 then 16 * n else 0) true s
  let b := c.block blkReplica
  readDep c (repHost b) blkReplica blkLadder (repLadder b) (if ladderNamed pcie b then 4 * repRungs b else 0) false s

/-- The instructions and tables of a program image (R236): tables lie at device addresses. A table is read as its header
names it, at whatever address and with whatever count, because its entries may break a rule of a lower detail (R562). -/
def programDeps (c : Cmd) (s : State) : Cmd × State :=
  let h := c.block blkImage
  let n := fld (leAt h 4 4) 12 0
  let cnt := leAt h 0xC 4
  let (c, s) := readDep c (que s c.queue).onPcie blkImage blkImage (c.p1 + 0x40) (if n ≤ 4096 then 16 * n else 0) true s
  let (c, s) := readDep c false blkImage blkPreload (leAt h 0x20 8) (32 * fld cnt 23 16) false s
  let (c, s) := readDep c false blkImage blkShare (leAt h 0x28 8) (16 * fld cnt 15 8) false s
  readDep c false blkImage blkReduce (leAt h 0x30 8) (16 * fld cnt 7 0) false s

/-- The rest of a save area whose version and state are right (R389 order 1). -/
def saveDeps (c : Cmd) (s : State) : Cmd × State :=
  let h := c.block blkSave
  let n := leAt h 0x70 8
  if leAt h 0 2 = 1 ∧ leAt h 2 1 = 2 ∧ 256 < n then
    readDep c (que s c.queue).onPcie blkSave blkSave (c.p1 + 256) (n - 256) true s
  else (c, s)

def readDeps (c : Cmd) (s : State) : Cmd × State :=
  if c.opcode = 0x12 then annealDeps c s
  else if c.opcode = 0x13 then programDeps c s
  else if c.opcode = 0x15 then saveDeps c s
  else (c, s)

/-- How reading ends: the command with its blocks, a refusal, or a failed read. -/
inductive Gather where
  | ready (c : Cmd)
  | refused (detail : Nat)
  | failed (c : Cmd) (e : AccErr)

/-- A copy of a block made `len` bytes long: what Quill did not read and a patched size now names is open (log 19). -/
def padBlock (n len : Nat) (c : Cmd) (s : State) : Cmd × State :=
  let b := c.block n
  if len ≤ b.length then (c, s)
  else (c.setBlock n (b ++ (List.range (len - b.length)).map fun i => Config.freeByte s.free i), { s with free := s.free + 1 })

/-- The patches of a list are applied, in its order, to what was read (R311). A RUN_ANNEAL's segments and ladder are those
that its unpatched blocks name; a patch that makes either longer leaves the rest open. -/
def patchAll (ps : List PatchEntry) (c : Cmd) (s : State) : Except AccErr Cmd × State :=
  let anneal := c.opcode == 0x12 && !ps.isEmpty && c.blockFail.isNone
  let (c, s) := if anneal then padBlock blkSweep 0x480 c s else (c, s)
  match applyPatches ps c s with
  | (.error e, s) => (.error e, s)
  | (.ok c, s) =>
    let b := c.block blkReplica
    if anneal && ladderNamed (que s c.queue).onPcie b then
      let (c, s) := padBlock blkLadder (4 * repRungs b) c s
      (.ok c, s)
    else (.ok c, s)

/-- What the patched command itself breaks (R308, R312); a COPY has at least one byte (R303), refused as a field that may
not be 0 (log 35). -/
def patchedDetail (s : State) (c : Cmd) : Option Nat :=
  if !fieldsOk c || (c.opcode == 0x18 && c.p3 == 0) then some 0x41
  else if c.opcode = 0x18 ∧ c.p0 % 4 ≠ 0 ∧ !(que s c.queue).onPcie then some 0x44
  else none

/-- All reads and patches of a command in ADMITTING: every block it names, then the patch list in its order (R309 to
R311). -/
def gather (c : Cmd) (s : State) : Gather × State :=
  match readPatchList c s with
  | (.error .invalid, s) => (.refused 0x45, s)
  | (.error (.unread e), s) => (.failed c e, s)
  | (.ok ps, s) =>
    match readBlocks c (topBlocks c) c s with
    | (.error e, s) => (.failed c e, s)
    | (.ok c, s) =>
      let (c, s) := readDeps c s
      match patchAll ps c s with
      | (.error e, s) => (.failed c e, s)
      | (.ok c, s) =>
        match patchedDetail s c with
        | some d => (.refused d, s)
        | none => (.ready c, s)

/-! ## ADMISSION -/

/-- The lowest valid lock-step entry that names a queue (R376); one that names queue 0 is never applied (R394). -/
def lsEntryFor (s : State) (q : Nat) : Option (Nat × Word) :=
  ((List.range 16).map fun e => (e, Tab.get 0x00800000 s.det.lsCfg e)).find? fun p =>
    q != 0 && p.2.getLsbD 31 && p.2.toNat % 65536 == q

/-- What a command takes as it enters ADMITTING (R251, R326, R352, R393, R376). -/
def enterAdmitting (c : Cmd) (s : State) : Cmd :=
  { c with
    st := .admitting, timeout := min (que s c.queue).timeoutMs.toNat s.fe.timeoutMs.toNat
    freePoint := if c.freeMode then freePointWord s else 0, interval := s.det.ckpt.toNat
    lsEntry := lsEntryFor s c.queue, view := s.mem.vmap }

/-- Quill takes a command into ADMITTING: its blocks are read and patched. A MODEL_LOAD whose read failed still writes
its report (R561), also where the read is of its patch list; one that ends before it reserves anything for another reason
writes none: the model's choice, R90 having no status for it (log 63). -/
def admitCmd (c : Cmd) (s : State) : State :=
  let c := enterAdmitting c s
  let put := fun (c' : Cmd) (s : State) => updCmd c.key (fun _ => c') s
  match gather c (put c s) with
  | (.ready c', s) => put c' s
  | (.refused d, s) => refuse c.key d s
  | (.failed c' e, s) =>
    if c.opcode = 0x10 then put { c' with blockFail := some (blkModel, e.dec) } s
    else complete c.key e.dec s

/-- ADMISSION. -/
def execAdmission (s : State) : Host.Outcome State Fault Refusal :=
  .next (if isUp s then (match nextToAdmit s with | some c => admitCmd c s | none => s) else s)

/-- The command in ADMITTING under a key, if it has this opcode. -/
def admitting (s : State) (k : Key) (op : Nat) : Option Cmd :=
  match findCmd s k with
  | some c => if c.st = .admitting ∧ c.decided.isNone ∧ c.opcode = op ∧ isUp s then some c else none
  | none => none

/-- A running command under a key. -/
def running (s : State) (k : Key) : Option Cmd :=
  match findCmd s k with
  | some c => if c.st = .running ∧ isUp s then some c else none
  | none => none

end Sys2Proof.Machine
end

