-- ==== Sys2Proof/Machine/Trng.lean ====
section
/-! DEFINITION. The true random number generator (11): health tests, conditioning, states, the consumers' ports, the
known-answer test, and the commands of the family. -/

namespace Sys2Proof.Machine

/-! ## Health tests (R426) -/

def rctCutoff : Nat := 81
def aptCutoff : Nat := 435
def aptWindow : Nat := 512

/-- One sample through one cell's tests: the tests after it, whether RCT failed, whether APT failed. -/
def cellSample (t : CellTest) (b : Bool) : CellTest × Bool × Bool :=
  let run := if t.last == some b then t.run + 1 else 1
  let first := if t.pos = 0 then b else t.first
  let count := if t.pos = 0 then 1 else if b == first then t.count + 1 else t.count
  ({ last := some b, run := run, first := first, pos := (t.pos + 1) % aptWindow, count := count },
   decide (run = rctCutoff), decide (count = aptCutoff) && b == first)

/-- The first failing sample of a period stops all cells: the cells' tests so far, and the cells that failed RCT and
APT at that sample. Sample `n` of cell `c` is bit `8n + c` of the raw block (R424). -/
def periodTests (raw : BitVec 1024) : Nat → Nat → List CellTest → List CellTest × Option (List Nat × List Nat)
  | 0, _, cells => (cells, none)
  | k + 1, n, cells =>
    let out := ((List.range 8).zip cells).map fun p => (p.1, cellSample p.2 (raw.getLsbD (8 * n + p.1)))
    let rct := (out.filter fun p => p.2.2.1).map Prod.fst
    let apt := (out.filter fun p => p.2.2.2).map Prod.fst
    let cells' := out.map fun p => p.2.1
    if rct = [] ∧ apt = [] then periodTests raw k (n + 1) cells' else (cells', some (rct, apt))

/-! ## Failures and restarts (R429 to R431) -/

/-- Everything buffered, held or being formed is discarded (R430 steps 1 and 2). -/
def rngFlush (forming : Nat) (s : State) : State :=
  let r := s.rng
  { s with rng := { r with
      buffer := [], taken := 0, heldBlocks := []
      discards := satAdd r.discards (r.buffer.length + r.heldBlocks.length + forming) } }

/-- A restart begins: all cells start afresh (R428). -/
def rngRestart (s : State) : State :=
  let r := s.rng
  { s with rng := { r with
      st := .restart, cells := List.replicate 8 CellTest.init, periods := 0, clean := 0
      restarts := satInc r.restarts } }

/-! ## The software port's answers (R437, R438) -/

/-- The latch of a path. -/
def rngLatch (p : Path) (r : RngSt) : Word := match p with | .bar0 => r.latchBar0 | .localPort => r.latchLocal
def rngSetLatch (p : Path) (w : Word) (s : State) : State :=
  match p with
  | .bar0 => { s with rng := { s.rng with latchBar0 := w } }
  | .localPort => { s with rng := { s.rng with latchLocal := w } }

/-- A read of RNG_SW_DATA: the latch, cleared. -/
def rngSwData (p : Path) (s : State) : Word × State := (rngLatch p s.rng, rngSetLatch p 0 s)

/-- A read of RNG_SW_STAT is answered with a status; one of 8 bytes reads the latch beside it (R437). -/
def swAnswer (p : Path) (bytes : Nat) (status : Word) (s : State) : State :=
  if bytes = 8 then emit (.readData p (rngLatch p s.rng ++ status)) (rngSetLatch p 0 s)
  else emit (.readData p (status.setWidth 64)) s

/-- VALID: a word goes into the path's latch. -/
def swValid (p : Path) (bytes : Nat) (w : Word) (s : State) : State := swAnswer p bytes 0 (rngSetLatch p w s)

/-- NOT_READY, counted. -/
def swNotReady (p : Path) (bytes : Nat) (s : State) : State :=
  swAnswer p bytes 0x40000000
    (rngFlag 5 (rngSetLatch p 0 { s with rng := { s.rng with swNotReady := satInc s.rng.swNotReady } }))

/-- FAILED. -/
def swFailed (p : Path) (bytes : Nat) (s : State) : State := swAnswer p bytes 0x80000000 (rngSetLatch p 0 s)

/-- Software reads that have waited 16 µs without a word are NOT_READY. -/
def rngTick (s : State) : State :=
  let late := s.rng.swWait.filter fun w => decide (w.2.2 + 1600 ≤ s.now)
  late.foldl (fun st w => swNotReady w.1 w.2.1 st)
    { s with rng := { s.rng with swWait := s.rng.swWait.filter fun w => !decide (w.2.2 + 1600 ≤ s.now) } }

/-- A tick of 10 ns, on an empty queue (log 2): time passes, and what waits for no command but only for time ends. -/
def tick (s : State) : State := rngTick { s with now := s.now + 1 }

/-- FATAL is entered: held requests are answered ERROR, held reads FAILED (R431, R433, R438). -/
def rngFatal (s : State) : State :=
  let r := s.rng
  let s := r.waiting.foldl (fun st p => emit (.rng p 2 0) st) { s with rng := { r with st := .fatal, waiting := [], swWait := [] } }
  let s := r.swWait.foldl (fun st w => swFailed w.1 w.2.1 st) s
  logEvent 0x31 5 [r.cellFail.toNat, r.discards.toNat] (rngFlag 1 s)

/-- A health failure in test `test` (0 RCT, 1 APT, 2 known answer) of some cells (R430, R431): `failed` says whether it
makes a restart a failed one. -/
def rngFailure (test forming : Nat) (failed : Bool) (cells : List Nat) (s : State) : State :=
  let s := rngFlush forming s
  let r := s.rng
  let base := if 1024 ≤ r.clean then 0 else r.failRun
  let run := if failed then base + 1 else base
  let s := rngFlag 0 { s with rng := { r with cellFail := BitVec.ofNat 8 (ofBits cells), failRun := run } }
  let s := logEvent 0x30 5 [test, ofBits cells, run] s
  if 4 ≤ run then rngFatal s else rngRestart s

/-- A start-up test fails (R428, R429): in STARTUP it is no failed restart. -/
def startupFails (test forming : Nat) (cells : List Nat) (s : State) : State :=
  rngFailure test forming (decide (s.rng.st = .restart)) cells { s with rng := { s.rng with passed := false } }

/-! ## Words and ports (R425, R432, R433) -/

/-- Words that the buffer still holds. -/
def rngWords (r : RngSt) : Nat := 8 * r.buffer.length - r.taken

/-- The oldest word leaves the buffer. -/
def takeWord (s : State) : Option (Word × State) :=
  let r := s.rng
  match r.buffer with
  | [] => none
  | b :: rest =>
    let w := BitVec.ofNat 32 (b.toNat / 2 ^ (32 * r.taken))
    some (w, { s with rng :=
      if r.taken = 7 then { r with buffer := rest, taken := 0 } else { r with taken := r.taken + 1 } })

/-- A word goes to a private port; Quill keeps those of the seed port towards a seed (R436), the cipher block its own
towards a key (R264, R487). -/
def deliverWord (port : Nat) (w : Word) (s : State) : State :=
  let s := emit (.rng port 0 w) s
  if port = 2 then { s with rng := { s.rng with seedWords := s.rng.seedWords ++ [w] } }
  else if port = 1 then { s with rng := { s.rng with keyWords := s.rng.keyWords ++ [w] } }
  else s

/-- Held requests are served while words last, highest priority first; the software port's reads come last (R432). -/
def serveWaiting : Nat → State → State
  | 0, s => s
  | fuel + 1, s =>
    match takeWord s with
    | none => s
    | some (w, s') =>
      match ([0, 1, 2] : List Nat).find? fun p => p ∈ s.rng.waiting with
      | some p => serveWaiting fuel (deliverWord p w { s' with rng := { s'.rng with waiting := s'.rng.waiting.erase p } })
      | none =>
        match s.rng.swWait with
        | [] => s
        | (p, bytes, _) :: rest =>
          serveWaiting fuel (swValid p bytes w { s' with rng := { s'.rng with swWait := rest } })

/-- A request is held on a private port (R433). -/
def holdRequest (port : Nat) (s : State) : State :=
  if port ∈ s.rng.waiting then s else { s with rng := { s.rng with waiting := s.rng.waiting ++ [port] } }

/-- Up to `n` words out of the buffer. What is left there is wanted by no one with a better place (R432). -/
def takeUpTo : Nat → State → List Word × State
  | 0, s => ([], s)
  | n + 1, s =>
    match takeWord s with
    | none => ([], s)
    | some (w, s) => let r := takeUpTo n s; (w :: r.1, r.2)

/-- A consumer on a private port gathers `n` words beside those it has: all of them and what was left over, or those had so
far with its next request held. -/
def drawWords (port n : Nat) (had : List Word) (s : State) : (Option (List Word) × List Word) × State :=
  let r := if s.rng.st = .running then takeUpTo (n - had.length) s else ([], s)
  let all := had ++ r.1
  if n ≤ all.length then ((some (all.take n), all.drop n), r.2)
  else ((none, all), if s.rng.st = .startup ∨ s.rng.st = .fatal then r.2 else holdRequest port r.2)

/-- Quill draws a seed of two words, the first the low half (R436); none while they are not there. -/
def drawSeed (s : State) : Option Quad × State :=
  let r := drawWords 2 2 s.rng.seedWords s
  let s := { r.2 with rng := { r.2.rng with seedWords := r.1.2 } }
  (r.1.1.map fun ws => ws.getD 1 0 ++ ws.getD 0 0, s)

/-- A fresh key of 256 bits, first word lowest (R264, R487). -/
def drawKey (s : State) : Option (BitVec 256) × State :=
  let r := drawWords 1 8 s.rng.keyWords s
  let s := { r.2 with rng := { r.2.rng with keyWords := r.1.2 } }
  (r.1.1.map fun ws => BitVec.ofNat 256 (leNat (ws.flatMap fun w => leBytes 4 w.toNat)), s)

/-- A start-up test has passed (R428, R429). The next APT windows begin with the next used sample; a generator that passes
its power-on test has no failed restart to count (`clean` starts at its limit). -/
def startupPasses (s : State) : State :=
  let r := s.rng
  rngFlag 2 { s with rng := { r with
    st := .running, clean := if r.st = .startup then 1024 else 0, periods := 0, passed := true
    cells := r.cells.map fun t => { t with pos := 0, count := 0 } } }

/-- Four held blocks enter the buffer as far as it has room (R427). -/
def bufferBlocks (held : List Digest) (s : State) : State :=
  let r := s.rng
  let room := 64 - r.buffer.length
  { s with rng := { r with
      heldBlocks := [], buffer := r.buffer ++ held.take room
      blocks := r.blocks + BitVec.ofNat 64 (min room held.length) } }

/-- A generator that has not failed makes the blocks of a window while firmware waits at boot: its start-up test passes,
and the blocks that are still to come are free values (log 12). -/
def bootWindow (s : State) : State :=
  let s := match s.rng.st with
    | .running | .fatal => s
    | .kat => startupPasses (rngRestart s)
    | _ => startupPasses s
  let n := 4 - s.rng.heldBlocks.length
  bufferBlocks (s.rng.heldBlocks ++ (List.range n).map fun i => Config.freshKey (s.free + i))
    { s with free := s.free + n, rng := { s.rng with clean := s.rng.clean + n } }

/-- The key of a boot (R519, R563): eight words of the generator, which makes them first if it holds too few; none in
FATAL. -/
def bootDraw (s : State) : Option (BitVec 256) × State :=
  if s.rng.st = .fatal then (none, s)
  else
    let r := drawKey (if rngWords s.rng + s.rng.keyWords.length < 8 then bootWindow s else s)
    (r.1, serveWaiting (r.2.rng.waiting.length + r.2.rng.swWait.length) r.2)

/-! ## BLOCK_PERIOD (R424, R426, R427) -/

/-- A clean period's block is held; at the end of its APT window four blocks enter the buffer. -/
def rngBlock (raw : BitVec 1024) (cells : List CellTest) (s : State) : State :=
  let r := s.rng
  let held := r.heldBlocks ++ [digestOf (leBytes 128 raw.toNat)]
  let r := { r with cells := cells, clean := r.clean + 1 }
  if held.length < 4 then { s with rng := { r with heldBlocks := held } }
  else
    let s := bufferBlocks held { s with rng := r }
    serveWaiting (s.rng.waiting.length + s.rng.swWait.length) s

/-- Counts of failing tests. -/
def rngCount (rct apt : Nat) (s : State) : State :=
  { s with rng := { s.rng with rctFails := satAdd s.rng.rctFails rct, aptFails := satAdd s.rng.aptFails apt } }

/-- BLOCK_PERIOD: 128 samples of each cell. -/
def execBlockPeriod (raw : BitVec 1024) (s : State) : Host.Outcome State Fault Refusal :=
  .next (
    let r := s.rng
    match r.st with
    | .kat | .fatal => s
    | .running =>
      match periodTests raw 128 0 r.cells with
      | (cells, none) => rngBlock raw cells s
      | (_, some (rct, apt)) =>
        rngFailure (if rct = [] then 1 else 0) 1 (decide (r.clean < 1024)) (rct ++ apt)
          (rngCount rct.length apt.length s)
    | _ =>
      if 8 ≤ r.periods then s else
      match periodTests raw 128 0 r.cells with
      | (cells, none) => { s with rng := { r with cells := cells, periods := r.periods + 1 } }
      | (_, some (rct, apt)) =>
        startupFails (if rct = [] then 1 else 0) 0 (rct ++ apt) (rngCount rct.length apt.length s))

/-- STARTUP_TEST_END: step 3 of R428. -/
def execStartupTestEnd (katOk : Bool) (s : State) : Host.Outcome State Fault Refusal :=
  .next (
    let r := s.rng
    if (r.st = .startup ∨ r.st = .restart) ∧ 8 ≤ r.periods then
      if katOk then startupPasses s else startupFails 2 0 [] s
    else s)

/-- FAIL_RUN_CLEAR: 1,024 block periods have passed without failure (R431). -/
def execFailRunClear (s : State) : Host.Outcome State Fault Refusal :=
  .next (if s.rng.st = .running ∧ 1024 ≤ s.rng.clean then { s with rng := { s.rng with failRun := 0 } } else s)

/-! ## Requests (R433, R437, R438) -/

/-- RNG_REQUEST: one handshake on a private wire. -/
def execRngRequest (port : Fin 3) (s : State) : Host.Outcome State Fault Refusal :=
  .next (
    match s.rng.st with
    | .startup => emit (.rng port.val 1 0) s
    | .fatal => emit (.rng port.val 2 0) s
    | st =>
      match (if st = .running then takeWord s else none) with
      | some (w, s) => deliverWord port.val w s
      | none => { s with rng := { s.rng with waiting := s.rng.waiting ++ [port.val] } })

/-- A read of RNG_SW_STAT (R438): answered at once in STARTUP, in FATAL and while there are words; else it waits. -/
def rngSwRead (p : Path) (bytes : Nat) (s : State) : State :=
  match s.rng.st with
  | .startup => swNotReady p bytes s
  | .fatal => swFailed p bytes s
  | st =>
    match (if st = .running then takeWord s else none) with
    | some (w, s) => swValid p bytes w s
    | none => { s with rng := { s.rng with swWait := s.rng.swWait ++ [(p, bytes, s.now)] } }

/-- RNG_SW_STAT_READ: 4 bytes, or 8 with the word beside it (R437). -/
def execRngSwStatRead (p : Path) (bytes : Nat) (s : State) : Host.Outcome State Fault Refusal :=
  .next (if pathUp s p then rngSwRead p bytes s else s)

/-- RNG_SW_DATA_READ. -/
def execRngSwDataRead (p : Path) (s : State) : Host.Outcome State Fault Refusal :=
  .next (if !pathUp s p then s else
    let (w, s) := rngSwData p s
    emit (.readData p (w.setWidth 64)) s)

/-! ## The known-answer test (R439, R440) -/

/-- MODE = 1 without KAT_GO. -/
def rngKatEntry (p : Path) (len : BitVec 8) (s : State) : State :=
  match p with
  | .bar0 => rngFlag 6 s
  | .localPort =>
    if s.rng.st = .running then
      let s := rngFlush 1 s
      { s with rng := { s.rng with st := .kat, katLen := len, cells := List.replicate 8 CellTest.init } }
    else rngFlag 4 s

/-- MODE = 0. -/
def rngKatExit (p : Path) (len : BitVec 8) (s : State) : State :=
  match p with
  | .bar0 => rngFlag 6 s
  | .localPort =>
    let s := { s with rng := { s.rng with katLen := len } }
    if s.rng.st = .kat then rngRestart s else s

/-- KAT_GO in KAT: the first KAT_LEN input bytes are hashed. -/
def rngKatHash (len : BitVec 8) (s : State) : State :=
  let input := (Tab.getList 0 s.rng.katIn 0 32).flatMap fun w => leBytes 4 w.toNat
  let d := digestOf (input.take (min len.toNat 128))
  rngFlag 3 { s with rng := { s.rng with
    katLen := len, katOut := Tab.putList 0 [] 0 ((List.range 8).map fun k => BitVec.ofNat 32 (d.toNat / 2 ^ (32 * k))) } }

/-- MODE = 1 with KAT_GO: in KAT it hashes; elsewhere it is a write of MODE = 1 and the KAT_GO bit has no effect (log 45). -/
def rngKatGo (p : Path) (len : BitVec 8) (s : State) : State :=
  if p = .localPort ∧ s.rng.st = .kat then rngKatHash len s else rngKatEntry p len s

/-- KAT_ENTRY. -/
def execKatEntry (p : Path) (len : BitVec 8) (s : State) : Host.Outcome State Fault Refusal :=
  .next (if pathUp s p then rngKatEntry p len s else s)
/-- KAT_EXIT. -/
def execKatExit (p : Path) (len : BitVec 8) (s : State) : Host.Outcome State Fault Refusal :=
  .next (if pathUp s p then rngKatExit p len s else s)
/-- KAT_GO. -/
def execKatGo (p : Path) (len : BitVec 8) (s : State) : Host.Outcome State Fault Refusal :=
  .next (if pathUp s p then rngKatGo p len s else s)

/-- A write of RNG_CTRL (R441). One that leaves KAT with KAT_GO set hashes first, as each write of KAT_GO in KAT does
(R439; log 45). -/
def rngCtrlWrite (p : Path) (v : Word) (s : State) : State :=
  let len := BitVec.ofNat 8 (fld v.toNat 15 8)
  if !v.getLsbD 0 then
    rngKatExit p len (if p = .localPort ∧ s.rng.st = .kat ∧ v.getLsbD 16 = true then rngKatHash len s else s)
  else if v.getLsbD 16 then rngKatGo p len s
  else rngKatEntry p len s

end Sys2Proof.Machine
end

