-- ==== Sys2Proof/Machine/Runs.lean ====
section
/-! DEFINITION. Annealing runs as commands (03, 04, 09): RUN_ANNEAL and RESUME in admission, the start of a run, TURN,
SWEEP_BOUNDARY, BEST_STATE_COPY, and the split group's part in them. -/

namespace Sys2Proof.Machine

/-! ## Admission (R389, R562) -/

/-- The lowest of the details that fail. -/
def lowest : List Nat → Option Nat
  | [] => none
  | d :: ds => some (ds.foldl min d)

/-- The online logical engines. -/
def onlineEngines (s : State) : List Nat := (List.range 64).filter fun n => (physOf s n).isSome

/-- The engines of an annealing run (R316). -/
def runEngines (s : State) (free : Bool) : List Nat := if free then onlineEngines s else List.range 64

/-- The digest that split devices compare (R161): the sweep block and the replica block without its SPLIT_INDEX. -/
def splitDigest (swp rep : List Byte) : Digest :=
  digOf (chunkedDigest (swp ++ patchAt rep 0x40 (leBytes 4 (repDevices rep))))

def splitState (swp rep : List Byte) : SplitSt :=
  { devices := repDevices rep, index := repIndex rep, group := BitVec.ofNat 32 (repGroup rep), lag := repLag rep
    digest := splitDigest swp rep, joined := [], complete := decide (repDevices rep ≤ 1), spinsGot := []
    spinsLate := [], energies := [], late := 0, sentPartial := none }

/-- SPLIT_JOIN on every ACTIVE same-installation link (R484). -/
def sendJoins (p : SplitSt) (s : State) : State :=
  let near := ofBits (p.joined.map Prod.fst)
  (List.range 8).foldl (fun st l =>
    if (lnk st l).st == .active && (lnk st l).sameInst then
      kwSend l { ty := 7, vc := 0, w2 := p.group, w3 := BitVec.ofNat 32 p.index, body := digestBytes p.digest ++ leBytes 8 near } st
    else st) s

/-- The model a command uses, marked IN_USE (R87), and CONFLICT_TRUNC reported (R123). -/
def useModel (id : Nat) (s : State) : State :=
  let s := updMdl id (fun m => { m with st := .inUse, users := m.users + 1 }) s
  if (mdl s id).trunc then anlFlag 1 s else s

/-- The workspace's extents leave the pool (R108). -/
def takeWorkspace (n : Nat) (s : State) : List Nat × State :=
  let es := (freeExtents s).take n
  (es, es.foldl (fun st e => setExt e .owned st) s)

/-- Stages of a RUN_ANNEAL after the model: a refusal's detail, a failed read, or none. -/
def annealCheck (c : Cmd) (m : Model) (s : State) : Option Decision :=
  let swp := c.block blkSweep
  let rep := c.block blkReplica
  let fail := fun n => (c.blockFail.filter fun p => p.1 == n).map (·.2)
  let ladder := if (c.blocks.any fun b => b.1 == blkLadder) then
    some ((List.range (repRungs rep)).map fun k => BitVec.ofNat 32 (leAt (c.block blkLadder) (4 * k) 4)) else none
  match fail blkSweep with
  | some d => some d
  | none =>
    match lowest (sweepDetails m c.p1 swp) with
    | some d => some (mkDecision 1 d 0)
    | none =>
      match fail blkReplica with
      | some d => some d
      | none =>
        match lowest (replicaDetails m c.p2 rep (swpSeed swp) c.digest (que s c.queue).onPcie ladder) with
        | some d => some (mkDecision 1 d 0)
        | none =>
          if !c.freeMode && !allOnline s then some (mkDecision 1 0x49 0)
          else if (freeExtents s).length < workspaceExtents m swp (repN rep) then some (mkDecision 1 0x4A 0)
          else none

/-- The initial states of a run, read if supplied. -/
def initialStates (c : Cmd) (m : Model) (rep : List Byte) (seed : Quad) (s : State) :
    Except AccErr (List Nat × Bool × List Byte) × State :=
  let mode := repInit rep
  let reps := repN rep
  if mode = 0 then (.ok ((List.range reps).map (randomState m seed), false, []), s)
  else
    let x := que s c.queue
    match spaceRead (repHost rep) x.ats (cmdView s c) (repInitAddr rep) ((if mode = 1 then reps else 1) * stateBytes m.n) s with
    | (.error e, s) => (.error e, s)
    | (.ok bs, s) => (.ok (suppliedStates m mode reps bs), s)

/-- A new run. -/
def newRun (c : Cmd) (id : Nat) (m : Model) (swp rep : List Byte) (seed : Quad) (states : List Nat) (forced : Bool)
    (initBytes : List Byte) (s : State) : Run :=
  let reps := repN rep
  let rungs := repRungs rep
  let r : Run :=
    { model := id, sweepBlk := swp, repBlk := rep
      ladder := (List.range rungs).map fun k => BitVec.ofNat 32 (leAt (c.block blkLadder) (4 * k) 4)
      seed := seed, ordered := !c.freeMode, digest := c.digest, interval := c.interval, settings := settingsWord s c.freeMode
      started := false, resumed := false, spins := states, best := states, energy := List.replicate reps 0
      bestE := List.replicate reps 0, bestSweep := List.replicate reps 0xFFFFFFFF
      rung := (List.range reps).map (· % rungs), att := List.replicate reps 0, acc := List.replicate reps 0
      rungAtt := List.replicate (rungs - 1) 0, rungAcc := List.replicate (rungs - 1) 0, fields := [], valid := 0
      lists := [], cls := 0, sweep := swpStart swp, turnNo := 0, done := 0, full := 0, delta := 0, conflicts := 0, steps := 0
      rounds := 0, stall := 0, runBest := 0, inertForced := forced, odd := false, mismatch := false, trunc := m.trunc
      nonfinite := false, startTime := timeOf s, endTime := 0, copies := [], stop := none, ckpts := 0, chain := 0
      inputDigest := 0, workspace := [], ls := LockStep.off, split := splitState swp rep }
  let input := annealInput r initBytes c.interval
  if c.digest then { r with inputDigest := input, chain := firstCkpt r.settings m.digest input } else r

/-- A run that passed its checks becomes READY. -/
def readyRun (c : Cmd) (r : Run) (m : Model) (s : State) : State :=
  let (ws, s) := takeWorkspace (workspaceExtents m r.sweepBlk r.reps) s
  let s := useModel r.model s
  let (ls, s) := if r.digest then lsAdmit c (decide (1 < r.split.devices)) s else (LockStep.off, s)
  let r := { r with workspace := ws, ls := ls }
  let s := readyOrder c.key
    (updCmd c.key (fun c => { c with st := .ready, work := .anneal r, engines := runEngines s c.freeMode }) s)
  if 1 < r.split.devices then sendJoins r.split s else s

/-- RUN_ANNEAL in ADMITTING. -/
def runAnneal (c : Cmd) (s : State) : State :=
  let id := c.p0 % 65536
  match modelFor s c.queue id with
  | none => refuse c.key 0x46 s
  | some m =>
    if m.st ≠ .ready ∧ m.st ≠ .inUse then refuse c.key 0x47 s
    else
      match annealCheck c m s with
      | some d => complete c.key d s
      | none =>
        let swp := slice 0 (128 + 16 * swpSegs (c.block blkSweep)) (c.block blkSweep)
        let rep := c.block blkReplica
        let drawn := if swpSeed swp = 0 then drawSeed s else (some (BitVec.ofNat 64 (swpSeed swp)), s)
        match drawn with
        | (none, s) => s
        | (some seed, s) =>
          match initialStates c m rep seed s with
          | (.error e, s) => complete c.key e.dec s
          | (.ok (states, forced, bytes), s) => readyRun c (newRun c id m swp rep seed states forced bytes s) m s

/-- RUN_ANNEAL. -/
def execRunAnneal (k : Key) (s : State) : Host.Outcome State Fault Refusal :=
  .next (match admitting s k 0x12 with | some c => runAnneal c s | none => s)

/-- The model of a saved run: the lowest identifier in READY or IN_USE with the digest, in reach of the queue. -/
def modelByDigest (s : State) (q : Nat) (d : Digest) : Option (Nat × Model) :=
  ((List.range 256).map fun i => (i, mdl s i)).find? fun p =>
    (p.2.st == .ready || p.2.st == .inUse) && p.2.digest == d && ((que s q).ctx0 || p.2.ctx == (que s q).ctx)

/-- The checks of R389 in their order: the detail of the first failure, or the model. -/
def resumeCheck (c : Cmd) (s : State) : Except Decision (Nat × Model) :=
  let a := c.block blkSave
  let bad := fun d => Except.error (mkDecision 0x0C d 0)
  let set := leAt a 4 4
  let rep := slice 0x100 128 a
  let n := fld (leAt a 0x184 4) 6 0
  let swp := slice 0x180 (128 + 16 * min n 64) a
  if leAt a 0 2 ≠ 1 ∨ leAt a 2 1 ≠ 2 then bad 0x10
  else match c.blockFail with
    | some (_, d) => .error d
    | none =>
      if slice 0xE0 32 a ≠ saveDigest (a.take 0xE0) ((a.take (leAt a 0x70 8)).drop 0x100) then bad 0x11
      else if BitVec.ofNat 32 set ≠ settingsWord s c.freeMode then bad 0x12
      else
        match modelByDigest s c.queue (digOf (slice 0x18 32 a)) with
        | none => bad 0x13
        | some (id, m) =>
          let ladder := (List.range (repRungs rep)).map fun k => BitVec.ofNat 32 (leAt a (0x600 + 4 * k) 4)
          if leAt a 0x70 8 ≠ saveSize m (repN rep) (needsLists m swp) then bad 0x10
          else if !(sweepDetails m 0 swp).isEmpty ||
              !(replicaDetails m 0 rep (swpSeed swp) (bit (leAt a 0x68 4) 4) (que s c.queue).onPcie (some ladder)).isEmpty then
            bad 0x14
          else if 1 < repDevices rep then bad 0x15
          else .ok (id, m)

/-- RESUME in ADMITTING. -/
def resume (c : Cmd) (s : State) : State :=
  match resumeCheck c s with
  | .error d => complete c.key d s
  | .ok (id, m) =>
    let a := c.block blkSave
    let r := restoreRun m id a (!c.freeMode) []
    if !c.freeMode && !allOnline s then refuse c.key 0x49 s
    else
      let need := workspaceExtents m r.sweepBlk r.reps
      if (freeExtents s).length < need then refuse c.key 0x4A s
      else
        let r := restoreRun m id a (!c.freeMode) ((freeExtents s).take need)
        let s := { s with det := { s.det with resumes := satInc s.det.resumes } }
        readyRun c r m s

/-- RESUME. -/
def execResume (k : Key) (s : State) : Host.Outcome State Fault Refusal :=
  .next (match admitting s k 0x15 with | some c => resume c s | none => s)

/-! ## Stopping (R153) -/

/-- The conditions that hold: the HIT bits. -/
def hitBits (m : Model) (r : Run) : Nat :=
  let best := runBestOf m.form r.bestE
  let target := repTargetEn r.repBlk && (match best with
    | some (_, e) => !energyLt m.form (BitVec.ofNat 64 (repTarget r.repBlk)) e &&
        (m.form != 2 || !(fp64.dec (repTarget r.repBlk)).isNan)
    | none => false)
  at' target 0 + at' (repStall r.repBlk != 0 && decide (repStall r.repBlk ≤ r.stall.toNat)) 1 +
    at' (decide (totalSweeps r.sweepBlk ≤ r.done.toNat)) 2

/-- STOP_REASON and HIT when any condition holds. -/
def stopNow (m : Model) (r : Run) : Option (Nat × Nat) :=
  let h := hitBits m r
  if h = 0 then none else some (if bit h 0 then 1 else if bit h 1 then 2 else 3, h)

/-! ## Ends of a run -/

/-- A run whose final boundary has ended commits now (R339); its record follows when its copies are done. -/
def commitRun (c : Cmd) (m : Model) (r : Run) (s : State) : State :=
  let r := { r with endTime := timeOf s }
  let s := setRun c.key r s
  let d := stampD s (mkDecision 0 0 r.seed.toNat)
  let s := decide' c.key d s
  if r.copies = [] then finishRun c m r d s else s

/-- A run stops at a boundary for an abort or a pause that won (R340, R384), or goes on. A pause after a sweep's last
turn takes effect when the boundary ends (R155). A run that stops is marked with reason 0. -/
def stopAtTurn (c : Cmd) (m : Model) (r : Run) (s : State) : State :=
  let stopped := { r with stop := some (0, 0) }
  match c.decided with
  | none => setRun c.key r s
  | some d =>
    match c.pause with
    | none => completeDecided c.key (setRun c.key stopped s)
    | some p =>
      if r.cls = nColours m then setRun c.key r s
      else
        let s := setRun c.key stopped s
        if r.copies = [] then finishPause c m stopped p d s else s

/-! ## Partial energies of a split group (R163) -/

/-- The sweep number under which the partial energies of the initial states travel (log 30). -/
def initialSweep : Nat := 0xFFFFFFFF

/-- A device's parts of the energies go to every peer in messages of at most 8,000 replicas (R163, R481). -/
def sendPartials (r : Run) (sweep : Nat) (es : List Quad) (s : State) : State :=
  (List.range (ceilDiv es.length 8000)).foldl (fun st k =>
    splitSend r.split 9 2 (fun _ => leBytes 4 sweep ++ ((es.drop (8000 * k)).take 8000).flatMap fun e => leBytes 8 e.toNat) st) s

/-- The energies of a split group for a sweep, when every member's parts are here, each with whether its sum was odd. -/
def splitSums (m : Model) (r : Run) (sweep : Nat) : Option (List (Quad × Bool)) :=
  let per := (List.range r.split.devices).map (partsOf r.split sweep)
  if per.all (fun l => l.length == r.reps) then
    some ((List.range r.reps).map fun a => splitEnergy m (per.map fun l => l.getD a 0))
  else none

/-- The device's own partial energies noted. -/
def notePartial (r : Run) (sweep : Nat) (es : List Quad) : Run :=
  { r with split := { r.split with
      sentPartial := some sweep, energies := r.split.energies ++ [(sweep, r.split.index, es)] } }

/-- The entries of a sweep are used up. -/
def dropPartials (r : Run) (sweep : Nat) : Run :=
  { r with split := { r.split with energies := r.split.energies.filter fun x => x.1 != sweep } }

/-! ## The start of a run -/

/-- The initial energies are known: best states, the run best's reference, and C_0 on its way to a peer (R127, R149,
R378). -/
def startWith (c : Cmd) (m : Model) (r : Run) (es : List Quad) (s : State) : State :=
  let r := { r with started := true, energy := es, bestE := es, runBest := runBestBits m.form es
                    nonfinite := r.nonfinite || es.any (badQuad m.form) }
  let (ls, s) := lsForm c r.ls 0 r.chain s
  setRun c.key { r with ls := ls } s

/-- A split run starts when every member's initial partial energies are here. -/
def splitStart (c : Cmd) (m : Model) (r : Run) (s : State) : State :=
  match splitSums m r initialSweep with
  | some es =>
    let (es, r, s) := noteEnergies m es false (dropPartials r initialSweep) s
    startWith c m r es s
  | none => setRun c.key r s

/-- A run begins: initial energies (R127), or the restored ones (R390); a resumed run with no turns left commits. The
initial energies do not count in ANL_RECOMPUTE: the model's choice (log 71). -/
def beginRun (c : Cmd) (m : Model) (r : Run) (s : State) : State :=
  if r.resumed then
    let r := { r with started := true }
    match (if r.cls = 0 ∧ r.done ≠ 0 then stopNow m r else none) with
    | some st => commitRun c m { r with stop := some st } s
    | none => setRun c.key r s
  else
    if 1 < r.split.devices then
      let (es, r, s) := partials m r s
      splitStart c m (notePartial r initialSweep es) (sendPartials r initialSweep es s)
    else
      let (es, r, s) := recompute m r s
      startWith c m r es s

/-! ## Split groups: remote spins (R162) -/

/-- Are all peers' spins of turns below `t` here? Which rows a peer holds is its own affair (R160). -/
def holdsTurns (p : SplitSt) (t : Nat) : Bool := (behind p t).isEmpty

/-- Spins that arrived are applied before turn `t`, and the flags of their accumulations noted; a turn whose spins missed
the turn after it counts as late. -/
def applyArrived (m : Model) (r : Run) : Run × List Nat :=
  let rs := r.split.spinsLate
  if rs = [] then (r, []) else
  let late := rs.any fun x => decide (x.1 + 2 ≤ r.turnNo)
  let (r, fl) := rs.foldl (fun (q : Run × List Nat) x =>
    let y := applyRemote m q.1 x.2.2.1 x.2.2.2.1 x.2.2.2.2
    (y.1, q.2 ++ y.2)) (r, [])
  ({ r with split := { r.split with spinsLate := [], late := r.split.late + (if late then 1 else 0) } }, fl)

/-- The flags of evaluations are counted. -/
def countEvals (fl : List Nat) (s : State) : State := fl.foldl (fun st f => countEval f st) s

/-- The new spins of the held rows of a class go to every peer, 32 rows to a message (R162, R481); a message without rows
ends them (log 30). -/
def sendSpins (m : Model) (r : Run) (turn c : Nat) (s : State) : State :=
  let rows := classRows m c
  let head := fun lo n => leBytes 4 turn ++ leBytes 4 c ++ leBytes 4 lo ++ leBytes 4 n
  let s := (List.range (ceilDiv rows.length 32)).foldl (fun st k =>
    let lo := rows.headD 0 + 32 * k
    let n := min 32 (rows.length - 32 * k)
    splitSend r.split 8 2 (fun _ => head lo n ++ r.spins.flatMap fun sp => leBytes 4 (sp / 2 ^ lo % 2 ^ n)) st) s
  splitSend r.split 8 2 (fun _ => head 0 0) s

/-- May the run begin its next turn: lock-step, a split group's spins (R162, R379)? -/
def mayTurn (r : Run) : Bool :=
  lsMayPass r.ls r.ckpts.toNat &&
    (decide (r.split.devices ≤ 1) || holdsTurns r.split (r.turnNo - r.split.lag))

/-! ## TURN -/

/-- The evaluation, decisions and flips of a class's turn; none while a copy of a flipped row block is outstanding
(R151). -/
def turnOf (m : Model) (r : Run) (s : State) : Option (Run × State) :=
  let c := r.cls
  let (delta, out) := evalClass m r c
  let ds := decisions m r out
  if (flippedBlocks ds).any fun b => r.copies.any fun p => p.1 == b then none
  else
    let r' := applyTurn m r c delta ds
    let s := countEvals (groupFlags m r c out) s
    let s := noteSteps m.form (evalSteps m r c delta) s
    let ev := conflictEvents m c ds
    let a := s.anl
    let s := { s with anl := { a with
      full := a.full + (if delta then 0 else 1), delta := a.delta + (if delta then 1 else 0)
      conflicts := a.conflicts + BitVec.ofNat 64 ev } }
    some (r', if ev = 0 then s else anlFlag 0 s)

/-- The clusters of a command report the end of a phase (R397). -/
def phaseEnds (engines : List Nat) (s : State) : State :=
  ((engines.map (· / 8)).eraseDups).foldl (fun st c => icuSend (96 + c) st) s

/-- TURN of a running command. -/
def turn (c : Cmd) (r : Run) (s : State) : State :=
  let m := mdl s r.model
  if !r.started || r.stop.isSome || decide (nColours m ≤ r.cls) || !mayTurn r then s
  else
    match modelRead m s with
    | (some d, s) => failCmd c d s
    | (none, s) =>
      let (r, fl) := applyArrived m r
      match turnOf m r (countEvals fl s) with
      | none => s
      | some (r', s) =>
        let s := if 1 < r.split.devices then sendSpins m r' r.turnNo r.cls s else s
        stopAtTurn c m r' (phaseEnds c.engines s)

/-- TURN. -/
def execTurn (k : Key) (s : State) : Host.Outcome State Fault Refusal :=
  .next (match running s k with
    | some c => (match c.work with | .anneal r => turn c r s | _ => s)
    | none => s)

/-! ## SWEEP_BOUNDARY (R155) -/

/-- The energies of the sweep: recomputed where R125, R129 or R163 says so. `es` are a split group's sums. -/
def finalEnergies (m : Model) (r : Run) (split : Option (List Quad)) (s : State) : Run × State :=
  let check := swpCheck r.sweepBlk
  let due := check ≠ 0 ∧ (r.sweep + 1) % check = 0
  match split with
  | some es =>
    ({ r with energy := es }, s)
  | none =>
    if m.conflictPairs = 0 ∧ !due then (r, s)
    else
      let (es, r', s) := recompute m r s
      let bad := if m.conflictPairs = 0 ∧ m.form ≠ 2 then ((r.energy.zip es).filter fun p => p.1 != p.2).length else 0
      let a := s.anl
      let s := { s with anl := { a with
        recompute := a.recompute + BitVec.ofNat 64 r.reps, mismatch := satAdd a.mismatch bad } }
      ({ r' with energy := es, mismatch := r'.mismatch || decide (bad ≠ 0) }, if bad = 0 then s else anlFlag 2 s)

/-- Steps 2 to 5 of R155. -/
def boundaryTail (c : Cmd) (m : Model) (r : Run) (s : State) : State :=
  let r := updateBest m r
  let r1 := { r with done := r.done + 1 }
  let s := { s with anl := { s.anl with sweeps := s.anl.sweeps + 1 } }
  let stop := stopNow m r1
  let due := r.digest && (stop.isSome || (r.interval != 0 && (r.sweep + 1) % r.interval == 0))
  let (r, s) := if due then takeCkpt c m r s else (r, s)
  let r := if stop.isNone && exchangeDue r then exchangeRound m.form r else r
  let r := { r with done := r.done + 1, sweep := r.sweep + 1, cls := 0, stop := stop }
  match stop with
  | some _ =>
    match c.decided, c.pause with
    | some d, some p =>
      let s := setRun c.key r s
      if r.copies = [] then finishPause c m r p d s else s
    | _, _ => commitRun c m r s
  | none => stopAtTurn c m r s

/-- This device's own part of the sweep's energies, formed and sent. The recompute counts in ANL_RECOMPUTE at this point:
the model's choice (log 71). -/
def formPart (m : Model) (r : Run) (s : State) : Run × State :=
  let (r, fl) := applyArrived m r
  let (es, r, s) := partials m r (countEvals fl s)
  let s := { s with anl := { s.anl with recompute := s.anl.recompute + BitVec.ofNat 64 r.reps } }
  (notePartial r r.sweep es, sendPartials r r.sweep es s)

/-- The boundary of a split run: it waits for the sweep's spins, sends its partial energies, waits for the peers'. -/
def splitBoundary (c : Cmd) (m : Model) (r : Run) (s : State) : State :=
  if !holdsTurns r.split r.turnNo then s
  else
    let (r, s) := if r.split.sentPartial = some r.sweep then (r, s) else formPart m r s
    match splitSums m r r.sweep with
    | none => setRun c.key r s
    | some es =>
      let (es, r, s) := noteEnergies m es false r s
      let (r, s) := finalEnergies m r (some es) s
      boundaryTail c m (dropPartials r r.sweep) s

/-- SWEEP_BOUNDARY of a running command whose last turn has ended. -/
def sweepBoundary (c : Cmd) (r : Run) (s : State) : State :=
  let m := mdl s r.model
  if !r.started || r.stop.isSome || r.cls != nColours m then s
  else
    match modelRead m s with
    | (some d, s) => failCmd c d s
    | (none, s) =>
      if 1 < r.split.devices then splitBoundary c m r s
      else
        let (r, s) := finalEnergies m r none s
        boundaryTail c m r s

/-- SWEEP_BOUNDARY. -/
def execSweepBoundary (k : Key) (s : State) : Host.Outcome State Fault Refusal :=
  .next (match running s k with
    | some c => (match c.work with | .anneal r => sweepBoundary c r s | _ => s)
    | none => s)

/-! ## BEST_STATE_COPY (R151) -/

/-- Is the row block the next that its engine copies? Engine `b mod 64` takes its row blocks in ascending order. -/
def copyNext (r : Run) (b : Nat) : Bool :=
  r.copies.any (fun p => p.1 == b) && !r.copies.any fun p => p.1 % 64 == b % 64 && decide (p.1 < b)

/-- The copies of one row block end; a run that waited only for them writes its results or its save area. -/
def bestStateCopy (c : Cmd) (r : Run) (b : Nat) (s : State) : State :=
  if !copyNext r b then s
  else
    let m := mdl s r.model
    let r := copyBest r b
    let s := setRun c.key r s
    match c.decided with
    | none => s
    | some d =>
      if r.copies ≠ [] then s
      else if r.stop.isNone then s
      else match c.pause with
        | some p => finishPause c m r p d s
        | none => finishRun c m r d s

/-- BEST_STATE_COPY. -/
def execBestStateCopy (k : Key) (rowBlock : Nat) (s : State) : Host.Outcome State Fault Refusal :=
  .next (match running s k with
    | some c => (match c.work with | .anneal r => bestStateCopy c r rowBlock s | _ => s)
    | none => s)

/-! ## ENGINE_FAILURE -/

/-- ENGINE_FAILURE of a physical engine (R43). -/
def execEngineFailure (phys : Fin 72) (s : State) : Host.Outcome State Fault Refusal :=
  .next (if isUp s then engineFail phys.val 1 s else s)

end Sys2Proof.Machine
end

