-- ==== Sys2Proof/Machine/Image.lean ====
section
/-! DEFINITION. Program images (R236): their tables, the checks of R239, and RUN_PROGRAM in admission (R365, R562). -/

namespace Sys2Proof.Machine

/-! ## The header and the tables (R236) -/

def imgCount (h : List Byte) : Nat := fld (leAt h 4 4) 12 0
def imgBase (h : List Byte) : Nat := fld (leAt h 8 4) 18 0
def imgPreloads (h : List Byte) : Nat := fld (leAt h 0xC 4) 23 16
def imgShares (h : List Byte) : Nat := fld (leAt h 0xC 4) 15 8
def imgReduces (h : List Byte) : Nat := fld (leAt h 0xC 4) 7 0
def imgMask (h : List Byte) : Nat := leAt h 0x10 8
def imgItems (h : List Byte) : Nat := leAt h 0x18 4
def imgVary (h : List Byte) : Bool := bit (leAt h 0x1C 4) 0

/-- Program engines of an image. -/
def imgEngines (h : List Byte) : Nat := popcount 64 (imgMask h)

/-- Instruction `i` of an image. -/
def imgIns (img : List Byte) (i : Nat) : Ins := insOf (slice (0x40 + 16 * i) 16 img)

/-- Fields of a preload entry. -/
def preSrc (e : List Byte) : Nat := leAt e 0 8
def preKeep (e : List Byte) : Bool := bit (leAt e 8 4) 31
def preReuse (e : List Byte) : Bool := bit (leAt e 8 4) 30
def preDst (e : List Byte) : Nat := fld (leAt e 8 4) 18 0
def preLen (e : List Byte) : Nat := fld (leAt e 0xC 4) 23 0
def preStride (e : List Byte) : Nat := leAt e 0x10 8

/-- Entries of a table. -/
def entries (size n : Nat) (t : List Byte) : List (List Byte) := (List.range n).map fun i => slice (size * i) size t

/-- The parts of a reduce entry. -/
def redParts (e : List Byte) : List Nat := (List.range (leAt e 0 4 % 16)).map fun i => leAt e (4 + i) 1

/-! ## Checks of one instruction (R212 to R214, R219, R228, R231, R233, R239) -/

/-- The instructions of R214. -/
def insKnown (op : Nat) : Bool :=
  op ∈ [1, 2, 3, 4, 5, 8, 0x10, 0x18, 0x19, 0x20, 0x21, 0x22, 0x23, 0x24, 0x25, 0x26, 0x27, 0x28, 0x29, 0x3F]

/-- The PARAM bits that an instruction uses. -/
def insParams (op : Nat) : Nat :=
  if op = 1 then 0x1F else if op = 2 then 0xFFF else if op = 3 ∨ op = 4 then 0xFFFFF else if op = 8 then 0x1F
  else if op = 0x10 then 0x3FFFF else if op = 0x18 then 0xFFFF else if op = 0x19 then 0xF00
  else if op = 0x21 then 0xFF else if op = 0x22 ∨ op = 0x23 then 0x3F else if op = 0x24 then 0x7F
  else if op = 0x29 then 0x1F else if op ∈ [0x20, 0x25, 0x27, 0x28] then 0xF else 0

/-- Which of OPA, OPB and OPC an instruction names. -/
def insUses (op : Nat) : Bool × Bool × Bool :=
  (op ∈ [1, 2, 3, 4, 0x10, 0x18, 0x19, 0x20, 0x21, 0x22, 0x23, 0x24, 0x25], op ∈ [2, 3, 4, 0x10, 0x18, 0x19],
   op ∈ [2, 3, 4, 0x10, 0x18])

/-- Is the instruction marked may vary (R214)? -/
def insVary (x : Ins) : Bool := x.op ∈ [0x19, 0x27, 0x28, 0x29] || (x.op == 8 && x.flag)

/-- A scratchpad operand as the load checks it: whether NONE is accepted, the units known then, whether it is written and
whether it is a vector of 4 or more units. -/
structure OpCheck where
  d : Nat
  none : Bool
  units : Nat
  write : Bool
  align : Bool
deriving DecidableEq, Repr

/-- The scratchpad operands of an instruction (R214, R220, R225, R239). `units` gives the units of a vector whose count
stands in a register, by the size of its elements. A row record named by NONE is not written. -/
def insSpads (units : Nat → Nat) (x : Ins) : List OpCheck :=
  if x.op = 1 then
    let st := x.par 2 1
    if st = 0 then [] else
      [⟨x.a, false, if st = 1 then 32 else if x.par 4 3 = 2 then 32768 else 16384, false, false⟩]
  else if x.op = 2 then
    let k := fld x.c 23 0
    [⟨x.a, false, k * rowUnits (x.par 2 0), false, decide (4 ≤ rowUnits (x.par 2 0))⟩,
     ⟨x.b, false, k * colUnits (x.par 5 3), false, true⟩]
  else if x.op = 3 then
    [⟨x.a, false, 4096 * outBytes (x.par 2 0), true, false⟩, ⟨x.b, false, 1, true, false⟩] ++
      (if x.par 10 8 = 0 then [] else [⟨x.c, true, 128, true, false⟩])
  else if x.op = 4 then
    let mb := if x.par 18 16 = 6 then 4 else if x.par 18 16 = 5 then 2 else 1
    [⟨x.a, true, 512, true, false⟩, ⟨x.b, true, 512, true, false⟩, ⟨x.c, true, 4096 * mb, true, false⟩]
  else if x.op = 0x10 then
    [⟨x.a, false, units (vopBytes (x.par 14 12)), false, false⟩, ⟨x.b, true, units (vopBytes (x.par 17 15)), false, false⟩,
     ⟨x.c, false, units (vopBytes (x.par 17 15)), true, false⟩]
  else if x.op = 0x18 then [⟨x.a, false, max 1 (fld x.c 23 0), !x.flag, false⟩]
  else if x.op = 0x19 then [⟨x.a, false, units 4, false, false⟩]
  else if x.op = 0x22 ∨ x.op = 0x23 then [⟨x.a, false, 1, decide (x.op = 0x23), false⟩]
  else []

/-- Do ranges leave the scratchpad, or meet the program at units [base, base + n) where they are written? -/
def rangesBad (base n : Nat) (write : Bool) (ps : List (Nat × Nat)) : Bool :=
  ps.any fun r => decide (spadUnits < r.1 + r.2) || (write && rangesMeet r.1 r.2 base n)

/-- The ranges of a WINDOW operand as an engine's window registers stand; none for a window of size 0, which has no
addresses and faults when it is named (R272). -/
def windowSpan (e : Engine) (o : OpCheck) : List (Nat × Nat) :=
  let bw := (Tab.get 0 e.winBase (dReg o.d)).toNat
  let sw := (Tab.get 0 e.winSize (dReg o.d)).toNat
  if sw = 0 then [] else wrapRanges (4 * bw) (4 * sw) (o.units / (4 * sw) + 2) (dOff o.d % (4 * sw)) o.units

/-- Detail of one scratchpad operand against the program at units [base, base + n). A WINDOW address is checked against
the windows of the engines the program may run on: any of them in ordered mode, all of them in free mode (log 50). -/
def spadDetail (ordered : Bool) (es : List Engine) (base n : Nat) (o : OpCheck) : Option Nat :=
  let bad := fun e => rangesBad base n o.write (windowSpan e o)
  if dMode o.d = 3 then (if o.none && o.d == noneOp then none else some 0x21)
  else if fld o.d 25 19 ≠ 0 ∨ (dMode o.d = 0 ∧ dReg o.d ≠ 0) then some 0x21
  else if dMode o.d ≠ 1 ∧ o.align ∧ dOff o.d % 4 ≠ 0 then some 0x24
  else if dMode o.d = 0 then (if rangesBad base n o.write [(dOff o.d, o.units)] then some 0x24 else none)
  else if dMode o.d = 2 ∧ (if ordered then es.any bad else !es.isEmpty && es.all bad) then some 0x24
  else none

/-- Is an external operand acceptable: MODE 0 or 1, a DMA's REG even (R231, R233)? -/
def extOk (d : Nat) (even : Bool) : Bool :=
  decide (dMode d ≤ 1) && fld d 25 19 == 0 && (dMode d == 1 || dReg d == 0) && !(even && dMode d == 1 && dReg d % 2 == 1)

/-- Every detail that one instruction breaks. -/
def insDetails (ordered : Bool) (es : List Engine) (h : List Byte) (tags : List Nat) (x : Ins) : List Nat :=
  let op := x.op
  let when := fun (c : Bool) (d : Nat) => if c then [d] else []
  if !insKnown op then [0x21] else
  let (ua, ub, uc) := insUses op
  when (!within (x.par 19 0) (insParams op) || (x.flag && !decide (op ∈ [2, 3, 8, 0x10, 0x18])) ||
      (x.group != 0 && !decide (op ∈ [1, 2, 3, 4, 5, 8]))) 0x21 ++
  when ((!ua && x.a != noneOp) || (!ub && x.b != noneOp) || (!uc && x.c != noneOp)) 0x21 ++
  (insSpads (fun _ => 1) x).filterMap (spadDetail ordered es (imgBase h) (imgCount h)) ++
  (if op = 1 then
     let st := x.par 2 1
     let fm := x.par 4 3
     when (st == 3 || fm == 3 || (fm == 2 && !(st == 2 && x.par 0 0 == 1)) || (st == 0 && x.a != noneOp)) 0x21
   else if op = 2 then
     when (decide (0xFFFFFF < x.c) || x.c == 0) 0x21 ++
     when (match pairPath (x.par 2 0) (x.par 5 3) with
       | none => true
       | some f => f && decide (1 < x.par 11 6)) 0x22
   else if op = 3 then
     when (decide (4 < x.par 10 8) || (x.par 10 8 == 0 && x.c != noneOp)) 0x21 ++
     when (x.par 10 8 == 4 && decide (x.par 2 0 ≤ 2)) 0x22
   else if op = 4 then when (x.c != noneOp && !decide (3 ≤ x.par 18 16 ∧ x.par 18 16 ≤ 6)) 0x23
   else if op = 8 then when (decide (imgReduces h ≤ x.par 4 0)) 0x28
   else if op = 0x10 then
     when (decide (10 < x.par 3 0) || vopBytes (x.par 14 12) == 0 || vopBytes (x.par 17 15) == 0 ||
       (x.b == noneOp) != decide (6 ≤ x.par 3 0 ∧ x.par 3 0 ≤ 10)) 0x23
   else if op = 0x18 then
     when (decide (0xFFFFFF < x.c) || !extOk x.b true) 0x21 ++
     when (x.par 15 8 != 0 && !decide (x.par 15 8 ∈ tags)) 0x28
   else if op = 0x19 then when (!extOk x.b false) 0x21
   else if op = 0x24 then when (decide (imgCount h ≤ x.a) || decide (4 < x.par 6 4)) 0x25
   else if op = 0x25 then when (decide (imgCount h ≤ x.a)) 0x25
   else []) ++
  when (ordered && decide (op ∈ [0x19, 0x28, 0x29])) 0x26

/-! ## Checks of the image (R239) -/

/-- The header that nothing else can be read without. -/
def headerBad (addr : Nat) (h : List Byte) : Bool :=
  addr % 64 != 0 || leAt h 0 2 != 1 || imgCount h == 0 || decide (4096 < imgCount h)

def preloadDetails (h e : List Byte) : List Nat :=
  (if !within (leAt e 8 4) 0xC007FFFF || !within (leAt e 0xC 4) 0xFFFFFF || leAt e 0x18 8 != 0 then [0x21] else []) ++
  (if preSrc e % 64 != 0 || preStride e % 64 != 0 then [0x29] else []) ++
  (if preDst e % 4 != 0 || decide (spadUnits < preDst e + preLen e) ||
      rangesMeet (preDst e) (preLen e) (imgBase h) (imgCount h) then [0x24] else [])

def shareDetails (h : List Byte) (tags : List Nat) (e : List Byte) : List Nat :=
  (if leAt e 0 8 / 256 != 0 then [0x21] else []) ++
  (if leAt e 0 1 == 0 || (tags.filter (· == leAt e 0 1)).length != 1 then [0x29] else []) ++
  (if leAt e 8 8 / 2 ^ imgEngines h != 0 then [0x28] else [])

def reduceDetails (h e : List Byte) : List Nat :=
  let cnt := leAt e 0 4 % 16
  let ps := redParts e
  (if leAt e 0 4 / 16 != 0 || leAt e 0xC 4 != 0 then [0x21] else []) ++
  (if !decide (cnt ∈ [2, 4, 8]) || !decide ps.Nodup || !allZero ((slice 4 8 e).drop cnt) then [0x29]
   else []) ++
  (if decide (cnt ∈ [2, 4, 8]) && ps.any (fun p => decide (imgEngines h ≤ p)) then [0x28] else [])

/-- Every detail that an image and its parameter block break; `img` is the header and the instructions. -/
def imageDetails (s : State) (ordered : Bool) (img pre sh red param : List Byte) (paramAddr : Nat) : List Nat :=
  let h := img
  let n := imgCount h
  let mask := imgMask h
  let shs := entries 16 (imgShares h) sh
  let tags := shs.map fun e => leAt e 0 1
  let code := (List.range n).map (imgIns img)
  let es := (if ordered then bitsOf 64 mask else onlineEngines s).map (eng s)
  let tabBad := fun (cnt lim a : Nat) => decide (lim < cnt) || a % 64 != 0
  let when := fun (c : Bool) (d : Nat) => if c then [d] else []
  when (leAt h 2 2 != 0 || leAt h 4 4 / 2 ^ 13 != 0 || leAt h 8 4 / 2 ^ 19 != 0 || leAt h 0xF 1 != 0 || !within (leAt h 0x1C 4) 1 ||
    leAt h 0x38 8 != 0) 0x21 ++
  when (imgBase h % 4 != 0 || decide (spadUnits < imgBase h + n)) 0x24 ++
  code.flatMap (insDetails ordered es h tags) ++
  when (imgVary h != code.any insVary) 0x27 ++
  when (tabBad (imgPreloads h) 64 (leAt h 0x20 8) || tabBad (imgShares h) 32 (leAt h 0x28 8) ||
    tabBad (imgReduces h) 32 (leAt h 0x30 8)) 0x29 ++
  (entries 32 (imgPreloads h) pre).flatMap (preloadDetails h) ++
  shs.flatMap (shareDetails h tags) ++
  (entries 16 (imgReduces h) red).flatMap (reduceDetails h) ++
  when (mask == 0 || (if ordered then (mask &&& offlineMask s) != 0
    else decide ((onlineEngines s).length < popcount 64 mask))) 0x2A ++
  when (paramAddr % 64 != 0 || !allZero (slice 0x34 12 param)) 0x2B

/-! ## RUN_PROGRAM in admission -/

/-- The tables in their natural bytes. -/
def shareBytes (l : List (Nat × Nat)) : List Byte := l.flatMap fun e => leBytes 8 e.1 ++ leBytes 8 e.2
def reduceBytes (l : List (List Nat)) : List Byte :=
  l.flatMap fun ps => leBytes 4 ps.length ++ slice 0 8 (ps.map (BitVec.ofNat 8)) ++ leBytes 4 0

/-- MP_DIGEST of a program (R365): addresses and sources read as 0. -/
def programMp (p : Prog) : Digest :=
  let head := patchAt (p.image.take 0x40) 0x20 (List.replicate 24 0)
  digOf (chunkedDigest (head ++ p.image.drop 0x40 ++ (p.preloads.flatMap fun e => patchAt e 0 (leBytes 8 0)) ++
    shareBytes p.shares ++ reduceBytes p.reduces))

/-- INPUT_DIGEST and the preload digest are of one form (R365). -/
def programInput (p : Prog) (per : List (List Byte)) : Digest :=
  digOf (sha256 (chunkedDigest (p.params ++ leBytes 8 p.seed.toNat) ++ (per.map chunkedDigest).flatten))

/-- A new program. -/
def newProg (c : Cmd) (seed : Quad) (ls : LockStep) (s : State) : Prog :=
  let img := slice 0 (0x40 + 16 * imgCount (c.block blkImage)) (c.block blkImage)
  let none := List.replicate (imgEngines img) ([] : List Byte)
  { image := img, preloads := entries 32 (imgPreloads img) (c.block blkPreload)
    shares := (entries 16 (imgShares img) (c.block blkShare)).map fun e => (leAt e 0 1, leAt e 8 8)
    reduces := (entries 16 (imgReduces img) (c.block blkReduce)).map redParts
    params := slice 0 64 (c.block blkParam), seed := seed, ordered := !c.freeMode, digest := c.digest
    settings := settingsWord s c.freeMode, engs := [], claimNext := 0, claimCnt := [], ended := [], waitBar := []
    waitShare := [], waitRed := [], bars := 0, chain := 0, ckpts := 0, preDigest := 0, inBytes := none
    outBytes := none, outSince := none, ls := ls }

/-- RUN_PROGRAM in ADMITTING. -/
def runProgram (c : Cmd) (s : State) : State :=
  let h := c.block blkImage
  if headerBad c.p1 h then refuse c.key 0x20 s
  else match c.blockFail with
    | some (_, d) => complete c.key d s
    | none =>
      match lowest (imageDetails s (!c.freeMode) (slice 0 (0x40 + 16 * imgCount h) h) (c.block blkPreload)
          (c.block blkShare) (c.block blkReduce) (slice 0 64 (c.block blkParam)) c.p2) with
      | some d => refuse c.key d s
      | none =>
        match (if c.p3 = 0 then drawSeed s else (some (BitVec.ofNat 64 c.p3), s)) with
        | (none, s) => s
        | (some seed, s) =>
          let (ls, s) := if c.digest then lsAdmit c false s else (LockStep.off, s)
          let p := newProg c seed ls s
          readyOrder c.key (updCmd c.key (fun c => { c with
            st := .ready, work := .program p
            engines := if c.freeMode then [] else bitsOf 64 (imgMask h)
            anyEngines := if c.freeMode then popcount 64 (imgMask h) else 0 }) s)

/-- RUN_PROGRAM. -/
def execRunProgram (k : Key) (s : State) : Host.Outcome State Fault Refusal :=
  .next (match admitting s k 0x13 with | some c => runProgram c s | none => s)

end Sys2Proof.Machine
end

