-- ==== Sys2Proof/Machine/Program.lean ====
section
/-! DEFINITION. Engine programs at work (06): preload, the fetch of an instruction, faults, barriers and END, and the
audit of a program (R365 to R375). -/

namespace Sys2Proof.Machine

/-! ## A program in a command -/

def setProg (k : Key) (p : Prog) (s : State) : State := updCmd k (fun c => { c with work := .program p }) s

/-- Changes the program of a command, if it runs one. -/
def updProg (k : Key) (f : Prog → Prog) (s : State) : State :=
  updCmd k (fun c => match c.work with | .program p => { c with work := .program (f p) } | _ => c) s

/-- Bytes appended to program engine `i`'s entry. -/
def addAt (l : List (List Byte)) (i : Nat) (bs : List Byte) : List (List Byte) := l.set i (l.getD i [] ++ bs)

/-! ## Preload (R215, R237, R238, R272) -/

/-- Is the region of a preload entry still valid on the engine (R238)? -/
def reusable (e : Engine) (q : BitVec 16) (entry : List Byte) (src : Nat) : Bool :=
  preReuse entry && e.kept.any fun x => x.dst == preDst entry && x.len == preLen entry && x.src == src && x.queue == q

/-- One preload entry of program engine `i` on logical engine `n`: the bytes delivered, or the failure. -/
def preloadEntry (c : Cmd) (n i : Nat) (entry : List Byte) (s : State) : Except Decision (List Byte) × State :=
  let src := (preSrc entry + i * preStride entry) % 2 ^ 64
  let dst := 16 * preDst entry
  let len := 16 * preLen entry
  let got := if reusable (eng s n) c.key.q entry src then spadRead n dst len s
    else match devRead (cmdView s c) src len s with
      | (.error d, s) => (.error (atEngine n d), s)
      | (.ok bs, s) => (.ok bs, spadWrite n dst bs s)
  match got with
  | (.error d, s) => (.error d, s)
  | (.ok bs, s) =>
    (.ok bs, if preKeep entry then
      updEng n (fun e => { e with keepNext := e.keepNext ++ [⟨preDst entry, preLen entry, src, c.key.q⟩] }) s else s)

/-- All entries of one engine, in table order. -/
def preloadAll (c : Cmd) (n i : Nat) : List (List Byte) → State → Except Decision (List Byte) × State
  | [], s => (.ok [], s)
  | x :: xs, s =>
    match preloadEntry c n i x s with
    | (.error d, s) => (.error d, s)
    | (.ok bs, s) =>
      match preloadAll c n i xs s with
      | (.error d, s) => (.error d, s)
      | (.ok cs, s) => (.ok (bs ++ cs), s)

/-- The registers of program engine `i` of `count` (R215). -/
def startRegs (p : Prog) (i count : Nat) : Tab Word :=
  Tab.putList 0 (Tab.put 0 (Tab.put 0 [] 1 (BitVec.ofNat 32 i)) 2 (BitVec.ofNat 32 count)) 3
    ((List.range 13).map fun k => BitVec.ofNat 32 (leAt p.params (4 * k) 4))

/-- Logical engine `n` begins as program engine `i`: registers and windows; its preload is to come. -/
def startEngine (p : Prog) (n i count : Nat) (s : State) : State :=
  updEng n (fun e => { e with
    pst := .preload, pc := 0, progEngine := i, areg := startRegs p i count, names := 0, units := [], winBaseNow := e.winBase
    winSizeNow := e.winSize, dmaOut := [], keepNext := [] }) s

/-- The program is copied to an engine, which then issues its first instruction when its preloads are done (R206, R237). -/
def copyProgram (p : Prog) (n : Nat) (s : State) : State :=
  spadWrite n (16 * imgBase p.image) (p.image.drop 0x40) (updEng n (fun e => { e with pst := .run }) s)

/-- The preloads of all program engines: the bytes of each, or the first failure. -/
def preloadEngines (c : Cmd) (p : Prog) : List (Nat × Nat) → State → Except Decision (List (List Byte)) × State
  | [], s => (.ok [], s)
  | (n, i) :: rest, s =>
    match preloadAll c n i p.preloads (copyProgram p n s) with
    | (.error d, s) => (.error d, s)
    | (.ok bs, s) =>
      match preloadEngines c p rest s with
      | (.error d, s) => (.error d, s)
      | (.ok l, s) => (.ok (bs :: l), s)

/-- A program begins on its logical engines, which preload (R215, R237). -/
def startProgram (c : Cmd) (p : Prog) (engs : List Nat) (s : State) : State :=
  setProg c.key { p with engs := engs } (engs.zipIdx.foldl (fun st x => startEngine p x.1 x.2 engs.length st) s)

/-- Do all engines of a program preload? -/
def preloading (s : State) (p : Prog) : Bool := p.engs != [] && p.engs.all fun n => (eng s n).pst == .preload

/-- The preload of a program ends, in program engine order, and C_0 follows (R237, R367). -/
def preloadEnds (c : Cmd) (p : Prog) (s : State) : State :=
  match preloadEngines c p p.engs.zipIdx s with
  | (.error d, s) => complete c.key d s
  | (.ok per, s) =>
    if !p.digest then s
    else
      let pre := programInput p per
      let p := { p with inBytes := per, preDigest := pre, chain := firstCkpt p.settings (programMp p) pre }
      let (ls, s) := lsForm c p.ls 0 p.chain s
      setProg c.key { p with ls := ls } s

/-! ## The instruction at the PC -/

/-- What an instruction sees: the command, its program, the logical engine and its program engine number, the engine's
record with the PC and the scalar registers of the instruction's issue, the instruction, and, for one handed to a unit,
its place among the unfinished and whether it has begun. -/
structure Ectx where
  c : Cmd
  p : Prog
  n : Nat
  i : Nat
  e : Engine
  ins : Ins
  ix : Nat
  begun : Bool

/-- The running program of logical engine `n`. -/
def progOf (s : State) (n : Nat) : Option (Cmd × Prog) :=
  match (eng s n).cmd with
  | none => none
  | some k =>
    match running s k with
    | none => none
    | some c =>
      match c.work with
      | .program p => some (c, p)
      | _ => none

/-- May engine `n` issue: its command has not been stopped (R340), it runs or waits for a hazard, its PC lies in the
program, and lock-step lets work go on (R379)? -/
def mayIssue (s : State) (n : Nat) (c : Cmd) (p : Prog) : Bool :=
  c.decided.isNone && ((eng s n).pst == .run || (eng s n).pst == .waitHazard) && decide ((eng s n).pc < imgCount p.image) && lsMayPass p.ls p.ckpts.toNat

/-- What a row finds on its engine: an instruction that goes on, with the state it starts from, or nothing to do but what
the state given says. -/
inductive Go where
  | run (x : Ectx) (s : State)
  | stay (s : State)

/-- The state either leaves. -/
def Go.state : Go → State
  | .run _ s => s
  | .stay s => s

/-- The instruction at the PC of engine `n`, if it has this opcode; its fetch reads the scratchpad (R206). -/
def fetchIns (op n : Nat) (c : Cmd) (p : Prog) (s : State) : Go :=
  if mayIssue s n c p then
    match spadRead n (16 * (imgBase p.image + (eng s n).pc)) 16 s with
    | (.error d, s) => .stay (complete c.key d s)
    | (.ok bs, s') =>
      if (insOf bs).op = op then .run ⟨c, p, n, (eng s n).progEngine, eng s' n, insOf bs, 0, false⟩ s' else .stay s
  else .stay s

/-- Does `f` on the control instruction of this opcode at the PC of engine `n`. -/
def withIns (op n : Nat) (f : Ectx → State → State) (s : State) : State :=
  match progOf s n with
  | none => s
  | some (c, p) =>
    match fetchIns op n c p s with
    | .run x s => f x s
    | .stay s => s

/-! ## Units, their queues and hazards (R207, R208) -/

/-- The unit that runs an instruction: 1 the array (and with it the spin unit), 2 the vector unit, 3 the local DMA; 0 the
control unit. -/
def unitOf (op : Nat) : Nat :=
  if op ∈ [1, 2, 3, 4, 5, 8] then 1 else if op = 0x10 then 2 else if op = 0x18 ∨ op = 0x19 then 3 else 0

/-- The scratchpad ranges that the operands of an instruction read and write, with the scalar registers `areg`: the pieces
(written?, unit, count) of each, of which one that wraps in its window has several (R271). -/
def ranges (e : Engine) (areg : Tab Word) (x : Ins) : List (List (Bool × Nat × Nat)) :=
  let e := { e with areg := areg }
  let cnt := aReg e (x.par 11 8)
  (insSpads (elemUnits cnt) x).map fun o =>
    if o.d = noneOp then [] else ((spanOf e o.d o.units o.align).getD []).map fun r => (o.write, r.1, r.2)

/-- The pieces of all its ranges. -/
def touched (e : Engine) (areg : Tab Word) (x : Ins) : List (Bool × Nat × Nat) := (ranges e areg x).flatten

/-- How many ranges an instruction has outstanding: one for each operand that names bytes. -/
def rangeCount (e : Engine) (areg : Tab Word) (x : Ins) : Nat := ((ranges e areg x).filter fun r => !r.isEmpty).length

/-- Do ranges of two instructions meet in a byte that one of them writes? -/
def hazard (a b : List (Bool × Nat × Nat)) : Bool :=
  a.any fun x => b.any fun y => (x.1 || y.1) && rangesMeet x.2.1 x.2.2 y.2.1 y.2.2

def Issued.touched (e : Engine) (u : Issued) : List (Bool × Nat × Nat) := Machine.touched e u.areg u.ins

/-- Must a control instruction wait for the unfinished ones (R208)? -/
def mustWait (x : Ectx) : Bool := x.e.units.any fun u => hazard (u.touched x.e) (touched x.e x.e.areg x.ins)

/-- Must an instruction wait for an earlier unfinished one: for a byte that both touch, or in their unit's order? An OPEN or
an MMA goes on in the other tile register while a group drains (R31, R35). -/
def unitBehind (e : Engine) (y x : Issued) : Bool :=
  hazard (y.touched e) (x.touched e) ||
    (unitOf y.ins.op == unitOf x.ins.op &&
      !(y.begun && (y.ins.op == 3 || y.ins.op == 4) && (x.ins.op == 1 || x.ins.op == 2)))

/-- May the unfinished instruction at a place go on? One that has begun to wait for other engines goes on with them. -/
def unitFree (e : Engine) (i : Nat) : Bool :=
  match e.units[i]? with
  | none => false
  | some x => !(e.units.take i).any (fun y => unitBehind e y x) && !(x.begun && (x.ins.op == 8 || x.ins.op == 0x18))

/-- The first unfinished instruction of an opcode that may go on; for `begins`, of those that have not begun. -/
def firstFree (e : Engine) (op : Nat) (begins : Bool) : Option Nat :=
  (List.range e.units.length).find? fun i => unitFree e i &&
    (match e.units[i]? with | some u => u.ins.op == op && !(begins && u.begun) | none => false)

/-- The unfinished instruction at a place as it goes on. -/
def goUnit (c : Cmd) (p : Prog) (n i : Nat) (s : State) : Go :=
  match (eng s n).units[i]? with
  | some u => .run ⟨c, p, n, (eng s n).progEngine, { eng s n with areg := u.areg, pc := u.pc }, u.ins, i, u.begun⟩ s
  | none => .stay s

/-- Is the queue of an instruction's unit full? An instruction that has begun has left it (log 68). -/
def queueFull (e : Engine) (op : Nat) : Bool :=
  decide (4 ≤ (e.units.filter fun u => unitOf u.ins.op == unitOf op && !u.begun).length)

/-- Are the 32 ranges in use? An operand has one, however often it wraps in its window (R208, R271; log 68). -/
def rangesFull (e : Engine) (x : Ins) : Bool :=
  decide (32 < (e.units.map fun u => rangeCount e u.areg u.ins).foldl (· + ·) (rangeCount e e.areg x))

/-- Issue: the instruction is handed to its unit, and goes on at once where nothing is in its way. -/
def issueIns (x : Ectx) (s s' : State) : Go :=
  if queueFull x.e x.ins.op then .stay s
  else if rangesFull x.e x.ins then .stay (updEng x.n (fun e => { e with pst := .waitHazard }) s)
  else
    let s := updEng x.n (fun e => { e with
      units := e.units ++ [⟨e.pc, x.ins, e.areg, false⟩], pc := e.pc + 1, pst := .run }) s'
    if unitFree (eng s x.n) x.e.units.length then goUnit x.c x.p x.n x.e.units.length s else .stay s

/-! ## Tile registers (R31, R183, R186, R188) -/

def tileAt (e : Engine) (t : Nat) : TState := if t = 0 then e.tile0 else e.tile1
def setTile (t : Nat) (x : TState) (e : Engine) : Engine := if t = 0 then { e with tile0 := x } else { e with tile1 := x }

/-- The empty register that R186 takes. -/
def emptyTile (e : Engine) : Option Nat :=
  if e.tile0 = .empty then some 0 else if e.tile1 = .empty then some 1 else none

/-- The lowest free slot of the park. -/
def freeSlot (e : Engine) : Option Nat :=
  (List.range 6).find? fun k => !(List.range 8).any fun g =>
    ((grp e g).st == .parked || (grp e g).st == .parking || (grp e g).st == .unparking) && (grp e g).slot == k

/-- The held group that an instruction named less recently. -/
def victim (e : Engine) : Option Nat :=
  ((List.range 8).filter fun g => (grp e g).st == .resident && tileAt e (grp e g).tile == .held).foldl (fun best g =>
    match best with
    | none => some g
    | some b => if (grp e g).named < (grp e b).named then some g else some b) none

/-- A held group starts its way to the park; with no slot free it takes the one that `g` leaves (R186). -/
def parkFor (e : Engine) (g : Nat) : Option Engine :=
  match victim e with
  | none => none
  | some v =>
    let t := (grp e v).tile
    match freeSlot e with
    | some k => some (setTile t .park (setGrp v { grp e v with st := .parking, slot := k } e))
    | none =>
      if (grp e g).st = .parked then
        some (setTile t .park (setGrp g { grp e g with st := .unparking, tile := t }
          (setGrp v { grp e v with st := .parking, slot := (grp e g).slot } e)))
      else none

/-- What stands between an instruction and the register of the group it names: the register, or the engine as it waits. -/
inductive Seat where
  | at (t : Nat)
  | wait (e : Engine)

/-- Does a register hold a group that stays in it: at rest, being given its start value, or receiving products? -/
def TState.stays (t : TState) : Bool := t == .held || t == .start || t == .accum

/-- The transfer that makes room for group `g`: none while a register drains or is in transfer. Beside a group that
accumulates, the held one goes (R31). -/
def makeRoom (e : Engine) (g : Nat) : Option Engine :=
  if e.tile0.stays && e.tile1.stays then parkFor e g else none

/-- The engine as it waits for a register: for a drain to end, else for a group to be parked. -/
def freeTile (e : Engine) (g : Nat) : Engine := (makeRoom e g).getD e

/-- Parked group `g` starts its way to empty register `t`. -/
def unparkInto (t g : Nat) (e : Engine) : Engine :=
  setTile t .unpark (setGrp g { grp e g with st := .unparking, tile := t } e)

/-- A register for opening group `g`. -/
def seatNew (e : Engine) (g : Nat) : Seat :=
  match emptyTile e with
  | some t => .at t
  | none => .wait (freeTile e g)

/-- The register of open group `g`, which is brought back from the park first. -/
def seatOf (e : Engine) (g : Nat) : Seat :=
  match (grp e g).st with
  | .resident => .at (grp e g).tile
  | .parked =>
    match emptyTile e with
    | some t => .wait (unparkInto t g e)
    | none => .wait (freeTile e g)
  | _ => .wait e

/-- The transfer that an instruction behind others of the array can have begun while they work, for the register of the
group it names: of a parked group, or of one that makes room (R31). -/
def transferFor (e : Engine) (u : Issued) : Option Engine :=
  let g := u.ins.group
  match (grp e g).st with
  | .parked =>
    match emptyTile e with
    | some t => some (unparkInto t g e)
    | none => makeRoom e g
  | .closed => if u.ins.op = 1 ∧ (emptyTile e).isNone then makeRoom e g else none
  | _ => none

/-- Has the instruction begun, and does the array work on it alone: no RED that waits for other engines? -/
def Issued.underWay (u : Issued) : Bool := u.begun && decide (u.ins.op ∈ [1, 2, 3, 4])

/-- The transfer that the first instruction of an opcode lets begin that only instructions under way stand before in the
array. A DISCARD takes its group where it is. -/
def firstTransfer (e : Engine) (op : Nat) : Option Engine :=
  if unitOf op = 1 ∧ op ≠ 5 then
    (List.range e.units.length).findSome? fun i =>
      match e.units[i]? with
      | some u =>
        if u.ins.op = op ∧ u.begun = false ∧
            (e.units.take i).all (fun y => unitOf y.ins.op != 1 || y.underWay) = true then transferFor e u
        else none
      | none => none
  else none

/-! ## What a row of a unit finds -/

/-- What a row of an instruction that a unit runs finds: an unfinished one that may go on (for the row of its beginning
alone, `begins`, one that has not begun), else a transfer that one behind the array's can have begun, else the one at the
PC. -/
def unitGo (op n : Nat) (s : State) (begins : Bool := false) : Go :=
  match progOf s n with
  | none => .stay s
  | some (c, p) =>
    match firstFree (eng s n) op begins with
    | some i => goUnit c p n i s
    | none =>
      match firstTransfer (eng s n) op with
      | some e => .stay (setEng n e s)
      | none =>
        match fetchIns op n c p s with
        | .run x s' => issueIns x s s'
        | .stay s => .stay s

/-! ## A program that is stopped (R340) -/

/-- An engine issues no more and drops the instructions that have not begun. -/
def dropUnbegun (e : Engine) : Engine := { e with units := e.units.filter Issued.begun }

/-- A stopped program whose instructions in progress have all finished completes. One that waits for other engines, whose
instructions were dropped, does not finish (log 32). -/
def programStops (k : Key) (s : State) : State :=
  if (enginesOf s k).all (fun n => (eng s n).units.isEmpty) then completeDecided k s else s

/-- The stop of a program was decided. -/
def stopProgram (k : Key) (p : Prog) (s : State) : State :=
  programStops k (p.engs.foldl (fun st n => updEng n dropUnbegun st) s)

/-- Does `f` on the instruction of this opcode that goes on in its unit. -/
def withUnit (op n : Nat) (f : Ectx → State → State) (s : State) (begins : Bool := false) : State :=
  match unitGo op n s begins with
  | .run x s => if x.c.decided.isSome then programStops x.c.key (f x s) else f x s
  | .stay s => s

/-- The list with the instruction at a place begun. -/
def setBegun (i : Nat) (l : List Issued) : List Issued :=
  match l[i]? with
  | some u => l.set i { u with begun := true }
  | none => l

/-- The instruction has begun. -/
def beginIns (x : Ectx) (s : State) : State := updEng x.n (fun e => { e with units := setBegun x.ix e.units }) s
/-- The instruction has finished. -/
def retire (x : Ectx) (s : State) : State := updEng x.n (fun e => { e with units := e.units.eraseIdx x.ix }) s

/-- Is it an instruction of this opcode that waits for other engines? -/
def Issued.waiting (op : Nat) (u : Issued) : Bool := u.begun && u.ins.op == op
/-- The instruction of this opcode that waited for other engines on engine `n` has finished. -/
def retireWaiting (op n : Nat) (s : State) : State :=
  updEng n (fun e => { e with units := e.units.eraseP (Issued.waiting op) }) s
/-- Its index. -/
def waitingPc (e : Engine) (op : Nat) : Nat := match e.units.find? (Issued.waiting op) with | some u => u.pc | none => 0

/-- The engine goes on at instruction `t`. -/
def jumpTo (n t : Nat) (s : State) : State := updEng n (fun e => { e with pc := t, pst := .run }) s
/-- The engine goes on at the next instruction. -/
def advance (n : Nat) (s : State) : State := updEng n (fun e => { e with pc := e.pc + 1, pst := .run }) s
/-- A register is written and the engine goes on. -/
def writeA (n i v : Nat) (s : State) : State := advance n (updEng n (setA i v) s)

/-! ## Faults (R204, R240, R242) -/

/-- PROGRAM_FAULT at an instruction. -/
def faultDecision (x : Ectx) (code : Nat) : Decision :=
  { atEngine x.n (mkDecision 3 code 0) with pc := BitVec.ofNat 12 x.e.pc, group := BitVec.ofNat 3 x.ins.group }

/-- A fault ends the command on every program engine; its first is recorded. -/
def progFault (x : Ectx) (code : Nat) (s : State) : State :=
  failCmd x.c (faultDecision x code)
    (updEng x.n (fun e => if code < 0x10 then { e with fault := faultWord x.ins.group code }
                          else { e with pfault := pfaultWord x.e.pc code }) s)

/-- Fault codes of the array (R203). -/
def fNotOpen : Nat := 2
def fPairing : Nat := 3
def fDrain : Nat := 5
def fOpen : Nat := 6
/-- Fault codes of the program (R242). -/
def fAddress : Nat := 0x10
def fProgram : Nat := 0x11
def fExternal : Nat := 0x12
def fShare : Nat := 0x13
def fReduce : Nat := 0x14
def fEndOpen : Nat := 0x15

/-- Ranges that would write the program (R242). -/
def hitsProgram (p : Prog) (ps : List (Nat × Nat)) : Bool :=
  ps.any fun r => rangesMeet r.1 r.2 (imgBase p.image) (imgCount p.image)

/-- An operand read: its ranges or fault 0x10, then its bytes or the memory's failure. -/
def readOp (x : Ectx) (d units : Nat) (align : Bool) (f : List Byte → State → State) (s : State) : State :=
  match spanOf x.e d units align with
  | none => progFault x fAddress s
  | some ps =>
    match readSpan x.n ps s with
    | (.error dec, s) => failCmd x.c dec s
    | (.ok bs, s) => f bs s

/-- An operand to be written: its ranges, or fault 0x10 or 0x11. NONE writes nothing. -/
def spanW (x : Ectx) (d units : Nat) : Except Nat (List (Nat × Nat)) :=
  if d = noneOp then .ok []
  else match spanOf x.e d units false with
    | none => .error fAddress
    | some ps => if hitsProgram x.p ps then .error fProgram else .ok ps

/-- Several operands to be written (descriptor, units): checked before any byte is written (log 31). -/
def spansW (x : Ectx) : List (Nat × Nat) → Except Nat (List (List (Nat × Nat)))
  | [] => .ok []
  | (d, u) :: rest =>
    match spanW x d u with
    | .error f => .error f
    | .ok ps =>
      match spansW x rest with
      | .error f => .error f
      | .ok l => .ok (ps :: l)

/-- An instruction on open group `g`: it waits for the group's register first (R188). -/
def onGroup (x : Ectx) (f : Nat → State → State) (s : State) : State :=
  match seatOf (eng s x.n) x.ins.group with
  | .at t => f t s
  | .wait e => setEng x.n e s

/-- The group named, marked as the one named last (R186). -/
def nameGroup (g : Nat) (e : Engine) : Engine :=
  setGrp g { grp e g with named := e.names + 1 } { e with names := e.names + 1 }

/-- The accumulators of a group, nib by nib: row `i / 512`, column `i % 512`. -/
def accsOf (x : Group) : List Acc := Tab.window Acc.zero x.acc 0 65536
/-- The table of a list of accumulators. -/
def accTab (l : List Acc) : Tab Acc := (l.zipIdx.filter fun p => p.1 != Acc.zero).map fun p => (p.2, p.1)

/-- A group closes and its register is empty; flags keep their last values (R205). -/
def closeAt (g fl : Nat) (e : Engine) : Engine :=
  let x := grp e g
  let e := if x.st = .resident ∨ x.st = .draining then setTile x.tile .empty e else e
  setGrp g { closeGroup x with flags := BitVec.ofNat 6 fl } e

/-! ## Checkpoints and the end (R339, R366 to R375) -/

/-- A checkpoint of a program (R369). -/
def progCkpt (c : Cmd) (p : Prog) (s : State) : Prog × State :=
  let k := p.ckpts.toNat + 1
  let d := digOf (sha256 (digestBytes p.chain ++ leBytes 4 k ++ (p.outSince.map chunkedDigest).flatten))
  let (ls, s) := lsForm c p.ls k d s
  ({ p with chain := d, ckpts := p.ckpts + 1, outSince := p.outSince.map fun _ => [], ls := ls }, s)

/-- A program whose last engine executed END commits; its digest record and its record follow. -/
def commitProgram (c : Cmd) (p : Prog) (s : State) : State :=
  let d := stampD s (mkDecision 0 0 p.seed.toNat)
  if !p.digest then settle [(c.key, d)] (setProg c.key p s)
  else
    let (p, s) := progCkpt c p s
    let s := setProg c.key p s
    let a := leAt p.params 0x2C 8
    let out := digOf (sha256 ((p.outBytes.map chunkedDigest).flatten))
    let rec' := digestRecord 2 p.settings (if p.ordered then 0 else c.freePoint) (imgVary p.image) false c.key.seq
      p.ckpts.toNat p.seed p.ls c.retryWaits.toNat (maskOf p.engs) c.spares
      (programMp p) (programInput p p.inBytes) p.chain out
    if a % 64 ≠ 0 then settle [(c.key, { mkDecision 5 0x10 a with time := d.time })] s
    else
      match cmdWrite c a rec' s with
      | (.error e, s) => settle [(c.key, { e.dec with status := 5, detail := 0x10, time := d.time })] s
      | (.ok _, s) => settle [(c.key, d)] { s with det := { s.det with records := s.det.records + 1 } }

end Sys2Proof.Machine
end

