-- ==== Sys2Proof/Machine/ArrayIns.lean ====
section
/-! DEFINITION. The array instructions (06): OPEN, MMA, DRAIN, SAMPLE, DISCARD and RED, and the park's transfers. -/

namespace Sys2Proof.Machine

/-! ## OPEN (R184, R185, R218) -/

/-- The start values of a group: one per row, or a full tile, row by row; and the flags they raise. -/
def startAccs (float : Bool) (start fmt : Nat) (bs : List Byte) : List (Acc × Nat) :=
  let sz := if fmt = 2 then 8 else 4
  if start = 1 then (elems 4 128 bs).flatMap fun v => List.replicate 512 (startAcc float fmt v)
  else (elems sz 65536 bs).map (startAcc float fmt)

/-- The group is open in tile register `t` (R183: HELD). -/
def openIn (x : Ectx) (t : Nat) (accs : List (Acc × Nat)) (s : State) : State :=
  let g := x.ins.group
  let fl := accs.foldl (fun a p => a ||| p.2) 0
  retire x (updEng x.n (fun e => setTile t .held (nameGroup g (setGrp g
    { Group.init with st := .resident, float := x.ins.par 0 0 == 1, acc := accTab (accs.map Prod.fst)
                      flags := BitVec.ofNat 6 fl, tile := t } e))) s)

/-- OPEN begins in tile register `t`: START while the group is given a loaded start, else ACCUM (R183). -/
def openBegins (x : Ectx) (t : Nat) (s : State) : State :=
  let g := x.ins.group
  let zero := x.ins.par 2 1 == 0
  beginIns x (updEng x.n (fun e => setTile t (if zero then .accum else .start) (nameGroup g (setGrp g
    { Group.init with st := if zero then .resident else .starting, float := x.ins.par 0 0 == 1, tile := t } e))) s)

/-- OPEN ends in tile register `t`: the start values are in. -/
def openEnds (x : Ectx) (t : Nat) (s : State) : State :=
  let start := x.ins.par 2 1
  let fmt := x.ins.par 4 3
  if start = 0 then openIn x t [] s
  else
    readOp x x.ins.a (if start = 1 then 32 else if fmt = 2 then 32768 else 16384) false
      (fun bs s => openIn x t (startAccs (x.ins.par 0 0 == 1) start fmt bs) s) s

/-- With `begins`, the row is the instruction's beginning, else its end, and its beginning where it had none of its own. -/
def openIns (begins : Bool) (x : Ectx) (s : State) : State :=
  let g := x.ins.group
  if x.begun then openEnds x (grp x.e g).tile s
  else if (grp x.e g).st = .draining then s
  else if (grp x.e g).isOpen then progFault x fOpen s
  else
    match seatNew (eng s x.n) g with
    | .wait e => setEng x.n e s
    | .at t => if begins then openBegins x t s else openEnds x t s

/-- OPEN. -/
def execOpenGroup (n : Fin 64) (s : State) (begins : Bool := false) : Host.Outcome State Fault Refusal :=
  .next (withUnit 1 n.val (openIns begins) s begins)

/-! ## MMA (R170, R173, R176 to R181, R213, R218) -/

/-- The exact products of one nib: row `r`, column `j`. -/
def nibInts (rf cf sigma : Nat) (neg : Bool) (vs : List (Nat × Nat)) (r j : Nat) : List Int :=
  vs.map fun v =>
    let p := opInt rf (elemOf rf v.1 r) * opInt cf (elemOf cf v.2 j) * (2 ^ sigma : Nat)
    if neg then -p else p

def nibFloats (rf cf sigma : Nat) (neg : Bool) (vs : List (Nat × Nat)) (r j : Nat) : List FVal :=
  vs.map fun v =>
    let p := ((opVal rf (elemOf rf v.1 r)).mul (opVal cf (elemOf cf v.2 j))).scale sigma
    if neg then p.neg else p

/-- One nib's accumulation from its accumulator; `n` products stand in the open run. -/
def nibAcc (float : Bool) (n rf cf sigma : Nat) (neg : Bool) (vs : List (Nat × Nat)) (r j : Nat) (a : Acc) : Acc × Nat :=
  if float then
    let x := sumFloat n a 0 (nibFloats rf cf sigma neg vs r j)
    x.2
  else
    let x := sumInt a.v 0 (nibInts rf cf sigma neg vs r j)
    ({ a with v := x.1 }, x.2)

/-- Does a vector of INT8 hold the byte 0x80 (R168)? -/
def holdsClamp (f n : Nat) (vs : List Nat) : Bool :=
  f == 0 && vs.any fun v => (List.range n).any fun i => elemOf 0 v i == 0x80

/-- The group after `k` products. -/
def mmaGroup (x : Group) (rf cf sigma : Nat) (neg : Bool) (vs : List (Nat × Nat)) : Group :=
  let accs := (accsOf x).zipIdx.map fun p => nibAcc x.float x.n rf cf sigma neg vs (p.2 / 512) (p.2 % 512) p.1
  let k := x.k + vs.length
  let fl := accs.foldl (fun a p => a ||| p.2) 0 |||
    (if holdsClamp rf 128 (vs.map Prod.fst) || holdsClamp cf 512 (vs.map Prod.snd) then flI8 else 0) |||
    (if x.float then longFlag k else 0)
  { x with acc := accTab (accs.map Prod.fst), k := k, n := (x.n + vs.length) % 32, flags := x.flags ||| BitVec.ofNat 6 fl }

/-- MMA ends: the products are in, and the group in tile register `t` is HELD. -/
def mmaEnds (x : Ectx) (t : Nat) (s : State) : State :=
  let g := x.ins.group
  let rf := x.ins.par 2 0
  let cf := x.ins.par 5 3
  let k := fld x.ins.c 23 0
  readOp x x.ins.a (k * rowUnits rf) (decide (4 ≤ rowUnits rf)) (fun rows s =>
    readOp x x.ins.b (k * colUnits cf) true (fun cols s =>
      let vs := (vectors (rowUnits rf) k rows).zip (vectors (colUnits cf) k cols)
      let s := addSteps (k * pairSteps rf cf) s
      retire x (updEng x.n (fun e => setTile t .held
        (nameGroup g (setGrp g (mmaGroup (grp e g) rf cf (x.ins.par 11 6) x.ins.flag vs) e))) s)) s) s

def mmaIns (begins : Bool) (x : Ectx) (s : State) : State :=
  let g := x.ins.group
  if x.begun then mmaEnds x (grp x.e g).tile s
  else if !(grp x.e g).isOpen then progFault x fNotOpen s
  else if pairPath (x.ins.par 2 0) (x.ins.par 5 3) ≠ some (grp x.e g).float then progFault x fPairing s
  else
    onGroup x (fun t s =>
      if begins then beginIns x (updEng x.n (fun e => setTile t .accum (nameGroup g e)) s) else mmaEnds x t s) s

/-- MMA. -/
def execMma (n : Fin 64) (s : State) (begins : Bool := false) : Host.Outcome State Fault Refusal :=
  .next (withUnit 2 n.val (mmaIns begins) s begins)

/-! ## DRAIN (R189 to R197, R219, R220) -/

/-- What a drain delivers: element bits row by row, and the group's final flags. -/
def drained (x : Group) (fmt rshift : Nat) : List Nat × Nat :=
  let l := (accsOf x).map fun a =>
    let p := if x.float then promote x.n a else (a, 0)
    let o := drainElem fmt rshift p.1
    (o.1, p.2 ||| o.2)
  (l.map Prod.fst, l.foldl (fun a p => a ||| p.2) x.flags.toNat)

/-- The elements as bytes: rows of 512, or with TRANS columns of 128 (R220). -/
def tileBytes (size : Nat) (trans : Bool) (l : List Nat) : List Byte :=
  if trans then
    (List.range 512).flatMap fun j => (List.range 128).flatMap fun r => leBytes size (l.getD (512 * r + j) 0)
  else l.flatMap (leBytes size)

/-- The row record (R197). -/
def rowRecord (rowred fmt valid : Nat) (l : List Nat) : List Byte :=
  (List.range 128).flatMap fun r => rowEntry rowred fmt (((l.drop (512 * r)).take 512).take valid)

/-- The group starts to leave its tile register `t`: DRAIN, and the group DRAINING (R183, R203). -/
def drainBegins (x : Ectx) (t : Nat) (s : State) : State :=
  let g := x.ins.group
  beginIns x (updEng x.n (fun e =>
    let e := nameGroup g e
    setTile t .drain (setGrp g { grp e g with st := .draining } e)) s)

/-- DRAIN ends: elements, row record and status word are written, and the register is EMPTY. -/
def drainEnds (x : Ectx) (s : State) : State :=
  let g := x.ins.group
  let fmt := x.ins.par 2 0
  let red := x.ins.par 10 8
  match spansW x [(x.ins.a, 4096 * outBytes fmt), (x.ins.b, 1), (x.ins.c, if red = 0 then 0 else 128)] with
  | .ok [pa, pb, pc] =>
    let y := grp x.e g
    let (l, fl) := drained y fmt (x.ins.par 7 3)
    let s := writeSpan x.n pa (tileBytes (outBytes fmt) x.ins.flag l) s
    let s := writeSpan x.n pc (rowRecord red fmt (x.ins.par 19 11 + 1) l) s
    let s := writeSpan x.n pb (tileStatus g y fmt fl) s
    retire x (updEng x.n (fun e => closeAt g fl (nameGroup g e)) (countClose fl s))
  | .error f => progFault x f s
  | _ => s

def drainIns (begins : Bool) (x : Ectx) (s : State) : State :=
  let y := grp x.e x.ins.group
  if x.begun then drainEnds x s
  else if !y.isOpen then progFault x fNotOpen s
  else if !outAllowed y.float (x.ins.par 2 0) || (x.ins.par 10 8 == 4 && !y.float) then progFault x fDrain s
  else onGroup x (fun t s => if begins then drainBegins x t s else drainEnds x s) s

/-- DRAIN. -/
def execDrain (n : Fin 64) (s : State) (begins : Bool := false) : Host.Outcome State Fault Refusal :=
  .next (withUnit 3 n.val (drainIns begins) s begins)

/-! ## SAMPLE (R222 to R225) -/

/-- The field of a closed nib, and the flags of its last promotion: v, or t rounded to FP32 (R182). -/
def sampleField (x : Group) (a : Acc) : FVal × Nat :=
  if x.float then let p := promote x.n a; (of32 (to32 (of64 p.1.t)), p.2) else (ofInt a.v.toInt, 0)

/-- The decision of one element at its coordinates: +1? Equal coordinates draw equal noise (R223, R224). -/
def sampleUp (seed : Quad) (t row step col : Nat) (f : FVal) : Bool :=
  match f with
  | .nan => false
  | .inf neg => !neg
  | .fin neg m e => acceptUp (sm neg m) e t (noiseL seed row step col 3)

/-- tanh(f / T) in FP32 (R225). -/
def sampleMean (t : Nat) (f : FVal) : FVal :=
  if t = 0 then
    (match f with
     | .nan => ofInt (-1)
     | .inf neg => ofInt (if neg then -1 else 1)
     | .fin neg m _ => ofInt (if neg && m != 0 then -1 else 1))
  else
    of32 (match f with
      | .fin neg m e => let r := ratOf neg (m * 65536) e; tanhRat r.1 (r.2 * t)
      | v => vTanh v)

/-- The spins of the tile as bits, row by row and column by column. -/
def spinRows (l : List Bool) : List Byte :=
  (List.range 128).flatMap fun r => leBytes 64 (ofBits ((List.range 512).filter fun j => l.getD (512 * r + j) false))
def spinCols (l : List Bool) : List Byte :=
  (List.range 512).flatMap fun j => leBytes 16 (ofBits ((List.range 128).filter fun r => l.getD (512 * r + j) false))

/-- Bytes of a mean. -/
def meanBytes (f : Nat) : Nat := if f = 6 then 4 else if f = 5 then 2 else 1

/-- SAMPLE ends: spins and means are written, and the register is EMPTY. -/
def sampleEnds (x : Ectx) (s : State) : State :=
  let g := x.ins.group
  let mf := x.ins.par 18 16
  match spansW x [(x.ins.a, 512), (x.ins.b, 512), (x.ins.c, 4096 * meanBytes mf)] with
  | .ok [pa, pb, pc] =>
    let y := grp x.e g
    let t := aReg x.e (x.ins.par 3 0)
    let row := aReg x.e (x.ins.par 7 4)
    let col := aReg x.e (x.ins.par 11 8)
    let step := aReg x.e (x.ins.par 15 12)
    let fs := (accsOf y).map (sampleField y)
    let fl := fs.foldl (fun a p => a ||| p.2) y.flags.toNat
    let ups := fs.zipIdx.map fun p =>
      sampleUp x.p.seed t ((row + p.2 / 512) % 2 ^ 32) step ((col + p.2 % 512) % 2 ^ 32) p.1.1
    let s := writeSpan x.n pa (spinRows ups) s
    let s := writeSpan x.n pb (spinCols ups) s
    let s := writeSpan x.n pc
      (tileBytes (meanBytes mf) (x.ins.par 19 19 == 1) (fs.map fun p => floatOut mf (sampleMean t p.1))) s
    retire x (updEng x.n (fun e => closeAt g fl (nameGroup g e)) (countClose fl s))
  | .error f => progFault x f s
  | _ => s

/-- SAMPLE closes its group as a DRAIN does (R222). -/
def sampleIns (begins : Bool) (x : Ectx) (s : State) : State :=
  if x.begun then sampleEnds x s
  else if !(grp x.e x.ins.group).isOpen then progFault x fNotOpen s
  else onGroup x (fun t s => if begins then drainBegins x t s else sampleEnds x s) s

/-- SAMPLE. -/
def execSample (n : Fin 64) (s : State) (begins : Bool := false) : Host.Outcome State Fault Refusal :=
  .next (withUnit 4 n.val (sampleIns begins) s begins)

/-! ## DISCARD (R183, R188, R205) -/

/-- A parked group is discarded where it is; one in transfer is waited for. -/
def discardIns (x : Ectx) (s : State) : State :=
  let g := x.ins.group
  match (grp x.e g).st with
  | .closed => progFault x fNotOpen s
  | .parking => s
  | .unparking => s
  | .draining => s
  | _ => retire x (updEng x.n (fun e => closeAt g (grp e g).flags.toNat (nameGroup g e)) s)

/-- DISCARD. -/
def execDiscard (n : Fin 64) (s : State) : Host.Outcome State Fault Refusal := .next (withUnit 5 n.val discardIns s)

/-! ## RED (R198, R226, R227) -/

/-- A group's nib as a part to be combined: promoted, with its flags. -/
def nibPart (x : Group) (a : Acc) : Part :=
  if x.float then
    let p := promote x.n a
    { bits := p.1.t, flags := p.2, k := 0 }
  else { bits := BitVec.ofInt 64 a.v.toInt, flags := 0, k := 0 }

/-- A combined part back in a nib: v, or t with an empty run. -/
def partAcc (float : Bool) (p : Part) : Acc :=
  if float then { v := 0, t := p.bits, r := 0 } else { v := BitVec.ofInt 32 p.bits.toInt, t := 0, r := 0 }

/-- The groups combined nib by nib; `order` keeps the given order of arrival after part 0 (R227). -/
def combineGroups (gs : List Group) (arrival : Bool) : Group :=
  match gs with
  | [] => Group.init
  | x :: _ =>
    let cols := gs.map fun y => (accsOf y).map (nibPart y)
    let nibs := (List.range 65536).map fun i =>
      let ps := cols.map fun l => l.getD i ⟨0, 0, 0⟩
      if arrival then (match ps with | [] => ⟨0, 0, 0⟩ | p :: r => r.foldl (combine2 x.float) p)
      else combineParts x.float 3 ps
    { x with
      acc := accTab (nibs.map (partAcc x.float)), k := (gs.map (·.k)).foldl (· + ·) 0, n := 0
      flags := (gs.foldl (fun a y => a ||| y.flags) 0) |||
        BitVec.ofNat 6 (nibs.foldl (fun a p => a ||| p.flags) 0) }

/-- The program engines that wait at entry `e`, in order of arrival. -/
def redWaits (p : Prog) (e : Nat) : List RedWait := p.waitRed.filter fun w => w.entry == e

/-- Do two engines wait for one another on different entries? -/
def redCross (p : Prog) (i entry : Nat) : Bool :=
  p.waitRed.any fun w => w.entry != entry && decide (i ∈ p.reduces.getD w.entry []) &&
    decide (w.p ∈ p.reduces.getD entry [])

/-- The flags of a group that leaves as a part: its own and those of its final promotion (R198). -/
def partFlags (x : Group) : Nat := (accsOf x).foldl (fun f a => f ||| (nibPart x a).flags) x.flags.toNat

/-- The last part has arrived: the groups are combined into part 0's. -/
def redEnds (x : Ectx) (parts : List Nat) (waits : List RedWait) (s : State) : State :=
  let g := x.ins.group
  let engOf := fun i => x.p.engs.getD i 0
  let groupOf := fun i => grp (eng s (engOf i)) g
  let first := parts.headD 0
  if waits.any (fun w => w.group != g) || parts.any (fun i => (groupOf i).float != (groupOf first).float) then
    progFault x fReduce s
  else
    let arrival := !x.p.ordered && waits.any fun w => w.p == first && w.order
    let order := if arrival then first :: (waits.map RedWait.p).filter (· != first) else parts
    let y := combineGroups (order.map groupOf) arrival
    let s := updProg x.c.key (fun p => { p with waitRed := p.waitRed.filter fun w => !decide (w ∈ waits) }) s
    let y := { y with tile := (groupOf first).tile, slot := (groupOf first).slot, st := (groupOf first).st
                      named := (groupOf first).named }
    let s := updEng (engOf first) (setGrp g y) s
    let s := (parts.drop 1).foldl (fun st i => updEng (engOf i) (fun e => closeAt g (partFlags (grp e g)) e) st) s
    parts.foldl (fun st i => retireWaiting 8 (engOf i) st) s

def redIns (x : Ectx) (s : State) : State :=
  let g := x.ins.group
  let entry := x.ins.par 4 0
  let parts := x.p.reduces.getD entry []
  if !(grp x.e g).isOpen then progFault x fNotOpen s
  else if !decide (x.i ∈ parts) || redCross x.p x.i entry then progFault x fReduce s
  else
    onGroup x (fun _ s =>
      let me : RedWait := ⟨x.i, entry, g, x.ins.flag⟩
      let waits := redWaits x.p entry ++ [me]
      let s := updProg x.c.key (fun p => { p with waitRed := p.waitRed ++ [me] }) s
      let s := beginIns x (updEng x.n (nameGroup g) s)
      if waits.length = parts.length then redEnds x parts waits s else s) s

/-- RED. -/
def execRed (n : Fin 64) (s : State) : Host.Outcome State Fault Refusal := .next (withUnit 8 n.val redIns s)

/-! ## The park's transfers (R186, R187) -/

/-- A group's way to the park ends: its register is empty, or goes to the group that takes its slot. -/
def parkEnds (g : Nat) (e : Engine) : Engine :=
  let x := grp e g
  let next := (List.range 8).any fun h => (grp e h).st == .unparking && (grp e h).tile == x.tile
  setTile x.tile (if next then .unpark else .empty) (setGrp g { x with st := .parked, tile := 3 } e)

/-- PARK. -/
def execPark (n : Fin 64) (g : Fin 8) (s : State) : Host.Outcome State Fault Refusal :=
  .next (if (grp (eng s n.val) g.val).st = .parking ∧ isUp s then updEng n.val (parkEnds g.val) s else s)

/-- A group arrives in its register. -/
def unparkEnds (g : Nat) (e : Engine) : Engine :=
  let x := grp e g
  setTile x.tile .held (setGrp g { x with st := .resident, slot := 7 } e)

/-- An uncorrectable park error: the group is lost, fault 0x04, ENGINE_FAULT detail 0x02. -/
def parkLost (n g : Nat) (s : State) : State :=
  let s := arrFlag 6 { s with arr := { s.arr with parkUncorr := satInc s.arr.parkUncorr } }
  let s := updEng n (fun e => { setTile (grp e g).tile .empty (setGrp g (closeGroup (grp e g)) e) with
    fault := faultWord g 4 }) s
  match (eng s n).cmd with
  | some k => (match findCmd s k with | some c => failCmd c (atEngine n (mkDecision 4 2 0)) s | none => s)
  | none => s

/-- UNPARK. -/
def execUnpark (n : Fin 64) (g : Fin 8) (ecc : Ecc) (s : State) : Host.Outcome State Fault Refusal :=
  .next (
    let x := grp (eng s n.val) g.val
    if x.st = .unparking ∧ tileAt (eng s n.val) x.tile = .unpark ∧ isUp s then
      match ecc with
      | .clean => updEng n.val (unparkEnds g.val) s
      | .corrected k => updEng n.val (unparkEnds g.val) { s with arr := { s.arr with parkCorr := satAdd s.arr.parkCorr k } }
      | .uncorrectable => parkLost n.val g.val s
    else s)

end Sys2Proof.Machine
end

