-- ==== Sys2Proof/Machine/Blotter.lean ====
section
/-! DEFINITION. The Blotter (13): records, their slots, the writer with its rate limit, and the scan at boot. -/

namespace Sys2Proof.Machine

/-! ## Records (R521) -/

/-- The DATA bytes of a record: those that its code uses, then zeros (R521). -/
def bbData (e : Event) : List Byte :=
  let used := if e.data = [] then 0 else min (Config.blotterUsed e.code) 96
  slice 0 96 (leBytes used (Config.blotterData e.code e.data).toNat)

/-- The bytes of a record that its CRC covers. -/
def bbBody (seq : Nat) (e : Event) : List Byte :=
  leBytes 8 seq ++ leBytes 4 e.boot ++ leBytes 4 (put' e.code 16 16 + put' e.source 8 8 + e.severity % 16) ++
  leBytes 8 e.time ++ bbData e ++ leBytes 4 0

/-- A whole record. -/
def bbRecord (seq : Nat) (e : Event) : BitVec 1024 :=
  let b := bbBody seq e
  BitVec.ofNat 1024 (leNat b + crc32 b * 2 ^ 992)

/-- EVENT_SEQ of a slot's contents. -/
def bbSeq (r : BitVec 1024) : Nat := r.toNat % 2 ^ 64

/-- Does a slot's CRC verify? -/
def bbGood (r : BitVec 1024) : Bool := crc32 (leBytes 124 r.toNat) == r.toNat / 2 ^ 992

def bbSlot (s : State) (i : Nat) : BitVec 1024 := Tab.get 0 s.bb.slots i

/-! ## The writer (R523) -/

/-- One record is written: BB_NEXT advances, the slot is written, BB_DONE advances. -/
def bbPut (e : Event) (s : State) : State :=
  let n := s.bb.next.toNat
  let s := bbFlag 0 { s with bb := { s.bb with
    slots := Tab.put 0 s.bb.slots (n % 65536) (bbRecord n e), next := s.bb.next + 1, done := s.bb.next + 1 } }
  if 3 ≤ e.severity then bbFlag 1 s else s

/-- Records of a code written in this second, and those suppressed. -/
def rateOf (s : State) (code : Nat) : Nat × Nat :=
  match s.bb.rate.find? fun r => r.1 == code with
  | some r => r.2
  | none => (0, 0)

def setRate (code w n : Nat) (s : State) : State :=
  { s with bb := { s.bb with rate := (s.bb.rate.filter fun r => r.1 != code) ++ [(code, w, n)] } }

/-- The record that follows lost events. -/
def overrunEvent (s : State) : Event :=
  { code := 0xFF, source := 10, severity := 3, data := [s.bb.owed], time := s.now - s.boot.t0, boot := s.flash.bootCount }

/-- The next queued event is written, or counted when its code had its 16 records in this second; after a loss an
OVERRUN comes first. -/
def blotterStep (s : State) : State :=
  match s.bb.queue with
  | [] => s
  | e :: rest =>
    if 0 < s.bb.owed then bbPut (overrunEvent s) { s with bb := { s.bb with owed := 0 } }
    else
      let s := { s with bb := { s.bb with queue := rest } }
      let r := rateOf s e.code
      if e.severity ≠ 4 ∧ 16 ≤ r.1 then
        setRate e.code r.1 (r.2 + 1) { s with bb := { s.bb with suppressed := satInc s.bb.suppressed } }
      else bbPut e (setRate e.code (r.1 + 1) r.2 s)

/-- The queue is written out before a reset that the E64 starts itself. -/
def blotterFlush : Nat → State → State
  | 0, s => s
  | fuel + 1, s => if s.bb.queue = [] then s else blotterFlush fuel (blotterStep s)

/-- Does SP3 write records: not before the boot ROM has scanned the slots (R498 step 2, R524)? -/
def bbScanned (s : State) : Bool := s.boot.phase != .held && s.boot.phase != .booting

/-- BLOTTER_WRITE. -/
def execBlotterWrite (s : State) : Host.Outcome State Fault Refusal :=
  .next (if bbScanned s then blotterStep s else s)

/-- SUPPRESSED: a second of the reference clock ends; each code that was limited in it gets one record. -/
def execSuppressed (s : State) : Host.Outcome State Fault Refusal :=
  .next (if s.boot.phase = .held then s else
    let excess := s.bb.rate.filter fun r => decide (0 < r.2.2)
    excess.foldl (fun st r => logEvent 0xFE 10 [r.1, r.2.2] st) { s with bb := { s.bb with rate := [] } })

/-! ## The scan at boot (R524) -/

/-- BB_NEXT and BB_DONE one past the newest good record, and the torn slots counted. -/
def blotterScan (s : State) : State :=
  let good := s.bb.slots.filter fun p => bbGood p.2
  let torn := (s.bb.slots.filter fun p => !bbGood p.2 && decide (bbSeq p.2 ≠ 0)).length
  let top := good.foldl (fun a p => max a (bbSeq p.2 + 1)) 0
  { s with bb := { s.bb with
      next := BitVec.ofNat 64 top, done := BitVec.ofNat 64 top, torn := BitVec.ofNat 32 (min torn 0xFFFFFFFF) } }

end Sys2Proof.Machine
end

