-- ==== Sys2Proof/Machine/Icu.lean ====
section
/-! DEFINITION. The interrupt controller (10): sources, delivery, claims, withdrawals, sleep and wake. -/

namespace Sys2Proof.Machine

/-! ## Sources (R396, R397) -/

def icuReserved (n : Nat) : Bool :=
  decide (13 ≤ n ∧ n ≤ 31) || decide (104 ≤ n ∧ n ≤ 127) || decide (146 ≤ n ∧ n ≤ 255) || decide (512 ≤ n)
def icuLevel (n : Nat) : Bool := decide (n ≤ 12)
def icuMessage (n : Nat) : Bool := !icuReserved n && !icuLevel n

def src (s : State) (n : Nat) : Src := Tab.get Src.init s.icu.src n
def setSrc (n : Nat) (x : Src) (s : State) : State :=
  { s with icu := { s.icu with src := Tab.put Src.init s.icu.src n x } }
def updSrc (n : Nat) (f : Src → Src) (s : State) : State := setSrc n (f (src s n)) s
def tgt (s : State) (t : Nat) : Tgt := Tab.get Tgt.init s.icu.tgt t
def setTgt (t : Nat) (x : Tgt) (s : State) : State :=
  { s with icu := { s.icu with tgt := Tab.put Tgt.init s.icu.tgt t x } }
def updTgt (t : Nat) (f : Tgt → Tgt) (s : State) : State := setTgt t (f (tgt s t)) s

/-- Is TAMPER_N low now? -/
def tamperNow (s : State) : Bool := decide (s.now < s.svc.tamperEnd)

/-- Is block source `n` asserted: its status register ANDed with its enables, or the tamper input (R397, R398)? -/
def lineNow (s : State) (n : Nat) : Bool :=
  match n with
  | 0 => (s.fe.status &&& s.fe.intEn) != 0
  | 1 => (s.anl.status &&& s.anl.intEn) != 0
  | 2 => (s.arr.status &&& s.arr.intEn) != 0
  | 3 => (s.mem.status &&& s.mem.intEn) != 0
  | 4 => (s.det.status.setWidth 5 ||| BitVec.ofNat 5 (at' (offlineMask s != 0) 4)) &&& s.det.intEn != 0
  | 5 => (s.rng.flags &&& s.rng.intEn) != 0
  | 6 => (s.ing.status &&& s.ing.intEn) != 0
  | 7 => (s.kw.status &&& s.kw.intEn) != 0
  | 8 => (s.svc.status.setWidth 4 ||| BitVec.ofNat 4 (at' (tamperNow s) 3)) &&& s.svc.intEn != 0
  | 9 => (s.boot.status &&& s.boot.intEn) != 0
  | 10 => (s.bb.status &&& s.bb.intEn) != 0
  | 11 => (s.pwr.status &&& s.pwr.intEn) != 0
  | 12 => tamperNow s
  | _ => false

/-- One MSI-X message on the forwarding vector, if forwarding is on for the source (R418). -/
def hostForward (n : Nat) (s : State) : State :=
  if s.icu.hostVec.getLsbD 31 && (Tab.get 0 s.icu.hostEn (n / 32)).getLsbD (n % 32) then
    sendMsix (s.icu.hostVec.toNat % 2048) s
  else s

/-! ## Requests (R399, R400, R416) -/

/-- A message source is set. -/
def icuSet (n : Nat) (s : State) : State :=
  match (src s n).st with
  | .idle => hostForward n (updSrc n (fun x => { x with st := .pending }) s)
  | .active => updSrc n (fun x => { x with st := .activePending }) s
  | _ => { s with icu := { s.icu with merged := satInc s.icu.merged } }

/-- A source leaves its claim's or delivery's target. -/
def Src.drop (x : Src) : Src := { x with holder := 7 }

/-- A message source's pending request is cleared. -/
def icuClear (n : Nat) (s : State) : State :=
  match (src s n).st with
  | .pending | .delivered => updSrc n (fun x => { x.drop with st := .idle, withdrawn := none }) s
  | .activePending => updSrc n (fun x => { x with st := .active }) s
  | _ => s

/-- A delivery is withdrawn before its claim (R407). -/
def icuWithdraw (n : Nat) (s : State) : State :=
  updSrc n (fun x => if x.st = .delivered then { x.drop with st := .pending, withdrawn := some x.holder } else x) s

/-- MESSAGE_ARRIVAL: a message that a block sent reaches the ICU. -/
def execMessageArrival (n : Fin 512) (s : State) : Host.Outcome State Fault Refusal :=
  .next (if n.val ∈ s.icu.messages ∧ icuMessage n.val then
    icuSet n.val { s with icu := { s.icu with messages := s.icu.messages.erase n.val } }
  else s)

/-- LEVEL_ASSERT. -/
def execLevelAssert (n : Fin 512) (s : State) : Host.Outcome State Fault Refusal :=
  .next (if icuLevel n.val && !(src s n.val).line && lineNow s n.val then
    hostForward n.val (updSrc n.val (fun x => { x with
      line := true, st := if x.st = .idle then .pending else x.st }) s)
  else s)

/-- LEVEL_DROP. -/
def execLevelDrop (n : Fin 512) (s : State) : Host.Outcome State Fault Refusal :=
  .next (if icuLevel n.val && (src s n.val).line && !lineNow s n.val then
    updSrc n.val (fun x => match x.st with
      | .pending | .delivered => { x.drop with line := false, st := .idle, withdrawn := none }
      | _ => { x with line := false }) s
  else s)

/-! ## Delivery (R402 to R405, R413 to R415) -/

/-- Does target `t` accept priority `p` (R402)? -/
def tgtAccepts (x : Tgt) (p : Nat) : Bool :=
  x.power == .awake && !x.mask && decide (x.threshold.toNat ≤ p) && x.claims.all fun c => decide (c.2 < p)

/-- The rank of a target (R403). -/
def tgtRank (x : Tgt) : Nat := x.claims.foldl (fun a c => max a (c.2 + 1)) 0

/-- The eligible target of lowest rank, the lowest-numbered among equals. -/
def bestTarget (s : State) (x : Src) : Option Nat :=
  ((List.range 5).filter fun t => x.targets.getLsbD t && tgtAccepts (tgt s t) x.prio.toNat).foldl (fun best t =>
    match best with
    | none => some t
    | some b => if tgtRank (tgt s t) < tgtRank (tgt s b) then some t else some b) none

/-- Enabled PENDING sources. -/
def waitingSources (s : State) : List Nat :=
  (Tab.keys s.icu.src).filter fun n => (src s n).en && (src s n).st == .pending && !icuReserved n

/-- Of some sources, the one of highest priority, the lowest-numbered among equals (R405). -/
def topSource (s : State) (l : List Nat) : Option Nat :=
  l.foldl (fun best n =>
    match best with
    | none => some n
    | some b => if (src s b).prio.toNat < (src s n).prio.toNat then some n else some b) none

/-- A source is presented to a target. -/
def deliverTo (n t : Nat) (s : State) : State :=
  let moved := match (src s n).withdrawn with | some h => h != t | none => false
  let s := updSrc n (fun x => { x with st := .delivered, holder := t, withdrawn := none }) s
  if moved then { s with icu := { s.icu with reroute := satInc s.icu.reroute } } else s

/-- Does a source have a sleeping target and no awake one (R413)? -/
def wantsWake (s : State) (x : Src) : Bool :=
  let ts := (List.range 5).filter fun t => x.targets.getLsbD t
  (ts.any fun t => (tgt s t).power == .sleeping) && ts.all fun t => (tgt s t).power != .awake

/-- The lowest-numbered sleeping target of a source is woken (R413, R414). -/
def wakeFor (n : Nat) (s : State) : State :=
  match (List.range 5).find? fun t => (src s n).targets.getLsbD t && (tgt s t).power == .sleeping with
  | some t =>
    let s := updTgt t (fun x => { x with power := .waking, wakeValid := true, wakeSrc := BitVec.ofNat 10 n }) s
    { s with icu := { s.icu with wakes := satInc s.icu.wakes } }
  | none => s

/-- One delivery, or else one wake. -/
def icuDeliver (s : State) : State :=
  let ws := waitingSources s
  match topSource s (ws.filter fun n => (bestTarget s (src s n)).isSome) with
  | some n => (match bestTarget s (src s n) with | some t => deliverTo n t s | none => s)
  | none =>
    match topSource s (ws.filter fun n => wantsWake s (src s n)) with
    | some n => wakeFor n s
    | none => s

/-- DELIVERY. -/
def execDelivery (s : State) : Host.Outcome State Fault Refusal := .next (icuDeliver s)

/-- TARGET_AWAKE. -/
def execTargetAwake (t : Fin 5) (s : State) : Host.Outcome State Fault Refusal :=
  .next (if (tgt s t.val).power = .waking then updTgt t.val (fun x => { x with power := .awake }) s else s)

/-- Sources DELIVERED to a target. -/
def deliveredTo (s : State) (t : Nat) : List Nat :=
  (Tab.keys s.icu.src).filter fun n => (src s n).st == .delivered && (src s n).holder == t

/-- TARGET_SLEEP. -/
def execTargetSleep (t : Fin 5) (s : State) : Host.Outcome State Fault Refusal :=
  .next (if (tgt s t.val).power = .awake then
    (deliveredTo s t.val).foldl (fun st n => icuWithdraw n st) (updTgt t.val (fun x => { x with power := .sleeping }) s)
  else s)

/-! ## Claim and completion (R406, R409, R410) -/

/-- Does a target hold no claim of this priority? It holds at most one for each level (R402). -/
def levelFree (x : Tgt) (p : Nat) : Bool := x.claims.all fun c => c.2 != p

/-- The source that a claim read by `t` would return now: a source of a level at which `t` holds a claim waits, DELIVERED,
for that claim's completion (R402, log 36). -/
def nextClaim (s : State) (t : Nat) : Option Nat :=
  topSource s ((deliveredTo s t).filter fun n => levelFree (tgt s t) (src s n).prio.toNat)

/-- A claim read by a target: the value, and the state after. -/
def icuClaim (t : Nat) (s : State) : Nat × State :=
  match nextClaim s t with
  | some n =>
    let p := (src s n).prio.toNat
    (n, updTgt t (fun x => { x with claims := x.claims ++ [(n, p)] }) (updSrc n (fun x => { x with st := .active }) s))
  | none => (0x3FF, icuFlag 0 { s with icu := { s.icu with spurious := satInc s.icu.spurious } })

/-- ICU_T_CLAIM: a read on a path; through BAR0 it claims nothing (R422). -/
def execIcuTClaim (path : Path) (t : Fin 5) (s : State) : Host.Outcome State Fault Refusal :=
  .next (if !pathUp s path then s else
    match path with
    | .bar0 => emit (.readData path 0x3FF) s
    | .localPort =>
      let (n, s) := icuClaim t.val s
      emit (.readData path (BitVec.ofNat 64 n)) s)

/-- A completion write. -/
def icuComplete (t n : Nat) (s : State) : State :=
  if n = 0x3FF then s
  else
    let x := src s n
    if (x.st = .active ∨ x.st = .activePending) ∧ x.holder = t then
      let again := x.st == .activePending || (icuLevel n && x.line)
      updTgt t (fun y => { y with claims := y.claims.filter fun c => c.1 != n })
        (updSrc n (fun x => { x.drop with st := if again then .pending else .idle }) s)
    else icuFlag 1 { s with icu := { s.icu with badComplete := satInc s.icu.badComplete } }

/-- A BAR0 write that the ICU drops (R419). -/
def icuDenied (s : State) : State := icuFlag 2 { s with icu := { s.icu with bar0Denied := satInc s.icu.bar0Denied } }

/-- A write on a path: through BAR0 it is dropped and counted. -/
def icuWrite (path : Path) (f : State → State) (s : State) : State :=
  if !pathUp s path then s else match path with | .bar0 => icuDenied s | .localPort => f s

/-- ICU_T_COMPLETE. -/
def execIcuTComplete (path : Path) (t : Fin 5) (value : Word) (s : State) : Host.Outcome State Fault Refusal :=
  .next (icuWrite path (icuComplete t.val (value.toNat % 1024)) s)

/-! ## Set, clear and configuration (R401, R407, R412, R416) -/

/-- The sources that a mask of word `w` names. -/
def maskSources (w : Nat) (mask : Word) : List Nat := (bitsOf 32 mask.toNat).map (· + 32 * w)

/-- ICU_PEND_SET. -/
def icuPendSet (w : Nat) (mask : Word) (s : State) : State :=
  ((maskSources w mask).filter icuMessage).foldl (fun st n => icuSet n st) s
def execIcuPendSet (path : Path) (w : Fin 16) (mask : Word) (s : State) : Host.Outcome State Fault Refusal :=
  .next (icuWrite path (icuPendSet w.val mask) s)

/-- ICU_PEND_CLR. -/
def icuPendClr (w : Nat) (mask : Word) (s : State) : State :=
  ((maskSources w mask).filter icuMessage).foldl (fun st n => icuClear n st) s
def execIcuPendClr (path : Path) (w : Fin 16) (mask : Word) (s : State) : Host.Outcome State Fault Refusal :=
  .next (icuWrite path (icuPendClr w.val mask) s)

/-- ICU_EN_SET. -/
def icuEnSet (w : Nat) (mask : Word) (s : State) : State :=
  ((maskSources w mask).filter fun n => !icuReserved n).foldl (fun st n => updSrc n (fun x => { x with en := true }) st) s
def execIcuEnSet (path : Path) (w : Fin 16) (mask : Word) (s : State) : Host.Outcome State Fault Refusal :=
  .next (icuWrite path (icuEnSet w.val mask) s)

/-- ICU_EN_CLR. -/
def icuEnClr (w : Nat) (mask : Word) (s : State) : State :=
  (maskSources w mask).foldl (fun st n => icuWithdraw n (updSrc n (fun x => { x with en := false }) st)) s
def execIcuEnClr (path : Path) (w : Fin 16) (mask : Word) (s : State) : Host.Outcome State Fault Refusal :=
  .next (icuWrite path (icuEnClr w.val mask) s)

/-- ICU_T_CTRL: MASK and THRESHOLD; deliveries that the target no longer takes are withdrawn. -/
def icuTCtrl (t : Nat) (v : Word) (s : State) : State :=
  let s := updTgt t (fun x => { x with mask := v.getLsbD 4, threshold := v.setWidth 4 }) s
  ((deliveredTo s t).filter fun n => v.getLsbD 4 || decide ((src s n).prio.toNat < v.toNat % 16)).foldl
    (fun st n => icuWithdraw n st) s
def execIcuTCtrlWrite (path : Path) (t : Fin 5) (value : Word) (s : State) : Host.Outcome State Fault Refusal :=
  .next (icuWrite path (icuTCtrl t.val value) s)

/-- ICU_SRC_CFG: TARGETS and PRIORITY; a delivery whose holder is no longer a target, or does not accept the changed
priority, is withdrawn. -/
def icuSrcCfg (n : Nat) (v : Word) (s : State) : State :=
  if icuReserved n then s else
  let old := src s n
  let s := updSrc n (fun x => { x with targets := BitVec.ofNat 5 (v.toNat / 2 ^ 16), prio := v.setWidth 4 }) s
  let x := src s n
  if !x.targets.getLsbD x.holder || (x.prio != old.prio && !tgtAccepts (tgt s x.holder) x.prio.toNat) then
    icuWithdraw n s
  else s
def execIcuSrcCfgWrite (path : Path) (n : Fin 512) (value : Word) (s : State) : Host.Outcome State Fault Refusal :=
  .next (icuWrite path (icuSrcCfg n.val value) s)

/-! ## The configuration at boot (R420) -/

/-- TARGETS and PRIORITY that firmware gives a source. -/
def bootCfg (n : Nat) : Nat × Nat :=
  if n = 0 ∨ n = 1 ∨ n = 2 ∨ n = 4 then (1, 6)
  else if n = 3 then (4, 8)
  else if n = 5 then (16, 12)
  else if n = 6 ∨ n = 7 then (8, 8)
  else if n = 8 ∨ n = 9 then (16, 8)
  else if n = 10 then (16, 4)
  else if n = 11 then (2, 14)
  else if n = 12 then (16, 15)
  else if n ≤ 103 then (1, 10)
  else if n ≤ 135 then (1, 9 - (n - 128))
  else if n ≤ 137 then (1, 5)
  else (9, 9)

/-- Firmware configures and enables sources 0 to 255 and clears MASK on every target. -/
def icuBoot (s : State) : State :=
  let s := ((List.range 256).filter fun n => !icuReserved n).foldl (fun st n =>
    updSrc n (fun x => { x with
      targets := BitVec.ofNat 5 (bootCfg n).1, prio := BitVec.ofNat 4 (bootCfg n).2, en := true }) st) s
  (List.range 5).foldl (fun st t => updTgt t (fun x => { x with mask := false }) st) s

end Sys2Proof.Machine
end

