-- ==== Sys2Proof/Machine/Ingest.lean ====
section
/-! DEFINITION. The Ethernet ports (12): capture streams and their rings, job frames, ARP and neighbour answers, and the
port counters. -/

namespace Sys2Proof.Machine

/-! ## Ports (R443, R450 to R454) -/

/-- A good MAC frame is counted. -/
def rxFrame (p : Nat) (s : State) : State := updPrt p (fun x => { x with rx := x.rx + 1 }) s
def dropIp (p : Nat) (s : State) : State := updPrt p (fun x => { x with dropIp := satInc x.dropIp }) s
def jobDrop (p : Nat) (s : State) : State := updPrt p (fun x => { x with jobDrop := satInc x.jobDrop }) s

/-- A port's owner-set addresses. -/
def ethOf (s : State) (p : Nat) : EthAddr := s.flash.eth.getD p ⟨none, 0, 0, 0⟩

/-- The MAC address in use: the owner's, else the fused one (R454). -/
def macOf (s : State) (p : Nat) : BitVec 48 := (ethOf s p).mac.getD (s.fuse.mac.getD p 0)

def jobPortOf (s : State) (p : Nat) : BitVec 16 := (ethOf s p).jobPort

/-! ## Frames and headers (R450, R452, R453) -/

/-- Bytes of a frame, from destination address to FCS, that is not the datagram's payload. -/
def dgOverhead (d : Datagram) : Nat := 18 + 4 * d.tags.length + (if d.src.v6 then 40 else 4 * d.ip.ihl) + 8

/-- Does the MAC accept a frame of this length (R450)? -/
def dgFits (d : Datagram) : Bool := decide (dgOverhead d + d.payload.length ≤ 9216)

/-- May a frame carry these tags (R452)? -/
def tagsOk : List Word → Bool
  | [] => true
  | [t] => t.toNat / 2 ^ 16 == 0x8100 || t.toNat / 2 ^ 16 == 0x88A8
  | [o, i] => (o.toNat / 2 ^ 16 == 0x8100 || o.toNat / 2 ^ 16 == 0x88A8) && i.toNat / 2 ^ 16 == 0x8100
  | _ => false

/-- Is it an IPv4 datagram without options or an IPv6 one without extension headers, no fragment, with UDP and checksums
that verify (R453)? -/
def dgIpOk (d : Datagram) : Bool :=
  tagsOk d.tags && d.ip.proto == 17 && !d.ip.fragment &&
    (if d.src.v6 then d.ip.udpSum != 0 && d.ip.udpSumOk
     else d.ip.ihl == 5 && d.ip.sumOk && (d.ip.udpSum == 0 || d.ip.udpSumOk))

/-- BAD_FCS_FRAME: dropped; the FEC codewords of it that could not be corrected are counted (R492). -/
def execBadFcsFrame (port : Fin 2) (s : State) (codewords : Nat := 0) : Host.Outcome State Fault Refusal :=
  .next (if portUp s port.val then
    updPrt port.val (fun x => { x with fcs := satInc x.fcs, fecUncorr := satAdd x.fecUncorr codewords }) s else s)

/-- PAUSE_FRAME: counted and discarded. -/
def execPauseFrame (port : Fin 2) (s : State) : Host.Outcome State Fault Refusal :=
  .next (if portUp s port.val then
    ingFlag 1 (updPrt port.val (fun x => { x with pause := satInc x.pause }) (rxFrame port.val s)) else s)

/-- The answer to a request for one of the port's own addresses, with the frame's tags. -/
def addrReply (p : Nat) (src : NetAddr) (tags : List Word) (v6 own : Bool) (s : State) : State :=
  if !portUp s p then s
  else
    let s := rxFrame p s
    if !tagsOk tags then dropIp p s
    else if own then emit (.arpReply p src tags v6 (macOf s p)) s else s

/-- ARP_REQUEST. -/
def execArpRequest (port : Fin 2) (src : NetAddr) (target : BitVec 32) (tags : List Word) (s : State) :
    Host.Outcome State Fault Refusal :=
  .next (addrReply port.val src tags false (target == (ethOf s port.val).ip4 && target != 0) s)

/-- NEIGHBOR_SOLICITATION. -/
def execNeighborSolicitation (port : Fin 2) (src : NetAddr) (target : BitVec 128) (tags : List Word) (s : State) :
    Host.Outcome State Fault Refusal :=
  .next (addrReply port.val src tags true (target == (ethOf s port.val).ip6 && target != 0) s)

/-! ## Streams: what is dropped and what is kept (R455 to R460, R464) -/

def strm (s : State) (i : Nat) : Stream := Tab.get Stream.init s.ing.streams i
def setStrm (i : Nat) (x : Stream) (s : State) : State :=
  { s with ing := { s.ing with streams := Tab.put Stream.init s.ing.streams i x } }
def updStrm (i : Nat) (f : Stream → Stream) (s : State) : State := setStrm i (f (strm s i)) s

/-- REC_SIZE. -/
def Stream.recSize (x : Stream) : Nat := 64 * x.recUnits.toNat

/-- Does the stream take datagrams of a port (PORT 1, 2, or 3 for either)? -/
def Stream.onPort (x : Stream) (p : Nat) : Bool := x.port.getLsbD p

/-- Why a whole frame is dropped. -/
inductive DropWhy where
  | full | incomplete | evicted | stopped
deriving DecidableEq, Repr

/-- One dropped frame in the next gap entry. -/
def Gap.addFrame (g : Gap) (why : DropWhy) (f : CapFrame) : Gap :=
  let n := g.full + g.incomplete + g.evicted + g.stopped
  let g := { g with
    lo := if n = 0 ∨ f.seq.toNat < g.lo.toNat then f.seq else g.lo
    hi := if n = 0 ∨ g.hi.toNat < f.seq.toNat then f.seq else g.hi
    records := g.records + f.recs.length, bytes := g.bytes + f.frameBytes }
  match why with
  | .full => { g with full := g.full + 1 }
  | .incomplete => { g with incomplete := g.incomplete + 1 }
  | .evicted => { g with evicted := g.evicted + 1 }
  | .stopped => { g with stopped := g.stopped + 1 }

/-- A frame is accounted for: its number is among the last 256 (R459). -/
def Stream.note (x : Stream) (seq : Quad) : Stream :=
  let l := x.recent ++ [seq]
  { x with recent := l.drop (l.length - 256) }

/-- A frame is dropped whole. -/
def Stream.dropFrame (why : DropWhy) (f : CapFrame) (x : Stream) : Stream :=
  { x.note f.seq with
    dropped := satInc x.dropped, gap := x.gap.addFrame why f, badSeqs := x.badSeqs.filter (· != f.seq.toNat) }

/-- A record's header (R456). -/
structure RecHdr where
  magic : Nat
  tag : Nat
  index : Nat
  count : Nat
  seq : Nat
  time : Nat
  frameBytes : Nat
  format : Nat
  recBytes : Nat
deriving DecidableEq, Repr

def recHdr (p : List Byte) : RecHdr :=
  { magic := leAt p 0 4, tag := leAt p 6 2, index := leAt p 5 1, count := leAt p 4 1, seq := leAt p 8 8
    time := leAt p 0x10 8, frameBytes := leAt p 0x18 4, format := leAt p 0x1E 2, recBytes := leAt p 0x1C 2 }

/-- Does a record keep R456? -/
def recOk (x : Stream) (p : List Byte) : Bool :=
  let h := recHdr p
  let size := x.recSize
  let last := h.frameBytes - (h.count - 1) * size
  decide (32 ≤ p.length) && h.magic == 0xCA9E0001 && h.tag == x.tag.toNat && decide (1 ≤ h.count ∧ h.count ≤ 32) &&
    decide (h.index < h.count) && decide ((h.count - 1) * size + 64 ≤ h.frameBytes) && last % 64 == 0 &&
    decide (last ≤ size) && h.recBytes == (if h.index + 1 = h.count then last else size) &&
    p.length == 32 + h.recBytes

/-- Does a record agree with the earlier ones of its frame (R457)? -/
def recAgrees (f : CapFrame) (h : RecHdr) : Bool :=
  f.recCount == h.count && f.frameBytes == h.frameBytes && f.format.toNat == h.format && f.capTime.toNat == h.time

/-- A bad record is counted; its frame can no longer complete, also when its other records are still to come (R457). -/
def Stream.badRecord (seq : Nat) (x : Stream) : Stream :=
  { x with
    gap := { x.gap with bad := x.gap.bad + 1, records := x.gap.records + 1 }
    badSeqs := if seq ∈ x.badSeqs then x.badSeqs else x.badSeqs ++ [seq]
    asm := x.asm.map fun f => if f.seq.toNat = seq then { f with tainted := true } else f }

/-- A record of a new frame takes a slot, evicting the frame whose first record is the oldest (R458). -/
def Stream.newFrame (h : RecHdr) (data : List Byte) (x : Stream) : Stream :=
  let x := match x.asm with
    | f :: rest => if 4 ≤ x.asm.length then ({ x with asm := rest } : Stream).dropFrame .evicted f else x
    | [] => x
  { x with asm := x.asm ++ [{
      seq := BitVec.ofNat 64 h.seq, recCount := h.count, frameBytes := h.frameBytes, format := BitVec.ofNat 16 h.format
      capTime := BitVec.ofNat 64 h.time, recs := [(h.index, data)], tainted := decide (h.seq ∈ x.badSeqs), time := 0 }] }

/-- A frame that holds all its records is complete (R460). -/
def Stream.complete? (seq now : Nat) (x : Stream) : Stream :=
  match x.asm.find? fun f => f.seq.toNat == seq && f.recs.length == f.recCount && !f.tainted with
  | some f =>
    { x with asm := x.asm.filter fun g => !(g.seq == f.seq), complete := x.complete ++ [{ f with time := BitVec.ofNat 64 now }] }
  | none => x

/-- One record of a stream. -/
def Stream.takeRecord (p : List Byte) (now : Nat) (x : Stream) : Stream :=
  let h := recHdr p
  let stale := { x with stale := satInc x.stale }
  if !recOk x p then x.badRecord (if p.length < 32 then 2 ^ 64 else h.seq)
  else if x.recent.any (fun q => q.toNat == h.seq) || x.complete.any (fun f => f.seq.toNat == h.seq) then stale
  else
    match x.asm.find? fun f => f.seq.toNat == h.seq with
    | none => (x.newFrame h (p.drop 32)).complete? h.seq now
    | some f =>
      if !recAgrees f h then x.badRecord h.seq
      else if f.recs.any fun r => r.1 == h.index then stale
      else
        ({ x with asm := x.asm.map fun g =>
            if g.seq == f.seq then { g with recs := g.recs ++ [(h.index, p.drop 32)] } else g } : Stream).complete?
          h.seq now

/-- The active stream that takes a datagram. -/
def streamFor (s : State) (p : Nat) (udp : BitVec 16) : Option Nat :=
  (List.range 16).find? fun i => (strm s i).st == .active && (strm s i).onPort p && (strm s i).udp == udp

/-- RECORD: a datagram whose port is not the job port. -/
def execRecord (port : Fin 2) (udp : BitVec 16) (payload : List Byte) (s : State) (head : FrameHead := {}) :
    Host.Outcome State Fault Refusal :=
  let d := head.datagram port udp payload
  let p := port.val
  .next (
    if !portUp s p || !dgFits d then s
    else
      let s := rxFrame p s
      if !dgIpOk d then dropIp p s
      else match streamFor s p udp with
        | some i => updStrm i (fun x => x.takeRecord payload (timeOf s).toNat) s
        | none => if udp = jobPortOf s p then s else dropIp p s)

/-- DROPPED_DATAGRAM: of another kind than R453 accepts, or to a port that nothing listens on. -/
def execDroppedDatagram (d : Datagram) (s : State) : Host.Outcome State Fault Refusal :=
  let p := d.port.val
  .next (
    if portUp s p && dgFits d && !(dgIpOk d && ((streamFor s p d.dst).isSome || d.dst == jobPortOf s p)) then
      dropIp p (rxFrame p s)
    else s)

/-- REASM_TIMEOUT: a frame still incomplete at its deadline is dropped. -/
def execReasmTimeout (i : Fin 16) (frameSeq : Quad) (s : State) : Host.Outcome State Fault Refusal :=
  .next (
    if !isUp s then s else
    match (strm s i.val).asm.find? fun f => f.seq == frameSeq with
    | some f => updStrm i.val (fun x =>
        ({ x with asm := x.asm.filter fun g => !(g.seq == f.seq) } : Stream).dropFrame .incomplete f) s
    | none => s)

/-! ## The ring (R461 to R464) -/

def Stream.ringBytes (x : Stream) : Nat := 2 ^ x.ringLog2.toNat

/-- Is a gap entry due? -/
def Gap.due (g : Gap) : Bool := g != Gap.init

def sat32 (n : Nat) : Nat := min n 0xFFFFFFFF

/-- The 64 header bytes of an entry. -/
def entryBytes (kind tag bytes a b time : Nat) (rest : List Byte) : List Byte :=
  leBytes 4 (kind * 2 ^ 24 + tag) ++ leBytes 4 bytes ++ leBytes 8 a ++ leBytes 8 b ++ leBytes 8 time ++ slice 0 32 rest

/-- The gap entry. -/
def gapEntry (x : Stream) (time : Nat) : List Byte :=
  let g := x.gap
  entryBytes 2 x.tag.toNat 64 g.lo.toNat g.hi.toNat time
    (leBytes 4 (sat32 (g.full + g.incomplete + g.evicted + g.stopped)) ++ leBytes 4 (sat32 g.records) ++
     leBytes 8 g.bytes ++ leBytes 4 (sat32 g.full) ++ leBytes 4 (sat32 g.incomplete) ++ leBytes 4 (sat32 g.evicted) ++
     leBytes 4 (min g.stopped 255 * 2 ^ 24 + min g.bad 0xFFFFFF))

/-- The samples of a frame, in record order. -/
def frameSamples (f : CapFrame) : List Byte :=
  ((List.range f.recCount).map fun i => match f.recs.find? fun r => r.1 == i with | some r => r.2 | none => []).flatten

def frameEntry (x : Stream) (f : CapFrame) : List Byte :=
  entryBytes 1 x.tag.toNat (64 + f.frameBytes) f.seq.toNat f.capTime.toNat f.time.toNat
    (leBytes 4 f.frameBytes ++ leBytes 4 f.format.toNat) ++ frameSamples f

/-- PROD is written where the consumer reads it. -/
def writeProd (i : Nat) (s : State) : State :=
  (devWrite View.zero (strm s i).prodAddr.toNat (leBytes 8 (strm s i).prod.toNat) s).2

/-- An entry is written at PROD, then PROD covers `len` bytes more. -/
def ringPut (i : Nat) (bytes : List Byte) (len : Nat) (s : State) : State :=
  let x := strm s i
  let s := (devWrite View.zero (x.ring.toNat + x.prod.toNat % x.ringBytes) bytes s).2
  writeProd i (updStrm i (fun x => { x with prod := x.prod + BitVec.ofNat 64 len }) s)

/-- The gap entry is written if one is due. -/
def putGap (i : Nat) (s : State) : State :=
  if (strm s i).gap.due then
    let s := ringPut i (gapEntry (strm s i) (timeOf s).toNat) 64 s
    ingFlag 0 (updStrm i (fun x => { x with gap := Gap.init, gaps := satInc x.gaps }) s)
  else s

/-- The bytes of a WRAP entry before an entry of `len` bytes at count `prod`; 0 if none is needed. -/
def wrapBytes (x : Stream) (prod len : Nat) : Nat :=
  let left := x.ringBytes - prod % x.ringBytes
  if len ≤ left then 0 else left

/-- The room of the ring as the consumer count read now shows it (R463); none where it cannot be read. -/
def ringRoom (i : Nat) (s : State) : Nat × State :=
  let x := strm s i
  match devRead View.zero x.consAddr.toNat 8 s with
  | (.ok bs, s) => (x.ringBytes - (x.prod - BitVec.ofNat 64 (leNat bs)).toNat, s)
  | (.error _, s) => (0, s)

/-- Does a frame fit, its gap and WRAP entries and 128 bytes beside it? -/
def frameFits (x : Stream) (room : Nat) (f : CapFrame) : Bool :=
  let g := if x.gap.due then 64 else 0
  let len := 64 + f.frameBytes
  decide (g + wrapBytes x (x.prod.toNat + g) len + len + 128 ≤ room)

/-- The oldest completed frame is committed whole or dropped as FULL. -/
def commitFrame (i : Nat) (f : CapFrame) (s : State) : State :=
  let s := updStrm i (fun x => { x with complete := x.complete.drop 1 }) s
  let (room, s) := ringRoom i s
  if !frameFits (strm s i) room f then updStrm i (fun x => x.dropFrame .full f) s
  else
    let s := putGap i s
    let x := strm s i
    let w := wrapBytes x x.prod.toNat (64 + f.frameBytes)
    let s := if w = 0 then s else ringPut i (entryBytes 3 x.tag.toNat w 0 0 (timeOf s).toNat []) w s
    let s := ringPut i (frameEntry x f) (64 + f.frameBytes) s
    updStrm i (fun x => { x.note f.seq with frames := x.frames + 1 }) s

/-- A stopping stream with nothing left to commit writes its gap and END entries and is DISABLED (R465). -/
def finishStop (i : Nat) (s : State) : State :=
  let x := strm s i
  if x.st = .stopping ∧ x.complete = [] then
    let s := putGap i s
    let s := ringPut i (entryBytes 4 x.tag.toNat 64 0 0 (timeOf s).toNat []) 64 s
    ingFlag 2 (updStrm i (fun x => { x with st := .disabled }) s)
  else s

/-- FRAME_COMMIT. -/
def execFrameCommit (i : Fin 16) (s : State) : Host.Outcome State Fault Refusal :=
  .next (
    if !isUp s then s else
    match (strm s i.val).complete with
    | f :: _ => finishStop i.val (commitFrame i.val f s)
    | [] => s)

/-! ## Starting and stopping (R465, R493) -/

/-- Does a range lie in allocatable extents? -/
def inExtents (s : State) (a len : Nat) : Bool :=
  decide (a + len ≤ fwExt * extBytes) && !(s.flash.removed.any fun e =>
    decide (e * extBytes < a + len) && decide (a < (e + 1) * extBytes))

/-- Do two PORT fields overlap? -/
def portsOverlap (a b : BitVec 2) : Bool := (a &&& b) != 0

/-- R493. -/
def streamOk (s : State) (i : Nat) : Bool :=
  let x := strm s i
  x.port != 0 && decide (20 ≤ x.ringLog2.toNat ∧ x.ringLog2.toNat ≤ 36) && x.ring.toNat % 65536 == 0 &&
    inExtents s x.ring.toNat x.ringBytes &&
    x.consAddr.toNat % 8 == 0 && x.prodAddr.toNat % 8 == 0 && inExtents s x.consAddr.toNat 8 &&
    inExtents s x.prodAddr.toNat 8 && decide (1 ≤ x.recUnits.toNat ∧ x.recUnits.toNat ≤ 128) && x.reasm != 0 &&
    x.udp != 0 && !((List.range 2).any fun p => x.onPort p && jobPortOf s p == x.udp) &&
    !((List.range 16).any fun j => j != i && (strm s j).st == .active && (strm s j).udp == x.udp &&
      portsOverlap (strm s j).port x.port)

/-- The other fields of ING_S_CTRL: PORT, RING_LOG2 and STREAM_TAG are outside the registers that R493 locks. -/
def setCtrl (v : Nat) (x : Stream) : Stream :=
  { x with port := BitVec.ofNat 2 (v / 2 ^ 27), ringLog2 := BitVec.ofNat 6 (v / 2 ^ 19), tag := BitVec.ofNat 16 v }

/-- A write of ING_S_CTRL with ENABLE = 1: a DISABLED stream starts or is refused, an ACTIVE one takes the other fields, a
STOPPING one ignores the write (R465). -/
def streamEnable (i v : Nat) (s : State) : State :=
  match (strm s i).st with
  | .active => updStrm i (setCtrl v) s
  | .stopping => ingFlag 3 s
  | .disabled =>
    let s := updStrm i (setCtrl v) s
    if streamOk s i then
      writeProd i (updStrm i (fun x => { x with
        st := .active, prod := 0, asm := [], complete := [], recent := [], badSeqs := [], gap := Gap.init }) s)
    else ingFlag 3 s

/-- A write of ING_S_CTRL with ENABLE = 0. -/
def streamStop (i v : Nat) (s : State) : State :=
  match (strm s i).st with
  | .active =>
    finishStop i (updStrm i (fun x =>
      { x.asm.foldl (fun y f => y.dropFrame .stopped f) (setCtrl v x) with st := .stopping, asm := [] }) s)
  | _ => updStrm i (setCtrl v) s

/-- STREAM_ENABLE. -/
def execStreamEnable (i : Fin 16) (value : BitVec 31) (s : State) : Host.Outcome State Fault Refusal :=
  .next (if isUp s then streamEnable i.val value.toNat s else s)

/-- STREAM_STOP. -/
def execStreamStop (i : Fin 16) (value : BitVec 31) (s : State) : Host.Outcome State Fault Refusal :=
  .next (if isUp s then streamStop i.val value.toNat s else s)

/-! ## Job frames (R466 to R470, R483) -/

/-- Where a job frame comes from: an Ethernet port with its sender, or a Kweow link. -/
inductive JobSrc where
  | eth (d : Datagram)
  | link (l : Nat)
deriving DecidableEq, Repr

/-- Fields of a job frame. -/
structure JobHdr where
  kind : Nat
  n : Nat
  q : Nat
  src : Word
  cqHead : Word
  seq : Quad
deriving DecidableEq, Repr

def jobHdr (b : List Byte) : JobHdr :=
  { kind := leAt b 7 1, n := leAt b 6 1, q := leAt b 4 2, src := BitVec.ofNat 32 (leAt b 8 4)
    cqHead := BitVec.ofNat 32 (leAt b 0xC 4), seq := BitVec.ofNat 64 (leAt b 0x10 8) }

/-- Check 1: MAGIC, VERSION, KIND, N_CMDS and length. -/
def jobFormOk (b : List Byte) (tagged : Bool) : Bool :=
  let h := jobHdr b
  leAt b 0 4 == 0xCA9F0001 &&
    ((h.kind == 1 && decide (1 ≤ h.n ∧ h.n ≤ 16)) || (h.kind == 2 && h.n == 0)) &&
    b.length == 32 + 64 * h.n + (if tagged then 16 else 0)

/-- Check 2: the queue accepts the frame (R467). -/
def jobAccepted (s : State) (from' : JobSrc) (h : JobHdr) : Bool :=
  let x := que s h.q
  let src := x.source.toNat
  x.st != .unused &&
    (match from' with
     | .eth d =>
       x.kind == 2 && (x.port.toNat == d.port.val + 1 || x.port == 3) && src % 2 ^ 32 == h.src.toNat &&
         (fld src 47 32 == 0 || fld src 47 32 == d.src.udp.toNat)
     | .link l =>
       (x.kind == 2 || (x.kind == 1 && (lnk s l).sameInst)) && x.port.toNat == 4 + l &&
         (src % 2 ^ 56 == 0 || src % 2 ^ 56 == (lnk s l).peer.toNat))

/-- Check 3: the tag of a keyed port verifies; no key operation succeeds once a wipe has failed (R281). -/
def jobTagOk (s : State) (p : Nat) (b : List Byte) : Bool :=
  match s.flash.jobKey.getD p none with
  | none => true
  | some k =>
    let m := b.take (b.length - 16)
    !s.mem.wipeFailed && gcmTag (leBytes 32 k.toNat) (slice 8 4 b ++ slice 0x18 8 b) m [] == b.drop (b.length - 16)

/-- The completion records from the frame's CQ_HEAD, at most 16 (R469). -/
def replyRecords (q : Nat) : Nat → Word → State → List (List Byte) × State
  | 0, _, s => ([], s)
  | fuel + 1, t, s =>
    let x := que s q
    if diff32 x.cqTail t ≤ 0 ∨ (2 ^ x.cqLog.toNat : Int) < diff32 x.cqTail t then ([], s)
    else
      match ringRead q (cqSlot x t.toNat) 32 s with
      | (.ok r, s) =>
        let (rs, s) := replyRecords q fuel (t + 1) s
        (r :: rs, s)
      | (.error _, s) => ([], s)

/-- The reply to a job frame. -/
def jobReply (from' : JobSrc) (h : JobHdr) (result : Nat) (s : State) : State :=
  let (rs, s) := replyRecords h.q 16 h.cqHead s
  let body := fun n => replyBytes 0x81 result h.q h.src h.seq.toNat n (que s h.q) rs
  match from' with
  | .eth d => sendReply d.port.val d.src d.tags h.src body s
  | .link l => kwSend l { ty := 2, vc := 1, w2 := 0, w3 := 0, body := body (2 ^ 63) } s

/-- The commands of a frame are written at the tail; none if one cannot be. -/
def writeEntries (q : Nat) : List Nat → Word → List Byte → State → Option State
  | [], _, _, s => some s
  | i :: is, t, b, s =>
    let x := que s q
    match ringWrite q (x.sqAddr.toNat + 64 * (t.toNat % 2 ^ x.sqLog.toNat)) (slice (0x20 + 64 * i) 64 b) s with
    | (.ok _, s) => writeEntries q is (t + 1) b s
    | (.error _, _) => none

/-- Checks 4 to 9. -/
def jobRun (from' : JobSrc) (b : List Byte) (s : State) : State :=
  let h := jobHdr b
  let x := que s h.q
  if x.st ≠ .active then jobReply from' h 5 s
  else
    let s := cqDoorbell h.q h.cqHead s
    if h.kind = 2 then jobReply from' h 0 s
    else if h.seq.toNat ≤ x.lastFrame.toNat then jobReply from' h 2 s
    else if h.seq.toNat ≠ x.lastFrame.toNat + 1 then jobReply from' h 3 s
    else if (x.sqHead + BitVec.ofNat 32 (2 ^ x.sqLog.toNat) - x.sqTail).toNat < h.n then jobReply from' h 4 s
    else
      match writeEntries h.q (List.range h.n) x.sqTail b s with
      | none => jobReply from' h 5 s
      | some s =>
        let s := sqDoorbell h.q (x.sqTail + BitVec.ofNat 32 h.n) s
        jobReply from' h 1 (updQue h.q (fun x => { x with lastFrame := h.seq }) s)

/-- The ROUTE entry that names a queue. -/
def routeOf (s : State) (q : Nat) : Option Nat := (s.ing.routes.find? fun r => r.1 == q).map (·.2)

/-- A routed frame is relayed as a JOB message, without its tag. -/
def relayJob (d : Datagram) (l : Nat) (s : State) : State :=
  let h := jobHdr d.payload
  if !jobTagOk s d.port.val d.payload then jobDrop d.port.val s
  else if (lnk s l).st ≠ .active ∨ ((que s h.q).st ≠ .unused ∧ (que s h.q).kind = 1 ∧ !(lnk s l).sameInst) then
    jobDrop d.port.val s
  else
    let s := { s with ing := { s.ing with relays := s.ing.relays ++ [(l, d)] } }
    kwSend l { ty := 1, vc := 1, w2 := 0, w3 := 0, body := d.payload.take (32 + 64 * h.n) } s

/-- A datagram at a port's job port. -/
def jobFrame (d : Datagram) (s : State) : State :=
  let p := d.port.val
  let s := rxFrame p s
  if !dgIpOk d then dropIp p s else
  let keyed := (s.flash.jobKey.getD p none).isSome
  let h := jobHdr d.payload
  if !jobFormOk d.payload keyed then jobDrop p s
  else
    let s := icuSend (136 + p) s
    match routeOf s h.q with
    | some l => relayJob d l s
    | none =>
      if !jobAccepted s (.eth d) h || !jobTagOk s p d.payload then jobDrop p s
      else jobRun (.eth d) d.payload (updQue h.q (fun x => { x with notify := some (d.src, p, d.tags, h.src) }) s)

/-- Is the datagram's KIND POLL? -/
def isPoll (d : Datagram) : Bool := (jobHdr d.payload).kind == 2

/-- Is it a frame for the port's job port that the MAC accepts? -/
def toJobPort (s : State) (d : Datagram) : Bool := dgFits d && d.dst == jobPortOf s d.port.val

/-- SUBMIT. -/
def execSubmit (d : Datagram) (s : State) : Host.Outcome State Fault Refusal :=
  .next (if portUp s d.port.val && toJobPort s d && !isPoll d then jobFrame d s else s)

/-- POLL. -/
def execPoll (d : Datagram) (s : State) : Host.Outcome State Fault Refusal :=
  .next (if portUp s d.port.val && toJobPort s d && isPoll d then jobFrame d s else s)

end Sys2Proof.Machine
end

