-- ==== Sys2Proof/Machine/Queues.lean ====
section
/-! DEFINITION. The commands that set up queues, translations, fences and bindings, those that unload models and signal
peers, and ABORT and PAUSE (08, 09). -/

namespace Sys2Proof.Machine

/-! ## QUEUE_CREATE (R289, R293, R305, R306) -/

def qdQueue (d : List Byte) : Nat := leAt d 0 2
def qdKind (d : List Byte) : Nat := fld (leAt d 0 4) 17 16
def qdClass (d : List Byte) : Nat := fld (leAt d 0 4) 20 18
def qdPort (d : List Byte) : Nat := fld (leAt d 0 4) 24 21
def qdDev (d : List Byte) : Bool := bit (leAt d 0 4) 25
def qdAts (d : List Byte) : Bool := bit (leAt d 0 4) 26
def qdContext (d : List Byte) : Nat := leAt d 4 1
def qdMsix (d : List Byte) : Nat := leAt d 6 2

/-- Is a Kweow link's peer in the same owner-signed installation? -/
def sameInstLink (s : State) (l : Nat) : Bool := (lnk s l).st == .active && (lnk s l).sameInst

/-- Does the descriptor keep R289, R293, R305 and R306? -/
def queueDescOk (s : State) (d : List Byte) : Bool :=
  let kernel := qdKind d == 1
  let port := qdPort d
  let pcie := port == 0
  within (leAt d 0 4) 0x07FFFFFF && leAt d 5 1 == 0 && within (leAt d 0x18 4) 0x1F1F && allZero (slice 0x30 16 d) &&
  (kernel || qdKind d == 2) && qdQueue d != 0 &&
  (if kernel then pcie || (decide (4 ≤ port ∧ port ≤ 11) && sameInstLink s (port - 4))
   else decide (1 ≤ port ∧ port ≤ 11) && decide (2 ≤ qdClass d) && qdContext d != 0) &&
  qdDev d != pcie && (!qdAts d || (kernel && pcie)) &&
  (if pcie then decide (qdMsix d < 2048) || qdMsix d == 0xFFFF else qdMsix d == 0xFFFF) &&
  decide (4 ≤ leAt d 0x18 1 ∧ leAt d 0x18 1 ≤ 16) && decide (4 ≤ leAt d 0x19 1 ∧ leAt d 0x19 1 ≤ 16) &&
  leAt d 8 8 % 4096 == 0 && leAt d 0x10 8 % 4096 == 0 &&
  decide (1 ≤ leAt d 0x20 4 ∧ leAt d 0x20 4 ≤ 3600000) && decide (1 ≤ leAt d 0x24 4 ∧ leAt d 0x24 4 ≤ 60000) &&
  (if pcie then leAt d 0x28 8 == 0 else decide (3 < port) || leAt d 0x28 8 / 2 ^ 48 == 0)

/-- The queue a descriptor describes. -/
def queueOf (d : List Byte) : Queue :=
  { Queue.init with
    st := .active, kind := BitVec.ofNat 2 (qdKind d), cls := BitVec.ofNat 3 (qdClass d)
    ctx := BitVec.ofNat 8 (qdContext d), port := BitVec.ofNat 4 (qdPort d), ringDev := qdDev d, ats := qdAts d
    msix := BitVec.ofNat 16 (qdMsix d), sqAddr := BitVec.ofNat 64 (leAt d 8 8), cqAddr := BitVec.ofNat 64 (leAt d 0x10 8)
    sqLog := BitVec.ofNat 5 (leAt d 0x18 1), cqLog := BitVec.ofNat 5 (leAt d 0x19 1)
    expSeq := BitVec.ofNat 32 (leAt d 0x1C 4), timeoutMs := BitVec.ofNat 32 (leAt d 0x20 4)
    drainMs := BitVec.ofNat 32 (leAt d 0x24 4), source := BitVec.ofNat 64 (leAt d 0x28 8) }

/-- A queue created from a descriptor, or the refusal's detail. -/
def createQueue (d : List Byte) (s : State) : Except Nat State :=
  if !queueDescOk s d then .error 0x4C
  else if (que s (qdQueue d)).st ≠ .unused then .error 0x4D
  else .ok (setQue (qdQueue d) (queueOf d) s)

def queueCreate (c : Cmd) (s : State) : State :=
  if c.p1 % 64 ≠ 0 then refuse c.key 0x4C s
  else match createQueue (c.block blkQueue) s with
    | .error d => refuse c.key d s
    | .ok s => commitOk c.key 0 s

/-- QUEUE_CREATE. -/
def execQueueCreate (k : Key) (s : State) : Host.Outcome State Fault Refusal :=
  .next (match admitting s k 1 with | some c => queueCreate c s | none => s)

/-! ## Stopping a command (R89, R337 to R342, R383, R384) -/

/-- A command that has not started is stopped with a decision; a load ends with its report (R89, `endLoad`). -/
def stopUnstarted (t : Cmd) (d : Decision) (s : State) : State := complete t.key d s

/-- A running command whose stop was decided: a run at its next turn boundary, which a run that may not turn stands at;
a copy at its next 4 KiB boundary; a program when its instructions in progress have finished; anything else at once. -/
def stopRunning (t : Cmd) (d : Decision) (p : Option PauseReq) (s : State) : State :=
  match t.work with
  | .anneal r =>
    let s := updCmd t.key (fun c => { c with decided := some (stampD s d), pause := p }) s
    let m := mdl s r.model
    if r.started && decide (r.cls < nColours m) && mayTurn r then s
    else match findCmd s t.key with
      | some c => stopAtTurn c m r s
      | none => s
  | .copy => decide' t.key d s
  | .program p => stopProgram t.key p (decide' t.key d s)
  | _ => complete t.key d s

/-- The watching command's own decision: it completes when the target's record is written (R341, R386). -/
def watch (c : Cmd) (t : Key) (pause : Bool) (detail value : Nat) (s : State) : State :=
  updCmd c.key (fun c => { c with
    decided := some (stampD s (mkDecision 0 detail value)), work := .target t pause }) s

/-- ABORT or PAUSE of one target (R337, R340, R341). -/
def stopTarget (c : Cmd) (pause : Bool) (s : State) : State :=
  let tq := c.p0 % 65536
  let tk : Key := ⟨BitVec.ofNat 16 tq, BitVec.ofNat 32 c.p1⟩
  let x := que s c.queue
  if !x.ctx0 && (que s tq).ctx != x.ctx then refuse c.key 0x4B s
  else
    match (if tk = c.key then none else findCmd s tk) with
    | none =>
      if tk = c.key then complete c.key (mkDecision 0 2 0) s
      else match (que s tq).recent.find? fun p => p.1 == tk.seq with
        | some p => complete c.key (mkDecision 0 1 p.2.toNat) s
        | none => complete c.key (mkDecision 0 2 0) s
    | some t =>
      if pause && !(t.opcode == 0x12 || t.opcode == 0x15) then refuse c.key 0x4B s
      else
        match t.decided with
        | some d => noteFree (watch c tk pause 1 d.status.toNat s)
        | none =>
          let s := watch c tk pause 0 0 s
          let v := if pause then 0 else c.key.seq.toNat
          if t.notStarted then stopUnstarted t (mkDecision (if pause then 0x0C else 9) 0 v) s
          else
            noteFree (stopRunning t (if pause then mkDecision 0x0C 1 0 else mkDecision 9 1 v)
              (if pause then some ⟨BitVec.ofNat 64 c.p2, c.key.q, c.key.seq⟩ else none) s)

/-- The ABORT or PAUSE that waits to act. -/
def actingCmd (s : State) (k : Key) (op : Nat) : Option Cmd :=
  match findCmd s k with
  | some c => if c.st = .waiting ∧ c.decided.isNone ∧ c.opcode = op ∧ isUp s then some c else none
  | none => none

/-- ABORT. -/
def execAbort (k : Key) (s : State) : Host.Outcome State Fault Refusal :=
  .next (match actingCmd s k 0x23 with | some c => stopTarget c false s | none => s)

/-- PAUSE. -/
def execPause (k : Key) (s : State) : Host.Outcome State Fault Refusal :=
  .next (match actingCmd s k 0x14 with | some c => stopTarget c true s | none => s)

/-! ## QUEUE_DESTROY (R342) and QUEUE_RESET (R336) -/

/-- Commands of a queue in the order they were fetched. -/
def queueCmds (s : State) (q : Nat) : List Cmd := s.cmds.filter fun c => c.queue == q

/-- Commands not yet running are cancelled in the order they were fetched; every one is decided before the first
completes. -/
def cancelWaiting (d : Decision) (cs : List Cmd) (s : State) : State :=
  let ks := (cs.filter fun c => c.decided.isNone && c.notStarted).map Cmd.key
  settle (ks.map fun k => (k, stampD s d)) { s with cmds := s.cmds.map fun c =>
    if c.key ∈ ks then { c with decided := some (stampD s d) } else c }

/-- Running runs are stopped one by one. -/
def stopRuns : List Cmd → State → State
  | [], s => s
  | c :: cs, s =>
    match findCmd s c.key with
    | some c =>
      stopRuns cs (match c.work with
        | .anneal _ => if c.decided.isNone ∧ c.st = .running then stopRunning c (mkDecision 9 1 0) none s else s
        | _ => s)
    | none => stopRuns cs s

def queueDestroy (c : Cmd) (s : State) : State :=
  let q := c.p0 % 65536
  if q = 0 ∨ (que s q).st = .unused ∨ (que s q).st = .destroying then refuse c.key 0x4D s
  else
    let s := updQue q (fun x => { x with st := .destroying, tally := { Tally.zero with seq := c.key.seq } }) s
    let s := updCmd c.key (fun c => { c with
      st := .running, work := .destroy, decided := some (stampD s (mkDecision 0 0 0)) }) s
    let mine := queueCmds s q
    let s := stopRuns mine (cancelWaiting (mkDecision 0x0A 2 0) mine s)
    let r := finishDestroy q s
    settle r.1 r.2

/-- QUEUE_DESTROY. -/
def execQueueDestroy (k : Key) (s : State) : Host.Outcome State Fault Refusal :=
  .next (match admitting s k 2 with | some c => queueDestroy c s | none => s)

def queueReset (c : Cmd) (s : State) : State :=
  let q := c.p0 % 65536
  if q = 0 ∨ (que s q).st = .unused then refuse c.key 0x4D s
  else if (que s q).st = .destroying ∨ queueCmds s q ≠ [] then refuse c.key 0x50 s
  else
    commitOk c.key 0 (updQue q (fun x => { x with
      st := .active, sqTail := 0, sqHead := 0, cqTail := 0, cqHead := 0, expSeq := BitVec.ofNat 32 c.p1
      stopped := false, diverted := false, lastSeq := none, lastFrame := 0 }) s)

/-- QUEUE_RESET. -/
def execQueueReset (k : Key) (s : State) : Host.Outcome State Fault Refusal :=
  .next (match admitting s k 3 with | some c => queueReset c s | none => s)

/-! ## MAP and UNMAP (R251, R345, R346) -/

def vkey (ctx v : Nat) : Nat := ctx * 8192 + v

/-- The translation entries of a range. -/
def ventries (s : State) (ctx first count : Nat) : List VEntry :=
  (List.range count).map fun i => Tab.get VEntry.init s.mem.vmap (vkey ctx (first + i))

/-- Does the extent belong to a model in UNLOADING? -/
def unloadsExtent (s : State) (e : Nat) : Bool :=
  s.models.any fun p => p.2.st == .unloading && decide (e ∈ p.2.exts)

/-- A listed extent leaves the pool as it is mapped; one whose zeroing has still to end is zeroed first (R253), the
model's choice for an extent that is allocatable and not yet free (log 53). An allocated one stays whose it is. -/
def claimExtent (e : Nat) (s : State) : State :=
  match extState s e with
  | .free => setExt e .mapped s
  | .unzeroed => setExt e .mapped (zeroCarafe (carafePhys s (e * extBytes)) extBytes s)
  | .releasing =>
    if unloadsExtent s e then s else setExt e .mapped (zeroCarafe (carafePhys s (e * extBytes)) extBytes s)
  | _ => s

/-- Maps extents to consecutive virtual extents. -/
def mapExtents (ctx : Nat) (r w : Bool) : Nat → List Nat → State → State
  | _, [], s => s
  | v, e :: es, s =>
    let s := claimExtent e s
    mapExtents ctx r w (v + 1) es { s with mem := { s.mem with
      vmap := Tab.put VEntry.init s.mem.vmap (vkey ctx v) ⟨true, r, w, BitVec.ofNat 13 e⟩ } }

/-- May a listed extent be mapped: allocated or allocatable (R345)? -/
def mappable (s : State) (e : Nat) : Bool :=
  decide (e < fwExt) && extState s e != .removed

def mapCmd (c : Cmd) (s : State) : State :=
  let ctx := c.p0 % 256
  let first := fld c.p1 12 0
  let count := fld c.p1 44 32
  let list := if bit c.p0 10 then (freeExtents s).take count
    else (List.range count).map fun i => leAt (c.block blkMap) (4 * i) 4
  if ctx = 0 ∨ 8192 < first + count ∨ (ventries s ctx first count).any VEntry.valid ∨ list.length < count ∨
      list.any (fun e => !mappable s e) then refuse c.key 0x4E s
  else commitOk c.key count (mapExtents ctx (bit c.p0 8) (bit c.p0 9) first list s)

/-- MAP. -/
def execMap (k : Key) (s : State) : Host.Outcome State Fault Refusal :=
  .next (match admitting s k 4 with | some c => mapCmd c s | none => s)

/-- The entries of a range become invalid. -/
def clearEntries (ctx first count : Nat) (s : State) : State :=
  { s with mem := { s.mem with
    vmap := (List.range count).foldl (fun t i => Tab.put VEntry.init t (vkey ctx (first + i)) VEntry.init) s.mem.vmap } }

/-- UNMAP applies to every command of the context admitted from now on; it waits for those admitted before, which keep the
entries they found (R251). -/
def unmapCmd (c : Cmd) (s : State) : State :=
  let ctx := c.p0 % 256
  let first := fld c.p1 12 0
  let count := fld c.p1 44 32
  let es := ventries s ctx first count
  if ctx = 0 ∨ 8192 < first + count ∨ es.any (fun v => !v.valid) then refuse c.key 0x4E s
  else
    let waits := (s.cmds.filter fun x =>
      (que s x.queue).ctx.toNat == ctx && x.st != .waiting && !(x.key == c.key)).map Cmd.key
    noteFree (updCmd c.key (fun c => { c with
      st := .running, work := .unmap (es.map fun v => v.ext.toNat) waits count
      decided := some (stampD s (mkDecision 0 0 0)) }) (clearEntries ctx first count s))

/-- UNMAP. -/
def execUnmap (k : Key) (s : State) : Host.Outcome State Fault Refusal :=
  .next (match admitting s k 5 with | some c => unmapCmd c s | none => s)

/-- Extents that are mapped and that no context maps any more, each once. -/
def releasable (s : State) (es : List Nat) : List Nat :=
  es.eraseDups.filter fun e => extState s e == .mapped && !isMapped s e

def unmapEnds (c : Cmd) (es : List Nat) (count : Nat) (s : State) : State :=
  let s := updCmd c.key (fun c => { c with work := .unmap [] [] count }) s
  let out := if bit c.p0 8 then releasable s es else []
  let s := out.foldl (fun st e => extentFreed e st) s
  completeDecided c.key (updCmd c.key (fun c => { c with
    decided := c.decided.map fun d => { d with value := BitVec.ofNat 64 out.length } }) s)

/-- UNMAP_COMPLETE. -/
def execUnmapComplete (k : Key) (s : State) : Host.Outcome State Fault Refusal :=
  .next (match running s k with
    | some c =>
      (match c.work with
       | .unmap es waits count =>
         if waits.any (fun w => (findCmd s w).isSome) then s else unmapEnds c es count s
       | _ => s)
    | none => s)

/-! ## Fences and bindings (R320, R324, R347) -/

def fenceSet (c : Cmd) (s : State) : State :=
  let f := fld c.p0 11 0
  let old := fnc s f
  noteFree (commitOk c.key 0 (setFnc f
    { val := BitVec.ofNat 63 c.p1, err := old.err && !bit c.p0 20, ctx := BitVec.ofNat 8 (fld c.p0 19 12)
      peerOk := bit c.p0 21, binding := BitVec.ofNat 6 (fld c.p0 27 22) } s))

/-- FENCE_SET. -/
def execFenceSet (k : Key) (s : State) : Host.Outcome State Fault Refusal :=
  .next (match admitting s k 6 with | some c => fenceSet c s | none => s)

def peerBind (c : Cmd) (s : State) : State :=
  let b := fld c.p0 5 0
  if bit c.p0 6 then commitOk c.key 0 (runAlone b (setBnd b Binding.init s))
  else
    let s := setBnd b
      { bound := true, serial := BitVec.ofNat 56 c.p1, link := BitVec.ofNat 3 (fld c.p1 58 56)
        epoch := BitVec.ofNat 32 c.p2, sent := 0, got := 0, seen := [] } s
    commitOk c.key 0 (if bindingLive s b then s else runAlone b s)

/-- PEER_BIND. -/
def execPeerBind (k : Key) (s : State) : Host.Outcome State Fault Refusal :=
  .next (match admitting s k 7 with | some c => peerBind c s | none => s)

/-- The body of a PEER_SIGNAL message (R481). -/
def signalBody (fence value : Nat) : List Byte := leBytes 8 fence ++ leBytes 8 value

/-- The signal is sent under the binding's next number. -/
def sendSignal (c : Cmd) (s : State) : State :=
  let b := fld c.p0 5 0
  let num := (bnd s b).sent + 1
  let s := setBnd b { bnd s b with sent := num } s
  let s := updCmd c.key (fun c => { c with st := .running, work := .peerSignal num }) s
  noteFree (bindingSend b 3 num (signalBody (fld c.p0 27 16) c.p1) s)

/-- PEER_SIGNAL needs no engine and goes on at once, unless the board's supply holds it in READY (R554). -/
def peerSignal (c : Cmd) (s : State) : State :=
  if !(bnd s (fld c.p0 5 0)).bound then refuse c.key 0x51 s
  else if s.pwr.holdup || s.pwr.lowv then
    readyOrder c.key (updCmd c.key (fun c => { c with st := .ready, work := .peerSignal 0 }) s)
  else sendSignal c s

/-- PEER_SIGNAL. -/
def execPeerSignal (k : Key) (s : State) : Host.Outcome State Fault Refusal :=
  .next (match admitting s k 0x21 with | some c => peerSignal c s | none => s)

/-! ## NOP and MODEL_UNLOAD (R87, R88) -/

/-- NOP. -/
def execNop (k : Key) (s : State) : Host.Outcome State Fault Refusal :=
  .next (match admitting s k 0x20 with | some c => commitOk c.key 0 s | none => s)

/-- A READY model goes to UNLOADING; every extent is zeroed before it is released. -/
def modelUnload (c : Cmd) (s : State) : State :=
  let id := c.p0 % 65536
  match modelFor s c.queue id with
  | none => refuse c.key 0x46 s
  | some m =>
    if m.st ≠ .ready then refuse c.key 0x48 s
    else
      let s := updMdl id (fun m => { m with st := .unloading }) s
      let s := m.exts.foldl (fun st e => releaseExtent st e) s
      let s := noteFree (updCmd c.key (fun c => { c with
        st := .running, work := .unload id, decided := some (stampD s (mkDecision 0 0 0)) }) s)
      if m.exts = [] then completeDecided c.key { s with models := Tab.put Model.init s.models id Model.init } else s

/-- MODEL_UNLOAD. -/
def execModelUnload (k : Key) (s : State) : Host.Outcome State Fault Refusal :=
  .next (match admitting s k 0x11 with | some c => modelUnload c s | none => s)

/-- MODEL_LOAD. -/
def execModelLoad (k : Key) (s : State) : Host.Outcome State Fault Refusal :=
  .next (match admitting s k 0x10 with | some c => modelLoad c s | none => s)

/-- MODEL_LOAD_END of a running load. -/
def execModelLoadEnd (k : Key) (s : State) : Host.Outcome State Fault Refusal :=
  .next (match running s k with
    | some c => (match c.work with | .load id => loadEnds c id s | _ => s)
    | none => s)

/-! ## EXTENT_ZEROED (R88, R253) -/

/-- A release's extent has been zeroed: one of a model in UNLOADING is held until the unload completes (R88), any other
is free. -/
def extentZeroed (e : Nat) (s : State) : State :=
  if extState s e = .releasing ∧ unloadsExtent s e then
    setExt e .zeroed (zeroCarafe (carafePhys s (e * extBytes)) extBytes s)
  else extentFreed e s

/-- A model whose last extent has been zeroed is gone and its extents are free; its unload completes. -/
def unloadStep (s : State) : State :=
  match s.models.find? fun p => p.2.st == .unloading && p.2.exts.all (fun e => extState s e == .zeroed) with
  | some (id, m) =>
    let s := m.exts.foldl (fun st e => extentFreed e st) s
    let s := { s with models := Tab.put Model.init s.models id Model.init }
    match s.cmds.find? fun c => c.work == .unload id with
    | some c => completeDecided c.key s
    | none => s
  | none => s

/-- EXTENT_ZEROED. -/
def execExtentZeroed (ext : BitVec 13) (s : State) : Host.Outcome State Fault Refusal :=
  .next (
    let e := ext.toNat
    if isUp s ∧ e < fwExt ∧ (extState s e = .unzeroed ∨ extState s e = .releasing) ∧
        (extState s e = .releasing ∨ (List.range e).all fun i => extState s i != .unzeroed) then
      unloadStep (extentZeroed e s)
    else s)

end Sys2Proof.Machine
end

