-- ==== Sys2Proof/Machine/Reset.lean ====
section
/-! DEFINITION. Resets (13), firmware slots and their images, and the end of a trial. -/

namespace Sys2Proof.Machine

/-! ## What a reset leaves (R17, R496) -/

/-- The machine right after a reset with a cause: fuses, flash, the Blotter's slots and the levels of the board's pins
and what the regulator was last told stay. A reset that is no power-on reset also leaves the TRNG (R429, R563), the
counters that run since power-on (R134, R201, R283), a failed wipe (R281) and the power of the memory-controller groups
(R546). -/
def resetMachine (cause : Nat) (s : State) : State :=
  let warm := cause != 0
  { State.reset with
    pending := s.pending, free := s.free, now := s.now, sent := s.sent, fuse := s.fuse, flash := s.flash
    boot := { BootSt.reset (BitVec.ofNat 4 cause) s.now with latched := s.boot.latched }
    mem := if warm then { MemSt.reset with wipes := s.mem.wipes, wipeCause := s.mem.wipeCause, wipeFailed := s.mem.wipeFailed }
           else MemSt.reset
    host := { HostSt.reset with
      mem := s.host.mem, badRead := s.host.badRead, lost := s.host.lost, atsRefused := s.host.atsRefused
      atsReadOnly := s.host.atsReadOnly }
    arr := if warm then { s.arr with status := 0, intEn := 0 } else ArrSt.reset
    anl := if warm then { s.anl with status := 0, intEn := 0 } else AnlSt.reset
    rng := if warm then s.rng else RngSt.reset
    svc := { SvcSt.reset with tamperEnd := s.svc.tamperEnd }
    bb := BbSt.reset s.bb.slots
    pwr := { PwrSt.reset with
      holdup := s.pwr.holdup, lowv := s.pwr.lowv, thermtrip := s.pwr.thermtrip, refclkOk := s.pwr.refclkOk, vout := s.pwr.vout
      dom := if warm then s.pwr.dom.filter fun d => decide (80 ≤ d.1) && decide (d.1 < 86) else [] } }

/-- A reset that the E64 starts itself: what is queued for the Blotter is written first. -/
def selfReset (cause : Nat) (s : State) : State :=
  resetMachine cause (blotterFlush (2 * s.bb.queue.length + 2) s)

/-- POWER_ON. -/
def execPowerOn (s : State) : Host.Outcome State Fault Refusal :=
  .next (resetMachine 0 { s with
    boot := { s.boot with latched := [] }
    pwr := { s.pwr with holdup := false, lowv := false, thermtrip := false, refclkOk := true, vout := 750 }
    svc := { s.svc with tamperEnd := 0 } })

/-- RESET_N: low for at least 1 µs (R553). It ends a thermal trip's hold (R543), not a brown-out's. -/
def execResetN (lowNs : Nat) (s : State) : Host.Outcome State Fault Refusal :=
  .next (
    if lowNs < 1000 then s
    else
      let s := { s with pwr := { s.pwr with thermtrip := false }, boot := { s.boot with thermal := false } }
      if s.boot.brown != [] then s else resetMachine 1 s)

/-- WATCHDOG (R500). -/
def execWatchdog (proc : Fin 5) (s : State) : Host.Outcome State Fault Refusal :=
  .next (if isUp s then
    let l := s.flash.watchdogs ++ [s.now]
    selfReset 4 (logEvent 0x04 0xFF [proc.val] { s with flash := { s.flash with watchdogs := l.drop (l.length - 3) } })
  else s)

/-! ## VCORE (R529, R533, R534) -/

/-- VCORE of a point, in mV. -/
def pointMv (p : Nat) : Nat := [620, 650, 680, 720, 750, 780, 810, 850].getD p 750

/-- VCORE in mV, less the trim. -/
def voutMv (s : State) : Nat := pointMv s.pwr.actual.toNat - 5 * s.pwr.trim

/-- The regulator is told VCORE where that is not what it was last told; it starts at 750 mV (R529). -/
def sendVout (s : State) : State :=
  if voutMv s = s.pwr.vout then s else emit (.vout (voutMv s)) { s with pwr := { s.pwr with vout := voutMv s } }

/-! ## Slots and images (R501, R508) -/

def slotOf (s : State) (i : Nat) : Slot := if i = 0 then s.flash.slot0 else s.flash.slot1
/-- The newer copy of the slot directory (R508). -/
def newestDir (f : Flash) : DirCopy := if f.dirB.seq < f.dirA.seq then f.dirA else f.dirB

/-- A change of the directory writes its older copy, with the next sequence number (R508). -/
def writeDir (st0 st1 : SlotState) (f : Flash) : Flash :=
  let d : DirCopy := ⟨(newestDir f).seq + 1, st0, st1⟩
  if f.dirB.seq < f.dirA.seq then { f with dirB := d } else { f with dirA := d }

/-- A slot changes; where its state does, so does the directory. -/
def setSlot (i : Nat) (x : Slot) (s : State) : State :=
  let f := if i = 0 then { s.flash with slot0 := x } else { s.flash with slot1 := x }
  { s with flash := if x.st = (slotOf s i).st then f else writeDir f.slot0.st f.slot1.st f }

/-- The boot ROM takes the states of the slots from the newer copy (R508). -/
def readDir (s : State) : State :=
  let d := newestDir s.flash
  { s with flash := { s.flash with
      slot0 := { s.flash.slot0 with st := d.st0 }, slot1 := { s.flash.slot1 with st := d.st1 } } }

def setSlotState (i : Nat) (st : SlotState) (s : State) : State := setSlot i { slotOf s i with st := st } s

/-- Bytes of a slot's image. -/
def imgBytes (x : Slot) (off len : Nat) : List Byte := Tab.window 0 x.image off len
def imgNat (x : Slot) (off len : Nat) : Nat := leNat (imgBytes x off len)

def slotMajor (x : Slot) : Nat := imgNat x 7 1
def slotMinor (x : Slot) : Nat := imgNat x 6 1
def slotBuild (x : Slot) : Nat := imgNat x 4 2
def slotSvn (x : Slot) : Nat := imgNat x 8 1 % 64

/-- R501 but for SVN. -/
def imageOk (s : State) (x : Slot) : Bool :=
  let len := imgNat x 0xC 4
  imgNat x 0 4 == 0xE64F0A1E && len % 4096 == 0 && decide (len ≤ 33554432) && imgNat x 0x10 1 % 2 == 1 &&
    imgBytes x 0x20 32 == sha256 (imgBytes x 0x100 (len - 0x100)) &&
    ecdsaVerify (keyBytes s.fuse.vendorKey) (imgBytes x 0 0x40) (imgBytes x 0x40 64)

/-- R501. -/
def bootable (s : State) (x : Slot) : Bool := imageOk s x && decide (s.fuse.svnMin.toNat ≤ slotSvn x)

/-- The slot in a state. -/
def slotIn (s : State) (st : SlotState) : Option Nat :=
  ([0, 1] : List Nat).find? fun i => (slotOf s i).st == st

/-! ## Trials (R514 to R517) -/

/-- TRIAL_TIMEOUT. -/
def execTrialTimeout (s : State) : Host.Outcome State Fault Refusal :=
  .next (if isUp s && s.boot.trial then selfReset 3 s else s)

/-- ABANDON: from BAR0 the write is dropped. -/
def abandonTrial (path : Path) (s : State) : State :=
  match path with
  | .bar0 => fwFlag 4 s
  | .localPort => if s.boot.trial then selfReset 3 s else s
def execAbandon (path : Path) (s : State) : Host.Outcome State Fault Refusal :=
  .next (if isUp s then abandonTrial path s else s)

/-- A BACKUP slot whose SVN falls below SVN_MIN is rejected. -/
def rejectOld (s : State) : State :=
  match slotIn s .backup with
  | some i => if slotSvn (slotOf s i) < s.fuse.svnMin.toNat then setSlotState i .rejected s else s
  | none => s

/-- Is a check of R515 lost for this boot: a channel that did not train, fewer engines or more failed table entries than at
the last ACTIVE boot, a TRNG in FATAL? -/
def trialFails (s : State) : Bool :=
  s.boot.trained != 0xFFFFFF || decide (64 - popcount 64 (offlineMask s) < s.flash.lastOnline) || s.rng.st == .fatal ||
    decide (s.flash.lastFails < s.boot.tableFails)

/-- Do all checks of R515 hold? The processors run the image and BAR0 is accessible once the boot is over. -/
def trialHealthy (s : State) : Bool := isUp s && !trialFails s && s.rng.passed

/-- CONFIRM (R516), which the image writes only when its checks hold (R515): the trial slot becomes ACTIVE and the former
ACTIVE slot BACKUP. -/
def confirmTrial (path : Path) (s : State) : State :=
  match path with
  | .bar0 => fwFlag 4 s
  | .localPort =>
    if !s.boot.trial || !trialHealthy s then s
    else
      let i := s.boot.slot
      let s := match slotIn s .active with | some j => setSlotState j .backup s | none => s
      let s := setSlotState i .active s
      let svn := max s.fuse.svnMin.toNat (slotSvn (slotOf s i))
      let s := { s with boot := { s.boot with trial := false }, fuse := { s.fuse with svnMin := BitVec.ofNat 6 svn } }
      logEvent 0x14 0xFF [i, (s.now - s.boot.t0) / 100000, svn] (fwFlag 2 (rejectOld s))
def execConfirm (path : Path) (s : State) : Host.Outcome State Fault Refusal :=
  .next (if isUp s then confirmTrial path s else s)

end Sys2Proof.Machine
end

