-- ==== Sys2Proof/Machine/Boot.lean ====
section
/-! DEFINITION. The boot sequence (13): the Blotter scan, the choice of a slot, spares, keys, the standing table, and
the moment BAR0 becomes accessible. -/

namespace Sys2Proof.Machine

/-! ## The slot (R497) -/

/-- Steps 1 and 2: an open session ends, an unconfirmed trial is rejected. -/
def settleSlot (i : Nat) (s : State) : State :=
  match (slotOf s i).st with
  | .receiving => logEvent 0x13 0xFF [1] (setSlot i Slot.init s)
  | .trial =>
    let cause := if s.boot.cause = 3 then 0 else if s.boot.cause = 4 then 1 else 2
    logEvent 0x15 0xFF [i, cause] (fwFlag 3 (setSlotState i .rejected s))
  | _ => s

/-- A candidate is verified: started in a state, or rejected. -/
def tryslot (c : Option Nat) (to' : SlotState) (s : State) : Option Nat × State :=
  match c with
  | none => (none, s)
  | some i =>
    let s := setSlotState i to' s
    if bootable s (slotOf s i) then (some i, s)
    else
      let s := if to' = .trial then fwFlag 3 s else s
      (none, logEvent 0x15 0xFF [i, 3] (setSlotState i .rejected s))

/-- Steps 3 and 4 and their fallbacks: the slot to start, and whether it is a trial. -/
def chooseSlot (s : State) : Option (Nat × Bool) × State :=
  match tryslot (slotIn s .pending) .trial s with
  | (some i, s) => (some (i, true), s)
  | (none, s) =>
    match tryslot (slotIn s .active) .active s with
    | (some i, s) => (some (i, false), s)
    | (none, s) =>
      match tryslot (slotIn s .backup) .active s with
      | (some i, s) => (some (i, false), s)
      | (none, s) => (none, s)

/-- Have three watchdog resets come within 600 s (R500)? -/
def watchdogRule (s : State) : Bool :=
  match s.flash.watchdogs with
  | [a, _, c] => s.boot.cause == 4 && decide (c - a ≤ 60000000000)
  | _ => false

/-- RECOVERY (R502). -/
def enterRecovery (cause : Nat) (s : State) : State :=
  logEvent 0x03 0xFF [cause] { s with
    boot := { s.boot with phase := .recovery }, flash := { s.flash with watchdogs := [] } }

/-! ## Engines, domains and memory (R40, R41, R263, R264, R277, R519, R546) -/

/-- The physical engine for logical engine `n`: its own place, or the cluster's ninth for the lowest that needs it. Which
eight of the nine serve which logical engines is the model's choice: R40 leaves it open (log 28). -/
def placeEngine (bad : Nat → Bool) (n : Nat) : Option Nat :=
  let c := n / 8
  let own := 9 * c + n % 8
  if !bad own then some own
  else if !bad (9 * c + 8) && (List.range (n % 8)).all (fun i => !bad (9 * c + i)) then some (9 * c + 8)
  else none

/-- Engines that fuses or self-test make unusable, those of a cluster whose memory failed among them. -/
def engineBad (s : State) (f : BootFindings) (p : Nat) : Bool :=
  s.fuse.badEngines.getLsbD p || f.badEngines.getLsbD p || f.badClusters.getLsbD (p / 9)

/-- Spares are mapped, repairs and retirements applied, every domain that serves is on, and VCORE is that of point 4. -/
def bootHardware (f : BootFindings) (s : State) : State :=
  let bad := engineBad s f
  let soft := f.softRepairs.foldl (fun t r =>
    Tab.put 0 t r.1 (BitVec.ofNat 8 (min ((Tab.get 0 t r.1).toNat + r.2.toNat) (8 - (Tab.get 0 s.fuse.repairs r.1).toNat))))
    s.flash.softRepairs
  let phys := (List.range 64).foldl (fun t n => match placeEngine bad n with
    | some p => Tab.put 0 t n (p + 1)
    | none => t) ([] : Tab Nat)
  let used := phys.map fun m => m.2 - 1
  let dom := (used ++ (used.map fun p => 72 + p / 9) ++ [80, 81, 82, 83, 84, 85]).foldl (fun t d => Tab.put .off t d .on)
    ([] : Tab DomState)
  let dom := ((List.range 10).filter fun i => s.flash.portsOn.getLsbD i).foldl (fun t i => Tab.put .off t (86 + i) .waking) dom
  sendVout { s with
    flash := { s.flash with softRepairs := soft }
    emap := mapMasks { phys := phys, failed := [], bad := (List.range 72).filter bad, fuseRep := s.fuse.repairs, softRep := soft
                       offline := 0, subst := 0 }
    mem := { s.mem with ext := s.flash.removed.foldl (fun t e => Tab.put .unzeroed t e .removed) s.mem.ext, secure := some s.free }
    free := s.free + 1
    boot := { s.boot with trained := f.trained }
    pwr := { s.pwr with dom := dom, actual := 4, rate := f.rate, intEn := 0x3E }
    det := { s.det with point := 4, cap := 0, refclk := if s.pwr.refclkOk then 10000 else 0 }
    rng := { s.rng with intEn := 3 }
    fe := { s.fe with timeoutMs := s.flash.timeoutMs }
    kw := { s.kw with encrypt := s.flash.kwEncrypt, refuse := s.flash.kwRefuse } }

/-- The Carafe key is drawn with encryption on, and the boot nonce with it (R264); in FATAL, or after a failed wipe (R281),
there is no key and MEM is LOCKED (R519). -/
def bootKey (s : State) : State :=
  let s := { s with mem := { s.mem with cryptOn := s.flash.crypt } }
  if !s.flash.crypt then s
  else
    match (if s.mem.wipeFailed then (none, s) else bootDraw s) with
    | (some k, s) =>
      let (n, s) := freshBelow 0 s
      { s with mem := { s.mem with carafeKey := some k, carafeNonce := BitVec.ofNat 64 n } }
    | (none, s) =>
      let s := if s.rng.st = .fatal then logEvent 0x32 0xFF [2] s else s
      { s with mem := { s.mem with locked := true } }

/-! ## The standing table (R490) -/

/-- The entries of a table: KIND and body. -/
def tableEntries : Nat → List Byte → List (Nat × List Byte)
  | 0, _ => []
  | fuel + 1, t =>
    if t.length < 4 then [] else
    let n := leAt t 2 2
    (leAt t 0 1, (t.drop 4).take n) :: tableEntries fuel (t.drop (4 + n))

/-- CONTEXT: extents zeroed for it are mapped from VEXT 0; it fails as a MAP does. -/
def tableContext (b : List Byte) (s : State) : Except Nat State :=
  let ctx := leAt b 0 4
  let count := leAt b 4 4
  let free := ((List.range fwExt).filter fun e => extState s e == .unzeroed).take count
  if b.length ≠ 8 ∨ ctx = 0 ∨ 256 ≤ ctx ∨ 8192 < count ∨ free.length < count ∨
      (ventries s ctx 0 count).any VEntry.valid then .error 0x4E
  else .ok (mapExtents ctx true true 0 free (free.foldl (fun st e => extentFreed e st) s))

/-- QUEUE: user queues only (R289). -/
def tableQueue (b : List Byte) (s : State) : Except Nat State :=
  if b.length ≠ 64 ∨ qdKind b ≠ 2 then .error 0x4C else createQueue b s

/-- BINDING. -/
def tableBinding (b : List Byte) (s : State) : Except Nat State :=
  let i := leAt b 0 4
  let id := leAt b 4 8
  if b.length ≠ 16 ∨ 64 ≤ i ∨ !within id 0x07FFFFFFFFFFFFFF then .error 0x41
  else .ok (setBnd i { bound := true, serial := BitVec.ofNat 56 id, link := BitVec.ofNat 3 (fld id 58 56),
                       epoch := BitVec.ofNat 32 (leAt b 12 4), sent := 0, got := 0, seen := [] } s)

/-- A lock-step entry as it is kept: a WINDOW of 0 is 1 (R393). -/
def lsCfgWord (v : Nat) : Word :=
  let v := v &&& 0x83FFFFFF
  BitVec.ofNat 32 (if fld v 25 22 = 0 then v + 2 ^ 22 else v)

/-- LOCKSTEP. -/
def tableLockStep (b : List Byte) (s : State) : Except Nat State :=
  if b.length ≠ 8 ∨ 16 ≤ leAt b 0 4 then .error (Config.tableFailure 4)
  else .ok { s with det := { s.det with lsCfg := Tab.put 0x00800000 s.det.lsCfg (leAt b 0 4) (lsCfgWord (leAt b 4 4)) } }

/-- FENCE: P0 and P1 of FENCE_SET. -/
def tableFence (b : List Byte) (s : State) : Except Nat State :=
  let p0 := leAt b 0 4
  let p1 := leAt b 4 8
  if b.length ≠ 12 ∨ !within p0 (maskP0 6) ∨ !within p1 (maskP1 6) then .error 0x41
  else .ok (setFnc (fld p0 11 0)
    { val := BitVec.ofNat 63 p1, err := (fnc s (fld p0 11 0)).err && !bit p0 20, ctx := BitVec.ofNat 8 (fld p0 19 12)
      peerOk := bit p0 21, binding := BitVec.ofNat 6 (fld p0 27 22) } s)

/-- The configuration words of a stream but ING_S_CTRL (R493), as the registers take them while it is DISABLED. -/
def streamWord (k : Nat) (v : Nat) (x : Stream) : Stream :=
  match k with
  | 1 => { x with udp := BitVec.ofNat 16 (v / 2 ^ 16), recUnits := BitVec.ofNat 8 v }
  | 2 => { x with ring := BitVec.ofNat 64 (x.ring.toNat / 2 ^ 32 * 2 ^ 32 + v) }
  | 3 => { x with ring := BitVec.ofNat 64 (v * 2 ^ 32 + x.ring.toNat % 2 ^ 32) }
  | 4 => { x with consAddr := BitVec.ofNat 64 (x.consAddr.toNat / 2 ^ 32 * 2 ^ 32 + v) }
  | 5 => { x with consAddr := BitVec.ofNat 64 (v * 2 ^ 32 + x.consAddr.toNat % 2 ^ 32) }
  | 6 => { x with prodAddr := BitVec.ofNat 64 (x.prodAddr.toNat / 2 ^ 32 * 2 ^ 32 + v) }
  | 7 => { x with prodAddr := BitVec.ofNat 64 (v * 2 ^ 32 + x.prodAddr.toNat % 2 ^ 32) }
  | 14 => { x with reasm := BitVec.ofNat 16 v }
  | _ => x

/-- STREAM: register writes, which only a DISABLED stream takes, then ENABLE. The 14 words are ING_S_CTRL, the registers
from +0x04 on as far as they go, and ING_S_REASM last (log 24). -/
def tableStream (b : List Byte) (s : State) : Except Nat State :=
  let i := leAt b 0 4
  if b.length ≠ 60 ∨ 16 ≤ i ∨ (strm s i).st ≠ .disabled then .error (Config.tableFailure 6)
  else
    let s := (List.range 14).foldl (fun st k =>
      if k = 0 then st else updStrm i (streamWord (if k = 13 then 14 else k) (leAt b (4 + 4 * k) 4)) st) s
    let s' := streamEnable i (leAt b 4 4) s
    if (strm s' i).st = .active then .ok s' else .error (Config.tableFailure 6)

/-- ROUTE. -/
def tableRoute (b : List Byte) (s : State) : Except Nat State :=
  let q := leAt b 0 4
  let l := leAt b 4 4
  if b.length ≠ 8 ∨ q = 0 ∨ 65536 ≤ q ∨ 8 ≤ l then .error (Config.tableFailure 7)
  else .ok { s with ing := { s.ing with routes := s.ing.routes ++ [(q, l)] } }

/-- One entry applied, or its failure: the DETAIL of the command it is applied as where that has one (R490). -/
def tableApply (kind : Nat) (b : List Byte) (s : State) : Except Nat State :=
  match kind with
  | 1 => tableContext b s
  | 2 => tableQueue b s
  | 3 => tableBinding b s
  | 4 => tableLockStep b s
  | 5 => tableFence b s
  | 6 => tableStream b s
  | 7 => tableRoute b s
  | _ => .error (Config.tableFailure kind)

/-- All entries in order; one that fails is skipped and recorded. -/
def applyTable : Nat → List (Nat × List Byte) → State → State
  | _, [], s => s
  | i, (k, b) :: es, s =>
    match tableApply k b s with
    | .ok s => applyTable (i + 1) es s
    | .error e =>
      applyTable (i + 1) es (logEvent 0x25 0xFF [i, k, e]
        { s with boot := { s.boot with tableFails := s.boot.tableFails + 1 } })

/-! ## BOOT (R498) -/

/-- Firmware starts from a slot. -/
def startFirmware (i : Nat) (trial : Bool) (s : State) : State :=
  let x := slotOf s i
  let s := { s with boot := { s.boot with
    trial := trial, windowS := s.flash.confirmS.toNat, major := BitVec.ofNat 8 (slotMajor x)
    minor := BitVec.ofNat 8 (slotMinor x), build := BitVec.ofNat 16 (slotBuild x), slot := i } }
  logEvent 0x01 0xFF [i, slotMajor x, slotMinor x, slotBuild x, s.boot.cause.toNat, b2n trial] s

/-- BAR0 becomes accessible. -/
def bootReady (f : BootFindings) (s : State) : State :=
  let off := offlineMask s
  let online := 64 - popcount 64 off
  let s := { s with
    now := max s.now (s.boot.t0 + f.readyMs.toNat * 100000)
    boot := { s.boot with phase := .running, readyMs := f.readyMs }
    flash := if s.boot.trial then s.flash
      else { s.flash with lastOnline := online, lastFails := s.boot.tableFails } }
  logEvent 0x02 0xFF [f.readyMs.toNat, online, off, b2n s.mem.locked] s

/-- Steps 4 to 8 of R498. A trial image that finds a check failed abandons at once (R515). -/
def bootFirmware (f : BootFindings) (i : Nat) (trial : Bool) (s : State) : State :=
  let s := bootKey (bootHardware f (startFirmware i trial s))
  let s := applyTable 0 (tableEntries (s.flash.table.length / 4 + 1) s.flash.table) s
  let s := bootReady f (icuBoot s)
  if s.boot.trial && trialFails s then selfReset 3 s else s

/-- REFCLK is measured: one that is gone is recorded as lost (R552). -/
def measureRefclk (s : State) : State := if s.pwr.refclkOk then s else logSev 3 0x85 11 [0] (pwrFlag 4 s)

/-- Steps 1 to 3: the scan, the count of boots, latched brown-outs, and the slot. An open session and an unconfirmed trial
end at every reset, also one that leads to RECOVERY (R513, R517). -/
def bootRom (f : BootFindings) (s : State) : State :=
  let s := readDir (blotterScan { s with flash := { s.flash with bootCount := min (s.flash.bootCount + 1) 0xFFFFFFF } })
  let s := s.boot.latched.foldl (fun st r => logSev 4 0x86 11 [r] st) { s with boot := { s.boot with latched := [] } }
  let s := settleSlot 1 (settleSlot 0 (measureRefclk s))
  if s.fuse.decommissioned then { s with boot := { s.boot with phase := .decommissioned } }
  else if watchdogRule s then enterRecovery 1 s
  else
    match chooseSlot s with
    | (none, s) => enterRecovery 0 s
    | (some (i, trial), s) => bootFirmware f i trial s

/-- BOOT. -/
def execBoot (f : BootFindings) (s : State) : Host.Outcome State Fault Refusal :=
  .next (if s.boot.phase = .booting then bootRom f s else s)

end Sys2Proof.Machine
end

