-- ==== Sys2Proof/Machine/FrontEnd.lean ====
section
/-! DEFINITION. Quill (08): doorbells, the admin queue, fetching, the start of READY commands, copies and timeouts. -/

namespace Sys2Proof.Machine

/-! ## Doorbells and the admin queue (R295, R296, R300, R350) -/

def bar0DbSq (q : Nat) (t : Word) (s : State) : State := if bar0Rings s q then sqDoorbell q t s else feDbIgnored s
def bar0DbCq (q : Nat) (h : Word) (s : State) : State := if bar0Rings s q then cqDoorbell q h s else feDbIgnored s

/-- FE_DB_SQ. -/
def execFeDbSq (q : BitVec 16) (t : Word) (s : State) : Host.Outcome State Fault Refusal :=
  .next (if isUp s then bar0DbSq q.toNat t s else s)

/-- FE_DB_CQ. -/
def execFeDbCq (q : BitVec 16) (h : Word) (s : State) : Host.Outcome State Fault Refusal :=
  .next (if isUp s then bar0DbCq q.toNat h s else s)

/-- FE_AQ_ENABLE. -/
def execFeAqEnable (value : BitVec 31) (s : State) : Host.Outcome State Fault Refusal :=
  .next (if isUp s then aqEnable value.toNat s else s)

/-- FE_AQ_DISABLE. -/
def execFeAqDisable (value : BitVec 31) (s : State) : Host.Outcome State Fault Refusal :=
  .next (if isUp s then aqDisable value.toNat s else s)

/-- COMMAND_FETCH. -/
def execCommandFetch (q : BitVec 16) (s : State) : Host.Outcome State Fault Refusal :=
  .next (if isUp s && mayFetch s q.toNat then fetchOne q.toNat s else s)

/-! ## Power domains (R47, R546, R547, R549) -/

def setDom (d : Nat) (x : DomState) (s : State) : State :=
  { s with pwr := { s.pwr with dom := Tab.put .off s.pwr.dom d x } }

/-- Is the domain on, with no off request to complete? -/
def staysOn (s : State) (d : Nat) : Bool := domState s d == .on && !decide (d ∈ s.pwr.offReq)

/-- Domains of logical engines: each physical engine's, and its cluster's (72 on). -/
def domainsOf (s : State) (engs : List Nat) : List Nat :=
  (engs.filterMap (physOf s)) ++ ((engs.map fun n => 72 + n / 8).eraseDups)

/-- Quill's wake request. The domain of an off request that was ordered first completes OFF and then wakes (R549). -/
def wakeDomain (s : State) (d : Nat) : State :=
  match domState s d with
  | .off => setDom d .waking s
  | .on =>
    if d ∈ s.pwr.offReq ∧ d ∉ s.pwr.wakeAfter then { s with pwr := { s.pwr with wakeAfter := s.pwr.wakeAfter ++ [d] } } else s
  | _ => s

/-! ## COMMAND_START (R316, R317, R554) -/

/-- Is it an annealing run in free mode, which runs on the engines online when it starts (R42, R316)? -/
def Cmd.freeRun (c : Cmd) : Bool := c.freeMode && (match c.work with | .anneal _ => true | _ => false)

/-- Engines that count for R317. -/
def needsOf (s : State) (c : Cmd) : List Nat :=
  if c.anyEngines ≠ 0 then List.range 64 else if c.freeRun then onlineEngines s else c.engines

/-- Is there a READY command of the same or a lower class, in READY earlier, that needs an engine `c` needs? -/
def heldBack (s : State) (c : Cmd) : Bool :=
  s.cmds.any fun d => d.st == .ready && d.decided.isNone && !(d.key == c.key) &&
    decide ((que s d.queue).cls.toNat ≤ (que s c.queue).cls.toNat) && decide (d.order < c.order) &&
    (needsOf s d).any fun n => decide (n ∈ needsOf s c)

/-- The engines a start uses: the command's own, or the placement the sequencer chose (R235). -/
def startEngines (s : State) (c : Cmd) (place : List (Fin 64)) : List Nat :=
  if c.anyEngines ≠ 0 then place.map Fin.val else needsOf s c

/-- Is a placement lawful: online engines, each once, as many as asked? -/
def placeOk (s : State) (c : Cmd) (engs : List Nat) : Bool :=
  c.anyEngines == 0 || (engs.length == c.anyEngines && decide engs.Nodup && engs.all fun n => (physOf s n).isSome)

/-- May the command start on these engines, their power aside? The list of an ordered command stays as admission took it:
one whose engine has gone offline since does not start and waits for its timeout, the model's choice (log 64). -/
def mayStart (s : State) (c : Cmd) (engs : List Nat) : Bool :=
  c.st == .ready && c.decided.isNone && !s.pwr.holdup && !s.pwr.lowv && placeOk s c engs && !heldBack s c &&
    engs.all (fun n => (eng s n).cmd.isNone && (physOf s n).isSome) &&
    (match c.work with | .anneal r => r.split.complete && !engs.isEmpty | _ => true)

/-- An engine begins a command: zeroed after a kill, faults cleared, windows applied (R204, R238, R243, R272, R329). -/
def takeEngine (k : Key) (program : Bool) (s : State) (n : Nat) : State :=
  let s := if (eng s n).zeroFirst then (match physOf s n with | some p => zeroSpad p s | none => s) else s
  updEng n (fun e => { e with
    cmd := some k, fault := 0, pfault := 0, zeroFirst := false, kept := if program then e.kept else [], keepNext := []
    winBaseNow := e.winBase, winSizeNow := e.winSize, pst := .idle }) s

/-- A command goes to RUNNING. -/
def launch (c : Cmd) (engs : List Nat) (s : State) : State :=
  let program := match c.work with | .program _ => true | _ => false
  let s := engs.foldl (takeEngine c.key program) s
  let s := match c.work with | .load _ => if engs = [] then s else openOnchip s | _ => s
  let go := fun (d : Cmd) => { d with
    st := .running, engines := engs, anyEngines := 0, spares := maskOf (engs.filter (servedBySpare s)) }
  let s := updCmd c.key go s
  let c := go c
  noteFree (match c.work with
    | .anneal r => beginRun c (mdl s r.model) r s
    | .program p => startProgram c p engs s
    | .peerSignal _ => sendSignal c s
    | _ => s)

def startCmd (c : Cmd) (engs : List Nat) (s : State) : State :=
  if !mayStart s c engs then s
  else
    let doms := domainsOf s engs
    let s := doms.foldl wakeDomain s
    if doms.all (staysOn s) then launch c engs s else s

/-- The start of a program's work on its engines ends with their preload (R237, log 68). -/
def endPreload (c : Cmd) (s : State) : State :=
  match c.work with
  | .program p => if c.st = .running ∧ preloading s p then preloadEnds c p s else s
  | _ => s

/-- COMMAND_START: of a command in READY; of a program whose engines preload, the end of the preload. -/
def execCommandStart (k : Key) (place : List (Fin 64)) (s : State) : Host.Outcome State Fault Refusal :=
  .next (match findCmd s k with
    | some c => if !isUp s then s else if c.st = .ready then startCmd c (startEngines s c place) s else endPreload c s
    | none => s)

/-! ## COPY (R303, R339, R340) -/

/-- A COPY in ADMITTING: it needs no engine. -/
def copyCmd (c : Cmd) (s : State) : State :=
  readyOrder c.key (updCmd c.key (fun c => { c with st := .ready, work := .copy }) s)

/-- COPY. -/
def execCopy (k : Key) (s : State) : Host.Outcome State Fault Refusal :=
  .next (match admitting s k 0x18 with | some c => copyCmd c s | none => s)

/-- Chunks of 4 KiB are read and written in order, up to the first failure. -/
def copyChunks (c : Cmd) : Nat → Nat → Nat → State → Except Decision Unit × State
  | 0, _, _, s => (.ok (), s)
  | fuel + 1, off, len, s =>
    if len = 0 then (.ok (), s) else
    let x := que s c.queue
    let k := min len 4096
    match spaceRead (bit c.p0 0) x.ats (cmdView s c) (c.p1 + off) k s with
    | (.error e, s) => (.error e.dec, s)
    | (.ok bs, s) =>
      match spaceWrite (bit c.p0 1) x.ats (cmdView s c) (c.p2 + off) bs s with
      | (.error e, s) => (.error e.dec, s)
      | (.ok _, s) => copyChunks c fuel (off + k) (len - k) s

def copyBytes (c : Cmd) (len : Nat) (s : State) : Except Decision Unit × State :=
  copyChunks c (ceilDiv len 4096) 0 len s

def copyEnds (c : Cmd) (s : State) : State :=
  match copyBytes c c.p3 s with
  | (.error d, s) => complete c.key d s
  | (.ok _, s) => commitOk c.key 0 s

/-- COPY_DONE. -/
def execCopyDone (k : Key) (s : State) : Host.Outcome State Fault Refusal :=
  .next (match running s k with
    | some c => (match c.work with | .copy => if c.decided.isNone then copyEnds c s else s | _ => s)
    | none => s)

/-- COPY_STOPS_AT_BOUNDARY: an aborted copy stops after `done` bytes. -/
def execCopyStopsAtBoundary (k : Key) (done : Nat) (s : State) : Host.Outcome State Fault Refusal :=
  .next (match running s k with
    | some c => (match c.work with
      | .copy =>
        if c.decided.isSome ∧ done % 4096 = 0 ∧ done ≤ c.p3 then completeDecided k (copyBytes c done s).2 else s
      | _ => s)
    | none => s)

/-! ## Failed reads without a completion (R448) -/

/-- May the command have a host read outstanding? -/
def readsHost (s : State) (c : Cmd) : Bool :=
  (que s c.queue).onPcie && c.decided.isNone &&
    (c.st == .admitting || (c.st == .running && (match c.work with
      | .copy => bit c.p0 0
      | .load id => descHost (mdl s id).desc
      | _ => false)))

/-- A load whose read at an address times out ends where that read's bytes are needed (R86); an address that the load
does not read has no read outstanding. -/
def loadTimesOut (c : Cmd) (id addr : Nat) (s : State) : State :=
  let bad := s.host.badRead
  let r := loadModel c (mdl s id) { s with host := { s.host with badRead := (addr, 1) :: bad } }
  match r.1 with
  | .fail k row col => loadFails c id k row col (mkDecision 2 4 0xFFFF) { r.2 with host := { r.2.host with badRead := bad } }
  | .ok _ _ _ _ => s

/-- The function records a completion timeout in its uncorrectable error status, bit 14 (R446, log 65). -/
def aerTimeout (s : State) : State := { s with host := { s.host with aer := s.host.aer ||| 0x4000 } }

def readTimesOut (c : Cmd) (addr : Nat) (s : State) : State :=
  let d := mkDecision 5 0x11 addr
  if c.st = .admitting then
    (if c.opcode = 0x10 then updCmd c.key (fun c => { c with blockFail := some (blkModel, d) }) s else complete c.key d s)
  else
    match c.work with
    | .load id => loadTimesOut c id addr s
    | _ => complete c.key d s

/-- HOST_READ_TIMEOUT. -/
def execHostReadTimeout (k : Key) (addr : Quad) (s : State) : Host.Outcome State Fault Refusal :=
  .next (match findCmd s k with
    | some c => if isUp s && readsHost s c then readTimesOut c addr.toNat (aerTimeout s) else s
    | none => s)

/-! ## Timeouts (R165, R324, R326, R328, R340) -/

/-- Members of a split group that have not joined. -/
def notJoined (s : State) (p : SplitSt) : List Nat :=
  (List.range p.devices).filter fun i => i != p.index && (routeTo s p i).isNone

/-- Members whose parts of a sweep's energies are not all here. -/
def notSummed (r : Run) (sweep : Nat) : List Nat :=
  (List.range r.split.devices).filter fun i => i != r.split.index && decide ((partsOf r.split sweep i).length < r.reps)

/-- The peer a split run waits for, the lowest-indexed of several; none if it waits for no peer. -/
def missingPeer (s : State) (m : Model) (r : Run) : Option Nat :=
  let p := r.split
  if p.devices ≤ 1 ∨ !lsMayPass r.ls r.ckpts.toNat then none
  else if !p.complete then (notJoined s p).head?
  else if !r.started then (notSummed r initialSweep).head?
  else if r.cls = nColours m then ((behind p r.turnNo).head?).or (notSummed r r.sweep).head?
  else (behind p (r.turnNo - p.lag)).head?

/-- How a timeout ends a command. -/
def timesOut (c : Cmd) (s : State) : State :=
  let late := mkDecision 8 0 c.timeout
  match c.work with
  | .peerSignal _ => killCmd c (mkDecision 7 1 0) s
  | .anneal r =>
    (match missingPeer s (mdl s r.model) r with
     | some i => killCmd c (atEngine i (mkDecision 7 1 0)) s
     | none => killCmd c late (feFlag 5 s))
  | _ => killCmd c late (feFlag 5 s)

/-- COMMAND_TIMEOUT. -/
def execCommandTimeout (k : Key) (s : State) : Host.Outcome State Fault Refusal :=
  .next (match findCmd s k with
    | some c => if isUp s && c.decided.isNone && !(c.st == .waiting) then timesOut c s else s
    | none => s)

/-- Did an ABORT that still waits for the command win its decision point? -/
def abortWon (s : State) (k : Key) : Bool :=
  s.cmds.any fun c => (match c.work with | .target t _ => t == k | _ => false) &&
    (match c.decided with | some d => d.detail == 0 | none => false)

/-- What DRAIN_TIMEOUT makes of a running command that has not reached its stop: an aborted one is killed with the ABORT's
SEQ (R340), a paused one with the PAUSE's (R385), one of a queue under destruction with KILLED (R342). -/
def drainDecision (s : State) (c : Cmd) : Option Decision :=
  if c.st ≠ .running ∨ c.atStop then none
  else match c.decided, c.pause with
    | none, _ => if (que s c.queue).st = .destroying then some (mkDecision 0x0B 1 0) else none
    | some _, some p => some (mkDecision 9 2 p.seq.toNat)
    | some d, none =>
      if d.status ≠ 9 then none
      else if (que s c.queue).st = .destroying ∧ d.value = 0 ∧ !abortWon s c.key then some (mkDecision 0x0B 1 0)
      else some (mkDecision 9 2 d.value.toNat)

/-- DRAIN_TIMEOUT. -/
def execDrainTimeout (k : Key) (s : State) : Host.Outcome State Fault Refusal :=
  .next (match findCmd s k with
    | some c =>
      (match drainDecision s c with
       | some d => if isUp s then killCmd c d s else s
       | none => s)
    | none => s)

end Sys2Proof.Machine
end

