-- ==== Sys2Proof/Machine/Carafe.lean ====
section
/-! DEFINITION. Carafe's upkeep, the wipe, the tamper input, BAR2 and ATS invalidations (07, 12). -/

namespace Sys2Proof.Machine

/-! ## Refresh and scrub (R259, R261) -/

/-- Refresh slots of a channel since its last scrub read. -/
def refreshSlots (s : State) (ch : Nat) : Nat := Tab.get 0 s.mem.refSlots ch

/-- REFRESH: one refresh slot of a channel; the eighth carries a scrub read. -/
def execRefresh (ch : Fin 24) (s : State) : Host.Outcome State Fault Refusal :=
  .next (if isUp s then
    { s with mem := { s.mem with refSlots := Tab.put 0 s.mem.refSlots ch.val (min (refreshSlots s ch.val + 1) 8) } }
  else s)

/-- Corrected lines of a channel are written back in its scrub slot; while LOCKED the writes are dropped (R266). -/
def writeBacks (ch : Nat) (s : State) : State :=
  if s.mem.locked then s else
  let mine := s.mem.writeBack.filter fun l => channelOf (l * 64) == ch
  { s with mem := { s.mem with
      writeBack := s.mem.writeBack.filter fun l => channelOf (l * 64) != ch
      symErr := mine.foldl (fun t l => Tab.put 0 t l 0) s.mem.symErr } }

/-- The line that a scrub read of a channel visits: the order is open (log 15). -/
def scrubTarget (ch : Nat) (s : State) : Nat :=
  let x := Config.scrubLine ch s.mem.scrubCount % 2 ^ 28
  carafeAt { channel := ch, col := x / 4 % 8, bank := x / 32 % 16, row := x / 512, line := x % 4 } / 64

/-- Lines of Carafe: one pass. -/
def carafeLines : Nat := carafeEnd / 64

/-- One scrub read. -/
def scrub (ch : Nat) (s : State) : State :=
  let s := writeBacks ch { s with mem := { s.mem with refSlots := Tab.put 0 s.mem.refSlots ch 0 } }
  let line := scrubTarget ch s
  let n := s.mem.scrubCount + 1
  let s := { s with mem := { s.mem with
    scrubCount := if n = carafeLines then 0 else n
    scrubPasses := if n = carafeLines then s.mem.scrubPasses + 1 else s.mem.scrubPasses } }
  (readLine 2 line s).2

/-- SCRUB_READ. -/
def execScrubRead (ch : Fin 24) (s : State) : Host.Outcome State Fault Refusal :=
  .next (if isUp s && decide (8 ≤ refreshSlots s ch.val) then scrub ch.val s else s)

/-! ## Encryption (R264) -/

/-- What the cells of a line hold: with encryption on, its bytes under AES-256 in the counter mode of GCM, from the
initial counter of the boot nonce and the line's address. The data bus sees the bytes themselves. Under a key that is
zeroized they stay, and are free bytes here (log 72). -/
def carafeCells (s : State) (line : Nat) : List Byte :=
  let bs := Tab.getList 0 s.mem.carafe (line * 64) 64
  match s.mem.carafeKey with
  | some k =>
    if s.mem.cryptOn then gctr (leBytes 32 k.toNat) (Config.carafeCounter s.mem.carafeNonce.toNat (line * 64)) bs else bs
  | none =>
    if s.mem.cryptOn then (List.range 64).map fun i => Config.freeByte (2 ^ 64 + s.mem.carafeNonce.toNat) (line * 64 + i) else bs

/-- A byte of the secure region (R279): SP3 and the security block alone reach it. -/
def secureByte (s : State) (a : Nat) : Byte :=
  match s.mem.secure with
  | some k => if a < 2 ^ 22 then Config.freeByte k a else 0
  | none => 0

/-! ## The wipe and the tamper input (R280 to R282, R491, R513) -/

/-- The wipe ends: its registers and its record. -/
def wipeEnds (failed : Bool) (s : State) : State :=
  let m := s.mem
  let s := { s with mem := { m with
    wipeActive := false, wipeFailed := m.wipeFailed || failed
    wipes := if m.wipes = 0xFFFF then m.wipes else m.wipes + 1 } }
  logSev (if failed then 4 else 2) 0x23 8 [m.wipeCause.toNat, m.wipeTries + 1, b2n failed, 0] s

/-- WIPE_CHECK: the region was read back clean or not; three failures are final. -/
def execWipeCheck (clean : Bool) (s : State) : Host.Outcome State Fault Refusal :=
  .next (
    if !s.mem.wipeActive then s
    else if clean then wipeEnds false s
    else if s.mem.wipeTries + 1 < 3 then { s with mem := { s.mem with wipeTries := s.mem.wipeTries + 1 } }
    else wipeEnds true s)

/-- A receiving slot is emptied by a tamper assertion (R513). -/
def tamperSlots (s : State) : State :=
  match slotIn s .receiving with
  | some i => logEvent 0x13 0xFF [2] (setSlot i Slot.init s)
  | none => s

/-- TAMPER_N has been low for 1 µs; it stays low for the rest of `lowNs`. -/
def tamperAssert (lowNs : Nat) (s : State) : State :=
  let s := { s with svc := { s.svc with
    tamper := satInc s.svc.tamper, tamperEnd := max s.svc.tamperEnd (s.now + (lowNs - 1000) / 10) } }
  let s := logEvent 0x22 12 [lowNs / 1000] (svcFlag 2 s)
  tamperSlots (startWipe 1 s)

/-- TAMPER. -/
def execTamper (lowNs : Nat) (s : State) : Host.Outcome State Fault Refusal :=
  .next (if s.boot.phase = .held ∨ lowNs < 1000 then s else tamperAssert lowNs s)

/-! ## BAR2 (R246, R247, R260, R284) -/

/-- MEM_BAR2_BASE as it is used: bits below the BAR2 size are 0 (R284), and at the full size all are (R246). -/
def bar2Base (s : State) : Nat :=
  if s.host.bar2Log = 39 then 0 else s.mem.bar2Base / 2 ^ s.host.bar2Log * 2 ^ s.host.bar2Log

/-- Does a cluster have a command in progress? -/
def clusterBusy (s : State) (c : Nat) : Bool := (List.range 8).any fun i => (eng s (8 * c + i)).cmd.isSome

/-- Is a place closed to BAR2? -/
def bar2Closed (s : State) : Place → Bool
  | .carafe _ => false
  | .cluster c _ => clusterBusy s c || domState s (72 + c) != .on
  | .spad n _ =>
    match physOf s n with
    | some p => (eng s n).cmd.isSome || domState s p != .on
    | none => true

/-- The places of an access, if BAR2 may reach them all. -/
def bar2Places (s : State) (write : Bool) (a len : Nat) : Option (List (Place × Nat)) :=
  match locateAll s View.zero write (pieces a len) with
  | .ok ps => if ps.any fun p => bar2Closed s p.1 then none else some ps
  | .error _ => none

/-- An access through BAR2. -/
def bar2Access (off : Nat) (write : Bool) (len : Nat) (data : List Byte) (s : State) : State :=
  let n := if write then data.length else len
  match bar2Places s write (bar2Base s + off) n with
  | none =>
    let s := memFlag 4 { s with mem := { s.mem with bar2Denied := satInc s.mem.bar2Denied } }
    if write then s else emit (.bar2Data (List.replicate len 0) false) s
  | some ps =>
    if write then writePlaces ps data s
    else
      match readPlaces 1 ps s with
      | (.ok bs, s) => emit (.bar2Data bs false) s
      | (.error _, s) => emit (.bar2Data [] true) (memFlag 2 s)

/-- BAR2_ACCESS. -/
def execBar2Access (off : Nat) (write : Bool) (len : Nat) (data : List Byte) (s : State) :
    Host.Outcome State Fault Refusal :=
  .next (if isUp s && decide (off + (if write then data.length else len) ≤ 2 ^ s.host.bar2Log) then
    bar2Access off write len data s else s)

/-! ## ATS (R447) -/

/-- ATS_INVALIDATION: every access that used the translations has ended; they are dropped, and the request completed. -/
def execAtsInvalidation (addr : Quad) (size : Nat) (s : State) : Host.Outcome State Fault Refusal :=
  .next (if isUp s then
    let ps := pagesOf addr.toNat size
    emit (.atsDone addr) { s with host := { s.host with atc := s.host.atc.filter fun p => !decide (p ∈ ps) } }
  else s)

end Sys2Proof.Machine
end

