-- ==== Sys2Proof/Machine/ControlIns.lean ====
section
/-! DEFINITION. The control instructions (06): scalars, loads and stores, branches, BAR, CLAIM, WAITANY, TIME and END. -/

namespace Sys2Proof.Machine

/-! ## Scalars (R215, R216) -/

def setIns (x : Ectx) (s : State) : State := writeA x.n (x.ins.par 3 0) x.ins.a s

/-- SET. -/
def execSet (n : Fin 64) (s : State) : Host.Outcome State Fault Refusal := .next (withIns 0x20 n.val setIns s)

def addIns (x : Ectx) (s : State) : State := writeA x.n (x.ins.par 3 0) (aReg x.e (x.ins.par 7 4) + x.ins.a) s

/-- ADD. -/
def execAdd (n : Fin 64) (s : State) : Host.Outcome State Fault Refusal := .next (withIns 0x21 n.val addIns s)

/-- A load or store that must wait for an unfinished instruction of a unit (R208) shows WAIT_HAZARD. -/
def orHazard (x : Ectx) (f : Ectx → State → State) (s : State) : State :=
  if mustWait x then updEng x.n (fun e => { e with pst := .waitHazard }) s else f x s

def ldIns (x : Ectx) (s : State) : State :=
  readOp x x.ins.a 1 false (fun bs s => writeA x.n (x.ins.par 3 0) (leAt bs (4 * x.ins.par 5 4) 4) s) s

/-- LD. -/
def execLd (n : Fin 64) (s : State) : Host.Outcome State Fault Refusal := .next (withIns 0x22 n.val (fun x => orHazard x ldIns) s)

/-- The 4 bytes are merged into the unit, whose check bits cover all of it (R275). -/
def stIns (x : Ectx) (s : State) : State :=
  match spanW x x.ins.a 1 with
  | .error f => progFault x f s
  | .ok ps =>
    readOp x x.ins.a 1 false (fun bs s =>
      advance x.n (writeSpan x.n ps (patchAt bs (4 * x.ins.par 5 4) (leBytes 4 (aReg x.e (x.ins.par 3 0)))) s)) s

/-- ST. -/
def execSt (n : Fin 64) (s : State) : Host.Outcome State Fault Refusal := .next (withIns 0x23 n.val (fun x => orHazard x stIns) s)

/-! ## Branches (R216) -/

/-- Does condition `c` hold of a register? -/
def brTaken (c v : Nat) : Bool :=
  if c = 0 then true else if c = 1 then v == 0 else if c = 2 then v != 0 else if c = 3 then decide (sgn 32 v < 0)
  else decide (0 ≤ sgn 32 v)

def brIns (x : Ectx) (s : State) : State :=
  if brTaken (x.ins.par 6 4) (aReg x.e (x.ins.par 3 0)) then jumpTo x.n x.ins.a s else advance x.n s

/-- BR. -/
def execBr (n : Fin 64) (s : State) : Host.Outcome State Fault Refusal := .next (withIns 0x24 n.val brIns s)

/-- A0 stays 0, so a LOOP on it never branches (R215). -/
def loopIns (x : Ectx) (s : State) : State :=
  let r := x.ins.par 3 0
  let e := setA r (aReg x.e r + (2 ^ 32 - 1)) x.e
  let s := updEng x.n (setA r (aReg x.e r + (2 ^ 32 - 1))) s
  if aReg e r ≠ 0 then jumpTo x.n x.ins.a s else advance x.n s

/-- LOOP. -/
def execLoop (n : Fin 64) (s : State) : Host.Outcome State Fault Refusal := .next (withIns 0x25 n.val loopIns s)

/-! ## BAR (R209, R241, R369) -/

/-- Every program engine has issued the barrier: a checkpoint if the run is digested, and all go on. -/
def barEnds (x : Ectx) (p : Prog) (s : State) : State :=
  let p := { p with waitBar := [], bars := p.bars + 1 }
  let (p, s) := if p.digest then progCkpt x.c p s else (p, s)
  p.engs.foldl (fun st n => advance n (updEng n (fun e => { e with dmaOut := [] }) st)) (setProg x.c.key p s)

/-- The barrier is reached when every earlier instruction of the engine has finished. -/
def barIns (x : Ectx) (s : State) : State :=
  if x.e.units ≠ [] then s else
  let p := { x.p with waitBar := x.p.waitBar ++ [x.i] }
  let s := updEng x.n (fun e => { e with pst := .waitBar }) s
  if p.waitBar.length = p.engs.length then barEnds x p s else setProg x.c.key p s

/-- BAR. -/
def execBar (n : Fin 64) (s : State) : Host.Outcome State Fault Refusal := .next (withIns 0x26 n.val barIns s)

/-! ## Order-dependent instructions (R234) -/

/-- The index of a CLAIM, and the program after it. -/
def claimOf (p : Prog) (i : Nat) : Nat × Prog :=
  let items := imgItems p.image
  if p.ordered then
    let n := Tab.get 0 p.claimCnt i
    let v := i + n * p.engs.length
    (if v < items then v else 0xFFFFFFFF, { p with claimCnt := Tab.put 0 p.claimCnt i (n + 1) })
  else (if p.claimNext < items then p.claimNext else 0xFFFFFFFF, { p with claimNext := min items (p.claimNext + 1) })

def claimIns (x : Ectx) (s : State) : State :=
  let (v, p) := claimOf x.p x.i
  writeA x.n (x.ins.par 3 0) v (setProg x.c.key p s)

/-- CLAIM. -/
def execClaim (n : Fin 64) (s : State) : Host.Outcome State Fault Refusal := .next (withIns 0x27 n.val claimIns s)

/-- The DMAs after the one that ended: a local DMA executes in order (R207). -/
def dmaAfter (i : BitVec 12) : List (BitVec 12) → List (BitVec 12)
  | [] => []
  | d :: ds => if d = i then ds else dmaAfter i ds

/-- Is a DMA unfinished in its unit? -/
def dmaPending (e : Engine) : Bool := e.units.any fun u => u.ins.op == 0x18

/-- `ended` is the DMA that ends first from now on; none says that all have ended already (log 32). -/
def waitanyIns (ended : Option (BitVec 12)) (x : Ectx) (s : State) : State :=
  match ended with
  | none =>
    if dmaPending x.e then s else writeA x.n (x.ins.par 3 0) 0xFFFFFFFF (updEng x.n (fun e => { e with dmaOut := [] }) s)
  | some i =>
    if i ∈ x.e.dmaOut then
      writeA x.n (x.ins.par 3 0) i.toNat (updEng x.n (fun e => { e with dmaOut := dmaAfter i e.dmaOut }) s)
    else s

/-- WAITANY. -/
def execWaitany (n : Fin 64) (ended : Option (BitVec 12)) (s : State) : Host.Outcome State Fault Refusal :=
  .next (withIns 0x28 n.val (waitanyIns ended) s)

def timeIns (x : Ectx) (s : State) : State :=
  let t := (timeOf s).toNat
  writeA x.n (x.ins.par 3 0) (if x.ins.par 4 4 = 1 then t / 2 ^ 32 else t) s

/-- TIME. -/
def execTime (n : Fin 64) (s : State) : Host.Outcome State Fault Refusal := .next (withIns 0x29 n.val timeIns s)

/-! ## END (R241, R339) -/

/-- END follows every earlier instruction of the engine. -/
def endIns (x : Ectx) (s : State) : State :=
  if x.e.units ≠ [] then s
  else if (List.range 8).any fun g => (grp x.e g).isOpen then progFault x fEndOpen s
  else
    let p := { x.p with ended := x.p.ended ++ [x.i] }
    let s := icuSend (32 + x.n) (updEng x.n (fun e => { e with pst := .ended, dmaOut := [] }) s)
    let s := setProg x.c.key p s
    if p.ended.length = p.engs.length then commitProgram x.c p s else s

/-- END. -/
def execEndProgram (n : Fin 64) (s : State) : Host.Outcome State Fault Refusal := .next (withIns 0x3F n.val endIns s)

end Sys2Proof.Machine
end

