-- ==== Sys2Proof/Machine/Kweow.lean ====
section
/-! DEFINITION. Kweow links (12): training, flits, retries and credits, and the messages that arrive on them. -/

namespace Sys2Proof.Machine

/-! ## Training (R472, R479, R486, R487) -/

/-- Every binding on a link that goes down leaves its lock-step commands alone (R381). -/
def linkAlone (l : Nat) (s : State) : State :=
  (List.range 64).foldl (fun st b =>
    if (bnd st b).bound && (bnd st b).link.toNat == l then runAlone b st else st) s

/-- A link goes to a state other than ACTIVE; leaving ACTIVE is counted and recorded, without a cause of R472 (log 41). -/
def linkTo (l : Nat) (to' : LState) (s : State) : State :=
  let was := (lnk s l).st
  let s := updLnk l (fun x => { x with st := to', sameInst := false, encrypted := false }) s
  if was = .active then
    linkAlone l (logEvent 0x60 7 [l, 0] (kwFlag l (updLnk l (fun x => { x with retrains := satInc x.retrains }) s)))
  else s

/-- A training state fails: HOLDOFF, counted, and recorded with its cause (R472, R522). -/
def trainFail (l cause : Nat) (s : State) : State :=
  linkTo l .holdoff (logEvent 0x60 7 [l, cause]
    (updLnk l (fun x => { x with cause := BitVec.ofNat 3 cause, trainFails := satInc x.trainFails }) s))

/-- A link moves on if it stands in a state. -/
def linkStep (l : Nat) (from' : LState) (f : Link → Link) (s : State) : State :=
  if isUp s && (lnk s l).st == from' then updLnk l f s else s

/-- SIGNAL_DETECT. -/
def execSignalDetect (l : Fin 8) (s : State) : Host.Outcome State Fault Refusal :=
  .next (linkStep l.val .detect (fun x => { x with st := .equalize }) s)

/-- EQUALIZE_DONE. -/
def execEqualizeDone (l : Fin 8) (s : State) : Host.Outcome State Fault Refusal :=
  .next (linkStep l.val .equalize (fun x => { x with st := .align }) s)

/-- ALIGN_DONE. -/
def execAlignDone (l : Fin 8) (reversed : Bool) (s : State) : Host.Outcome State Fault Refusal :=
  .next (linkStep l.val .align (fun x => { x with st := .identify, reversed := reversed }) s)

/-- HOLDOFF_END. -/
def execHoldoffEnd (l : Fin 8) (s : State) : Host.Outcome State Fault Refusal :=
  .next (linkStep l.val .holdoff (fun x => { x with st := .detect }) s)

/-- The fields of a certificate that its signature covers. -/
def certBody (c : Cert) : List Byte := leBytes 8 c.serial.toNat ++ leBytes 16 c.inst.toNat

/-- A certificate as it is sent, empty without one. -/
def certBytes : Option Cert → List Byte
  | some c => certBody c ++ c.sig
  | none => []

/-- What one side sends in IDENTIFY before its signature: serial, certificate, ephemeral public key (R486). -/
def identityOf (serial : BitVec 56) (cert : Option Cert) (pub : List Byte) : List Byte :=
  leBytes 8 serial.toNat ++ certBytes cert ++ pub

/-- The exchange, the lower serial's part first. -/
def exchangeOf (s : State) (p : PeerInfo) (pub : List Byte) : List Byte :=
  let mine := identityOf s.fuse.serial s.flash.cert pub
  let theirs := identityOf p.serial p.cert p.pub
  if s.fuse.serial.toNat < p.serial.toNat then Config.exchange mine theirs else Config.exchange theirs mine

/-- Is the link same installation (R486)? -/
def sameInstallation (s : State) (p : PeerInfo) (exch : List Byte) : Bool :=
  match p.cert, s.flash.cert, s.flash.owner with
  | some c, some mine, some o =>
    ecdsaVerify p.idKey exch p.sig && c.serial == p.serial && c.inst == mine.inst &&
      ecdsaVerify (keyBytes o) (certBody c) c.sig
  | _, _, _ => false

/-- The link state that an exchange leaves: resumed where the peer is the one before and neither side was reset (R479),
else with its buffers, counts and messages in flight gone. -/
def resumeLink (x : Link) (p : PeerInfo) : Link :=
  if x.lastPeer = some p.serial ∧ !p.wasReset then
    let oldest := x.txLsn - x.unacked.length
    let got := (p.nextLsn.toNat + 2 ^ 24 - oldest % 2 ^ 24) % 2 ^ 24
    { x with unacked := if got ≤ x.unacked.length then x.unacked.drop got else x.unacked }
  else
    { x with
      unacked := [], queued := [], txLsn := 0, rxLsn := 0, sentVc := [0, 0, 0], freedVc := [0, 0, 0]
      peerFreed := [0, 0, 0], asm := [], inbox := [] }

/-- Unacknowledged flits are sent again in order from extended LSN `n`. -/
def resendFrom (l n : Nat) (s : State) : State :=
  let x := lnk s l
  let oldest := x.txLsn - x.unacked.length
  ((List.range x.unacked.length).zip x.unacked).foldl (fun st p =>
    if oldest + p.1 < n ∨ !sealable st l then st
    else flitOut l (sealFlit st l (oldest + p.1) p.2) (updLnk l (fun x => { x with tx := x.tx + 1 }) st)) s

/-- Split runs whose group is not complete send their joins again (R484). -/
def rejoin (s : State) : State :=
  s.cmds.foldl (fun st c => match c.work with
    | .anneal r => if 1 < r.split.devices ∧ !r.split.complete then sendJoins r.split st else st
    | _ => st) s

/-- IDENTIFY ends: refused without a key or as foreign, else the link is ACTIVE in a new epoch. The ephemeral private key
is what the cipher block's port gives; until it has given all of it, IDENTIFY goes on (R487). -/
def identify (l : Nat) (p : PeerInfo) (s : State) : State :=
  if s.rng.st = .fatal ∨ s.mem.wipeFailed then
    trainFail l 5 (if s.rng.st = .fatal then logEvent 0x32 0xFF [1] s else s)
  else
    match drawKey s with
    | (none, s) => s
    | (some priv, s) =>
      let pub := ecdhPublic priv.toNat
      let exch := exchangeOf s p pub
      let s := emit (.identify l s.fuse.serial s.flash.cert pub (Config.identitySign s.fuse.serial.toNat exch) p.serial
        (BitVec.ofNat 24 (lnk s l).rxLsn)) s
      let same := sameInstallation s p exch
      if !same && s.kw.refuse then trainFail l 4 s
      else
        let s := updLnk l (fun x => { resumeLink x p with
          st := .active, sameInst := same, encrypted := s.kw.encrypt || p.encrypt
          key := BitVec.ofNat 256 (leNat (hkdf32 exch (ecdh priv.toNat p.pub)))
          peer := p.serial, lastPeer := some p.serial, epoch := x.epoch + 1, retriesInRow := 0, sinceAlign := 0 }) s
        let s := kwFlag (8 + l) s
        rejoin (pump l (resendFrom l 0 s))

/-- IDENTIFY_DONE. -/
def execIdentifyDone (l : Fin 8) (p : PeerInfo) (s : State) : Host.Outcome State Fault Refusal :=
  .next (if isUp s && (lnk s l.val).st == .identify then identify l.val p s else s)

/-- TRAINING_TIMEOUT. -/
def execTrainingTimeout (l : Fin 8) (s : State) : Host.Outcome State Fault Refusal :=
  .next (if !isUp s then s else
    match (lnk s l.val).st with
    | .equalize => trainFail l.val 1 s
    | .align => trainFail l.val 2 s
    | .identify => trainFail l.val 3 s
    | _ => s)

/-- A link that is not DISABLED is forced into HOLDOFF. -/
def retrainLink (l : Nat) (s : State) : State :=
  if (lnk s l).st = .disabled then s else linkTo l .holdoff s

/-- RETRAIN: a write of KW_L_CTRL.RETRAIN. -/
def execRetrain (l : Fin 8) (s : State) : Host.Outcome State Fault Refusal :=
  .next (if isUp s then retrainLink l.val s else s)

/-- LANE_LOSS. -/
def execLaneLoss (l : Fin 8) (s : State) : Host.Outcome State Fault Refusal :=
  .next (if isUp s && (lnk s l.val).st == .active then linkTo l.val .holdoff s else s)

/-! ## Flits (R473 to R480) -/

/-- Does a received flit's code verify: at most 8 byte errors from a code word (R473)? -/
def codeOk (f : Flit) (byteErrors : Nat) : Bool := decide (byteErrors ≤ 8) && f.parity == flitCode f

/-- A corrected flit is counted. -/
def fecCount (l byteErrors : Nat) (s : State) : State :=
  if 1 ≤ byteErrors ∧ byteErrors ≤ 8 then updLnk l (fun x => { x with fecCorr := satInc x.fecCorr }) s else s

/-- The extended LSN of a received flit: the one nearest the next expected (R475); none where that would lie before the
first flit of all. -/
def extendLsn (x : Link) (lsn : Nat) : Option Nat :=
  let d := (lsn + (2 ^ 24 - x.rxLsn % 2 ^ 24)) % 2 ^ 24
  if d < 2 ^ 23 then some (x.rxLsn + d) else if 2 ^ 24 ≤ x.rxLsn + d then some (x.rxLsn + d - 2 ^ 24) else none

/-- The IV of a received flit. -/
def rxIv (s : State) (l lsn : Nat) : List Byte := flitIv (lnk s l).epoch.toNat (!weAreHigher s l) lsn

/-- Do the code, the epoch and CHECK verify? -/
def flitGood (s : State) (l lsn : Nat) (f : Flit) (byteErrors : Nat) : Bool :=
  sealable s l && codeOk f byteErrors && f.epoch == (lnk s l).epoch && f.check == flitCheck (lnk s l) (rxIv s l lsn) f

/-- The acknowledgement and the freed counts that every good flit carries. -/
def takeAck (l : Nat) (f : Flit) (s : State) : State :=
  let x := lnk s l
  let oldest := x.txLsn - x.unacked.length
  let n := (f.ack.toNat + 1 + 2 ^ 24 - oldest % 2 ^ 24) % 2 ^ 24
  let s := updLnk l (fun x => { x with
    unacked := if n ≤ x.unacked.length then x.unacked.drop n else x.unacked
    retriesInRow := if 1 ≤ n ∧ n ≤ x.unacked.length then 0 else x.retriesInRow
    peerFreed := [f.cum0.toNat, f.cum1.toNat, f.cum2.toNat] }) s
  pump l s

/-- The bytes of a whole message as a message (R481); none if its LENGTH exceeds what came or its TYPE is unknown. -/
def parseMsg (vc : Nat) (b : List Byte) : Option Msg :=
  let ty := leAt b 0 1
  let n := leAt b 4 4
  if 1 ≤ ty ∧ ty ≤ 10 ∧ 16 + n ≤ b.length ∧ 16 + n ≤ 65536 then
    some { ty := ty, vc := vc, w2 := BitVec.ofNat 32 (leAt b 8 4), w3 := BitVec.ofNat 32 (leAt b 12 4), body := slice 16 n b }
  else none

/-- A payload joins its virtual channel's message; a whole message goes to the inbox, and ICU source 138 + l is told of
a command, peer signal or checkpoint (R397). -/
def assemble (l : Nat) (f : Flit) (p : List Byte) (s : State) : State :=
  let vc := f.vc.toNat
  let x := lnk s l
  let had := (x.asm.find? fun a => a.1 == vc).map (·.2)
  let rest := x.asm.filter fun a => a.1 != vc
  match (if f.som then some p else had.map (· ++ p)) with
  | none => s
  | some b =>
    if !f.eom then
      updLnk l (fun x => { x with asm := if b.length ≤ 66000 then rest ++ [(vc, b)] else rest }) s
    else
      match parseMsg vc b with
      | none => updLnk l (fun x => { x with asm := rest }) s
      | some m =>
        let s := updLnk l (fun x => { x with asm := rest, inbox := x.inbox ++ [m] }) s
        if m.ty = 1 ∨ m.ty = 3 ∨ m.ty = 5 then icuSend (138 + l) s else s

/-- Does a command wait for something from link `l`: a lock-step command for its peer's checkpoint (R379), a split run for
spins or energies (R162, R163)? -/
def Cmd.waitsOn (s : State) (l : Nat) (c : Cmd) : Bool :=
  c.st == .running && (
    (match c.lockStep with
     | some ls => !lsMayPass ls c.ckptCount && (bnd s ls.binding).link.toNat == l
     | none => false) ||
    (match c.work with
     | .anneal r => decide (1 < r.split.devices) && r.split.joined.any (fun j => j.2.1 == l) &&
         (!r.started || r.cls == nColours (mdl s r.model) || !mayTurn r)
     | _ => false))

/-- A RETRY_REQ is sent; the commands that wait for what comes again count it (R372). -/
def askRetry (l : Nat) (s : State) : State :=
  let count := fun c : Cmd => if c.waitsOn s l then { c with retryWaits := satInc c.retryWaits } else c
  sendBare l 2 { s with cmds := s.cmds.map count }

/-- A DATA flit of extended LSN `lsn` (R476); `x` is the link as the flit found it. -/
def takeFlit (l : Nat) (f : Flit) (byteErrors lsn : Nat) (x : Link) (s : State) : State :=
  if lsn < x.rxLsn ∧ x.rxLsn ≤ lsn + 512 then
    updLnk l (fun x => { x with dup := satInc x.dup }) (if flitGood s l lsn f byteErrors then takeAck l f s else s)
  else if lsn = x.rxLsn ∧ flitGood s l lsn f byteErrors then
    takeAck l f (assemble l f (flitCrypt x (rxIv s l lsn) f.payload) (updLnk l (fun x => { x with
      rxLsn := x.rxLsn + 1, rx := x.rx + 1, freedVc := vcInc x.freedVc f.vc.toNat }) s))
  else askRetry l s

/-- A DATA flit. -/
def dataFlit (l : Nat) (f : Flit) (byteErrors : Nat) (s : State) : State :=
  match extendLsn (lnk s l) f.lsn.toNat with
  | none => askRetry l (fecCount l byteErrors s)
  | some lsn => takeFlit l f byteErrors lsn (lnk s l) (fecCount l byteErrors s)

/-- DATA_FLIT. -/
def execDataFlit (l : Fin 8) (f : Flit) (byteErrors : Nat) (s : State) : Host.Outcome State Fault Refusal :=
  .next (if isUp s && (lnk s l.val).st == .active && f.kind == 1 then dataFlit l.val f byteErrors s else s)

/-- IDLE_FLIT. -/
def execIdleFlit (l : Fin 8) (f : Flit) (byteErrors : Nat) (s : State) : Host.Outcome State Fault Refusal :=
  .next (if isUp s && (lnk s l.val).st == .active && f.kind == 0 then
    let s := fecCount l.val byteErrors s
    if flitGood s l.val 0 f byteErrors then takeAck l.val f s else s
  else s)

/-- A retry from extended LSN `n`, or a retrain after 16 without progress (R477). -/
def retryFrom (l n : Nat) (s : State) : State :=
  if 16 ≤ (lnk s l).retriesInRow then retrainLink l s
  else
    resendFrom l n (updLnk l (fun x => { x with
      retries := satInc x.retries, retriesInRow := x.retriesInRow + 1 }) s)

/-- RETRY_REQ. -/
def execRetryReq (l : Fin 8) (f : Flit) (byteErrors : Nat) (s : State) : Host.Outcome State Fault Refusal :=
  .next (if isUp s && (lnk s l.val).st == .active && f.kind == 2 then
    let s := fecCount l.val byteErrors s
    if flitGood s l.val 0 f byteErrors then retryFrom l.val 0 (takeAck l.val f s) else s
  else s)

/-- RETRY_TIMEOUT. -/
def execRetryTimeout (l : Fin 8) (s : State) : Host.Outcome State Fault Refusal :=
  .next (if isUp s && (lnk s l.val).st == .active && !(lnk s l.val).unacked.isEmpty then retryFrom l.val 0 s else s)

/-- ALIGNMENT_FLIT. -/
def execAlignmentFlit (l : Fin 8) (s : State) : Host.Outcome State Fault Refusal :=
  .next (if isUp s && (lnk s l.val).st == .active && decide (4095 ≤ (lnk s l.val).sinceAlign) then
    emit (.alignment l.val) (updLnk l.val (fun x => { x with sinceAlign := 0 }) s)
  else s)

/-! ## Messages -/

/-- The first message of a type in a link's inbox that is not put off, taken out of it. -/
def takeMsg (l ty : Nat) (later : Msg → Bool) (s : State) : Option (Msg × State) :=
  if !isUp s then none else
  match (lnk s l).inbox.find? fun m => m.ty == ty && !later m with
  | none => none
  | some m => some (m, updLnk l (fun x => { x with inbox := x.inbox.erase m }) s)

/-- JOB_MESSAGE: checks 2 and 4 to 9, with the link as the arrival port; a queue that a ROUTE entry names is not reached
(R483), and a message for one goes no further (log 67). -/
def execJobMessage (l : Fin 8) (s : State) : Host.Outcome State Fault Refusal :=
  .next (match takeMsg l.val 1 (fun _ => false) s with
    | some (m, s) =>
      if jobFormOk m.body false && (routeOf s (jobHdr m.body).q).isNone && jobAccepted s (.link l.val) (jobHdr m.body) then
        jobRun (.link l.val) m.body s else s
    | none => s)

/-- Does a reply answer a relayed frame? -/
def answers (b : List Byte) (d : Datagram) : Bool :=
  leAt b 4 2 == leAt d.payload 4 2 && leAt b 8 4 == leAt d.payload 8 4 && leAt b 0x10 8 == leAt d.payload 0x10 8

/-- The Ethernet reply of a relay: the message with the device's own NONCE (R469, R483). -/
def relayReply (l : Nat) (b : List Byte) (s : State) : State :=
  match s.ing.relays.find? fun r => r.1 == l && answers b r.2 with
  | none => s
  | some r =>
    let s := { s with ing := { s.ing with relays := s.ing.relays.erase r } }
    sendReply r.2.port.val r.2.src r.2.tags (BitVec.ofNat 32 (leAt b 8 4)) (fun n => patchAt b 0x18 (leBytes 8 n)) s

/-- JOB_REPLY. -/
def execJobReply (l : Fin 8) (s : State) : Host.Outcome State Fault Refusal :=
  .next (match takeMsg l.val 2 (fun _ => false) s with
    | some (m, s) => relayReply l.val m.body s
    | none => s)

/-- May binding `b` raise fence `f` in its current epoch (R325)? -/
def signalAllowed (s : State) (b f : Nat) (epoch : Word) : Bool :=
  (bnd s b).epoch == epoch && (fnc s f).peerOk && (fnc s f).binding.toNat == b

/-- An incoming peer signal (R325). -/
def peerSignalIn (l : Nat) (m : Msg) (s : State) : State :=
  let f := leAt m.body 0 8 % 4096
  match (bindingOf s l).find? fun b => signalAllowed s b f m.w2 with
  | none => feFlag 4 { s with fe := { s.fe with peerReject := satInc s.fe.peerReject } }
  | some b =>
    if m.w3.toNat ≤ (bnd s b).got.toNat then
      feFlag 4 { s with fe := { s.fe with peerReplay := satInc s.fe.peerReplay } }
    else
      let s := setBnd b { bnd s b with got := m.w3 } s
      let s := raiseFence f (leAt m.body 8 8 % 2 ^ 63) s
      noteFree (bindingSend b 4 m.w3 [] s)

/-- PEER_SIGNAL_MESSAGE. -/
def execPeerSignalMessage (l : Fin 8) (s : State) : Host.Outcome State Fault Refusal :=
  .next (match takeMsg l.val 3 (fun _ => false) s with
    | some (m, s) => peerSignalIn l.val m s
    | none => s)

/-- The PEER_SIGNAL command that an acknowledgement commits (R324). -/
def signalCmd (s : State) (l : Nat) (m : Msg) : Option Cmd :=
  s.cmds.find? fun c => match c.work with
    | .peerSignal num =>
      let b := fld c.p0 5 0
      num == m.w3 && decide (b ∈ bindingOf s l) && (bnd s b).epoch == m.w2
    | _ => false

/-- SIGNAL_ACK. -/
def execSignalAck (l : Fin 8) (s : State) : Host.Outcome State Fault Refusal :=
  .next (match takeMsg l.val 4 (fun _ => false) s with
    | some (m, s) => (match signalCmd s l.val m with | some c => commitOk c.key 0 s | none => s)
    | none => s)

/-! ## Lock-step messages (R378 to R382) -/

/-- The binding of a link whose current epoch a message carries. -/
def epochBinding (s : State) (l : Nat) (epoch : Word) : Option Nat :=
  (bindingOf s l).find? fun b => (bnd s b).epoch == epoch

/-- The lock-step command of a binding with a SEQ. -/
def lsCmd (s : State) (b : Nat) (seq : Word) : Option Cmd :=
  s.cmds.find? fun c => c.key.seq == seq && (match c.lockStep with | some ls => ls.on && ls.binding == b | none => false)

/-- Is the local command of a message still to come: its queue's entry names the binding, and the SEQ is yet to be
fetched or admitted? -/
def stillToCome (s : State) (b : Nat) (seq : Word) : Bool :=
  (lsCmd s b seq).isNone && (List.range 16).any fun e =>
    let w := Tab.get 0x00800000 s.det.lsCfg e
    let q := w.toNat % 65536
    w.getLsbD 31 && fld w.toNat 21 16 == b && (que s q).st == .active &&
      (decide (0 ≤ diff32 seq (que s q).expSeq) ||
        s.cmds.any fun c => c.queue == q && c.key.seq == seq && c.decided.isNone && c.lockStep.isNone)

/-- A message whose command is still to come waits. -/
def lsLater (s : State) (l : Nat) (m : Msg) : Bool :=
  match epochBinding s l m.w2 with
  | some b => stillToCome s b m.w3
  | none => false

def lsReplay (s : State) : State := detFlag 2 { s with det := { s.det with lsReplay := satInc s.det.lsReplay } }

/-- Changes a command's lock-step state. -/
def setLs (k : Key) (ls : LockStep) (s : State) : State :=
  updCmd k (fun c => match c.work with
    | .anneal r => { c with work := .anneal { r with ls := ls } }
    | .program p => { c with work := .program { p with ls := ls } }
    | _ => c) s

/-- A peer's checkpoint (R380, R382): one of another epoch, or that has come before, is ignored and counted. -/
def checkpointIn (l : Nat) (m : Msg) (s : State) : State :=
  match epochBinding s l m.w2 with
  | none => lsReplay s
  | some b =>
    let k := leAt m.body 0 4
    if (bnd s b).seen.any fun p => p.1 == m.w3 && p.2 == k then lsReplay s
    else
      let s := setBnd b { bnd s b with seen := (bnd s b).seen ++ [(m.w3, k)] } s
      match lsCmd s b m.w3 with
      | none => s
      | some c =>
        (match c.lockStep with
         | none => s
         | some ls =>
           let (ls, s) := lsCompare c { ls with peer := ls.peer ++ [(k, digOf (slice 8 32 m.body))] } k s
           setLs c.key ls s)

/-- CHECKPOINT_MESSAGE. -/
def execCheckpointMessage (l : Fin 8) (s : State) : Host.Outcome State Fault Refusal :=
  .next (match takeMsg l.val 5 (lsLater s l.val) s with
    | some (m, s) => checkpointIn l.val m s
    | none => s)

/-- The peer's command has ended; without its final checkpoint the local one runs alone (R381). -/
def cmdEndIn (l : Nat) (m : Msg) (s : State) : State :=
  match epochBinding s l m.w2 with
  | none => s
  | some b =>
    match lsCmd s b m.w3 with
    | none => s
    | some c =>
      (match c.lockStep with
       | none => s
       | some ls =>
         if leAt m.body 0 4 = 0xFFFFFFFF ∧ !ls.alone then detFlag 1 (setLs c.key { ls with alone := true } s) else s)

/-- CMD_END. -/
def execCmdEnd (l : Fin 8) (s : State) : Host.Outcome State Fault Refusal :=
  .next (match takeMsg l.val 6 (lsLater s l.val) s with
    | some (m, s) => cmdEndIn l.val m s
    | none => s)

/-! ## Split groups (R161 to R165, R484, R485) -/

/-- The split run of a group, if the message came on a same-installation link (R444). One whose status is fixed still has a
boundary to end and messages to relay (R155, R485). -/
def splitCmd (s : State) (l : Nat) (group : Word) : Option (Cmd × Run) :=
  if !(lnk s l).sameInst then none else
  match s.cmds.find? (fun c => match c.work with
    | .anneal r => decide (1 < r.split.devices) && r.split.group == group
    | _ => false) with
  | some c => (match c.work with | .anneal r => some (c, r) | _ => none)
  | none => none

/-- The group whose run here has ended, for a message of it on a same-installation link: what it names another member for
is still passed on (R485). -/
def pastSplit (s : State) (l : Nat) (group : Word) : Option SplitSt :=
  if (lnk s l).sameInst then s.kw.past.find? fun p => p.group == group else none

/-- A member's join: heard on this link, with the members it has heard. A differing digest refuses the run (R161); this
device's own goes back first, so that the sender finds the difference too. -/
def joinIn (l : Nat) (m : Msg) (c : Cmd) (r : Run) (s : State) : State :=
  let i := m.w3.toNat % 128
  if !c.notStarted ∨ c.decided.isSome then s
  else if digOf (slice 0 32 m.body) ≠ r.split.digest then refuse c.key 0x18 (sendJoins r.split s)
  else if i = r.split.index ∨ r.split.devices ≤ i then s
  else
    let near := leAt m.body 32 8
    let new' := !(r.split.joined.any fun j => j.1 == i)
    let p := { r.split with
      joined := (r.split.joined.filter fun j => !(j.1 == i && j.2.1 == l)) ++ [(i, l, BitVec.ofNat 64 near)] }
    let full := (List.range p.devices).all fun j => j == p.index || (routeTo s p j).isSome
    let s := setRun c.key { r with split := { p with complete := p.complete || full } } s
    if new' || !bit near p.index then sendJoins p s else s

/-- SPLIT_JOIN. -/
def execSplitJoin (l : Fin 8) (s : State) : Host.Outcome State Fault Refusal :=
  .next (match takeMsg l.val 7 (fun _ => false) s with
    | some (m, s) => (match splitCmd s l.val m.w2 with | some (c, r) => joinIn l.val m c r s | none => s)
    | none => s)

/-- A message for another member is passed on to it directly, once. -/
def splitRelay (m : Msg) (p : SplitSt) (s : State) : State :=
  match directLink s p (fld m.w3.toNat 15 8) with
  | some l => kwSend l m s
  | none => s

/-- A message to one member of a group: the run here takes it, or it is passed on, also when the run here has ended. -/
def splitMsg (l : Nat) (m : Msg) (take : Cmd → Run → State → State) (s : State) : State :=
  match splitCmd s l m.w2 with
  | some (c, r) => if fld m.w3.toNat 15 8 = r.split.index then take c r s else splitRelay m r.split s
  | none =>
    match pastSplit s l m.w2 with
    | some p => if fld m.w3.toNat 15 8 = p.index then s else splitRelay m p s
    | none => s

/-- A peer's spins of a turn; a message without rows ends what the peer sends of it (log 30). -/
def spinsIn (m : Msg) (c : Cmd) (r : Run) (s : State) : State :=
  let t := leAt m.body 0 4
  let i := fld m.w3.toNat 7 0
  let p := r.split
  let n := leAt m.body 12 4
  setRun c.key { r with split :=
    if n = 0 then { p with spinsGot := (p.spinsGot.filter fun x => x.1 != i) ++ [(i, max (turnsGot p i) (t + 1))] }
    else { p with spinsLate := p.spinsLate ++ [(t, leAt m.body 4 4, leAt m.body 8 4, n, m.body.drop 16)] } } s

/-- SPLIT_SPINS. -/
def execSplitSpins (l : Fin 8) (s : State) : Host.Outcome State Fault Refusal :=
  .next (match takeMsg l.val 8 (fun _ => false) s with
    | some (m, s) => splitMsg l.val m (spinsIn m) s
    | none => s)

/-- The 64-bit values of a message's body from an offset. -/
def quadsOf : Nat → List Byte → List Quad
  | 0, _ => []
  | n + 1, b => if b.length < 8 then [] else BitVec.ofNat 64 (leAt b 0 8) :: quadsOf n (b.drop 8)

/-- A peer's partial energies of a sweep; a run that waits for its initial energies may start. -/
def energyIn (m : Msg) (c : Cmd) (r : Run) (s : State) : State :=
  let sw := leAt m.body 0 4
  let i := fld m.w3.toNat 7 0
  let es := quadsOf (m.body.length / 8) (m.body.drop 4)
  let old := ((r.split.energies.find? fun x => x.1 == sw && x.2.1 == i).map (·.2.2)).getD []
  let r := { r with split := { r.split with
    energies := (r.split.energies.filter fun x => !(x.1 == sw && x.2.1 == i)) ++ [(sw, i, old ++ es)] } }
  if c.st = .running ∧ !r.started then splitStart c (mdl s r.model) r s else setRun c.key r s

/-- SPLIT_ENERGY. -/
def execSplitEnergy (l : Fin 8) (s : State) : Host.Outcome State Fault Refusal :=
  .next (match takeMsg l.val 9 (fun _ => false) s with
    | some (m, s) => splitMsg l.val m (energyIn m) s
    | none => s)

/-- A member's failure goes on, once, to the members that do not hear it and for which this device is the lowest-indexed
one that hears both (R485). -/
def relayFail (m : Msg) (p : SplitSt) (s : State) : State :=
  let src := m.w3.toNat % 128
  (List.range p.devices).foldl (fun st i =>
    if i = src ∨ i = p.index ∨ hears p src i ∨ (directLink st p src).isNone ∨
        (List.range p.index).any (fun a => hears p a src && hears p a i) then st
    else match directLink st p i with
      | some l => kwSend l m st
      | none => st) s

/-- SPLIT_FAIL: it is relayed, and a run that has not ended or been stopped ends with PEER_LOST (R165). -/
def execSplitFail (l : Fin 8) (s : State) : Host.Outcome State Fault Refusal :=
  .next (match takeMsg l.val 10 (fun _ => false) s with
    | some (m, s) =>
      (match splitCmd s l.val m.w2 with
       | some (c, r) =>
         let s := relayFail m r.split s
         if c.decided.isSome then s else killCmd c (atEngine (m.w3.toNat % 128) (mkDecision 7 2 0)) s
       | none => match pastSplit s l.val m.w2 with | some p => relayFail m p s | none => s)
    | none => s)

end Sys2Proof.Machine
end

