-- ==== Sys2Proof/Machine/Pcie.lean ====
section
/-! DEFINITION. The reset of the PCIe function (R449, R553). -/

namespace Sys2Proof.Machine

/-- A command is killed by the reset: its record goes to the fault log, its fence is left as it is (R321). A load's report
is written first (R90); the record says KILLED whether or not it could be (R449). -/
def flrKill (c : Cmd) (s : State) : State :=
  let d := stampD s (mkDecision 0x0B 1 0)
  let x := que s c.queue
  let s := releaseEngines false true c.key (engineFate c d s)
  let s := dropCmd c.key (sendSplitFail c d (sendCmdEnd c (dropWork c (endLoad c d s).2)))
  let s := { s with fe := { s.fe with cmds := s.fe.cmds + 1 } }
  let s := flogWrite c.queue 0xFF 1 c.key.seq 0 (recordBytes c.opcode c.key.seq (phaseAt x.cqTail.toNat x.cqLog.toNat) d) s
  destroyCount c d 0 s

/-- Every command of the PCIe queues. -/
def pcieCmds (s : State) : List Cmd := s.cmds.filter fun c => (que s c.queue).onPcie

/-- The PCIe queues that exist. -/
def pcieQueues (s : State) : List Nat := (s.queues.filter fun q => q.2.st != .unused && q.2.onPcie).map Prod.fst

/-- The reset destroys a PCIe queue: its commands' fates are counted from here on, or from the QUEUE_DESTROY that the
reset cuts short. -/
def flrDestroy (q : Nat) (s : State) : State := updQue q (fun x => { x with st := .destroying }) s

/-- A PCIe queue becomes UNUSED, its destruction record in the fault log. -/
def flrQueue (q : Nat) (s : State) : State := setQue q Queue.init (destroyLogged q s)

/-- The configuration space and the function's vectors at their reset values. -/
def flrConfig (s : State) : State :=
  let h := s.host
  { s with
    host := { h with atc := [], aer := 0, bme := false, msixEn := false, msixMask := false, bar2Log := 30, msixTab := [], pba := [] }
    fe := { s.fe with aqCtrl := s.fe.aqCtrl &&& 0x7FFFFFFF } }

/-- ABORTs and PAUSEs of other queues that watched a killed command complete. -/
def flrWatchers (keys : List Key) (s : State) : List (Key × Decision) :=
  s.cmds.filterMap fun c => match c.work with
    | .target t _ => if t ∈ keys then c.decided.map fun d => (c.key, d) else none
    | _ => none

/-- The reset of the function. -/
def pcieReset (s : State) : State :=
  let cs := pcieCmds s
  let qs := pcieQueues s
  let s := qs.foldl (fun st q => flrDestroy q st) s
  let s := cs.foldl (fun st c => flrKill c st) s
  let s := qs.foldl (fun st q => flrQueue q st) s
  settle (flrWatchers (cs.map Cmd.key) s) (flrConfig s)

/-- FUNCTION_LEVEL_RESET. -/
def execFunctionLevelReset (s : State) : Host.Outcome State Fault Refusal :=
  .next (if isUp s then pcieReset s else s)

/-- PERST_N: the PCIe interface is reset as by a Function Level Reset, and its link trains again. -/
def execPerstN (s : State) : Host.Outcome State Fault Refusal :=
  .next (if isUp s then pcieReset s else s)

end Sys2Proof.Machine
end

