-- ==== Sys2Proof/Machine/Power.lean ====
section
/-! DEFINITION. Power (14): voltage points, throttling, thermal trips, brown-outs, power domains and the board's
signals. -/

namespace Sys2Proof.Machine

/-! ## Voltage points (R533 to R535) -/

/-- The power factor F of a point, times 10,000. -/
def pointF (p : Nat) : Nat := [4480, 5508, 6576, 8294, 10000, 11417, 12960, 14985].getD p 10000

/-- The power cap in W (R535). -/
def capW (s : State) : Nat := 760 - 40 * s.pwr.cap.toNat

/-- Is the part throttled: below its configured point, or holding dispatch? -/
def throttled (s : State) : Bool := decide (s.pwr.actual.toNat < s.pwr.point.toNat) || s.pwr.hold != 0

/-- Throttling that was on in state `was` has ended: it has no cause, and its length is recorded (R539, R560). -/
def endThrottle (was s : State) : State :=
  if throttled was && !throttled s then
    logSev 0 0x81 11 [s.pwr.throttleSamples / 10] { s with pwr := { s.pwr with cause := 0, throttleSamples := 0 } }
  else s

/-- A write of PWR_CFG. The actual point follows the configured one unless the part is throttled below it; a configured
point no higher than the actual one ends the throttling where nothing is held. -/
def pwrCfg (v : Word) (s : State) : State :=
  let cap := fld v.toNat 15 8
  if 10 < cap then pwrFlag 6 s
  else
    let was := s
    let p := s.pwr
    let pt := v.toNat % 8
    let act := if throttled s then min p.actual.toNat pt else pt
    let s := { s with
      pwr := { p with point := BitVec.ofNat 3 pt, cap := BitVec.ofNat 8 cap, idleOff := BitVec.ofNat 8 (fld v.toNat 23 16)
                      actual := BitVec.ofNat 3 act, trim := if act = p.actual.toNat then p.trim else 0 }
      det := { s.det with point := BitVec.ofNat 8 pt, cap := BitVec.ofNat 8 cap } }
    endThrottle was (sendVout (logSev 1 0x88 11 [p.point.toNat, pt, p.cap.toNat, cap] s))

/-- POINT_SET: a write of PWR_CFG. -/
def execPointSet (value : Word) (s : State) : Host.Outcome State Fault Refusal :=
  .next (if isUp s then pwrCfg value s else s)

/-! ## Samples and throttling (R536 to R542) -/

/-- A temperature in 1/16 °C as an integer. -/
def temp16 (t : BitVec 16) : Int := t.toInt

/-- The throttle temperature of a sensor, in °C. -/
def throttleAt (i : Nat) : Int := if i ≤ 86 then 95 else 90
/-- The trip temperature. -/
def tripAt (i : Nat) : Int := if i ≤ 86 then 105 else 100

/-- Sensors that give a reading, with it. -/
def readings (l : List (Option (BitVec 16))) : List (Nat × Int) :=
  ((List.range l.length).zip l).filterMap fun p => p.2.map fun t => (p.1, temp16 t)

/-- The hottest logic sensor (PWR_TJ). -/
def hottest (l : List (Nat × Int)) : Option (Nat × Int) :=
  (l.filter fun p => p.1 ≤ 86).foldl (fun best p =>
    match best with
    | none => some p
    | some b => if b.2 < p.2 then some p else some b) none

/-- The sum of the last ten samples of total and VCORE power. -/
def powerSums (s : State) : Nat × Nat := s.pwr.samples.foldl (fun a x => (a.1 + x.1, a.2 + x.2)) (0, 0)

/-- The sample noted: readings, means, PWR_TJ, HOT. -/
def noteSample (p : PowerReading) (s : State) : State :=
  let l := s.pwr.samples ++ [(p.totalW.toNat, p.vcoreW.toNat)]
  let l := l.drop (l.length - 10)
  let sum := l.foldl (fun a x => (a.1 + x.1, a.2 + x.2)) (0, 0)
  let rs := readings p.temps
  let temps := ((List.range p.temps.length).zip p.temps).foldl (fun t x => Tab.put none t x.1 x.2)
    ([] : Tab (Option (BitVec 16)))
  let tj := match hottest rs with
    | some (i, t) => BitVec.ofNat 32 (i * 2 ^ 16 + toBits 16 t)
    | none => s.pwr.tj
  { s with
    pwr := { s.pwr with
      samples := l, total := BitVec.ofNat 16 (sum.1 / l.length), vcore := BitVec.ofNat 16 (sum.2 / l.length)
      temps := temps, tj := tj, rate := p.rate, sinceLower := s.pwr.sinceLower + 1 }
    mem := { s.mem with hot := rs.any fun r => decide (87 ≤ r.1) && decide (85 * 16 < r.2) } }

/-- Does the mean power of the last 1 ms exceed the cap? -/
def overCap (s : State) : Bool := decide (s.pwr.samples.length = 10) && decide (10 * capW s < (powerSums s).1)

/-- Does a sensor exceed its throttle temperature? -/
def overTemp (rs : List (Nat × Int)) : Bool := rs.any fun r => decide (throttleAt r.1 * 16 < r.2)

/-- One stage lower: the point first, then the hold (R537). -/
def lowerStage (power temp : Bool) (s : State) : State :=
  let p := s.pwr
  if p.actual = 0 ∧ p.hold = 7 then s
  else
    let cause := b2n power + 2 * b2n temp
    let act := if p.actual = 0 then p.actual else p.actual - 1
    let hold := if p.actual = 0 then p.hold + 1 else p.hold
    let s := { s with pwr := { p with
      actual := act, hold := hold, cause := BitVec.ofNat 2 cause, sinceLower := 0, quiet := 0, trim := 0 } }
    let s := pwrFlag 0 (if temp then pwrFlag 1 s else s)
    sendVout (logSev 1 0x80 11 [cause, p.actual.toNat, act.toNat, hold.toNat] s)

/-- May one stage be raised, as this sample shows it (R539)? -/
def mayRaise (rs : List (Nat × Int)) (s : State) : Bool :=
  let p := s.pwr
  let n := p.samples.length
  let next := if p.hold = 0 then p.actual.toNat + 1 else p.actual.toNat
  let (tot, vc) := powerSums s
  throttled s && rs.all (fun r => decide (r.2 < (throttleAt r.1 - 5) * 16)) && n == 10 &&
    decide (vc * pointF next + (tot - vc) * pointF p.actual.toNat ≤ 10 * (capW s - 20) * pointF p.actual.toNat)

/-- One stage higher; at the configured point without a hold, throttling has ended. -/
def raiseStage (s : State) : State :=
  let p := s.pwr
  endThrottle s (sendVout { s with pwr := { p with
    actual := if p.hold = 0 then p.actual + 1 else p.actual, hold := if p.hold = 0 then 0 else p.hold - 1, quiet := 0 } })

/-- The time spent throttled: that of this throttling, and PWR_THROTTLE_MS with the part of a millisecond that has still to
count. -/
def throttleTime (s : State) : State :=
  if throttled s then
    let r := s.pwr.throttleRest + 1
    { s with pwr := { s.pwr with
      throttleSamples := s.pwr.throttleSamples + 1, throttleRest := r % 10
      throttleMs := if r % 10 = 0 then satInc s.pwr.throttleMs else s.pwr.throttleMs } }
  else s

/-- The trim of VCORE at point 7 (R533). -/
def trimVcore (s : State) : State :=
  let p := s.pwr
  if p.actual ≠ 7 then s
  else
    let t := if 1100 < p.rate.toNat then min (p.trim + 1) 8 else if p.rate.toNat < 1100 then p.trim - 1 else p.trim
    sendVout { s with pwr := { p with trim := t } }

/-- One sample of SP0. -/
def powerSample (p : PowerReading) (s : State) : State :=
  let s := throttleTime (noteSample p s)
  let rs := readings p.temps
  let power := overCap s
  let temp := overTemp rs
  if power || temp then
    let s := { s with pwr := { s.pwr with quiet := 0 } }
    trimVcore (if 10 ≤ s.pwr.sinceLower then lowerStage power temp s else s)
  else
    let s := { s with pwr := { s.pwr with quiet := if mayRaise rs s then s.pwr.quiet + 1 else 0 } }
    trimVcore (if 100 ≤ s.pwr.quiet then raiseStage s else s)

/-- POWER_SAMPLE. -/
def execPowerSample (p : PowerReading) (s : State) : Host.Outcome State Fault Refusal :=
  .next (if isUp s then powerSample p s else s)

/-! ## Trips, brown-outs and the board's signals (R532, R543, R552, R554) -/

/-- The part holds itself in reset with every domain off. -/
def holdReset (s : State) : State :=
  let s := resetMachine 0 s
  { s with boot := { s.boot with phase := .held } }

/-- A sensor reaches its trip temperature. The slots are scanned before a record is written (R524). The board takes VCORE
away (R543), and the regulator then starts as R529 says. -/
def thermTrip (sensor : Nat) (temp : BitVec 16) (vio : Bool) (s : State) : State :=
  let s :=
    if vio then
      blotterFlush (2 * s.bb.queue.length + 4) (logSev 4 0x82 11 [sensor, temp.toNat] (if bbScanned s then s else blotterScan s))
    else s
  let brown := s.boot.brown
  let s := holdReset { s with pwr := { s.pwr with thermtrip := true, vout := 750 } }
  { s with boot := { s.boot with thermal := true, brown := brown } }

/-- THERMTRIP. -/
def execThermtrip (sensor : Fin 111) (temp : BitVec 16) (vio : Bool) (s : State) : Host.Outcome State Fault Refusal :=
  .next (if s.boot.phase ≠ .held ∧ tripAt sensor.val * 16 ≤ temp16 temp then thermTrip sensor.val temp vio s else s)

/-- A list with a value that stands in it once. -/
def addOnce (x : Nat) (l : List Nat) : List Nat := if x ∈ l then l else l ++ [x]

/-- BROWNOUT: a rail has been low for 2 µs. It is latched, unless VIO does not hold: then nothing is recorded of the rails
that are low. -/
def execBrownout (rail : Fin 8) (vioHeld : Bool) (s : State) : Host.Outcome State Fault Refusal :=
  .next (
    let th := s.boot.thermal
    let brown := addOnce rail.val s.boot.brown
    let latched := if vioHeld then addOnce rail.val s.boot.latched else s.boot.latched.filter fun r => !decide (r ∈ brown)
    let s := holdReset s
    { s with boot := { s.boot with thermal := th, brown := brown, latched := latched } })

/-- RAIL_RESTORED: the rail has been back for 1 ms. With no rail low and no thermal trip, the hold ends. -/
def execRailRestored (s : State) (rail : Fin 8 := 0) : Host.Outcome State Fault Refusal :=
  .next (
    let brown := s.boot.brown.filter (· != rail.val)
    if s.boot.brown = [] then s
    else if brown ≠ [] ∨ s.boot.thermal then { s with boot := { s.boot with brown := brown } }
    else resetMachine 0 s)

/-- A supply signal changes: its status bit on assertion, and a record of either edge. -/
def supplyEdge (code flag : Nat) (asserted : Bool) (s : State) : State :=
  if s.boot.phase = .held then s
  else logSev 2 code 11 [b2n asserted] (if asserted then pwrFlag flag s else s)

/-- HOLDUP. -/
def execHoldup (s : State) : Host.Outcome State Fault Refusal :=
  .next (if s.pwr.holdup then s else supplyEdge 0x83 2 true { s with pwr := { s.pwr with holdup := true } })

/-- HOLDUP_RELEASE. -/
def execHoldupRelease (s : State) : Host.Outcome State Fault Refusal :=
  .next (if s.pwr.holdup then supplyEdge 0x83 2 false { s with pwr := { s.pwr with holdup := false } } else s)

/-- LOW_VOLTAGE. -/
def execLowVoltage (s : State) : Host.Outcome State Fault Refusal :=
  .next (if s.pwr.lowv then s else supplyEdge 0x84 3 true { s with pwr := { s.pwr with lowv := true } })

/-- LOW_VOLTAGE_RELEASE. -/
def execLowVoltageRelease (s : State) : Host.Outcome State Fault Refusal :=
  .next (if s.pwr.lowv then supplyEdge 0x84 3 false { s with pwr := { s.pwr with lowv := false } } else s)

/-- Is the part held in reset, or has it still to boot? The boot then finds out whether REFCLK is there. -/
def notStarted (s : State) : Bool := s.boot.phase == .held || s.boot.phase == .booting

/-- REFCLK_LOST. -/
def execRefclkLost (s : State) : Host.Outcome State Fault Refusal :=
  .next (if !s.pwr.refclkOk then s else
    let s := { s with pwr := { s.pwr with refclkOk := false } }
    if notStarted s then s
    else logSev 3 0x85 11 [0] (pwrFlag 4 { s with det := { s.det with refclk := 0 } }))

/-- REFCLK_RESTORED. -/
def execRefclkRestored (s : State) : Host.Outcome State Fault Refusal :=
  .next (if s.pwr.refclkOk then s else
    let s := { s with pwr := { s.pwr with refclkOk := true } }
    if notStarted s then s
    else logSev 3 0x85 11 [1] { s with det := { s.det with refclk := 10000 } })

/-! ## Power domains (R545 to R550) -/

/-- An Ethernet port or link starts training when its domain comes on. -/
def portWakes (d : Nat) (s : State) : State :=
  if 86 ≤ d ∧ d < 94 then updLnk (d - 86) (fun x => { x with st := .detect }) s else s

/-- A domain's memory as the wake leaves it: zero. -/
def zeroDomain (d : Nat) (s : State) : State :=
  if d < 72 then zeroSpad d s else if d < 80 then zeroCluster (d - 72) s else s

/-- May a waking domain come on: an engine only with its cluster (R546)? -/
def mayComeOn (s : State) (d : Nat) : Bool := decide (72 ≤ d) || domState s (72 + d / 9) == .on

/-- DOMAIN_WAKE. -/
def execDomainWake (d : Fin 96) (s : State) : Host.Outcome State Fault Refusal :=
  .next (if isUp s && domState s d.val == .waking && mayComeOn s d.val then
    portWakes d.val (setDom d.val .on (zeroDomain d.val { s with pwr := { s.pwr with wakes := satInc s.pwr.wakes } }))
  else s)

/-- The engine domains of a cluster without power are off, but for those that have failed (R546, R548). -/
def enginesOff (c : Nat) (s : State) : State :=
  (List.range 9).foldl (fun st i => if domState st (9 * c + i) = .failed then st else setDom (9 * c + i) .off st) s

/-- A cluster goes offline: its logical engines are served by none (R41). -/
def clusterOffline (c : Nat) (s : State) : State :=
  (List.range 8).foldl (fun st i =>
    updEng (8 * c + i) (fun e => { e with kept := [], keepNext := [] })
      { st with emap := { st.emap with phys := Tab.put 0 st.emap.phys (8 * c + i) 0 } }) (enginesOff c s)

/-- What a failed domain takes with it (R550). -/
def domainFails (d : Nat) (s : State) : State :=
  if d < 72 then engineFail d 1 s else if d < 80 then clusterOffline (d - 72) s else s

/-- DOMAIN_FAULT: power-good is not reached within 1 ms. -/
def execDomainFault (d : Fin 96) (s : State) : Host.Outcome State Fault Refusal :=
  .next (if isUp s && domState s d.val == .waking then
    let s := setDom d.val .failed { s with pwr := { s.pwr with domFaults := satInc s.pwr.domFaults } }
    domainFails d.val (logSev 3 0x87 11 [d.val] (pwrFlag 5 s))
  else s)

/-- May a domain that is on complete switching off: an engine after its request, a cluster without engines that are on
or waking, a port that the owner does not enable (R443, R546, R548)? -/
def mayGoOff (s : State) (d : Nat) : Bool :=
  if d < 72 then decide (d ∈ s.pwr.offReq)
  else if d < 80 then (List.range 9).all fun i =>
    domState s (9 * (d - 72) + i) == .off || domState s (9 * (d - 72) + i) == .failed
  else if d < 86 then false
  else !s.flash.portsOn.getLsbD (d - 86)

/-- A domain's memory is lost, with what the engine kept in it. -/
def loseDomain (d : Nat) (s : State) : State :=
  let s := zeroDomain d s
  if d < 72 then
    (match servedBy s d with
     | some n => updEng n (fun e => { discardGroups e with kept := [], keepNext := [], zeroFirst := false }) s
     | none => s)
  else if 86 ≤ d ∧ d < 94 then linkTo (d - 86) .disabled s
  else s

/-- DOMAIN_OFF. A wake request that came meanwhile then takes effect (R549). -/
def execDomainOff (d : Fin 96) (s : State) : Host.Outcome State Fault Refusal :=
  .next (if isUp s && domState s d.val == .on && mayGoOff s d.val then
    let wake := decide (d.val ∈ s.pwr.wakeAfter)
    loseDomain d.val (setDom d.val (if wake then .waking else .off) { s with
      pwr := { s.pwr with offReq := s.pwr.offReq.filter (· != d.val), wakeAfter := s.pwr.wakeAfter.filter (· != d.val) } })
  else s)

/-- Does a READY command need the engine? -/
def readyNeeds (s : State) (n : Nat) : Bool :=
  s.cmds.any fun c => c.st == .ready && c.decided.isNone && decide (n ∈ needsOf s c)

/-- IDLE_OFF: an engine idle for IDLE_OFF_MS is asked to switch off. -/
def execIdleOff (n : Fin 64) (s : State) : Host.Outcome State Fault Refusal :=
  .next (match physOf s n.val with
    | some p =>
      if isUp s && s.pwr.idleOff != 0 && (eng s n.val).cmd.isNone && !readyNeeds s n.val && domState s p == .on &&
          !decide (p ∈ s.pwr.offReq) then
        { s with pwr := { s.pwr with offReq := s.pwr.offReq ++ [p] } }
      else s
    | none => s)

end Sys2Proof.Machine
end

