-- ==== Sys2Proof/Machine/Service.lean ====
section
/-! DEFINITION. The service port (12, 13): requests and answers, the owner's settings, lifecycle, owner lock, firmware
update, and the Blotter's last reader. A request has its effect in one step, so no command can reach RUNNING while it is
checked, and is in progress for a while after (log 25). -/

namespace Sys2Proof.Machine

/-! ## What FW reads (R526) -/

/-- FW_SLOT.STATE. -/
def slotCode : SlotState → Nat
  | .empty => 0 | .receiving => 1 | .pending => 2 | .trial => 3 | .active => 4 | .backup => 5 | .rejected => 6

/-- FW_SLOT_s. -/
def fwSlotWord (s : State) (i : Nat) : Nat :=
  let x := slotOf s i
  if x.st = .empty ∨ x.st = .receiving then slotCode x.st
  else put' (slotMajor x) 8 24 + put' (slotMinor x) 8 16 + put' (slotSvn x) 6 10 + slotCode x.st

/-- FW_SESSION. -/
def fwSessionWord (s : State) : Nat :=
  match slotIn s .receiving with
  | some i => 2 ^ 30 + put' ((slotOf s i).length / 4096) 14 14 + put' (slotOf s i).blocks.length 14 0
  | none => 0

/-- FW_REFUSAL. -/
def fwRefusalWord (s : State) : Nat := put' s.boot.refOp.toNat 8 24 + s.boot.refReason.toNat

/-- Seconds left in a trial. -/
def trialLeft (s : State) : Nat := if s.boot.trial then s.boot.windowS - (s.now - s.boot.t0) / 100000000 else 0

/-- FW_TRIAL: the window is the present trial's, else the next one's. -/
def fwTrialWord (s : State) : Nat :=
  at' s.boot.trial 31 + put' (if s.boot.trial then s.boot.windowS else s.flash.confirmS.toNat) 12 16 +
    put' (trialLeft s) 12 0

/-- The lifecycle state as FW_LIFE.STATE codes it (R503). -/
def lifeState (s : State) : Nat := if s.fuse.decommissioned then 2 else if s.flash.owner.isSome then 1 else 0

/-- FW_LIFE. -/
def fwLifeWord (s : State) : Nat :=
  put' (lifeState s) 2 30 + at' s.flash.lock 29 + at' s.pwr.holdup 28 + at' s.pwr.lowv 27 + s.fuse.svnMin.toNat

/-- FW_RUNNING. -/
def fwRunningWord (s : State) : Nat :=
  put' s.boot.major.toNat 8 24 + put' s.boot.minor.toNat 8 16 + s.boot.build.toNat

/-! ## Requests and answers (R488, R489, R502, R503) -/

/-- Is an operation answered in this phase? -/
def svcServed (s : State) (op : Nat) : Bool :=
  match s.boot.phase with
  | .running => true
  | .recovery => op == 1 || decide (0x48 ≤ op ∧ op ≤ 0x4C) || op == 0x4E || op == 0x50
  | .decommissioned => op == 1 || op == 0x50
  | _ => false

/-- One answer: counted, and counted again where it is AUTH or REFUSED. -/
def svcAnswer (op status : Nat) (body : List Byte) (s : State) : State :=
  let s := emit (.svc op status body) { s with svc := { s.svc with reqs := satInc s.svc.reqs } }
  if status = 2 ∨ status = 3 then svcFlag 1 { s with svc := { s.svc with denied := satInc s.svc.denied } } else s

/-- Is a request in progress (R488)? -/
def svcBusy (s : State) : Bool := decide (s.now < s.svc.doneAt)

/-- A request is taken in hand; how long it takes is open (log 25). -/
def svcBegin (op : Nat) (s : State) : State := { s with svc := { s.svc with doneAt := s.now + Config.svcTicks op } }

/-- A request that is answered in this phase: BUSY while another is in progress, else handled. -/
def serve (op : Nat) (act : State → State) (s : State) : State :=
  if !svcServed s op then s
  else if svcBusy s then svcAnswer op 4 [] s
  else act (svcBegin op s)

/-- BAD_FRAME: LENGTH, body or signature do not fit the operation. -/
def svcBadFrame (op : Nat) (s : State) : State := svcAnswer op 1 [] s

/-- AUTH, with its record. -/
def svcAuth (op : Nat) (s : State) : State := svcAnswer op 2 [] (logEvent 0x24 8 [op, 2] s)

/-- Does LENGTH count the body, and does a signature of `sig` bytes follow? -/
def framed (r : SvcReq) (sig : Nat) : Bool := r.length.toNat == r.body.length && r.sig.length == sig

/-- A request with a body of `n` bytes. -/
def framedN (r : SvcReq) (n sig : Nat) : Bool := framed r sig && r.body.length == n

/-- The device serial's 8 bytes. -/
def serialBytes (s : State) : List Byte := leBytes 8 s.fuse.serial.toNat

/-- What a signature covers: the serial and the request without its signature. -/
def signedBytes (s : State) (op : Nat) (r : SvcReq) : List Byte :=
  serialBytes s ++ leBytes 4 (op * 2 ^ 24 + r.length.toNat) ++ leBytes 4 r.nonce.toNat ++ r.body

/-- Is the request the owner's, with a NONCE above the last? -/
def ownerSigned (s : State) (op : Nat) (r : SvcReq) : Bool :=
  match s.flash.owner with
  | some k => decide (s.flash.nonce.toNat < r.nonce.toNat) && ecdsaVerify (keyBytes k) (signedBytes s op r) r.sig
  | none => false

/-- An accepted owner request. -/
def ownerAccept (r : SvcReq) (s : State) : State :=
  svcFlag 0 { s with flash := { s.flash with nonce := r.nonce } }

/-- An owner operation below 0x40: BAD_FRAME, AUTH, its effect, or REFUSED where it has none. -/
def serveOwner (op : Nat) (shape : Bool) (act : State → Option State) (r : SvcReq) (s : State) : State :=
  serve op (fun s =>
    if !shape then svcBadFrame op s
    else if !ownerSigned s op r then svcAuth op s
    else match act s with
      | some s => svcAnswer op 0 [] (ownerAccept r s)
      | none => svcAnswer op 3 [] (logEvent 0x24 8 [op, 3] s)) s

/-- GET_STATUS. -/
def execGetStatus (r : SvcReq) (s : State) : Host.Outcome State Fault Refusal :=
  .next (serve 1 (fun s =>
    if !framedN r 0 0 then svcBadFrame 1 s
    else svcAnswer 1 0 (Config.statusBody [lifeState s, fwRunningWord s, fwLifeWord s, s.now - s.boot.t0]) s) s)

/-! ## Settings -/

/-- SET_GLOBAL_TIMEOUT (R327): milliseconds. -/
def execSetGlobalTimeout (r : SvcReq) (s : State) : Host.Outcome State Fault Refusal :=
  let ms := leAt r.body 0 4
  .next (serveOwner 0x10 (framedN r 4 64 && decide (1 ≤ ms ∧ ms ≤ 3600000))
    (fun s => some { s with
      flash := { s.flash with timeoutMs := BitVec.ofNat 22 ms }, fe := { s.fe with timeoutMs := BitVec.ofNat 22 ms } }) r s)

/-- SET_CARAFE_CRYPT (R265): bit 0. -/
def execSetCarafeCrypt (r : SvcReq) (s : State) : Host.Outcome State Fault Refusal :=
  .next (serveOwner 0x11 (framedN r 4 64)
    (fun s => some { s with flash := { s.flash with crypt := bit (leAt r.body 0 4) 0 } }) r s)

/-- SET_KW_POLICY: the bits of KW_POLICY. -/
def execSetKwPolicy (r : SvcReq) (s : State) : Host.Outcome State Fault Refusal :=
  let w := leAt r.body 0 4
  .next (serveOwner 0x12 (framedN r 4 64)
    (fun s => some { s with
      flash := { s.flash with kwEncrypt := bit w 0, kwRefuse := bit w 1 }
      kw := { s.kw with encrypt := bit w 0, refuse := bit w 1 } }) r s)

/-- An Ethernet port retrains: it is down for a time that the manual does not give (R489, log 25). -/
def portRetrain (p : Nat) (s : State) : State := updPrt p (fun x => { x with upAt := s.now + Config.portTicks s.now }) s

/-- SET_ETH_ADDR (R454): port 4 bytes, MAC 8 (0: the fused one), IPv4 4, IPv6 16, job port 4. -/
def execSetEthAddr (r : SvcReq) (s : State) : Host.Outcome State Fault Refusal :=
  let p := leAt r.body 0 4
  let mac := leAt r.body 4 6
  .next (serveOwner 0x13 (framedN r 36 64 && decide (p < 2))
    (fun s =>
      let a : EthAddr :=
        { mac := if mac = 0 then none else some (BitVec.ofNat 48 mac), ip4 := BitVec.ofNat 32 (leAt r.body 12 4)
          ip6 := BitVec.ofNat 128 (leAt r.body 16 16), jobPort := BitVec.ofNat 16 (leAt r.body 32 2) }
      some (portRetrain p { s with flash := { s.flash with eth := s.flash.eth.set p a } })) r s)

/-- SET_JOB_KEY: port 4 bytes, then the sender's public key 64, IV 12, wrapped key 32 and tag 16. -/
def execSetJobKey (r : SvcReq) (s : State) : Host.Outcome State Fault Refusal :=
  let p := leAt r.body 0 4
  .next (serveOwner 0x14 (framedN r 128 64 && decide (p < 2))
    (fun s =>
      if s.mem.wipeFailed || !s.fuse.identity then none
      else match Config.unwrapJobKey s.fuse.serial.toNat (r.body.drop 4) with
        | some k => some { s with flash := { s.flash with jobKey := s.flash.jobKey.set p (some k) } }
        | none => none) r s)

/-- INSTALL_CERT: serial 8 bytes, INSTALLATION_ID 16, and the owner key's signature over both. -/
def execInstallCert (r : SvcReq) (s : State) : Host.Outcome State Fault Refusal :=
  .next (serveOwner 0x15 (framedN r 88 64)
    (fun s => match s.flash.owner with
      | some k =>
        if leAt r.body 0 8 = s.fuse.serial.toNat ∧ ecdsaVerify (keyBytes k) (r.body.take 24) (r.body.drop 24) = true then
          let c : Cert := { serial := s.fuse.serial, inst := BitVec.ofNat 128 (leAt r.body 8 16), sig := r.body.drop 24 }
          some { s with flash := { s.flash with cert := some c } }
        else none
      | none => none) r s)

/-! ## The standing table (R489, R490) -/

/-- STAGE_TABLE. -/
def execStageTable (r : SvcReq) (s : State) : Host.Outcome State Fault Refusal :=
  let off := leAt r.body 0 4
  let bs := r.body.drop 4
  .next (serveOwner 0x16 (framed r 64 && decide (4 ≤ r.body.length ∧ bs.length ≤ 4096 ∧ off + bs.length ≤ 65536))
    (fun s => some { s with flash := { s.flash with
      staged := Tab.putList 0 s.flash.staged off bs, stagedLen := max s.flash.stagedLen (off + bs.length) } }) r s)

/-- The staged table's bytes. -/
def stagedBytes (s : State) : List Byte := Tab.window 0 s.flash.staged 0 s.flash.stagedLen

/-- COMMIT_TABLE. -/
def execCommitTable (r : SvcReq) (s : State) : Host.Outcome State Fault Refusal :=
  .next (serveOwner 0x17 (framedN r 32 64)
    (fun s => if sha256 (stagedBytes s) = r.body then
        some { s with flash := { s.flash with table := stagedBytes s, staged := [], stagedLen := 0 } }
      else none) r s)

/-! ## The conditions of R505 -/

/-- An update operation: BEGIN, BLOCK, COMMIT, ACTIVATE, CANCEL. -/
def isUpdateOp (op : Nat) : Bool := decide (0x48 ≤ op ∧ op ≤ 0x4C)

/-- RELEASE_OWNERSHIP or DECOMMISSION. -/
def endsOwnership (op : Nat) : Bool := op == 0x41 || op == 0x42

/-- The operation's lifecycle column (R504): TAKE_OWNERSHIP in UNOWNED; the others in OWNED. -/
def lifeAllows (s : State) (op : Nat) : Bool :=
  if op = 0x40 then lifeState s == 0 else lifeState s == 1 || (isUpdateOp op && s.boot.phase == .recovery)

/-- A RUN_ANNEAL, RESUME, RUN_PROGRAM or MODEL_LOAD runs. -/
def runActive (s : State) : Bool := s.cmds.any fun c => c.st == .running && decide (c.opcode ∈ [0x10, 0x12, 0x13, 0x15])

/-- A live capture stream (R465). -/
def captureLive (s : State) : Bool := s.ing.streams.any fun x => x.2.st != .disabled

/-- Reasons 0x01 to 0x07, in order. -/
def commonReason (s : State) (op : Nat) : Option Nat :=
  let upd := isUpdateOp op && op != 0x4C || endsOwnership op
  if !lifeAllows s op then some 1
  else if s.flash.lock && upd then some 2
  else if s.boot.trial && (isUpdateOp op || endsOwnership op) then some 3
  else if s.pwr.holdup then some 4
  else if s.pwr.lowv then some 5
  else if runActive s && upd then some 6
  else if captureLive s && upd then some 7
  else none

/-- A refusal: recorded in FW_REFUSAL, FW_STATUS and the Blotter, and answered with its reason. -/
def svcRefuse (op reason : Nat) (s : State) : State :=
  let s := fwFlag 1 { s with boot := { s.boot with refOp := BitVec.ofNat 8 op, refReason := BitVec.ofNat 8 reason } }
  svcAnswer op 3 [BitVec.ofNat 8 reason] (logEvent 0x11 0xFF [op, reason] s)

/-- An operation of R504: BAD_FRAME, AUTH, the reasons in order, then its effect, which answers itself. -/
def serveLife (op : Nat) (shape auth : Bool) (own : State → Option Nat) (act : State → State) (s : State) : State :=
  serve op (fun s =>
    if !shape then svcBadFrame op s
    else if !auth then svcAuth op s
    else match (commonReason s op).or (own s) with
      | some reason => svcRefuse op reason s
      | none => act s) s

/-- An accepted owner operation's OK. -/
def ownerOk (op : Nat) (r : SvcReq) (s : State) : State := svcAnswer op 0 [] (ownerAccept r s)

/-! ## Lifecycle and owner lock (R503, R506, R507) -/

/-- Steps 1 to 4 of a lifecycle change. The secure region reads back clean. -/
def lifeChange (change : State → State) (s : State) : State :=
  let s' := change s
  let s' := wipeEnds false (startWipe 2 s')
  selfReset 5 (logEvent 0x20 0xFF [lifeState s, lifeState s'] s')

/-- TAKE_OWNERSHIP. -/
def execTakeOwnership (r : SvcReq) (s : State) : Host.Outcome State Fault Refusal :=
  .next (serveLife 0x40 (framedN r 64 64) (ecdsaVerify r.body (signedBytes s 0x40 r) r.sig) (fun _ => none)
    (fun s => lifeChange (fun s => { s with flash := { s.flash with
      owner := some (BitVec.ofNat 512 (leNat r.body)), nonce := r.nonce } }) (svcAnswer 0x40 0 [] s)) s)

/-- What RELEASE_OWNERSHIP erases and restores. -/
def releaseOwner (s : State) : State :=
  { s with flash := { s.flash with
    owner := none, cert := none, jobKey := [none, none], table := [], staged := [], stagedLen := 0, lock := false
    nonce := 0, timeoutMs := 600000, crypt := true, kwEncrypt := true, kwRefuse := false } }

/-- RELEASE_OWNERSHIP. -/
def execReleaseOwnership (r : SvcReq) (s : State) : Host.Outcome State Fault Refusal :=
  .next (serveLife 0x41 (framedN r 0 64) (ownerSigned s 0x41 r) (fun _ => none)
    (fun s => lifeChange releaseOwner (ownerOk 0x41 r s)) s)

/-- DECOMMISSION: the body repeats the device serial. -/
def execDecommission (r : SvcReq) (s : State) : Host.Outcome State Fault Refusal :=
  .next (serveLife 0x42 (framedN r 8 64 && r.body == serialBytes s) (ownerSigned s 0x42 r) (fun _ => none)
    (fun s => lifeChange (fun s => { s with fuse := { s.fuse with decommissioned := true, identity := false } })
      (ownerOk 0x42 r s)) s)

/-- The owner lock is set or cleared. -/
def ownerLock (on : Bool) (s : State) : State :=
  logEvent 0x21 0xFF [b2n on] { s with flash := { s.flash with lock := on } }

/-- SET_OWNER_LOCK. -/
def execSetOwnerLock (r : SvcReq) (s : State) : Host.Outcome State Fault Refusal :=
  .next (serveLife 0x43 (framedN r 0 64) (ownerSigned s 0x43 r) (fun _ => none)
    (fun s => ownerLock true (ownerOk 0x43 r s)) s)

/-- CLEAR_OWNER_LOCK. -/
def execClearOwnerLock (r : SvcReq) (s : State) : Host.Outcome State Fault Refusal :=
  .next (serveLife 0x44 (framedN r 0 64) (ownerSigned s 0x44 r) (fun _ => none)
    (fun s => ownerLock false (ownerOk 0x44 r s)) s)

/-! ## Firmware update (R508 to R513) -/

/-- The slot that is not ACTIVE. -/
def updateSlot (s : State) : Nat := if (slotOf s 0).st = .active then 1 else 0

/-- UPDATE_BEGIN. -/
def execUpdateBegin (r : SvcReq) (s : State) : Host.Outcome State Fault Refusal :=
  let len := leAt r.body 0 4
  .next (serveLife 0x48 (framedN r 36 64) (ownerSigned s 0x48 r)
    (fun s =>
      if (slotIn s .receiving).isSome ∨ (slotIn s .pending).isSome then some 9
      else if len = 0 ∨ 33554432 < len ∨ len % 4096 ≠ 0 then some 0xA else none)
    (fun s =>
      let i := updateSlot s
      ownerOk 0x48 r (logEvent 0x10 0xFF [i, len, leNat (r.body.drop 4)]
        (setSlot i { st := .receiving, length := len, digest := r.body.drop 4, image := [], blocks := [] } s))) s)

/-- UPDATE_BLOCK: word 1 is the block's offset. -/
def execUpdateBlock (r : SvcReq) (s : State) : Host.Outcome State Fault Refusal :=
  let off := r.nonce.toNat
  .next (serveLife 0x49 (framedN r 4096 0) true
    (fun s => match slotIn s .receiving with
      | none => some 8
      | some i => if off % 4096 ≠ 0 ∨ (slotOf s i).length ≤ off then some 0xB else none)
    (fun s =>
      let i := (slotIn s .receiving).getD 0
      let x := slotOf s i
      svcAnswer 0x49 0 [] (setSlot i { x with
        image := Tab.putList 0 x.image off r.body
        blocks := if off ∈ x.blocks then x.blocks else x.blocks ++ [off] } s)) s)

/-- Reasons 0x08 and 0x0C to 0x0F. -/
def commitReason (s : State) : Option Nat :=
  match slotIn s .receiving with
  | none => some 8
  | some i =>
    let x := slotOf s i
    if x.blocks.length < x.length / 4096 then some 0xC
    else if sha256 (imgBytes x 0 x.length) ≠ x.digest then some 0xD
    else if !imageOk s x then some 0xE
    else if slotSvn x < s.fuse.svnMin.toNat then some 0xF
    else none

/-- UPDATE_COMMIT. -/
def execUpdateCommit (r : SvcReq) (s : State) : Host.Outcome State Fault Refusal :=
  .next (serveLife 0x4A (framedN r 0 64) (ownerSigned s 0x4A r) commitReason
    (fun s =>
      let i := (slotIn s .receiving).getD 0
      let x := slotOf s i
      let s := fwFlag 0 (setSlotState i .pending s)
      ownerOk 0x4A r (logEvent 0x12 0xFF [i, slotMajor x, slotMinor x, slotBuild x, slotSvn x] s)) s)

/-- UPDATE_ACTIVATE. -/
def execUpdateActivate (r : SvcReq) (s : State) : Host.Outcome State Fault Refusal :=
  .next (serveLife 0x4B (framedN r 0 64) (ownerSigned s 0x4B r)
    (fun s => if (slotIn s .pending).isSome then none else some 8)
    (fun s => selfReset 2 (ownerOk 0x4B r s)) s)

/-- The slot that CANCEL empties: RECEIVING or PENDING (R513). -/
def cancelSlot (s : State) : Option Nat := (slotIn s .receiving).or (slotIn s .pending)

/-- UPDATE_CANCEL. -/
def execUpdateCancel (r : SvcReq) (s : State) : Host.Outcome State Fault Refusal :=
  .next (serveLife 0x4C (framedN r 0 64) (ownerSigned s 0x4C r)
    (fun s => if (cancelSlot s).isSome then none else some 8)
    (fun s => ownerOk 0x4C r (logEvent 0x13 0xFF [0] (setSlot ((cancelSlot s).getD 0) Slot.init s))) s)

/-- SET_CONFIRM_WINDOW: it applies to the next trial (R514). -/
def execSetConfirmWindow (r : SvcReq) (s : State) : Host.Outcome State Fault Refusal :=
  let w := leAt r.body 0 4
  .next (serveLife 0x4D (framedN r 4 64 && decide (10 ≤ w ∧ w ≤ 3600)) (ownerSigned s 0x4D r) (fun _ => none)
    (fun s => ownerOk 0x4D r { s with flash := { s.flash with confirmS := BitVec.ofNat 12 w } }) s)

/-- UPDATE_STATUS. -/
def execUpdateStatus (r : SvcReq) (s : State) : Host.Outcome State Fault Refusal :=
  .next (serve 0x4E (fun s =>
    if !framedN r 0 0 then svcBadFrame 0x4E s
    else svcAnswer 0x4E 0 (([fwSlotWord s 0, fwSlotWord s 1, fwSessionWord s, fwRefusalWord s, fwTrialWord s,
      fwLifeWord s].map (leBytes 4)).flatten) s) s)

/-! ## The Blotter's last reader (R525) -/

/-- Is record `n` held whole? -/
def bbHeld (s : State) (n : Nat) : Bool :=
  decide (n < s.bb.done.toNat ∧ s.bb.next.toNat ≤ n + 65536) && bbSeq (bbSlot s (n % 65536)) == n &&
    bbGood (bbSlot s (n % 65536))

/-- BB_READ. -/
def execBbRead (r : SvcReq) (s : State) : Host.Outcome State Fault Refusal :=
  let first := leAt r.body 0 8
  let count := leAt r.body 8 4
  .next (serve 0x50 (fun s =>
    if !(framedN r 12 0 && decide (1 ≤ count ∧ count ≤ 31)) then svcBadFrame 0x50 s
    else
      let ns := ((List.range count).map (· + first)).filter (bbHeld s)
      svcAnswer 0x50 0 ((ns.map fun n => leBytes 128 (bbSlot s (n % 65536)).toNat).flatten) s) s)

/-! ## Codes outside the tables -/

/-- The operations of R489 and R504. -/
def knownOp (op : Nat) : Bool :=
  decide (op ∈ [0x01, 0x10, 0x11, 0x12, 0x13, 0x14, 0x15, 0x16, 0x17, 0x40, 0x41, 0x42, 0x43, 0x44, 0x48, 0x49, 0x4A,
    0x4B, 0x4C, 0x4D, 0x4E, 0x50])

/-- UNKNOWN_OP. -/
def execUnknownOp (op : BitVec 8) (_r : SvcReq) (s : State) : Host.Outcome State Fault Refusal :=
  .next (if knownOp op.toNat then s else serve op.toNat (svcAnswer op.toNat 5 []) s)

end Sys2Proof.Machine
end

