-- ==== Sys2Proof/Machine/RegRead.lean ====
section
/-! DEFINITION. What every register of BAR0 reads (R7 to R14 and the register tables). A value of `none` is an offset
that no register occupies. -/

namespace Sys2Proof.Machine

/-! ## Shapes of a register table -/

/-- A 64-bit quantity at offset `o` (R11). -/
def regPair (o x : Nat) : List (Nat × Nat) := [(o, x % 2 ^ 32), (o + 4, x / 2 ^ 32 % 2 ^ 32)]

/-- The index of an offset in an array of `n` registers from `base` on, `stride` bytes apart. -/
def regIndex (base stride n o : Nat) : Option Nat :=
  if base ≤ o ∧ (o - base) % stride = 0 ∧ (o - base) / stride < n then some ((o - base) / stride) else none

/-- A word of flags, one per number from 32·w on. -/
def flagWord (f : Nat → Bool) (w : Nat) : Nat := ofBits ((List.range 32).filter fun i => f (32 * w + i))

/-! ## FE (R348, R349) -/

/-- FE_QSTATE of a queue. -/
def qstateWord (s : State) (q : Nat) : Nat :=
  let x := que s q
  let st := match x.st with | .unused => 0 | .active => 1 | .error => 2 | .destroying => 3
  let running := (s.cmds.filter fun c => c.queue == q && c.decided.isNone && (c.st == .ready || c.st == .running)).length
  put' st 3 29 + put' x.cls.toNat 3 26 + put' x.kind.toNat 2 24 + put' x.ctx.toNat 8 16 + put' x.port.toNat 4 12 +
    put' x.cause.toNat 4 8 + min running 255

/-- A fence's value with ERR in bit 63. -/
def fenceQuad (x : Fence) : Nat := x.val.toNat + at' x.err 63

def feReg (s : State) (o : Nat) : Option Nat :=
  if 0x40000 ≤ o ∧ o < 0x48000 ∧ o % 4 = 0 then
    some (fenceQuad (fnc s ((o - 0x40000) / 8)) / 2 ^ (32 * (o / 4 % 2)) % 2 ^ 32)
  else if 0x80000 ≤ o ∧ o % 4 = 0 then some 0
  else match regIndex 0x100 4 16 o with
    | some n => some ((Tab.get 0 s.fe.flog s.fe.flogSel.toNat).toNat / 2 ^ (32 * n) % 2 ^ 32)
    | none =>
      let f := s.fe
      let q := f.qsel.toNat
      ([(0x00, 1), (0x04, f.status.toNat), (0x08, f.intEn.toNat), (0x0C, f.timeoutMs.toNat), (0x10, f.badAccess.toNat),
        (0x14, f.dupCmd.toNat), (0x18, f.dupDoorbell.toNat), (0x1C, f.dbIgnored.toNat), (0x20, f.peerReject.toNat),
        (0x24, f.peerReplay.toNat), (0x28, f.flogCount.toNat), (0x2C, f.flogSel.toNat), (0x30, q),
        (0x34, qstateWord s q), (0x38, (que s q).sqHead.toNat), (0x3C, (que s q).cqTail.toNat),
        (0x40, (que s q).expSeq.toNat), (0x70, f.aqCtrl.toNat)] ++
        regPair 0x44 f.cmds.toNat ++ regPair 0x60 f.aqSq.toNat ++ regPair 0x68 f.aqCq.toNat).lookup o

/-! ## ICU (R421, R422) -/

/-- ICU_PEND's bit of a source. -/
def pendBit (s : State) (n : Nat) : Bool :=
  if icuReserved n then false
  else if icuLevel n then (src s n).line
  else match (src s n).st with | .pending | .delivered | .activePending => true | _ => false

def activeBit (s : State) (n : Nat) : Bool :=
  !icuReserved n && match (src s n).st with | .active | .activePending => true | _ => false

/-- ICU_SRC_CFG_s. -/
def srcCfgWord (s : State) (n : Nat) : Nat :=
  if icuReserved n then 0
  else
    let x := src s n
    let st := match x.st with | .idle => 0 | .pending => 1 | .delivered => 2 | .active => 3 | .activePending => 4
    at' (icuMessage n) 23 + put' x.targets.toNat 5 16 + put' st 3 11 + put' x.holder 3 8 + x.prio.toNat

/-- ICU_T registers of target `t`; a claim read's own value is given where it is read. -/
def icuTReg (s : State) (t o : Nat) : Option Nat :=
  let x := tgt s t
  let pw := match x.power with | .awake => 0 | .sleeping => 1 | .waking => 2
  [(0x00, at' x.mask 4 + x.threshold.toNat), (0x04, put' pw 2 30 + put' (tgtRank x) 5 16 + (nextClaim s t).getD 0x3FF),
   (0x08, 0x3FF), (0x0C, 0), (0x10, at' x.wakeValid 31 + x.wakeSrc.toNat)].lookup o

def icuReg (s : State) (o : Nat) : Option Nat :=
  if 0x1000 ≤ o ∧ o < 0x1500 then icuTReg s ((o - 0x1000) / 0x100) (o % 0x100)
  else if 0x400 ≤ o ∧ o < 0xC00 ∧ o % 4 = 0 then some (srcCfgWord s ((o - 0x400) / 4))
  else if 0x80 ≤ o ∧ o < 0x280 ∧ o % 4 = 0 then
    let w := o / 4 % 16
    match (o - 0x80) / 0x40 with
    | 0 => some (flagWord (pendBit s) w)
    | 3 => some (flagWord (fun n => (src s n).en && !icuReserved n) w)
    | 6 => some (flagWord (activeBit s) w)
    | 7 => some (flagWord (fun n => (Tab.get 0 s.icu.hostEn w).getLsbD (n % 32) && !icuReserved n) w)
    | _ => some 0
  else
    let i := s.icu
    [(0x00, 1), (0x04, i.status.toNat), (0x08, i.spurious.toNat), (0x0C, i.badComplete.toNat), (0x10, i.merged.toNat),
     (0x14, i.reroute.toNat), (0x18, i.wakes.toNat), (0x1C, i.bar0Denied.toNat), (0x20, i.hostVec.toNat)].lookup o

/-! ## MEM (R283 to R285) -/

def memStatusWord (m : MemSt) : Nat := m.status.toNat + at' m.hot 7 + at' m.cryptOn 8 + at' m.locked 9

def memReg (s : State) (o : Nat) : Option Nat :=
  match regIndex 0x100 4 24 o with
  | some c => some (Tab.get 0 s.mem.chanCe c).toNat
  | none =>
    let m := s.mem
    ([(0x00, put' s.fuse.eccRev.toNat 8 8 + 1), (0x04, memStatusWord m), (0x08, m.intEn.toNat),
      (0x18, put' (freeExtents s).length 13 16 + allocatable s),
      (0x1C, put' (sparesLeft s) 5 16 + (s.flash.retired.length + s.flash.removed.length)), (0x28, m.ue.toNat),
      (0x2C, m.errInfo.toNat), (0x38, m.tfInfo.toNat), (0x48, m.bar2Denied.toNat), (0x4C, m.scrubPasses.toNat),
      (0x50, put' m.wipes.toNat 16 16 + put' m.wipeCause.toNat 2 2 + at' m.wipeFailed 1 + at' m.wipeActive 0)] ++
      regPair 0x10 (bar2Base s) ++ regPair 0x20 m.ce.toNat ++ regPair 0x30 m.errAddr.toNat ++
      regPair 0x40 m.tfAddr.toNat).lookup o

/-! ## RNG (R441, R442) -/

def rngStateCode : RngState → Nat
  | .startup => 0 | .running => 1 | .restart => 2 | .kat => 3 | .fatal => 4

def rngReg (p : Path) (s : State) (o : Nat) : Option Nat :=
  let r := s.rng
  match regIndex 0x40 4 32 o with
  | some n => some (Tab.get 0 r.katIn n).toNat
  | none =>
    match regIndex 0xC0 4 8 o with
    | some n => some (match p with | .bar0 => 0 | .localPort => (Tab.get 0 r.katOut n).toNat)
    | none =>
      ([(0x00, 1), (0x04, put' (rngStateCode r.st) 3 29 + put' r.buffer.length 8 16 + put' r.failRun 3 8 + r.flags.toNat),
        (0x08, r.intEn.toNat), (0x0C, put' r.katLen.toNat 8 8 + at' (r.st == RngState.kat) 0), (0x10, 0x40000000), (0x14, 0),
        (0x20, r.discards.toNat), (0x24, r.rctFails.toNat), (0x28, r.aptFails.toNat), (0x2C, r.restarts.toNat),
        (0x30, r.cellFail.toNat), (0x34, r.swNotReady.toNat)] ++ regPair 0x18 r.blocks.toNat).lookup o

/-! ## ANL, ARR and the engine windows (R134, R201, R203, R242, R286) -/

/-- Annealing runs admitted and not complete (R134). With more than 255 of them the field stands at 255: the model's choice
(log 71). -/
def activeRuns (s : State) : Nat :=
  min (s.cmds.filter fun c => (c.st == .ready || c.st == .running) && match c.work with | .anneal _ => true | _ => false).length 255

def anlReg (s : State) (o : Nat) : Option Nat :=
  let a := s.anl
  ([(0x00, put' s.fuse.noiseRev.toNat 8 8 + 1), (0x04, put' (activeRuns s) 8 16 + a.status.toNat), (0x08, a.intEn.toNat),
    (0x38, a.mismatch.toNat)] ++ regPair 0x10 a.sweeps.toNat ++ regPair 0x18 a.full.toNat ++
    regPair 0x20 a.delta.toNat ++ regPair 0x28 a.conflicts.toNat ++ regPair 0x30 a.recompute.toNat).lookup o

def arrReg (s : State) (o : Nat) : Option Nat :=
  let a := s.arr
  ([(0x00, put' s.fuse.arithRev.toNat 8 8 + 1), (0x04, a.status.toNat), (0x08, a.intEn.toNat), (0x28, a.i8Tiles.toNat),
    (0x2C, a.outTiles.toNat), (0x38, a.parkCorr.toNat), (0x3C, a.parkUncorr.toNat)] ++ regPair 0x10 a.satTiles.toNat ++
    regPair 0x18 a.longTiles.toNat ++ regPair 0x20 a.fpTiles.toNat ++ regPair 0x30 a.steps.toNat).lookup o

/-- SPAD_E_REPAIR of a physical engine: columns repaired over its 48 banks, and the fewest spares of 8 left in one. -/
def repairWord (m : MapSt) (p : Nat) : Nat :=
  let f := fun b => (Tab.get 0 m.fuseRep (48 * p + b)).toNat
  let so := fun b => (Tab.get 0 m.softRep (48 * p + b)).toNat
  let sum := fun (g : Nat → Nat) => min ((List.range 48).foldl (fun a b => a + g b) 0) 255
  put' (sum f) 8 16 + put' (sum so) 8 8 + (List.range 48).foldl (fun a b => min a (8 - f b - so b)) 8

def engReg (s : State) (n o : Nat) : Option Nat :=
  let e := eng s n
  match regIndex 0x1010 4 8 o with
  | some g => some (groupWord (grp e g)).toNat
  | none =>
    match regIndex 0x1030 4 8 o with
    | some g => some (groupKWord (grp e g)).toNat
    | none =>
      match regIndex 0x2040 4 32 o with
      | some i => some (Tab.get 0 (if i % 2 = 0 then e.winBase else e.winSize) (i / 2)).toNat
      | none =>
        [(0x1000, (engineStatusWord e).toNat), (0x1004, e.fault.toNat), (0x1050, (pcWord e).toNat), (0x1054, e.pfault.toNat),
         (0x2000, e.spStatus.toNat), (0x2004, e.spCe.toNat), (0x2008, e.xwCollide.toNat),
         (0x200C, match physOf s n with | some p => repairWord s.emap p | none => 0)].lookup o

/-- The device-level SPAD registers read as logical engine 0's (R287). -/
def spadReg (s : State) (o : Nat) : Option Nat :=
  if o = 0 then some 1
  else match regIndex 0x40 4 32 o with
    | some i => engReg s 0 (0x2040 + 4 * i)
    | none => none

/-! ## DET (R393, R394) -/

def detReg (s : State) (o : Nat) : Option Nat :=
  match regIndex 0x100 4 16 o with
  | some e => some (Tab.get 0x00800000 s.det.lsCfg e).toNat
  | none =>
    let d := s.det
    ([(0x00, 1), (0x04, (settingsWord s false).toNat % 2 ^ 24), (0x08, (freePointWord s).toNat),
      (0x0C, d.status.toNat + at' (offlineMask s != 0) 4), (0x10, d.intEn.toNat), (0x14, d.ckpt.toNat),
      (0x30, d.lsMismatch.toNat), (0x34, d.lsReplay.toNat), (0x38, d.pauses.toNat), (0x3C, d.resumes.toNat),
      (0x40, d.lsLast.toNat), (0x44, d.lsLastSeq.toNat), (0x48, d.lsLastCkpt.toNat)] ++
      regPair 0x18 s.emap.offline.toNat ++ regPair 0x20 s.emap.subst.toNat ++ regPair 0x28 d.records.toNat).lookup o

/-! ## ING (R492, R493) -/

def portReg (s : State) (p o : Nat) : Option Nat :=
  let x := prt s p
  ([(0x08, x.fcs.toNat), (0x0C, x.pause.toNat), (0x10, x.dropIp.toNat), (0x14, x.jobDrop.toNat),
    (0x18, x.fecUncorr.toNat), (0x1C, at' ((s.flash.jobKey.getD p none).isSome) 16 + (jobPortOf s p).toNat)] ++
    regPair 0x00 x.rx.toNat).lookup o

/-- ING_S_CTRL. -/
def streamCtrl (x : Stream) : Nat :=
  let st := match x.st with | .disabled => 0 | .active => 1 | .stopping => 2
  at' (x.st == StreamState.active) 31 + put' st 2 29 + put' x.port.toNat 2 27 + put' x.ringLog2.toNat 6 19 + x.tag.toNat

def streamReg (s : State) (i o : Nat) : Option Nat :=
  let x := strm s i
  ([(0x00, streamCtrl x), (0x04, put' x.udp.toNat 16 16 + x.recUnits.toNat), (0x28, x.frames.toNat),
    (0x2C, x.dropped.toNat), (0x30, x.gaps.toNat), (0x34, x.stale.toNat), (0x38, x.reasm.toNat)] ++
    regPair 0x08 x.ring.toNat ++ regPair 0x10 x.consAddr.toNat ++ regPair 0x18 x.prodAddr.toNat ++
    regPair 0x20 x.prod.toNat).lookup o

def ingReg (s : State) (o : Nat) : Option Nat :=
  if 0x40 ≤ o ∧ o < 0x80 then portReg s ((o - 0x40) / 0x20) (o % 0x20)
  else if 0x400 ≤ o ∧ o < 0x800 then streamReg s ((o - 0x400) / 0x40) (o % 0x40)
  else [(0x00, 1), (0x04, s.ing.status.toNat), (0x08, s.ing.intEn.toNat)].lookup o

/-! ## KW (R494) -/

def linkStateCode : LState → Nat
  | .disabled => 0 | .detect => 1 | .equalize => 2 | .align => 3 | .identify => 4 | .active => 5 | .holdoff => 6

/-- KW_L_STATE. -/
def linkStateWord (x : Link) : Nat :=
  put' (linkStateCode x.st) 3 29 + at' x.sameInst 28 + at' x.encrypted 27 + at' x.reversed 26 + put' x.cause.toNat 3 20 +
    x.epoch.toNat

def linkReg (s : State) (l o : Nat) : Option Nat :=
  let x := lnk s l
  ([(0x00, linkStateWord x), (0x04, at' (s.flash.portsOn.getLsbD l) 0), (0x20, x.fecCorr.toNat), (0x24, x.retries.toNat),
    (0x28, x.dup.toNat), (0x2C, x.trainFails.toNat), (0x30, x.retrains.toNat)] ++
    regPair 0x08 (if x.st = LState.active then x.peer.toNat else 0) ++ regPair 0x10 x.tx.toNat ++
    regPair 0x18 x.rx.toNat).lookup o

def kwReg (s : State) (o : Nat) : Option Nat :=
  if 0x100 ≤ o ∧ o < 0x300 then linkReg s ((o - 0x100) / 0x40) (o % 0x40)
  else [(0x00, 1), (0x04, s.kw.status.toNat), (0x08, s.kw.intEn.toNat),
        (0x0C, at' s.kw.refuse 1 + at' s.kw.encrypt 0)].lookup o

/-! ## SVC, FW, BB, PWR (R495, R526, R527, R559) -/

def svcReg (s : State) (o : Nat) : Option Nat :=
  let v := s.svc
  ([(0x00, 1), (0x04, v.status.toNat + at' (tamperNow s) 3), (0x08, v.intEn.toNat), (0x0C, s.flash.nonce.toNat),
    (0x10, v.reqs.toNat), (0x14, v.denied.toNat), (0x18, v.tamper.toNat)] ++ regPair 0x1C s.fuse.serial.toNat).lookup o

def fwReg (s : State) (o : Nat) : Option Nat :=
  let b := s.boot
  [(0x00, 1), (0x04, b.status.toNat), (0x08, b.intEn.toNat), (0x0C, fwRunningWord s), (0x10, fwSlotWord s 0),
   (0x14, fwSlotWord s 1), (0x18, fwSessionWord s), (0x1C, fwRefusalWord s), (0x20, fwTrialWord s),
   (0x24, fwLifeWord s), (0x28, put' s.flash.bootCount 28 4 + b.cause.toNat), (0x2C, b.readyMs.toNat)].lookup o

def bbReg (s : State) (o : Nat) : Option Nat :=
  match regIndex 0x100 4 32 o with
  | some n => some ((bbSlot s s.bb.sel.toNat).toNat / 2 ^ (32 * n) % 2 ^ 32)
  | none =>
    let b := s.bb
    ([(0x00, 1), (0x04, b.status.toNat), (0x08, b.intEn.toNat), (0x20, b.sel.toNat), (0x24, b.lost.toNat),
      (0x28, b.suppressed.toNat), (0x2C, b.torn.toNat)] ++ regPair 0x10 b.next.toNat ++
      regPair 0x18 b.done.toNat).lookup o

/-- PWR_PINS. REFCLK_OK is 0 at reset: REFCLK is in use once the part has booted. -/
def pinsWord (s : State) : Nat :=
  at' (s.pwr.refclkOk && s.boot.phase != .booting) 5 + at' (lineNow s 11) 4 + at' s.pwr.thermtrip 3 +
    at' (tamperNow s) 2 + at' s.pwr.lowv 1 +
    at' s.pwr.holdup 0

/-- Is the power domain of a sensor on (R541, R546)? The control complex has none to switch. -/
def sensorOn (s : State) (i : Nat) : Bool :=
  if i < 80 then domState s i == .on
  else if i = 80 then true
  else if i ≤ 86 then domState s (i - 1) == .on
  else domState s (80 + (i - 87) / 4) == .on

/-- PWR_TEMP of a sensor; without a valid reading it is 0 (log 43). -/
def tempWord (s : State) (i : Nat) : Nat :=
  match Tab.get none s.pwr.temps i with
  | some t => if sensorOn s i then 2 ^ 31 + t.toNat else 0
  | none => 0

def pwrReg (s : State) (o : Nat) : Option Nat :=
  let p := s.pwr
  match regIndex 0x100 4 111 o with
  | some i => some (tempWord s i)
  | none =>
    match regIndex 0x30 4 3 o with
    | some i => some (flagWord (fun d => domState s d == .on) i)
    | none =>
      match regIndex 0x40 4 3 o with
      | some i => some (flagWord (fun d => domState s d == .failed) i)
      | none =>
        [(0x00, 1), (0x04, p.status.toNat), (0x08, p.intEn.toNat),
         (0x0C, put' p.idleOff.toNat 8 16 + put' p.cap.toNat 8 8 + p.point.toNat),
         (0x10, put' p.hold.toNat 3 24 + put' p.actual.toNat 3 16 + p.cause.toNat), (0x14, p.rate.toNat),
         (0x18, put' p.total.toNat 16 16 + p.vcore.toNat), (0x1C, p.tj.toNat), (0x20, pinsWord s),
         (0x24, p.throttleMs.toNat), (0x28, p.wakes.toNat), (0x2C, p.domFaults.toNat)].lookup o

/-! ## The whole space (R7, R8, R446) -/

/-- The MSI-X table and PBA. -/
def msixReg (s : State) (o : Nat) : Option Nat :=
  if o % 4 ≠ 0 then none
  else if o < 0x8000 then some (msixWord s.host.msixTab (o / 16) (o / 4 % 4)).toNat
  else if o < 0x8100 then some (flagWord (fun v => Tab.get 0 s.host.pba v == 1) ((o - 0x8000) / 4))
  else none

/-- What a register reads, its read effects aside. -/
def regPeek (p : Path) (s : State) (a : Nat) : Option Nat :=
  let o := a % 0x100000
  if 0x02000000 ≤ a then
    if a < 0x02400000 then engReg s ((a - 0x02000000) / 0x10000) (a % 0x10000) else none
  else match a / 0x100000 with
    | 0x0F => msixReg s o
    | 0x10 => feReg s o
    | 0x11 => icuReg s o
    | 0x12 => memReg s o
    | 0x13 => rngReg p s o
    | 0x14 => anlReg s o
    | 0x15 => arrReg s o
    | 0x16 => spadReg s o
    | 0x17 => detReg s o
    | 0x18 => ingReg s o
    | 0x19 => kwReg s o
    | 0x1A => svcReg s o
    | 0x1B => fwReg s o
    | 0x1C => bbReg s o
    | 0x1D => pwrReg s o
    | _ => none

/-- Is a register the low word of a 64-bit quantity (R11)? -/
def regLow (a : Nat) : Bool :=
  let o := a % 0x100000
  match a / 0x100000 with
  | 0x10 => decide (o ∈ [0x44, 0x60, 0x68]) || decide (0x40000 ≤ o ∧ o < 0x48000 ∧ o % 8 = 0)
  | 0x12 => decide (o ∈ [0x10, 0x20, 0x30, 0x40])
  | 0x13 => o == 0x18
  | 0x14 => decide (o ∈ [0x10, 0x18, 0x20, 0x28, 0x30])
  | 0x15 => decide (o ∈ [0x10, 0x18, 0x20, 0x30])
  | 0x17 => decide (o ∈ [0x18, 0x20, 0x28])
  | 0x18 => (decide (0x40 ≤ o ∧ o < 0x80) && o % 0x20 == 0) ||
      (decide (0x400 ≤ o ∧ o < 0x800) && decide (o % 0x40 ∈ [0x08, 0x10, 0x18, 0x20]))
  | 0x19 => decide (0x100 ≤ o ∧ o < 0x300) && decide (o % 0x40 ∈ [0x08, 0x10, 0x18])
  | 0x1A => o == 0x1C
  | 0x1C => decide (o ∈ [0x10, 0x18])
  | _ => false

/-- The key of a path's latch of the high word at an address. -/
def latchKey (p : Path) (a : Nat) : Nat := 2 * a + match p with | .bar0 => 0 | .localPort => 1

/-- The Carafe line of the selected fault-log entry, in firmware extent 6,081 (R335). -/
def flogLine (s : State) : Nat := (6081 * extBytes + 64 * s.fe.flogSel.toNat) / 64

/-- FE_FLOG_DATA lies in Carafe, whose every read while LOCKED is an uncorrectable error (R252, R266, R335): no byte is
delivered, and what the register shows then is free (log 37). -/
def flogLocked (a : Nat) (s : State) : Bool := s.mem.locked && decide (0x01000100 ≤ a ∧ a < 0x01000140)

/-- One 32-bit read, its effects with it. -/
def regRead32 (p : Path) (a : Nat) (s : State) : Word × State :=
  match regPeek p s a with
  | none => (0, feBadAccess s)
  | some v =>
    if a = 0x01300014 then rngSwData p s
    else if flogLocked a s then
      (BitVec.ofNat 32 (Config.freeNat s.free), carafeErr 1 (flogLine s) 0xF { s with free := s.free + 1 })
    else if 0x01101000 ≤ a ∧ a < 0x01101500 ∧ a % 0x100 = 8 ∧ p = .localPort then
      let (n, s) := icuClaim ((a - 0x01101000) / 0x100) s
      (BitVec.ofNat 32 n, s)
    else if regLow a then
      let hi := BitVec.ofNat 32 ((regPeek p s (a + 4)).getD 0)
      (BitVec.ofNat 32 v, { s with fe := { s.fe with latch := Tab.put none s.fe.latch (latchKey p (a + 4)) (some hi) } })
    else match Tab.get none s.fe.latch (latchKey p a) with
      | some hi => (hi, { s with fe := { s.fe with latch := Tab.put none s.fe.latch (latchKey p a) none } })
      | none => (BitVec.ofNat 32 v, s)

/-- Has an access one of the sizes and alignments of R9? -/
def regAligned (a bytes : Nat) : Bool := (bytes == 4 && a % 4 == 0) || (bytes == 8 && a % 8 == 0)

/-- A read of 4 or 8 bytes, the lower address first; any other reads 0 and is counted. -/
def regRead (p : Path) (a bytes : Nat) (s : State) : Quad × State :=
  if !regAligned a bytes then (0, feBadAccess s)
  else
    let (lo, s) := regRead32 p a s
    if bytes = 4 then (lo.setWidth 64, s)
    else
      let (hi, s) := regRead32 p (a + 4) s
      (hi ++ lo, s)

/-- LOW_WORD_READ: a read of a register; of a 64-bit quantity's low word, it latches the high one. A read of RNG_SW_STAT
may wait (R438). -/
def execLowWordRead (path : Path) (addr bytes : Nat) (s : State) : Host.Outcome State Fault Refusal :=
  .next (if !pathUp s path then s
    else if addr = 0x01300010 ∧ (bytes = 4 ∨ bytes = 8) then rngSwRead path bytes s
    else
    let (v, s) := regRead path addr bytes s
    emit (.readData path v) s)

end Sys2Proof.Machine
end

