-- ==== Sys2Proof/Machine/VectorIns.lean ====
section
/-! DEFINITION. VOP, DMA and ATOMF (06), and the write of the SPAD window registers (07). -/

namespace Sys2Proof.Machine

/-! ## VOP (R228 to R230) -/

/-- Are two values zeros of different sign? -/
def zerosDiffer (a b : FVal) : Bool :=
  match a, b with
  | .fin na ma _, .fin nb mb _ => ma == 0 && mb == 0 && na != nb
  | _, _ => false

/-- The smaller of two FP32 values; open for a NaN and for zeros of different sign (log 10). -/
def vMin (a b : FVal) : FVal :=
  if a.isNan || b.isNan || zerosDiffer a b then of32 (Config.vminOpen (to32 a) (to32 b))
  else if a.le b then a else b

/-- One element in FP32. -/
def vopElem (op : Nat) (a b s : FVal) : FVal :=
  let rnd := fun v => of32 (to32 v)
  if op = 0 then rnd (a.add b)
  else if op = 1 then rnd (a.add b.neg)
  else if op = 2 then rnd (a.mul b)
  else if op = 3 then rnd ((a.mul s).add b)
  else if op = 4 then a.max b
  else if op = 5 then vMin a b
  else if op = 6 then a
  else if op = 7 then rnd (a.mul s)
  else if op = 8 then of32 (vTanh (a.mul s))
  else if op = 9 then of32 (vSigm (a.mul s))
  else of32 (vExp (a.mul s))

/-- Results in the order they are written: with TRANS, 128 x 512 tiles column by column (R220, R229). -/
def transOrder : Nat → List Nat → List Nat
  | 0, _ => []
  | k + 1, l =>
    let t := l.take 65536
    ((List.range 512).flatMap fun j => (List.range 128).map fun r => t.getD (512 * r + j) 0) ++ transOrder k (l.drop 65536)

def vopIns (x : Ectx) (s : State) : State :=
  let op := x.ins.par 3 0
  let n := aReg x.e (x.ins.par 11 8)
  let sc := fp32.dec (aReg x.e (x.ins.par 7 4))
  let inF := x.ins.par 14 12
  let outF := x.ins.par 17 15
  if x.ins.flag ∧ n % 65536 ≠ 0 then progFault x fAddress s
  else
    match spanW x x.ins.c (elemUnits n (vopBytes outF)) with
    | .error f => progFault x f s
    | .ok pc =>
      readOp x x.ins.a (elemUnits n (vopBytes inF)) false (fun as s =>
        readOp x (if x.ins.b = noneOp then 0 else x.ins.b) (if x.ins.b = noneOp then 0 else elemUnits n (vopBytes outF)) false
          (fun bs s =>
            let av := (elems (vopBytes inF) n as).map (vopIn inF)
            let bv := (elems (vopBytes outF) n bs).map (vopIn outF)
            let cv := (av.zip bv).map fun p => vopOut outF (vopElem op p.1 p.2 sc)
            let cv := if x.ins.flag then transOrder (n / 65536) cv else cv
            retire x (writeSpan x.n pc (cv.flatMap (leBytes (vopBytes outF))) s)) s) s

/-- VOP. -/
def execVop (n : Fin 64) (s : State) : Host.Outcome State Fault Refusal := .next (withUnit 0x10 n.val vopIns s)

/-! ## External accesses of an engine (R231, R250, R276) -/

/-- A read at an external address plus an offset. -/
def extRead (x : Ectx) (a : ExtAddr) (off len : Nat) (s : State) : Except Decision (List Byte) × State :=
  match a with
  | .cluster u =>
    if 16 * clusterUnits < u + off + len then (.error (mkDecision 3 fExternal 0), s)
    else clusterRead x.n (x.n / 8) (u + off) len s
  | .device d => devRead (cmdView s x.c) (d + off) len s

/-- A write there. -/
def extWrite (x : Ectx) (a : ExtAddr) (off : Nat) (bs : List Byte) (s : State) : Except Decision Unit × State :=
  match a with
  | .cluster u =>
    if 16 * clusterUnits < u + off + bs.length then (.error (mkDecision 3 fExternal 0), s)
    else (.ok (), clusterWrite (x.n / 8) (u + off) bs s)
  | .device d => devWrite (cmdView s x.c) (d + off) bs s

/-- A failed external access: fault 0x12 where an address failed, else the memory's own failure (R250, R260, R275). -/
def extFail (x : Ectx) (d : Decision) (s : State) : State :=
  if d.status = 3 ∨ d.status = 5 then progFault x fExternal s
  else failCmd x.c (if d.loc = 0x7F then atEngine x.n d else d) s

/-- The records of a DMA read in order. -/
def readRuns (x : Ectx) (a : ExtAddr) : List (Nat × Nat) → State → Except Decision (List Byte) × State
  | [], s => (.ok [], s)
  | (o, len) :: rest, s =>
    match extRead x a o len s with
    | (.error d, s) => (.error d, s)
    | (.ok bs, s) =>
      match readRuns x a rest s with
      | (.error d, s) => (.error d, s)
      | (.ok cs, s) => (.ok (bs ++ cs), s)

/-- The records of a DMA written in order. -/
def writeRuns (x : Ectx) (a : ExtAddr) : List (Nat × Nat) → List Byte → State → Except Decision Unit × State
  | [], _, s => (.ok (), s)
  | (o, len) :: rest, bs, s =>
    match extWrite x a o (bs.take len) s with
    | (.error d, s) => (.error d, s)
    | (.ok _, s) => writeRuns x a rest (bs.drop len) s

/-! ## DMA (R231, R232) -/

/-- The engine's DMA with this index is outstanding until WAITANY or a barrier has seen its end (log 32). -/
def noteDma (n pc : Nat) (s : State) : State :=
  updEng n (fun e => { e with dmaOut := e.dmaOut ++ [BitVec.ofNat 12 pc] }) s

/-- Bytes reach program engine `i` on engine `n` by its DMA at `pc`, or by the sequencer's multicast `cast` through the
cluster port (R273): hashed by a digested program (R365). -/
def deliverIn (cast : Bool) (k : Key) (n i pc : Nat) (ps : List (Nat × Nat)) (bs : List Byte) (s : State) : State :=
  let s := writeSpanBy cast n ps bs s
  let s := updProg k (fun p => if p.digest then { p with inBytes := addAt p.inBytes i bs } else p) s
  noteDma n pc s

def dmaOutward (x : Ectx) (a : ExtAddr) (runs : List (Nat × Nat)) (len : Nat) (s : State) : State :=
  readOp x x.ins.a len false (fun bs s =>
    match writeRuns x a runs bs s with
    | (.error d, s) => extFail x d s
    | (.ok _, s) =>
      let s := updProg x.c.key (fun p => if p.digest then
        { p with outBytes := addAt p.outBytes x.i bs, outSince := addAt p.outSince x.i bs } else p) s
      retire x (noteDma x.n x.e.pc s)) s

def dmaInward (x : Ectx) (a : ExtAddr) (runs ps : List (Nat × Nat)) (s : State) : State :=
  match readRuns x a runs s with
  | (.error d, s) => extFail x d s
  | (.ok bs, s) => retire x (deliverIn false x.c.key x.n x.i x.e.pc ps bs s)

/-- The last member of a share entry has issued its DMA: one read serves all (R232). -/
def shareEnds (x : Ectx) (a : ExtAddr) (runs : List (Nat × Nat)) (waits : List ShareWait) (s : State) : State :=
  match readRuns x a runs s with
  | (.error d, s) => extFail x d s
  | (.ok bs, s) =>
    let s := updProg x.c.key (fun p => { p with waitShare := p.waitShare.filter fun w => !decide (w ∈ waits) }) s
    waits.foldl (fun st w =>
      let n := x.p.engs.getD w.p 0
      retireWaiting 0x18 n (deliverIn true x.c.key n w.p (waitingPc (eng st n) 0x18) w.dst bs st)) s

/-- A DMA with a SHARE tag. -/
def dmaShared (x : Ectx) (tag : Nat) (a : ExtAddr) (runs ps : List (Nat × Nat)) (len : Nat) (s : State) : State :=
  match x.p.shares.find? fun e => e.1 == tag with
  | none => progFault x fShare s
  | some e =>
    if !e.2.testBit x.i then progFault x fShare s
    else
      let dev := match a with | .cluster _ => false | .device _ => true
      let addr := match a with | .cluster u => clusterBase + x.n / 8 * slotBytes + u | .device u => u
      let me : ShareWait := ⟨x.i, tag, dev, addr, x.ins.par 3 0, x.ins.par 7 4, len, ps⟩
      let waits := (x.p.waitShare.filter fun w => w.tag == tag) ++ [me]
      let same := waits.all fun w => w.device == me.device && w.addr == me.addr && w.rec' == me.rec' && w.gap == me.gap &&
        w.len == me.len
      if !same then progFault x fShare s
      else
        let s := updProg x.c.key (fun p => { p with waitShare := p.waitShare ++ [me] }) s
        let s := beginIns x s
        if waits.length = popcount 64 e.2 then shareEnds x a runs waits s else s

def dmaIns (x : Ectx) (s : State) : State :=
  let len := fld x.ins.c 23 0
  let a := dmaAddr x.e x.ins.b
  let runs := dmaRuns (x.ins.par 3 0) (x.ins.par 7 4) len
  let tag := x.ins.par 15 8
  if x.ins.flag then dmaOutward x a runs len s
  else
    match spanW x x.ins.a len with
    | .error f => progFault x f s
    | .ok ps => if tag = 0 then dmaInward x a runs ps s else dmaShared x tag a runs ps len s

/-- DMA. -/
def execDma (n : Fin 64) (s : State) : Host.Outcome State Fault Refusal := .next (withUnit 0x18 n.val dmaIns s)

/-! ## ATOMF (R233) -/

def atomfIns (x : Ectx) (s : State) : State :=
  let n := aReg x.e (x.ins.par 11 8)
  let u := atomUnit x.e x.ins.b
  readOp x x.ins.a (elemUnits n 4) false (fun bs s =>
    if 16 * clusterUnits < 16 * u + 4 * n then progFault x fExternal s
    else
      match clusterRead x.n (x.n / 8) (16 * u) (4 * n) s with
      | (.error d, s) => extFail x d s
      | (.ok old, s) =>
        let sums := ((elems 4 n old).zip (elems 4 n bs)).map fun p => (add32 (BitVec.ofNat 32 p.1) (BitVec.ofNat 32 p.2)).toNat
        retire x (clusterWrite (x.n / 8) (16 * u) (sums.flatMap (leBytes 4)) s)) s

/-- ATOMF. -/
def execAtomf (n : Fin 64) (s : State) : Host.Outcome State Fault Refusal := .next (withUnit 0x19 n.val atomfIns s)

/-! ## SPAD window registers (R286, R287) -/

/-- A window register of one engine written; its engine applies it when it next begins a command (R272). -/
def winWrite (size : Bool) (w : Nat) (v : Word) (e : Engine) : Engine :=
  if size then { e with winSize := Tab.put 0 e.winSize w (BitVec.ofNat 17 v.toNat) }
  else { e with winBase := Tab.put 0 e.winBase w (BitVec.ofNat 17 v.toNat) }

/-- A write to a device-level window register reaches every logical engine. -/
def winWriteAll (size : Bool) (w : Nat) (v : Word) (s : State) : State :=
  (List.range 64).foldl (fun st n => updEng n (winWrite size w v) st) s

/-- SPAD_WIN_WRITE. -/
def execSpadWinWrite (size : Bool) (w : Fin 16) (value : Word) (s : State) : Host.Outcome State Fault Refusal :=
  .next (if isUp s then winWriteAll size w.val value s else s)

end Sys2Proof.Machine
end

