-- ==== Sys2Proof/Machine/RegWrite.lean ====
section
/-! DEFINITION. What a write to every register of BAR0 does (R13 to R16 and the register tables). A register or bit that
no case names is read-only. -/

namespace Sys2Proof.Machine

/-- A 64-bit quantity with one word written. -/
def setWord (x : Quad) (hi : Bool) (v : Word) : Quad :=
  if hi then v ++ x.setWidth 32 else BitVec.ofNat 32 (x.toNat / 2 ^ 32) ++ v

/-! ## FE -/

def feWrite (o : Nat) (v : Word) (s : State) : State :=
  let f := s.fe
  let open' := !f.aqCtrl.getLsbD 31
  if 0x80000 ≤ o then
    (if o % 8 = 0 then bar0DbSq ((o - 0x80000) / 8) v s else bar0DbCq ((o - 0x80000) / 8) v s)
  else match o with
    | 0x04 => { s with fe := { f with status := w1c f.status (v.setWidth 6) } }
    | 0x08 => { s with fe := { f with intEn := v.setWidth 6 } }
    | 0x2C => { s with fe := { f with flogSel := v.setWidth 20 } }
    | 0x30 => { s with fe := { f with qsel := v.setWidth 16 } }
    | 0x60 => if open' then { s with fe := { f with aqSq := setWord f.aqSq false v } } else s
    | 0x64 => if open' then { s with fe := { f with aqSq := setWord f.aqSq true v } } else s
    | 0x68 => if open' then { s with fe := { f with aqCq := setWord f.aqCq false v } } else s
    | 0x6C => if open' then { s with fe := { f with aqCq := setWord f.aqCq true v } } else s
    | 0x70 => if v.getLsbD 31 then aqEnable (v.toNat % 2 ^ 31) s else aqDisable (v.toNat % 2 ^ 31) s
    | _ => s

/-! ## ICU (R419): BAR0 writes only the forwarding registers -/

/-- The registers of target `t`. -/
def icuTWrite (t o : Nat) (v : Word) (s : State) : State :=
  match o with
  | 0x00 => icuTCtrl t v s
  | 0x0C => icuComplete t (v.toNat % 1024) s
  | 0x10 => if v.getLsbD 31 then updTgt t (fun x => { x with wakeValid := false, wakeSrc := 0x3FF }) s else s
  | _ => s

/-- A write from the local port to a register other than the forwarding ones. -/
def icuLocalWrite (o : Nat) (v : Word) (s : State) : State :=
  if 0x1000 ≤ o then icuTWrite ((o - 0x1000) / 0x100) (o % 0x100) v s
  else if 0x400 ≤ o then icuSrcCfg ((o - 0x400) / 4) v s
  else if o = 0x04 then { s with icu := { s.icu with status := w1c s.icu.status (v.setWidth 3) } }
  else
    let w := o / 4 % 16
    if 0xC0 ≤ o ∧ o < 0x100 then icuPendSet w v s
    else if 0x100 ≤ o ∧ o < 0x140 then icuPendClr w v s
    else if 0x180 ≤ o ∧ o < 0x1C0 then icuEnSet w v s
    else if 0x1C0 ≤ o ∧ o < 0x200 then icuEnClr w v s
    else s

def icuRegWrite (p : Path) (o : Nat) (v : Word) (s : State) : State :=
  if o = 0x20 then { s with icu := { s.icu with hostVec := v &&& 0x800007FF } }
  else if 0x240 ≤ o ∧ o < 0x280 then
    { s with icu := { s.icu with hostEn := Tab.put 0 s.icu.hostEn (o / 4 % 16) v } }
  else match p with
    | .bar0 => icuDenied s
    | .localPort => icuLocalWrite o v s

/-! ## MEM -/

/-- MEM_BAR2_BASE with one word written: bits [39:30]. -/
def setBar2 (base : Nat) (hi : Bool) (v : Nat) : Nat :=
  if hi then v % 256 * 2 ^ 32 + base % 2 ^ 32 else base / 2 ^ 32 * 2 ^ 32 + v / 2 ^ 30 % 4 * 2 ^ 30

def memWrite (o : Nat) (v : Word) (s : State) : State :=
  let m := s.mem
  match o with
  | 0x04 => { s with mem := { m with status := w1c m.status (v.setWidth 7) } }
  | 0x08 => { s with mem := { m with intEn := v.setWidth 7 } }
  | 0x10 => { s with mem := { m with bar2Base := setBar2 m.bar2Base false v.toNat } }
  | 0x14 => { s with mem := { m with bar2Base := setBar2 m.bar2Base true v.toNat } }
  | 0x2C => if v.getLsbD 31 then { s with mem := { m with errInfo := 0, errAddr := 0 } } else s
  | 0x38 => if v.getLsbD 31 then { s with mem := { m with tfInfo := 0, tfAddr := 0 } } else s
  | _ => s

/-! ## RNG (R439, R440): RNG_CTRL and the input are SP3's -/

def rngWrite (p : Path) (o : Nat) (v : Word) (s : State) : State :=
  let r := s.rng
  if 0x40 ≤ o ∧ o < 0xC0 then
    match p with
    | .bar0 => rngFlag 6 s
    | .localPort => { s with rng := { r with katIn := Tab.put 0 r.katIn ((o - 0x40) / 4) v } }
  else match o with
    | 0x04 => { s with rng := { r with flags := w1c r.flags (v.setWidth 7 &&& 0x7D) } }
    | 0x08 => { s with rng := { r with intEn := v.setWidth 7 } }
    | 0x0C => rngCtrlWrite p v s
    | _ => s

/-! ## ANL, ARR, SPAD, the engine windows, DET -/

def anlWrite (o : Nat) (v : Word) (s : State) : State :=
  match o with
  | 0x04 => { s with anl := { s.anl with status := w1c s.anl.status (v.setWidth 6) } }
  | 0x08 => { s with anl := { s.anl with intEn := v.setWidth 6 } }
  | _ => s

def arrWrite (o : Nat) (v : Word) (s : State) : State :=
  match o with
  | 0x04 => { s with arr := { s.arr with status := w1c s.arr.status (v.setWidth 7) } }
  | 0x08 => { s with arr := { s.arr with intEn := v.setWidth 7 } }
  | _ => s

def spadRegWrite (o : Nat) (v : Word) (s : State) : State :=
  match regIndex 0x40 4 32 o with
  | some i => winWriteAll (i % 2 == 1) (i / 2) v s
  | none => s

def engWrite (n o : Nat) (v : Word) (s : State) : State :=
  match regIndex 0x2040 4 32 o with
  | some i => updEng n (winWrite (i % 2 == 1) (i / 2) v) s
  | none => if o = 0x2000 then updEng n (fun e => { e with spStatus := w1c e.spStatus (v.setWidth 3) }) s else s

def detWrite (o : Nat) (v : Word) (s : State) : State :=
  let d := s.det
  match regIndex 0x100 4 16 o with
  | some e => { s with det := { d with lsCfg := Tab.put 0x00800000 d.lsCfg e (lsCfgWord v.toNat) } }
  | none =>
    match o with
    | 0x0C => { s with det := { d with status := w1c d.status (v.setWidth 4) } }
    | 0x10 => { s with det := { d with intEn := v.setWidth 5 } }
    | 0x14 => { s with det := { d with ckpt := v.setWidth 16 } }
    | 0x40 => if v.getLsbD 31 then { s with det := { d with lsLast := 0, lsLastSeq := 0, lsLastCkpt := 0 } } else s
    | _ => s

/-! ## ING, KW, SVC, FW, BB, PWR -/

/-- A stream's registers: ING_S_CTRL starts and stops it; the others are written only while it is DISABLED (R493). -/
def streamWrite (i k : Nat) (v : Word) (s : State) : State :=
  if k = 0 then (if v.getLsbD 31 then streamEnable i v.toNat s else streamStop i v.toNat s)
  else if (strm s i).st = .disabled then updStrm i (streamWord k v.toNat) s
  else s

def ingWrite (o : Nat) (v : Word) (s : State) : State :=
  if 0x400 ≤ o ∧ o < 0x800 then streamWrite ((o - 0x400) / 0x40) (o % 0x40 / 4) v s
  else match o with
    | 0x04 => { s with ing := { s.ing with status := w1c s.ing.status (v.setWidth 4) } }
    | 0x08 => { s with ing := { s.ing with intEn := v.setWidth 4 } }
    | _ => s

def kwWrite (o : Nat) (v : Word) (s : State) : State :=
  if 0x100 ≤ o ∧ o < 0x300 then
    (if o % 0x40 = 4 ∧ v.getLsbD 1 then retrainLink ((o - 0x100) / 0x40) s else s)
  else match o with
    | 0x04 => { s with kw := { s.kw with status := w1c s.kw.status (v.setWidth 16) } }
    | 0x08 => { s with kw := { s.kw with intEn := v.setWidth 16 } }
    | _ => s

def svcWrite (o : Nat) (v : Word) (s : State) : State :=
  match o with
  | 0x04 => { s with svc := { s.svc with status := w1c s.svc.status (v.setWidth 3) } }
  | 0x08 => { s with svc := { s.svc with intEn := v.setWidth 4 } }
  | _ => s

/-- FW: from BAR0 only the flags and their enables (R526). -/
def fwWrite (p : Path) (o : Nat) (v : Word) (s : State) : State :=
  match o with
  | 0x04 => { s with boot := { s.boot with status := w1c s.boot.status (v.setWidth 5) } }
  | 0x08 => { s with boot := { s.boot with intEn := v.setWidth 5 } }
  | _ =>
    if p = .bar0 then fwFlag 4 s
    else if o = 0x20 then
      let s := if v.getLsbD 30 then confirmTrial p s else s
      if v.getLsbD 29 then abandonTrial p s else s
    else s

def bbWrite (o : Nat) (v : Word) (s : State) : State :=
  match o with
  | 0x04 => { s with bb := { s.bb with status := w1c s.bb.status (v.setWidth 3) } }
  | 0x08 => { s with bb := { s.bb with intEn := v.setWidth 3 } }
  | 0x20 => { s with bb := { s.bb with sel := v.setWidth 16 } }
  | _ => s

def pwrWrite (o : Nat) (v : Word) (s : State) : State :=
  match o with
  | 0x04 => { s with pwr := { s.pwr with status := w1c s.pwr.status (v.setWidth 7) } }
  | 0x08 => { s with pwr := { s.pwr with intEn := v.setWidth 7 } }
  | 0x0C => pwrCfg v s
  | _ => s

/-! ## The whole space -/

/-- A word of the MSI-X table; a vector it opens sends what it held pending. -/
def msixWrite (o : Nat) (v : Word) (s : State) : State :=
  if o < 0x8000 then
    msixRelease { s with host := { s.host with msixTab := msixPut s.host.msixTab (o / 16) (o / 4 % 4) v } }
  else s

/-- One 32-bit write to an occupied register. -/
def regPoke (p : Path) (a : Nat) (v : Word) (s : State) : State :=
  let o := a % 0x100000
  if 0x02000000 ≤ a then engWrite ((a - 0x02000000) / 0x10000) (a % 0x10000) v s
  else match a / 0x100000 with
    | 0x0F => msixWrite o v s
    | 0x10 => feWrite o v s
    | 0x11 => icuRegWrite p o v s
    | 0x12 => memWrite o v s
    | 0x13 => rngWrite p o v s
    | 0x14 => anlWrite o v s
    | 0x15 => arrWrite o v s
    | 0x16 => spadRegWrite o v s
    | 0x17 => detWrite o v s
    | 0x18 => ingWrite o v s
    | 0x19 => kwWrite o v s
    | 0x1A => svcWrite o v s
    | 0x1B => fwWrite p o v s
    | 0x1C => bbWrite o v s
    | 0x1D => pwrWrite o v s
    | _ => s

/-- One 32-bit write; at an offset that no register occupies it is dropped and counted (R10). -/
def regWrite32 (p : Path) (a : Nat) (v : Word) (s : State) : State :=
  match regPeek p s a with
  | none => feBadAccess s
  | some _ => regPoke p a v s

/-- A write of 4 or 8 bytes, the lower address first; any other is dropped and counted. -/
def regWrite (p : Path) (a bytes : Nat) (v : Quad) (s : State) : State :=
  if !regAligned a bytes then feBadAccess s
  else
    let s := regWrite32 p a (v.setWidth 32) s
    if bytes = 4 then s else regWrite32 p (a + 4) (BitVec.ofNat 32 (v.toNat / 2 ^ 32)) s

/-- REGISTER_WRITE. -/
def execRegisterWrite (path : Path) (addr bytes : Nat) (value : Quad) (s : State) : Host.Outcome State Fault Refusal :=
  .next (if pathUp s path then regWrite path addr bytes value s else s)

/-- Does an access meet no register at all (R10)? -/
def regBad (s : State) (a bytes : Nat) : Bool :=
  !regAligned a bytes || ((regPeek .bar0 s a).isNone && (bytes == 4 || (regPeek .bar0 s (a + 4)).isNone))

/-- BAD_REGISTER_ACCESS: a read of 0 or a dropped write, counted; each half of an aligned 64-bit access is one access
(R9). -/
def execBadRegisterAccess (write : Bool) (addr bytes : Nat) (s : State) : Host.Outcome State Fault Refusal :=
  .next (if isUp s && regBad s addr bytes then
    let s := feBadAccess (if regAligned addr bytes && bytes == 8 then feBadAccess s else s)
    if write then s else emit (.readData .bar0 0) s
  else s)

end Sys2Proof.Machine
end

