-- ==== Sys2Proof/Machine/Dispatch.lean ====
section
/-! DEFINITION. One arm per command of the table: each calls its meaning (95). -/

namespace Sys2Proof.Machine

def exec (i : Instr) (s : State) : Host.Outcome State Fault Refusal :=
  match i with
  | .powerOn => Sys2Proof.Machine.execPowerOn s
  | .resetN lowNs => Sys2Proof.Machine.execResetN lowNs s
  | .boot f => Sys2Proof.Machine.execBoot f s
  | .extentZeroed ext => Sys2Proof.Machine.execExtentZeroed ext s
  | .watchdog proc => Sys2Proof.Machine.execWatchdog proc s
  | .trialTimeout => Sys2Proof.Machine.execTrialTimeout s
  | .confirm path => Sys2Proof.Machine.execConfirm path s
  | .abandon path => Sys2Proof.Machine.execAbandon path s
  | .registerWrite path addr bytes value => Sys2Proof.Machine.execRegisterWrite path addr bytes value s
  | .badRegisterAccess write addr bytes => Sys2Proof.Machine.execBadRegisterAccess write addr bytes s
  | .lowWordRead path addr bytes => Sys2Proof.Machine.execLowWordRead path addr bytes s
  | .bar2Access off write len data => Sys2Proof.Machine.execBar2Access off write len data s
  | .atsInvalidation addr size => Sys2Proof.Machine.execAtsInvalidation addr size s
  | .functionLevelReset => Sys2Proof.Machine.execFunctionLevelReset s
  | .perstN => Sys2Proof.Machine.execPerstN s
  | .hostReadTimeout k addr => Sys2Proof.Machine.execHostReadTimeout k addr s
  | .feDbSq q t => Sys2Proof.Machine.execFeDbSq q t s
  | .feDbCq q h => Sys2Proof.Machine.execFeDbCq q h s
  | .feAqEnable value => Sys2Proof.Machine.execFeAqEnable value s
  | .feAqDisable value => Sys2Proof.Machine.execFeAqDisable value s
  | .commandFetch q => Sys2Proof.Machine.execCommandFetch q s
  | .admission => Sys2Proof.Machine.execAdmission s
  | .commandStart k place => Sys2Proof.Machine.execCommandStart k place s
  | .commandTimeout k => Sys2Proof.Machine.execCommandTimeout k s
  | .drainTimeout k => Sys2Proof.Machine.execDrainTimeout k s
  | .copyDone k => Sys2Proof.Machine.execCopyDone k s
  | .queueCreate k => Sys2Proof.Machine.execQueueCreate k s
  | .queueDestroy k => Sys2Proof.Machine.execQueueDestroy k s
  | .queueReset k => Sys2Proof.Machine.execQueueReset k s
  | .map k => Sys2Proof.Machine.execMap k s
  | .unmap k => Sys2Proof.Machine.execUnmap k s
  | .unmapComplete k => Sys2Proof.Machine.execUnmapComplete k s
  | .fenceSet k => Sys2Proof.Machine.execFenceSet k s
  | .peerBind k => Sys2Proof.Machine.execPeerBind k s
  | .modelLoad k => Sys2Proof.Machine.execModelLoad k s
  | .modelLoadEnd k => Sys2Proof.Machine.execModelLoadEnd k s
  | .modelUnload k => Sys2Proof.Machine.execModelUnload k s
  | .runAnneal k => Sys2Proof.Machine.execRunAnneal k s
  | .runProgram k => Sys2Proof.Machine.execRunProgram k s
  | .pause k => Sys2Proof.Machine.execPause k s
  | .resume k => Sys2Proof.Machine.execResume k s
  | .copy k => Sys2Proof.Machine.execCopy k s
  | .nop k => Sys2Proof.Machine.execNop k s
  | .peerSignal k => Sys2Proof.Machine.execPeerSignal k s
  | .abort k => Sys2Proof.Machine.execAbort k s
  | .turn k => Sys2Proof.Machine.execTurn k s
  | .sweepBoundary k => Sys2Proof.Machine.execSweepBoundary k s
  | .bestStateCopy k rowBlock => Sys2Proof.Machine.execBestStateCopy k rowBlock s
  | .engineFailure phys => Sys2Proof.Machine.execEngineFailure phys s
  | .openGroup n begins => Sys2Proof.Machine.execOpenGroup n s begins
  | .mma n begins => Sys2Proof.Machine.execMma n s begins
  | .drain n begins => Sys2Proof.Machine.execDrain n s begins
  | .sample n begins => Sys2Proof.Machine.execSample n s begins
  | .discard n => Sys2Proof.Machine.execDiscard n s
  | .red n => Sys2Proof.Machine.execRed n s
  | .vop n => Sys2Proof.Machine.execVop n s
  | .dma n => Sys2Proof.Machine.execDma n s
  | .atomf n => Sys2Proof.Machine.execAtomf n s
  | .set n => Sys2Proof.Machine.execSet n s
  | .add n => Sys2Proof.Machine.execAdd n s
  | .ld n => Sys2Proof.Machine.execLd n s
  | .st n => Sys2Proof.Machine.execSt n s
  | .br n => Sys2Proof.Machine.execBr n s
  | .loop n => Sys2Proof.Machine.execLoop n s
  | .bar n => Sys2Proof.Machine.execBar n s
  | .claim n => Sys2Proof.Machine.execClaim n s
  | .waitany n ended => Sys2Proof.Machine.execWaitany n ended s
  | .time n => Sys2Proof.Machine.execTime n s
  | .endProgram n => Sys2Proof.Machine.execEndProgram n s
  | .park n g => Sys2Proof.Machine.execPark n g s
  | .unpark n g ecc => Sys2Proof.Machine.execUnpark n g ecc s
  | .refresh ch => Sys2Proof.Machine.execRefresh ch s
  | .scrubRead ch => Sys2Proof.Machine.execScrubRead ch s
  | .wipeCheck clean => Sys2Proof.Machine.execWipeCheck clean s
  | .tamper lowNs => Sys2Proof.Machine.execTamper lowNs s
  | .record port udp payload head => Sys2Proof.Machine.execRecord port udp payload s head
  | .reasmTimeout si frameSeq => Sys2Proof.Machine.execReasmTimeout si frameSeq s
  | .frameCommit si => Sys2Proof.Machine.execFrameCommit si s
  | .streamEnable si value => Sys2Proof.Machine.execStreamEnable si value s
  | .streamStop si value => Sys2Proof.Machine.execStreamStop si value s
  | .submit d => Sys2Proof.Machine.execSubmit d s
  | .poll d => Sys2Proof.Machine.execPoll d s
  | .pauseFrame port => Sys2Proof.Machine.execPauseFrame port s
  | .arpRequest port src target tags => Sys2Proof.Machine.execArpRequest port src target tags s
  | .neighborSolicitation port src target tags => Sys2Proof.Machine.execNeighborSolicitation port src target tags s
  | .badFcsFrame port codewords => Sys2Proof.Machine.execBadFcsFrame port s codewords
  | .droppedDatagram d => Sys2Proof.Machine.execDroppedDatagram d s
  | .signalDetect l => Sys2Proof.Machine.execSignalDetect l s
  | .equalizeDone l => Sys2Proof.Machine.execEqualizeDone l s
  | .alignDone l reversed => Sys2Proof.Machine.execAlignDone l reversed s
  | .identifyDone l p => Sys2Proof.Machine.execIdentifyDone l p s
  | .trainingTimeout l => Sys2Proof.Machine.execTrainingTimeout l s
  | .holdoffEnd l => Sys2Proof.Machine.execHoldoffEnd l s
  | .retrain l => Sys2Proof.Machine.execRetrain l s
  | .laneLoss l => Sys2Proof.Machine.execLaneLoss l s
  | .dataFlit l f byteErrors => Sys2Proof.Machine.execDataFlit l f byteErrors s
  | .idleFlit l f byteErrors => Sys2Proof.Machine.execIdleFlit l f byteErrors s
  | .retryReq l f byteErrors => Sys2Proof.Machine.execRetryReq l f byteErrors s
  | .retryTimeout l => Sys2Proof.Machine.execRetryTimeout l s
  | .alignmentFlit l => Sys2Proof.Machine.execAlignmentFlit l s
  | .jobMessage l => Sys2Proof.Machine.execJobMessage l s
  | .jobReply l => Sys2Proof.Machine.execJobReply l s
  | .peerSignalMessage l => Sys2Proof.Machine.execPeerSignalMessage l s
  | .signalAck l => Sys2Proof.Machine.execSignalAck l s
  | .checkpointMessage l => Sys2Proof.Machine.execCheckpointMessage l s
  | .cmdEnd l => Sys2Proof.Machine.execCmdEnd l s
  | .splitJoin l => Sys2Proof.Machine.execSplitJoin l s
  | .splitSpins l => Sys2Proof.Machine.execSplitSpins l s
  | .splitEnergy l => Sys2Proof.Machine.execSplitEnergy l s
  | .splitFail l => Sys2Proof.Machine.execSplitFail l s
  | .getStatus r => Sys2Proof.Machine.execGetStatus r s
  | .setGlobalTimeout r => Sys2Proof.Machine.execSetGlobalTimeout r s
  | .setCarafeCrypt r => Sys2Proof.Machine.execSetCarafeCrypt r s
  | .setKwPolicy r => Sys2Proof.Machine.execSetKwPolicy r s
  | .setEthAddr r => Sys2Proof.Machine.execSetEthAddr r s
  | .setJobKey r => Sys2Proof.Machine.execSetJobKey r s
  | .installCert r => Sys2Proof.Machine.execInstallCert r s
  | .stageTable r => Sys2Proof.Machine.execStageTable r s
  | .commitTable r => Sys2Proof.Machine.execCommitTable r s
  | .takeOwnership r => Sys2Proof.Machine.execTakeOwnership r s
  | .releaseOwnership r => Sys2Proof.Machine.execReleaseOwnership r s
  | .decommission r => Sys2Proof.Machine.execDecommission r s
  | .setOwnerLock r => Sys2Proof.Machine.execSetOwnerLock r s
  | .clearOwnerLock r => Sys2Proof.Machine.execClearOwnerLock r s
  | .updateBegin r => Sys2Proof.Machine.execUpdateBegin r s
  | .updateBlock r => Sys2Proof.Machine.execUpdateBlock r s
  | .updateCommit r => Sys2Proof.Machine.execUpdateCommit r s
  | .updateActivate r => Sys2Proof.Machine.execUpdateActivate r s
  | .updateCancel r => Sys2Proof.Machine.execUpdateCancel r s
  | .setConfirmWindow r => Sys2Proof.Machine.execSetConfirmWindow r s
  | .updateStatus r => Sys2Proof.Machine.execUpdateStatus r s
  | .bbRead r => Sys2Proof.Machine.execBbRead r s
  | .messageArrival src => Sys2Proof.Machine.execMessageArrival src s
  | .levelAssert src => Sys2Proof.Machine.execLevelAssert src s
  | .levelDrop src => Sys2Proof.Machine.execLevelDrop src s
  | .delivery => Sys2Proof.Machine.execDelivery s
  | .targetAwake t => Sys2Proof.Machine.execTargetAwake t s
  | .targetSleep t => Sys2Proof.Machine.execTargetSleep t s
  | .icuTClaim path t => Sys2Proof.Machine.execIcuTClaim path t s
  | .icuTComplete path t value => Sys2Proof.Machine.execIcuTComplete path t value s
  | .icuPendSet path w mask => Sys2Proof.Machine.execIcuPendSet path w mask s
  | .icuPendClr path w mask => Sys2Proof.Machine.execIcuPendClr path w mask s
  | .icuEnSet path w mask => Sys2Proof.Machine.execIcuEnSet path w mask s
  | .icuEnClr path w mask => Sys2Proof.Machine.execIcuEnClr path w mask s
  | .icuTCtrlWrite path t value => Sys2Proof.Machine.execIcuTCtrlWrite path t value s
  | .icuSrcCfgWrite path src value => Sys2Proof.Machine.execIcuSrcCfgWrite path src value s
  | .blockPeriod raw => Sys2Proof.Machine.execBlockPeriod raw s
  | .startupTestEnd katOk => Sys2Proof.Machine.execStartupTestEnd katOk s
  | .failRunClear => Sys2Proof.Machine.execFailRunClear s
  | .rngRequest port => Sys2Proof.Machine.execRngRequest port s
  | .rngSwStatRead path bytes => Sys2Proof.Machine.execRngSwStatRead path bytes s
  | .rngSwDataRead path => Sys2Proof.Machine.execRngSwDataRead path s
  | .katEntry path len => Sys2Proof.Machine.execKatEntry path len s
  | .katExit path len => Sys2Proof.Machine.execKatExit path len s
  | .katGo path len => Sys2Proof.Machine.execKatGo path len s
  | .blotterWrite => Sys2Proof.Machine.execBlotterWrite s
  | .suppressed => Sys2Proof.Machine.execSuppressed s
  | .powerSample p => Sys2Proof.Machine.execPowerSample p s
  | .pointSet value => Sys2Proof.Machine.execPointSet value s
  | .thermtrip sensor temp vio => Sys2Proof.Machine.execThermtrip sensor temp vio s
  | .brownout rail vioHeld => Sys2Proof.Machine.execBrownout rail vioHeld s
  | .railRestored rail => Sys2Proof.Machine.execRailRestored s rail
  | .holdup => Sys2Proof.Machine.execHoldup s
  | .holdupRelease => Sys2Proof.Machine.execHoldupRelease s
  | .lowVoltage => Sys2Proof.Machine.execLowVoltage s
  | .lowVoltageRelease => Sys2Proof.Machine.execLowVoltageRelease s
  | .refclkLost => Sys2Proof.Machine.execRefclkLost s
  | .refclkRestored => Sys2Proof.Machine.execRefclkRestored s
  | .domainWake d => Sys2Proof.Machine.execDomainWake d s
  | .domainFault d => Sys2Proof.Machine.execDomainFault d s
  | .domainOff d => Sys2Proof.Machine.execDomainOff d s
  | .idleOff n => Sys2Proof.Machine.execIdleOff n s
  | .spadWinWrite size w value => Sys2Proof.Machine.execSpadWinWrite size w value s
  | .copyStopsAtBoundary k done => Sys2Proof.Machine.execCopyStopsAtBoundary k done s
  | .unknownOp op r => Sys2Proof.Machine.execUnknownOp op r s

end Sys2Proof.Machine
end

