-- ==== Sys2Proof/Safety.lean ====
section
/-! DEFINITION. What counts as a safe run, and the invariants that claims are stated in. -/

namespace Sys2Proof.Machine

/-- A step that answers a next state. -/
def stepAnswers (s : State) : Prop := ∃ t, step s = .next t

/-- A run of `n` steps is safe: every one of them answers a next state. -/
def runSafe (n : Nat) (s : State) : Prop := ∃ t, Host.Core.run core n s = .next t

/-- The byte memories are in their canonical form: addresses strictly rising, no byte listed that an unlisted address
reads as. -/
def Memory.wf (s : State) : Bool :=
  Tab.wf 0 s.mem.carafe && Tab.wf 0 s.mem.cluster && Tab.wf 0 s.mem.spad && Tab.wf 0 s.host.mem

/-- The fuses' one-way rules between two states: the lowest admissible version never falls (R511, R516), a
decommissioned part stays so (R503), and the other fuses never change. -/
def fusesOneWay (s t : State) : Prop :=
  s.fuse.svnMin ≤ t.fuse.svnMin ∧ (s.fuse.decommissioned = true → t.fuse.decommissioned = true) ∧
  t.fuse.serial = s.fuse.serial ∧ t.fuse.badEngines = s.fuse.badEngines ∧ t.fuse.mac = s.fuse.mac ∧
  t.fuse.vendorKey = s.fuse.vendorKey ∧ t.fuse.repairs = s.fuse.repairs

/-- A part is in the DECOMMISSIONED state only with the fuse, and with the fuse it never runs again and never enters
RECOVERY (R503). -/
def lifeInv (s : State) : Prop :=
  (s.boot.phase = .decommissioned → s.fuse.decommissioned = true) ∧
  (s.fuse.decommissioned = true → s.boot.phase ≠ .running ∧ s.boot.phase ≠ .recovery)

/-- Logical engine `n` issues a control instruction of opcode `op`: `x` is what the instruction sees and `u` the state
after its fetch from the scratchpad (R206). -/
def issuing (op n : Nat) (s : State) (x : Ectx) (u : State) : Prop :=
  ∃ c p bs, progOf s n = some (c, p) ∧ mayIssue s n c p = true ∧
    spadRead n (16 * (imgBase p.image + (eng s n).pc)) 16 s = (.ok bs, u) ∧ (insOf bs).op = op ∧
    x = ⟨c, p, n, (eng s n).progEngine, eng u n, insOf bs, 0, false⟩

/-- From `s` to `t` only engine `n`'s record changes, to `e`. -/
def engineBecomes (n : Nat) (e : Engine) (s t : State) : Prop :=
  eng t n = e ∧ (∀ m, m ≠ n → eng t m = eng s m) ∧ t = { s with eng := t.eng }

/-- An engine's record when its control instruction is done and the next one follows. -/
def Engine.onward (e : Engine) : Engine := { e with pc := e.pc + 1, pst := .run }

/-- An instruction of opcode `op` goes on in its unit of logical engine `n` (R207, R208): one that was issued before and has
nothing in its way, or the one at the PC, issued now; `begins` asks for one that has not begun. `x` is what it sees and `u`
the state it starts from. Its program has not been decided yet. -/
def working (op n : Nat) (s : State) (x : Ectx) (u : State) (begins : Bool := false) : Prop :=
  unitGo op n s begins = .run x u ∧ x.c.decided = none

/-- An engine's record when the unfinished instruction at a place has finished. -/
def Engine.retired (e : Engine) (ix : Nat) : Engine := { e with units := e.units.eraseIdx ix }

end Sys2Proof.Machine
end

