-- ==== Sys2Proof/Certificates/Slice0/Obligations.lean ====
section
/-! DEFINITION. The statements for the provers. Each is a closed proposition about the machine; which rules of the
specification it states is in OBLIGATIONS.json. -/

open Sys2Proof Sys2Proof.Machine

/-! ## The whole machine -/

/-- O1. One step takes the command at the front of the queue and runs its meaning on the state with the queue's rest.
-/
def Obligations.StepRunsFrontCommand : Prop :=
  ∀ (c : Instr) (rest : List Instr) (s : State), s.pending = c :: rest →
    step s = exec c { s with pending := rest }

/-- O2. No command ever ends in a fault or a refusal: in every state, reachable or not, each answers a next state. On
an empty queue one 10 ns tick of the reference passes (the model's choice, log 2); nothing but the random number
generator's waiting software reads and what they answer can change with it, and with none at its end nothing else does.
Time never falls, and only the sender adds commands: a step leaves the rest of the queue as it was. -/
def Obligations.EveryStepAnswers : Prop :=
  (∀ (c : Instr) (s : State), ∃ t, exec c s = .next t) ∧
  (∀ s : State, s.pending = [] →
    (∃ t, step s = .next t ∧ t = { s with now := s.now + 1, rng := t.rng, sent := t.sent }) ∧
    ((∀ w ∈ s.rng.swWait, s.now + 1 < w.2.2 + 1600) → step s = .next { s with now := s.now + 1 })) ∧
  (∀ s t : State, step s = .next t → s.now ≤ t.now ∧ t.pending = s.pending.tail)

/-- O3. The canonical form of the byte memories (Carafe, cluster memory, scratchpads, host memory) is kept by every
step, whatever command is in front. -/
def Obligations.MemoryCanonicalKept : Prop :=
  ∀ s t : State, Memory.wf s = true → step s = .next t → Memory.wf t = true

/-- O4. The memory of State.reset is in its canonical form, and its lifecycle keeps the rule of R503. -/
def Obligations.InvariantsAtReset : Prop :=
  (Memory.wf State.reset = true) ∧
  (lifeInv State.reset)

/-- O5. No step lowers SVN_MIN, takes back a decommissioning, or changes another fuse of the part. -/
def Obligations.FusesOneWay : Prop :=
  ∀ s t : State, step s = .next t → fusesOneWay s t

/-- O6. R503's lifecycle rule is kept by every step: a part is in DECOMMISSIONED only with the fuse, and with the fuse
it is never running and never in RECOVERY. -/
def Obligations.LifecycleKept : Prop :=
  ∀ s t : State, lifeInv s → step s = .next t → lifeInv t

/-! ## Resets and boot -/

/-- O7. POWER_ON runs the boot sequence with cause 0 (R496): Carafe, cluster memory, scratchpads, queues, commands,
fences, models and registers hold their reset values; fuses, flash, the Blotter's slots and the host's memory stay.
RESET_N low for at least 1 µs resets with cause 1 (R496, R553) unless a brown-out holds the part, and ends a thermal
trip's hold (R532, R543); the TRNG (R429, R563), the counters that run since power-on (R134, R201) and the domains of
the memory controllers (R546) stay, all other domains are off; what the rules name no reset for is kept (log 27). A
shorter pulse does nothing. The resets that the E64 starts itself: an expired watchdog with cause 4, an expired trial
timer and an ABANDON from the local port with cause 3 (R496, R500, R514). The part boots again; fuses stay. -/
def Obligations.ResetCauses : Prop :=
  (∀ s : State, ∃ t, exec .powerOn s = .next t ∧ t.boot.phase = .booting ∧ t.boot.cause = 0 ∧ t.boot.t0 = s.now ∧
     t.mem = MemSt.reset ∧ t.queues = [] ∧ t.cmds = [] ∧ t.fences = [] ∧ t.bindings = [] ∧ t.models = [] ∧ t.eng = [] ∧
     t.fe = FeSt.reset ∧ t.arr = ArrSt.reset ∧ t.anl = AnlSt.reset ∧ t.det = DetSt.reset ∧ t.icu = IcuSt.reset ∧
     t.rng = RngSt.reset ∧ t.ing = IngSt.reset ∧ t.kw = KwSt.reset ∧ t.svc = SvcSt.reset ∧ t.pwr.dom = [] ∧
     t.boot.latched = [] ∧
     t.fuse = s.fuse ∧ t.flash = s.flash ∧ t.bb.slots = s.bb.slots ∧ t.host.mem = s.host.mem ∧ t.sent = s.sent) ∧
  (∀ (lowNs : Nat) (s : State),
     (1000 ≤ lowNs → s.boot.brown = [] → ∃ t, exec (.resetN lowNs) s = .next t ∧ t.boot.phase = .booting ∧
       t.boot.cause = 1 ∧ t.pwr.thermtrip = false ∧ t.boot.thermal = false ∧ t.rng = s.rng ∧
       t.anl.sweeps = s.anl.sweeps ∧ t.arr.steps = s.arr.steps ∧ t.mem.carafe = [] ∧ t.mem.spad = [] ∧ t.cmds = [] ∧
       (∀ d, domState t d = if 80 ≤ d ∧ d < 86 then domState s d else .off) ∧
       t.fuse = s.fuse ∧ t.flash = s.flash ∧ t.host.mem = s.host.mem) ∧
     (1000 ≤ lowNs → s.boot.brown ≠ [] → exec (.resetN lowNs) s =
       .next { s with pwr := { s.pwr with thermtrip := false }, boot := { s.boot with thermal := false } }) ∧
     (lowNs < 1000 → exec (.resetN lowNs) s = .next s)) ∧
  ((∀ (p : Fin 5) (s : State), isUp s = true → ∃ t, exec (.watchdog p) s = .next t ∧ t.boot.phase = .booting ∧
     t.boot.cause = 4 ∧ t.flash.watchdogs = (s.flash.watchdogs ++ [s.now]).drop (s.flash.watchdogs.length - 2) ∧
     t.fuse = s.fuse) ∧
   (∀ s : State, isUp s = true → s.boot.trial = true → ∃ t, exec .trialTimeout s = .next t ∧
     t.boot.phase = .booting ∧ t.boot.cause = 3 ∧ t.boot.trial = false ∧ t.fuse = s.fuse) ∧
   (∀ s : State, isUp s = true → s.boot.trial = true → ∃ t, exec (.abandon .localPort) s = .next t ∧
     t.boot.phase = .booting ∧ t.boot.cause = 3 ∧ t.boot.trial = false ∧ t.fuse = s.fuse) ∧
   (∀ s : State, isUp s = true → exec (.abandon .bar0) s = .next (fwFlag 4 s)))

/-- O8. CONFIRM from the local port during a trial whose checks of R515 hold (R516): the trial slot becomes ACTIVE, the
former ACTIVE slot BACKUP unless its SVN has fallen below SVN_MIN, then REJECTED; SVN_MIN rises to the image's SVN and
never falls; the timer stops; the newer copy of the slot directory says so (R508). With a check lost, or with no trial,
nothing happens. From BAR0 it is dropped and sets DENIED (R526). -/
def Obligations.ConfirmEndsTrial : Prop :=
  (∀ s : State, s.boot.trial = true → trialHealthy s = true → s.boot.slot < 2 →
    slotIn s .active = some (1 - s.boot.slot) → ∃ t, exec (.confirm .localPort) s = .next t ∧
      t.boot.trial = false ∧ t.boot.phase = .running ∧
      (slotOf t s.boot.slot).st = .active ∧ (slotOf t s.boot.slot).image = (slotOf s s.boot.slot).image ∧
      t.fuse.svnMin.toNat = max s.fuse.svnMin.toNat (slotSvn (slotOf s s.boot.slot)) ∧
      (slotOf t (1 - s.boot.slot)).st =
        (if slotSvn (slotOf s (1 - s.boot.slot)) < t.fuse.svnMin.toNat then .rejected else .backup) ∧
      (newestDir t.flash).st0 = t.flash.slot0.st ∧ (newestDir t.flash).st1 = t.flash.slot1.st ∧
      t.boot.status = s.boot.status ||| 4) ∧
  (∀ s : State, s.boot.trial = false ∨ trialHealthy s = false → exec (.confirm .localPort) s = .next s) ∧
  (∀ s : State, isUp s = true → exec (.confirm .bar0) s = .next (fwFlag 4 s))

/-- O9. BOOT (R497 to R500, R502, R503, R508, R513, R515, R517): the slots are those of the newer copy of the directory; one
that was RECEIVING is emptied and a trial not confirmed is rejected, whatever follows; a decommissioned part runs
nothing; three watchdog resets within 600 s lead to RECOVERY; a PENDING image that verifies starts as a trial, which
resets the part with cause 3 at once where a check of its health is lost; else an ACTIVE one that verifies starts, a
PENDING one that does not verify being REJECTED; else a BACKUP one that verifies starts and becomes ACTIVE; with no image
to start the part enters RECOVERY. The count of boots rises and no fuse changes. That the third watchdog reset is the one
that leads to RECOVERY, which empties their list, and that the slots are settled before it, is the model's choice (log
28). -/
def Obligations.BootOutcome : Prop :=
  ∀ (f : BootFindings) (a : State), a.boot.phase = .booting → ∃ t, exec (.boot f) a = .next t ∧
    let s := readDir a
    t.fuse = a.fuse ∧ t.flash.bootCount = min (a.flash.bootCount + 1) 0xFFFFFFF ∧
    (slotOf s 0).st = (newestDir a.flash).st0 ∧ (slotOf s 1).st = (newestDir a.flash).st1 ∧
    (∀ i, i < 2 → ((slotOf s i).st = .receiving → (slotOf t i).st = .empty) ∧
      ((slotOf s i).st = .trial → (slotOf t i).st = .rejected)) ∧
    (s.fuse.decommissioned = true → t.boot.phase = .decommissioned) ∧
    (s.fuse.decommissioned = false → watchdogRule s = true → t.boot.phase = .recovery ∧ t.flash.watchdogs = []) ∧
    (s.fuse.decommissioned = false → watchdogRule s = false →
      (∀ i, slotIn s .pending = some i → bootable s (slotOf s i) = true →
        (t.boot.phase = .running ∧ t.boot.slot = i ∧ t.boot.trial = true) ∨ (t.boot.phase = .booting ∧ t.boot.cause = 3)) ∧
      (∀ i, slotIn s .pending = some i → bootable s (slotOf s i) = true → f.trained ≠ 0xFFFFFF →
        t.boot.phase = .booting ∧ t.boot.cause = 3) ∧
      (∀ i, slotIn s .pending = some i → bootable s (slotOf s i) = true → f.trained = 0xFFFFFF → s.rng.st ≠ .fatal →
        s.flash.lastOnline = 0 → s.flash.table = [] → s.boot.tableFails ≤ s.flash.lastFails →
        t.boot.phase = .running ∧ t.boot.slot = i ∧ t.boot.trial = true ∧ (slotOf t i).st = .trial) ∧
      (∀ i, slotIn s .pending = none → slotIn s .active = some i → bootable s (slotOf s i) = true →
        t.boot.phase = .running ∧ t.boot.slot = i ∧ t.boot.trial = false) ∧
      (∀ j i, slotIn s .pending = some j → bootable s (slotOf s j) = false → slotIn s .active = some i →
        bootable s (slotOf s i) = true → t.boot.phase = .running ∧ t.boot.slot = i ∧ t.boot.trial = false ∧
          (slotOf t i).st = .active ∧ (slotOf t j).st = .rejected) ∧
      (∀ i, slotIn s .backup = some i → bootable s (slotOf s i) = true →
        (∀ j, j < 2 → bootable s (slotOf s j) = true → (slotOf s j).st ≠ .pending ∧ (slotOf s j).st ≠ .active) →
          t.boot.phase = .running ∧ t.boot.slot = i ∧ t.boot.trial = false ∧ (slotOf t i).st = .active) ∧
      ((∀ i, bootable s (slotOf s i) = true → (slotOf s i).st ≠ .pending ∧ (slotOf s i).st ≠ .active ∧
        (slotOf s i).st ≠ .backup) → t.boot.phase = .recovery))

/-! ## Registers, BAR2 and PCIe -/

/-- O10. A 4-byte BAR0 write to a block's STATUS register clears exactly the bits written as 1 (the W1C code of R14)
and changes nothing else; a write to its INT_EN register stores the value's bits. Shown for FE, MEM, ANL, ARR and PWR.
An access that R9 does not accept, or an aligned 4-byte one where no register is, reads 0, drops its write and is
counted in FE_BAD_ACCESS once; nothing else changes (R10). Reading the low word of a 64-bit quantity latches the high
word of the same instant, and the next read of the high word on the same path returns the latched word, whatever the
quantity is by then (R11); that each path has a latch of its own, which the high read uses up, is the model's choice (log
37). -/
def Obligations.RegisterAccess : Prop :=
  (∀ (v : Quad) (s : State), isUp s = true →
     exec (.registerWrite .bar0 0x01000004 4 v) s =
       .next { s with fe := { s.fe with status := s.fe.status &&& ~~~(v.setWidth 6) } } ∧
     exec (.registerWrite .bar0 0x01000008 4 v) s = .next { s with fe := { s.fe with intEn := v.setWidth 6 } } ∧
     exec (.registerWrite .bar0 0x01200004 4 v) s =
       .next { s with mem := { s.mem with status := s.mem.status &&& ~~~(v.setWidth 7) } } ∧
     exec (.registerWrite .bar0 0x01400004 4 v) s =
       .next { s with anl := { s.anl with status := s.anl.status &&& ~~~(v.setWidth 6) } } ∧
     exec (.registerWrite .bar0 0x01500004 4 v) s =
       .next { s with arr := { s.arr with status := s.arr.status &&& ~~~(v.setWidth 7) } } ∧
     exec (.registerWrite .bar0 0x01D00004 4 v) s =
       .next { s with pwr := { s.pwr with status := s.pwr.status &&& ~~~(v.setWidth 7) } }) ∧
  (∀ (a bytes : Nat) (v : Quad) (s : State), isUp s = true →
     (regAligned a bytes = false ∨ (bytes = 4 ∧ a % 4 = 0 ∧ regPeek .bar0 s a = none)) →
     let t := feFlag 2 { s with fe := { s.fe with badAccess := satInc s.fe.badAccess } }
     exec (.registerWrite .bar0 a bytes v) s = .next t ∧
     exec (.badRegisterAccess true a bytes) s = .next t ∧
     exec (.badRegisterAccess false a bytes) s = .next { t with sent := s.sent ++ [.readData .bar0 0] } ∧
     exec (.lowWordRead .bar0 a bytes) s = .next { t with sent := s.sent ++ [.readData .bar0 0] }) ∧
  (∀ (p : Path) (a v h : Nat) (s : State), pathUp s p = true → a % 4 = 0 → regLow a = true →
     regPeek p s a = some v → regPeek p s (a + 4) = some h →
     (∃ t, exec (.lowWordRead p a 4) s = .next t ∧ t.sent = s.sent ++ [.readData p ((BitVec.ofNat 32 v).setWidth 64)] ∧
       t.mem = s.mem ∧ t.anl = s.anl ∧ t.queues = s.queues ∧
       Tab.get none t.fe.latch (latchKey p (a + 4)) = some (BitVec.ofNat 32 h)) ∧
     (∀ (w : Word) (u : State), pathUp u p = true → (regPeek p u (a + 4)).isSome = true →
       Tab.get none u.fe.latch (latchKey p (a + 4)) = some w → ∃ t, exec (.lowWordRead p (a + 4) 4) u = .next t ∧
         t.sent = u.sent ++ [.readData p (w.setWidth 64)] ∧
         Tab.get none t.fe.latch (latchKey p (a + 4)) = none))

/-- O11. A BAR2 write at offset x goes to context 0 device address MEM_BAR2_BASE + x (R246): the bytes of the places
found there are written. Where the access may not go it is dropped, reads 0 and is counted in MEM_BAR2_DENIED (R247);
nothing is stored then. That a place whose power domain is not on keeps nothing and reads free bytes is the model's choice
(log 72). -/
def Obligations.Bar2AccessPlace : Prop :=
  ∀ (off len : Nat) (data : List Byte) (s : State), isUp s = true →
    (off + data.length ≤ 2 ^ s.host.bar2Log →
      (∀ ps, bar2Places s true (bar2Base s + off) data.length = some ps →
        exec (.bar2Access off true len data) s = .next (writePlaces ps data s)) ∧
      (bar2Places s true (bar2Base s + off) data.length = none → ∃ t, exec (.bar2Access off true len data) s = .next t ∧
        t.mem.bar2Denied = satInc s.mem.bar2Denied ∧ t.mem.carafe = s.mem.carafe ∧ t.mem.spad = s.mem.spad ∧
        t.mem.cluster = s.mem.cluster ∧ t.sent = s.sent)) ∧
    (off + len ≤ 2 ^ s.host.bar2Log →
      (∀ ps bs t, bar2Places s false (bar2Base s + off) len = some ps → readPlaces 1 ps s = (.ok bs, t) →
        exec (.bar2Access off false len data) s = .next { t with sent := t.sent ++ [.bar2Data bs false] }) ∧
      (bar2Places s false (bar2Base s + off) len = none → ∃ t, exec (.bar2Access off false len data) s = .next t ∧
        t.mem.bar2Denied = satInc s.mem.bar2Denied ∧ t.sent = s.sent ++ [.bar2Data (List.replicate len 0) false] ∧
        t.mem.carafe = s.mem.carafe ∧ t.mem.spad = s.mem.spad ∧ t.mem.cluster = s.mem.cluster))

/-- O12. A Function Level Reset and PERST_N reset the function alike (R449, R553). With no command in flight: every
queue bound to PCIe is UNUSED afterwards, each with its destruction record in the fault log, FE_AQ_CTRL.ENABLE and the
function's configuration are cleared, and models, fences and memories stay (one entry of the fault log per queue, and
PERST_N doing the same, are the model's choice, log 33; the values that the configuration takes are log 4). An ATS
invalidation drops the translations of its pages and is answered (R447). -/
def Obligations.FunctionReset : Prop :=
  (∀ s : State, isUp s = true → exec .functionLevelReset s = .next (pcieReset s) ∧
    exec .perstN s = .next (pcieReset s)) ∧
  (∀ s : State, isUp s = true → s.cmds = [] → ∃ t, exec .functionLevelReset s = .next t ∧
    t.queues = (pcieQueues s).foldl (fun l q => Tab.put Queue.init l q Queue.init) t.queues ∧
    t.fe.flogCount = s.fe.flogCount + BitVec.ofNat 32 (pcieQueues s).length ∧
    t.fe.aqCtrl = s.fe.aqCtrl &&& 0x7FFFFFFF ∧ t.host.aer = 0 ∧ t.host.bme = false ∧ t.host.msixEn = false ∧ t.host.atc = [] ∧
    t.host.bar2Log = 30 ∧ t.host.mem = s.host.mem ∧ t.mem.carafe = s.mem.carafe ∧ t.models = s.models ∧
    t.fences = s.fences) ∧
  (∀ (addr : Quad) (size : Nat) (s : State), isUp s = true → exec (.atsInvalidation addr size) s =
    .next { s with sent := s.sent ++ [.atsDone addr]
                   host := { s.host with atc := s.host.atc.filter fun p => !decide (p ∈ pagesOf addr.toNat size) } })

/-! ## Command front end -/

/-- O13. A BAR0 submission doorbell (R295, R300). T is accepted when it is later than the tail and no later than head +
ring size; not later than the tail it is only counted; beyond, the queue enters ERROR with cause 3 and the fault log
takes an entry; of a T that fits both of R295's bullets the first holds (the model's choice, log 34). A queue that is
not bound to PCIe or not ACTIVE is left alone and the doorbell counted as ignored (a queue under destruction too, R342).
A BAR0 completion doorbell (R296, R300): H is accepted if it is later than the current head and not later than the
completion tail; otherwise it is ignored and counted. -/
def Obligations.Doorbells : Prop :=
  (∀ (q : BitVec 16) (t : Word) (s : State), isUp s = true →
     let x := que s q.toNat
     let room := (t - (x.sqHead + BitVec.ofNat 32 (2 ^ x.sqLog.toNat))).toInt
     (x.onPcie = true → x.st = .active →
       (0 < (t - x.sqTail).toInt → room ≤ 0 → exec (.feDbSq q t) s =
         .next (icuSend (128 + x.cls.toNat) (setQue q.toNat { x with sqTail := t } s))) ∧
       ((t - x.sqTail).toInt ≤ 0 → exec (.feDbSq q t) s = .next { s with fe := { s.fe with
         dupDoorbell := satInc s.fe.dupDoorbell, status := s.fe.status ||| 8 } }) ∧
       (0 < (t - x.sqTail).toInt → 0 < room → ∃ u, exec (.feDbSq q t) s = .next u ∧
         u.queues = Tab.put Queue.init s.queues q.toNat { x with st := .error, cause := 3 } ∧
         u.fe.flogCount = s.fe.flogCount + 1 ∧ u.fe.status = s.fe.status ||| 3 ∧ u.cmds = s.cmds ∧ u.icu = s.icu)) ∧
     (x.onPcie = false ∨ x.st ≠ .active → exec (.feDbSq q t) s =
       .next { s with fe := { s.fe with dbIgnored := satInc s.fe.dbIgnored } })) ∧
  (∀ (q : BitVec 16) (h : Word) (s : State), isUp s = true →
     let x := que s q.toNat
     (x.onPcie = true → x.st = .active →
       (0 < (h - x.cqHead).toInt → (h - x.cqTail).toInt ≤ 0 → exec (.feDbCq q h) s =
         .next { s with queues := Tab.put Queue.init s.queues q.toNat { x with cqHead := h } }) ∧
       ((h - x.cqHead).toInt ≤ 0 ∨ 0 < (h - x.cqTail).toInt → exec (.feDbCq q h) s = .next { s with fe := { s.fe with
         dupDoorbell := satInc s.fe.dupDoorbell, status := s.fe.status ||| 8 } })) ∧
     (x.onPcie = false ∨ x.st ≠ .active → exec (.feDbCq q h) s =
       .next { s with fe := { s.fe with dbIgnored := satInc s.fe.dbIgnored } }))

/-- O14. The admin queue (R350): ENABLE going to 1 with no admin command in flight starts queue 0 afresh, with the values
of R294, SEQ 0 expected, a timeout of FE_GLOBAL_TIMEOUT, a DRAIN_MS of 10, and ring sizes outside 4 to 12 taken as 12; with
one in flight ENABLE stays 0. A write to FE_AQ_SQ, FE_AQ_CQ or bits 30:0 of FE_AQ_CTRL while ENABLE is 1 is ignored; ENABLE
going to 0 stops fetching, and commands already fetched go on. -/
def Obligations.AdminQueueEnable : Prop :=
  ∀ (v : BitVec 31) (s : State), isUp s = true →
    (s.fe.aqCtrl.getLsbD 31 = true → exec (.feAqEnable v) s = .next s ∧
      (∀ a ∈ [0x01000060, 0x01000064, 0x01000068, 0x0100006C], ∀ w : Quad, exec (.registerWrite .bar0 a 4 w) s = .next s) ∧
      ∃ t, exec (.feAqDisable v) s = .next t ∧ t.fe.aqCtrl = s.fe.aqCtrl &&& 0x7FFFFFFF ∧ mayFetch t 0 = false ∧
        t.queues = Tab.put Queue.init s.queues 0 { que s 0 with stopped := true } ∧ t.cmds = s.cmds) ∧
    (s.fe.aqCtrl.getLsbD 31 = false → (∃ c ∈ s.cmds, c.key.q = 0) →
      ∃ t, exec (.feAqEnable v) s = .next t ∧ t.queues = s.queues ∧ t.fe.aqCtrl.getLsbD 31 = false) ∧
    (s.fe.aqCtrl.getLsbD 31 = false → (∀ c ∈ s.cmds, c.key.q ≠ 0) → ∃ t x, exec (.feAqEnable v) s = .next t ∧
      t.queues = Tab.put Queue.init s.queues 0 x ∧ t.cmds = s.cmds ∧ t.fe.aqCtrl.getLsbD 31 = true ∧
      x.st = .active ∧ x.kind = 0 ∧ x.cls = 0 ∧ x.ctx = 0 ∧ x.port = 0 ∧ x.expSeq = 0 ∧ x.sqTail = 0 ∧ x.sqHead = 0 ∧
      x.cqTail = 0 ∧ x.cqHead = 0 ∧ x.timeoutMs = s.fe.timeoutMs.setWidth 32 ∧ x.drainMs = 10 ∧
      x.sqAddr = s.fe.aqSq ∧ x.cqAddr = s.fe.aqCq ∧
      (let log := fun f : Nat => if 4 ≤ f ∧ f ≤ 12 then f else 12
       x.sqLog.toNat = log (v.toNat / 2 ^ 16 % 16) ∧ x.cqLog.toNat = log (v.toNat / 2 ^ 20 % 16)) ∧
      x.msix = (v.setWidth 11).setWidth 16 ∧ x.ats = v.getLsbD 30) ∧
    (s.fe.aqCtrl.getLsbD 31 = false → ∃ t, exec (.feAqDisable v) s = .next t ∧ t.queues = s.queues ∧
      t.fe.aqCtrl.getLsbD 31 = false)

/-- O15. A fetch compares the entry's SEQ with the expected E (R301): equal, the entry is accepted, E and the head
advance, and a checked entry waits as a new command while one that fails a check is refused (R308); lower, it is
skipped and counted; higher, the queue enters ERROR with cause 2. An entry that cannot be read gives cause 4 (R333).
The first failing check of CHECKED names the detail (R308): unknown opcode 0x40, reserved or unused fields 0x41, a
queue command off the admin queue 0x42, a fence that the queue may not name 0x43, a host address on a queue without
PCIe 0x44, a waiting ABORT or PAUSE 0x4F. -/
def Obligations.CommandFetchAndChecks : Prop :=
  (∀ (q : BitVec 16) (s : State), isUp s = true → mayFetch s q.toNat = true →
     let x := que s q.toNat
     let r := ringRead q.toNat (x.sqAddr.toNat + 64 * (x.sqHead.toNat % 2 ^ x.sqLog.toNat)) 64 s
     (∀ raw u, r = (.ok raw, u) →
       let y := que u q.toNat
       let seq := BitVec.ofNat 32 (leAt raw 4 4)
       let c := newCmd q.toNat raw y.lastSeq
       let v := { setQue q.toNat { y with sqHead := y.sqHead + 1, expSeq := y.expSeq + 1, lastSeq := some seq } u with
         cmds := u.cmds ++ [c] }
       (seq = x.expSeq →
         (∀ d, checkDetail v c = some d → exec (.commandFetch q) s = .next (refuse c.key d v)) ∧
         (checkDetail v c = none → (c.waitFence = 0xFFFF ∨ (fnc v c.waitFence).err = false) →
           exec (.commandFetch q) s = .next (noteFree v)) ∧
         (checkDetail v c = none → c.waitFence ≠ 0xFFFF → (fnc v c.waitFence).err = true →
           exec (.commandFetch q) s = .next (complete c.key (mkDecision 0x0A 1 0) v))) ∧
       ((seq - x.expSeq).toInt < 0 → ∃ t, exec (.commandFetch q) s = .next t ∧ t.cmds = u.cmds ∧
         t.queues = Tab.put Queue.init u.queues q.toNat { y with sqHead := y.sqHead + 1 } ∧
         t.fe.dupCmd = satInc u.fe.dupCmd) ∧
       (0 < (seq - x.expSeq).toInt → exec (.commandFetch q) s = .next (queueError q.toNat 2 0xFF x.expSeq 0 [] u))) ∧
     (∀ e u, r = (.error e, u) → exec (.commandFetch q) s = .next (queueError q.toNat 4 e.cause x.expSeq
       (x.sqAddr.toNat + 64 * (x.sqHead.toNat % 2 ^ x.sqLog.toNat)) [] u))) ∧
  (∀ (s : State) (c : Cmd),
     (knownOpcode c.opcode = false → checkDetail s c = some 0x40) ∧
     (knownOpcode c.opcode = true → fieldsOk c = false → checkDetail s c = some 0x41) ∧
     (knownOpcode c.opcode = true → fieldsOk c = true →
       (c.opcode ≤ 7 → (que s c.queue).kind ≠ 0 → checkDetail s c = some 0x42) ∧
       (7 < c.opcode ∨ (que s c.queue).kind = 0 →
         (c.waitFence ≠ 0xFFFF → mayName s c.queue c.waitFence = false → checkDetail s c = some 0x43) ∧
         (c.signalFence ≠ 0xFFFF → mayName s c.queue c.signalFence = false → checkDetail s c = some 0x43) ∧
         ((c.waitFence = 0xFFFF ∨ mayName s c.queue c.waitFence = true) →
           (c.signalFence = 0xFFFF ∨ mayName s c.queue c.signalFence = true) →
           (c.opcode = 0x18 → c.p0 % 4 ≠ 0 → (que s c.queue).onPcie = false → checkDetail s c = some 0x44) ∧
           ((c.opcode = 0x14 ∨ c.opcode = 0x23) → c.waitFence ≠ 0xFFFF → checkDetail s c = some 0x4F) ∧
           (c.opcode ≠ 0x18 ∨ (que s c.queue).onPcie = true → (c.opcode ≠ 0x14 ∧ c.opcode ≠ 0x23) ∨ c.waitFence = 0xFFFF →
             checkDetail s c = none)))))

/-- O16. ADMISSION takes the free command that R314 and R315 put first into ADMITTING, with the timeout of R326 and
the lock-step entry, checkpoint interval and translation of that moment (log 22); its blocks are read and patched, or it is
refused, or a failed read ends it. With none free nothing happens. COMMAND_START: a READY command whose engines are free and
powered, which nothing holds back (R317), goes to RUNNING on them, a program's engines to their preload; with a domain
off, Quill asks for its wake and the command waits, and one on its way off goes off first and then wakes (R549). Which
engines a free command starts on is the command's operand (log 64). On a running program whose engines preload it ends the
preload (log 68). -/
def Obligations.AdmissionAndStart : Prop :=
  (∀ s : State, isUp s = true →
     (nextToAdmit s = none → exec .admission s = .next s) ∧
     (∀ c, nextToAdmit s = some c →
       (c ∈ s.cmds ∧ freeToGo s c = true ∧ (∀ d ∈ s.cmds, d.st ≠ .admitting) ∧
         ∀ d ∈ s.cmds, freeToGo s d = true → goesBefore s d c = false ∧
           (que s c.queue).cls.toNat ≤ (que s d.queue).cls.toNat) ∧
       (let c' := enterAdmitting c s
        let v := updCmd c.key (fun _ => c') s
        c'.st = .admitting ∧ c'.view = s.mem.vmap ∧ c'.timeout = min (que s c.queue).timeoutMs.toNat s.fe.timeoutMs.toNat ∧
        (∀ c'' u, gather c' v = (.ready c'', u) → exec .admission s = .next (updCmd c.key (fun _ => c'') u)) ∧
        (∀ d u, gather c' v = (.refused d, u) → exec .admission s = .next (refuse c.key d u)) ∧
        (∀ c'' e u, gather c' v = (.failed c'' e, u) → c'.opcode ≠ 0x10 →
          exec .admission s = .next (complete c.key e.dec u))))) ∧
  (∀ (k : Key) (place : List (Fin 64)) (c : Cmd) (s : State), isUp s = true → findCmd s k = some c →
     let es := startEngines s c place
     (c.st = .ready → mayStart s c es = true →
       ((∀ d ∈ domainsOf s es, staysOn s d = true) → exec (.commandStart k place) s = .next (launch c es s)) ∧
       (c.work = .copy → ∃ d, findCmd (launch c es s) k = some d ∧ d.st = .running ∧ d.work = .copy ∧ d.engines = es) ∧
       (∀ p, c.work = .program p → ∀ n ∈ es, let e := eng (launch c es s) n
         e.cmd = some k ∧ e.pst = .preload ∧ e.pc = 0 ∧ e.units = [] ∧ e.dmaOut = []) ∧
       (∀ d ∈ domainsOf s es,
         (domState s d = .off → ∃ t, exec (.commandStart k place) s = .next t ∧ t.cmds = s.cmds ∧
           t.eng = s.eng ∧ t.queues = s.queues ∧ domState t d = .waking) ∧
         (domState s d = .on → d ∈ s.pwr.offReq → ∃ t, exec (.commandStart k place) s = .next t ∧ t.cmds = s.cmds ∧
           t.eng = s.eng ∧ t.queues = s.queues ∧ domState t d = .on ∧ d ∈ t.pwr.offReq ∧ d ∈ t.pwr.wakeAfter) ∧
         (domState s d = .waking ∨ domState s d = .failed → ∃ t, exec (.commandStart k place) s = .next t ∧
           t.cmds = s.cmds ∧ t.eng = s.eng ∧ domState t d = domState s d))) ∧
     (c.st = .ready → mayStart s c es = false → exec (.commandStart k place) s = .next s) ∧
     (∀ p, c.st = .running → c.work = .program p → preloading s p = true →
       exec (.commandStart k place) s = .next (preloadEnds c p s)) ∧
     (c.st ≠ .ready → c.st ≠ .running ∨ (∀ p, c.work = .program p → preloading s p = false) →
       exec (.commandStart k place) s = .next s))

/-- O17. A timeout kills its command with status 8, the effective timeout in VALUE (R328), and sets FE_STATUS.TIMEOUT;
a PEER_SIGNAL that is not acknowledged ends with PEER_LOST instead (R324), and so does a run of a split group that
waits for a peer, which its WHERE names (R165). A command already decided is left alone. DRAIN_TIMEOUT (R340, R342,
R385): a running command of a queue under destruction is killed with KILLED, detail 1, one that only the destroy stopped
likewise; one whose abort or pause has not reached a stop is killed with ABORTED, detail 2, VALUE the SEQ of the ABORT or
PAUSE; a run at its stop is left alone. A host read without a completion (R448) ends the command with status 5, detail
0x11, the address in VALUE; a load that reads there with LOAD_FAILED (R86). That the timeouts are commands of their own is
log 56; bit 14 of the uncorrectable error status at a host read timeout is presumed (log 65). -/
def Obligations.Timeouts : Prop :=
  (∀ (k : Key) (c : Cmd) (s : State), isUp s = true → findCmd s k = some c →
     (c.decided = none → c.st ≠ .waiting →
       (c.work = .none ∨ c.work = .copy → exec (.commandTimeout k) s =
         .next (killCmd c (mkDecision 8 0 c.timeout) { s with fe := { s.fe with status := s.fe.status ||| 32 } })) ∧
       (∀ p, c.work = .program p → exec (.commandTimeout k) s =
         .next (killCmd c (mkDecision 8 0 c.timeout) { s with fe := { s.fe with status := s.fe.status ||| 32 } })) ∧
       (∀ r, c.work = .anneal r → (r.split.devices ≤ 1 → missingPeer s (mdl s r.model) r = none) ∧
         (missingPeer s (mdl s r.model) r = none → exec (.commandTimeout k) s =
           .next (killCmd c (mkDecision 8 0 c.timeout) { s with fe := { s.fe with status := s.fe.status ||| 32 } })) ∧
         (∀ i, missingPeer s (mdl s r.model) r = some i → i ≠ r.split.index ∧ i < r.split.devices ∧
           exec (.commandTimeout k) s = .next (killCmd c (atEngine i (mkDecision 7 1 0)) s))) ∧
       (∀ n, c.work = .peerSignal n → exec (.commandTimeout k) s = .next (killCmd c (mkDecision 7 1 0) s))) ∧
     (c.decided ≠ none ∨ c.st = .waiting → exec (.commandTimeout k) s = .next s)) ∧
  (∀ (k : Key) (c : Cmd) (s : State), isUp s = true → findCmd s k = some c →
     let dying := (que s c.queue).st = .destroying
     (c.st ≠ .running ∨ (∃ r, c.work = .anneal r ∧ r.stop ≠ none) → exec (.drainTimeout k) s = .next s) ∧
     (c.st = .running → (∀ r, c.work = .anneal r → r.stop = none) →
       (c.decided = none → dying → exec (.drainTimeout k) s = .next (killCmd c (mkDecision 0x0B 1 0) s)) ∧
       (c.decided = none → ¬dying → exec (.drainTimeout k) s = .next s) ∧
       (∀ p, c.decided ≠ none → c.pause = some p →
         exec (.drainTimeout k) s = .next (killCmd c (mkDecision 9 2 p.seq.toNat) s)) ∧
       (∀ d, c.decided = some d → c.pause = none →
         (d.status ≠ 9 → exec (.drainTimeout k) s = .next s) ∧
         (d.status = 9 → ¬dying ∨ d.value ≠ 0 ∨ abortWon s k = true →
           exec (.drainTimeout k) s = .next (killCmd c (mkDecision 9 2 d.value.toNat) s)) ∧
         (d.status = 9 → dying → d.value = 0 → abortWon s k = false →
           exec (.drainTimeout k) s = .next (killCmd c (mkDecision 0x0B 1 0) s))))) ∧
  (∀ (k : Key) (addr : Quad) (c : Cmd) (s : State), isUp s = true → findCmd s k = some c → readsHost s c = true →
     let u := { s with host := { s.host with aer := s.host.aer ||| 0x4000 } }
     (c.st = .admitting → c.opcode ≠ 0x10 → exec (.hostReadTimeout k addr) s =
       .next (complete c.key (mkDecision 5 0x11 addr.toNat) u)) ∧
     (c.st = .running → c.work = .copy → exec (.hostReadTimeout k addr) s =
       .next (complete c.key (mkDecision 5 0x11 addr.toNat) u)) ∧
     (∀ id, c.st = .running → c.work = .load id →
       let bad := { u.host with badRead := (addr.toNat, 1) :: u.host.badRead }
       (∀ dt row col v, loadModel c (mdl u id) { u with host := bad } = (.fail dt row col, v) →
         exec (.hostReadTimeout k addr) s = .next (loadFails c id dt row col (mkDecision 2 4 0xFFFF)
           { v with host := { v.host with badRead := u.host.badRead } }))))

/-- O18. A completion (R298, R299, R323, R330): the command leaves the machine and no other does, it is counted, and the
fence it names takes the larger value on OK and ERR otherwise; other fences stay. A load that ends while its model is in
LOADING gives the model back and reports LOAD_FAILED, ABORTED (R86, R90; the model's choice of the detail but for an
abort, log 63). The 32 bytes of its record hold the fields of R330 at their places, and the record goes to the slot of
the completion tail, which then advances. Every engine of the command is idle afterwards with no instruction unfinished,
its groups discarded and its tile registers empty (R188, R205), its fault registers and scalar registers kept; a kill
besides has its scratchpad zeroed before its next command (R329). A fault (R204, R240, R242) ends the command with status 3,
the code in DETAIL and the place in the record, and stands in ARR_E_FAULT (a code below 0x10) or ARR_E_PFAULT of its engine
and nowhere else. A failed access outside the engine is fault 0x12 where an address failed, else the memory's own status.
A command whose status was fixed before keeps it. -/
def Obligations.CommandCompletes : Prop :=
  (∀ (k : Key) (d : Decision) (c : Cmd) (s : State), findCmd s k = some c → (que s c.queue).st = .active →
    (∀ id, c.work = .load id → (mdl s id).st ≠ .loading) →
    let t := (finishOne k d s).2
    let x := fnc s c.signalFence
    findCmd t k = none ∧ (∀ j, j ≠ k → findCmd t j = findCmd s j) ∧ t.fe.cmds = s.fe.cmds + 1 ∧
    (∀ g, g ≠ c.signalFence → fnc t g = fnc s g) ∧
    (4096 ≤ c.signalFence → fnc t c.signalFence = x) ∧
    (c.signalFence < 4096 → d.status = 0 →
      fnc t c.signalFence = { x with val := BitVec.ofNat 63 (max x.val.toNat c.signalValue) }) ∧
    (c.signalFence < 4096 → d.status ≠ 0 → fnc t c.signalFence = { x with err := true })) ∧
  (∀ (id : Nat) (d : Decision) (c : Cmd) (s : State), c.work = .load id → (mdl s id).st = .loading →
    let m := mdl s id
    let w := cmdWrite c c.p2 (reportBytes 0xFFFF 0x0D 4 m.reqExts m.reqBytes m.avail 0xFFFFFFFF 0xFFFFFFFF 0 [] 0 0 0 [])
      (dropModel id s)
    (w.1 = .ok () → endLoad c d s = (d, w.2)) ∧
    (∀ e, w.1 = .error e → ∃ d', endLoad c d s = (d', w.2) ∧ d'.status = 5 ∧ d'.detail = 0x10 ∧ d'.time = d.time)) ∧
  (∀ (op : Nat) (seq : Word) (phase : Bool) (d : Decision), op < 256 →
    let b := recordBytes op seq phase d
    b.length = 32 ∧ leAt b 0 1 = (if phase = true then 1 else 0) ∧ leAt b 1 1 = d.status.toNat ∧
    leAt b 2 1 = d.detail.toNat ∧ leAt b 3 1 = op ∧ leAt b 4 4 = seq.toNat ∧ leAt b 8 8 = d.value.toNat ∧
    leAt b 0x10 1 = d.loc.toNat ∧ leAt b 0x11 1 = d.group.toNat ∧ leAt b 0x12 2 = d.pc.toNat ∧ leAt b 0x14 4 = 0 ∧
    leAt b 0x18 8 = d.time.toNat) ∧
  (∀ (c : Cmd) (d : Decision) (s u : State),
    let x := que s c.queue
    let n := x.cqTail.toNat
    let slot := x.cqAddr.toNat + 32 * (n % 2 ^ x.cqLog.toNat)
    let phase := decide (n / 2 ^ x.cqLog.toNat % 2 = 0)
    x.diverted = false → x.port = 0 → c.irq = false →
    ringWrite c.queue slot (recordBytes c.opcode c.key.seq phase d) s = (.ok (), u) →
      writeRecord c d s = setQue c.queue { que u c.queue with cqTail := (que u c.queue).cqTail + 1 } u) ∧
  (let released := fun e e' : Engine =>
     e'.cmd = none ∧ e'.pst = .idle ∧ e'.units = [] ∧ e'.dmaOut = [] ∧ (∀ g, (grp e' g).st = .closed) ∧
     tileAt e' 0 = .empty ∧ tileAt e' 1 = .empty ∧ e'.fault = e.fault ∧ e'.pfault = e.pfault ∧ e'.areg = e.areg
   (∀ (k : Key) (d : Decision) (n : Nat) (s : State), n < 64 → (eng s n).cmd = some k → findCmd s k ≠ none →
     released (eng s n) (eng (complete k d s) n) ∧ (eng (complete k d s) n).zeroFirst = (eng s n).zeroFirst) ∧
   (∀ (c : Cmd) (d : Decision) (n : Nat) (s : State), n < 64 → (eng s n).cmd = some c.key →
     let e := eng (killCmd c d s) n
     released (eng s n) e ∧ e.zeroFirst = true ∧ e.kept = [])) ∧
  (∀ (x : Ectx) (code : Nat) (s : State), x.n < 64 → (eng s x.n).cmd = some x.c.key → findCmd s x.c.key ≠ none →
     x.c.decided = none →
     (∃ d v, progFault x code s = complete x.c.key d v ∧ v = { s with eng := v.eng } ∧ d.status = 3 ∧
       d.detail = BitVec.ofNat 8 code ∧ d.loc = BitVec.ofNat 7 x.n ∧ d.group = BitVec.ofNat 3 x.ins.group ∧
       d.pc = BitVec.ofNat 12 x.e.pc ∧ d.value = 0) ∧
     (let t := progFault x code s
      (code < 0x10 → (eng t x.n).fault = BitVec.ofNat 32 (x.ins.group * 2 ^ 8 + code) ∧
        (eng t x.n).pfault = (eng s x.n).pfault) ∧
      (0x10 ≤ code → (eng t x.n).pfault = BitVec.ofNat 32 (x.e.pc * 2 ^ 12 + code) ∧
        (eng t x.n).fault = (eng s x.n).fault) ∧
      (∀ m, m ≠ x.n → (eng t m).fault = (eng s m).fault ∧ (eng t m).pfault = (eng s m).pfault))) ∧
  (∀ (x : Ectx) (d : Decision) (s : State), x.c.decided = none →
     (d.status = 3 ∨ d.status = 5 → extFail x d s = progFault x 0x12 s) ∧
     (d.status ≠ 3 → d.status ≠ 5 → ∃ d', extFail x d s = complete x.c.key d' s ∧ d'.status = d.status ∧
       d'.detail = d.detail ∧ d'.value = d.value ∧ d'.loc = (if d.loc = 0x7F then BitVec.ofNat 7 x.n else d.loc))) ∧
  (∀ (c : Cmd) (d d0 : Decision) (s : State), c.decided = some d0 →
     (c.pause = none → failCmd c d s = settle [(c.key, d0)] s) ∧
     (∀ p, c.pause = some p → failCmd c d s = complete c.key (mkDecision 9 2 p.seq.toNat) s))

/-! ## Ring commands -/

/-- O19. QUEUE_CREATE (R305, R306): a descriptor that keeps its rules under an unused number makes that queue ACTIVE
with all four ring counts 0 (R294) and FIRST_SEQ expected, and the command commits; else it is refused with 0x4C or
0x4D. QUEUE_RESET (R336): with commands in flight or under destruction it is refused with 0x50; on queue 0 or an unused
queue with 0x4D; otherwise all four counts go to 0, the given SEQ is expected, and the queue is ACTIVE; 0x50 for a queue
under destruction is the model's choice, and so are the details where several hold (log 35). QUEUE_DESTROY (R342, R343):
on queue 0, an unused queue or one under destruction it is refused with 0x4D. On a queue with nothing in flight the
destruction record of zero counts is written to P1, the number is unused again, and the command completes with OK; if
the record cannot be written it completes with status 5, detail 0x10. -/
def Obligations.QueueCommands : Prop :=
  (∀ (k : Key) (c : Cmd) (s : State), admitting s k 1 = some c →
     let d := c.block blkQueue
     (c.p1 % 64 = 0 → queueDescOk s d = true → (que s (qdQueue d)).st = .unused → ∃ x,
       exec (.queueCreate k) s =
         .next (commitOk c.key 0 { s with queues := Tab.put Queue.init s.queues (qdQueue d) x }) ∧
       x.st = .active ∧ x.sqTail = 0 ∧ x.sqHead = 0 ∧ x.cqTail = 0 ∧ x.cqHead = 0 ∧
       x.expSeq = BitVec.ofNat 32 (leAt d 0x1C 4) ∧ x.kind = BitVec.ofNat 2 (qdKind d) ∧
       x.cls = BitVec.ofNat 3 (qdClass d) ∧ x.ctx = BitVec.ofNat 8 (qdContext d) ∧ x.port = BitVec.ofNat 4 (qdPort d) ∧
       x.sqAddr = BitVec.ofNat 64 (leAt d 8 8) ∧ x.cqAddr = BitVec.ofNat 64 (leAt d 0x10 8) ∧
       x.sqLog = BitVec.ofNat 5 (leAt d 0x18 1) ∧ x.cqLog = BitVec.ofNat 5 (leAt d 0x19 1) ∧ x.recent = []) ∧
     (c.p1 % 64 ≠ 0 ∨ queueDescOk s d = false → exec (.queueCreate k) s = .next (refuse c.key 0x4C s)) ∧
     (c.p1 % 64 = 0 → queueDescOk s d = true → (que s (qdQueue d)).st ≠ .unused →
       exec (.queueCreate k) s = .next (refuse c.key 0x4D s))) ∧
  (∀ (k : Key) (c : Cmd) (s : State), admitting s k 3 = some c →
     let q := c.p0 % 65536
     let x := que s q
     (q ≠ 0 → x.st = .active ∨ x.st = .error → (∀ d ∈ s.cmds, d.key.q.toNat ≠ q) → exec (.queueReset k) s =
       .next (commitOk c.key 0 { s with queues := Tab.put Queue.init s.queues q { x with
         st := .active, sqTail := 0, sqHead := 0, cqTail := 0, cqHead := 0, expSeq := BitVec.ofNat 32 c.p1
         stopped := false, diverted := false, lastSeq := none, lastFrame := 0 } })) ∧
     (q ≠ 0 → x.st ≠ .unused → (∃ d ∈ s.cmds, d.key.q.toNat = q) ∨ x.st = .destroying →
       exec (.queueReset k) s = .next (refuse c.key 0x50 s)) ∧
     (q = 0 ∨ x.st = .unused → exec (.queueReset k) s = .next (refuse c.key 0x4D s))) ∧
  (∀ (k : Key) (c : Cmd) (s : State), admitting s k 2 = some c →
     let q := c.p0 % 65536
     let ok := stampD s (mkDecision 0 0 0)
     (q = 0 ∨ (que s q).st = .unused ∨ (que s q).st = .destroying →
       exec (.queueDestroy k) s = .next (refuse c.key 0x4D s)) ∧
     (q ≠ 0 → (que s q).st = .active ∨ (que s q).st = .error → (∀ d ∈ s.cmds, d.key.q.toNat ≠ q) →
       (∀ d ∈ s.cmds, d.work ≠ .destroy) →
       let u := noteFree (updCmd c.key (fun c => { c with st := .running, work := .destroy, decided := some ok })
         (setQue q { que s q with st := .destroying, tally := { Tally.zero with seq := c.key.seq } } s))
       ∀ w v, cmdWrite c c.p1 (destructionBytes q { Tally.zero with seq := c.key.seq }) u = (w, v) →
         let t := { v with queues := Tab.put Queue.init v.queues q Queue.init }
         (w = .ok () → exec (.queueDestroy k) s = .next (settle [(c.key, ok)] t)) ∧
         (∀ e, w = .error e → exec (.queueDestroy k) s =
           .next (settle [(c.key, { e.dec with status := 5, detail := 0x10, time := ok.time })] t))))

/-- O20. MAP (R345): a range outside the context's 8,192 virtual extents, one with a mapped entry, too few free extents, or
an extent that is not one of 0 to 6,079 or has been removed is refused with 0x4E, and so is context 0 (log 35; what may be
listed, log 53). Otherwise the extents are mapped in order with the given rights; the count is in VALUE. UNMAP (R251, R346):
refused with 0x4E where an entry of the range is invalid; otherwise its entries are invalid at once for every command
admitted from now on, it is decided OK and waits for the commands of its context that were admitted before it, which keep
the translation they found (log 22). UNMAP_COMPLETE does nothing while one of them is in flight; then, with FREE, the
mapped extents of its range that no context maps any more are zeroed and free, and VALUE counts them. -/
def Obligations.MapAndUnmap : Prop :=
  (∀ (k : Key) (c : Cmd) (s : State), admitting s k 4 = some c →
     let ctx := c.p0 % 256
     let first := c.p1 % 2 ^ 13
     let count := c.p1 / 2 ^ 32 % 2 ^ 13
     let list := if c.p0.testBit 10 then (freeExtents s).take count
       else (List.range count).map fun i => leAt (c.block blkMap) (4 * i) 4
     (ctx ≠ 0 → first + count ≤ 8192 →
       (∀ i, i < count → (Tab.get VEntry.init s.mem.vmap (ctx * 8192 + (first + i))).valid = false) → list.length = count →
       (∀ e ∈ list, e < 6080 ∧ extState s e ≠ .removed) → exec (.map k) s =
         .next (commitOk c.key count (mapExtents ctx (c.p0.testBit 8) (c.p0.testBit 9) first list s))) ∧
     (ctx = 0 ∨ 8192 < first + count ∨ list.length < count ∨ (∃ e ∈ list, 6080 ≤ e ∨ extState s e = .removed) ∨
       (∃ i, i < count ∧ (Tab.get VEntry.init s.mem.vmap (ctx * 8192 + (first + i))).valid = true) →
       exec (.map k) s = .next (refuse c.key 0x4E s))) ∧
  (∀ (k : Key) (c : Cmd) (s : State),
     (admitting s k 5 = some c →
       let ctx := c.p0 % 256
       let first := c.p1 % 2 ^ 13
       let count := c.p1 / 2 ^ 32 % 2 ^ 13
       let entry := fun i => Tab.get VEntry.init s.mem.vmap (ctx * 8192 + (first + i))
       (ctx = 0 ∨ 8192 < first + count ∨ (∃ i, i < count ∧ (entry i).valid = false) →
         exec (.unmap k) s = .next (refuse c.key 0x4E s)) ∧
       (ctx ≠ 0 → first + count ≤ 8192 → (∀ i, i < count → (entry i).valid = true) → ∃ t, exec (.unmap k) s = .next t ∧
         t.mem = { s.mem with vmap := t.mem.vmap } ∧ t.queues = s.queues ∧
         (∀ i, i < count → (Tab.get VEntry.init t.mem.vmap (ctx * 8192 + (first + i))).valid = false) ∧
         (∀ j, j < ctx * 8192 + first ∨ ctx * 8192 + first + count ≤ j →
           Tab.get VEntry.init t.mem.vmap j = Tab.get VEntry.init s.mem.vmap j) ∧
         let es := (List.range count).map fun i => (entry i).ext.toNat
         let ws := (s.cmds.filter fun x =>
           (que s x.queue).ctx.toNat == ctx && x.st != .waiting && !(x.key == c.key)).map Cmd.key
         let ok := stampD s (mkDecision 0 0 0)
         t = noteFree { s with mem := t.mem, cmds := s.cmds.map fun d => if d.key = c.key then
           { d with st := .running, decided := some ok, work := .unmap es ws count } else d })) ∧
     (∀ es ws n, running s k = some c → c.work = .unmap es ws n →
       ((∃ w ∈ ws, findCmd s w ≠ none) → exec (.unmapComplete k) s = .next s) ∧
       ((∀ w ∈ ws, findCmd s w = none) → ∃ out u, exec (.unmapComplete k) s = .next (completeDecided k u) ∧ out.Nodup ∧
         (c.p0.testBit 8 = false → out = []) ∧
         (c.p0.testBit 8 = true → ∀ e, e ∈ out ↔ e ∈ es ∧ extState s e = .mapped ∧
           isMapped { s with cmds := s.cmds.map fun d => if d.key = k then { d with work := .unmap [] [] n } else d } e = false) ∧
         u.mem.vmap = s.mem.vmap ∧ (∀ e, e ∉ out → extState u e = extState s e) ∧
         (∀ e ∈ out, e ∉ s.mem.marked → extState u e = .free ∧ (s.mem.locked = false →
           ∀ i, i < extBytes → Tab.get 0 u.mem.carafe (carafePhys s (e * extBytes) + i) = 0)) ∧
         ∃ d, findCmd u k = some d ∧ d.decided = c.decided.map fun x => { x with value := BitVec.ofNat 64 out.length })))

/-- O21. Mapping (R249, R253, R345): entry i of the range is valid and names extent i of the list with the given rights, and
entries outside the range keep what they held. A listed extent that is free is mapped; one that has still to be zeroed, or
is being released but not by an unload, is zeroed and mapped (the model's choice, log 53); any other stays as it is. Nothing
but translation entries, the extents' states and the bytes and error marks of the extents zeroed changes. -/
def Obligations.MapExtentsEntries : Prop :=
  ∀ (ctx v : Nat) (r w : Bool) (es : List Nat) (s : State),
    let t := mapExtents ctx r w v es s
    (∀ i e, es[i]? = some e → Tab.get VEntry.init t.mem.vmap (ctx * 8192 + (v + i)) = ⟨true, r, w, BitVec.ofNat 13 e⟩) ∧
    (∀ j, j < ctx * 8192 + v ∨ ctx * 8192 + v + es.length ≤ j →
      Tab.get VEntry.init t.mem.vmap j = Tab.get VEntry.init s.mem.vmap j) ∧
    let zeroed := fun e => extState s e = .unzeroed ∨ (extState s e = .releasing ∧ unloadsExtent s e = false)
    t = { s with mem := { s.mem with vmap := t.mem.vmap, ext := t.mem.ext, carafe := t.mem.carafe, poison := t.mem.poison
                                     symErr := t.mem.symErr, writeBack := t.mem.writeBack } } ∧
    ((∀ e ∈ es, ¬zeroed e) → t = { s with mem := { s.mem with vmap := t.mem.vmap, ext := t.mem.ext } }) ∧
    (∀ e, (e ∈ es → extState s e = .free ∨ zeroed e → extState t e = .mapped) ∧
      (e ∉ es ∨ (extState s e ≠ .free ∧ ¬zeroed e) → extState t e = extState s e)) ∧
    (∀ e ∈ es, zeroed e → s.mem.locked = false → ∀ i, i < extBytes →
      Tab.get 0 t.mem.carafe (carafePhys s (e * extBytes) + i) = 0) ∧
    (∀ a, (∀ e ∈ es, zeroed e → a < carafePhys s (e * extBytes) ∨ carafePhys s (e * extBytes) + extBytes ≤ a) →
      Tab.get 0 t.mem.carafe a = Tab.get 0 s.mem.carafe a)

/-- O22. FENCE_SET (R320), PEER_BIND (R347), NOP and PEER_SIGNAL (R324): the fence takes value, context and peer
rights, and CLEAR_ERR clears ERR; the binding takes serial, link and epoch, its signal numbers at 0, or is unbound, and
where it is not live a lock-step command of it goes on alone (R381); NOP only commits; PEER_SIGNAL takes the binding's
next number and waits for its acknowledgement, refused with 0x51 if unbound; it waits in READY and sends nothing while
the board holds the supply low (R554). On the link of a live binding goes a message of type 3 with the binding's epoch, the
signal's number, the peer's fence and the value (R481, R482), one flit where the link is free (R474); a binding that is not
live sends nothing. -/
def Obligations.FenceAndPeerCommands : Prop :=
  ∀ (k : Key) (c : Cmd) (s : State),
    (admitting s k 6 = some c →
      let x : Fence := ⟨BitVec.ofNat 63 c.p1, (fnc s (c.p0 % 2 ^ 12)).err && !c.p0.testBit 20,
        BitVec.ofNat 8 (c.p0 / 2 ^ 12), c.p0.testBit 21, BitVec.ofNat 6 (c.p0 / 2 ^ 22)⟩
      exec (.fenceSet k) s =
        .next (noteFree (commitOk c.key 0 { s with fences := Tab.put Fence.init s.fences (c.p0 % 2 ^ 12) x }))) ∧
    (admitting s k 7 = some c → c.p0.testBit 6 = false →
      let x : Binding := ⟨true, BitVec.ofNat 56 c.p1, BitVec.ofNat 3 (c.p1 / 2 ^ 56), BitVec.ofNat 32 c.p2, 0, 0, []⟩
      let u := { s with bindings := Tab.put Binding.init s.bindings (c.p0 % 2 ^ 6) x }
      exec (.peerBind k) s =
        .next (commitOk c.key 0 (if bindingLive u (c.p0 % 2 ^ 6) = true then u else runAlone (c.p0 % 2 ^ 6) u))) ∧
    (admitting s k 7 = some c → c.p0.testBit 6 = true → exec (.peerBind k) s = .next (commitOk c.key 0
      (runAlone (c.p0 % 2 ^ 6) { s with bindings := Tab.put Binding.init s.bindings (c.p0 % 2 ^ 6) Binding.init }))) ∧
    (admitting s k 0x20 = some c → exec (.nop k) s = .next (commitOk c.key 0 s)) ∧
    (admitting s k 0x21 = some c → (bnd s (c.p0 % 2 ^ 6)).bound = false →
      exec (.peerSignal k) s = .next (refuse c.key 0x51 s)) ∧
    (admitting s k 0x21 = some c → (bnd s (c.p0 % 2 ^ 6)).bound = true → s.pwr.holdup = true ∨ s.pwr.lowv = true →
      ∃ t, exec (.peerSignal k) s = .next t ∧ t.bindings = s.bindings ∧ t.sent = s.sent ∧ t.kw = s.kw ∧
      ∀ d ∈ t.cmds, d.key = c.key → d.st = .ready ∧ d.work = .peerSignal 0) ∧
    (admitting s k 0x21 = some c → (bnd s (c.p0 % 2 ^ 6)).bound = true → s.pwr.holdup = false → s.pwr.lowv = false →
      ∃ t, exec (.peerSignal k) s = .next t ∧
      (bnd t (c.p0 % 2 ^ 6)) = { bnd s (c.p0 % 2 ^ 6) with sent := (bnd s (c.p0 % 2 ^ 6)).sent + 1 } ∧
      (∀ d ∈ t.cmds, d.key = c.key → d.st = .running ∧ d.work = .peerSignal ((bnd s (c.p0 % 2 ^ 6)).sent + 1)) ∧
      t.queues = s.queues ∧ t.mem = s.mem ∧ t.fences = s.fences ∧
      (let b := c.p0 % 2 ^ 6
       let l := (bnd s b).link.toNat
       let num := (bnd s b).sent + 1
       let body := leBytes 8 (c.p0 / 2 ^ 16 % 2 ^ 12) ++ leBytes 8 c.p1
       (bindingLive s b = false → t.kw = s.kw ∧ t.sent = s.sent) ∧
       (bindingLive s b = true →
         (let u := kwSend l { ty := 3, vc := 0, w2 := (bnd s b).epoch, w3 := num, body := body } s
          t.kw = u.kw ∧ t.sent = u.sent) ∧
         ((lnk s l).queued = [] → hasCredit (lnk s l) 0 = true → sealable s l = true → (lnk s l).sinceAlign < 4095 →
           ∃ f, t.sent = s.sent ++ [.flit l f] ∧ f.kind = 1 ∧ f.som = true ∧ f.eom = true ∧ f.vc = 0 ∧
             f.lsn = BitVec.ofNat 24 (lnk s l).txLsn ∧ ((lnk s l).encrypted = false → f.payload.take 32 =
               leBytes 4 3 ++ leBytes 4 16 ++ leBytes 4 (bnd s b).epoch.toNat ++ leBytes 4 num.toNat ++ body)))))

/-- O23. MODEL_LOAD (R84, R85): an admitted descriptor puts the lowest unused identifier in LOADING, with the lowest
free extents reserved for it, and the command is READY; a refused one is reported with status 2, its check in DETAIL.
MODEL_LOAD_END (R86, R339): verified, the model is READY with its MODEL_DIGEST and the load commits with the
identifier in VALUE; failed, its identifier and extents are given back and the load ends with LOAD_FAILED; either end
writes its report (R90). Which identifier and which extents a load takes, the lowest, is the model's choice (logs 53, 62).
MODEL_UNLOAD (R87, R88): a READY model goes to UNLOADING, its extents are being released and zeroed, and the command waits
for them; a model that is not there is refused with 0x46, one that is not READY with 0x48. When its last
extent is zeroed its extents are free, the identifier is unused and the command completes. -/
def Obligations.ModelCommands : Prop :=
  (∀ (k : Key) (c : Cmd) (s : State), admitting s k 0x10 = some c → c.blockFail = none →
     let d := ((c.blocks.find? fun b => b.1 == 4).map (·.2)).getD []
     (∀ oc cs re rb u, admitModel c d s = (.admitted oc cs re rb, u) → ∃ t, exec (.modelLoad k) s = .next t ∧
       (mdl t (freeModelId u)).st = .loading ∧ (mdl t (freeModelId u)).exts = (freeExtents u).take re ∧
       (mdl t (freeModelId u)).desc = d ∧ (mdl t (freeModelId u)).ctx = (que u c.queue).ctx ∧
       (∀ i, i ≠ freeModelId u → mdl t i = mdl u i) ∧
       (∀ x ∈ t.cmds, x.key = c.key → x.st = .ready ∧ x.work = .load (freeModelId u) ∧
         x.engines = if oc then List.range 64 else [])) ∧
     (∀ st dt re rb u, admitModel c d s = (.refused st dt re rb, u) → ∃ opts, exec (.modelLoad k) s =
       .next (reportAndComplete c (refusalReport st dt re rb (freeExtents s).length noRow noRow opts)
         (mkDecision 2 st 0xFFFF) u))) ∧
  (∀ (k : Key) (c : Cmd) (id : Nat) (s : State), running s k = some c → c.work = .load id →
     (∀ m diag round bound u, loadModel c (mdl s id) s = (.ok m diag round bound, u) →
       let dig := chunkedDigest (modelDigestBytes m)
       let m' := { m with st := .ready, digest := BitVec.ofNat 256 (leNat dig) }
       let rep := reportBytes id 0 0 m.reqExts m.reqBytes m.avail 0xFFFFFFFF 0xFFFFFFFF bound [] m.conflictPairs.toNat diag
         round dig
       exec (.modelLoadEnd k) s = .next (reportAndComplete c rep (mkDecision 0 0 id)
         { u with models := Tab.put Model.init u.models id m' })) ∧
     (∀ dt row col u, loadModel c (mdl s id) s = (.fail dt row col, u) →
       let m := mdl u id
       let rep := reportBytes 0xFFFF dt 4 m.reqExts m.reqBytes m.avail row col 0 [] 0 0 0 []
       exec (.modelLoadEnd k) s = .next (reportAndComplete c rep (mkDecision 2 4 0xFFFF) (dropModel id u)))) ∧
  ((∀ (k : Key) (c : Cmd) (s : State), admitting s k 0x11 = some c →
     (modelFor s c.queue (c.p0 % 65536) = none → exec (.modelUnload k) s = .next (refuse c.key 0x46 s)) ∧
     (∀ m, modelFor s c.queue (c.p0 % 65536) = some m →
       (m.st ≠ .ready → exec (.modelUnload k) s = .next (refuse c.key 0x48 s)) ∧
       (m.st = .ready → m.exts ≠ [] → ∃ t, exec (.modelUnload k) s = .next t ∧
         mdl t (c.p0 % 65536) = { m with st := .unloading } ∧ (∀ e ∈ m.exts, extState t e = .releasing) ∧ t.queues = s.queues ∧
         t.mem.carafe = s.mem.carafe ∧
         (∀ d ∈ t.cmds, d.key = c.key → d.st = .running ∧ d.work = .unload (c.p0 % 65536) ∧
           d.decided = some (stampD s (mkDecision 0 0 0)))))) ∧
   (∀ (e : BitVec 13) (s : State), isUp s = true → e.toNat < 6080 →
     (extState s e.toNat = .releasing ∨ (extState s e.toNat = .unzeroed ∧ ∀ i, i < e.toNat → extState s i ≠ .unzeroed) →
       (unloadsExtent s e.toNat = false → exec (.extentZeroed e) s = .next (unloadStep (extentFreed e.toNat s))) ∧
       (extState s e.toNat = .releasing → unloadsExtent s e.toNat = true →
         exec (.extentZeroed e) s = .next (unloadStep (extentZeroed e.toNat s)) ∧
         extState (extentZeroed e.toNat s) e.toNat = .zeroed ∧
         (∀ p ∈ s.models, p.2.st = .unloading → (∃ x ∈ p.2.exts, extState (extentZeroed e.toNat s) x ≠ .zeroed) →
           (∀ p' ∈ s.models, p'.2.st = .unloading → p' = p) →
             exec (.extentZeroed e) s = .next (extentZeroed e.toNat s)))) ∧
     (extState s e.toNat ≠ .releasing → extState s e.toNat ≠ .unzeroed → exec (.extentZeroed e) s = .next s)))

/-- O24. RUN_ANNEAL in ADMITTING: no model in reach is 0x46, one not READY or IN_USE 0x47, a failing check of the blocks
its own detail (its order is the model's choice in places, log 62); a run that passes all and reads its states becomes
READY with its model IN_USE. A SEED of 0 is drawn from the TRNG, and the command waits while none is to be had (R121).
RESUME (R389, R390): a save area whose checks fail ends with the detail of the first; otherwise, with the engines and
extents it needs, the restored run becomes READY and DET_RESUMES counts it. RUN_PROGRAM in ADMITTING: an image whose
version or range is wrong is refused with 0x20, otherwise with the lowest detail that fails of R239; one that passes
becomes READY, ordered on the engines of its mask, free on as many of any (R235). A SEED of 0 is drawn from the TRNG,
and the command waits while none is to be had. -/
def Obligations.RunAdmission : Prop :=
  (∀ (k : Key) (c : Cmd) (s : State), admitting s k 0x12 = some c →
     let id := c.p0 % 65536
     (modelFor s c.queue id = none → exec (.runAnneal k) s = .next (refuse c.key 0x46 s)) ∧
     (∀ m, modelFor s c.queue id = some m →
       (m.st ≠ .ready → m.st ≠ .inUse → exec (.runAnneal k) s = .next (refuse c.key 0x47 s)) ∧
       (m.st = .ready ∨ m.st = .inUse →
         (∀ d, annealCheck c m s = some d → exec (.runAnneal k) s = .next (complete c.key d s)) ∧
         (annealCheck c m s = none →
           let swp := slice 0 (128 + 16 * swpSegs (c.block blkSweep)) (c.block blkSweep)
           let rep := c.block blkReplica
           (∀ u, swpSeed swp = 0 → drawSeed s = (none, u) → exec (.runAnneal k) s = .next u ∧ u.cmds = s.cmds ∧
             u.models = s.models) ∧
           (∀ seed u, (if swpSeed swp = 0 then drawSeed s else (some (BitVec.ofNat 64 (swpSeed swp)), s)) = (some seed, u) →
             ∀ states forced bytes v, initialStates c m rep seed u = (.ok (states, forced, bytes), v) →
               exec (.runAnneal k) s =
                 .next (readyRun c (newRun c id m swp rep seed states forced bytes v) m v))))) ∧
     (∀ r m u, let t := readyRun c r m u
       (∀ d ∈ t.cmds, d.key = c.key → d.st = .ready ∧ ∃ r', d.work = .anneal r' ∧ r'.spins = r.spins ∧ r'.seed = r.seed) ∧
       (mdl t r.model).st = .inUse ∧ (mdl t r.model).users = (mdl u r.model).users + 1)) ∧
  (∀ (k : Key) (c : Cmd) (s : State), admitting s k 0x15 = some c →
     (∀ d, resumeCheck c s = .error d → exec (.resume k) s = .next (complete c.key d s)) ∧
     (∀ id m, resumeCheck c s = .ok (id, m) →
       let r := restoreRun m id (c.block blkSave) (!c.freeMode) []
       let need := workspaceExtents m r.sweepBlk r.reps
       (c.freeMode = false → allOnline s = false → exec (.resume k) s = .next (refuse c.key 0x49 s)) ∧
       (c.freeMode = true ∨ allOnline s = true → (freeExtents s).length < need →
         exec (.resume k) s = .next (refuse c.key 0x4A s)) ∧
       (c.freeMode = true ∨ allOnline s = true → need ≤ (freeExtents s).length → exec (.resume k) s =
         .next (readyRun c (restoreRun m id (c.block blkSave) (!c.freeMode) ((freeExtents s).take need)) m
           { s with det := { s.det with resumes := satInc s.det.resumes } })))) ∧
  (∀ (k : Key) (c : Cmd) (s : State), admitting s k 0x13 = some c →
     let h := c.block blkImage
     (headerBad c.p1 h = true → exec (.runProgram k) s = .next (refuse c.key 0x20 s)) ∧
     (headerBad c.p1 h = false → c.blockFail = none →
       let bad := lowest (imageDetails s (!c.freeMode) (slice 0 (0x40 + 16 * imgCount h) h) (c.block blkPreload)
         (c.block blkShare) (c.block blkReduce) (slice 0 64 (c.block blkParam)) c.p2)
       (∀ d, bad = some d → exec (.runProgram k) s = .next (refuse c.key d s)) ∧
       (bad = none →
         (∀ u, c.p3 = 0 → drawSeed s = (none, u) → exec (.runProgram k) s = .next u ∧ u.cmds = s.cmds) ∧
         (∀ seed u, (if c.p3 = 0 then drawSeed s else (some (BitVec.ofNat 64 c.p3), s)) = (some seed, u) →
           ∃ t, exec (.runProgram k) s = .next t ∧ t.mem = u.mem ∧ t.queues = u.queues ∧ t.eng = u.eng ∧
             ∀ d ∈ t.cmds, d.key = c.key → d.st = .ready ∧ (∃ p, d.work = .program p ∧ p.seed = seed) ∧
               d.engines = (if c.freeMode then [] else (List.range 64).filter fun i => (imgMask h).testBit i) ∧
               (c.freeMode = true → d.anyEngines = ((List.range 64).filter fun i => (imgMask h).testBit i).length)))))

/-- O25. COPY needs no engine and is READY at once (R303); COPY_DONE writes the length's bytes and commits, or ends with
the failure of the chunk that failed (R339); a copy whose abort won stops at a 4 KiB boundary (R340) with the decision
it has; that the bytes move at COPY_DONE and that the boundary counts from the copy's start are the model's choice (log
55). ABORT and PAUSE (R337, R340, R341): a target in another context is refused with 0x4B; a command that is not there
gives outcome 2, or 1 with its status when it is among the last completions. A waiting target is decided ABORTED, VALUE
the SEQ of the ABORT, and the ABORT watches it; a pause of anything but a run is refused with 0x4B, and a running run is
decided PAUSED with the save area and the PAUSE it is to answer (R383, R384). -/
def Obligations.CopyAbortPause : Prop :=
  (∀ (k : Key) (c : Cmd) (s : State),
     (admitting s k 0x18 = some c → ∃ t, exec (.copy k) s = .next t ∧ t.mem = s.mem ∧ t.host = s.host ∧
       t.queues = s.queues ∧ ∀ d ∈ t.cmds, d.key = c.key → d.st = .ready ∧ d.work = .copy) ∧
     (running s k = some c → c.work = .copy →
       (c.decided = none →
         (∀ u, copyBytes c c.p3 s = (.ok (), u) → exec (.copyDone k) s = .next (commitOk c.key 0 u)) ∧
         (∀ d u, copyBytes c c.p3 s = (.error d, u) → exec (.copyDone k) s = .next (complete c.key d u))) ∧
       (∀ d done, c.decided = some d → done % 4096 = 0 → done ≤ c.p3 →
         exec (.copyStopsAtBoundary k done) s = .next (completeDecided k (copyBytes c done s).2)))) ∧
  (∀ (k : Key) (c : Cmd) (s : State),
     let tq := c.p0 % 65536
     let tk : Key := ⟨BitVec.ofNat 16 tq, BitVec.ofNat 32 c.p1⟩
     let reach := (que s c.queue).ctx0 = true ∨ (que s tq).ctx = (que s c.queue).ctx
     (actingCmd s k 0x23 = some c →
       (¬ reach → exec (.abort k) s = .next (refuse c.key 0x4B s)) ∧
       (reach → tk ≠ c.key → findCmd s tk = none →
         (∀ p, (que s tq).recent.find? (fun p => p.1 == tk.seq) = some p →
           exec (.abort k) s = .next (complete c.key (mkDecision 0 1 p.2.toNat) s)) ∧
         ((que s tq).recent.find? (fun p => p.1 == tk.seq) = none →
           exec (.abort k) s = .next (complete c.key (mkDecision 0 2 0) s))) ∧
       (∀ t, reach → tk ≠ c.key → findCmd s tk = some t → t.decided = none → t.st = .waiting → t.work = .none →
         exec (.abort k) s = .next (complete t.key (mkDecision 9 0 c.key.seq.toNat) (watch c tk false 0 0 s)))) ∧
     (actingCmd s k 0x14 = some c →
       (¬ reach → exec (.pause k) s = .next (refuse c.key 0x4B s)) ∧
       (∀ t, reach → tk ≠ c.key → findCmd s tk = some t → t.opcode ≠ 0x12 → t.opcode ≠ 0x15 →
         exec (.pause k) s = .next (refuse c.key 0x4B s)) ∧
       (∀ t r, reach → tk ≠ c.key → findCmd s tk = some t → t.opcode = 0x12 ∨ t.opcode = 0x15 → t.decided = none →
         t.st = .running → t.work = .anneal r → r.started = true → r.cls < nColours (mdl s r.model) →
         mayTurn r = true → t.key = tk → ∃ u, exec (.pause k) s = .next u ∧ u.mem = s.mem ∧
           u.queues = s.queues ∧ ∀ d ∈ u.cmds, d.key = tk → d.pause = some ⟨BitVec.ofNat 64 c.p2, c.key.q, c.key.seq⟩ ∧
             ∃ x, d.decided = some x ∧ x.status = 0x0C ∧ x.detail = 1)))

/-! ## Annealing -/

/-- O26. What one turn does to the spins (R94, R97, R114, R118): a held active row of the turn's class takes, in every
replica, the comparator's answer for its field, the replica's rung temperature and the noise of that spin, replica and
sweep; every other spin keeps its value. Nothing else of the run's identity changes. -/
def Obligations.TurnSetsSpins : Prop :=
  ∀ (m : Model) (r : Run), r.spins.length = r.reps →
    let e := evalClass m r r.cls
    let r' := applyTurn m r r.cls e.1 (decisions m r e.2)
    r'.spins.length = r.spins.length ∧ r'.cls = r.cls + 1 ∧ r'.turnNo = r.turnNo + 1 ∧ r'.rung = r.rung ∧
    r'.best = r.best ∧ r'.bestE = r.bestE ∧ r'.sweep = r.sweep ∧ r'.seed = r.seed ∧ r'.ladder = r.ladder ∧
    ∀ a, a < r.spins.length → ∀ i,
      (i ∉ classRows m r.cls → (r'.spins.getD a 0).testBit i = (r.spins.getD a 0).testBit i) ∧
      (∀ ps, (i, ps) ∈ e.2 → ∀ p, ps[a]? = some p → (r'.spins.getD a 0).testBit i =
        newSpin m.form (fieldOf m.form p) (effT r (r.rung.getD a 0)) (noiseL r.seed i r.sweep a 0))

/-- O27. TURN of a run that may go on (R97, R155): the model is read, the spins that peers sent are applied and the
flags of their accumulations counted, the class is evaluated and decided, and the run stands after that turn; DELTA or
FULL is counted. A model line that cannot be read ends the command, whichever of the model's lines it is (the model's
choice, log 8). While lock-step or a split group holds the run (R162, R379) nothing happens. -/
def Obligations.TurnCompletes : Prop :=
  ∀ (k : Key) (c : Cmd) (r : Run) (s : State), running s k = some c → c.work = .anneal r → r.started = true →
    r.stop = none → r.cls < nColours (mdl s r.model) →
    let m := mdl s r.model
    (mayTurn r = false → exec (.turn k) s = .next s) ∧
    (mayTurn r = true →
      (∀ d u, modelRead m s = (some d, u) → exec (.turn k) s = .next (failCmd c d u)) ∧
      (∀ u r' v, modelRead m s = (none, u) → turnOf m (applyArrived m r).1 (countEvals (applyArrived m r).2 u) = some (r', v) →
        r.split.devices ≤ 1 →
        c.decided = none → ∃ t, exec (.turn k) s = .next t ∧ t.anl = v.anl ∧ t.mem = v.mem ∧ t.queues = v.queues ∧
          (∀ d ∈ t.cmds, d.key = c.key → d.work = .anneal r') ∧
          v.anl.full + v.anl.delta = u.anl.full + u.anl.delta + 1))

/-- O28. SWEEP_BOUNDARY of a run without a split group (R155): the energies, then the best energies (R149), then
either the run goes on with one more sweep done and class 0, or a stop condition (R153) commits it. The sweep is
counted. BEST_STATE_COPY (R151): the next row block of its engine is copied into the best states of the replicas that
improved, bits outside the block and other replicas unchanged, and is no longer outstanding; a row block that is not
next is left alone. Which flip lists a recompute takes is the model's choice (log 71). -/
def Obligations.SweepBoundaryAndBest : Prop :=
  (∀ (k : Key) (c : Cmd) (r : Run) (u s : State), running s k = some c → c.work = .anneal r → r.started = true →
     r.stop = none → r.cls = nColours (mdl s r.model) → r.split.devices ≤ 1 →
     modelRead (mdl s r.model) s = (none, u) →
     let m := mdl s r.model
     let f := finalEnergies m r none u
     let b := updateBest m f.1
     let n := { b with done := b.done + 1 }
     (∀ a, a < r.reps → b.bestE.getD a 0 =
       if energyLt m.form (f.1.energy.getD a 0) (f.1.bestE.getD a 0) then f.1.energy.getD a 0 else f.1.bestE.getD a 0) ∧
     (stopNow m n = none → r.digest = false → c.decided = none → ∃ t, exec (.sweepBoundary k) s = .next t ∧
       t.anl.sweeps = s.anl.sweeps + 1 ∧ t.queues = s.queues ∧
       ∀ d ∈ t.cmds, d.key = c.key → ∃ q, d.work = .anneal q ∧ q.done = b.done + 1 ∧ q.sweep = b.sweep + 1 ∧ q.cls = 0 ∧
         q.bestE = b.bestE ∧ q.spins = r.spins ∧ q.stop = none ∧ (exchangeDue b = false → q.rung = r.rung)) ∧
     (∀ st, stopNow m n = some st → r.digest = false → c.pause = none → exec (.sweepBoundary k) s =
       .next (commitRun c m { n with sweep := b.sweep + 1, cls := 0, stop := some st }
         { f.2 with anl := { f.2.anl with sweeps := f.2.anl.sweeps + 1 } }))) ∧
  ((∀ (r : Run) (b : Nat) (l : List Nat), r.copies.find? (fun p => p.1 == b) = some (b, l) →
     let q := copyBest r b
     q.copies = r.copies.filter (fun p => p.1 != b) ∧ q.spins = r.spins ∧
     ∀ a, a < r.reps → ∀ i, (q.best.getD a 0).testBit i =
       if a ∈ l ∧ 128 * b ≤ i ∧ i < 128 * b + 128 then (r.spins.getD a 0).testBit i else (r.best.getD a 0).testBit i) ∧
   (∀ (k : Key) (c : Cmd) (r : Run) (b : Nat) (s : State), running s k = some c → c.work = .anneal r →
     (copyNext r b = false → exec (.bestStateCopy k b) s = .next s) ∧
     (copyNext r b = true → c.decided = none → ∃ t, exec (.bestStateCopy k b) s = .next t ∧ t.queues = s.queues ∧
       t.mem = s.mem ∧ ∀ d ∈ t.cmds, d.key = c.key → d.work = .anneal (copyBest r b))))

/-- O29. An exchange round only trades (R142 to R145): if every rung of every ladder has a replica of that ladder, it
has one after the round; spins and energies stay with their replicas. -/
def Obligations.ExchangeKeepsLadders : Prop :=
  ∀ (form : Nat) (r : Run), r.rung.length = r.reps → r.rungs ≠ 0 →
    (∀ g k, g < r.reps / r.rungs → k < r.rungs → ∃ a, g * r.rungs ≤ a ∧ a < (g + 1) * r.rungs ∧ r.rung.getD a r.rungs = k) →
    let q := exchangeRound form r
    q.rung.length = r.rung.length ∧ q.spins = r.spins ∧ q.energy = r.energy ∧ q.bestE = r.bestE ∧
    ∀ g k, g < r.reps / r.rungs → k < r.rungs → ∃ a, g * r.rungs ≤ a ∧ a < (g + 1) * r.rungs ∧ q.rung.getD a r.rungs = k

/-- O30. ENGINE_FAILURE (R43): a physical engine that serves none is only lost; one that serves a logical engine ends
its command with ENGINE_FAULT, detail 1, its WHERE the logical engine, unless the command has committed (R338, R339), and
is not mapped any more; its cluster's spare, where one is usable, takes its place with its scratchpad zeroed. DET_OFFLINE
and DET_SUBST follow a substitution only (R356). -/
def Obligations.EngineFailureEffect : Prop :=
  ∀ (p : Fin 72) (s : State), isUp s = true →
    (servedBy s p.val = none → ∃ t, exec (.engineFailure p) s = .next t ∧ p.val ∈ t.emap.failed ∧
      t.emap.phys = s.emap.phys ∧ t.cmds = s.cmds ∧ t.mem = s.mem) ∧
    (∀ n, servedBy s p.val = some n → ∃ t, exec (.engineFailure p) s = .next t ∧ p.val ∈ t.emap.failed ∧
      t.emap.bad = s.emap.bad ∧ t.fuse = s.fuse ∧ p.val ∉ t.pwr.offReq ∧
      (let u := logEvent 0x50 2 [n, p.val, 1] s
        let v := match (eng s n).cmd with
          | some k => (match findCmd s k with
            | some c => if c.committed = true then u else failCmd c (atEngine n (mkDecision 4 1 0)) u
            | none => u)
          | none => u
        t.cmds = v.cmds ∧ t.queues = v.queues ∧ t.fences = v.fences) ∧
      (let gone := { s with emap := { s.emap with failed := s.emap.failed ++ [p.val], phys := Tab.put 0 s.emap.phys n 0 } };
        (spareFor gone (p.val / 9) = none → t.emap.phys = Tab.put 0 s.emap.phys n 0 ∧
          t.emap.offline = s.emap.offline ∧ t.emap.subst = s.emap.subst) ∧
        (∀ q, spareFor gone (p.val / 9) = some q → t.emap = mapMasks { gone.emap with
          phys := Tab.put 0 gone.emap.phys n (q + 1) } ∧ ∀ b ∈ t.mem.spad, b.1 / slotBytes ≠ q)))

/-! ## Engine programs -/

/-- O31. The register file (R215): A0 reads 0 and a write to it is ignored; another register reads what was last
written to it, and a write leaves the others alone. The scalar instructions (R215, R216): SET, ADD (modulo 2^32), TIME
and CLAIM write their register and go on; BR and LOOP go to the target or on; nothing else of the engine changes, and
nothing outside it but the program's claim count. LOOP subtracts 1 and branches unless the result is 0; on A0, which reads 0
afterwards, it never branches (the model's choice, log 50). -/
def Obligations.ScalarState : Prop :=
  (∀ (e : Engine) (i j v : Nat),
     aReg e 0 = 0 ∧ setA 0 v e = e ∧ (Tab.wf 0 e.areg = true → Tab.wf 0 (setA i v e).areg = true) ∧
     (i ≠ 0 → aReg (setA i v e) i = v % 2 ^ 32) ∧ (j ≠ i → aReg (setA i v e) j = aReg e j) ∧
     setA i v e = { e with areg := (setA i v e).areg }) ∧
  (∀ (n : Fin 64) (s u : State) (x : Ectx),
     let r := x.ins.par 3 0
     (issuing 0x20 n.val s x u → ∃ t, exec (.set n) s = .next t ∧
       engineBecomes n.val (setA r x.ins.a x.e).onward u t) ∧
     (issuing 0x21 n.val s x u → ∃ t, exec (.add n) s = .next t ∧
       engineBecomes n.val (setA r (aReg x.e (x.ins.par 7 4) + x.ins.a) x.e).onward u t) ∧
     (issuing 0x29 n.val s x u → ∃ t, exec (.time n) s = .next t ∧ engineBecomes n.val
       (setA r (if x.ins.par 4 4 = 1 then (s.now - s.boot.t0) % 2 ^ 64 / 2 ^ 32 else (s.now - s.boot.t0) % 2 ^ 64) x.e).onward
       u t) ∧
     (issuing 0x24 n.val s x u →
       let taken := brTaken (x.ins.par 6 4) (aReg x.e r)
       ∃ t, exec (.br n) s = .next t ∧
         engineBecomes n.val (if taken then { x.e with pc := x.ins.a, pst := .run } else x.e.onward) u t) ∧
     (issuing 0x25 n.val s x u → ∃ t, exec (.loop n) s = .next t ∧
       let e := setA r (aReg x.e r + (2 ^ 32 - 1)) x.e
       engineBecomes n.val (if aReg e r = 0 then e.onward else { e with pc := x.ins.a, pst := .run }) u t) ∧
     (issuing 0x27 n.val s x u → ∃ t, exec (.claim n) s = .next t ∧
       eng t n.val = (setA r (claimOf x.p x.i).1 x.e).onward ∧ (∀ m, m ≠ n.val → eng t m = eng u m) ∧
       t.mem = u.mem ∧ t.cmds = u.cmds.map fun d =>
         if d.key = x.c.key then { d with work := .program (claimOf x.p x.i).2 } else d))

/-- O32. CLAIM's value (R234): ordered, program engine i gets i, i + count, i + 2·count, and so on; free, the next
index of all; past the last item 0xFFFF_FFFF. BR's conditions (R216): always, zero, not zero, negative, not negative
as a signed word. -/
def Obligations.ClaimsAndBranches : Prop :=
  (∀ (p : Prog) (i : Nat),
     (p.ordered = true → let v := i + Tab.get 0 p.claimCnt i * p.engs.length
       (claimOf p i).1 = (if v < imgItems p.image then v else 0xFFFFFFFF) ∧
       Tab.get 0 (claimOf p i).2.claimCnt i = Tab.get 0 p.claimCnt i + 1 ∧ (claimOf p i).2.claimNext = p.claimNext ∧
       ∀ j, j ≠ i → Tab.get 0 (claimOf p i).2.claimCnt j = Tab.get 0 p.claimCnt j) ∧
     (p.ordered = false → (claimOf p i).1 = (if p.claimNext < imgItems p.image then p.claimNext else 0xFFFFFFFF) ∧
       (p.claimNext < imgItems p.image → (claimOf p i).2.claimNext = p.claimNext + 1) ∧
       (claimOf p i).2.claimCnt = p.claimCnt)) ∧
  (∀ w : Word, brTaken 0 w.toNat = true ∧ (brTaken 1 w.toNat = true ↔ w = 0) ∧ (brTaken 2 w.toNat = true ↔ w ≠ 0) ∧
     (brTaken 3 w.toNat = true ↔ w.toInt < 0) ∧ (brTaken 4 w.toNat = true ↔ 0 ≤ w.toInt))

/-- O33. Units and their queues (R31, R207, R208; which row does what is the model's choice, log 68): an instruction for
the array, the vector unit or the local DMA is issued when none of its opcode waits to go on; with four instructions
waiting in its unit's queue nothing happens, with too many ranges in use the engine waits, else it is handed to the unit
with the registers as they are, and the PC goes on. What goes on has no earlier unfinished instruction in its way; one
that cannot yet may have its group's transfer begun, which keeps every group's sums. Of a stopped program (R340) the
instructions in progress finish, and with the last of them the command completes (log 32). LD, ST and VOP (R216, R228,
R242): a load or store waits for an unfinished instruction that it meets; an operand that names no units is fault 0x10,
one that would write the program 0x11; LD puts 4 bytes of a unit into its register; ST writes the register's 4 bytes
into the unit, its other 12 bytes kept; VOP writes its results to OPC, with TRANS tile by tile in columns. -/
def Obligations.LoadStoreVector : Prop :=
  ∀ (n : Fin 64) (s u : State) (x : Ectx),
    (∀ r ∈ [(1, true, Instr.openGroup n true, openIns true), (1, false, .openGroup n false, openIns false),
        (2, true, .mma n true, mmaIns true), (2, false, .mma n false, mmaIns false), (3, true, .drain n true, drainIns true),
        (3, false, .drain n false, drainIns false), (4, true, .sample n true, sampleIns true),
        (4, false, .sample n false, sampleIns false), (5, false, .discard n, discardIns), (8, false, .red n, redIns),
        (0x10, false, .vop n, vopIns), (0x18, false, .dma n, dmaIns), (0x19, false, .atomf n, atomfIns)],
      let op := r.1
      let begins := r.2.1
      let c := r.2.2.1
      (issuing op n.val s x u → firstFree (eng s n.val) op begins = none → firstTransfer (eng s n.val) op = none →
        let v := updEng n.val (fun e => { e with
          units := e.units ++ [⟨e.pc, x.ins, e.areg, false⟩], pc := e.pc + 1, pst := .run }) u
        (queueFull x.e op = true → exec c s = .next s) ∧
        (queueFull x.e op = false → rangesFull x.e x.ins = true →
          exec c s = .next (updEng n.val (fun e => { e with pst := .waitHazard }) s)) ∧
        (queueFull x.e op = false → rangesFull x.e x.ins = false →
          (unitFree (eng v n.val) x.e.units.length = false → exec c s = .next v) ∧
          (unitFree (eng v n.val) x.e.units.length = true → ∃ y, working op n.val s y v begins ∧ y.ins = x.ins ∧
            y.begun = false ∧ y.ix = x.e.units.length ∧ y.e.areg = x.e.areg ∧ y.e.pc = x.e.pc))) ∧
      (∀ e, progOf s n.val ≠ none → firstFree (eng s n.val) op begins = none → firstTransfer (eng s n.val) op = some e →
        exec c s = .next (setEng n.val e s) ∧ e.units = (eng s n.val).units ∧ e.pc = (eng s n.val).pc ∧
        e.areg = (eng s n.val).areg ∧ ∀ g, (grp e g).acc = (grp (eng s n.val) g).acc ∧
          (grp e g).flags = (grp (eng s n.val) g).flags ∧ (grp e g).k = (grp (eng s n.val) g).k ∧
          (grp e g).float = (grp (eng s n.val) g).float) ∧
      (working op n.val s x u begins → x.ins.op = op ∧ (begins = true → x.begun = false) ∧
        x.ix < (eng u n.val).units.length ∧ exec c s = .next (r.2.2.2 x u) ∧
        ∀ y ∈ (eng u n.val).units.take x.ix, unitBehind (eng u n.val) y ⟨x.e.pc, x.ins, x.e.areg, x.begun⟩ = false) ∧
      (unitGo op n.val s begins = .run x u → x.c.decided ≠ none →
        exec c s = .next (programStops x.c.key (r.2.2.2 x u)))) ∧
    (∀ (k : Key) (v : State),
      ((∃ m, m < 64 ∧ (eng v m).cmd = some k ∧ (eng v m).units ≠ []) → programStops k v = v) ∧
      ((∀ m, m < 64 → (eng v m).cmd = some k → (eng v m).units = []) → programStops k v = completeDecided k v)) ∧
    ((issuing 0x22 n.val s x u ∧ mustWait x = true → ∃ t, exec (.ld n) s = .next t ∧
        engineBecomes n.val { x.e with pst := .waitHazard } u t) ∧
     (issuing 0x23 n.val s x u ∧ mustWait x = true → ∃ t, exec (.st n) s = .next t ∧
        engineBecomes n.val { x.e with pst := .waitHazard } u t)) ∧
    (issuing 0x22 n.val s x u → mustWait x = false →
      (spanOf x.e x.ins.a 1 false = none → exec (.ld n) s = .next (progFault x 0x10 u)) ∧
      (∀ ps bs v, spanOf x.e x.ins.a 1 false = some ps → readSpan n.val ps u = (.ok bs, v) → ∃ t,
        exec (.ld n) s = .next t ∧ engineBecomes n.val
          (setA (x.ins.par 3 0) (leAt bs (4 * x.ins.par 5 4) 4) (eng v n.val)).onward v t)) ∧
    (issuing 0x23 n.val s x u → mustWait x = false → x.ins.a ≠ 0xC0000000 →
      (spanOf x.e x.ins.a 1 false = none → exec (.st n) s = .next (progFault x 0x10 u)) ∧
      (∀ ps, spanOf x.e x.ins.a 1 false = some ps →
        (hitsProgram x.p ps = true → exec (.st n) s = .next (progFault x 0x11 u)) ∧
        (hitsProgram x.p ps = false → ∀ bs v, readSpan n.val ps u = (.ok bs, v) →
          let w := writeSpan n.val ps (patchAt bs (4 * x.ins.par 5 4) (leBytes 4 (aReg x.e (x.ins.par 3 0)))) v
          ∃ t, exec (.st n) s = .next t ∧ engineBecomes n.val (eng w n.val).onward w t))) ∧
    (working 0x10 n.val s x u →
      let cnt := aReg x.e (x.ins.par 11 8)
      let si := vopBytes (x.ins.par 14 12)
      let so := vopBytes (x.ins.par 17 15)
      let ub := if x.ins.b = 0xC0000000 then 0 else elemUnits cnt so
      let db := if x.ins.b = 0xC0000000 then 0 else x.ins.b
      (x.ins.flag = true → cnt % 65536 ≠ 0 → exec (.vop n) s = .next (progFault x 0x10 u)) ∧
      (x.ins.flag = false ∨ cnt % 65536 = 0 →
        (∀ f, spanW x x.ins.c (elemUnits cnt so) = .error f → exec (.vop n) s = .next (progFault x f u)) ∧
        (∀ pc, spanW x x.ins.c (elemUnits cnt so) = .ok pc → spanOf x.e x.ins.a (elemUnits cnt si) false = none →
          exec (.vop n) s = .next (progFault x 0x10 u)) ∧
        ∀ pc pa as v pb bs w, spanW x x.ins.c (elemUnits cnt so) = .ok pc →
          spanOf x.e x.ins.a (elemUnits cnt si) false = some pa → readSpan n.val pa u = (.ok as, v) →
          spanOf x.e db ub false = some pb → readSpan n.val pb v = (.ok bs, w) →
          let res := ((elems si cnt as).zip (elems so cnt bs)).map fun p =>
            vopOut (x.ins.par 17 15) (vopElem (x.ins.par 3 0) (vopIn (x.ins.par 14 12) p.1) (vopIn (x.ins.par 17 15) p.2)
              (fp32.dec (aReg x.e (x.ins.par 7 4))))
          exec (.vop n) s = .next (updEng n.val (fun e => e.retired x.ix) (writeSpan n.val pc
            ((if x.ins.flag then transOrder (cnt / 65536) res else res).flatMap (leBytes so)) w))))

/-- O34. OPEN and DISCARD (R183 to R188, R205): OPEN begins by taking a free tile register, ACCUM for an empty group and
START for a loaded one, and ends with the group resident and its start values in; opening an open group is fault 6; with
no register free it waits. DISCARD closes an open group, and naming a closed one is fault 2. Other groups stay. DRAIN and
SAMPLE (R189 to R197, R219, R222): a closed group is fault 2, for DRAIN an output format off the group's path fault 5;
otherwise the group is DRAINING from the instruction's beginning, and at its end the elements, the row record and the
status word, or the spins and means, are written, the group closes and is counted. An instruction may begin and end in
one (the model's choice, log 68), and all its operands are checked before it writes (log 31). -/
def Obligations.GroupInstructions : Prop :=
  (∀ (n : Fin 64) (s u : State) (x : Ectx),
     let g := x.ins.group
     let start := x.ins.par 2 1
     let fmt := x.ins.par 4 3
     let fresh := x.begun = false ∧ (grp x.e g).st = .closed
     (∀ b, working 1 n.val s x u b →
       (x.begun = false → (grp x.e g).st ≠ .closed → (grp x.e g).st ≠ .draining →
         exec (.openGroup n b) s = .next (progFault x 6 u)) ∧
       (x.begun = false → (grp x.e g).st = .draining → exec (.openGroup n b) s = .next u) ∧
       (∀ e, fresh → seatNew (eng u n.val) g = .wait e → exec (.openGroup n b) s = .next (setEng n.val e u))) ∧
     (working 1 n.val s x u true → x.begun = false ∧
       (∀ t, fresh → seatNew (eng u n.val) g = .at t → ∃ e, exec (.openGroup n true) s = .next (setEng n.val e u) ∧
         (grp e g).st = (if start = 0 then .resident else .starting) ∧ (grp e g).acc = [] ∧ (grp e g).tile = t ∧
         ((grp e g).float = true ↔ x.ins.par 0 0 = 1) ∧ tileAt e t = (if start = 0 then .accum else .start) ∧
         (∀ h, h ≠ g → grp e h = grp x.e h) ∧ e.units = setBegun x.ix (eng u n.val).units ∧ e.pc = (eng u n.val).pc)) ∧
     (working 1 n.val s x u →
       (∀ t, (x.begun = true ∧ t = (grp x.e g).tile) ∨ (fresh ∧ seatNew (eng u n.val) g = .at t) →
         (start = 0 → ∃ e, exec (.openGroup n false) s = .next (setEng n.val e u) ∧ (grp e g).st = .resident ∧
           (grp e g).acc = [] ∧ (grp e g).k = 0 ∧ (grp e g).n = 0 ∧ (grp e g).flags = 0 ∧ (grp e g).tile = t ∧
           ((grp e g).float = true ↔ x.ins.par 0 0 = 1) ∧ (∀ h, h ≠ g → grp e h = grp x.e h) ∧ tileAt e t = .held ∧
           e.units = (eng u n.val).units.eraseIdx x.ix ∧ e.pc = (eng u n.val).pc ∧ e.areg = (eng u n.val).areg) ∧
         (start ≠ 0 → let units := if start = 1 then 32 else if fmt = 2 then 32768 else 16384
           (spanOf x.e x.ins.a units false = none → exec (.openGroup n false) s = .next (progFault x 0x10 u)) ∧
           (∀ ps bs v, spanOf x.e x.ins.a units false = some ps → readSpan n.val ps u = (.ok bs, v) →
             let accs := startAccs (x.ins.par 0 0 == 1) start fmt bs
             ∃ e, exec (.openGroup n false) s = .next (setEng n.val e v) ∧ (grp e g).st = .resident ∧
               (grp e g).acc = accTab (accs.map Prod.fst) ∧ (grp e g).k = 0 ∧ (grp e g).n = 0 ∧ (grp e g).tile = t ∧
               (grp e g).flags = BitVec.ofNat 6 (accs.foldl (fun a p => a ||| p.2) 0) ∧
               ((grp e g).float = true ↔ x.ins.par 0 0 = 1) ∧ tileAt e t = .held ∧
               e.units = (eng v n.val).units.eraseIdx x.ix)))) ∧
     (working 5 n.val s x u →
       ((grp x.e g).st = .closed → exec (.discard n) s = .next (progFault x 2 u)) ∧
       ((grp x.e g).st = .parking ∨ (grp x.e g).st = .unparking ∨ (grp x.e g).st = .draining →
         exec (.discard n) s = .next u) ∧
       ((grp x.e g).st = .resident ∨ (grp x.e g).st = .parked → ∃ e, exec (.discard n) s =
           .next (updEng n.val (fun e => e.retired x.ix) (setEng n.val e u)) ∧
         (grp e g).st = .closed ∧ (grp e g).acc = [] ∧ (grp e g).flags = (grp x.e g).flags ∧
         (∀ h, h ≠ g → grp e h = grp x.e h) ∧ e.pc = (eng u n.val).pc ∧
         ((grp x.e g).st = .resident → tileAt e (if (grp x.e g).tile = 0 then 0 else 1) = .empty)))) ∧
  (∀ (n : Fin 64) (s u : State) (x : Ectx),
      let g := x.ins.group
      let y := grp x.e g
      let seated := x.begun = true ∨ ∃ t, y.st ≠ .closed ∧ seatOf (eng u n.val) g = .at t
      let begins := fun (op : Nat) (ok : Prop) (c : Instr) => working op n.val s x u true → x.begun = false ∧
        (∀ t, ok → y.st ≠ .closed → seatOf (eng u n.val) g = .at t → ∃ e, exec c s = .next (updEng n.val
            (fun e => { e with units := setBegun x.ix e.units }) (setEng n.val e u)) ∧ (grp e g).st = .draining ∧
          (grp e g).acc = y.acc ∧ (grp e g).tile = y.tile ∧ (∀ h, h ≠ g → grp e h = grp x.e h) ∧ tileAt e t = .drain)
      (let fmt := x.ins.par 2 0
       let red := x.ins.par 10 8
       let lawful := outAllowed y.float fmt = true ∧ (red ≠ 4 ∨ y.float = true)
       (∀ b, working 3 n.val s x u b →
         (x.begun = false → y.st = .closed → exec (.drain n b) s = .next (progFault x 2 u)) ∧
         (x.begun = false → y.st ≠ .closed → ¬lawful → exec (.drain n b) s = .next (progFault x 5 u)) ∧
         (∀ e, x.begun = false → y.st ≠ .closed → lawful → seatOf (eng u n.val) g = .wait e →
           exec (.drain n b) s = .next (setEng n.val e u))) ∧
       begins 3 lawful (.drain n true) ∧
       (working 3 n.val s x u → x.begun = true ∨ lawful → seated →
         let l := [(x.ins.a, 4096 * outBytes fmt), (x.ins.b, 1), (x.ins.c, if red = 0 then 0 else 128)]
         (∀ f, spansW x l = .error f → exec (.drain n false) s = .next (progFault x f u)) ∧
         (∀ pa pb pc, spansW x l = .ok [pa, pb, pc] →
           let d := drained y fmt (x.ins.par 7 3)
           let v := writeSpan n.val pb (tileStatus g y fmt d.2) (writeSpan n.val pc
             (rowRecord red fmt (x.ins.par 19 11 + 1) d.1) (writeSpan n.val pa (tileBytes (outBytes fmt) x.ins.flag d.1) u))
           ∃ z, exec (.drain n false) s = .next z ∧ z.mem = v.mem ∧ z.arr = (countClose d.2 v).arr ∧
             (grp (eng z n.val) g).st = .closed ∧ (grp (eng z n.val) g).flags = BitVec.ofNat 6 d.2 ∧
             (eng z n.val).pc = (eng u n.val).pc ∧ (eng z n.val).units = (eng u n.val).units.eraseIdx x.ix ∧
             (∀ m, m ≠ n.val → eng z m = eng u m)))) ∧
      (let mf := x.ins.par 18 16
       (∀ b, working 4 n.val s x u b →
         (x.begun = false → y.st = .closed → exec (.sample n b) s = .next (progFault x 2 u)) ∧
         (∀ e, x.begun = false → y.st ≠ .closed → seatOf (eng u n.val) g = .wait e →
           exec (.sample n b) s = .next (setEng n.val e u))) ∧
       begins 4 True (.sample n true) ∧
       (working 4 n.val s x u → seated →
         let l := [(x.ins.a, 512), (x.ins.b, 512), (x.ins.c, 4096 * meanBytes mf)]
         (∀ f, spansW x l = .error f → exec (.sample n false) s = .next (progFault x f u)) ∧
         (∀ pa pb pc, spansW x l = .ok [pa, pb, pc] →
           let fs := (accsOf y).map (sampleField y)
           let ups := fs.zipIdx.map fun p => sampleUp x.p.seed (aReg x.e (x.ins.par 3 0))
             ((aReg x.e (x.ins.par 7 4) + p.2 / 512) % 2 ^ 32) (aReg x.e (x.ins.par 15 12))
             ((aReg x.e (x.ins.par 11 8) + p.2 % 512) % 2 ^ 32) p.1.1
           let v := writeSpan n.val pc (tileBytes (meanBytes mf) (x.ins.par 19 19 == 1) (fs.map fun p =>
             floatOut mf (sampleMean (aReg x.e (x.ins.par 3 0)) p.1)))
             (writeSpan n.val pb (spinCols ups) (writeSpan n.val pa (spinRows ups) u))
           ∃ z, exec (.sample n false) s = .next z ∧ z.mem = v.mem ∧ (grp (eng z n.val) g).st = .closed ∧
             (eng z n.val).pc = (eng u n.val).pc ∧ (eng z n.val).units = (eng u n.val).units.eraseIdx x.ix ∧
             (∀ m, m ≠ n.val → eng z m = eng u m)))))

/-- O35. MMA (R170, R183, R218): a closed group is fault 2, a pairing outside R169's table or off the group's path fault
3; otherwise, with its register at hand, the register is ACCUM from the beginning, and at the end the group takes K
further products, the steps are counted and the register is HELD. Which row is the beginning and which the end, and that
one may be both, is the model's choice (log 68). -/
def Obligations.MmaEffect : Prop :=
  ∀ (n : Fin 64) (s u : State) (x : Ectx),
    let g := x.ins.group
    let rf := x.ins.par 2 0
    let cf := x.ins.par 5 3
    let k := x.ins.c % 2 ^ 24
    let lawful := (grp x.e g).st ≠ .closed ∧ pairPath rf cf = some (grp x.e g).float
    (∀ b, working 2 n.val s x u b →
      (x.begun = false → (grp x.e g).st = .closed → exec (.mma n b) s = .next (progFault x 2 u)) ∧
      (x.begun = false → (grp x.e g).st ≠ .closed → pairPath rf cf ≠ some (grp x.e g).float →
        exec (.mma n b) s = .next (progFault x 3 u)) ∧
      (∀ e, x.begun = false → lawful → seatOf (eng u n.val) g = .wait e → exec (.mma n b) s = .next (setEng n.val e u))) ∧
    (working 2 n.val s x u true → x.begun = false ∧
      ∀ t, lawful → seatOf (eng u n.val) g = .at t → ∃ e, exec (.mma n true) s = .next (updEng n.val
          (fun e => { e with units := setBegun x.ix e.units }) (setEng n.val e u)) ∧
        (∀ h, { grp e h with named := 0 } = { grp x.e h with named := 0 }) ∧ tileAt e t = .accum) ∧
    (working 2 n.val s x u → ∀ t, (x.begun = true ∧ (grp x.e g).st ≠ .closed ∧ t = (grp x.e g).tile) ∨
        (x.begun = false ∧ lawful ∧ seatOf (eng u n.val) g = .at t) →
      (spanOf x.e x.ins.a (k * rowUnits rf) (decide (4 ≤ rowUnits rf)) = none →
        exec (.mma n false) s = .next (progFault x 0x10 u)) ∧
      (∀ pa rows v pb cols w, spanOf x.e x.ins.a (k * rowUnits rf) (decide (4 ≤ rowUnits rf)) = some pa →
        readSpan n.val pa u = (.ok rows, v) → spanOf x.e x.ins.b (k * colUnits cf) true = some pb →
        readSpan n.val pb v = (.ok cols, w) → ∃ z, exec (.mma n false) s = .next z ∧
        z.arr = { w.arr with steps := w.arr.steps + BitVec.ofNat 64 (k * pairSteps rf cf) } ∧
        z.mem = w.mem ∧ (∀ m, m ≠ n.val → eng z m = eng w m) ∧ (eng z n.val).pc = (eng w n.val).pc ∧
        (eng z n.val).units = (eng w n.val).units.eraseIdx x.ix ∧ tileAt (eng z n.val) t = .held ∧
        { grp (eng z n.val) g with named := 0 } =
          { mmaGroup (grp (eng w n.val) g) rf cf (x.ins.par 11 6) x.ins.flag
              ((vectors (rowUnits rf) k rows).zip (vectors (colUnits cf) k cols)) with named := 0 }))

/-- O36. The integer path (R173): every product is added exactly and the sum clamped to int32, accumulation goes
on from the clamped value, and SAT tells that a clamp changed a sum; while no sum leaves the range the result is
exact. The start value of each nib is written into its v when the group opens: 0, its row's, or its own. Each nib of an
integer group after an MMA: its accumulator with its row's and column's products added in order; K rises by the number of
products, the kind stays, and the group's SAT flag is set if a clamp changed one of its sums, and never cleared. Being
named, parked and unparked keeps the sums and the flag, and a combined group has the flag of each of its parts. -/
def Obligations.IntegerMma : Prop :=
  ((∀ (v : Word) (p : Int), (intStep v p).1.toInt = max (-2147483648) (min 2147483647 (v.toInt + p)) ∧
     ((intStep v p).2 = 0 ↔ -2147483648 ≤ v.toInt + p ∧ v.toInt + p ≤ 2147483647) ∧
     ((intStep v p).2 = 0 ∨ (intStep v p).2 = 1)) ∧
   (∀ (v : Word) (f : Nat) (a b : List Int), sumInt v f (a ++ b) = sumInt (sumInt v f a).1 (sumInt v f a).2 b) ∧
   (∀ (v : Word) (f : Nat) (ps : List Int), (f.testBit 0 = true → (sumInt v f ps).2.testBit 0 = true) ∧
     ((∀ m, m ≤ ps.length → -2147483648 ≤ v.toInt + (ps.take m).sum ∧ v.toInt + (ps.take m).sum ≤ 2147483647) →
       (sumInt v f ps).1.toInt = v.toInt + ps.sum ∧ (sumInt v f ps).2 = f))) ∧
  ((∀ (x : Group) (l : List Acc), l.length = 65536 → accsOf { x with acc := accTab l } = l) ∧
   (∀ x : Group, x.acc = [] → ∀ i, i < 65536 → ((accsOf x).getD i Acc.zero).v = 0) ∧
   (∀ bs : List Byte,
     (startAccs false 1 0 bs).length = 65536 ∧ (startAccs false 2 0 bs).length = 65536 ∧
     ∀ r c, r < 128 → c < 512 →
       ((startAccs false 1 0 bs).getD (512 * r + c) (Acc.zero, 0)).1.v = BitVec.ofNat 32 (leAt bs (4 * r) 4) ∧
       ((startAccs false 2 0 bs).getD (512 * r + c) (Acc.zero, 0)).1.v = BitVec.ofNat 32 (leAt bs (4 * (512 * r + c)) 4))) ∧
  (∀ (x : Group) (rf cf sigma : Nat) (neg : Bool) (vs : List (Nat × Nat)), x.float = false →
     let y := mmaGroup x rf cf sigma neg vs
     y.k = x.k + vs.length ∧ y.float = x.float ∧ y.st = x.st ∧
     ∀ r c, r < 128 → c < 512 → ((accsOf y).getD (512 * r + c) Acc.zero).v =
       (sumInt ((accsOf x).getD (512 * r + c) Acc.zero).v 0 (nibInts rf cf sigma neg vs r c)).1) ∧
  (∀ (x : Group) (rf cf sigma : Nat) (neg : Bool) (vs : List (Nat × Nat)), x.float = false →
     ((mmaGroup x rf cf sigma neg vs).flags.getLsbD 0 = true ↔ x.flags.getLsbD 0 = true ∨ ∃ r c, r < 128 ∧ c < 512 ∧
       (sumInt ((accsOf x).getD (512 * r + c) Acc.zero).v 0 (nibInts rf cf sigma neg vs r c)).2 ≠ 0)) ∧
  ((∀ (e : Engine) (g h : Nat), ∀ e' ∈ [nameGroup g e, parkEnds g e, unparkEnds g e],
     (grp e' h).acc = (grp e h).acc ∧ (grp e' h).flags = (grp e h).flags) ∧
   (∀ (gs : List Group) (b : Bool) (x : Group), x ∈ gs → x.flags.getLsbD 0 = true →
     (combineGroups gs b).flags.getLsbD 0 = true))

/-- O37. Instructions on which engines meet (R226, R234, R241, R369): RED, BAR and END of an engine that is not the last
one note it and wait; the last RED combines, the last BAR takes a checkpoint of a digested program and lets all go on,
the last END commits the program (how engines wait is the model's choice, logs 32, 68). BAR and END wait until the
engine's own instructions have finished. RED outside its entry is fault 0x14, END with an open group 0x15. WAITANY
writes the index of the DMA that ended, or 0xFFFF_FFFF with none left. -/
def Obligations.MeetingInstructions : Prop :=
  ∀ (n : Fin 64) (s u : State) (x : Ectx),
    (working 8 n.val s x u →
      let g := x.ins.group
      let entry := x.ins.par 4 0
      let parts := x.p.reduces.getD entry []
      let me : RedWait := ⟨x.i, entry, g, x.ins.flag⟩
      ((grp x.e g).st = .closed → exec (.red n) s = .next (progFault x 2 u)) ∧
      ((grp x.e g).st ≠ .closed → x.i ∉ parts ∨ redCross x.p x.i entry = true →
        exec (.red n) s = .next (progFault x 0x14 u)) ∧
      (∀ e, (grp x.e g).st ≠ .closed → x.i ∈ parts → redCross x.p x.i entry = false →
        seatOf (eng u n.val) g = .wait e → exec (.red n) s = .next (setEng n.val e u)) ∧
      (∀ t, (grp x.e g).st ≠ .closed → x.i ∈ parts → redCross x.p x.i entry = false → seatOf (eng u n.val) g = .at t →
        let v := updEng n.val (fun e => { e with units := setBegun x.ix e.units }) (updEng n.val (nameGroup g)
          (updProg x.c.key (fun p => { p with waitRed := p.waitRed ++ [me] }) u))
        ((redWaits x.p entry).length + 1 ≠ parts.length → exec (.red n) s = .next v) ∧
        ((redWaits x.p entry).length + 1 = parts.length →
          exec (.red n) s = .next (redEnds x parts (redWaits x.p entry ++ [me]) v)))) ∧
    (issuing 0x26 n.val s x u →
      let p := { x.p with waitBar := x.p.waitBar ++ [x.i] }
      let v := updEng n.val (fun e => { e with pst := .waitBar }) u
      (x.e.units ≠ [] → exec (.bar n) s = .next u) ∧
      (x.e.units = [] → p.waitBar.length ≠ p.engs.length → ∃ t, exec (.bar n) s = .next t ∧
        engineBecomes n.val { x.e with pst := .waitBar } u { t with cmds := u.cmds } ∧
        ∀ d ∈ t.cmds, d.key = x.c.key → d.work = .program p) ∧
      (x.e.units = [] → p.waitBar.length = p.engs.length → exec (.bar n) s = .next (barEnds x p v) ∧
        (x.p.digest = false → p.engs.Nodup → (∀ j ∈ p.engs, (eng v j).cmd ≠ none) → ∃ t, exec (.bar n) s = .next t ∧
          ∀ j ∈ p.engs, eng t j = { eng v j with pc := (eng v j).pc + 1, pst := .run, dmaOut := [] }))) ∧
    (issuing 0x3F n.val s x u →
      let p := { x.p with ended := x.p.ended ++ [x.i] }
      let v := setProg x.c.key p (icuSend (32 + n.val) (updEng n.val (fun e => { e with pst := .ended, dmaOut := [] }) u))
      (x.e.units ≠ [] → exec (.endProgram n) s = .next u) ∧
      (x.e.units = [] → (∃ g, g < 8 ∧ (grp x.e g).st ≠ .closed) → exec (.endProgram n) s = .next (progFault x 0x15 u)) ∧
      (x.e.units = [] → (∀ g, g < 8 → (grp x.e g).st = .closed) →
        (p.ended.length ≠ p.engs.length → exec (.endProgram n) s = .next v) ∧
        (p.ended.length = p.engs.length → exec (.endProgram n) s = .next (commitProgram x.c p v)))) ∧
    (issuing 0x28 n.val s x u →
      (dmaPending x.e = true → exec (.waitany n none) s = .next u) ∧
      (dmaPending x.e = false → ∃ t, exec (.waitany n none) s = .next t ∧
        engineBecomes n.val (setA (x.ins.par 3 0) 0xFFFFFFFF { x.e with dmaOut := [] }).onward u t) ∧
      (∀ i, i ∈ x.e.dmaOut → ∃ t, exec (.waitany n (some i)) s = .next t ∧ engineBecomes n.val
        (setA (x.ins.par 3 0) i.toNat { x.e with dmaOut := dmaAfter i x.e.dmaOut }).onward u t) ∧
      (∀ i, i ∉ x.e.dmaOut → exec (.waitany n (some i)) s = .next u))

/-- O38. DMA and ATOMF (R231 to R233): an outward DMA reads its scratchpad ranges and writes its records outside; an
inward one without a share reads its records and writes its ranges, unless they meet the program (fault 0x11); one with a
share waits until every engine of the share has issued the same, and the last one's read then serves all: the bytes are
written to the range of each through the cluster port, and each of the waiting DMAs has finished; a share that the program
does not list, or lists for others, and another address, record, gap or length than those that wait, is fault 0x13. ATOMF
adds FP32 elements to its cluster's memory, fault 0x12 beyond its end. An access that fails outside ends the command. When a
DMA is outstanding, how engines wait, and which row does what are the model's choice (logs 32, 50, 68). -/
def Obligations.ExternalTransfers : Prop :=
  ∀ (n : Fin 64) (s u : State) (x : Ectx),
    (working 0x18 n.val s x u →
      let len := x.ins.c % 2 ^ 24
      let a := dmaAddr x.e x.ins.b
      let runs := dmaRuns (x.ins.par 3 0) (x.ins.par 7 4) len
      let tag := x.ins.par 15 8
      (x.ins.flag = true → spanOf x.e x.ins.a len false = none → exec (.dma n) s = .next (progFault x 0x10 u)) ∧
      (∀ ps bs v, x.ins.flag = true → spanOf x.e x.ins.a len false = some ps → readSpan n.val ps u = (.ok bs, v) →
        (∀ w, writeRuns x a runs bs v = (.ok (), w) → ∃ t, exec (.dma n) s = .next t ∧ t.mem = w.mem ∧ t.host = w.host ∧
          (∀ m, m ≠ n.val → eng t m = eng w m) ∧ (eng t n.val).pc = (eng w n.val).pc ∧
          (eng t n.val).dmaOut = (eng w n.val).dmaOut ++ [BitVec.ofNat 12 x.e.pc] ∧
          (eng t n.val).units = (eng w n.val).units.eraseIdx x.ix) ∧
        (∀ d w, writeRuns x a runs bs v = (.error d, w) → exec (.dma n) s = .next (extFail x d w))) ∧
      (∀ f, x.ins.flag = false → spanW x x.ins.a len = .error f → exec (.dma n) s = .next (progFault x f u)) ∧
      (∀ ps, x.ins.flag = false → spanW x x.ins.a len = .ok ps → tag = 0 →
        (∀ bs v, readRuns x a runs u = (.ok bs, v) → ∃ t, exec (.dma n) s = .next t ∧
          t.mem = (writeSpan n.val ps bs v).mem ∧ (∀ m, m ≠ n.val → eng t m = eng v m) ∧
          (eng t n.val).dmaOut = (eng v n.val).dmaOut ++ [BitVec.ofNat 12 x.e.pc] ∧
          (eng t n.val).units = (eng v n.val).units.eraseIdx x.ix) ∧
        (∀ d v, readRuns x a runs u = (.error d, v) → exec (.dma n) s = .next (extFail x d v))) ∧
      (∀ ps, x.ins.flag = false → spanW x x.ins.a len = .ok ps → tag ≠ 0 →
        (x.p.shares.find? (fun e => e.1 == tag) = none → exec (.dma n) s = .next (progFault x 0x13 u)) ∧
        (∀ e, x.p.shares.find? (fun e => e.1 == tag) = some e →
          (e.2.testBit x.i = false → exec (.dma n) s = .next (progFault x 0x13 u)) ∧
          (e.2.testBit x.i = true → ∃ me : ShareWait, me.p = x.i ∧ me.tag = tag ∧ me.len = len ∧ me.dst = ps ∧
            me.rec' = x.ins.par 3 0 ∧ me.gap = x.ins.par 7 4 ∧
            (∀ d, a = .device d → me.device = true ∧ me.addr = d) ∧
            (∀ y, a = .cluster y → me.device = false ∧ me.addr = 0x6000000000 + n.val / 8 * 0x800000 + y) ∧
            (let olds := x.p.waitShare.filter fun w => w.tag == tag
             let same := ∀ w ∈ olds, w.device = me.device ∧ w.addr = me.addr ∧ w.rec' = me.rec' ∧ w.gap = me.gap ∧ w.len = len
             let v := updEng n.val (fun e => { e with units := setBegun x.ix e.units })
               (updProg x.c.key (fun p => { p with waitShare := p.waitShare ++ [me] }) u)
             (¬same → exec (.dma n) s = .next (progFault x 0x13 u)) ∧
             (same → olds.length + 1 ≠ popcount 64 e.2 → exec (.dma n) s = .next v) ∧
             (same → olds.length + 1 = popcount 64 e.2 →
               (∀ d w, readRuns x a runs v = (.error d, w) → exec (.dma n) s = .next (extFail x d w)) ∧
               (∀ bs w, readRuns x a runs v = (.ok bs, w) → exec (.dma n) s = .next ((olds ++ [me]).foldl (fun st z =>
                   let m := x.p.engs.getD z.p 0
                   retireWaiting 0x18 m (deliverIn true x.c.key m z.p (waitingPc (eng st m) 0x18) z.dst bs st))
                 (updProg x.c.key (fun p => { p with
                   waitShare := p.waitShare.filter fun z => !decide (z ∈ olds ++ [me]) }) w)))))))) ∧
      (∀ (cast : Bool) (k : Key) (m i pc : Nat) (ps : List (Nat × Nat)) (bs : List Byte) (v : State),
        let w := writeSpanBy cast m ps bs v
        let t := deliverIn cast k m i pc ps bs v
        t.mem = w.mem ∧ t.host = w.host ∧ t.queues = w.queues ∧ (∀ j, j ≠ m → eng t j = eng w j) ∧
        eng t m = { eng w m with dmaOut := (eng w m).dmaOut ++ [BitVec.ofNat 12 pc] }) ∧
      (∀ (m : Nat) (v : State), engineBecomes m
        { eng v m with units := (eng v m).units.eraseP fun y => y.begun && y.ins.op == 0x18 } v (retireWaiting 0x18 m v))) ∧
    (working 0x19 n.val s x u →
      let cnt := aReg x.e (x.ins.par 11 8)
      let base := 16 * atomUnit x.e x.ins.b
      (spanOf x.e x.ins.a (elemUnits cnt 4) false = none → exec (.atomf n) s = .next (progFault x 0x10 u)) ∧
      ∀ ps bs v, spanOf x.e x.ins.a (elemUnits cnt 4) false = some ps → readSpan n.val ps u = (.ok bs, v) →
        (16 * 524288 < base + 4 * cnt → exec (.atomf n) s = .next (progFault x 0x12 v)) ∧
        (∀ old w, base + 4 * cnt ≤ 16 * 524288 → clusterRead n.val (n.val / 8) base (4 * cnt) v = (.ok old, w) →
          exec (.atomf n) s = .next (updEng n.val (fun e => e.retired x.ix)
            (clusterWrite (n.val / 8) base (((elems 4 cnt old).zip (elems 4 cnt bs)).flatMap fun p =>
              leBytes 4 (add32 (BitVec.ofNat 32 p.1) (BitVec.ofNat 32 p.2)).toNat) w))))

/-- O39. The park's transfers: a parking group is parked and its register free; an unparking one is resident, corrected
errors counted; an uncorrectable one loses the group with ENGINE_FAULT, detail 2, unless its command's status was fixed
before. The device-level SPAD registers (R287): a write to SPAD_WIN_BASE_w or SPAD_WIN_SIZE_w writes the same value into that
register of every logical engine, which applies it when it next begins a command; a read returns logical engine 0's value;
SPAD_ID holds 1. -/
def Obligations.ParkAndWindows : Prop :=
  (∀ (n : Fin 64) (g : Fin 8) (s : State), isUp s = true →
    let e := eng s n.val
    let x := grp e g.val
    (x.st = .parking → ∃ f, exec (.park n g) s = .next (setEng n.val f s) ∧ (grp f g.val).st = .parked ∧
      (grp f g.val).acc = x.acc ∧ (grp f g.val).slot = x.slot ∧ (∀ h, h ≠ g.val → grp f h = grp e h) ∧ f.areg = e.areg) ∧
    (x.st = .unparking → tileAt e x.tile = .unpark → ∃ f, exec (.unpark n g .clean) s = .next (setEng n.val f s) ∧
      (∀ k, exec (.unpark n g (.corrected k)) s =
        .next (setEng n.val f { s with arr := { s.arr with parkCorr := satAdd s.arr.parkCorr k } })) ∧
      (grp f g.val).st = .resident ∧ (grp f g.val).acc = x.acc ∧ (grp f g.val).slot = 7 ∧ tileAt f x.tile = .held ∧
      (∀ h, h ≠ g.val → grp f h = grp e h)) ∧
    (x.st = .unparking → tileAt e x.tile = .unpark → x.named ≠ 0 → ∀ k c, e.cmd = some k → findCmd s k = some c → ∃ u,
      (c.decided = none → exec (.unpark n g .uncorrectable) s = .next (complete k (atEngine n.val (mkDecision 4 2 0)) u)) ∧
      (∀ d, c.decided = some d → c.pause = none → exec (.unpark n g .uncorrectable) s = .next (settle [(k, d)] u)) ∧
      u.arr.parkUncorr = satInc s.arr.parkUncorr ∧ u.cmds = s.cmds ∧ (grp (eng u n.val) g.val).st = .closed ∧
      (eng u n.val).fault = faultWord g.val 4) ∧
    (x.st ≠ .parking → exec (.park n g) s = .next s)) ∧
  (∀ (size : Bool) (w : Fin 16) (v : Word) (s : State), isUp s = true → ∃ t, exec (.spadWinWrite size w v) s = .next t ∧
    t = { s with eng := t.eng } ∧ (∀ n, 64 ≤ n → eng t n = eng s n) ∧
    ∀ n, n < 64 →
      let e := if size then { eng s n with winSize := Tab.put 0 (eng s n).winSize w.val (v.setWidth 17) }
        else { eng s n with winBase := Tab.put 0 (eng s n).winBase w.val (v.setWidth 17) }
      eng t n = e) ∧
  (∀ (w : Fin 16) (v : Quad) (s : State),
    (isUp s = true →
      exec (.registerWrite .bar0 (0x01600040 + 8 * w.val) 4 v) s = exec (.spadWinWrite false w (v.setWidth 32)) s ∧
      exec (.registerWrite .bar0 (0x01600044 + 8 * w.val) 4 v) s = exec (.spadWinWrite true w (v.setWidth 32)) s ∧
      exec (.registerWrite .bar0 0x01600000 4 v) s = .next s) ∧
    regPeek .bar0 s (0x01600040 + 8 * w.val) = some (Tab.get 0 (eng s 0).winBase w.val).toNat ∧
    regPeek .bar0 s (0x01600044 + 8 * w.val) = some (Tab.get 0 (eng s 0).winSize w.val).toNat ∧
    regPeek .bar0 s 0x01600000 = some 1) ∧
  (∀ (p : Prog) (n i count : Nat) (s : State), let e := eng (startEngine p n i count s) n
    e.winBaseNow = (eng s n).winBase ∧ e.winSizeNow = (eng s n).winSize)

/-! ## Carafe, wipe and tamper -/

/-- O40. REFRESH counts a channel's slots up to the eighth (R261); SCRUB_READ in it writes back the channel's corrected
lines (R259), reads the line of the scrub order, which is open (log 15), and counts, a full pass at the last line; before
the eighth slot it does nothing. The line read: with errors in 1 or 2 symbols its bytes stay, the error is counted for the
channel and the line waits for write-back (R259); with errors in 3 to 6 it is poisoned and the uncorrectable error counted
(R258, R260); with more it is either poisoned and counted or passes undetected; a poisoned line, and any line while Carafe
is LOCKED, counts as uncorrectable again (R266). No command is affected. -/
def Obligations.RefreshAndScrub : Prop :=
  ∀ (ch : Fin 24) (s : State), isUp s = true →
    (exec (.refresh ch) s = .next { s with mem := { s.mem with
      refSlots := Tab.put 0 s.mem.refSlots ch.val (min (Tab.get 0 s.mem.refSlots ch.val + 1) 8) } }) ∧
    (Tab.get 0 s.mem.refSlots ch.val < 8 → exec (.scrubRead ch) s = .next s) ∧
    (8 ≤ Tab.get 0 s.mem.refSlots ch.val → ∃ t, exec (.scrubRead ch) s = .next t ∧ t.queues = s.queues ∧ t.cmds = s.cmds ∧
      (s.mem.symErr = [] → s.mem.poison = [] → s.mem.locked = false →
        t.mem.carafe = s.mem.carafe ∧ t.mem.status = s.mem.status) ∧
      t.mem.spad = s.mem.spad ∧ t.mem.refSlots = Tab.put 0 s.mem.refSlots ch.val 0 ∧
      t.mem.scrubCount = (if s.mem.scrubCount + 1 = 0x6000000000 / 64 then 0 else s.mem.scrubCount + 1) ∧
      (s.mem.scrubCount + 1 = 0x6000000000 / 64 → t.mem.scrubPasses = s.mem.scrubPasses + 1) ∧
      (s.mem.scrubCount + 1 ≠ 0x6000000000 / 64 → t.mem.scrubPasses = s.mem.scrubPasses) ∧
      (let l := scrubTarget ch.val s
       let n := Tab.get 0 s.mem.symErr l
       let lost := l ∈ t.mem.poison ∧ t.mem.ue = satInc s.mem.ue ∧ Tab.get 0 t.mem.symErr l = 0 ∧ t.mem.ce = s.mem.ce ∧
         t.mem.status.getLsbD 1 = true
       channelOf (l * 64) = ch.val ∧
       (s.mem.locked = true → t.mem.ue = satInc s.mem.ue ∧ t.mem.poison = s.mem.poison ∧ t.mem.symErr = s.mem.symErr ∧
         t.mem.writeBack = s.mem.writeBack) ∧
       (s.mem.locked = false →
         (∀ w ∈ s.mem.writeBack, channelOf (w * 64) = ch.val → Tab.get 0 t.mem.symErr w = 0 ∧ w ∉ t.mem.writeBack) ∧
         (l ∈ s.mem.poison → lost) ∧
         (l ∉ s.mem.poison → l ∉ s.mem.writeBack →
           (n = 0 → t.mem.ce = s.mem.ce ∧ t.mem.ue = s.mem.ue ∧ t.mem.poison = s.mem.poison) ∧
           (n = 1 ∨ n = 2 → t.mem.ce = s.mem.ce + 1 ∧ t.mem.chanCe = Tab.upd 0 s.mem.chanCe ch.val satInc ∧
             t.mem.ue = s.mem.ue ∧ l ∈ t.mem.writeBack ∧ l ∉ t.mem.poison ∧ t.mem.status.getLsbD 0 = true ∧
             ∀ i, i < 64 → Tab.get 0 t.mem.carafe (64 * l + i) = Tab.get 0 s.mem.carafe (64 * l + i)) ∧
           (3 ≤ n → n ≤ 6 → lost) ∧
           (7 ≤ n → lost ∨ (t.mem.ue = s.mem.ue ∧ t.mem.ce = s.mem.ce ∧ t.mem.poison = s.mem.poison ∧
             Tab.get 0 t.mem.symErr l = 0))))))

/-- O41. The tamper input and the wipe (R280 to R282, R491, R513): an assertion of at least 1 µs is counted, locks
Carafe, starts the wipe of the key and the secure region, and empties a slot that is receiving; a shorter one does
nothing. A clean check ends the wipe; three that are not end it as failed for good. -/
def Obligations.TamperAndWipe : Prop :=
  (∀ (ns : Nat) (s : State), s.boot.phase ≠ .held → 1000 ≤ ns → ∃ t, exec (.tamper ns) s = .next t ∧
    t.svc.tamper = satInc s.svc.tamper ∧ t.svc.status = s.svc.status ||| 4 ∧ t.mem.wipeActive = true ∧
    (s.mem.wipeActive = false → t.mem.locked = true ∧ t.mem.carafeKey = none ∧ t.mem.secure = none ∧ t.mem.wipeCause = 1 ∧
      t.mem.wipeTries = 0) ∧
    (∀ i, slotIn s .receiving = some i → i < 2 → (slotOf t i).st = .empty) ∧
    t.cmds = s.cmds ∧ t.mem.carafe = s.mem.carafe ∧ t.fuse = s.fuse) ∧
  (∀ (ns : Nat) (s : State), ns < 1000 → exec (.tamper ns) s = .next s) ∧
  (∀ s : State, s.mem.wipeActive = true →
    (∃ t, exec (.wipeCheck true) s = .next t ∧ t.mem.wipeActive = false ∧ t.mem.wipeFailed = s.mem.wipeFailed ∧
      t.mem.wipes = (if s.mem.wipes = 0xFFFF then 0xFFFF else s.mem.wipes + 1) ∧ t.mem.locked = s.mem.locked) ∧
    (s.mem.wipeTries + 1 < 3 → exec (.wipeCheck false) s =
      .next { s with mem := { s.mem with wipeTries := s.mem.wipeTries + 1 } }) ∧
    (3 ≤ s.mem.wipeTries + 1 → ∃ t, exec (.wipeCheck false) s = .next t ∧ t.mem.wipeActive = false ∧
      t.mem.wipeFailed = true ∧ t.mem.locked = s.mem.locked)) ∧
  (∀ (b : Bool) (s : State), s.mem.wipeActive = false → exec (.wipeCheck b) s = .next s)

/-! ## Interrupts -/

/-- O42. Requests (R397 to R400, R416): an arrived message makes an idle source PENDING (with its host message, R418),
an active one ACTIVE_PENDING, and merges with a pending one; a level source's line makes it PENDING and its fall takes a
request back that is not yet claimed. DELIVERY (R402 to R405): the enabled pending source of highest priority that some
target accepts is delivered to its best target; with none such, a source with a sleeping target and no awake one wakes
the lowest of those that sleep (R413). The best target is that of lowest rank among the source's targets that accept its
priority, the lower-numbered of equals; the rank is 0 without a claim, else 1 above the highest claim's priority. A
target goes to sleep and awakes (R414), and its deliveries are withdrawn. -/
def Obligations.InterruptDelivery : Prop :=
  (∀ (n : Fin 512) (s : State),
     (n.val ∈ s.icu.messages → icuMessage n.val = true →
       let u := { s with icu := { s.icu with messages := s.icu.messages.erase n.val } }
       ((src s n.val).st = .idle → exec (.messageArrival n) s =
         .next (hostForward n.val (setSrc n.val { src s n.val with st := .pending } u))) ∧
       ((src s n.val).st = .active → exec (.messageArrival n) s =
         .next (setSrc n.val { src s n.val with st := .activePending } u)) ∧
       ((src s n.val).st = .pending ∨ (src s n.val).st = .delivered ∨ (src s n.val).st = .activePending →
         exec (.messageArrival n) s = .next { u with icu := { u.icu with merged := satInc s.icu.merged } })) ∧
     (n.val ≤ 12 → (src s n.val).line = false → lineNow s n.val = true →
       exec (.levelAssert n) s = .next (hostForward n.val (setSrc n.val { src s n.val with
         line := true, st := if (src s n.val).st = .idle then .pending else (src s n.val).st } s))) ∧
     (n.val ≤ 12 → (src s n.val).line = true → lineNow s n.val = false →
       ((src s n.val).st = .pending ∨ (src s n.val).st = .delivered → exec (.levelDrop n) s = .next (setSrc n.val
         { src s n.val with holder := 7, line := false, st := .idle, withdrawn := none } s)) ∧
       ((src s n.val).st = .active ∨ (src s n.val).st = .activePending ∨ (src s n.val).st = .idle →
         exec (.levelDrop n) s = .next (setSrc n.val { src s n.val with line := false } s)))) ∧
  ((∀ s : State,
     let ok := fun n => (src s n).en = true ∧ (src s n).st = .pending ∧ icuReserved n = false
     (∀ n t, ok n → n ∈ Tab.keys s.icu.src → bestTarget s (src s n) = some t →
       ∃ m d, exec .delivery s = .next (deliverTo m d s) ∧ (src (deliverTo m d s) m).st = .delivered ∧
         (src (deliverTo m d s) m).holder = d ∧ ok m ∧ bestTarget s (src s m) = some d ∧
         (src s n).prio.toNat ≤ (src s m).prio.toNat) ∧
     ((∀ n ∈ Tab.keys s.icu.src, ok n → bestTarget s (src s n) = none ∧ wantsWake s (src s n) = false) →
       exec .delivery s = .next s) ∧
     (∀ n, (∀ m ∈ Tab.keys s.icu.src, ok m → bestTarget s (src s m) = none) → ok n → n ∈ Tab.keys s.icu.src →
       wantsWake s (src s n) = true → ∃ m, exec .delivery s = .next (wakeFor m s) ∧ ok m ∧ wantsWake s (src s m) = true ∧
         (src s n).prio.toNat ≤ (src s m).prio.toNat)) ∧
   (∀ (t : Fin 5) (s : State),
     ((tgt s t.val).power = .waking → exec (.targetAwake t) s = .next (setTgt t.val { tgt s t.val with power := .awake } s)) ∧
     ((tgt s t.val).power = .awake → ∃ u, exec (.targetSleep t) s = .next u ∧ (tgt u t.val).power = .sleeping ∧
       u = { s with icu := { s.icu with src := u.icu.src, tgt := u.icu.tgt } } ∧
       ∀ n, (src s n).st ≠ .delivered ∨ (src s n).holder ≠ t.val → src u n = src s n))) ∧
  ((∀ (s : State) (x : Src),
     let eligible := fun t => t < 5 ∧ x.targets.getLsbD t = true ∧ (tgt s t).power = .awake ∧ (tgt s t).mask = false ∧
       (tgt s t).threshold ≤ x.prio ∧ ∀ c ∈ (tgt s t).claims, c.2 < x.prio.toNat
     (bestTarget s x = none ↔ ∀ t, ¬eligible t) ∧
     (∀ d, bestTarget s x = some d ↔ eligible d ∧ ∀ t, eligible t → tgtRank (tgt s d) < tgtRank (tgt s t) ∨
       (tgtRank (tgt s d) = tgtRank (tgt s t) ∧ d ≤ t))) ∧
   (∀ y : Tgt, (y.claims = [] → tgtRank y = 0) ∧
     (y.claims ≠ [] → ∃ c ∈ y.claims, tgtRank y = 1 + c.2 ∧ ∀ c' ∈ y.claims, c'.2 ≤ c.2)))

/-- O43. Claim and completion (R402, R406, R409, R410, R419, R422): a target's claim takes the highest of the sources
delivered to it, but for levels at which it holds a claim (R402 against R406, the model's choice, log 36), and makes it
ACTIVE; a spurious one reads 0x3FF and is
counted; through BAR0 a claim takes nothing. A completion by its holder makes the source IDLE, or PENDING again; any
other is counted. Through BAR0 every write is dropped and counted. The ICU's other registers through the local port
(R401, R407, R412, R416): PEND_SET sets message sources, PEND_CLR clears their requests, EN_SET and EN_CLR change the
enables and EN_CLR withdraws deliveries, T_CTRL sets mask and threshold, SRC_CFG targets and priority. Sources the mask
does not name stay. -/
def Obligations.InterruptService : Prop :=
  (∀ (t : Fin 5) (s : State), pathUp s .localPort = true →
     (nextClaim s t.val = none → exec (.icuTClaim .localPort t) s =
       .next (emit (.readData .localPort 0x3FF) { s with icu := { s.icu with
         spurious := satInc s.icu.spurious, status := s.icu.status ||| 1 } })) ∧
     (∀ n, nextClaim s t.val = some n → (src s n).st = .delivered ∧ (src s n).holder = t.val ∧
       (∀ c ∈ (tgt s t.val).claims, c.2 ≠ (src s n).prio.toNat) ∧
       (∀ m ∈ Tab.keys s.icu.src, (src s m).st = .delivered → (src s m).holder = t.val →
         (∀ c ∈ (tgt s t.val).claims, c.2 ≠ (src s m).prio.toNat) → (src s m).prio.toNat ≤ (src s n).prio.toNat) ∧
       exec (.icuTClaim .localPort t) s = .next (emit (.readData .localPort (BitVec.ofNat 64 n))
         (setTgt t.val { tgt s t.val with claims := (tgt s t.val).claims ++ [(n, (src s n).prio.toNat)] }
           (setSrc n { src s n with st := .active } s)))) ∧
     (isUp s = true → exec (.icuTClaim .bar0 t) s = .next (emit (.readData .bar0 0x3FF) s)) ∧
     (∀ v : Word, let n := v.toNat % 1024
       (n = 0x3FF → exec (.icuTComplete .localPort t v) s = .next s) ∧
       (n ≠ 0x3FF → (src s n).holder = t.val → (src s n).st = .active → (icuLevel n && (src s n).line) = false →
         exec (.icuTComplete .localPort t v) s = .next (updTgt t.val (fun y => { y with claims := y.claims.filter fun c => c.1 != n })
           (setSrc n { src s n with holder := 7, st := .idle } s))) ∧
       (n ≠ 0x3FF → (src s n).holder = t.val →
         (src s n).st = .activePending ∨ ((src s n).st = .active ∧ (icuLevel n && (src s n).line) = true) →
         exec (.icuTComplete .localPort t v) s = .next (updTgt t.val (fun y => { y with claims := y.claims.filter fun c => c.1 != n })
           (setSrc n { src s n with holder := 7, st := .pending } s))) ∧
       (n ≠ 0x3FF → (src s n).holder ≠ t.val ∨ ((src s n).st ≠ .active ∧ (src s n).st ≠ .activePending) →
         exec (.icuTComplete .localPort t v) s = .next { s with icu := { s.icu with
           badComplete := satInc s.icu.badComplete, status := s.icu.status ||| 2 } })) ∧
     (isUp s = true →
       let d := { s with icu := { s.icu with bar0Denied := satInc s.icu.bar0Denied, status := s.icu.status ||| 4 } }
       (∀ v, exec (.icuTComplete .bar0 t v) s = .next d ∧ exec (.icuTCtrlWrite .bar0 t v) s = .next d) ∧
       (∀ w v, exec (.icuPendSet .bar0 w v) s = .next d ∧ exec (.icuPendClr .bar0 w v) s = .next d ∧
         exec (.icuEnSet .bar0 w v) s = .next d ∧ exec (.icuEnClr .bar0 w v) s = .next d) ∧
       (∀ n v, exec (.icuSrcCfgWrite .bar0 n v) s = .next d))) ∧
  (∀ (w : Fin 16) (v : Word) (s : State), pathUp s .localPort = true →
     let named := fun n => n / 32 = w.val ∧ v.getLsbD (n % 32) = true
     (∃ t, exec (.icuPendSet .localPort w v) s = .next t ∧ (∀ n, ¬ named n → src t n = src s n) ∧
       (∀ n, named n → icuMessage n = true → ((src s n).st = .idle → src t n = { src s n with st := .pending }) ∧
         ((src s n).st = .active → src t n = { src s n with st := .activePending }) ∧
         ((src s n).st = .pending ∨ (src s n).st = .delivered ∨ (src s n).st = .activePending → src t n = src s n)) ∧
       t.icu.merged = satAdd s.icu.merged ((List.range 32).filter fun i => v.getLsbD i && icuMessage (32 * w.val + i) &&
         decide ((src s (32 * w.val + i)).st = .pending ∨ (src s (32 * w.val + i)).st = .delivered ∨
           (src s (32 * w.val + i)).st = .activePending)).length ∧ t.icu.tgt = s.icu.tgt) ∧
     (∃ t, exec (.icuPendClr .localPort w v) s = .next t ∧ (∀ n, ¬ named n → src t n = src s n) ∧
       t = { s with icu := { s.icu with src := t.icu.src } } ∧
       (∀ n, named n → icuMessage n = true →
         ((src s n).st = .activePending → src t n = { src s n with st := .active }) ∧
         ((src s n).st = .pending ∨ (src s n).st = .delivered →
           src t n = { src s n with st := .idle, holder := 7, withdrawn := none }))) ∧
     (∃ t, exec (.icuEnSet .localPort w v) s = .next t ∧ t = { s with icu := { s.icu with src := t.icu.src } } ∧
       (∀ n, ¬ named n → src t n = src s n) ∧
       (∀ n, named n → icuReserved n = false → src t n = { src s n with en := true })) ∧
     (∃ t, exec (.icuEnClr .localPort w v) s = .next t ∧ t = { s with icu := { s.icu with src := t.icu.src } } ∧
       (∀ n, ¬ named n → src t n = src s n) ∧
       (∀ n, named n →
         ((src s n).st ≠ .delivered → src t n = { src s n with en := false }) ∧
         ((src s n).st = .delivered → src t n =
           { src s n with en := false, st := .pending, holder := 7, withdrawn := some (src s n).holder }))) ∧
     (∀ t : Fin 5, ∃ u, exec (.icuTCtrlWrite .localPort t v) s = .next u ∧
       (let y := { tgt s t.val with mask := v.getLsbD 4, threshold := v.setWidth 4 }
        u = { s with icu := { s.icu with src := u.icu.src, tgt := Tab.put Tgt.init s.icu.tgt t.val y } }) ∧
       (∀ n, (src s n).st ≠ .delivered ∨ (src s n).holder ≠ t.val → src u n = src s n)) ∧
     (∀ n : Fin 512, icuReserved n.val = false → (src s n.val).st = .pending → ∃ u,
       exec (.icuSrcCfgWrite .localPort n v) s = .next u ∧ u = { s with icu := { s.icu with src := u.icu.src } } ∧
       src u n.val = { src s n.val with targets := BitVec.ofNat 5 (v.toNat / 2 ^ 16), prio := v.setWidth 4 } ∧
       ∀ m, m ≠ n.val → src u m = src s m))

/-! ## Ethernet and capture streams -/

/-- O44. Frames of a port that is up (R443, R450, R452 to R454, R492): a bad FCS is counted with the codewords it held
that could not be corrected; a good frame is counted in RX; a PAUSE frame, a datagram that R453 does not accept and one
that nothing listens for are counted besides and change nothing else; an ARP request or a neighbour solicitation for the
port's own configured address is answered with the MAC address in use, another is not, and one whose tags are not those
of R452 is dropped. -/
def Obligations.EthernetFrames : Prop :=
  ∀ (p : Fin 2) (src : NetAddr) (ts : List Word) (a4 : BitVec 32) (a6 : BitVec 128) (d : Datagram) (cw : Nat) (s : State),
    portUp s p.val = true → d.port = p →
    let x := prt s p.val
    let port := fun (y : PortSt) => { s with ing := { s.ing with ports := Tab.put PortSt.init s.ing.ports p.val y } }
    exec (.badFcsFrame p cw) s = .next (port { x with fcs := satInc x.fcs, fecUncorr := satAdd x.fecUncorr cw }) ∧
    (∃ t, exec (.pauseFrame p) s = .next t ∧ prt t p.val = { x with rx := x.rx + 1, pause := satInc x.pause } ∧
      t.ing.status = s.ing.status ||| 2 ∧ (∀ q, q ≠ p.val → prt t q = prt s q) ∧
      t = { s with ing := { s.ing with status := t.ing.status, ports := t.ing.ports } }) ∧
    (dgFits d = true →
      dgIpOk d = false ∨ (streamFor s p.val d.dst = none ∧ d.dst ≠ jobPortOf s p.val) →
      ∃ t, exec (.droppedDatagram d) s = .next t ∧ prt t p.val = { x with rx := x.rx + 1, dropIp := satInc x.dropIp } ∧
      (∀ q, q ≠ p.val → prt t q = prt s q) ∧ t = { s with ing := { s.ing with ports := t.ing.ports } }) ∧
    (dgFits d = false ∨ (dgIpOk d = true ∧ ((streamFor s p.val d.dst).isSome = true ∨ d.dst = jobPortOf s p.val)) →
      exec (.droppedDatagram d) s = .next s) ∧
    (tagsOk ts = false → ∀ c, c = Instr.arpRequest p src a4 ts ∨ c = .neighborSolicitation p src a6 ts →
      exec c s = .next (dropIp p.val (port { x with rx := x.rx + 1 }))) ∧
    (tagsOk ts = true → exec (.arpRequest p src a4 ts) s = .next (let t := port { x with rx := x.rx + 1 }
      if a4 = (ethOf s p.val).ip4 ∧ a4 ≠ 0 then
        { t with sent := s.sent ++ [.arpReply p.val src ts false (macOf s p.val)] } else t)) ∧
    (tagsOk ts = true → exec (.neighborSolicitation p src a6 ts) s = .next (let t := port { x with rx := x.rx + 1 }
      if a6 = (ethOf s p.val).ip6 ∧ a6 ≠ 0 then
        { t with sent := s.sent ++ [.arpReply p.val src ts true (macOf s p.val)] } else t))

/-- O45. RECORD and REASM_TIMEOUT (R457 to R460): a record that breaks R456 counts as bad and taints its frame, whether
the frame has begun or begins later; one of
a frame accounted for or completed is stale; the first of a new frame opens an assembly (a fifth evicts the oldest
frame, which the gap counts); a further one that agrees is added; the last one moves the frame to the completed ones.
A frame still incomplete at its deadline is dropped and counted as incomplete. No other stream changes. Which of the
rules comes first where a record fits two is the model's choice (log 39). -/
def Obligations.RecordsAssembled : Prop :=
  (∀ (g : Datagram) (i : Nat) (s : State), portUp s g.port.val = true → dgFits g = true → dgIpOk g = true →
    let p := g.port
    let d := g.payload
    streamFor (rxFrame p.val s) p.val g.dst = some i →
      ∃ y, exec (.record g.port g.dst g.payload g.head) s = .next (setStrm i y (rxFrame p.val s)) ∧
    let x := strm s i
    let h := recHdr d
    let known := x.recent.any (fun q => q.toNat == h.seq) || x.complete.any (fun f => f.seq.toNat == h.seq)
    let first : CapFrame := {
      seq := BitVec.ofNat 64 h.seq, recCount := h.count, frameBytes := h.frameBytes, format := BitVec.ofNat 16 h.format
      capTime := BitVec.ofNat 64 h.time, recs := [(h.index, d.drop 32)], tainted := decide (h.seq ∈ x.badSeqs)
      time := 0 }
    (recOk x d = false → y.gap = { x.gap with bad := x.gap.bad + 1, records := x.gap.records + 1 } ∧
      y.complete = x.complete ∧ y.stale = x.stale ∧ y.recent = x.recent ∧ (32 ≤ d.length → h.seq ∈ y.badSeqs) ∧
      y.asm = x.asm.map fun f => if 32 ≤ d.length ∧ f.seq.toNat = h.seq then { f with tainted := true } else f) ∧
    (recOk x d = true → known = true → y = { x with stale := satInc x.stale }) ∧
    (recOk x d = true → known = false → (∀ f ∈ x.asm, f.seq.toNat ≠ h.seq) → h.count ≠ 1 →
      (x.asm.length < 4 → y = { x with asm := x.asm ++ [first] }) ∧
      (∀ f rest, x.asm = f :: rest → 4 ≤ x.asm.length →
        y.asm = rest ++ [first] ∧ y.dropped = satInc x.dropped ∧ y.gap.evicted = x.gap.evicted + 1 ∧
        y.gap.records = x.gap.records + f.recs.length ∧ y.gap.bytes = x.gap.bytes + f.frameBytes ∧
        y.complete = x.complete ∧ f.seq ∈ y.recent)) ∧
    (recOk x d = true → known = false → (∀ f ∈ x.asm, f.seq.toNat ≠ h.seq) → h.count = 1 → x.asm.length < 4 →
      (h.seq ∉ x.badSeqs → y.asm = x.asm ∧ y.complete = x.complete ++ [{ first with time := timeOf s }]) ∧
      (h.seq ∈ x.badSeqs → y = { x with asm := x.asm ++ [first] })) ∧
    (∀ f, recOk x d = true → known = false → x.asm.find? (fun g => g.seq.toNat == h.seq) = some f →
      (recAgrees f h = false → y = x.badRecord h.seq) ∧
      (recAgrees f h = true → (∃ r ∈ f.recs, r.1 = h.index) → y = { x with stale := satInc x.stale }) ∧
      (recAgrees f h = true → (∀ r ∈ f.recs, r.1 ≠ h.index) → f.recs.length + 1 = f.recCount → f.tainted = false →
        y.asm = x.asm.filter (fun g => !(g.seq == f.seq)) ∧
        y.complete = x.complete ++ [{ f with recs := f.recs ++ [(h.index, d.drop 32)], time := timeOf s }]))) ∧
  (∀ (g : Datagram) (s : State), portUp s g.port.val = true →
    let p := g.port.val
    (dgFits g = false → exec (.record g.port g.dst g.payload g.head) s = .next s) ∧
    (dgFits g = true → dgIpOk g = false → exec (.record g.port g.dst g.payload g.head) s = .next (dropIp p (rxFrame p s))) ∧
    (dgFits g = true → dgIpOk g = true → streamFor (rxFrame p s) p g.dst = none → g.dst ≠ jobPortOf s p →
      exec (.record g.port g.dst g.payload g.head) s = .next (dropIp p (rxFrame p s)))) ∧
  (∀ (i : Fin 16) (q : Quad) (f : CapFrame) (s : State), isUp s = true →
    (strm s i.val).asm.find? (fun f => f.seq == q) = some f → ∃ y, exec (.reasmTimeout i q) s = .next (setStrm i.val y s) ∧
      y.asm = (strm s i.val).asm.filter (fun g => !(g.seq == q)) ∧ y.complete = (strm s i.val).complete ∧
      y.dropped = satInc (strm s i.val).dropped ∧ y.gap.incomplete = (strm s i.val).gap.incomplete + 1 ∧
      y.gap.records = (strm s i.val).gap.records + f.recs.length ∧ q ∈ y.recent)

/-- O46. FRAME_COMMIT (R461 to R464): the oldest completed frame leaves the queue; where the ring as CONS shows it (one
that cannot be read shows none, log 39) has no room for it with its gap and WRAP entries and 128 bytes beside, the frame
is dropped as FULL and counted. Else a gap entry that is due, a WRAP entry if the frame would cross the ring's end, and
the frame's entry are written one after the other at PROD in the ring, PROD at PROD_ADDR after each, and FRAMES counts
the frame; the entries have the fields of R464, and a write in context 0 leaves exactly its bytes in Carafe. STREAM_ENABLE
(R465, R493): a DISABLED stream whose registers keep R493 becomes ACTIVE with PROD 0, also at PROD_ADDR, and nothing held;
one that does not sets CFG_ERR; an ACTIVE one takes the register's other fields, which R493 does not lock (log 39), a
STOPPING one none. STREAM_STOP: an ACTIVE stream drops its incomplete frames as stopped and is STOPPING while completed
ones are left; with none, and after the last of them, it writes the gap entry that is due and its END entry and is
DISABLED; another takes the fields alone. -/
def Obligations.StreamCommitAndControl : Prop :=
  (∀ (i : Fin 16) (s : State), isUp s = true →
    let x := strm s i.val
    let put := fun (e : List Byte) (len : Nat) (v : State) =>
      let y := strm v i.val
      let a := (devWrite View.zero (y.ring.toNat + y.prod.toNat % 2 ^ y.ringLog2.toNat) e v).2
      let b := setStrm i.val { strm a i.val with prod := (strm a i.val).prod + BitVec.ofNat 64 len } a
      (devWrite View.zero (strm b i.val).prodAddr.toNat (leBytes 8 (strm b i.val).prod.toNat) b).2
    let gapFirst := fun (v : State) =>
      if (strm v i.val).gap.due = true then
        let w := put (gapEntry (strm v i.val) (timeOf v).toNat) 64 v
        ingFlag 0 (setStrm i.val { strm w i.val with gap := Gap.init, gaps := satInc (strm w i.val).gaps } w)
      else v
    let other := fun (kind len : Nat) (v : State) =>
      put (entryBytes kind (strm v i.val).tag.toNat len 0 0 (timeOf v).toNat []) len v
    let ends := fun (v : State) =>
      let w := other 4 64 (gapFirst v)
      ingFlag 2 (setStrm i.val { strm w i.val with st := .disabled } w)
    (∀ f rest room u, x.complete = f :: rest →
      ringRoom i.val (setStrm i.val { x with complete := rest } s) = (room, u) →
      let done := fun (v : State) => if x.st = .stopping ∧ rest = [] then ends v else v
      (frameFits x room f = false → exec (.frameCommit i) s =
        .next (done (setStrm i.val (Stream.dropFrame .full f { x with complete := rest }) u))) ∧
      (frameFits x room f = true → exec (.frameCommit i) s = .next (
        let a := gapFirst u
        let w := wrapBytes (strm a i.val) (strm a i.val).prod.toNat (64 + f.frameBytes)
        let b := if w = 0 then a else other 3 w a
        let c := put (frameEntry (strm b i.val) f) (64 + f.frameBytes) b
        done (setStrm i.val { (strm c i.val).note f.seq with frames := (strm c i.val).frames + 1 } c))) ∧
      (frameFits x room f = true → x.st = .active → ∃ t, exec (.frameCommit i) s = .next t ∧
        (strm t i.val).frames = x.frames + 1 ∧ (strm t i.val).complete = rest ∧ (strm t i.val).dropped = x.dropped ∧
        (strm t i.val).prod = x.prod + BitVec.ofNat 64 (if x.gap.due then 64 else 0) +
          BitVec.ofNat 64 (wrapBytes x (x.prod + BitVec.ofNat 64 (if x.gap.due then 64 else 0)).toNat (64 + f.frameBytes)) +
          BitVec.ofNat 64 (64 + f.frameBytes) ∧
        (x.gap.due = true → (strm t i.val).gap = Gap.init ∧ (strm t i.val).gaps = satInc x.gaps) ∧
        (x.gap.due = false → (strm t i.val).gap = x.gap ∧ (strm t i.val).gaps = x.gaps) ∧
        f.seq ∈ (strm t i.val).recent ∧ ∀ j, j ≠ i.val → strm t j = strm s j)) ∧
    (∀ v : BitVec 31, let y := setCtrl v.toNat x
      (x.st = .disabled → streamOk (setStrm i.val y s) i.val = true → ∃ t, exec (.streamEnable i v) s = .next t ∧
        (let z := { y with st := .active, prod := 0, asm := [], complete := [], recent := [], badSeqs := [], gap := Gap.init }
         strm t i.val = z ∧ t = (devWrite View.zero x.prodAddr.toNat (leBytes 8 0) (setStrm i.val z s)).2) ∧
        ∀ j, j ≠ i.val → strm t j = strm s j) ∧
      (x.st = .disabled → streamOk (setStrm i.val y s) i.val = false → exec (.streamEnable i v) s =
        .next (ingFlag 3 (setStrm i.val y s))) ∧
      (x.st = .active → exec (.streamEnable i v) s = .next (setStrm i.val y s)) ∧
      (x.st = .stopping → exec (.streamEnable i v) s = .next (ingFlag 3 s)) ∧
      (x.st = .disabled ∨ x.st = .stopping → exec (.streamStop i v) s = .next (setStrm i.val y s)) ∧
      (x.st = .active → x.complete ≠ [] → ∃ t, exec (.streamStop i v) s = .next t ∧ (strm t i.val).st = .stopping ∧
        (strm t i.val).asm = [] ∧ (strm t i.val).complete = x.complete ∧
        (strm t i.val).gap.stopped = x.gap.stopped + x.asm.length) ∧
      (x.st = .active → x.complete = [] → ∃ t z, exec (.streamStop i v) s = .next t ∧
        z = { x.asm.foldl (fun w f => Stream.dropFrame .stopped f w) y with st := .stopping, asm := [] } ∧
        t = ends (setStrm i.val z s) ∧
        (strm t i.val).st = .disabled ∧ (strm t i.val).asm = [] ∧ t.ing.status.getLsbD 2 = true))) ∧
  (∀ (x : Stream) (f : CapFrame) (kind len time : Nat), kind < 256 → time < 2 ^ 64 → len < 2 ^ 32 →
    f.frameBytes + 64 < 2 ^ 32 →
    let plain := entryBytes kind x.tag.toNat len 0 0 time []
    let entry := frameEntry x f
    let gap := gapEntry x time
    let top := fun n => min n 0xFFFFFFFF
    plain.length = 64 ∧ leAt plain 0 4 = kind * 2 ^ 24 + x.tag.toNat ∧ leAt plain 4 4 = len ∧ leAt plain 8 16 = 0 ∧
    leAt plain 0x18 8 = time ∧ leAt plain 0x20 32 = 0 ∧
    leAt entry 0 4 = 2 ^ 24 + x.tag.toNat ∧ leAt entry 4 4 = 64 + f.frameBytes ∧ leAt entry 8 8 = f.seq.toNat ∧
    leAt entry 0x10 8 = f.capTime.toNat ∧ leAt entry 0x18 8 = f.time.toNat ∧ leAt entry 0x20 4 = f.frameBytes ∧
    leAt entry 0x24 4 = f.format.toNat ∧ leAt entry 0x28 24 = 0 ∧ entry.drop 64 = frameSamples f ∧
    gap.length = 64 ∧ leAt gap 0 4 = 2 * 2 ^ 24 + x.tag.toNat ∧ leAt gap 4 4 = 64 ∧ leAt gap 8 8 = x.gap.lo.toNat ∧
    leAt gap 0x10 8 = x.gap.hi.toNat ∧ leAt gap 0x18 8 = time ∧
    leAt gap 0x20 4 = top (x.gap.full + x.gap.incomplete + x.gap.evicted + x.gap.stopped) ∧
    leAt gap 0x24 4 = top x.gap.records ∧ leAt gap 0x28 8 = x.gap.bytes % 2 ^ 64 ∧ leAt gap 0x30 4 = top x.gap.full ∧
    leAt gap 0x34 4 = top x.gap.incomplete ∧ leAt gap 0x38 4 = top x.gap.evicted ∧
    leAt gap 0x3C 4 = min x.gap.stopped 255 * 2 ^ 24 + min x.gap.bad 0xFFFFFF) ∧
  (∀ (a : Nat) (bs : List Byte) (s : State), a + bs.length ≤ 6080 * 0x4000000 → s.mem.locked = false → s.mem.poison = [] →
    s.mem.symErr = [] → s.flash.retired = [] →
    let t := (devWrite View.zero a bs s).2
    (∀ j, Tab.get 0 t.mem.carafe j = if a ≤ j ∧ j < a + bs.length then bs.getD (j - a) 0 else Tab.get 0 s.mem.carafe j) ∧
    t = { s with mem := { s.mem with carafe := t.mem.carafe, writeBack := t.mem.writeBack } })

/-- O47. SUBMIT and POLL at a port's job port (R453, R466 to R469, R483): a datagram that R453 does not accept is
dropped as such, a frame of bad form counted in JOB_DROP alone; one for a queue that a ROUTE entry names is relayed as a
JOB message without its tag, or dropped where the tag or the link does not allow it; of the others one the queue does
not accept, or whose tag does not verify, likewise after its message to the control complex; a POLL is answered with
result 0; a SUBMIT whose number is not above the last with 2, one that leaves a gap with 3, one without room with 4; one
whose commands are written advances the tail and is answered with 1. How the checks go together with the relay, and the
NONCE of a reply, are the model's choice (log 40). -/
def Obligations.JobFrames : Prop :=
  ∀ (d : Datagram) (s : State), portUp s d.port.val = true → dgFits d = true → d.dst = jobPortOf s d.port.val →
    let p := d.port.val
    let b := d.payload
    let h := jobHdr b
    let c := if isPoll d then Instr.poll d else Instr.submit d
    let u := rxFrame p s
    let keyed := (s.flash.jobKey.getD p none).isSome
    (isPoll d = true → exec (.submit d) s = .next s) ∧ (isPoll d = false → exec (.poll d) s = .next s) ∧
    (dgIpOk d = false → exec c s = .next (dropIp p u)) ∧
    (dgIpOk d = true → jobFormOk b keyed = false → exec c s = .next (jobDrop p u)) ∧
    (∀ l, dgIpOk d = true → jobFormOk b keyed = true → routeOf s h.q = some l →
      let v := icuSend (136 + p) u
      let allowed := (lnk s l).st = .active ∧
        ((que s h.q).st = .unused ∨ (que s h.q).kind ≠ 1 ∨ (lnk s l).sameInst = true)
      (jobTagOk v p b = false ∨ ¬allowed → exec c s = .next (jobDrop p v)) ∧
      (jobTagOk v p b = true → allowed → exec c s = .next (kwSend l
        { ty := 1, vc := 1, w2 := 0, w3 := 0, body := b.take (32 + 64 * h.n) }
        { v with ing := { v.ing with relays := s.ing.relays ++ [(l, d)] } }))) ∧
    (dgIpOk d = true → jobFormOk b keyed = true → routeOf s h.q = none →
      let v := icuSend (136 + p) u
      (jobAccepted v (.eth d) h = false ∨ jobTagOk v p b = false → exec c s = .next (jobDrop p v)) ∧
      (jobAccepted v (.eth d) h = true → jobTagOk v p b = true →
        let w := updQue h.q (fun x => { x with notify := some (d.src, p, d.tags, h.src) }) v
        let x := que s h.q
        (x.st ≠ .active → exec c s = .next (jobReply (.eth d) h 5 w)) ∧
        (x.st = .active →
          let w := cqDoorbell h.q h.cqHead w
          (isPoll d = true → exec c s = .next (jobReply (.eth d) h 0 w)) ∧
          (isPoll d = false → h.seq.toNat ≤ x.lastFrame.toNat → exec c s = .next (jobReply (.eth d) h 2 w)) ∧
          (isPoll d = false → x.lastFrame.toNat + 1 < h.seq.toNat → exec c s = .next (jobReply (.eth d) h 3 w)) ∧
          (isPoll d = false → h.seq.toNat = x.lastFrame.toNat + 1 →
            (x.sqHead + BitVec.ofNat 32 (2 ^ x.sqLog.toNat) - x.sqTail).toNat < h.n →
            exec c s = .next (jobReply (.eth d) h 4 w)) ∧
          (isPoll d = false → h.seq.toNat = x.lastFrame.toNat + 1 →
            h.n ≤ (x.sqHead + BitVec.ofNat 32 (2 ^ x.sqLog.toNat) - x.sqTail).toNat → ∀ z,
            writeEntries h.q (List.range h.n) x.sqTail b w = some z → exec c s = .next (jobReply (.eth d) h 1
              (updQue h.q (fun y => { y with lastFrame := h.seq })
                (sqDoorbell h.q (x.sqTail + BitVec.ofNat 32 h.n) z)))))))

/-! ## Kweow links -/

/-- O48. Link training (R472, R479, R486, R487, R494): each training event moves the link on from its own state and does
nothing in another; a timeout leads to HOLDOFF with its cause counted; lane loss and a forced retrain lead to HOLDOFF,
and leaving ACTIVE is counted and flagged. IDENTIFY ends in HOLDOFF without a usable TRNG (cause 5) or for a refused
foreign peer (cause 4), waits for the words of its ephemeral key, and otherwise sends the device's own IDENTIFY, with the
peer's serial and the next LSN it expects, and leaves
the link ACTIVE in the next epoch with the exchange's key, its receive count kept only when the peer is the one before
and was not reset. Each failure is recorded with its cause (R522). What R472 to R487 leave open of the protocol, and the
bytes of the exchange, are the model's (logs 41, 12). -/
def Obligations.LinkTraining : Prop :=
  ∀ (l : Fin 8) (s : State), isUp s = true →
    let x := lnk s l.val
    (exec (.signalDetect l) s = .next (if x.st = .detect then setLnk l.val { x with st := .equalize } s else s)) ∧
    (exec (.equalizeDone l) s = .next (if x.st = .equalize then setLnk l.val { x with st := .align } s else s)) ∧
    (∀ r, exec (.alignDone l r) s =
      .next (if x.st = .align then setLnk l.val { x with st := .identify, reversed := r } s else s)) ∧
    (exec (.holdoffEnd l) s = .next (if x.st = .holdoff then setLnk l.val { x with st := .detect } s else s)) ∧
    (∀ cause : BitVec 3, (x.st = .equalize ∧ cause = 1) ∨ (x.st = .align ∧ cause = 2) ∨ (x.st = .identify ∧ cause = 3) →
      ∃ t, exec (.trainingTimeout l) s = .next t ∧ lnk t l.val = { x with
        st := .holdoff, cause := cause, trainFails := satInc x.trainFails, sameInst := false, encrypted := false } ∧
      (∀ m, m ≠ l.val → lnk t m = lnk s m) ∧ t = { s with kw := { s.kw with links := t.kw.links }, bb := t.bb } ∧
      (s.bb.queue.length < 240 → t.bb.queue = s.bb.queue ++ [{
        code := 0x60, source := 7, severity := 1, data := [l.val, cause.toNat], time := s.now - s.boot.t0
        boot := s.flash.bootCount }])) ∧
    (x.st = .disabled ∨ x.st = .detect ∨ x.st = .active ∨ x.st = .holdoff → exec (.trainingTimeout l) s = .next s) ∧
    (∀ c, c = Instr.laneLoss l ∨ c = Instr.retrain l → x.st = .active → ∃ t, exec c s = .next t ∧
      lnk t l.val = { x with st := .holdoff, sameInst := false, encrypted := false, retrains := satInc x.retrains } ∧
      t.kw.status = s.kw.status ||| BitVec.ofNat 16 (2 ^ l.val) ∧ (∀ m, m ≠ l.val → lnk t m = lnk s m) ∧
      (s.bb.queue.length < 240 → t.bb.queue = s.bb.queue ++ [{
        code := 0x60, source := 7, severity := 1, data := [l.val, 0], time := s.now - s.boot.t0, boot := s.flash.bootCount }])) ∧
    (x.st ≠ .active → exec (.laneLoss l) s = .next s) ∧
    (x.st = .disabled → exec (.retrain l) s = .next s) ∧
    (x.st ≠ .active → x.st ≠ .disabled → exec (.retrain l) s =
      .next (setLnk l.val { x with st := .holdoff, sameInst := false, encrypted := false } s)) ∧
    (∀ p : PeerInfo,
      (x.st ≠ .identify → exec (.identifyDone l p) s = .next s) ∧
      (x.st = .identify →
        (s.rng.st = .fatal ∨ s.mem.wipeFailed = true → ∃ t, exec (.identifyDone l p) s = .next t ∧
          (lnk t l.val).st = .holdoff ∧ (lnk t l.val).cause = 5 ∧ (lnk t l.val).trainFails = satInc x.trainFails) ∧
        (s.rng.st ≠ .fatal → s.mem.wipeFailed = false →
          (∀ u, drawKey s = (none, u) → exec (.identifyDone l p) s = .next u ∧ lnk u l.val = x) ∧
          (∀ priv u, drawKey s = (some priv, u) →
            let pub := ecdhPublic priv.toNat
            let exch := exchangeOf s p pub
            let mine := Sent.identify l.val s.fuse.serial s.flash.cert pub (Config.identitySign s.fuse.serial.toNat exch)
              p.serial (BitVec.ofNat 24 x.rxLsn)
            (sameInstallation s p exch = false → s.kw.refuse = true → ∃ t, exec (.identifyDone l p) s = .next t ∧
              (lnk t l.val).st = .holdoff ∧ (lnk t l.val).cause = 4 ∧ (lnk t l.val).trainFails = satInc x.trainFails) ∧
            (sameInstallation s p exch = true ∨ s.kw.refuse = false → ∃ t, exec (.identifyDone l p) s = .next t ∧
              mine ∈ t.sent ∧
              let y := lnk t l.val
              y.st = .active ∧ y.epoch = x.epoch + 1 ∧ y.peer = p.serial ∧ y.lastPeer = some p.serial ∧
              y.key = BitVec.ofNat 256 (leNat (hkdf32 exch (ecdh priv.toNat p.pub))) ∧
              y.sameInst = sameInstallation s p exch ∧ y.encrypted = (s.kw.encrypt || p.encrypt) ∧ t.rng = u.rng ∧
              y.rxLsn = (if x.lastPeer = some p.serial ∧ p.wasReset = false then x.rxLsn else 0) ∧
              y.trainFails = x.trainFails ∧ t.kw.status = s.kw.status ||| BitVec.ofNat 16 (2 ^ (8 + l.val)))))))

/-- O49. Flits on an ACTIVE link (R473 to R477, R480, R481): the next expected DATA flit that verifies, its code too, is
taken once: its payload begins its virtual channel's message (SOM) or goes on with it, and with EOM the message is in the
inbox; an earlier one of the last 512 counts as duplicate and any other is answered
with a RETRY_REQ, which commands that wait on the link count (R372); an IDLE flit that verifies acknowledges, one that
does not changes nothing; RETRY_REQ and RETRY_TIMEOUT send what is unacknowledged again, counted, and after 16 retries
without progress the link retrains; an alignment flit goes out after 4,095 flits. A message goes out as flits of 224
bytes, the first with SOM, the last with EOM and padded with zeros. The parity is any code's (log 66), and what a retry
asks for, the extension of an LSN and the end of a message that is too long are the model's (log 41). -/
def Obligations.FlitsReceived : Prop :=
  (∀ (vc : Nat) (m : Msg), vc < 4 → let b := msgBytes m
    let fs := msgFlits vc (b.length / 224 + 1) true b
    fs.length = (b.length + 223) / 224 ∧
    ∀ k g, fs[k]? = some g → g.kind = 1 ∧ g.vc.toNat = vc ∧ (g.som = true ↔ k = 0) ∧
      (g.eom = true ↔ k + 1 = fs.length) ∧ g.payload.length = 224 ∧
      ∀ j, j < 224 → g.payload.getD j 0 = b.getD (224 * k + j) 0) ∧
  (∀ (l : Nat) (m : Msg) (s : State), let x := lnk s l
    let fs := msgFlits m.vc ((msgBytes m).length / 224 + 1) true (msgBytes m)
    (x.st ≠ .active → kwSend l m s = s) ∧
    (x.st = .active → (∀ g ∈ x.queued ++ fs, hasCredit x g.vc.toNat = false) →
      kwSend l m s = setLnk l { x with queued := x.queued ++ fs } s)) ∧
  ∀ (l : Fin 8) (f : Flit) (n : Nat) (s : State), isUp s = true → (lnk s l.val).st = .active →
    let x := lnk s l.val
    let lsn? := extendLsn x f.lsn.toNat
    let keyed := x.encrypted = false ∨ s.mem.wipeFailed = false
    let acked := (f.ack.toNat + 1 + 2 ^ 24 - (x.txLsn - x.unacked.length) % 2 ^ 24) % 2 ^ 24
    (flitGood s l.val x.rxLsn f n = true → f.parity = flitCode f ∧ n ≤ 8 ∧ f.epoch = x.epoch ∧ keyed) ∧
    (∀ lsn, f.kind = 1 → lsn? = some lsn → lsn = x.rxLsn → flitGood s l.val lsn f n = true →
      ∃ t, exec (.dataFlit l f n) s = .next t ∧
      let y := lnk t l.val
      y.st = .active ∧ y.rxLsn = x.rxLsn + 1 ∧ y.rx = x.rx + 1 ∧ y.freedVc = vcInc x.freedVc f.vc.toNat ∧
      y.peerFreed = [f.cum0.toNat, f.cum1.toNat, f.cum2.toNat] ∧ y.dup = x.dup ∧ y.retries = x.retries ∧
      let vc := f.vc.toNat
      let p := flitCrypt x (rxIv s l.val lsn) f.payload
      let had := (x.asm.find? fun a => a.1 == vc).map (·.2)
      let rest := x.asm.filter fun a => a.1 != vc
      (f.som = false → had = none → y.inbox = x.inbox ∧ y.asm = x.asm) ∧
      (∀ b, (f.som = true ∧ b = p) ∨ (f.som = false ∧ ∃ a, had = some a ∧ b = a ++ p) →
        (f.eom = false → b.length ≤ 66000 → y.inbox = x.inbox ∧ y.asm = rest ++ [(vc, b)]) ∧
        (f.eom = true → y.inbox = x.inbox ++ (parseMsg vc b).toList ∧ y.asm = rest))) ∧
    (∀ lsn, f.kind = 1 → lsn? = some lsn → lsn < x.rxLsn → x.rxLsn ≤ lsn + 512 → ∃ t, exec (.dataFlit l f n) s = .next t ∧
      let y := lnk t l.val
      y.st = .active ∧ y.rxLsn = x.rxLsn ∧ y.rx = x.rx ∧ y.dup = satInc x.dup ∧ y.inbox = x.inbox ∧ y.asm = x.asm) ∧
    (f.kind = 1 → keyed → lsn? = none ∨ (∃ lsn, lsn? = some lsn ∧ (x.rxLsn < lsn ∨ lsn + 512 < x.rxLsn ∨
        (lsn = x.rxLsn ∧ flitGood s l.val lsn f n = false))) →
      ∃ t g, exec (.dataFlit l f n) s = .next t ∧
        t.cmds = s.cmds.map (fun c => if c.waitsOn s l.val then { c with retryWaits := satInc c.retryWaits } else c) ∧
        t.sent.getLast? = some (.flit l.val g) ∧ g.kind = 2 ∧
        (lnk t l.val).rxLsn = x.rxLsn ∧ (lnk t l.val).inbox = x.inbox ∧ (lnk t l.val).unacked = x.unacked) ∧
    (f.kind = 0 → flitGood s l.val 0 f n = true → x.queued = [] → ∃ t, exec (.idleFlit l f n) s = .next t ∧
      let y := lnk t l.val
      y.unacked = (if acked ≤ x.unacked.length then x.unacked.drop acked else x.unacked) ∧
      y.retriesInRow = (if 1 ≤ acked ∧ acked ≤ x.unacked.length then 0 else x.retriesInRow) ∧
      y.peerFreed = [f.cum0.toNat, f.cum1.toNat, f.cum2.toNat] ∧ y.rxLsn = x.rxLsn ∧ t.sent = s.sent) ∧
    (f.kind = 0 → flitGood s l.val 0 f n = false → exec (.idleFlit l f n) s =
      .next (if 1 ≤ n ∧ n ≤ 8 then setLnk l.val { x with fecCorr := satInc x.fecCorr } s else s)) ∧
    (f.kind = 2 → flitGood s l.val 0 f n = true → x.queued = [] → acked = 0 → x.retriesInRow < 16 →
      ∃ t, exec (.retryReq l f n) s = .next t ∧ (lnk t l.val).retries = satInc x.retries ∧
        (lnk t l.val).retriesInRow = x.retriesInRow + 1 ∧ (lnk t l.val).unacked = x.unacked ∧
        (lnk t l.val).tx = x.tx + BitVec.ofNat 64 x.unacked.length ∧ (lnk t l.val).st = .active) ∧
    (f.kind = 2 → flitGood s l.val 0 f n = true → x.queued = [] → acked = 0 → 16 ≤ x.retriesInRow →
      ∃ t, exec (.retryReq l f n) s = .next t ∧ (lnk t l.val).st = .holdoff) ∧
    (x.unacked ≠ [] → keyed → x.retriesInRow < 16 → ∃ t, exec (.retryTimeout l) s = .next t ∧
      (lnk t l.val).retries = satInc x.retries ∧ (lnk t l.val).retriesInRow = x.retriesInRow + 1 ∧
      (lnk t l.val).unacked = x.unacked ∧ (lnk t l.val).tx = x.tx + BitVec.ofNat 64 x.unacked.length) ∧
    (x.unacked ≠ [] → 16 ≤ x.retriesInRow → ∃ t, exec (.retryTimeout l) s = .next t ∧ (lnk t l.val).st = .holdoff ∧
      (lnk t l.val).retrains = satInc x.retrains) ∧
    (x.unacked = [] → exec (.retryTimeout l) s = .next s) ∧
    (4095 ≤ x.sinceAlign → exec (.alignmentFlit l) s =
      .next (let t := setLnk l.val { x with sinceAlign := 0 } s
        { t with sent := s.sent ++ [.alignment l.val] })) ∧
    (x.sinceAlign < 4095 → exec (.alignmentFlit l) s = .next s)

/-- O50. Job and peer-signal messages (R325, R469, R482, R483): the oldest message of the type leaves the inbox. A JOB
whose form and queue fit runs the frame's checks for the link, another is dropped, and so is one for a queue that a
ROUTE entry names (log 67); a JOB_REPLY goes out to the relayed frame's sender, found by the fields it repeats, tagged
where the port has a key, with the device's own NONCE, which is used once (match and NONCE are log 40's choice), or is
dropped; a PEER_SIGNAL raises the fence its binding allows and is acknowledged, one without a binding counts as rejected
and one not above the last number as a replay; a SIGNAL_ACK commits the command it answers. -/
def Obligations.JobAndSignalMessages : Prop :=
  ∀ (l : Fin 8) (m : Msg) (s : State), isUp s = true →
    let x := lnk s l.val
    let first := fun ty => x.inbox.find? fun m => m.ty == ty
    let u := setLnk l.val { x with inbox := x.inbox.erase m } s
    (first 1 = some m →
      routeOf s (jobHdr m.body).q = none → (jobFormOk m.body false && jobAccepted u (.link l.val) (jobHdr m.body)) = true →
        exec (.jobMessage l) s = .next (jobRun (.link l.val) m.body u)) ∧
    (first 1 = some m → routeOf s (jobHdr m.body).q ≠ none ∨
        (jobFormOk m.body false && jobAccepted u (.link l.val) (jobHdr m.body)) = false →
      exec (.jobMessage l) s = .next u) ∧
    (first 2 = some m → (∀ r ∈ s.ing.relays, ¬(r.1 = l.val ∧ answers m.body r.2 = true)) →
      exec (.jobReply l) s = .next u) ∧
    (∀ r, first 2 = some m → s.ing.relays.find? (fun r => r.1 == l.val && answers m.body r.2) = some r →
      let p := r.2.port.val
      let key := s.flash.jobKey.getD p none
      let n := 2 ^ 63 + s.flash.jobNonce % 2 ^ 63
      let b := patchAt m.body 0x18 (leBytes 8 n)
      let gone := { u with ing := { u.ing with relays := s.ing.relays.erase r } }
      (portUp s p = true → key = none ∨ s.mem.wipeFailed = false →
        ∃ tag, exec (.jobReply l) s = .next { gone with
          flash := { s.flash with jobNonce := s.flash.jobNonce + 1 }
          sent := s.sent ++ [.eth p r.2.src r.2.tags (b ++ tag)] } ∧ (key = none → tag = []) ∧
          (∀ k, key = some k → tag = gcmTag (leBytes 32 k.toNat) (leBytes 4 (leAt m.body 8 4) ++ leBytes 8 n) b [])) ∧
      (portUp s p = false ∨ (key ≠ none ∧ s.mem.wipeFailed = true) → exec (.jobReply l) s = .next gone)) ∧
    (let f := leAt m.body 0 8 % 4096
      let mayRaise := fun b => b ∈ bindingOf u l.val ∧ signalAllowed u b f m.w2 = true
      (first 3 = some m → (∀ b, ¬mayRaise b) → exec (.peerSignalMessage l) s =
        .next (feFlag 4 { u with fe := { u.fe with peerReject := satInc s.fe.peerReject } })) ∧
      (∀ b, first 3 = some m → mayRaise b → (∀ b', mayRaise b' → b' = b) →
        (m.w3.toNat ≤ (bnd s b).got.toNat → exec (.peerSignalMessage l) s =
          .next (feFlag 4 { u with fe := { u.fe with peerReplay := satInc s.fe.peerReplay } })) ∧
        ((bnd s b).got.toNat < m.w3.toNat → ∃ t, exec (.peerSignalMessage l) s = .next t ∧
          bnd t b = { bnd s b with got := m.w3 } ∧
          fnc t f = { fnc s f with val := BitVec.ofNat 63 (max (fnc s f).val.toNat (leAt m.body 8 8 % 2 ^ 63)) } ∧
          (∀ g, g ≠ f → fnc t g = fnc s g) ∧ t.fe = s.fe))) ∧
    (first 4 = some m → exec (.signalAck l) s = .next (match signalCmd u l.val m with
      | some c => commitOk c.key 0 u
      | none => u)) ∧
    (first 1 = none → exec (.jobMessage l) s = .next s) ∧ (first 2 = none → exec (.jobReply l) s = .next s) ∧
    (first 3 = none → exec (.peerSignalMessage l) s = .next s) ∧ (first 4 = none → exec (.signalAck l) s = .next s)

/-- O51. Lock-step and split messages (R161 to R165, R378 to R382, R484, R485): a peer's checkpoint is kept and compared
with the own one of its number, a second of one number or one of no live binding counts as a replay, also when the
command has ended; a CMD_END without the final checkpoint leaves the local command alone; on a same-installation link a
join with another digest, from whatever index, is answered with this device's own and refused with 0x18, one with the
run's own is noted for its link and answered with
this device's own join where its sender is new or does not hear this device yet; spins and partial energies for this
member are kept, those for another are passed on to it over a link on which it was heard, also when the run here has
ended, and a failure message goes on to those that do not hear it and
ends a run that is not decided with status 7. When messages that come early are kept, and how a split group shares
energies and ends, are the model's choice (logs 42, 30). -/
def Obligations.LockStepAndSplitMessages : Prop :=
  (∀ (p : SplitSt) (i : Nat) (s : State),
    (∀ l, directLink s p i = some l → (lnk s l).st = .active ∧ (∃ h, (i, l, h) ∈ p.joined) ∧ routeTo s p i = some l) ∧
    (directLink s p i = none → (∀ j ∈ p.joined, j.1 = i → (lnk s j.2.1).st ≠ .active) ∧
      ∀ m l, m < p.devices → hears p m i = true → directLink s p m = some l →
        (∀ k, k < m → hears p k i = false ∨ directLink s p k = none) → routeTo s p i = some l)) ∧
  (∀ (c : Cmd) (r : Run) (s : State), c.work = .anneal r → 1 < r.split.devices →
    ∃ p ∈ (dropWork c s).kw.past, p.group = r.split.group ∧ p.index = r.split.index ∧ p.devices = r.split.devices ∧
      p.joined = r.split.joined) ∧
  ∀ (l : Fin 8) (m : Msg) (s : State), isUp s = true →
    let x := lnk s l.val
    let ready := fun ty => x.inbox.find? fun m => m.ty == ty && !lsLater s l.val m
    let first := fun ty => x.inbox.find? fun m => m.ty == ty
    let u := setLnk l.val { x with inbox := x.inbox.erase m } s
    let passOn := fun (p : SplitSt) => match directLink u p (fld m.w3.toNat 15 8) with
      | some k => kwSend k m u
      | none => u
    (splitCmd u l.val m.w2 = none →
      (first 7 = some m → exec (.splitJoin l) s = .next u) ∧
      (∀ p, x.sameInst = true → s.kw.past.find? (fun p => p.group == m.w2) = some p →
        (first 8 = some m → exec (.splitSpins l) s = .next (if fld m.w3.toNat 15 8 = p.index then u else passOn p)) ∧
        (first 9 = some m → exec (.splitEnergy l) s = .next (if fld m.w3.toNat 15 8 = p.index then u else passOn p)) ∧
        (first 10 = some m → exec (.splitFail l) s = .next (relayFail m p u))) ∧
      (x.sameInst = false ∨ s.kw.past.find? (fun p => p.group == m.w2) = none →
        (first 8 = some m → exec (.splitSpins l) s = .next u) ∧ (first 9 = some m → exec (.splitEnergy l) s = .next u) ∧
        (first 10 = some m → exec (.splitFail l) s = .next u))) ∧
    (ready 5 = some m → epochBinding u l.val m.w2 = none → exec (.checkpointMessage l) s =
      .next (detFlag 2 { u with det := { u.det with lsReplay := satInc s.det.lsReplay } })) ∧
    (∀ b, ready 5 = some m → epochBinding u l.val m.w2 = some b →
      let k := leAt m.body 0 4
      let v := { u with bindings := Tab.put Binding.init s.bindings b { bnd s b with seen := (bnd s b).seen ++ [(m.w3, k)] } }
      ((m.w3, k) ∈ (bnd s b).seen → exec (.checkpointMessage l) s =
        .next (detFlag 2 { u with det := { u.det with lsReplay := satInc s.det.lsReplay } })) ∧
      ((m.w3, k) ∉ (bnd s b).seen →
        (lsCmd s b m.w3 = none → exec (.checkpointMessage l) s = .next v) ∧
        (∀ c ls, lsCmd s b m.w3 = some c → c.lockStep = some ls →
          let new' := { ls with peer := ls.peer ++ [(k, digOf (slice 8 32 m.body))] }
          exec (.checkpointMessage l) s =
            .next (setLs c.key (lsCompare c new' k v).1 (lsCompare c new' k v).2)))) ∧
    (∀ b c ls, ready 6 = some m → epochBinding u l.val m.w2 = some b → lsCmd u b m.w3 = some c → c.lockStep = some ls →
      (leAt m.body 0 4 = 0xFFFFFFFF → ls.alone = false → exec (.cmdEnd l) s =
        .next (detFlag 1 (setLs c.key { ls with alone := true } u))) ∧
      (leAt m.body 0 4 ≠ 0xFFFFFFFF → exec (.cmdEnd l) s = .next u)) ∧
    (∀ c r, splitCmd u l.val m.w2 = some (c, r) →
      let i := m.w3.toNat % 128
      let forUs := fld m.w3.toNat 15 8 = r.split.index
      (first 7 = some m → c.notStarted = true → c.decided = none →
        digOf (slice 0 32 m.body) ≠ r.split.digest → exec (.splitJoin l) s =
          .next (refuse c.key 0x18 (sendJoins r.split u))) ∧
      (first 7 = some m → c.notStarted = false ∨ c.decided ≠ none → exec (.splitJoin l) s = .next u) ∧
      (first 7 = some m → c.notStarted = true → c.decided = none → digOf (slice 0 32 m.body) = r.split.digest →
        let hears := BitVec.ofNat 64 (leAt m.body 32 8)
        (i = r.split.index ∨ r.split.devices ≤ i → exec (.splitJoin l) s = .next u) ∧
        (i ≠ r.split.index → i < r.split.devices → ∃ p : SplitSt,
          (∀ j, j ∈ p.joined ↔ j = (i, l.val, hears) ∨ (j ∈ r.split.joined ∧ ¬(j.1 = i ∧ j.2.1 = l.val))) ∧
          (p.complete = true ↔ r.split.complete = true ∨ ∀ j, j < r.split.devices → j = r.split.index ∨
            (routeTo u { r.split with joined := p.joined } j).isSome = true) ∧
          let v := setRun c.key { r with split := { r.split with joined := p.joined, complete := p.complete } } u
          ((∃ j ∈ r.split.joined, j.1 = i) → bit (leAt m.body 32 8) r.split.index = true →
            exec (.splitJoin l) s = .next v) ∧
          ((∀ j ∈ r.split.joined, j.1 ≠ i) ∨ bit (leAt m.body 32 8) r.split.index = false →
            exec (.splitJoin l) s = .next (sendJoins { r.split with joined := p.joined } v)))) ∧
      (first 8 = some m → forUs → exec (.splitSpins l) s = .next (spinsIn m c r u)) ∧
      (first 8 = some m → ¬forUs → exec (.splitSpins l) s = .next (passOn r.split)) ∧
      (first 9 = some m → forUs → exec (.splitEnergy l) s = .next (energyIn m c r u)) ∧
      (first 9 = some m → ¬forUs → exec (.splitEnergy l) s = .next (passOn r.split)) ∧
      (first 10 = some m → c.decided = none →
        exec (.splitFail l) s = .next (killCmd c (atEngine i (mkDecision 7 2 0)) (relayFail m r.split u))) ∧
      (first 10 = some m → c.decided ≠ none → exec (.splitFail l) s = .next (relayFail m r.split u))) ∧
    (∀ c r, u.cmds.find? (fun d => d.key == c.key) = some c → let t := spinsIn m c r u
      let from' := fld m.w3.toNat 7 0
      ∃ r', findCmd t c.key = some { c with work := .anneal r' } ∧ r'.spins = r.spins ∧
        (leAt m.body 12 4 = 0 → turnsGot r'.split from' = max (turnsGot r.split from') (leAt m.body 0 4 + 1) ∧
          (∀ j, j ≠ from' → turnsGot r'.split j = turnsGot r.split j) ∧ r'.split.spinsLate = r.split.spinsLate) ∧
        (leAt m.body 12 4 ≠ 0 → r'.split.spinsGot = r.split.spinsGot ∧ r'.split.spinsLate = r.split.spinsLate ++
          [(leAt m.body 0 4, leAt m.body 4 4, leAt m.body 8 4, leAt m.body 12 4, m.body.drop 16)]))

/-! ## The service port -/

/-- O52. The owner's settings (R488 to R490): a request while another is in progress is answered BUSY and has no effect;
one whose LENGTH or signature does not frame it is answered BAD_FRAME, one that the owner did not sign with a higher
NONCE is not accepted, and an accepted one takes effect, stores the NONCE and is answered OK. New addresses retrain
their port. GET_STATUS needs no signature; a code of no operation is answered UNKNOWN. Answers are counted, AUTH and
REFUSED ones twice. How long a request takes is a free value (log 25). The layouts of bodies are the model's where the
rule gives none (log 24). -/
def Obligations.OwnerSettings : Prop :=
  (∀ (r : SvcReq) (s : State), isUp s = true →
    let ops := [(0x10, Instr.setGlobalTimeout r), (0x11, .setCarafeCrypt r), (0x12, .setKwPolicy r), (0x13, .setEthAddr r),
      (0x14, .setJobKey r), (0x15, .installCert r), (0x16, .stageTable r), (0x17, .commitTable r)]
    let during := fun op (t : State) => { t with svc := { t.svc with doneAt := s.now + Config.svcTicks op } }
    let took := fun op (t : State) => svcAnswer op 0 [] (svcFlag 0 (during op { t with
      flash := { t.flash with nonce := r.nonce } }))
    let b := r.body
    (∀ p ∈ ops, s.now < s.svc.doneAt → exec p.2 s = .next (svcAnswer p.1 4 [] s)) ∧
    (∀ p ∈ ops, s.svc.doneAt ≤ s.now → framed r 64 = false → exec p.2 s = .next (svcAnswer p.1 1 [] (during p.1 s))) ∧
    (∀ p ∈ ops, s.svc.doneAt ≤ s.now → ownerSigned s p.1 r = false →
      exec p.2 s = .next (svcAnswer p.1 1 [] (during p.1 s)) ∨
      exec p.2 s = .next (svcAnswer p.1 2 [] (logEvent 0x24 8 [p.1, 2] (during p.1 s)))) ∧
    (s.svc.doneAt ≤ s.now → framed r 64 = true →
      (b.length = 4 → 1 ≤ leAt b 0 4 → leAt b 0 4 ≤ 3600000 → ownerSigned s 0x10 r = true →
        exec (.setGlobalTimeout r) s = .next (took 0x10 { s with
          flash := { s.flash with timeoutMs := BitVec.ofNat 22 (leAt b 0 4) }
          fe := { s.fe with timeoutMs := BitVec.ofNat 22 (leAt b 0 4) } })) ∧
      (b.length = 4 → ownerSigned s 0x11 r = true → exec (.setCarafeCrypt r) s =
        .next (took 0x11 { s with flash := { s.flash with crypt := bit (leAt b 0 4) 0 } })) ∧
      (b.length = 4 → ownerSigned s 0x12 r = true → exec (.setKwPolicy r) s = .next (took 0x12 { s with
        flash := { s.flash with kwEncrypt := bit (leAt b 0 4) 0, kwRefuse := bit (leAt b 0 4) 1 }
        kw := { s.kw with encrypt := bit (leAt b 0 4) 0, refuse := bit (leAt b 0 4) 1 } })) ∧
      (b.length = 36 → leAt b 0 4 < 2 → ownerSigned s 0x13 r = true → ∃ a,
        let down := { prt s (leAt b 0 4) with upAt := s.now + Config.portTicks s.now }
        exec (.setEthAddr r) s = .next (took 0x13 { s with
          flash := { s.flash with eth := s.flash.eth.set (leAt b 0 4) a }
          ing := { s.ing with ports := Tab.put PortSt.init s.ing.ports (leAt b 0 4) down } }) ∧
          a.mac = (if leAt b 4 6 = 0 then none else some (BitVec.ofNat 48 (leAt b 4 6))) ∧
          a.ip4 = BitVec.ofNat 32 (leAt b 12 4) ∧ a.ip6 = BitVec.ofNat 128 (leAt b 16 16) ∧
          a.jobPort = BitVec.ofNat 16 (leAt b 32 2)) ∧
      (b.length = 128 → leAt b 0 4 < 2 → ownerSigned s 0x14 r = true → s.mem.wipeFailed = false → s.fuse.identity = true →
        ∀ k, Config.unwrapJobKey s.fuse.serial.toNat (b.drop 4) = some k → exec (.setJobKey r) s =
          .next (took 0x14 { s with flash := { s.flash with jobKey := s.flash.jobKey.set (leAt b 0 4) (some k) } })) ∧
      (b.length = 128 → leAt b 0 4 < 2 → ownerSigned s 0x14 r = true → s.mem.wipeFailed = true →
        exec (.setJobKey r) s = .next (svcAnswer 0x14 3 [] (logEvent 0x24 8 [0x14, 3] (during 0x14 s)))) ∧
      (∀ k, b.length = 88 → ownerSigned s 0x15 r = true → s.flash.owner = some k →
        leAt b 0 8 = s.fuse.serial.toNat → ecdsaVerify (keyBytes k) (b.take 24) (b.drop 24) = true →
        exec (.installCert r) s = .next (took 0x15 { s with flash := { s.flash with
          cert := some ⟨s.fuse.serial, BitVec.ofNat 128 (leAt b 8 16), b.drop 24⟩ } })) ∧
      (4 ≤ b.length → b.length ≤ 4100 → leAt b 0 4 + (b.length - 4) ≤ 65536 → ownerSigned s 0x16 r = true →
        exec (.stageTable r) s = .next (took 0x16 { s with flash := { s.flash with
          staged := Tab.putList 0 s.flash.staged (leAt b 0 4) (b.drop 4)
          stagedLen := max s.flash.stagedLen (leAt b 0 4 + (b.length - 4)) } })) ∧
      (b.length = 32 → ownerSigned s 0x17 r = true →
        (sha256 (stagedBytes s) = b → exec (.commitTable r) s = .next (took 0x17 { s with flash := { s.flash with
          table := stagedBytes s, staged := [], stagedLen := 0 } })) ∧
        (sha256 (stagedBytes s) ≠ b → exec (.commitTable r) s =
          .next (svcAnswer 0x17 3 [] (logEvent 0x24 8 [0x17, 3] (during 0x17 s))))))) ∧
  (∀ (r : SvcReq) (op : BitVec 8) (s : State),
    (svcServed s 1 = true → svcBusy s = false → framedN r 0 0 = true → ∃ body,
      exec (.getStatus r) s = .next (svcAnswer 1 0 body (svcBegin 1 s))) ∧
    (svcServed s 1 = true → svcBusy s = true → exec (.getStatus r) s = .next (svcAnswer 1 4 [] s)) ∧
    (svcServed s op.toNat = true → svcBusy s = false → knownOp op.toNat = false →
      exec (.unknownOp op r) s = .next (svcAnswer op.toNat 5 [] (svcBegin op.toNat s)))) ∧
  (∀ (op st : Nat) (body : List Byte) (s : State), let t := svcAnswer op st body s
    t.sent = s.sent ++ [.svc op st body] ∧ t.svc.reqs = satInc s.svc.reqs ∧
    t.svc.denied = (if st = 2 ∨ st = 3 then satInc s.svc.denied else s.svc.denied))

/-- O53. Lifecycle operations (R503 to R507): an operation that the owner signed is refused with the first of the
reasons of R505 that holds, recorded in FW_REFUSAL. Otherwise TAKE_OWNERSHIP in UNOWNED stores the key,
RELEASE_OWNERSHIP erases what R506 lists, DECOMMISSION blows the fuse and the identity, each followed by a reset of
cause 5; the owner lock is set or cleared. That AUTH comes before the reasons and a refusal is recorded by UPDATE_REFUSED
alone (log 25), the answer before the reset (log 26), and a lifecycle wipe found clean (log 29) are the model's choice. -/
def Obligations.LifecycleOperations : Prop :=
  ∀ (r : SvcReq) (s : State), isUp s = true → svcBusy s = false →
    let calm := s.pwr.holdup = false ∧ s.pwr.lowv = false
    let stopReason := if lifeState s ≠ 1 then some 1 else if s.flash.lock = true then some 2
      else if s.boot.trial = true then some 3 else if s.pwr.holdup = true then some 4
      else if s.pwr.lowv = true then some 5 else if runActive s = true then some 6
      else if captureLive s = true then some 7 else none
    let refused := fun op n => svcAnswer op 3 [BitVec.ofNat 8 n] (logEvent 0x11 0xFF [op, n] (fwFlag 1 { svcBegin op s with
      boot := { s.boot with refOp := BitVec.ofNat 8 op, refReason := BitVec.ofNat 8 n } }))
    (framedN r 64 64 = true → ecdsaVerify r.body (signedBytes s 0x40 r) r.sig = true →
      (lifeState s ≠ 0 → exec (.takeOwnership r) s = .next (refused 0x40 1)) ∧
      (lifeState s = 0 → calm → ∃ t, exec (.takeOwnership r) s = .next t ∧ t.boot.phase = .booting ∧ t.boot.cause = 5 ∧
        t.flash = { s.flash with owner := some (BitVec.ofNat 512 (leNat r.body)), nonce := r.nonce } ∧
        t.fuse = s.fuse ∧ t.mem.carafe = [] ∧ t.host.mem = s.host.mem ∧ t.sent = s.sent ++ [.svc 0x40 0 []])) ∧
    (framedN r 64 64 = true → ecdsaVerify r.body (signedBytes s 0x40 r) r.sig = false →
      exec (.takeOwnership r) s = .next (svcAnswer 0x40 2 [] (logEvent 0x24 8 [0x40, 2] (svcBegin 0x40 s)))) ∧
    (framedN r 0 64 = true → ownerSigned s 0x41 r = true →
      (∀ n, stopReason = some n → exec (.releaseOwnership r) s = .next (refused 0x41 n)) ∧
      (stopReason = none → ∃ t, exec (.releaseOwnership r) s = .next t ∧ t.boot.phase = .booting ∧ t.boot.cause = 5 ∧
        t.flash = { s.flash with
          owner := none, cert := none, jobKey := [none, none], table := [], staged := [], stagedLen := 0, lock := false
          nonce := 0, timeoutMs := 600000, crypt := true, kwEncrypt := true, kwRefuse := false } ∧
        t.fuse = s.fuse ∧ t.mem.carafe = [])) ∧
    (framedN r 8 64 = true → r.body = serialBytes s → ownerSigned s 0x42 r = true →
      (∀ n, stopReason = some n → exec (.decommission r) s = .next (refused 0x42 n)) ∧
      (stopReason = none → ∃ t, exec (.decommission r) s = .next t ∧ t.boot.phase = .booting ∧ t.boot.cause = 5 ∧
        t.fuse = { s.fuse with decommissioned := true, identity := false } ∧ t.flash = { s.flash with nonce := r.nonce } ∧
        t.mem.carafe = [])) ∧
    (framedN r 0 64 = true → lifeState s = 1 → calm →
      (ownerSigned s 0x43 r = true → ∃ t, exec (.setOwnerLock r) s = .next t ∧
        t.flash = { s.flash with lock := true, nonce := r.nonce } ∧ t.boot = s.boot ∧ t.sent = s.sent ++ [.svc 0x43 0 []]) ∧
      (ownerSigned s 0x44 r = true → ∃ t, exec (.clearOwnerLock r) s = .next t ∧
        t.flash = { s.flash with lock := false, nonce := r.nonce } ∧ t.boot = s.boot ∧
        t.sent = s.sent ++ [.svc 0x44 0 []]))

/-- O54. Firmware update (R508 to R515, R525), each operation signed and with no reason 0x01 to 0x07 against it: BEGIN
puts the slot that is not ACTIVE in RECEIVING (refused with 9 while one is RECEIVING or PENDING, with 0x0A for a
length out of range); BLOCK stores 4,096 bytes at its offset (8 with none RECEIVING, 0x0B for an offset out of range);
COMMIT checks completeness, digest, image and SVN in that order; ACTIVATE resets with cause 2; CANCEL empties the
slot; SET_CONFIRM_WINDOW sets the next window. UPDATE_STATUS and BB_READ change nothing but the count of answers. That
CANCEL takes a PENDING slot too and BEGIN slot 0 where none is ACTIVE (log 26), and the order of the checks (log 25), are
the model's choice. -/
def Obligations.FirmwareUpdate : Prop :=
  (∀ (r : SvcReq) (s : State), svcServed s 0x48 = true → svcBusy s = false →
    let go := fun op => ownerSigned s op r = true ∧ commonReason s op = none
    let ok := fun op (t : State) => svcAnswer op 0 [] (svcFlag 0 { t with flash := { t.flash with nonce := r.nonce } })
    let len := leAt r.body 0 4
    let off := r.nonce.toNat
    (framedN r 36 64 = true → go 0x48 →
      (slotIn s .receiving = none → slotIn s .pending = none → 0 < len → len ≤ 33554432 → len % 4096 = 0 →
        let i := if s.flash.slot0.st = .active then 1 else 0
        exec (.updateBegin r) s = .next (ok 0x48 (logEvent 0x10 0xFF [i, len, leNat (r.body.drop 4)]
          (setSlot i ⟨.receiving, len, r.body.drop 4, [], []⟩ (svcBegin 0x48 s))))) ∧
      (slotIn s .receiving ≠ none ∨ slotIn s .pending ≠ none → exec (.updateBegin r) s = .next (svcRefuse 0x48 9 (svcBegin 0x48 s))) ∧
      (slotIn s .receiving = none → slotIn s .pending = none → len = 0 ∨ 33554432 < len ∨ len % 4096 ≠ 0 →
        exec (.updateBegin r) s = .next (svcRefuse 0x48 0xA (svcBegin 0x48 s)))) ∧
    (framedN r 4096 0 = true → commonReason s 0x49 = none →
      (slotIn s .receiving = none → exec (.updateBlock r) s = .next (svcRefuse 0x49 8 (svcBegin 0x49 s))) ∧
      (∀ i, slotIn s .receiving = some i →
        (off % 4096 = 0 → off < (slotOf s i).length → ∃ t, exec (.updateBlock r) s = .next t ∧
          (slotOf t i).image = Tab.putList 0 (slotOf s i).image off r.body ∧ off ∈ (slotOf t i).blocks ∧
          (slotOf t i).st = .receiving ∧ slotOf t (1 - i) = slotOf s (1 - i)) ∧
        (off % 4096 ≠ 0 ∨ (slotOf s i).length ≤ off → exec (.updateBlock r) s = .next (svcRefuse 0x49 0xB (svcBegin 0x49 s))))) ∧
    (framedN r 0 64 = true → go 0x4A →
      (slotIn s .receiving = none → exec (.updateCommit r) s = .next (svcRefuse 0x4A 8 (svcBegin 0x4A s))) ∧
      (∀ i, slotIn s .receiving = some i →
        let x := slotOf s i
        let whole := x.length / 4096 ≤ x.blocks.length
        let same := sha256 (imgBytes x 0 x.length) = x.digest
        (¬whole → exec (.updateCommit r) s = .next (svcRefuse 0x4A 0xC (svcBegin 0x4A s))) ∧
        (whole → ¬same → exec (.updateCommit r) s = .next (svcRefuse 0x4A 0xD (svcBegin 0x4A s))) ∧
        (whole → same → imageOk s x = false → exec (.updateCommit r) s = .next (svcRefuse 0x4A 0xE (svcBegin 0x4A s))) ∧
        (whole → same → imageOk s x = true → slotSvn x < s.fuse.svnMin.toNat →
          exec (.updateCommit r) s = .next (svcRefuse 0x4A 0xF (svcBegin 0x4A s))) ∧
        (whole → same → imageOk s x = true → s.fuse.svnMin.toNat ≤ slotSvn x → ∃ t, exec (.updateCommit r) s = .next t ∧
          slotOf t i = { x with st := .pending } ∧ slotOf t (1 - i) = slotOf s (1 - i) ∧
          t.boot.status = s.boot.status ||| 1 ∧ t.fuse = s.fuse ∧ t.flash.nonce = r.nonce))) ∧
    (framedN r 0 64 = true → go 0x4B →
      (slotIn s .pending = none → exec (.updateActivate r) s = .next (svcRefuse 0x4B 8 (svcBegin 0x4B s))) ∧
      (slotIn s .pending ≠ none → ∃ t, exec (.updateActivate r) s = .next t ∧ t.boot.phase = .booting ∧ t.boot.cause = 2 ∧
        t.flash = { s.flash with nonce := r.nonce } ∧ t.fuse = s.fuse)) ∧
    (framedN r 0 64 = true → go 0x4C →
      (slotIn s .receiving = none → slotIn s .pending = none → exec (.updateCancel r) s = .next (svcRefuse 0x4C 8 (svcBegin 0x4C s))) ∧
      (∀ i, slotIn s .receiving = some i ∨ (slotIn s .receiving = none ∧ slotIn s .pending = some i) →
        ∃ t, exec (.updateCancel r) s = .next t ∧ slotOf t i = Slot.init ∧ slotOf t (1 - i) = slotOf s (1 - i) ∧
          t.flash.nonce = r.nonce))) ∧
  (∀ (r : SvcReq) (s : State), isUp s = true → svcBusy s = false → framedN r 4 64 = true → 10 ≤ leAt r.body 0 4 →
    leAt r.body 0 4 ≤ 3600 →
    ownerSigned s 0x4D r = true → commonReason s 0x4D = none → ∃ t, exec (.setConfirmWindow r) s = .next t ∧
      t.flash = { s.flash with confirmS := BitVec.ofNat 12 (leAt r.body 0 4), nonce := r.nonce } ∧ t.boot = s.boot) ∧
  (∀ (r : SvcReq) (s : State),
    (svcServed s 0x4E = true → svcBusy s = false → framedN r 0 0 = true → ∃ body,
      exec (.updateStatus r) s = .next (svcAnswer 0x4E 0 body (svcBegin 0x4E s)) ∧
      leAt body 0 4 = fwSlotWord s 0 % 2 ^ 32 ∧ leAt body 4 4 = fwSlotWord s 1 % 2 ^ 32) ∧
    (svcServed s 0x50 = true → svcBusy s = false → framedN r 12 0 = true → 1 ≤ leAt r.body 8 4 → leAt r.body 8 4 ≤ 31 →
      (∀ i, i < leAt r.body 8 4 → bbHeld s (leAt r.body 0 8 + i) = true) → ∃ body, exec (.bbRead r) s =
        .next (svcAnswer 0x50 0 body (svcBegin 0x50 s)) ∧ body.length = 128 * leAt r.body 8 4 ∧
        ∀ i, i < leAt r.body 8 4 → slice (128 * i) 128 body =
          leBytes 128 (bbSlot s ((leAt r.body 0 8 + i) % 65536)).toNat))

/-! ## Random numbers -/

/-- O55. BLOCK_PERIOD, STARTUP_TEST_END and FAIL_RUN_CLEAR (R424 to R433): a clean period of a running generator holds
its digest, the fourth held one goes with the others into the buffer as far as it has room and they are counted; then what
waits is served while words last, the private ports in their order and then the software reads. A failing period discards
everything buffered, held or forming, counts the failing cells, and leads to RESTART, or to FATAL at the fourth failed
restart in a row; before RUNNING a period counts towards eight clean ones, and a failing one is a failed restart in
RESTART alone. The known-answer test after them decides RUNNING. What the rules leave open in the order of service is the
model's choice (log 45). -/
def Obligations.RngHealth : Prop :=
  ∀ (raw : BitVec 1024) (s : State),
    let r := s.rng
    let dig := digestOf (leBytes 128 raw.toNat)
    let run := if 1024 ≤ r.clean then 0 else r.failRun
    (∀ cells, r.st = .running → periodTests raw 128 0 r.cells = (cells, none) →
      (r.heldBlocks.length < 3 → exec (.blockPeriod raw) s = .next { s with rng := { r with
        cells := cells, clean := r.clean + 1, heldBlocks := r.heldBlocks ++ [dig] } }) ∧
      (r.heldBlocks.length = 3 → exec (.blockPeriod raw) s = .next (serveWaiting (r.waiting.length + r.swWait.length)
        { s with rng := { r with
          cells := cells, clean := r.clean + 1, heldBlocks := []
          buffer := r.buffer ++ (r.heldBlocks ++ [dig]).take (64 - r.buffer.length)
          blocks := r.blocks + BitVec.ofNat 64 (min (64 - r.buffer.length) 4) } }))) ∧
    (∀ n, r.buffer = [] ∨ (r.waiting = [] ∧ r.swWait = []) → serveWaiting n s = s) ∧
    (∀ n b rest, r.buffer = b :: rest →
      let w := BitVec.ofNat 32 (b.toNat / 2 ^ (32 * r.taken))
      let q := if r.taken = 7 then { r with buffer := rest, taken := 0 } else { r with taken := r.taken + 1 }
      (∀ p, p < 3 → p ∈ r.waiting → (∀ x ∈ r.waiting, p ≤ x) → serveWaiting (n + 1) s = serveWaiting n { s with
        rng := { q with
          waiting := r.waiting.erase p, seedWords := if p = 2 then r.seedWords ++ [w] else r.seedWords
          keyWords := if p = 1 then r.keyWords ++ [w] else r.keyWords }
        sent := s.sent ++ [.rng p 0 w] }) ∧
      (∀ path t0 more, r.waiting = [] →
        (r.swWait = (path, 4, t0) :: more → serveWaiting (n + 1) s = serveWaiting n (rngSetLatch path w { s with
          rng := { q with swWait := more }, sent := s.sent ++ [.readData path 0] })) ∧
        (r.swWait = (path, 8, t0) :: more → serveWaiting (n + 1) s = serveWaiting n (rngSetLatch path 0 { s with
          rng := { q with swWait := more }, sent := s.sent ++ [.readData path (w ++ (0 : Word))] })))) ∧
    (∀ cells rct apt, r.st = .running → periodTests raw 128 0 r.cells = (cells, some (rct, apt)) →
      ∃ t, exec (.blockPeriod raw) s = .next t ∧ t.rng.buffer = [] ∧ t.rng.heldBlocks = [] ∧ t.rng.taken = 0 ∧
        t.rng.rctFails = satAdd r.rctFails rct.length ∧ t.rng.aptFails = satAdd r.aptFails apt.length ∧
        t.rng.discards = satAdd r.discards (r.buffer.length + r.heldBlocks.length + 1) ∧
        t.rng.cellFail = BitVec.ofNat 8 (ofBits (rct ++ apt)) ∧ t.rng.flags.getLsbD 0 = true ∧
        t.rng.failRun = (if r.clean < 1024 then run + 1 else run) ∧
        t.rng.st = (if 4 ≤ t.rng.failRun then .fatal else .restart) ∧
        (t.rng.st = .restart → t.rng.restarts = satInc r.restarts ∧ t.rng.waiting = r.waiting ∧ t.rng.swWait = r.swWait ∧
          t.sent = s.sent) ∧
        (t.rng.st = .fatal → t.rng.waiting = [] ∧ t.rng.swWait = [] ∧ t.sent = s.sent ++ (r.waiting.map fun p => .rng p 2 0) ++
          r.swWait.map fun w => .readData w.1 0x80000000)) ∧
    (r.st = .startup ∨ r.st = .restart → r.periods < 8 → ∀ cells, periodTests raw 128 0 r.cells = (cells, none) →
      exec (.blockPeriod raw) s = .next { s with rng := { r with cells := cells, periods := r.periods + 1 } }) ∧
    (r.st = .startup ∨ r.st = .restart → r.periods < 8 → ∀ cells rct apt,
      periodTests raw 128 0 r.cells = (cells, some (rct, apt)) → ∃ t, exec (.blockPeriod raw) s = .next t ∧
        t.rng.passed = false ∧ t.rng.buffer = [] ∧ t.rng.heldBlocks = [] ∧ t.rng.taken = 0 ∧
        t.rng.rctFails = satAdd r.rctFails rct.length ∧ t.rng.aptFails = satAdd r.aptFails apt.length ∧
        t.rng.discards = satAdd r.discards (r.buffer.length + r.heldBlocks.length) ∧
        t.rng.cellFail = BitVec.ofNat 8 (ofBits (rct ++ apt)) ∧ t.rng.flags.getLsbD 0 = true ∧
        t.rng.failRun = (if r.st = .restart then run + 1 else run) ∧
        t.rng.st = (if 4 ≤ t.rng.failRun then .fatal else .restart) ∧
        (t.rng.st = .restart → t.rng.periods = 0 ∧ t.rng.restarts = satInc r.restarts ∧ t.rng.waiting = r.waiting ∧
          t.rng.swWait = r.swWait ∧ t.sent = s.sent) ∧
        (t.rng.st = .fatal → t.rng.waiting = [] ∧ t.rng.swWait = [])) ∧
    (8 ≤ r.periods → r.st = .startup ∨ r.st = .restart → exec (.blockPeriod raw) s = .next s) ∧
    (r.st = .kat ∨ r.st = .fatal → exec (.blockPeriod raw) s = .next s) ∧
    (r.st = .startup ∨ r.st = .restart → 8 ≤ r.periods →
      (∃ t, exec (.startupTestEnd true) s = .next t ∧ t.rng.st = .running ∧ t.rng.flags = r.flags ||| 4 ∧
        t.rng.passed = true ∧ t.rng.clean = (if r.st = .startup then 1024 else 0) ∧
        t.rng.periods = 0 ∧ t.rng.buffer = r.buffer ∧ t.sent = s.sent) ∧
      (∃ t, exec (.startupTestEnd false) s = .next t ∧ t.rng.passed = false ∧ t.rng.buffer = [] ∧ t.rng.cellFail = 0 ∧
        t.rng.discards = satAdd r.discards (r.buffer.length + r.heldBlocks.length) ∧ t.rng.flags.getLsbD 0 = true ∧
        t.rng.failRun = (if r.st = .restart then run + 1 else run) ∧
        t.rng.st = (if 4 ≤ t.rng.failRun then .fatal else .restart))) ∧
    (∀ b, r.st = .running ∨ r.st = .kat ∨ r.st = .fatal ∨ r.periods < 8 → exec (.startupTestEnd b) s = .next s) ∧
    (exec .failRunClear s =
      .next (if r.st = .running ∧ 1024 ≤ r.clean then { s with rng := { r with failRun := 0 } } else s))

/-- O56. Requests, the software port and the known-answer test (R432 to R440): a request on any port is answered with the
oldest word, NOT_READY before the first start, ERROR in FATAL, and waits otherwise; the eighth word of a block takes the
block out of the buffer; a read of RNG_SW_STAT on either path latches a word for
its path and says 0, is NOT_READY at once in STARTUP and FAILED in FATAL (0x4000_0000, 0x8000_0000), and otherwise waits
16 µs for a word before it is NOT_READY; a read of RNG_SW_DATA gives the latch and clears it; an 8-byte read gives both.
The test is entered from RUNNING, everything formed discarded, run in KAT, where each KAT_GO leaves the digest of the
first KAT_LEN input bytes in RNG_KAT_OUT, and left by a restart; from BAR0 it is denied. KAT_GO outside KAT is a write of
MODE 1 (the model's choice, log 45). -/
def Obligations.RngRequestsAndTest : Prop :=
  ∀ (p : Fin 3) (len : BitVec 8) (s : State),
    let r := s.rng
    let out := fun (t : State) (n : BitVec 8) => ∀ k, k < 8 → Tab.get 0 t.rng.katOut k = BitVec.ofNat 32
      ((digestOf (((Tab.getList 0 r.katIn 0 32).flatMap fun w => leBytes 4 w.toNat).take (min n.toNat 128))).toNat /
        2 ^ (32 * k))
    (∀ b rest, r.st = .running → r.buffer = b :: rest →
      let w := BitVec.ofNat 32 (b.toNat / 2 ^ (32 * r.taken))
      let q := if r.taken = 7 then { r with buffer := rest, taken := 0 } else { r with taken := r.taken + 1 }
      exec (.rngRequest p) s = .next { s with
        rng := { q with
          seedWords := if p.val = 2 then r.seedWords ++ [w] else r.seedWords
          keyWords := if p.val = 1 then r.keyWords ++ [w] else r.keyWords }
        sent := s.sent ++ [.rng p.val 0 w] } ∧
      (s.boot.phase = .running → ∀ path,
        exec (.rngSwStatRead path 4) s = .next (rngSetLatch path w { s with
          rng := q, sent := s.sent ++ [.readData path 0] }) ∧
        exec (.rngSwStatRead path 8) s = .next (rngSetLatch path 0 { s with
          rng := q, sent := s.sent ++ [.readData path (w ++ (0 : Word))] }))) ∧
    (r.st = .startup → exec (.rngRequest p) s = .next { s with sent := s.sent ++ [.rng p.val 1 0] }) ∧
    (r.st = .fatal → exec (.rngRequest p) s = .next { s with sent := s.sent ++ [.rng p.val 2 0] }) ∧
    ((r.st = .running ∧ r.buffer = []) ∨ r.st = .restart ∨ r.st = .kat → exec (.rngRequest p) s =
      .next { s with rng := { r with waiting := r.waiting ++ [p.val] } }) ∧
    (s.boot.phase = .running →
      (∀ path bytes, (r.st = .running ∧ r.buffer = []) ∨ r.st = .restart ∨ r.st = .kat →
        exec (.rngSwStatRead path bytes) s = .next { s with rng := { r with swWait := r.swWait ++ [(path, bytes, s.now)] } }) ∧
      (∀ path t0, s.pending = [] → r.swWait = [(path, 4, t0)] → t0 + 1600 ≤ s.now + 1 → step s = .next (rngSetLatch path 0
        { s with
          now := s.now + 1
          rng := { r with swWait := [], swNotReady := satInc r.swNotReady, flags := r.flags ||| 32 }
          sent := s.sent ++ [.readData path 0x40000000] })) ∧
      (∀ path, r.st = .startup → exec (.rngSwStatRead path 4) s = .next (rngSetLatch path 0 { s with
        rng := { r with swNotReady := satInc r.swNotReady, flags := r.flags ||| 32 }
        sent := s.sent ++ [.readData path 0x40000000] })) ∧
      (∀ path, r.st = .fatal → exec (.rngSwStatRead path 4) s = .next (rngSetLatch path 0 { s with
        sent := s.sent ++ [.readData path 0x80000000] })) ∧
      exec (.rngSwDataRead .bar0) s = .next { s with
        rng := { r with latchBar0 := 0 }, sent := s.sent ++ [.readData .bar0 (r.latchBar0.setWidth 64)] } ∧
      exec (.rngSwDataRead .localPort) s = .next { s with
        rng := { r with latchLocal := 0 }, sent := s.sent ++ [.readData .localPort (r.latchLocal.setWidth 64)] } ∧
      (∀ c ∈ [Instr.katEntry .bar0 len, .katExit .bar0 len, .katGo .bar0 len], exec c s = .next (rngFlag 6 s)) ∧
      (r.st = .running → ∃ t, exec (.katEntry .localPort len) s = .next t ∧ t.rng.st = .kat ∧ t.rng.buffer = [] ∧
        t.rng.heldBlocks = [] ∧ t.rng.discards = satAdd r.discards (r.buffer.length + r.heldBlocks.length + 1) ∧
        t.rng.katLen = len) ∧
      (r.st ≠ .running → exec (.katEntry .localPort len) s = .next (rngFlag 4 s)) ∧
      (r.st = .kat → ∃ t, exec (.katExit .localPort len) s = .next t ∧ t.rng.st = .restart ∧ t.rng.periods = 0 ∧
        t.rng.restarts = satInc r.restarts) ∧
      (r.st ≠ .kat → exec (.katExit .localPort len) s = .next { s with rng := { r with katLen := len } }) ∧
      (r.st = .kat → ∃ t, exec (.katGo .localPort len) s = .next t ∧ t.rng.flags = r.flags ||| 8 ∧ t.rng.st = .kat ∧
        t.rng.buffer = r.buffer ∧ t.rng.katLen = len ∧ out t len) ∧
      (∀ v : Word, r.st = .kat → v.getLsbD 0 = false → v.getLsbD 16 = true → let t := rngCtrlWrite .localPort v s
        t.rng.st = .restart ∧ t.rng.flags.getLsbD 3 = true ∧ out t (BitVec.ofNat 8 (fld v.toNat 15 8))) ∧
      (r.st ≠ .kat → exec (.katGo .localPort len) s = exec (.katEntry .localPort len) s))

/-! ## Blotter -/

/-- O57. BLOTTER_WRITE and SUPPRESSED (R521, R523): the oldest event gets the next number and slot, and BB_NEXT and
BB_DONE pass it, once the slots have been scanned (R524); after a loss an OVERRUN record of how many goes first; the 17th
and later ones of
a code in a second, but for SEVERITY 4, are counted instead. At the second's end every limited code gets a record of how
many. A record has the fields of R521 at their places, with the CRC over the rest. That OVERRUN is not limited, and
the row SUPPRESSED is the second's end, is the model's choice (log 23). -/
def Obligations.BlotterWriter : Prop :=
  ∀ (s : State), (s.boot.phase = .held ∨ s.boot.phase = .booting → exec .blotterWrite s = .next s) ∧
    let i := s.bb.next.toNat
    let up := s.boot.phase ≠ .held ∧ s.boot.phase ≠ .booting
    (s.bb.queue = [] → exec .blotterWrite s = .next s) ∧
    (∀ e rest, up → s.bb.queue = e :: rest → s.bb.owed = 0 → (rateOf s e.code).1 < 16 ∨ e.severity = 4 →
      ∃ t, exec .blotterWrite s = .next t ∧ t.bb.queue = rest ∧ t.bb.next = s.bb.next + 1 ∧ t.bb.done = s.bb.next + 1 ∧
        bbSlot t (i % 65536) = bbRecord i e ∧
        (∀ j, j ≠ i % 65536 → bbSlot t j = bbSlot s j) ∧ t.bb.status.getLsbD 0 = true ∧
        (rateOf t e.code).1 = (rateOf s e.code).1 + 1 ∧ t.bb.suppressed = s.bb.suppressed) ∧
    (∀ e rest, up → s.bb.queue = e :: rest → s.bb.owed = 0 → 16 ≤ (rateOf s e.code).1 → e.severity ≠ 4 →
      ∃ t, exec .blotterWrite s = .next t ∧ t.bb.queue = rest ∧ t.bb.next = s.bb.next ∧ t.bb.slots = s.bb.slots ∧
        t.bb.suppressed = satInc s.bb.suppressed ∧ (rateOf t e.code).2 = (rateOf s e.code).2 + 1) ∧
    (∀ e rest, up → s.bb.queue = e :: rest → 0 < s.bb.owed → ∃ t, exec .blotterWrite s = .next t ∧
      t.bb.queue = e :: rest ∧ t.bb.owed = 0 ∧ t.bb.next = s.bb.next + 1 ∧ t.bb.done = s.bb.next + 1 ∧
      bbSlot t (i % 65536) = bbRecord i {
        code := 0xFF, source := 10, severity := 3, data := [s.bb.owed], time := s.now - s.boot.t0
        boot := s.flash.bootCount } ∧
      (∀ j, j ≠ i % 65536 → bbSlot t j = bbSlot s j) ∧ t.bb.rate = s.bb.rate ∧ t.bb.suppressed = s.bb.suppressed) ∧
    (let excess := s.bb.rate.filter (fun r => decide (0 < r.2.2));
      s.boot.phase ≠ .held → s.bb.queue.length + excess.length ≤ 240 → ∃ t, exec .suppressed s = .next t ∧ t.bb.rate = [] ∧
        t.bb.queue = s.bb.queue ++ excess.map fun r => {
          code := 0xFE, source := 10, severity := 2, data := [r.1, r.2.2], time := s.now - s.boot.t0
          boot := s.flash.bootCount }) ∧
    (∀ (n : Nat) (e : Event), n < 2 ^ 64 → e.boot < 2 ^ 32 → e.code < 2 ^ 16 → e.source < 2 ^ 8 → e.severity < 16 →
      e.time < 2 ^ 64 → let b := leBytes 128 (bbRecord n e).toNat
      leAt b 0 8 = n ∧ leAt b 8 4 = e.boot ∧ leAt b 0xC 4 = e.code * 2 ^ 16 + e.source * 2 ^ 8 + e.severity ∧
      leAt b 0x10 8 = e.time ∧ slice 0x18 96 b = bbData e ∧ leAt b 0x78 4 = 0 ∧ leAt b 0x7C 4 = crc32 (b.take 124))

/-! ## Power -/

/-- O58. Power samples and points (R533 to R542): while the mean power or a sensor is over its limit, one stage is
taken off at most every ten samples, the point first and then the hold; when a hundred samples in a row allow it, one
stage is put back, the hold first; else both stay. A write of PWR_CFG sets point and cap, the actual point following
unless throttling holds it lower, and with a cap above 10 sets CFG_ERR alone. The first samples after boot, and what ends
the quiet time, are the model's choice (log 43). -/
def Obligations.PowerControl : Prop :=
  (∀ (p : PowerReading) (s : State), isUp s = true →
    let u := throttleTime (noteSample p s)
    let excess := overCap u || overTemp (readings p.temps)
    ∃ t, exec (.powerSample p) s = .next t ∧ t.pwr.rate = p.rate ∧ t.pwr.point = s.pwr.point ∧ t.pwr.cap = s.pwr.cap ∧
      t.pwr.samples = u.pwr.samples ∧ t.queues = s.queues ∧ t.cmds = s.cmds ∧
      (excess = true → 9 ≤ s.pwr.sinceLower → s.pwr.actual ≠ 0 → t.pwr.actual = s.pwr.actual - 1 ∧
        t.pwr.hold = s.pwr.hold ∧ t.pwr.sinceLower = 0 ∧ t.pwr.status.getLsbD 0 = true) ∧
      (excess = true → 9 ≤ s.pwr.sinceLower → s.pwr.actual = 0 → s.pwr.hold ≠ 7 → t.pwr.actual = 0 ∧
        t.pwr.hold = s.pwr.hold + 1 ∧ t.pwr.sinceLower = 0 ∧ t.pwr.status.getLsbD 0 = true) ∧
      (excess = true → s.pwr.sinceLower < 9 ∨ (s.pwr.actual = 0 ∧ s.pwr.hold = 7) →
        t.pwr.actual = s.pwr.actual ∧ t.pwr.hold = s.pwr.hold) ∧
      (excess = true → t.pwr.quiet = 0) ∧
      (excess = false → mayRaise (readings p.temps) u = true → 99 ≤ s.pwr.quiet →
        (s.pwr.hold ≠ 0 → t.pwr.hold = s.pwr.hold - 1 ∧ t.pwr.actual = s.pwr.actual) ∧
        (s.pwr.hold = 0 → t.pwr.hold = 0 ∧ t.pwr.actual = s.pwr.actual + 1)) ∧
      (excess = false → mayRaise (readings p.temps) u = true → s.pwr.quiet < 99 → t.pwr.quiet = s.pwr.quiet + 1 ∧
        t.pwr.actual = s.pwr.actual ∧ t.pwr.hold = s.pwr.hold) ∧
      (excess = false → mayRaise (readings p.temps) u = false → t.pwr.quiet = 0 ∧
        t.pwr.actual = s.pwr.actual ∧ t.pwr.hold = s.pwr.hold)) ∧
  (∀ (v : Word) (s : State), isUp s = true →
    (10 < fld v.toNat 15 8 → exec (.pointSet v) s =
      .next { s with pwr := { s.pwr with status := s.pwr.status ||| 64 } }) ∧
    (fld v.toNat 15 8 ≤ 10 → ∃ t, exec (.pointSet v) s = .next t ∧ t.pwr.point.toNat = v.toNat % 8 ∧
      t.pwr.cap.toNat = fld v.toNat 15 8 ∧ t.pwr.idleOff.toNat = fld v.toNat 23 16 ∧ t.pwr.hold = s.pwr.hold ∧
      t.pwr.actual.toNat = (if throttled s = true then min s.pwr.actual.toNat (v.toNat % 8) else v.toNat % 8) ∧
      t.det.point.toNat = v.toNat % 8 ∧ t.det.cap.toNat = fld v.toNat 15 8 ∧ t.cmds = s.cmds ∧ t.mem = s.mem))

/-- O59. Trips, brown-outs and the board's signals (R532, R543, R552, R554): a sensor at its trip temperature and a rail
that is low hold the part in reset, THERMTRIP until RESET_N, a brown-out until every rail that was low is back, when the
part boots with cause 0; each such rail is latched unless VIO does not hold; fuses, flash and the host's memory stay.
HOLDUP and LOW_VOLTAGE follow their pins and flag an assertion; the reference clock's loss and return are noted. When a
rail's latch is lost is the model's choice (log 70). -/
def Obligations.TripsAndSupply : Prop :=
  (∀ (i : Fin 111) (temp : BitVec 16) (vio : Bool) (s : State), s.boot.phase ≠ .held →
    (tripAt i.val * 16 ≤ temp.toInt → ∃ t, exec (.thermtrip i temp vio) s = .next t ∧ t.boot.phase = .held ∧
      t.boot.thermal = true ∧ t.pwr.thermtrip = true ∧ t.pwr.dom = [] ∧ t.cmds = [] ∧ t.mem.carafe = [] ∧ t.fuse = s.fuse ∧
      t.flash = s.flash ∧ t.host.mem = s.host.mem ∧ t.boot.brown = s.boot.brown ∧ (vio = false → t.bb.slots = s.bb.slots)) ∧
    (temp.toInt < tripAt i.val * 16 → exec (.thermtrip i temp vio) s = .next s)) ∧
  (∀ (rail : Fin 8) (vio : Bool) (s : State), ∃ t, exec (.brownout rail vio) s = .next t ∧ t.boot.phase = .held ∧
    (∀ r, r ∈ t.boot.brown ↔ r = rail.val ∨ r ∈ s.boot.brown) ∧ t.boot.thermal = s.boot.thermal ∧
    (vio = true → ∀ r, r ∈ t.boot.latched ↔ r = rail.val ∨ r ∈ s.boot.latched) ∧
    (vio = false → ∀ r, r ∈ t.boot.latched ↔ r ∈ s.boot.latched ∧ r ∉ t.boot.brown) ∧ t.cmds = [] ∧
    t.mem.carafe = [] ∧ t.pwr.dom = [] ∧ t.fuse = s.fuse ∧ t.flash = s.flash ∧ t.bb.slots = s.bb.slots) ∧
  (∀ (rail : Fin 8) (s : State),
    let low := s.boot.brown.filter (· != rail.val)
    (s.boot.brown = [] → exec (.railRestored rail) s = .next s) ∧
    (low ≠ [] ∨ (s.boot.brown ≠ [] ∧ s.boot.thermal = true) → exec (.railRestored rail) s =
      .next { s with boot := { s.boot with brown := low } }) ∧
    (s.boot.brown ≠ [] → low = [] → s.boot.thermal = false → ∃ t, exec (.railRestored rail) s = .next t ∧
      t.boot.phase = .booting ∧ t.boot.cause = 0 ∧ t.boot.brown = [] ∧ t.boot.latched = s.boot.latched ∧ t.fuse = s.fuse ∧
      t.flash = s.flash) ∧
    (s.boot.phase ≠ .held →
      (s.pwr.holdup = false → ∃ t, exec .holdup s = .next t ∧ t.pwr.holdup = true ∧
        t.pwr.status = s.pwr.status ||| 4 ∧ t.boot = s.boot) ∧
      (s.pwr.lowv = false → ∃ t, exec .lowVoltage s = .next t ∧ t.pwr.lowv = true ∧
        t.pwr.status = s.pwr.status ||| 8 ∧ t.boot = s.boot) ∧
      (s.pwr.holdup = true → ∃ t, exec .holdupRelease s = .next t ∧ t.pwr = { s.pwr with holdup := false }) ∧
      (s.pwr.lowv = true → ∃ t, exec .lowVoltageRelease s = .next t ∧ t.pwr = { s.pwr with lowv := false }) ∧
      (s.pwr.refclkOk = true → s.boot.phase ≠ .booting → ∃ t, exec .refclkLost s = .next t ∧ t.pwr.refclkOk = false ∧
        t.pwr.status = s.pwr.status ||| 16 ∧ t.det.refclk = 0) ∧
      (s.pwr.refclkOk = false → s.boot.phase ≠ .booting → ∃ t, exec .refclkRestored s = .next t ∧
        t.pwr = { s.pwr with refclkOk := true } ∧ t.det.refclk = 10000)) ∧
    (s.boot.phase = .held ∨ s.boot.phase = .booting →
      exec .refclkLost s = .next { s with pwr := { s.pwr with refclkOk := false } } ∧
      exec .refclkRestored s = .next { s with pwr := { s.pwr with refclkOk := true } }))

/-- O60. Power domains (R545 to R550): a waking domain comes on with its memory zero, an engine's only with its
cluster on, and is counted; one that fails is FAILED, flagged and counted, a cluster with its engines off and its logical
engines served by none; a domain goes off when its request, its engines or its port allow it, and then wakes if a wake
was ordered meanwhile; an idle engine that no READY command needs is asked to switch off. Where a wake is counted, a wake
after an off request, and an engine that is WAKING when its cluster fails are the model's choice (log 44). -/
def Obligations.PowerDomains : Prop :=
  ∀ (d : Fin 96) (s : State), isUp s = true →
    (domState s d.val = .waking → (d.val < 72 → domState s (72 + d.val / 9) = .on) → ∃ t,
      exec (.domainWake d) s = .next t ∧ domState t d.val = .on ∧ t.pwr.wakes = satInc s.pwr.wakes ∧
      (∀ e, e ≠ d.val → domState t e = domState s e) ∧ t.mem.carafe = s.mem.carafe ∧ t.cmds = s.cmds ∧
      (d.val < 72 → ∀ q ∈ t.mem.spad, q.1 / slotBytes ≠ d.val) ∧
      (72 ≤ d.val → d.val < 80 → ∀ q ∈ t.mem.cluster, q.1 / slotBytes ≠ d.val - 72) ∧
      (86 ≤ d.val → d.val < 94 → (lnk t (d.val - 86)).st = .detect)) ∧
    (domState s d.val ≠ .waking → exec (.domainWake d) s = .next s ∧ exec (.domainFault d) s = .next s) ∧
    (d.val < 72 → domState s (72 + d.val / 9) ≠ .on → exec (.domainWake d) s = .next s) ∧
    (domState s d.val = .waking → ∃ t, exec (.domainFault d) s = .next t ∧
      t.pwr.domFaults = satInc s.pwr.domFaults ∧ t.pwr.status.getLsbD 5 = true ∧
      (72 ≤ d.val → domState t d.val = .failed ∧ t.cmds = s.cmds) ∧
      (72 ≤ d.val → d.val < 80 → ∀ i, i < 8 →
        physOf t (8 * (d.val - 72) + i) = none ∧
        (domState s (9 * (d.val - 72) + i) ≠ .failed → domState t (9 * (d.val - 72) + i) = .off))) ∧
    (domState s d.val = .on →
      (d.val < 72 → d.val ∈ s.pwr.offReq → ∃ t, exec (.domainOff d) s = .next t ∧
        domState t d.val = (if d.val ∈ s.pwr.wakeAfter then .waking else .off) ∧ d.val ∉ t.pwr.wakeAfter ∧
        d.val ∉ t.pwr.offReq ∧ (∀ q ∈ t.mem.spad, q.1 / slotBytes ≠ d.val)) ∧
      (d.val < 72 → d.val ∉ s.pwr.offReq → exec (.domainOff d) s = .next s) ∧
      (72 ≤ d.val → d.val < 80 →
        (∀ i, i < 9 → domState s (9 * (d.val - 72) + i) = .off ∨ domState s (9 * (d.val - 72) + i) = .failed) →
        ∃ t, exec (.domainOff d) s = .next t ∧ domState t d.val = (if d.val ∈ s.pwr.wakeAfter then .waking else .off)) ∧
      (86 ≤ d.val → s.flash.portsOn.getLsbD (d.val - 86) = false → d.val ∉ s.pwr.wakeAfter → ∃ t,
        exec (.domainOff d) s = .next t ∧ domState t d.val = .off ∧ (d.val < 94 → (lnk t (d.val - 86)).st = .disabled ∧
          (lnk t (d.val - 86)).sameInst = false ∧ (lnk t (d.val - 86)).encrypted = false)) ∧
      (80 ≤ d.val → d.val < 86 ∨ s.flash.portsOn.getLsbD (d.val - 86) = true → exec (.domainOff d) s = .next s)) ∧
    (∀ (n : Fin 64) (e : Nat), physOf s n.val = some e →
      (s.pwr.idleOff ≠ 0 → (eng s n.val).cmd = none → readyNeeds s n.val = false → domState s e = .on →
        e ∉ s.pwr.offReq → exec (.idleOff n) s =
          .next { s with pwr := { s.pwr with offReq := s.pwr.offReq ++ [e] } }) ∧
      (s.pwr.idleOff = 0 ∨ (eng s n.val).cmd ≠ none ∨ readyNeeds s n.val = true ∨ domState s e ≠ .on ∨
        e ∈ s.pwr.offReq → exec (.idleOff n) s = .next s))
end

