-- ==== Sys2Proof/Laws/Tab.lean ====
section
/-! SUPPORT. The laws of tables: what a read sees after a write, and that every operation keeps the canonical form. -/

namespace Sys2Proof

@[simp] theorem Tab.get_nil {α : Type} (d : α) (i : Nat) : Tab.get d [] i = d := rfl

/-! ## Taking an entry out and putting one in -/

theorem Tab.get_remove_same {α : Type} {d : α} (t : Tab α) (i : Nat) : Tab.get d (Tab.remove t i) i = d := by
  induction t with
  | nil => rfl
  | cons p t ih => by_cases h : i = p.1 <;> simp [Tab.remove, Tab.get, h] <;> simpa [h] using ih

theorem Tab.get_remove_other {α : Type} {d : α} (t : Tab α) {i j : Nat} (hij : j ≠ i) :
    Tab.get d (Tab.remove t i) j = Tab.get d t j := by
  induction t with
  | nil => rfl
  | cons p t ih =>
    by_cases h : i = p.1
    · subst h; simp [Tab.remove, Tab.get, hij, ih]
    · simp [Tab.remove, Tab.get, h, ih]

theorem Tab.get_insert_same {α : Type} {d : α} (t : Tab α) (i : Nat) (v : α) (h : Tab.remove t i = t) :
    Tab.get d (Tab.insert t i v) i = v := by
  induction t with
  | nil => simp [Tab.insert, Tab.get]
  | cons p t ih =>
    have hk : i ≠ p.1 := by
      rintro rfl
      have := congrArg List.length h
      have hl : ∀ u : Tab α, (Tab.remove u p.1).length ≤ u.length := fun u => by
        induction u with
        | nil => exact Nat.le_refl _
        | cons q u ihu => simp only [Tab.remove]; split <;> simp only [List.length_cons] <;> omega
      simp only [Tab.remove, if_true, List.length_cons] at this
      have := hl t
      omega
    by_cases hlt : i < p.1
    · simp [Tab.insert, hlt, Tab.get]
    · simp only [Tab.remove, if_neg hk, List.cons.injEq, true_and] at h
      simp [Tab.insert, hlt, Tab.get, hk, ih h]

theorem Tab.get_insert_other {α : Type} {d : α} (t : Tab α) {i j : Nat} (v : α) (hij : j ≠ i) :
    Tab.get d (Tab.insert t i v) j = Tab.get d t j := by
  induction t with
  | nil => simp [Tab.insert, Tab.get, hij]
  | cons p t ih => by_cases h : i < p.1 <;> simp [Tab.insert, Tab.get, h, hij, ih]

/-- Removing a key a second time removes nothing. -/
theorem Tab.remove_remove {α : Type} (t : Tab α) (i : Nat) : Tab.remove (Tab.remove t i) i = Tab.remove t i := by
  induction t with
  | nil => rfl
  | cons p t ih => by_cases h : i = p.1 <;> simp [Tab.remove, h] <;> simpa [h] using ih

theorem Tab.remove_insert {α : Type} (t : Tab α) (i : Nat) (v : α) : Tab.remove (Tab.insert t i v) i = Tab.remove t i := by
  induction t with
  | nil => simp [Tab.insert, Tab.remove]
  | cons p t ih => by_cases h : i < p.1 <;> simp [Tab.insert, Tab.remove, h, ih]

variable {α : Type} [DecidableEq α] {d : α}

@[simp] theorem Tab.wf_nil (d : α) : Tab.wf d [] = true := rfl

/-! ## Bounds on keys -/

theorem Tab.above_cons {b k : Nat} {v : α} {t : Tab α} :
    Tab.above d b ((k, v) :: t) = true ↔ b ≤ k ∧ v ≠ d ∧ Tab.above d (k + 1) t = true := by
  simp [Tab.above, and_assoc]

theorem Tab.above_mono {b c : Nat} {t : Tab α} (h : Tab.above d b t = true) (hc : c ≤ b) : Tab.above d c t = true := by
  cases t with
  | nil => rfl
  | cons p t =>
    obtain ⟨k, v⟩ := p
    rw [Tab.above_cons] at h ⊢
    exact ⟨Nat.le_trans hc h.1, h.2⟩

/-- A key below every listed one reads as the default. -/
theorem Tab.get_below {b i : Nat} {t : Tab α} (h : Tab.above d b t = true) (hi : i < b) : Tab.get d t i = d := by
  induction t generalizing b with
  | nil => rfl
  | cons p t ih =>
    obtain ⟨k, v⟩ := p
    rw [Tab.above_cons] at h
    have hk : i ≠ k := by omega
    simp only [Tab.get, if_neg hk]
    exact ih h.2.2 (by omega)

/-! ## Reading after a write -/

/-- A write is seen at its own key. -/
@[simp] theorem Tab.get_put_same (t : Tab α) (i : Nat) (v : α) : Tab.get d (Tab.put d t i v) i = v := by
  unfold Tab.put
  split
  · rename_i h; rw [Tab.get_remove_same, h]
  · exact Tab.get_insert_same _ _ _ (Tab.remove_remove t i)

/-- A write leaves every other key alone. -/
theorem Tab.get_put_other (t : Tab α) {i j : Nat} (v : α) (hij : j ≠ i) :
    Tab.get d (Tab.put d t i v) j = Tab.get d t j := by
  unfold Tab.put
  split
  · exact Tab.get_remove_other t hij
  · rw [Tab.get_insert_other _ _ hij, Tab.get_remove_other t hij]

/-- Reading after a write, at any key. -/
theorem Tab.get_put (t : Tab α) (i j : Nat) (v : α) :
    Tab.get d (Tab.put d t i v) j = if j = i then v else Tab.get d t j := by
  by_cases hij : j = i
  · subst hij; simp
  · rw [if_neg hij, Tab.get_put_other t v hij]

/-- A change at one key is seen there. -/
theorem Tab.get_upd (t : Tab α) (i j : Nat) (f : α → α) :
    Tab.get d (Tab.upd d t i f) j = if j = i then f (Tab.get d t i) else Tab.get d t j :=
  Tab.get_put t i j _

/-- Of two writes at one key the second stays. -/
@[simp] theorem Tab.put_put (t : Tab α) (i : Nat) (v w : α) : Tab.put d (Tab.put d t i v) i w = Tab.put d t i w := by
  have h : Tab.remove (Tab.put d t i v) i = Tab.remove t i := by
    unfold Tab.put
    split
    · exact Tab.remove_remove t i
    · rw [Tab.remove_insert, Tab.remove_remove]
  simp only [Tab.put, h] at *

/-! ## The canonical form is kept -/

theorem Tab.above_remove {b : Nat} {t : Tab α} (h : Tab.above d b t = true) (i : Nat) :
    Tab.above d b (Tab.remove t i) = true := by
  induction t generalizing b with
  | nil => rfl
  | cons p t ih =>
    rw [Tab.above_cons] at h
    simp only [Tab.remove]
    split
    · exact Tab.above_mono (ih h.2.2) (by omega)
    · exact Tab.above_cons.2 ⟨h.1, h.2.1, ih h.2.2⟩

theorem Tab.above_insert {b i : Nat} {t : Tab α} {v : α} (h : Tab.above d b t = true) (hi : b ≤ i) (hv : v ≠ d)
    (hr : Tab.remove t i = t) : Tab.above d b (Tab.insert t i v) = true := by
  induction t generalizing b with
  | nil => exact Tab.above_cons.2 ⟨hi, hv, rfl⟩
  | cons p t ih =>
    rw [Tab.above_cons] at h
    have hk : i ≠ p.1 := by
      intro hk
      have hg := Tab.get_remove_same (d := d) ((p.1, p.2) :: t) i
      rw [hr, hk] at hg
      exact h.2.1 (by simpa [Tab.get] using hg)
    simp only [Tab.insert]
    split
    · exact Tab.above_cons.2 ⟨hi, hv, Tab.above_cons.2 ⟨by omega, h.2.1, h.2.2⟩⟩
    · simp only [Tab.remove, if_neg hk, List.cons.injEq, true_and] at hr
      exact Tab.above_cons.2 ⟨h.1, h.2.1, ih h.2.2 (by omega) hr⟩

theorem Tab.above_put {b i : Nat} {t : Tab α} (h : Tab.above d b t = true) (hi : b ≤ i) (v : α) :
    Tab.above d b (Tab.put d t i v) = true := by
  unfold Tab.put
  split
  · exact Tab.above_remove h i
  · rename_i hv; exact Tab.above_insert (Tab.above_remove h i) hi hv (Tab.remove_remove t i)

/-- A write keeps the canonical form. -/
theorem Tab.wf_put {t : Tab α} (h : Tab.wf d t = true) (i : Nat) (v : α) : Tab.wf d (Tab.put d t i v) = true :=
  Tab.above_put h (Nat.zero_le i) v

theorem Tab.wf_upd {t : Tab α} (h : Tab.wf d t = true) (i : Nat) (f : α → α) : Tab.wf d (Tab.upd d t i f) = true :=
  Tab.wf_put h i _

/-- So does a write of consecutive values. -/
theorem Tab.wf_putList {t : Tab α} (h : Tab.wf d t = true) (i : Nat) (vs : List α) :
    Tab.wf d (Tab.putList d t i vs) = true := by
  induction vs generalizing t i with
  | nil => exact h
  | cons v vs ih => exact ih (Tab.wf_put h i v) (i + 1)

theorem Tab.above_filter {b : Nat} {t : Tab α} (h : Tab.above d b t = true) (p : Nat × α → Bool) :
    Tab.above d b (t.filter p) = true := by
  induction t generalizing b with
  | nil => rfl
  | cons q t ih =>
    obtain ⟨k, w⟩ := q
    rw [Tab.above_cons] at h
    have ht := ih h.2.2
    by_cases hp : p (k, w) = true
    · rw [List.filter_cons_of_pos hp, Tab.above_cons]; exact ⟨h.1, h.2.1, ht⟩
    · rw [List.filter_cons_of_neg hp]; exact Tab.above_mono ht (by omega)

/-- Dropping entries keeps the canonical form. -/
theorem Tab.wf_filter {t : Tab α} (h : Tab.wf d t = true) (p : Nat × α → Bool) : Tab.wf d (t.filter p) = true :=
  Tab.above_filter h p

/-! ## Consecutive values -/

/-- A key outside the written range keeps its value. -/
theorem Tab.get_putList_other (t : Tab α) (i : Nat) (vs : List α) {j : Nat} (h : j < i ∨ i + vs.length ≤ j) :
    Tab.get d (Tab.putList d t i vs) j = Tab.get d t j := by
  induction vs generalizing t i with
  | nil => rfl
  | cons v vs ih =>
    simp only [List.length_cons] at h
    rw [Tab.putList, ih _ _ (by omega), Tab.get_put_other _ _ (by omega)]

/-- A key inside the written range holds its value. -/
theorem Tab.get_putList (t : Tab α) (i : Nat) (vs : List α) {k : Nat} (hk : k < vs.length) :
    Tab.get d (Tab.putList d t i vs) (i + k) = vs[k] := by
  induction vs generalizing t i k with
  | nil => simp at hk
  | cons v vs ih =>
    rw [Tab.putList]
    cases k with
    | zero => rw [Tab.get_putList_other _ _ _ (by omega)]; simp
    | succ k =>
      have := ih (Tab.put d t i v) (i + 1) (k := k) (by simpa using hk)
      rw [show i + (k + 1) = i + 1 + k by omega, this]; rfl

/-- Two canonical tables that read alike are the same data. -/
theorem Tab.ext_above {b : Nat} {t u : Tab α} (ht : Tab.above d b t = true) (hu : Tab.above d b u = true)
    (h : ∀ i, Tab.get d t i = Tab.get d u i) : t = u := by
  induction t generalizing b u with
  | nil =>
    cases u with
    | nil => rfl
    | cons q u =>
      obtain ⟨k, w⟩ := q
      rw [Tab.above_cons] at hu
      have := h k
      simp [Tab.get] at this
      exact absurd this.symm hu.2.1
  | cons p t ih =>
    obtain ⟨j, v⟩ := p
    rw [Tab.above_cons] at ht
    cases u with
    | nil =>
      have := h j
      simp [Tab.get] at this
      exact absurd this ht.2.1
    | cons q u =>
      obtain ⟨k, w⟩ := q
      have hu' := hu
      rw [Tab.above_cons] at hu
      have hjk : j = k := by
        rcases Nat.lt_trichotomy j k with hlt | heq | hgt
        · have := h j
          rw [Tab.get, if_pos rfl, Tab.get_below (Tab.above_cons.2 ⟨Nat.le_refl k, hu.2⟩) hlt] at this
          exact absurd this ht.2.1
        · exact heq
        · have := h k
          rw [Tab.get_below (Tab.above_cons.2 ⟨Nat.le_refl j, ht.2⟩) hgt, Tab.get, if_pos rfl] at this
          exact absurd this.symm hu.2.1
      subst hjk
      have hv : v = w := by simpa [Tab.get] using h j
      subst hv
      have : t = u := ih ht.2.2 hu.2.2 fun i => by
        by_cases hi : i = j
        · subst hi; rw [Tab.get_below ht.2.2 (by omega), Tab.get_below hu.2.2 (by omega)]
        · have := h i; simpa [Tab.get, hi] using this
      rw [this]

/-- Equal memories are equal data. -/
theorem Tab.ext {t u : Tab α} (ht : Tab.wf d t = true) (hu : Tab.wf d u = true)
    (h : ∀ i, Tab.get d t i = Tab.get d u i) : t = u :=
  Tab.ext_above ht hu h

end Sys2Proof
end

