-- ==== Sys2Proof/Laws/Access.lean ====
section
/-! SUPPORT. What each read sees after each write of the tables of State: the written record at its own number, what was
there at another. -/

namespace Sys2Proof.Machine

theorem eng_setEng (n m : Nat) (x : Engine) (s : State) : eng (setEng n x s) m = if m = n then x else eng s m :=
  Tab.get_put _ _ _ _

@[simp] theorem eng_setEng_same (n : Nat) (x : Engine) (s : State) : eng (setEng n x s) n = x := Tab.get_put_same _ _ _

theorem eng_setEng_other {n m : Nat} (x : Engine) (s : State) (h : m ≠ n) : eng (setEng n x s) m = eng s m :=
  Tab.get_put_other _ _ h

theorem que_setQue (q p : Nat) (x : Queue) (s : State) : que (setQue q x s) p = if p = q then x else que s p :=
  Tab.get_put _ _ _ _

@[simp] theorem que_setQue_same (q : Nat) (x : Queue) (s : State) : que (setQue q x s) q = x := Tab.get_put_same _ _ _

theorem fnc_setFnc (f g : Nat) (x : Fence) (s : State) : fnc (setFnc f x s) g = if g = f then x else fnc s g :=
  Tab.get_put _ _ _ _

@[simp] theorem fnc_setFnc_same (f : Nat) (x : Fence) (s : State) : fnc (setFnc f x s) f = x := Tab.get_put_same _ _ _

theorem mdl_updMdl (i j : Nat) (f : Model → Model) (s : State) :
    mdl (updMdl i f s) j = if j = i then f (mdl s i) else mdl s j :=
  Tab.get_upd _ _ _ _

theorem src_setSrc (n m : Nat) (x : Src) (s : State) : src (setSrc n x s) m = if m = n then x else src s m :=
  Tab.get_put _ _ _ _

@[simp] theorem src_setSrc_same (n : Nat) (x : Src) (s : State) : src (setSrc n x s) n = x := Tab.get_put_same _ _ _

theorem tgt_setTgt (n m : Nat) (x : Tgt) (s : State) : tgt (setTgt n x s) m = if m = n then x else tgt s m :=
  Tab.get_put _ _ _ _

@[simp] theorem tgt_setTgt_same (n : Nat) (x : Tgt) (s : State) : tgt (setTgt n x s) n = x := Tab.get_put_same _ _ _

theorem strm_setStrm (i j : Nat) (x : Stream) (s : State) : strm (setStrm i x s) j = if j = i then x else strm s j :=
  Tab.get_put _ _ _ _

@[simp] theorem strm_setStrm_same (i : Nat) (x : Stream) (s : State) : strm (setStrm i x s) i = x :=
  Tab.get_put_same _ _ _

theorem bnd_setBnd (b c : Nat) (x : Binding) (s : State) : bnd (setBnd b x s) c = if c = b then x else bnd s c :=
  Tab.get_put _ _ _ _

@[simp] theorem bnd_setBnd_same (b : Nat) (x : Binding) (s : State) : bnd (setBnd b x s) b = x := Tab.get_put_same _ _ _

theorem prt_updPrt (p q : Nat) (f : PortSt → PortSt) (s : State) :
    prt (updPrt p f s) q = if q = p then f (prt s p) else prt s q :=
  Tab.get_upd _ _ _ _

theorem domState_setDom (d e : Nat) (x : DomState) (s : State) :
    domState (setDom d x s) e = if e = d then x else domState s e :=
  Tab.get_put _ _ _ _

@[simp] theorem domState_setDom_same (d : Nat) (x : DomState) (s : State) : domState (setDom d x s) d = x :=
  Tab.get_put_same _ _ _

theorem extState_setExt (e f : Nat) (x : ExtState) (s : State) :
    extState (setExt e x s) f = if f = e then x else extState s f :=
  Tab.get_put _ _ _ _

@[simp] theorem extState_setExt_same (e : Nat) (x : ExtState) (s : State) : extState (setExt e x s) e = x :=
  Tab.get_put_same _ _ _

theorem grp_setGrp (g h : Nat) (x : Group) (e : Engine) : grp (setGrp g x e) h = if h = g then x else grp e h :=
  Tab.get_put _ _ _ _

@[simp] theorem grp_setGrp_same (g : Nat) (x : Group) (e : Engine) : grp (setGrp g x e) g = x := Tab.get_put_same _ _ _

end Sys2Proof.Machine
end

