-- ==== Sys2Proof/Laws/Keeps.lean ====
section
/-! SUPPORT. What nearly every operation of the machine leaves alone: the fuses, the phase, the queue of commands, the
time, and the canonical form of the memories. One lemma per operation says so (in the files Laws/Keeps*.lean); the
exceptions are the resets, BOOT, a confirmed trial and DECOMMISSION. -/

namespace Sys2Proof.Machine

theorem Memory.wf_iff (s : State) : Memory.wf s = true ↔
    Tab.wf 0 s.mem.carafe = true ∧ Tab.wf 0 s.mem.cluster = true ∧ Tab.wf 0 s.mem.spad = true ∧
      Tab.wf 0 s.host.mem = true := by
  simp [Memory.wf, and_assoc]

/-- What a boot fixes until the next reset but for a confirmed trial. -/
abbrev bootCore (b : BootSt) : Phase × BitVec 4 × Nat × Bool × Nat := (b.phase, b.cause, b.t0, b.trial, b.slot)

/-- The second state keeps what the first had: fuses, the boot's outcome, queue and time the same, memories still
canonical. -/
structure Keeps (a s : State) : Prop where
  fuse : s.fuse = a.fuse
  boot : bootCore s.boot = bootCore a.boot
  pending : s.pending = a.pending
  now : s.now = a.now
  wf : Memory.wf a = true → Memory.wf s = true

theorem Keeps.phase {a s : State} (h : Keeps a s) : s.boot.phase = a.boot.phase := congrArg (·.1) h.boot

theorem Keeps.cause {a s : State} (h : Keeps a s) : s.boot.cause = a.boot.cause := congrArg (·.2.1) h.boot

theorem Keeps.t0 {a s : State} (h : Keeps a s) : s.boot.t0 = a.boot.t0 := congrArg (·.2.2.1) h.boot

theorem Keeps.trial {a s : State} (h : Keeps a s) : s.boot.trial = a.boot.trial := congrArg (·.2.2.2.1) h.boot

theorem Keeps.slot {a s : State} (h : Keeps a s) : s.boot.slot = a.boot.slot := congrArg (·.2.2.2.2) h.boot

theorem Keeps.refl (s : State) : Keeps s s := ⟨rfl, rfl, rfl, rfl, id⟩

theorem Keeps.trans {a b c : State} (h : Keeps a b) (k : Keeps b c) : Keeps a c :=
  ⟨k.fuse.trans h.fuse, k.boot.trans h.boot, k.pending.trans h.pending, k.now.trans h.now, k.wf ∘ h.wf⟩

theorem Keeps.trans' {a b c : State} (k : Keeps b c) (h : Keeps a b) : Keeps a c := h.trans k

theorem Keeps.ite {a x y : State} {c : Prop} [Decidable c] (h : Keeps a x) (k : Keeps a y) :
    Keeps a (if c then x else y) := by
  split
  · exact h
  · exact k

theorem Keeps.ite2 {α : Type} {a : State} {x y : α × State} {c : Prop} [Decidable c] (h : Keeps a x.2)
    (k : Keeps a y.2) : Keeps a (if c then x else y).2 := by
  split
  · exact h
  · exact k

/-- An update of anything else. -/
theorem Keeps.upd {a s : State} (h : Keeps a s) {free sent fe queues cmds fences bindings models eng emap arr anl det icu
    rng ing kw svc bb pwr} {pending : List Instr} {now : Nat} {fuse : Fuses} {flash : Flash} {boot : BootSt} {mem : MemSt}
    {host : HostSt} (h1 : fuse = s.fuse) (h2 : bootCore boot = bootCore s.boot)
    (h3 : pending = s.pending) (h4 : now = s.now) (h5 : mem.carafe = s.mem.carafe)
    (h6 : mem.cluster = s.mem.cluster) (h7 : mem.spad = s.mem.spad) (h8 : host.mem = s.host.mem) :
    Keeps a ⟨pending, free, now, sent, fuse, flash, boot, fe, queues, cmds, fences, bindings, mem,
      host, models, eng, emap, arr,
      anl, det, icu, rng, ing, kw, svc, bb, pwr⟩ :=
  ⟨h1.trans h.fuse, h2.trans h.boot, h3.trans h.pending, h4.trans h.now, fun w => by
    have := (Memory.wf_iff s).1 (h.wf w)
    rw [Memory.wf_iff]; simp only [h5, h6, h7, h8]; exact this⟩

/-- An update that rewrites memories, canonically. -/
theorem Keeps.updMem {a s t : State} (h : Keeps a s) (h1 : t.fuse = s.fuse) (h2 : bootCore t.boot = bootCore s.boot)
    (h3 : t.pending = s.pending) (h4 : t.now = s.now)
    (h5 : Tab.wf 0 s.mem.carafe = true → Tab.wf 0 t.mem.carafe = true)
    (h6 : Tab.wf 0 s.mem.cluster = true → Tab.wf 0 t.mem.cluster = true)
    (h7 : Tab.wf 0 s.mem.spad = true → Tab.wf 0 t.mem.spad = true)
    (h8 : Tab.wf 0 s.host.mem = true → Tab.wf 0 t.host.mem = true) : Keeps a t :=
  ⟨h1.trans h.fuse, h2.trans h.boot, h3.trans h.pending, h4.trans h.now, fun w => by
    have k := (Memory.wf_iff s).1 (h.wf w)
    rw [Memory.wf_iff]
    exact ⟨h5 k.1, h6 k.2.1, h7 k.2.2.1, h8 k.2.2.2⟩⟩

/-- The state of a pair that a function answered. -/
theorem Keeps.pair {α : Type} {a s : State} {p : α × State} {x : α} (e : p = (x, s)) (h : Keeps a p.2) : Keeps a s := by
  subst e; exact h

theorem Keeps.pair2 {α β : Type} {a s : State} {p : α × β × State} {x : α} {y : β} (e : p = (x, y, s))
    (h : Keeps a p.2.2) : Keeps a s := by
  subst e; exact h

theorem Keeps.foldl {α : Type} {f : State → α → State} (h : ∀ st x, Keeps st (f st x)) (l : List α) (s : State) :
    Keeps s (l.foldl f s) := by
  induction l generalizing s with
  | nil => exact Keeps.refl s
  | cons x l ih => exact (h s x).trans (ih (f s x))

end Sys2Proof.Machine
end

