-- ==== Sys2Proof/Laws/KeepsMem.lean ====
section
/-! SUPPORT. The shared operations and the memories keep what Laws/Keeps.lean lists. -/

namespace Sys2Proof.Machine

/-! ## Ops -/

theorem freshBelow_keeps (n : Nat) (s : State) : Keeps s (freshBelow n s).2 := by
  unfold freshBelow
  repeat'
    first
      | with_reducible exact Keeps.refl _
      | with_reducible refine Keeps.pair ‹_› ?_
      | with_reducible apply Keeps.ite
      | with_reducible apply Keeps.ite2
      | split
      | dsimp only
      | with_reducible refine Keeps.upd ?_ rfl rfl rfl rfl rfl rfl rfl rfl

theorem emit_keeps (x : Sent) (s : State) : Keeps s (emit x s) :=
  Keeps.upd (Keeps.refl s) rfl rfl rfl rfl rfl rfl rfl rfl

theorem feFlag_keeps (n : Nat) (s : State) : Keeps s (feFlag n s) :=
  Keeps.upd (Keeps.refl s) rfl rfl rfl rfl rfl rfl rfl rfl

theorem anlFlag_keeps (n : Nat) (s : State) : Keeps s (anlFlag n s) :=
  Keeps.upd (Keeps.refl s) rfl rfl rfl rfl rfl rfl rfl rfl

theorem arrFlag_keeps (n : Nat) (s : State) : Keeps s (arrFlag n s) :=
  Keeps.upd (Keeps.refl s) rfl rfl rfl rfl rfl rfl rfl rfl

theorem memFlag_keeps (n : Nat) (s : State) : Keeps s (memFlag n s) :=
  Keeps.upd (Keeps.refl s) rfl rfl rfl rfl rfl rfl rfl rfl

theorem detFlag_keeps (n : Nat) (s : State) : Keeps s (detFlag n s) :=
  Keeps.upd (Keeps.refl s) rfl rfl rfl rfl rfl rfl rfl rfl

theorem rngFlag_keeps (n : Nat) (s : State) : Keeps s (rngFlag n s) :=
  Keeps.upd (Keeps.refl s) rfl rfl rfl rfl rfl rfl rfl rfl

theorem ingFlag_keeps (n : Nat) (s : State) : Keeps s (ingFlag n s) :=
  Keeps.upd (Keeps.refl s) rfl rfl rfl rfl rfl rfl rfl rfl

theorem kwFlag_keeps (n : Nat) (s : State) : Keeps s (kwFlag n s) :=
  Keeps.upd (Keeps.refl s) rfl rfl rfl rfl rfl rfl rfl rfl

theorem svcFlag_keeps (n : Nat) (s : State) : Keeps s (svcFlag n s) :=
  Keeps.upd (Keeps.refl s) rfl rfl rfl rfl rfl rfl rfl rfl

theorem fwFlag_keeps (n : Nat) (s : State) : Keeps s (fwFlag n s) :=
  Keeps.upd (Keeps.refl s) rfl rfl rfl rfl rfl rfl rfl rfl

theorem bbFlag_keeps (n : Nat) (s : State) : Keeps s (bbFlag n s) :=
  Keeps.upd (Keeps.refl s) rfl rfl rfl rfl rfl rfl rfl rfl

theorem pwrFlag_keeps (n : Nat) (s : State) : Keeps s (pwrFlag n s) :=
  Keeps.upd (Keeps.refl s) rfl rfl rfl rfl rfl rfl rfl rfl

theorem icuFlag_keeps (n : Nat) (s : State) : Keeps s (icuFlag n s) :=
  Keeps.upd (Keeps.refl s) rfl rfl rfl rfl rfl rfl rfl rfl

theorem logSev_keeps (sev : Nat) (code : Nat) (source : Nat) (data : List Nat) (s : State) :
    Keeps s (logSev sev code source data s) := by
  unfold logSev
  repeat'
    first
      | with_reducible exact Keeps.refl _
      | with_reducible apply Keeps.trans' (bbFlag_keeps ..)
      | extract_lets
      | with_reducible apply Keeps.ite
      | split
      | with_reducible refine Keeps.upd ?_ rfl rfl rfl rfl rfl rfl rfl rfl

theorem logEvent_keeps (code : Nat) (source : Nat) (data : List Nat) (s : State) : Keeps s (logEvent code source data s) :=
  logSev_keeps ..

theorem icuSend_keeps (src : Nat) (s : State) : Keeps s (icuSend src s) :=
  Keeps.upd (Keeps.refl s) rfl rfl rfl rfl rfl rfl rfl rfl

theorem sendMsix_keeps (v : Nat) (s : State) : Keeps s (sendMsix v s) := by
  unfold sendMsix
  repeat'
    first
      | with_reducible exact Keeps.refl _
      | with_reducible apply Keeps.trans' (emit_keeps ..)
      | with_reducible apply Keeps.ite
      | split
      | with_reducible refine Keeps.upd ?_ rfl rfl rfl rfl rfl rfl rfl rfl

theorem msixRelease_keeps (s : State) : Keeps s (msixRelease s) := by
  unfold msixRelease
  repeat'
    first
      | with_reducible exact Keeps.refl _
      | with_reducible apply Keeps.trans' (emit_keeps ..)
      | with_reducible refine Keeps.trans' (Keeps.foldl (fun _ _ => ?_) ..) ?_
      | with_reducible apply Keeps.ite
      | split
      | with_reducible refine Keeps.upd ?_ rfl rfl rfl rfl rfl rfl rfl rfl

theorem feDupDoorbell_keeps (s : State) : Keeps s (feDupDoorbell s) := by
  unfold feDupDoorbell
  repeat'
    first
      | with_reducible exact Keeps.refl _
      | with_reducible apply Keeps.trans' (feFlag_keeps ..)
      | with_reducible refine Keeps.upd ?_ rfl rfl rfl rfl rfl rfl rfl rfl

theorem feDupCmd_keeps (s : State) : Keeps s (feDupCmd s) := by
  unfold feDupCmd
  repeat'
    first
      | with_reducible exact Keeps.refl _
      | with_reducible apply Keeps.trans' (feFlag_keeps ..)
      | with_reducible refine Keeps.upd ?_ rfl rfl rfl rfl rfl rfl rfl rfl

theorem feDbIgnored_keeps (s : State) : Keeps s (feDbIgnored s) :=
  Keeps.upd (Keeps.refl s) rfl rfl rfl rfl rfl rfl rfl rfl

theorem feBadAccess_keeps (s : State) : Keeps s (feBadAccess s) := by
  unfold feBadAccess
  repeat'
    first
      | with_reducible exact Keeps.refl _
      | with_reducible apply Keeps.trans' (feFlag_keeps ..)
      | with_reducible refine Keeps.upd ?_ rfl rfl rfl rfl rfl rfl rfl rfl

/-! ## Mem -/

theorem transFault_keeps (ctx : Nat) (kind : Nat) (a : Nat) (write : Bool) (s : State) :
    Keeps s (transFault ctx kind a write s) := by
  unfold transFault
  repeat'
    first
      | with_reducible exact Keeps.refl _
      | with_reducible apply Keeps.trans' (memFlag_keeps ..)
      | extract_lets
      | with_reducible apply Keeps.ite
      | split
      | with_reducible refine Keeps.upd ?_ rfl rfl rfl rfl rfl rfl rfl rfl

theorem setExt_keeps (e : Nat) (x : ExtState) (s : State) : Keeps s (setExt e x s) :=
  Keeps.upd (Keeps.refl s) rfl rfl rfl rfl rfl rfl rfl rfl

theorem zeroCarafe_keeps (pa len : Nat) (s : State) : Keeps s (zeroCarafe pa len s) := by
  unfold zeroCarafe
  split
  · exact Keeps.refl s
  · exact Keeps.updMem (Keeps.refl s) rfl rfl rfl rfl (fun h => Tab.wf_filter h _) id id id

theorem retireExtent_keeps (e : Nat) (s : State) : Keeps s (retireExtent e s) := by
  unfold retireExtent
  repeat'
    first
      | with_reducible exact Keeps.refl _
      | with_reducible apply Keeps.trans' (memFlag_keeps ..)
      | with_reducible apply Keeps.trans' (logEvent_keeps ..)
      | with_reducible apply Keeps.trans' (setExt_keeps ..)
      | with_reducible apply Keeps.trans' (zeroCarafe_keeps ..)
      | extract_lets
      | split
      | with_reducible refine Keeps.upd ?_ rfl rfl rfl rfl rfl rfl rfl rfl

theorem markExtent_keeps (e : Nat) (s : State) : Keeps s (markExtent e s) := by
  unfold markExtent
  repeat'
    first
      | with_reducible exact Keeps.refl _
      | with_reducible apply Keeps.trans' (retireExtent_keeps ..)
      | with_reducible apply Keeps.ite
      | split
      | with_reducible refine Keeps.upd ?_ rfl rfl rfl rfl rfl rfl rfl rfl

theorem markAt_keeps (pa : Nat) (s : State) : Keeps s (markAt pa s) := by
  unfold markAt
  repeat'
    first
      | with_reducible exact Keeps.refl _
      | with_reducible apply Keeps.trans' (markExtent_keeps ..)
      | split

theorem extentFreed_keeps (e : Nat) (s : State) : Keeps s (extentFreed e s) := by
  unfold extentFreed
  repeat'
    first
      | with_reducible exact Keeps.refl _
      | with_reducible apply Keeps.trans' (setExt_keeps ..)
      | with_reducible apply Keeps.trans' (zeroCarafe_keeps ..)
      | with_reducible apply Keeps.trans' (retireExtent_keeps ..)
      | extract_lets
      | with_reducible apply Keeps.ite

theorem releaseExtent_keeps (s : State) (e : Nat) : Keeps s (releaseExtent s e) :=
  setExt_keeps ..

theorem carafeErr_keeps (kind : Nat) (line : Nat) (symbols : Nat) (s : State) : Keeps s (carafeErr kind line symbols s) := by
  unfold carafeErr
  repeat'
    first
      | with_reducible exact Keeps.refl _
      | with_reducible apply Keeps.trans' (memFlag_keeps ..)
      | extract_lets
      | with_reducible apply Keeps.ite
      | split
      | with_reducible refine Keeps.upd ?_ rfl rfl rfl rfl rfl rfl rfl rfl

theorem uncorrectable_keeps (kind : Nat) (line : Nat) (reader : Nat) (s : State) :
    Keeps s (uncorrectable kind line reader s) := by
  unfold uncorrectable
  repeat'
    first
      | with_reducible exact Keeps.refl _
      | with_reducible apply Keeps.trans' (logEvent_keeps ..)
      | with_reducible apply Keeps.trans' (markAt_keeps ..)
      | with_reducible apply Keeps.trans' (carafeErr_keeps ..)
      | extract_lets
      | with_reducible apply Keeps.ite
      | split
      | with_reducible refine Keeps.upd ?_ rfl rfl rfl rfl rfl rfl rfl rfl

theorem corrected_keeps (line : Nat) (symbols : Nat) (s : State) : Keeps s (corrected line symbols s) := by
  unfold corrected
  repeat'
    first
      | with_reducible exact Keeps.refl _
      | with_reducible apply Keeps.trans' (markAt_keeps ..)
      | with_reducible apply Keeps.trans' (carafeErr_keeps ..)
      | extract_lets
      | with_reducible apply Keeps.ite
      | split
      | with_reducible refine Keeps.upd ?_ rfl rfl rfl rfl rfl rfl rfl rfl

theorem corruptLine_keeps (line : Nat) (s : State) : Keeps s (corruptLine line s) := by
  unfold corruptLine
  extract_lets k
  generalize (List.range 64).map (fun i => Config.freeByte k (line * 64 + i)) = l
  refine Keeps.updMem (Keeps.refl s) rfl rfl rfl rfl (fun h => Tab.wf_putList h _ l) id id id

theorem readLine_keeps (reader line : Nat) (s : State) : Keeps s (readLine reader line s).2 := by
  have hf : Keeps s { s with free := s.free + 1 } := Keeps.upd (Keeps.refl s) rfl rfl rfl rfl rfl rfl rfl rfl
  unfold readLine
  extract_lets kind n
  split
  · exact carafeErr_keeps ..
  split
  · exact uncorrectable_keeps ..
  split
  · exact Keeps.refl s
  split
  · exact corrected_keeps ..
  split
  · exact uncorrectable_keeps ..
  split
  · exact hf.trans (corruptLine_keeps ..)
  · exact hf.trans (uncorrectable_keeps ..)

theorem readLines_keeps (reader : Nat) (x0 : List Nat) (s : State) : Keeps s (readLines reader x0 s).2 := by
  fun_induction readLines reader x0 s <;> repeat'
    first
      | with_reducible exact Keeps.refl _
      | with_reducible apply Keeps.trans' ‹Keeps _ _›
      | with_reducible refine Keeps.pair ‹_› ?_
      | with_reducible apply Keeps.trans' (readLine_keeps ..)

theorem carafeRead_keeps (reader : Nat) (pa : Nat) (len : Nat) (s : State) : Keeps s (carafeRead reader pa len s).2 := by
  unfold carafeRead
  repeat'
    first
      | with_reducible exact Keeps.refl _
      | with_reducible refine Keeps.pair ‹_› ?_
      | with_reducible apply Keeps.trans' (readLines_keeps ..)
      | with_reducible apply Keeps.ite
      | with_reducible apply Keeps.ite2
      | split
      | dsimp only
      | with_reducible refine Keeps.upd ?_ rfl rfl rfl rfl rfl rfl rfl rfl

theorem writeLine_keeps (pa : Nat) (bs : List Byte) (s : State) : Keeps s (writeLine pa bs s) := by
  unfold writeLine
  extract_lets line
  split
  · exact Keeps.refl s
  split
  · exact Keeps.updMem (Keeps.refl s) rfl rfl rfl rfl (fun h => Tab.wf_putList h _ _) id id id
  split
  · rename_i t e
    have h : Keeps s t := Keeps.pair e (readLine_keeps ..)
    exact Keeps.updMem h rfl rfl rfl rfl (fun h => Tab.wf_putList h _ _) id id id
  · rename_i t e
    exact Keeps.pair e (readLine_keeps ..)

theorem carafeWriteN_keeps (x0 : Nat) (x1 : Nat) (x2 : List Byte) (s : State) : Keeps s (carafeWriteN x0 x1 x2 s) := by
  fun_induction carafeWriteN x0 x1 x2 s <;> repeat'
    first
      | with_reducible exact Keeps.refl _
      | with_reducible apply Keeps.trans' ‹Keeps _ _›
      | with_reducible refine Keeps.pair ‹_› ?_
      | with_reducible apply Keeps.trans' (writeLine_keeps ..)

theorem carafeWrite_keeps (pa : Nat) (bs : List Byte) (s : State) : Keeps s (carafeWrite pa bs s) :=
  carafeWriteN_keeps ..

theorem setEng_keeps (n : Nat) (e : Engine) (s : State) : Keeps s (setEng n e s) :=
  Keeps.upd (Keeps.refl s) rfl rfl rfl rfl rfl rfl rfl rfl

theorem updEng_keeps (n : Nat) (f : Engine → Engine) (s : State) : Keeps s (updEng n f s) :=
  setEng_keeps ..

theorem noteCe_keeps (n : Nat) (k : Nat) (s : State) : Keeps s (noteCe n k s) := by
  unfold noteCe
  repeat'
    first
      | with_reducible exact Keeps.refl _
      | with_reducible refine Keeps.pair ‹_› ?_
      | with_reducible refine Keeps.pair2 ‹_› ?_
      | with_reducible apply Keeps.trans' (updEng_keeps ..)
      | extract_lets
      | with_reducible apply Keeps.ite

theorem spadRead_keeps (n : Nat) (off : Nat) (len : Nat) (s : State) : Keeps s (spadRead n off len s).2 := by
  unfold spadRead
  repeat'
    first
      | with_reducible exact Keeps.refl _
      | with_reducible refine Keeps.pair ‹_› ?_
      | with_reducible refine Keeps.pair2 ‹_› ?_
      | with_reducible apply Keeps.trans' (noteCe_keeps ..)
      | with_reducible apply Keeps.trans' (updEng_keeps ..)
      | extract_lets
      | with_reducible apply Keeps.ite
      | with_reducible apply Keeps.ite2
      | split

theorem spadStore_keeps (p off : Nat) (bs : List Byte) (s : State) : Keeps s (spadStore p off bs s) :=
  Keeps.updMem (Keeps.refl s) rfl rfl rfl rfl id id (fun h => Tab.wf_putList h _ _) id

theorem portWrite_keeps (net : Bool) (n : Nat) (off : Nat) (bs : List Byte) (s : State) :
    Keeps s (portWrite net n off bs s) := by
  unfold portWrite
  repeat'
    first
      | with_reducible exact Keeps.refl _
      | with_reducible refine Keeps.pair ‹_› ?_
      | with_reducible refine Keeps.pair2 ‹_› ?_
      | with_reducible apply Keeps.trans' (spadStore_keeps ..)
      | with_reducible apply Keeps.trans' (updEng_keeps ..)
      | extract_lets
      | with_reducible apply Keeps.ite
      | with_reducible apply Keeps.ite2
      | split
      | dsimp only
      | with_reducible refine Keeps.upd ?_ rfl rfl rfl rfl rfl rfl rfl rfl

theorem spadWrite_keeps (n : Nat) (off : Nat) (bs : List Byte) (s : State) : Keeps s (spadWrite n off bs s) := by
  unfold spadWrite
  repeat'
    first
      | with_reducible exact Keeps.refl _
      | with_reducible refine Keeps.pair ‹_› ?_
      | with_reducible refine Keeps.pair2 ‹_› ?_
      | with_reducible apply Keeps.trans' (portWrite_keeps ..)

theorem zeroSpad_keeps (p : Nat) (s : State) : Keeps s (zeroSpad p s) :=
  Keeps.updMem (Keeps.refl s) rfl rfl rfl rfl id id (fun h => Tab.wf_filter h _) id

theorem zeroCluster_keeps (c : Nat) (s : State) : Keeps s (zeroCluster c s) :=
  Keeps.updMem (Keeps.refl s) rfl rfl rfl rfl id (fun h => Tab.wf_filter h _) id id

theorem clusterRead_keeps (n : Nat) (c : Nat) (off : Nat) (len : Nat) (s : State) : Keeps s (clusterRead n c off len s).2 := by
  unfold clusterRead
  repeat'
    first
      | with_reducible exact Keeps.refl _
      | with_reducible refine Keeps.pair ‹_› ?_
      | with_reducible refine Keeps.pair2 ‹_› ?_
      | with_reducible apply Keeps.trans' (noteCe_keeps ..)
      | extract_lets
      | with_reducible apply Keeps.ite
      | with_reducible apply Keeps.ite2

theorem clusterWrite_keeps (c off : Nat) (bs : List Byte) (s : State) : Keeps s (clusterWrite c off bs s) :=
  Keeps.updMem (Keeps.refl s) rfl rfl rfl rfl id (fun h => Tab.wf_putList h _ _) id id

theorem openOnchip_keeps (s : State) : Keeps s (openOnchip s) := by
  unfold openOnchip
  repeat'
    first
      | with_reducible exact Keeps.refl _
      | with_reducible refine Keeps.pair ‹_› ?_
      | with_reducible refine Keeps.pair2 ‹_› ?_
      | with_reducible apply Keeps.trans' (zeroSpad_keeps ..)
      | with_reducible apply Keeps.trans' (zeroCluster_keeps ..)
      | with_reducible refine Keeps.trans' (Keeps.foldl (fun _ _ => ?_) ..) ?_
      | extract_lets
      | with_reducible apply Keeps.ite
      | with_reducible apply Keeps.ite2
      | split
      | dsimp only
      | intro _
      | with_reducible refine Keeps.upd ?_ rfl rfl rfl rfl rfl rfl rfl rfl

theorem onchipSpads_keeps (x0 : List Nat) (s : State) : Keeps s (onchipSpads x0 s).2 := by
  fun_induction onchipSpads x0 s <;> repeat'
    first
      | with_reducible exact Keeps.refl _
      | with_reducible refine Keeps.pair ‹_› ?_
      | with_reducible refine Keeps.pair2 ‹_› ?_
      | with_reducible apply Keeps.trans' ‹Keeps _ _›
      | with_reducible apply Keeps.trans' (noteCe_keeps ..)
      | with_reducible apply Keeps.trans' (updEng_keeps ..)

theorem onchipClusters_keeps (x0 : List Nat) (s : State) : Keeps s (onchipClusters x0 s).2 := by
  fun_induction onchipClusters x0 s <;> repeat'
    first
      | with_reducible exact Keeps.refl _
      | with_reducible refine Keeps.pair ‹_› ?_
      | with_reducible refine Keeps.pair2 ‹_› ?_
      | with_reducible apply Keeps.trans' ‹Keeps _ _›
      | with_reducible apply Keeps.trans' (noteCe_keeps ..)

theorem readPlace_keeps (reader : Nat) (p : Place) (len : Nat) (s : State) : Keeps s (readPlace reader p len s).2 := by
  unfold readPlace
  repeat'
    first
      | with_reducible exact Keeps.refl _
      | with_reducible refine Keeps.pair ‹_› ?_
      | with_reducible refine Keeps.pair2 ‹_› ?_
      | with_reducible apply Keeps.trans' (carafeRead_keeps ..)
      | with_reducible apply Keeps.trans' (clusterRead_keeps ..)
      | with_reducible apply Keeps.trans' (spadRead_keeps ..)
      | extract_lets
      | with_reducible apply Keeps.ite
      | with_reducible apply Keeps.ite2
      | split
      | with_reducible refine Keeps.upd ?_ rfl rfl rfl rfl rfl rfl rfl rfl

theorem writePlace_keeps (p : Place) (bs : List Byte) (s : State) : Keeps s (writePlace p bs s) := by
  unfold writePlace
  repeat'
    first
      | with_reducible exact Keeps.refl _
      | with_reducible refine Keeps.pair ‹_› ?_
      | with_reducible refine Keeps.pair2 ‹_› ?_
      | with_reducible apply Keeps.trans' (carafeWrite_keeps ..)
      | with_reducible apply Keeps.trans' (clusterWrite_keeps ..)
      | with_reducible apply Keeps.trans' (portWrite_keeps ..)
      | extract_lets
      | with_reducible apply Keeps.ite
      | with_reducible apply Keeps.ite2
      | split

theorem readPlaces_keeps (reader : Nat) (x0 : List (Place × Nat)) (s : State) : Keeps s (readPlaces reader x0 s).2 := by
  fun_induction readPlaces reader x0 s <;> repeat'
    first
      | with_reducible exact Keeps.refl _
      | with_reducible apply Keeps.trans' ‹Keeps _ _›
      | with_reducible refine Keeps.pair ‹_› ?_
      | with_reducible apply Keeps.trans' (readPlace_keeps ..)

theorem writePlaces_keeps (x0 : List (Place × Nat)) (x1 : List Byte) (s : State) : Keeps s (writePlaces x0 x1 s) := by
  fun_induction writePlaces x0 x1 s <;> repeat'
    first
      | with_reducible exact Keeps.refl _
      | with_reducible apply Keeps.trans' ‹Keeps _ _›
      | with_reducible refine Keeps.pair ‹_› ?_
      | with_reducible apply Keeps.trans' (writePlace_keeps ..)

theorem devRead_keeps (ctx : View) (a : Nat) (len : Nat) (s : State) : Keeps s (devRead ctx a len s).2 := by
  unfold devRead
  repeat'
    first
      | with_reducible exact Keeps.refl _
      | with_reducible refine Keeps.pair ‹_› ?_
      | with_reducible apply Keeps.trans' (transFault_keeps ..)
      | with_reducible apply Keeps.trans' (readPlaces_keeps ..)
      | split

theorem devWrite_keeps (ctx : View) (a : Nat) (bs : List Byte) (s : State) : Keeps s (devWrite ctx a bs s).2 := by
  unfold devWrite
  repeat'
    first
      | with_reducible exact Keeps.refl _
      | with_reducible refine Keeps.pair ‹_› ?_
      | with_reducible apply Keeps.trans' (transFault_keeps ..)
      | with_reducible apply Keeps.trans' (writePlaces_keeps ..)
      | split

theorem startWipe_keeps (cause : Nat) (s : State) : Keeps s (startWipe cause s) := by
  unfold startWipe
  repeat'
    first
      | with_reducible exact Keeps.refl _
      | with_reducible apply Keeps.trans' (logSev_keeps ..)
      | with_reducible apply Keeps.ite
      | split
      | with_reducible refine Keeps.upd ?_ rfl rfl rfl rfl rfl rfl rfl rfl

end Sys2Proof.Machine
end

