-- ==== Sys2Proof/Laws/KeepsCmd.lean ====
section
/-! SUPPORT. Host accesses, links between commands and completion keep what Laws/Keeps.lean lists. -/

namespace Sys2Proof.Machine

/-! ## HostPort -/

theorem atsFetch_keeps (page : Nat) (s : State) : Keeps s (atsFetch page s) := by
  unfold atsFetch
  repeat'
    first
      | with_reducible exact Keeps.refl _
      | with_reducible apply Keeps.trans' (emit_keeps ..)
      | extract_lets
      | with_reducible apply Keeps.ite
      | split
      | with_reducible refine Keeps.upd ?_ rfl rfl rfl rfl rfl rfl rfl rfl

theorem atsCheck_keeps (ats : Bool) (write : Bool) (a : Nat) (len : Nat) (s : State) :
    Keeps s (atsCheck ats write a len s).2 := by
  unfold atsCheck
  repeat'
    first
      | with_reducible exact Keeps.refl _
      | with_reducible refine Keeps.pair ‹_› ?_
      | with_reducible apply Keeps.trans' (atsFetch_keeps ..)
      | with_reducible refine Keeps.trans' (Keeps.foldl (fun _ _ => ?_) ..) ?_
      | extract_lets
      | with_reducible apply Keeps.ite
      | with_reducible apply Keeps.ite2
      | split

theorem hostRead_keeps (ats : Bool) (a : Nat) (len : Nat) (s : State) : Keeps s (hostRead ats a len s).2 := by
  unfold hostRead
  repeat'
    first
      | with_reducible exact Keeps.refl _
      | with_reducible refine Keeps.pair ‹_› ?_
      | with_reducible apply Keeps.trans' (atsCheck_keeps ..)
      | with_reducible apply Keeps.ite
      | with_reducible apply Keeps.ite2
      | split

theorem hostStore_wf (lost : List (Nat × Nat)) (t : Tab Byte) (a : Nat) (bs : List Byte) (h : Tab.wf 0 t = true) :
    Tab.wf 0 (hostStore lost t a bs) = true := by
  induction bs generalizing t a with
  | nil => exact h
  | cons b bs ih =>
    refine ih _ _ ?_
    split
    · exact h
    · exact Tab.wf_put h a b

theorem hostWrite_keeps (ats : Bool) (a : Nat) (bs : List Byte) (s : State) : Keeps s (hostWrite ats a bs s).2 := by
  unfold hostWrite
  split
  · exact Keeps.refl s
  split
  · rename_i e
    exact Keeps.pair e (atsCheck_keeps ..)
  · rename_i t e
    exact Keeps.updMem (Keeps.pair e (atsCheck_keeps ..)) rfl rfl rfl rfl id id id (hostStore_wf _ _ _ _)

theorem spaceRead_keeps (host : Bool) (ats : Bool) (ctx : View) (a : Nat) (len : Nat) (s : State) :
    Keeps s (spaceRead host ats ctx a len s).2 := by
  unfold spaceRead
  repeat'
    first
      | with_reducible exact Keeps.refl _
      | with_reducible refine Keeps.pair ‹_› ?_
      | with_reducible apply Keeps.trans' (devRead_keeps ..)
      | with_reducible apply Keeps.trans' (hostRead_keeps ..)
      | with_reducible apply Keeps.ite
      | with_reducible apply Keeps.ite2
      | split

theorem spaceWrite_keeps (host : Bool) (ats : Bool) (ctx : View) (a : Nat) (bs : List Byte) (s : State) :
    Keeps s (spaceWrite host ats ctx a bs s).2 := by
  unfold spaceWrite
  repeat'
    first
      | with_reducible exact Keeps.refl _
      | with_reducible refine Keeps.pair ‹_› ?_
      | with_reducible apply Keeps.trans' (devWrite_keeps ..)
      | with_reducible apply Keeps.trans' (hostWrite_keeps ..)
      | with_reducible apply Keeps.ite
      | with_reducible apply Keeps.ite2
      | split

theorem setQue_keeps (q : Nat) (x : Queue) (s : State) : Keeps s (setQue q x s) :=
  Keeps.upd (Keeps.refl s) rfl rfl rfl rfl rfl rfl rfl rfl

theorem updQue_keeps (q : Nat) (f : Queue → Queue) (s : State) : Keeps s (updQue q f s) :=
  setQue_keeps ..

theorem cmdRead_keeps (c : Cmd) (a : Nat) (len : Nat) (s : State) : Keeps s (cmdRead c a len s).2 := by
  unfold cmdRead
  extract_lets
  exact spaceRead_keeps ..

theorem cmdWrite_keeps (c : Cmd) (a : Nat) (bs : List Byte) (s : State) : Keeps s (cmdWrite c a bs s).2 := by
  unfold cmdWrite
  extract_lets
  exact spaceWrite_keeps ..

theorem queWrite_keeps (q : Nat) (a : Nat) (bs : List Byte) (s : State) : Keeps s (queWrite q a bs s).2 := by
  unfold queWrite
  extract_lets
  exact spaceWrite_keeps ..

theorem ringRead_keeps (q : Nat) (a : Nat) (len : Nat) (s : State) : Keeps s (ringRead q a len s).2 := by
  unfold ringRead
  extract_lets
  exact spaceRead_keeps ..

theorem ringWrite_keeps (q : Nat) (a : Nat) (bs : List Byte) (s : State) : Keeps s (ringWrite q a bs s).2 := by
  unfold ringWrite
  extract_lets
  exact spaceWrite_keeps ..

/-! ## Link -/

theorem setLnk_keeps (l : Nat) (x : Link) (s : State) : Keeps s (setLnk l x s) :=
  Keeps.upd (Keeps.refl s) rfl rfl rfl rfl rfl rfl rfl rfl

theorem updLnk_keeps (l : Nat) (f : Link → Link) (s : State) : Keeps s (updLnk l f s) :=
  setLnk_keeps ..

theorem flitOut_keeps (l : Nat) (f : Flit) (s : State) : Keeps s (flitOut l f s) := by
  unfold flitOut
  repeat'
    first
      | with_reducible exact Keeps.refl _
      | with_reducible apply Keeps.trans' (emit_keeps ..)
      | with_reducible apply Keeps.trans' (updLnk_keeps ..)
      | extract_lets
      | with_reducible apply Keeps.ite

theorem sendBare_keeps (l : Nat) (kind : Nat) (s : State) : Keeps s (sendBare l kind s) := by
  unfold sendBare
  repeat'
    first
      | with_reducible exact Keeps.refl _
      | with_reducible refine Keeps.pair ‹_› ?_
      | with_reducible refine Keeps.pair2 ‹_› ?_
      | with_reducible apply Keeps.trans' (flitOut_keeps ..)
      | extract_lets
      | with_reducible apply Keeps.ite

theorem pumpLink_keeps (l : Nat) (x0 : Nat) (s : State) : Keeps s (pumpLink l x0 s) := by
  fun_induction pumpLink l x0 s <;> repeat'
    first
      | with_reducible exact Keeps.refl _
      | with_reducible apply Keeps.trans' ‹Keeps _ _›
      | with_reducible refine Keeps.pair ‹_› ?_
      | with_reducible apply Keeps.trans' (updLnk_keeps ..)
      | with_reducible apply Keeps.trans' (flitOut_keeps ..)

theorem pump_keeps (l : Nat) (s : State) : Keeps s (pump l s) := by
  unfold pump
  repeat'
    first
      | with_reducible exact Keeps.refl _
      | with_reducible refine Keeps.pair ‹_› ?_
      | with_reducible refine Keeps.pair2 ‹_› ?_
      | with_reducible apply Keeps.trans' (pumpLink_keeps ..)
      | extract_lets
      | with_reducible apply Keeps.ite

theorem kwSend_keeps (l : Nat) (m : Msg) (s : State) : Keeps s (kwSend l m s) := by
  unfold kwSend
  repeat'
    first
      | with_reducible exact Keeps.refl _
      | with_reducible apply Keeps.trans' (updLnk_keeps ..)
      | with_reducible apply Keeps.trans' (pump_keeps ..)
      | extract_lets
      | with_reducible apply Keeps.ite

theorem setBnd_keeps (b : Nat) (x : Binding) (s : State) : Keeps s (setBnd b x s) :=
  Keeps.upd (Keeps.refl s) rfl rfl rfl rfl rfl rfl rfl rfl

theorem updPrt_keeps (p : Nat) (f : PortSt → PortSt) (s : State) : Keeps s (updPrt p f s) :=
  Keeps.upd (Keeps.refl s) rfl rfl rfl rfl rfl rfl rfl rfl

theorem sendReply_keeps (p : Nat) (dst : NetAddr) (tags : List Word) (src : Word) (body : Nat → List Byte) (s : State) :
    Keeps s (sendReply p dst tags src body s) := by
  unfold sendReply
  repeat'
    first
      | with_reducible exact Keeps.refl _
      | with_reducible refine Keeps.pair ‹_› ?_
      | with_reducible refine Keeps.pair2 ‹_› ?_
      | with_reducible apply Keeps.trans' (emit_keeps ..)
      | extract_lets
      | with_reducible apply Keeps.ite
      | with_reducible apply Keeps.ite2
      | split
      | dsimp only
      | with_reducible refine Keeps.upd ?_ rfl rfl rfl rfl rfl rfl rfl rfl

theorem notifyQueue_keeps (q : Nat) (record : List Byte) (s : State) : Keeps s (notifyQueue q record s) := by
  unfold notifyQueue
  repeat'
    first
      | with_reducible exact Keeps.refl _
      | with_reducible apply Keeps.trans' (sendReply_keeps ..)
      | extract_lets
      | with_reducible apply Keeps.ite
      | split

/-! ## Finish -/

theorem updCmd_keeps (k : Key) (f : Cmd → Cmd) (s : State) : Keeps s (updCmd k f s) := by
  unfold updCmd
  repeat'
    first
      | with_reducible exact Keeps.refl _
      | with_reducible apply Keeps.ite
      | split
      | with_reducible refine Keeps.upd ?_ rfl rfl rfl rfl rfl rfl rfl rfl

theorem dropCmd_keeps (k : Key) (s : State) : Keeps s (dropCmd k s) :=
  Keeps.upd (Keeps.refl s) rfl rfl rfl rfl rfl rfl rfl rfl

theorem flogWrite_keeps (q : Nat) (cause : Nat) (kind : Nat) (seq : Word) (addr : Nat) (record : List Byte) (s : State) :
    Keeps s (flogWrite q cause kind seq addr record s) := by
  unfold flogWrite
  repeat'
    first
      | with_reducible exact Keeps.refl _
      | with_reducible apply Keeps.trans' (feFlag_keeps ..)
      | extract_lets
      | with_reducible apply Keeps.ite
      | split
      | with_reducible refine Keeps.upd ?_ rfl rfl rfl rfl rfl rfl rfl rfl

theorem queueError_keeps (q : Nat) (kind : Nat) (cause : Nat) (seq : Word) (addr : Nat) (record : List Byte)
    (s : State) : Keeps s (queueError q kind cause seq addr record s) := by
  unfold queueError
  repeat'
    first
      | with_reducible exact Keeps.refl _
      | with_reducible apply Keeps.trans' (feFlag_keeps ..)
      | with_reducible apply Keeps.trans' (updQue_keeps ..)
      | with_reducible apply Keeps.trans' (flogWrite_keeps ..)
      | extract_lets
      | with_reducible apply Keeps.ite

theorem writeRecord_keeps (c : Cmd) (d : Decision) (s : State) : Keeps s (writeRecord c d s) := by
  unfold writeRecord
  repeat'
    first
      | with_reducible exact Keeps.refl _
      | with_reducible refine Keeps.pair ‹_› ?_
      | with_reducible apply Keeps.trans' (sendMsix_keeps ..)
      | with_reducible apply Keeps.trans' (updQue_keeps ..)
      | with_reducible apply Keeps.trans' (ringWrite_keeps ..)
      | with_reducible apply Keeps.trans' (notifyQueue_keeps ..)
      | with_reducible apply Keeps.trans' (flogWrite_keeps ..)
      | with_reducible apply Keeps.trans' (queueError_keeps ..)
      | extract_lets
      | with_reducible apply Keeps.ite
      | with_reducible apply Keeps.ite2
      | split

theorem setFnc_keeps (f : Nat) (x : Fence) (s : State) : Keeps s (setFnc f x s) :=
  Keeps.upd (Keeps.refl s) rfl rfl rfl rfl rfl rfl rfl rfl

theorem raiseFence_keeps (f : Nat) (v : Nat) (s : State) : Keeps s (raiseFence f v s) := by
  unfold raiseFence
  repeat'
    first
      | with_reducible exact Keeps.refl _
      | with_reducible apply Keeps.trans' (setFnc_keeps ..)

theorem signalFence_keeps (c : Cmd) (d : Decision) (s : State) : Keeps s (signalFence c d s) := by
  unfold signalFence
  repeat'
    first
      | with_reducible exact Keeps.refl _
      | with_reducible apply Keeps.trans' (setFnc_keeps ..)
      | with_reducible apply Keeps.trans' (raiseFence_keeps ..)
      | extract_lets
      | with_reducible apply Keeps.ite

theorem releaseEngines_keeps (ok : Bool) (killed : Bool) (k : Key) (s : State) : Keeps s (releaseEngines ok killed k s) := by
  unfold releaseEngines
  repeat'
    first
      | with_reducible exact Keeps.refl _
      | with_reducible apply Keeps.trans' (icuSend_keeps ..)
      | with_reducible apply Keeps.trans' (updEng_keeps ..)
      | with_reducible refine Keeps.trans' (Keeps.foldl (fun _ _ => ?_) ..) ?_
      | extract_lets
      | with_reducible apply Keeps.ite

theorem updMdl_keeps (i : Nat) (f : Model → Model) (s : State) : Keeps s (updMdl i f s) :=
  Keeps.upd (Keeps.refl s) rfl rfl rfl rfl rfl rfl rfl rfl

theorem dropUser_keeps (i : Nat) (s : State) : Keeps s (dropUser i s) := by
  unfold dropUser
  repeat'
    first
      | with_reducible exact Keeps.refl _
      | with_reducible apply Keeps.trans' (updMdl_keeps ..)

theorem dropModel_keeps (id : Nat) (s : State) : Keeps s (dropModel id s) := by
  unfold dropModel
  repeat'
    first
      | with_reducible exact Keeps.refl _
      | with_reducible apply Keeps.trans' (extentFreed_keeps ..)
      | with_reducible refine Keeps.trans' (Keeps.foldl (fun _ _ => ?_) ..) ?_
      | extract_lets
      | with_reducible refine Keeps.upd ?_ rfl rfl rfl rfl rfl rfl rfl rfl

theorem writeReport_keeps (c : Cmd) (rep : List Byte) (d : Decision) (s : State) : Keeps s (writeReport c rep d s).2 := by
  unfold writeReport
  repeat'
    first
      | with_reducible exact Keeps.refl _
      | with_reducible refine Keeps.pair ‹_› ?_
      | with_reducible refine Keeps.pair2 ‹_› ?_
      | with_reducible apply Keeps.trans' (cmdWrite_keeps ..)
      | extract_lets
      | with_reducible apply Keeps.ite
      | with_reducible apply Keeps.ite2
      | split

theorem endLoad_keeps (c : Cmd) (d : Decision) (s : State) : Keeps s (endLoad c d s).2 := by
  unfold endLoad
  repeat'
    first
      | with_reducible exact Keeps.refl _
      | with_reducible refine Keeps.pair ‹_› ?_
      | with_reducible refine Keeps.pair2 ‹_› ?_
      | with_reducible apply Keeps.trans' (writeReport_keeps ..)
      | with_reducible apply Keeps.trans' (dropModel_keeps ..)
      | extract_lets
      | with_reducible apply Keeps.ite
      | with_reducible apply Keeps.ite2
      | split

theorem keepGroup_keeps (p : SplitSt) (s : State) : Keeps s (keepGroup p s) :=
  Keeps.ite (Keeps.refl s) (Keeps.upd (Keeps.refl s) rfl rfl rfl rfl rfl rfl rfl rfl)

theorem dropWork_keeps (c : Cmd) (s : State) : Keeps s (dropWork c s) := by
  unfold dropWork
  repeat'
    first
      | with_reducible exact Keeps.refl _
      | with_reducible apply Keeps.trans' (keepGroup_keeps ..)
      | with_reducible apply Keeps.trans' (releaseExtent_keeps ..)
      | with_reducible apply Keeps.trans' (dropUser_keeps ..)
      | with_reducible apply Keeps.trans' (dropModel_keeps ..)
      | with_reducible refine Keeps.trans' (Keeps.foldl (fun _ _ => ?_) ..) ?_
      | with_reducible apply Keeps.ite
      | split

theorem bindingSend_keeps (b : Nat) (ty : Nat) (w3 : Word) (body : List Byte) (s : State) :
    Keeps s (bindingSend b ty w3 body s) := by
  unfold bindingSend
  repeat'
    first
      | with_reducible exact Keeps.refl _
      | with_reducible apply Keeps.trans' (kwSend_keeps ..)
      | with_reducible apply Keeps.ite

theorem sendCmdEnd_keeps (c : Cmd) (s : State) : Keeps s (sendCmdEnd c s) := by
  unfold sendCmdEnd
  repeat'
    first
      | with_reducible exact Keeps.refl _
      | with_reducible refine Keeps.pair ‹_› ?_
      | with_reducible refine Keeps.pair2 ‹_› ?_
      | with_reducible apply Keeps.trans' (bindingSend_keeps ..)
      | extract_lets
      | with_reducible apply Keeps.ite
      | with_reducible apply Keeps.ite2
      | split

theorem splitSend_keeps (p : SplitSt) (ty : Nat) (vc : Nat) (body : Nat → List Byte) (s : State) :
    Keeps s (splitSend p ty vc body s) := by
  unfold splitSend
  repeat'
    first
      | with_reducible exact Keeps.refl _
      | with_reducible apply Keeps.trans' (kwSend_keeps ..)
      | with_reducible refine Keeps.trans' (Keeps.foldl (fun _ _ => ?_) ..) ?_
      | with_reducible apply Keeps.ite
      | split

theorem sendSplitFail_keeps (c : Cmd) (d : Decision) (s : State) : Keeps s (sendSplitFail c d s) := by
  unfold sendSplitFail
  repeat'
    first
      | with_reducible exact Keeps.refl _
      | with_reducible apply Keeps.trans' (kwSend_keeps ..)
      | with_reducible refine Keeps.trans' (Keeps.foldl (fun _ _ => ?_) ..) ?_
      | with_reducible apply Keeps.ite
      | split

theorem destroyNote_keeps (q : Nat) (f : Tally → Tally) (s : State) : Keeps s (destroyNote q f s) := by
  unfold destroyNote
  repeat'
    first
      | with_reducible exact Keeps.refl _
      | with_reducible apply Keeps.trans' (updQue_keeps ..)

theorem destroyCount_keeps (c : Cmd) (d : Decision) (newErr : Nat) (s : State) : Keeps s (destroyCount c d newErr s) := by
  unfold destroyCount
  repeat'
    first
      | with_reducible exact Keeps.refl _
      | with_reducible apply Keeps.trans' (destroyNote_keeps ..)
      | extract_lets
      | with_reducible apply Keeps.ite

theorem engineFate_keeps (c : Cmd) (d : Decision) (s : State) : Keeps s (engineFate c d s) := by
  unfold engineFate
  repeat'
    first
      | with_reducible exact Keeps.refl _
      | with_reducible apply Keeps.trans' (destroyNote_keeps ..)
      | extract_lets
      | with_reducible apply Keeps.ite

theorem destroyLogged_keeps (q : Nat) (s : State) : Keeps s (destroyLogged q s) :=
  flogWrite_keeps ..

theorem finishDestroy_keeps (q : Nat) (s : State) : Keeps s (finishDestroy q s).2 := by
  unfold finishDestroy
  split
  · split
    · have k : ∀ c bs, Keeps s { (cmdWrite c c.p1 bs s).2 with
          queues := Tab.put Queue.init (cmdWrite c c.p1 bs s).2.queues q Queue.init } := fun c bs =>
        Keeps.upd (cmdWrite_keeps c c.p1 bs s) rfl rfl rfl rfl rfl rfl rfl rfl
      extract_lets
      split <;> exact k _ _
    · exact Keeps.trans (destroyLogged_keeps q s) (setQue_keeps ..)
  · exact Keeps.refl s

theorem noteRecent_keeps (c : Cmd) (d : Decision) (s : State) : Keeps s (noteRecent c d s) := by
  unfold noteRecent
  repeat'
    first
      | with_reducible exact Keeps.refl _
      | with_reducible apply Keeps.trans' (updQue_keeps ..)

theorem finishOne_keeps (k : Key) (d : Decision) (s : State) : Keeps s (finishOne k d s).2 := by
  unfold finishOne
  repeat'
    first
      | with_reducible exact Keeps.refl _
      | with_reducible refine Keeps.pair ‹_› ?_
      | with_reducible refine Keeps.pair2 ‹_› ?_
      | with_reducible apply Keeps.trans' (endLoad_keeps ..)
      | with_reducible apply Keeps.trans' (sendSplitFail_keeps ..)
      | with_reducible apply Keeps.trans' (sendCmdEnd_keeps ..)
      | with_reducible apply Keeps.trans' (dropWork_keeps ..)
      | with_reducible apply Keeps.trans' (releaseEngines_keeps ..)
      | with_reducible apply Keeps.trans' (dropCmd_keeps ..)
      | with_reducible apply Keeps.trans' (engineFate_keeps ..)
      | with_reducible apply Keeps.trans' (noteRecent_keeps ..)
      | with_reducible apply Keeps.trans' (writeRecord_keeps ..)
      | with_reducible apply Keeps.trans' (signalFence_keeps ..)
      | with_reducible apply Keeps.trans' (destroyCount_keeps ..)
      | with_reducible apply Keeps.trans' (finishDestroy_keeps ..)
      | extract_lets
      | with_reducible apply Keeps.ite
      | with_reducible apply Keeps.ite2
      | split
      | dsimp only
      | with_reducible refine Keeps.upd ?_ rfl rfl rfl rfl rfl rfl rfl rfl

theorem settleN_keeps (x0 : Nat) (x1 : List (Key × Decision)) (s : State) : Keeps s (settleN x0 x1 s) := by
  fun_induction settleN x0 x1 s <;> repeat'
    first
      | with_reducible exact Keeps.refl _
      | with_reducible apply Keeps.trans' ‹Keeps _ _›
      | with_reducible refine Keeps.pair ‹_› ?_
      | with_reducible apply Keeps.trans' (finishOne_keeps ..)

theorem noteFree_keeps (s : State) : Keeps s (noteFree s) := by
  unfold noteFree
  repeat'
    first
      | with_reducible exact Keeps.refl _
      | with_reducible refine Keeps.trans' (Keeps.foldl (fun _ _ => ?_) ..) ?_
      | extract_lets
      | with_reducible apply Keeps.ite
      | split
      | with_reducible refine Keeps.upd ?_ rfl rfl rfl rfl rfl rfl rfl rfl

theorem readyOrder_keeps (k : Key) (s : State) : Keeps s (readyOrder k s) := by
  unfold readyOrder
  repeat'
    first
      | with_reducible exact Keeps.refl _
      | with_reducible apply Keeps.trans' (updCmd_keeps ..)

theorem settle_keeps (l : List (Key × Decision)) (s : State) : Keeps s (settle l s) := by
  unfold settle
  repeat'
    first
      | with_reducible exact Keeps.refl _
      | with_reducible apply Keeps.trans' (settleN_keeps ..)
      | with_reducible apply Keeps.trans' (noteFree_keeps ..)

theorem complete_keeps (k : Key) (d : Decision) (s : State) : Keeps s (complete k d s) :=
  settle_keeps ..

theorem decide'_keeps (k : Key) (d : Decision) (s : State) : Keeps s (decide' k d s) := by
  unfold decide'
  repeat'
    first
      | with_reducible exact Keeps.refl _
      | with_reducible apply Keeps.trans' (updCmd_keeps ..)

theorem completeDecided_keeps (k : Key) (s : State) : Keeps s (completeDecided k s) := by
  unfold completeDecided
  repeat'
    first
      | with_reducible exact Keeps.refl _
      | with_reducible apply Keeps.trans' (settle_keeps ..)
      | split

theorem commitOk_keeps (k : Key) (value : Nat) (s : State) : Keeps s (commitOk k value s) :=
  complete_keeps ..

theorem refuse_keeps (k : Key) (detail : Nat) (s : State) : Keeps s (refuse k detail s) :=
  complete_keeps ..

end Sys2Proof.Machine
end

