-- ==== Sys2Proof/Laws/KeepsRun.lean ====
section
/-! SUPPORT. Engine failure, descriptors, models, annealing, seeds, programs and array instructions keep what
Laws/Keeps.lean lists. -/

namespace Sys2Proof.Machine

/-! ## Array -/

theorem countClose_keeps (fl : Nat) (s : State) : Keeps s (countClose fl s) := by
  unfold countClose
  repeat'
    first
      | with_reducible exact Keeps.refl _
      | extract_lets
      | with_reducible refine Keeps.upd ?_ rfl rfl rfl rfl rfl rfl rfl rfl

theorem countEval_keeps (fl : Nat) (s : State) : Keeps s (countEval fl s) := by
  unfold countEval
  repeat'
    first
      | with_reducible exact Keeps.refl _
      | with_reducible apply Keeps.trans' (anlFlag_keeps ..)
      | with_reducible apply Keeps.trans' (countClose_keeps ..)
      | extract_lets
      | with_reducible apply Keeps.ite

theorem countEvals_keeps (fl : List Nat) (s : State) : Keeps s (countEvals fl s) :=
  Keeps.foldl (fun st f => countEval_keeps f st) fl s

theorem addSteps_keeps (n : Nat) (s : State) : Keeps s (addSteps n s) :=
  Keeps.upd (Keeps.refl s) rfl rfl rfl rfl rfl rfl rfl rfl

/-! ## Operands -/

theorem readSpan_keeps (n : Nat) (x0 : List (Nat × Nat)) (s : State) : Keeps s (readSpan n x0 s).2 := by
  fun_induction readSpan n x0 s <;> repeat'
    first
      | with_reducible exact Keeps.refl _
      | with_reducible apply Keeps.trans' ‹Keeps _ _›
      | with_reducible refine Keeps.pair ‹_› ?_
      | with_reducible apply Keeps.trans' (spadRead_keeps ..)

theorem writeSpanBy_keeps (net : Bool) (n : Nat) (x0 : List (Nat × Nat)) (x1 : List Byte) (s : State) :
    Keeps s (writeSpanBy net n x0 x1 s) := by
  fun_induction writeSpanBy net n x0 x1 s with
  | case1 => exact Keeps.refl _
  | case2 _ _ _ _ _ ih => exact (portWrite_keeps ..).trans ih

theorem writeSpan_keeps (n : Nat) (x0 : List (Nat × Nat)) (x1 : List Byte) (s : State) : Keeps s (writeSpan n x0 x1 s) :=
  writeSpanBy_keeps ..

/-! ## Failure -/

theorem killCmd_keeps (c : Cmd) (d : Decision) (s : State) : Keeps s (killCmd c d s) := by
  unfold killCmd
  repeat'
    first
      | with_reducible exact Keeps.refl _
      | with_reducible apply Keeps.trans' (releaseEngines_keeps ..)
      | with_reducible apply Keeps.trans' (engineFate_keeps ..)
      | with_reducible apply Keeps.trans' (complete_keeps ..)

theorem failCmd_keeps (c : Cmd) (d : Decision) (s : State) : Keeps s (failCmd c d s) := by
  unfold failCmd
  repeat'
    first
      | with_reducible exact Keeps.refl _
      | with_reducible refine Keeps.pair ‹_› ?_
      | with_reducible refine Keeps.pair2 ‹_› ?_
      | with_reducible apply Keeps.trans' (complete_keeps ..)
      | with_reducible apply Keeps.trans' (settle_keeps ..)
      | extract_lets
      | with_reducible apply Keeps.ite
      | with_reducible apply Keeps.ite2
      | split

theorem engineFail_keeps (p : Nat) (cause : Nat) (s : State) : Keeps s (engineFail p cause s) := by
  unfold engineFail
  repeat'
    first
      | with_reducible exact Keeps.refl _
      | with_reducible refine Keeps.pair ‹_› ?_
      | with_reducible refine Keeps.pair2 ‹_› ?_
      | with_reducible apply Keeps.trans' (logEvent_keeps ..)
      | with_reducible apply Keeps.trans' (failCmd_keeps ..)
      | with_reducible apply Keeps.trans' (updEng_keeps ..)
      | with_reducible apply Keeps.trans' (zeroSpad_keeps ..)
      | with_reducible apply Keeps.trans' (detFlag_keeps ..)
      | extract_lets
      | with_reducible apply Keeps.ite
      | with_reducible apply Keeps.ite2
      | split
      | dsimp only
      | with_reducible refine Keeps.upd ?_ rfl rfl rfl rfl rfl rfl rfl rfl

/-! ## Fetch -/

theorem sqDoorbell_keeps (q : Nat) (t : Word) (s : State) : Keeps s (sqDoorbell q t s) := by
  unfold sqDoorbell
  repeat'
    first
      | with_reducible exact Keeps.refl _
      | with_reducible apply Keeps.trans' (icuSend_keeps ..)
      | with_reducible apply Keeps.trans' (feDupDoorbell_keeps ..)
      | with_reducible apply Keeps.trans' (updQue_keeps ..)
      | with_reducible apply Keeps.trans' (queueError_keeps ..)
      | extract_lets
      | with_reducible apply Keeps.ite

theorem cqDoorbell_keeps (q : Nat) (h : Word) (s : State) : Keeps s (cqDoorbell q h s) := by
  unfold cqDoorbell
  repeat'
    first
      | with_reducible exact Keeps.refl _
      | with_reducible apply Keeps.trans' (feDupDoorbell_keeps ..)
      | with_reducible apply Keeps.trans' (updQue_keeps ..)
      | extract_lets
      | with_reducible apply Keeps.ite

theorem takeCommand_keeps (q : Nat) (raw : List Byte) (s : State) : Keeps s (takeCommand q raw s) := by
  unfold takeCommand
  repeat'
    first
      | with_reducible exact Keeps.refl _
      | with_reducible apply Keeps.trans' (updQue_keeps ..)
      | with_reducible apply Keeps.trans' (noteFree_keeps ..)
      | with_reducible apply Keeps.trans' (complete_keeps ..)
      | with_reducible apply Keeps.trans' (refuse_keeps ..)
      | extract_lets
      | with_reducible apply Keeps.ite
      | split
      | with_reducible refine Keeps.upd ?_ rfl rfl rfl rfl rfl rfl rfl rfl

theorem fetchOne_keeps (q : Nat) (s : State) : Keeps s (fetchOne q s) := by
  unfold fetchOne
  repeat'
    first
      | with_reducible exact Keeps.refl _
      | with_reducible refine Keeps.pair ‹_› ?_
      | with_reducible apply Keeps.trans' (feDupCmd_keeps ..)
      | with_reducible apply Keeps.trans' (updQue_keeps ..)
      | with_reducible apply Keeps.trans' (ringRead_keeps ..)
      | with_reducible apply Keeps.trans' (queueError_keeps ..)
      | with_reducible apply Keeps.trans' (takeCommand_keeps ..)
      | extract_lets
      | with_reducible apply Keeps.ite
      | with_reducible apply Keeps.ite2
      | split

theorem aqStart_keeps (s : State) : Keeps s (aqStart s) := by
  unfold aqStart
  repeat'
    first
      | with_reducible exact Keeps.refl _
      | with_reducible apply Keeps.trans' (setQue_keeps ..)

theorem aqEnable_keeps (v : Nat) (s : State) : Keeps s (aqEnable v s) := by
  unfold aqEnable
  repeat'
    first
      | with_reducible exact Keeps.refl _
      | with_reducible apply Keeps.trans' (aqStart_keeps ..)
      | extract_lets
      | with_reducible apply Keeps.ite
      | split
      | with_reducible refine Keeps.upd ?_ rfl rfl rfl rfl rfl rfl rfl rfl

theorem aqDisable_keeps (v : Nat) (s : State) : Keeps s (aqDisable v s) := by
  unfold aqDisable
  repeat'
    first
      | with_reducible exact Keeps.refl _
      | with_reducible apply Keeps.trans' (updQue_keeps ..)
      | with_reducible apply Keeps.ite
      | split
      | with_reducible refine Keeps.upd ?_ rfl rfl rfl rfl rfl rfl rfl rfl

/-! ## Models -/

theorem reportAndComplete_keeps (c : Cmd) (rep : List Byte) (d : Decision) (s : State) :
    Keeps s (reportAndComplete c rep d s) := by
  unfold reportAndComplete
  repeat'
    first
      | with_reducible exact Keeps.refl _
      | with_reducible refine Keeps.pair ‹_› ?_
      | with_reducible refine Keeps.pair2 ‹_› ?_
      | with_reducible apply Keeps.trans' (writeReport_keeps ..)
      | with_reducible apply Keeps.trans' (settle_keeps ..)

theorem srcRead_keeps (c : Cmd) (host : Bool) (a : Nat) (len : Nat) (s : State) : Keeps s (srcRead c host a len s).2 := by
  unfold srcRead
  repeat'
    first
      | with_reducible exact Keeps.refl _
      | with_reducible refine Keeps.pair ‹_› ?_
      | with_reducible apply Keeps.trans' (spaceRead_keeps ..)

theorem admitTail_keeps (c : Cmd) (d : List Byte) (band : Bool) (rows : Nat) (entries : Nat) (s : State) :
    Keeps s (admitTail c d band rows entries s).2 := by
  unfold admitTail
  repeat'
    first
      | with_reducible exact Keeps.refl _
      | with_reducible refine Keeps.pair ‹_› ?_
      | with_reducible apply Keeps.trans' (srcRead_keeps ..)
      | extract_lets
      | with_reducible apply Keeps.ite
      | with_reducible apply Keeps.ite2
      | split

theorem admitModel_keeps (c : Cmd) (d : List Byte) (s : State) : Keeps s (admitModel c d s).2 := by
  unfold admitModel
  repeat'
    first
      | with_reducible exact Keeps.refl _
      | with_reducible refine Keeps.pair ‹_› ?_
      | with_reducible apply Keeps.trans' (srcRead_keeps ..)
      | with_reducible apply Keeps.trans' (admitTail_keeps ..)
      | extract_lets
      | with_reducible apply Keeps.ite
      | with_reducible apply Keeps.ite2
      | split

theorem ownExtents_keeps (es : List Nat) (s : State) : Keeps s (ownExtents es s) := by
  unfold ownExtents
  repeat'
    first
      | with_reducible exact Keeps.refl _
      | with_reducible apply Keeps.trans' (setExt_keeps ..)
      | with_reducible refine Keeps.trans' (Keeps.foldl (fun _ _ => ?_) ..) ?_

theorem reserveModel_keeps (c : Cmd) (d : List Byte) (oc : Bool) (cs : List (Nat × Nat)) (reqExt : Nat) (reqBytes : Nat)
    (s : State) : Keeps s (reserveModel c d oc cs reqExt reqBytes s).2 := by
  unfold reserveModel
  repeat'
    first
      | with_reducible exact Keeps.refl _
      | with_reducible refine Keeps.pair ‹_› ?_
      | with_reducible apply Keeps.trans' (updMdl_keeps ..)
      | with_reducible apply Keeps.trans' (ownExtents_keeps ..)

theorem modelLoad_keeps (c : Cmd) (s : State) : Keeps s (modelLoad c s) := by
  unfold modelLoad
  repeat'
    first
      | with_reducible exact Keeps.refl _
      | with_reducible refine Keeps.pair ‹_› ?_
      | with_reducible apply Keeps.trans' (updCmd_keeps ..)
      | with_reducible apply Keeps.trans' (readyOrder_keeps ..)
      | with_reducible apply Keeps.trans' (reportAndComplete_keeps ..)
      | with_reducible apply Keeps.trans' (admitModel_keeps ..)
      | with_reducible apply Keeps.trans' (reserveModel_keeps ..)
      | extract_lets
      | with_reducible apply Keeps.ite
      | with_reducible apply Keeps.ite2
      | split

theorem srcElems_keeps (c : Cmd) (host : Bool) (size : Nat) (x0 : Nat) (x1 : Nat) (s : State) :
    Keeps s (srcElems c host size x0 x1 s).2 := by
  fun_induction srcElems c host size x0 x1 s <;> repeat'
    first
      | with_reducible exact Keeps.refl _
      | with_reducible apply Keeps.trans' ‹Keeps _ _›
      | with_reducible refine Keeps.pair ‹_› ?_
      | with_reducible apply Keeps.trans' (srcRead_keeps ..)

theorem srcRow_keeps (c : Cmd) (host : Bool) (a : Nat) (size : Nat) (n : Nat) (s : State) :
    Keeps s (srcRow c host a size n s).2 := by
  unfold srcRow
  repeat'
    first
      | with_reducible exact Keeps.refl _
      | with_reducible refine Keeps.pair ‹_› ?_
      | with_reducible apply Keeps.trans' (srcRead_keeps ..)
      | with_reducible apply Keeps.trans' (srcElems_keeps ..)
      | split

theorem srcRows_keeps (c : Cmd) (host : Bool) (base : Nat) (size : Nat) (n : Nat) (x0 : Nat) (x1 : Nat) (s : State) :
    Keeps s (srcRows c host base size n x0 x1 s).2 := by
  fun_induction srcRows c host base size n x0 x1 s <;> repeat'
    first
      | with_reducible exact Keeps.refl _
      | with_reducible apply Keeps.trans' ‹Keeps _ _›
      | with_reducible refine Keeps.pair ‹_› ?_
      | with_reducible apply Keeps.trans' (srcRow_keeps ..)

theorem srcBands_keeps (c : Cmd) (host : Bool) (twice : Bool) (base : Nat) (size : Nat) (n : Nat) (x0 : Nat) (x1 : Nat)
    (s : State) : Keeps s (srcBands c host twice base size n x0 x1 s).2 := by
  fun_induction srcBands c host twice base size n x0 x1 s <;> repeat'
    first
      | with_reducible exact Keeps.refl _
      | with_reducible refine Keeps.pair ‹_› ?_
      | with_reducible refine Keeps.pair2 ‹_› ?_
      | with_reducible apply Keeps.trans' ‹Keeps _ _›
      | with_reducible apply Keeps.trans' (srcRows_keeps ..)
      | extract_lets
      | with_reducible apply Keeps.ite
      | with_reducible apply Keeps.ite2

theorem sparseRows_keeps (c : Cmd) (host : Bool) (m : Model) (ptr : List (Option Nat)) (x0 : Nat) (x1 : Nat)
    (s : State) : Keeps s (sparseRows c host m ptr x0 x1 s).2 := by
  fun_induction sparseRows c host m ptr x0 x1 s <;> repeat'
    first
      | with_reducible exact Keeps.refl _
      | with_reducible refine Keeps.pair ‹_› ?_
      | with_reducible refine Keeps.pair2 ‹_› ?_
      | with_reducible apply Keeps.trans' ‹Keeps _ _›
      | with_reducible apply Keeps.trans' (srcRow_keeps ..)
      | with_reducible apply Keeps.trans' (srcElems_keeps ..)

theorem modelRead_keeps (m : Model) (s : State) : Keeps s (modelRead m s).2 := by
  unfold modelRead
  repeat'
    first
      | with_reducible exact Keeps.refl _
      | with_reducible refine Keeps.pair ‹_› ?_
      | with_reducible refine Keeps.pair2 ‹_› ?_
      | with_reducible apply Keeps.trans' (readLines_keeps ..)
      | with_reducible apply Keeps.trans' (onchipSpads_keeps ..)
      | with_reducible apply Keeps.trans' (onchipClusters_keeps ..)
      | extract_lets
      | with_reducible apply Keeps.ite
      | with_reducible apply Keeps.ite2
      | split

theorem symRead_keeps (m : Model) (res : LoadRes) (s : State) : Keeps s (symRead m res s).2 := by
  unfold symRead
  repeat'
    first
      | with_reducible exact Keeps.refl _
      | with_reducible refine Keeps.pair ‹_› ?_
      | with_reducible refine Keeps.pair2 ‹_› ?_
      | with_reducible apply Keeps.trans' (modelRead_keeps ..)
      | with_reducible apply Keeps.trans' (freshBelow_keeps ..)
      | extract_lets
      | with_reducible apply Keeps.ite
      | with_reducible apply Keeps.ite2
      | split

theorem loadModel_keeps (c : Cmd) (m : Model) (s : State) : Keeps s (loadModel c m s).2 := by
  unfold loadModel
  repeat'
    first
      | with_reducible exact Keeps.refl _
      | with_reducible refine Keeps.pair ‹_› ?_
      | with_reducible refine Keeps.pair2 ‹_› ?_
      | with_reducible apply Keeps.trans' (srcElems_keeps ..)
      | with_reducible apply Keeps.trans' (sparseRows_keeps ..)
      | with_reducible apply Keeps.trans' (srcBands_keeps ..)
      | with_reducible apply Keeps.trans' (srcRow_keeps ..)
      | with_reducible apply Keeps.trans' (symRead_keeps ..)
      | extract_lets
      | with_reducible apply Keeps.ite
      | with_reducible apply Keeps.ite2
      | split

theorem loadFails_keeps (c : Cmd) (id : Nat) (detail : Nat) (row : Nat) (col : Nat) (d : Decision) (s : State) :
    Keeps s (loadFails c id detail row col d s) := by
  unfold loadFails
  repeat'
    first
      | with_reducible exact Keeps.refl _
      | with_reducible apply Keeps.trans' (dropModel_keeps ..)
      | with_reducible apply Keeps.trans' (reportAndComplete_keeps ..)

theorem loadEnds_keeps (c : Cmd) (id : Nat) (s : State) : Keeps s (loadEnds c id s) := by
  unfold loadEnds
  repeat'
    first
      | with_reducible exact Keeps.refl _
      | with_reducible refine Keeps.pair ‹_› ?_
      | with_reducible apply Keeps.trans' (updMdl_keeps ..)
      | with_reducible apply Keeps.trans' (reportAndComplete_keeps ..)
      | with_reducible apply Keeps.trans' (loadModel_keeps ..)
      | with_reducible apply Keeps.trans' (loadFails_keeps ..)
      | extract_lets
      | split

/-! ## Anneal -/

theorem noteSteps_keeps (form : Nat) (steps : Nat) (s : State) : Keeps s (noteSteps form steps s) := by
  unfold noteSteps
  repeat'
    first
      | with_reducible exact Keeps.refl _
      | with_reducible refine Keeps.pair ‹_› ?_
      | with_reducible apply Keeps.trans' (freshBelow_keeps ..)
      | with_reducible apply Keeps.trans' (addSteps_keeps ..)
      | extract_lets
      | with_reducible apply Keeps.ite

theorem evalReplicas_keeps {α : Type} (m : Model) (r : Run) (f : Nat → List (Nat × Word) → α) (s : State) :
    Keeps s (evalReplicas m r f s).2.2 := by
  unfold evalReplicas
  repeat'
    first
      | with_reducible exact Keeps.refl _
      | with_reducible refine Keeps.pair ‹_› ?_
      | with_reducible refine Keeps.pair2 ‹_› ?_
      | with_reducible apply Keeps.trans' (noteSteps_keeps ..)
      | with_reducible apply Keeps.trans' (countEval_keeps ..)
      | with_reducible refine Keeps.trans' (Keeps.foldl (fun _ _ => ?_) ..) ?_

theorem noteEnergies_keeps (m : Model) (es : List (Quad × Bool)) (bad : Bool) (r : Run) (s : State) :
    Keeps s (noteEnergies m es bad r s).2.2 := by
  unfold noteEnergies
  repeat'
    first
      | with_reducible exact Keeps.refl _
      | with_reducible refine Keeps.pair ‹_› ?_
      | with_reducible refine Keeps.pair2 ‹_› ?_
      | with_reducible apply Keeps.trans' (anlFlag_keeps ..)
      | extract_lets
      | with_reducible apply Keeps.ite

theorem recompute_keeps (m : Model) (r : Run) (s : State) : Keeps s (recompute m r s).2.2 := by
  unfold recompute
  repeat'
    first
      | with_reducible exact Keeps.refl _
      | with_reducible refine Keeps.pair ‹_› ?_
      | with_reducible refine Keeps.pair2 ‹_› ?_
      | with_reducible apply Keeps.trans' (evalReplicas_keeps ..)
      | with_reducible apply Keeps.trans' (noteEnergies_keeps ..)

theorem partials_keeps (m : Model) (r : Run) (s : State) : Keeps s (partials m r s).2.2 := by
  unfold partials
  repeat'
    first
      | with_reducible exact Keeps.refl _
      | with_reducible refine Keeps.pair ‹_› ?_
      | with_reducible refine Keeps.pair2 ‹_› ?_
      | with_reducible apply Keeps.trans' (evalReplicas_keeps ..)

/-! ## Replicas -/

theorem setRun_keeps (k : Key) (r : Run) (s : State) : Keeps s (setRun k r s) := by
  unfold setRun
  repeat'
    first
      | with_reducible exact Keeps.refl _
      | with_reducible apply Keeps.trans' (updCmd_keeps ..)

theorem lsCompare_keeps (c : Cmd) (ls : LockStep) (k : Nat) (s : State) : Keeps s (lsCompare c ls k s).2 := by
  unfold lsCompare
  repeat'
    first
      | with_reducible exact Keeps.refl _
      | with_reducible refine Keeps.pair ‹_› ?_
      | with_reducible apply Keeps.trans' (detFlag_keeps ..)
      | extract_lets
      | with_reducible apply Keeps.ite
      | with_reducible apply Keeps.ite2
      | split
      | dsimp only
      | with_reducible refine Keeps.upd ?_ rfl rfl rfl rfl rfl rfl rfl rfl

theorem lsForm_keeps (c : Cmd) (ls : LockStep) (k : Nat) (dig : Digest) (s : State) : Keeps s (lsForm c ls k dig s).2 := by
  unfold lsForm
  repeat'
    first
      | with_reducible exact Keeps.refl _
      | with_reducible refine Keeps.pair ‹_› ?_
      | with_reducible apply Keeps.trans' (bindingSend_keeps ..)
      | with_reducible apply Keeps.trans' (lsCompare_keeps ..)
      | extract_lets
      | with_reducible apply Keeps.ite
      | with_reducible apply Keeps.ite2

theorem lsAdmit_keeps (c : Cmd) (split : Bool) (s : State) : Keeps s (lsAdmit c split s).2 := by
  unfold lsAdmit
  repeat'
    first
      | with_reducible exact Keeps.refl _
      | with_reducible refine Keeps.pair ‹_› ?_
      | with_reducible apply Keeps.trans' (detFlag_keeps ..)
      | extract_lets
      | with_reducible apply Keeps.ite
      | with_reducible apply Keeps.ite2
      | split

theorem runAlone_keeps (b : Nat) (s : State) : Keeps s (runAlone b s) := by
  unfold runAlone
  repeat'
    first
      | with_reducible exact Keeps.refl _
      | with_reducible apply Keeps.trans' (detFlag_keeps ..)
      | extract_lets
      | with_reducible apply Keeps.ite
      | split
      | with_reducible refine Keeps.upd ?_ rfl rfl rfl rfl rfl rfl rfl rfl

theorem takeCkpt_keeps (c : Cmd) (m : Model) (r : Run) (s : State) : Keeps s (takeCkpt c m r s).2 := by
  unfold takeCkpt
  repeat'
    first
      | with_reducible exact Keeps.refl _
      | with_reducible refine Keeps.pair ‹_› ?_
      | with_reducible apply Keeps.trans' (lsForm_keeps ..)

theorem runSteps_keeps (r : Run) (s : State) : Keeps s (runSteps r s).2 := by
  unfold runSteps
  repeat'
    first
      | with_reducible exact Keeps.refl _
      | with_reducible refine Keeps.pair ‹_› ?_
      | with_reducible refine Keeps.pair2 ‹_› ?_
      | with_reducible apply Keeps.trans' (freshBelow_keeps ..)

theorem finishRun_keeps (c : Cmd) (m : Model) (r : Run) (d : Decision) (s : State) : Keeps s (finishRun c m r d s) := by
  unfold finishRun
  repeat'
    first
      | with_reducible exact Keeps.refl _
      | with_reducible refine Keeps.pair ‹_› ?_
      | with_reducible refine Keeps.pair2 ‹_› ?_
      | with_reducible apply Keeps.trans' (runSteps_keeps ..)
      | with_reducible apply Keeps.trans' (settle_keeps ..)
      | with_reducible apply Keeps.trans' (spaceWrite_keeps ..)
      | extract_lets
      | with_reducible apply Keeps.ite
      | with_reducible apply Keeps.ite2
      | split
      | dsimp only
      | with_reducible refine Keeps.upd ?_ rfl rfl rfl rfl rfl rfl rfl rfl

theorem finishPause_keeps (c : Cmd) (m : Model) (r : Run) (p : PauseReq) (d : Decision) (s : State) :
    Keeps s (finishPause c m r p d s) := by
  unfold finishPause
  repeat'
    first
      | with_reducible exact Keeps.refl _
      | with_reducible refine Keeps.pair ‹_› ?_
      | with_reducible refine Keeps.pair2 ‹_› ?_
      | with_reducible apply Keeps.trans' (runSteps_keeps ..)
      | with_reducible apply Keeps.trans' (queWrite_keeps ..)
      | with_reducible apply Keeps.trans' (settle_keeps ..)
      | extract_lets
      | with_reducible apply Keeps.ite
      | with_reducible apply Keeps.ite2
      | split

/-! ## Blocks -/

theorem readBlocks_keeps (k : Cmd) (x0 : List (Nat × Nat × Nat)) (x1 : Cmd) (s : State) : Keeps s (readBlocks k x0 x1 s).2 := by
  fun_induction readBlocks k x0 x1 s <;> repeat'
    first
      | with_reducible exact Keeps.refl _
      | with_reducible apply Keeps.trans' ‹Keeps _ _›
      | with_reducible refine Keeps.pair ‹_› ?_
      | with_reducible apply Keeps.trans' (cmdRead_keeps ..)

theorem readPatchList_keeps (c : Cmd) (s : State) : Keeps s (readPatchList c s).2 := by
  unfold readPatchList
  repeat'
    first
      | with_reducible exact Keeps.refl _
      | with_reducible refine Keeps.pair ‹_› ?_
      | with_reducible apply Keeps.trans' (cmdRead_keeps ..)
      | extract_lets
      | with_reducible apply Keeps.ite
      | with_reducible apply Keeps.ite2
      | split

theorem applyPatches_keeps (x0 : List PatchEntry) (x1 : Cmd) (s : State) : Keeps s (applyPatches x0 x1 s).2 := by
  fun_induction applyPatches x0 x1 s <;> repeat'
    first
      | with_reducible exact Keeps.refl _
      | with_reducible apply Keeps.trans' ‹Keeps _ _›
      | with_reducible refine Keeps.pair ‹_› ?_
      | with_reducible apply Keeps.trans' (cmdRead_keeps ..)

theorem readDep_keeps (c : Cmd) (host : Bool) (stage : Nat) (n : Nat) (a : Nat) (len : Nat) (join : Bool) (s : State) :
    Keeps s (readDep c host stage n a len join s).2 := by
  unfold readDep
  repeat'
    first
      | with_reducible exact Keeps.refl _
      | with_reducible refine Keeps.pair ‹_› ?_
      | with_reducible apply Keeps.trans' (spaceRead_keeps ..)
      | extract_lets
      | with_reducible apply Keeps.ite
      | with_reducible apply Keeps.ite2
      | split

theorem annealDeps_keeps (c : Cmd) (s : State) : Keeps s (annealDeps c s).2 := by
  unfold annealDeps
  repeat'
    first
      | with_reducible exact Keeps.refl _
      | with_reducible refine Keeps.pair ‹_› ?_
      | with_reducible apply Keeps.trans' (readDep_keeps ..)

theorem programDeps_keeps (c : Cmd) (s : State) : Keeps s (programDeps c s).2 := by
  unfold programDeps
  extract_lets h n cnt
  refine Keeps.trans ?_ (readDep_keeps ..)
  refine Keeps.trans ?_ (readDep_keeps ..)
  refine Keeps.trans ?_ (readDep_keeps ..)
  exact readDep_keeps ..

theorem saveDeps_keeps (c : Cmd) (s : State) : Keeps s (saveDeps c s).2 := by
  unfold saveDeps
  repeat'
    first
      | with_reducible exact Keeps.refl _
      | with_reducible refine Keeps.pair ‹_› ?_
      | with_reducible apply Keeps.trans' (readDep_keeps ..)
      | extract_lets
      | with_reducible apply Keeps.ite
      | with_reducible apply Keeps.ite2

theorem readDeps_keeps (c : Cmd) (s : State) : Keeps s (readDeps c s).2 := by
  unfold readDeps
  repeat'
    first
      | with_reducible exact Keeps.refl _
      | with_reducible refine Keeps.pair ‹_› ?_
      | with_reducible apply Keeps.trans' (annealDeps_keeps ..)
      | with_reducible apply Keeps.trans' (programDeps_keeps ..)
      | with_reducible apply Keeps.trans' (saveDeps_keeps ..)
      | with_reducible apply Keeps.ite
      | with_reducible apply Keeps.ite2

theorem padBlock_keeps (n : Nat) (len : Nat) (c : Cmd) (s : State) : Keeps s (padBlock n len c s).2 := by
  unfold padBlock
  repeat'
    first
      | with_reducible exact Keeps.refl _
      | with_reducible refine Keeps.pair ‹_› ?_
      | with_reducible refine Keeps.pair2 ‹_› ?_
      | extract_lets
      | with_reducible apply Keeps.ite
      | with_reducible apply Keeps.ite2
      | split
      | dsimp only
      | with_reducible refine Keeps.upd ?_ rfl rfl rfl rfl rfl rfl rfl rfl

theorem patchAll_keeps (ps : List PatchEntry) (c : Cmd) (s : State) : Keeps s (patchAll ps c s).2 := by
  unfold patchAll
  repeat'
    first
      | with_reducible exact Keeps.refl _
      | with_reducible refine Keeps.pair ‹_› ?_
      | with_reducible refine Keeps.pair2 ‹_› ?_
      | with_reducible apply Keeps.trans' (padBlock_keeps ..)
      | with_reducible apply Keeps.trans' (applyPatches_keeps ..)
      | extract_lets
      | with_reducible apply Keeps.ite
      | with_reducible apply Keeps.ite2
      | split

theorem gather_keeps (c : Cmd) (s : State) : Keeps s (gather c s).2 := by
  unfold gather
  repeat'
    first
      | with_reducible exact Keeps.refl _
      | with_reducible refine Keeps.pair ‹_› ?_
      | with_reducible refine Keeps.pair2 ‹_› ?_
      | with_reducible apply Keeps.trans' (readPatchList_keeps ..)
      | with_reducible apply Keeps.trans' (readBlocks_keeps ..)
      | with_reducible apply Keeps.trans' (readDeps_keeps ..)
      | with_reducible apply Keeps.trans' (patchAll_keeps ..)
      | extract_lets
      | with_reducible apply Keeps.ite
      | with_reducible apply Keeps.ite2
      | split

theorem admitCmd_keeps (c : Cmd) (s : State) : Keeps s (admitCmd c s) := by
  unfold admitCmd
  repeat'
    first
      | with_reducible exact Keeps.refl _
      | with_reducible refine Keeps.pair ‹_› ?_
      | with_reducible apply Keeps.trans' (updCmd_keeps ..)
      | with_reducible apply Keeps.trans' (complete_keeps ..)
      | with_reducible apply Keeps.trans' (refuse_keeps ..)
      | with_reducible apply Keeps.trans' (gather_keeps ..)
      | extract_lets
      | with_reducible apply Keeps.ite
      | with_reducible apply Keeps.ite2
      | split

/-! ## Trng -/

theorem rngFlush_keeps (forming : Nat) (s : State) : Keeps s (rngFlush forming s) := by
  unfold rngFlush
  repeat'
    first
      | with_reducible exact Keeps.refl _
      | extract_lets
      | with_reducible refine Keeps.upd ?_ rfl rfl rfl rfl rfl rfl rfl rfl

theorem rngRestart_keeps (s : State) : Keeps s (rngRestart s) := by
  unfold rngRestart
  repeat'
    first
      | with_reducible exact Keeps.refl _
      | extract_lets
      | with_reducible refine Keeps.upd ?_ rfl rfl rfl rfl rfl rfl rfl rfl

theorem rngSetLatch_keeps (p : Path) (w : Word) (s : State) : Keeps s (rngSetLatch p w s) := by
  unfold rngSetLatch
  repeat'
    first
      | with_reducible exact Keeps.refl _
      | split
      | with_reducible refine Keeps.upd ?_ rfl rfl rfl rfl rfl rfl rfl rfl

theorem rngSwData_keeps (p : Path) (s : State) : Keeps s (rngSwData p s).2 := by
  unfold rngSwData
  repeat'
    first
      | with_reducible exact Keeps.refl _
      | with_reducible refine Keeps.pair ‹_› ?_
      | with_reducible apply Keeps.trans' (rngSetLatch_keeps ..)

theorem swAnswer_keeps (p : Path) (bytes : Nat) (status : Word) (s : State) : Keeps s (swAnswer p bytes status s) := by
  unfold swAnswer
  repeat'
    first
      | with_reducible exact Keeps.refl _
      | with_reducible refine Keeps.pair ‹_› ?_
      | with_reducible refine Keeps.pair2 ‹_› ?_
      | with_reducible apply Keeps.trans' (emit_keeps ..)
      | with_reducible apply Keeps.trans' (rngSetLatch_keeps ..)
      | extract_lets
      | with_reducible apply Keeps.ite

theorem swValid_keeps (p : Path) (bytes : Nat) (w : Word) (s : State) : Keeps s (swValid p bytes w s) := by
  unfold swValid
  repeat'
    first
      | with_reducible exact Keeps.refl _
      | with_reducible refine Keeps.pair ‹_› ?_
      | with_reducible refine Keeps.pair2 ‹_› ?_
      | with_reducible apply Keeps.trans' (swAnswer_keeps ..)
      | with_reducible apply Keeps.trans' (rngSetLatch_keeps ..)

theorem swNotReady_keeps (p : Path) (bytes : Nat) (s : State) : Keeps s (swNotReady p bytes s) := by
  unfold swNotReady
  repeat'
    first
      | with_reducible exact Keeps.refl _
      | with_reducible refine Keeps.pair ‹_› ?_
      | with_reducible refine Keeps.pair2 ‹_› ?_
      | with_reducible apply Keeps.trans' (swAnswer_keeps ..)
      | with_reducible apply Keeps.trans' (rngFlag_keeps ..)
      | with_reducible apply Keeps.trans' (rngSetLatch_keeps ..)
      | extract_lets
      | with_reducible apply Keeps.ite
      | with_reducible apply Keeps.ite2
      | split
      | dsimp only
      | with_reducible refine Keeps.upd ?_ rfl rfl rfl rfl rfl rfl rfl rfl

theorem swFailed_keeps (p : Path) (bytes : Nat) (s : State) : Keeps s (swFailed p bytes s) := by
  unfold swFailed
  repeat'
    first
      | with_reducible exact Keeps.refl _
      | with_reducible refine Keeps.pair ‹_› ?_
      | with_reducible refine Keeps.pair2 ‹_› ?_
      | with_reducible apply Keeps.trans' (swAnswer_keeps ..)
      | with_reducible apply Keeps.trans' (rngSetLatch_keeps ..)

theorem rngFatal_keeps (s : State) : Keeps s (rngFatal s) := by
  unfold rngFatal
  repeat'
    first
      | with_reducible exact Keeps.refl _
      | with_reducible refine Keeps.pair ‹_› ?_
      | with_reducible refine Keeps.pair2 ‹_› ?_
      | with_reducible apply Keeps.trans' (emit_keeps ..)
      | with_reducible apply Keeps.trans' (swFailed_keeps ..)
      | with_reducible apply Keeps.trans' (logEvent_keeps ..)
      | with_reducible apply Keeps.trans' (rngFlag_keeps ..)
      | with_reducible refine Keeps.trans' (Keeps.foldl (fun _ _ => ?_) ..) ?_
      | extract_lets
      | with_reducible apply Keeps.ite
      | with_reducible apply Keeps.ite2
      | split
      | dsimp only
      | intro _
      | with_reducible refine Keeps.upd ?_ rfl rfl rfl rfl rfl rfl rfl rfl

theorem rngFailure_keeps (test : Nat) (forming : Nat) (failed : Bool) (cells : List Nat) (s : State) :
    Keeps s (rngFailure test forming failed cells s) := by
  unfold rngFailure
  repeat'
    first
      | with_reducible exact Keeps.refl _
      | with_reducible apply Keeps.trans' (rngFlag_keeps ..)
      | with_reducible apply Keeps.trans' (logEvent_keeps ..)
      | with_reducible apply Keeps.trans' (rngFlush_keeps ..)
      | with_reducible apply Keeps.trans' (rngRestart_keeps ..)
      | with_reducible apply Keeps.trans' (rngFatal_keeps ..)
      | extract_lets
      | with_reducible apply Keeps.ite
      | split
      | with_reducible refine Keeps.upd ?_ rfl rfl rfl rfl rfl rfl rfl rfl

theorem startupFails_keeps (test forming : Nat) (cells : List Nat) (s : State) :
    Keeps s (startupFails test forming cells s) :=
  Keeps.trans' (rngFailure_keeps ..) (Keeps.upd (Keeps.refl s) rfl rfl rfl rfl rfl rfl rfl rfl)

theorem deliverWord_keeps (port : Nat) (w : Word) (s : State) : Keeps s (deliverWord port w s) := by
  unfold deliverWord
  repeat'
    first
      | with_reducible exact Keeps.refl _
      | with_reducible apply Keeps.trans' (emit_keeps ..)
      | extract_lets
      | with_reducible apply Keeps.ite
      | split
      | with_reducible refine Keeps.upd ?_ rfl rfl rfl rfl rfl rfl rfl rfl

theorem takeWord_keeps {w} {t : State} {s : State} (h : takeWord s = some (w, t)) : Keeps s t := by
  unfold takeWord at h
  dsimp only at h
  split at h
  · cases h
  · cases h
    exact Keeps.upd (Keeps.refl s) rfl rfl rfl rfl rfl rfl rfl rfl

/-- A word taken only while the generator runs. -/
theorem takeWordIf_keeps {c : Prop} [Decidable c] {w} {t : State} {s : State}
    (h : (if c then takeWord s else none) = some (w, t)) : Keeps s t := by
  split at h
  · exact takeWord_keeps h
  · cases h

theorem serveWaiting_keeps (x0 : Nat) (s : State) : Keeps s (serveWaiting x0 s) := by
  induction x0 generalizing s with
  | zero => exact Keeps.refl s
  | succ n ih =>
    unfold serveWaiting
    split
    · exact Keeps.refl s
    · have k := takeWord_keeps ‹_›
      split
      · refine Keeps.trans' (ih _) (Keeps.trans' (deliverWord_keeps ..) ?_)
        exact Keeps.upd k rfl rfl rfl rfl rfl rfl rfl rfl
      · split
        · exact Keeps.refl s
        · refine Keeps.trans' (ih _) (Keeps.trans' (swValid_keeps ..) ?_)
          exact Keeps.upd k rfl rfl rfl rfl rfl rfl rfl rfl

theorem holdRequest_keeps (port : Nat) (s : State) : Keeps s (holdRequest port s) := by
  unfold holdRequest
  repeat'
    first
      | with_reducible exact Keeps.refl _
      | with_reducible refine Keeps.pair ‹_› ?_
      | with_reducible refine Keeps.pair2 ‹_› ?_
      | extract_lets
      | with_reducible apply Keeps.ite
      | with_reducible apply Keeps.ite2
      | split
      | dsimp only
      | intro _
      | with_reducible refine Keeps.upd ?_ rfl rfl rfl rfl rfl rfl rfl rfl

theorem takeUpTo_keeps (x0 : Nat) (s : State) : Keeps s (takeUpTo x0 s).2 := by
  induction x0 generalizing s with
  | zero => exact Keeps.refl s
  | succ n ih =>
    unfold takeUpTo
    split
    · exact Keeps.refl s
    · exact (takeWord_keeps ‹_›).trans (ih _)

theorem drawWords_keeps (port : Nat) (n : Nat) (had : List Word) (s : State) : Keeps s (drawWords port n had s).2 := by
  unfold drawWords
  repeat'
    first
      | with_reducible exact Keeps.refl _
      | with_reducible refine Keeps.pair ‹_› ?_
      | with_reducible refine Keeps.pair2 ‹_› ?_
      | with_reducible apply Keeps.trans' (takeUpTo_keeps ..)
      | with_reducible apply Keeps.trans' (holdRequest_keeps ..)
      | extract_lets
      | with_reducible apply Keeps.ite
      | with_reducible apply Keeps.ite2

theorem drawSeed_keeps (s : State) : Keeps s (drawSeed s).2 := by
  unfold drawSeed
  repeat'
    first
      | with_reducible exact Keeps.refl _
      | with_reducible refine Keeps.pair ‹_› ?_
      | with_reducible refine Keeps.pair2 ‹_› ?_
      | with_reducible apply Keeps.trans' (drawWords_keeps ..)
      | extract_lets
      | with_reducible apply Keeps.ite
      | with_reducible apply Keeps.ite2
      | split
      | dsimp only
      | intro _
      | with_reducible refine Keeps.upd ?_ rfl rfl rfl rfl rfl rfl rfl rfl

theorem drawKey_keeps (s : State) : Keeps s (drawKey s).2 := by
  unfold drawKey
  repeat'
    first
      | with_reducible exact Keeps.refl _
      | with_reducible refine Keeps.pair ‹_› ?_
      | with_reducible refine Keeps.pair2 ‹_› ?_
      | with_reducible apply Keeps.trans' (drawWords_keeps ..)
      | extract_lets
      | with_reducible apply Keeps.ite
      | with_reducible apply Keeps.ite2
      | split
      | dsimp only
      | intro _
      | with_reducible refine Keeps.upd ?_ rfl rfl rfl rfl rfl rfl rfl rfl

theorem startupPasses_keeps (s : State) : Keeps s (startupPasses s) :=
  Keeps.trans (Keeps.upd (Keeps.refl s) rfl rfl rfl rfl rfl rfl rfl rfl) (rngFlag_keeps ..)

theorem bufferBlocks_keeps (held : List Digest) (s : State) : Keeps s (bufferBlocks held s) :=
  Keeps.upd (Keeps.refl s) rfl rfl rfl rfl rfl rfl rfl rfl

theorem bootWindow_keeps (s : State) : Keeps s (bootWindow s) := by
  unfold bootWindow
  extract_lets s1 n
  have k : Keeps s s1 := by
    unfold s1
    split
    · exact Keeps.refl s
    · exact Keeps.refl s
    · exact (rngRestart_keeps s).trans (startupPasses_keeps _)
    · exact startupPasses_keeps s
  clear_value s1 n
  exact (k.upd rfl rfl rfl rfl rfl rfl rfl rfl).trans (bufferBlocks_keeps ..)

theorem bootDraw_keeps (s : State) : Keeps s (bootDraw s).2 := by
  unfold bootDraw
  split
  · exact Keeps.refl s
  · exact ((Keeps.ite (bootWindow_keeps s) (Keeps.refl s)).trans (drawKey_keeps _)).trans (serveWaiting_keeps ..)

theorem rngBlock_keeps (raw : BitVec 1024) (cells : List CellTest) (s : State) : Keeps s (rngBlock raw cells s) := by
  unfold rngBlock
  extract_lets r held r1 s1
  split
  · exact Keeps.upd (Keeps.refl s) rfl rfl rfl rfl rfl rfl rfl rfl
  · exact Keeps.trans (Keeps.trans (Keeps.upd (Keeps.refl s) rfl rfl rfl rfl rfl rfl rfl rfl) (bufferBlocks_keeps ..))
      (serveWaiting_keeps ..)

theorem rngCount_keeps (rct : Nat) (apt : Nat) (s : State) : Keeps s (rngCount rct apt s) :=
  Keeps.upd (Keeps.refl s) rfl rfl rfl rfl rfl rfl rfl rfl

theorem rngSwRead_keeps (p : Path) (bytes : Nat) (s : State) : Keeps s (rngSwRead p bytes s) := by
  unfold rngSwRead
  split
  · exact swNotReady_keeps ..
  · exact swFailed_keeps ..
  · split
    · exact (takeWordIf_keeps ‹_›).trans (swValid_keeps ..)
    · exact Keeps.upd (Keeps.refl s) rfl rfl rfl rfl rfl rfl rfl rfl

theorem rngKatEntry_keeps (p : Path) (len : BitVec 8) (s : State) : Keeps s (rngKatEntry p len s) := by
  unfold rngKatEntry
  repeat'
    first
      | with_reducible exact Keeps.refl _
      | with_reducible apply Keeps.trans' (rngFlag_keeps ..)
      | with_reducible apply Keeps.trans' (rngFlush_keeps ..)
      | extract_lets
      | with_reducible apply Keeps.ite
      | split
      | with_reducible refine Keeps.upd ?_ rfl rfl rfl rfl rfl rfl rfl rfl

theorem rngKatExit_keeps (p : Path) (len : BitVec 8) (s : State) : Keeps s (rngKatExit p len s) := by
  unfold rngKatExit
  repeat'
    first
      | with_reducible exact Keeps.refl _
      | with_reducible apply Keeps.trans' (rngFlag_keeps ..)
      | with_reducible apply Keeps.trans' (rngRestart_keeps ..)
      | extract_lets
      | with_reducible apply Keeps.ite
      | split
      | with_reducible refine Keeps.upd ?_ rfl rfl rfl rfl rfl rfl rfl rfl

theorem rngKatHash_keeps (len : BitVec 8) (s : State) : Keeps s (rngKatHash len s) :=
  Keeps.trans (Keeps.upd (Keeps.refl s) rfl rfl rfl rfl rfl rfl rfl rfl) (rngFlag_keeps ..)

theorem rngKatGo_keeps (p : Path) (len : BitVec 8) (s : State) : Keeps s (rngKatGo p len s) :=
  Keeps.ite (rngKatHash_keeps ..) (rngKatEntry_keeps ..)

theorem rngCtrlWrite_keeps (p : Path) (v : Word) (s : State) : Keeps s (rngCtrlWrite p v s) := by
  unfold rngCtrlWrite
  extract_lets len
  split
  · exact (Keeps.ite (rngKatHash_keeps ..) (Keeps.refl s)).trans (rngKatExit_keeps ..)
  · exact Keeps.ite (rngKatGo_keeps ..) (rngKatEntry_keeps ..)

/-! ## Runs -/

theorem sendJoins_keeps (p : SplitSt) (s : State) : Keeps s (sendJoins p s) := by
  unfold sendJoins
  repeat'
    first
      | with_reducible exact Keeps.refl _
      | with_reducible apply Keeps.trans' (kwSend_keeps ..)
      | with_reducible refine Keeps.trans' (Keeps.foldl (fun _ _ => ?_) ..) ?_
      | extract_lets
      | with_reducible apply Keeps.ite

theorem useModel_keeps (id : Nat) (s : State) : Keeps s (useModel id s) := by
  unfold useModel
  repeat'
    first
      | with_reducible exact Keeps.refl _
      | with_reducible apply Keeps.trans' (anlFlag_keeps ..)
      | with_reducible apply Keeps.trans' (updMdl_keeps ..)
      | extract_lets
      | with_reducible apply Keeps.ite

theorem takeWorkspace_keeps (n : Nat) (s : State) : Keeps s (takeWorkspace n s).2 := by
  unfold takeWorkspace
  repeat'
    first
      | with_reducible exact Keeps.refl _
      | with_reducible refine Keeps.pair ‹_› ?_
      | with_reducible apply Keeps.trans' (setExt_keeps ..)
      | with_reducible refine Keeps.trans' (Keeps.foldl (fun _ _ => ?_) ..) ?_

theorem initialStates_keeps (c : Cmd) (m : Model) (rep : List Byte) (seed : Quad) (s : State) :
    Keeps s (initialStates c m rep seed s).2 := by
  unfold initialStates
  repeat'
    first
      | with_reducible exact Keeps.refl _
      | with_reducible refine Keeps.pair ‹_› ?_
      | with_reducible apply Keeps.trans' (spaceRead_keeps ..)
      | extract_lets
      | with_reducible apply Keeps.ite
      | with_reducible apply Keeps.ite2
      | split

theorem readyRun_keeps (c : Cmd) (r : Run) (m : Model) (s : State) : Keeps s (readyRun c r m s) := by
  unfold readyRun
  repeat'
    first
      | with_reducible exact Keeps.refl _
      | with_reducible refine Keeps.pair ‹_› ?_
      | with_reducible apply Keeps.trans' (updCmd_keeps ..)
      | with_reducible apply Keeps.trans' (readyOrder_keeps ..)
      | with_reducible apply Keeps.trans' (lsAdmit_keeps ..)
      | with_reducible apply Keeps.trans' (sendJoins_keeps ..)
      | with_reducible apply Keeps.trans' (useModel_keeps ..)
      | with_reducible apply Keeps.trans' (takeWorkspace_keeps ..)
      | extract_lets
      | with_reducible apply Keeps.ite
      | with_reducible apply Keeps.ite2

/-- A seed drawn, or one that was given. -/
theorem drawSeedOr_keeps {c : Prop} [Decidable c] {x : Option Quad} {s : State} :
    Keeps s (if c then drawSeed s else (x, s)).2 :=
  Keeps.ite2 (drawSeed_keeps s) (Keeps.refl s)

theorem runAnneal_keeps (c : Cmd) (s : State) : Keeps s (runAnneal c s) := by
  unfold runAnneal
  extract_lets id swp rep drawn
  split
  · exact refuse_keeps ..
  split
  · exact refuse_keeps ..
  split
  · exact complete_keeps ..
  have h : Keeps s drawn.2 := drawSeedOr_keeps
  clear_value drawn
  split
  · exact h
  refine h.trans ?_
  split
  · exact (Keeps.pair ‹_› (initialStates_keeps ..)).trans (complete_keeps ..)
  · exact (Keeps.pair ‹_› (initialStates_keeps ..)).trans (readyRun_keeps ..)

theorem resume_keeps (c : Cmd) (s : State) : Keeps s (resume c s) := by
  unfold resume
  repeat'
    first
      | with_reducible exact Keeps.refl _
      | with_reducible apply Keeps.trans' (complete_keeps ..)
      | with_reducible apply Keeps.trans' (refuse_keeps ..)
      | with_reducible apply Keeps.trans' (readyRun_keeps ..)
      | extract_lets
      | with_reducible apply Keeps.ite
      | split
      | with_reducible refine Keeps.upd ?_ rfl rfl rfl rfl rfl rfl rfl rfl

theorem commitRun_keeps (c : Cmd) (m : Model) (r : Run) (s : State) : Keeps s (commitRun c m r s) := by
  unfold commitRun
  repeat'
    first
      | with_reducible exact Keeps.refl _
      | with_reducible apply Keeps.trans' (decide'_keeps ..)
      | with_reducible apply Keeps.trans' (setRun_keeps ..)
      | with_reducible apply Keeps.trans' (finishRun_keeps ..)
      | extract_lets
      | with_reducible apply Keeps.ite

theorem stopAtTurn_keeps (c : Cmd) (m : Model) (r : Run) (s : State) : Keeps s (stopAtTurn c m r s) := by
  unfold stopAtTurn
  repeat'
    first
      | with_reducible exact Keeps.refl _
      | with_reducible apply Keeps.trans' (completeDecided_keeps ..)
      | with_reducible apply Keeps.trans' (setRun_keeps ..)
      | with_reducible apply Keeps.trans' (finishPause_keeps ..)
      | extract_lets
      | with_reducible apply Keeps.ite
      | split

theorem sendPartials_keeps (r : Run) (sweep : Nat) (es : List Quad) (s : State) : Keeps s (sendPartials r sweep es s) := by
  unfold sendPartials
  repeat'
    first
      | with_reducible exact Keeps.refl _
      | with_reducible apply Keeps.trans' (splitSend_keeps ..)
      | with_reducible refine Keeps.trans' (Keeps.foldl (fun _ _ => ?_) ..) ?_

theorem startWith_keeps (c : Cmd) (m : Model) (r : Run) (es : List Quad) (s : State) : Keeps s (startWith c m r es s) := by
  unfold startWith
  repeat'
    first
      | with_reducible exact Keeps.refl _
      | with_reducible refine Keeps.pair ‹_› ?_
      | with_reducible apply Keeps.trans' (setRun_keeps ..)
      | with_reducible apply Keeps.trans' (lsForm_keeps ..)

theorem splitStart_keeps (c : Cmd) (m : Model) (r : Run) (s : State) : Keeps s (splitStart c m r s) := by
  unfold splitStart
  repeat'
    first
      | with_reducible exact Keeps.refl _
      | with_reducible refine Keeps.pair ‹_› ?_
      | with_reducible refine Keeps.pair2 ‹_› ?_
      | with_reducible apply Keeps.trans' (noteEnergies_keeps ..)
      | with_reducible apply Keeps.trans' (startWith_keeps ..)
      | with_reducible apply Keeps.trans' (setRun_keeps ..)
      | extract_lets
      | with_reducible apply Keeps.ite
      | with_reducible apply Keeps.ite2
      | split

theorem beginRun_keeps (c : Cmd) (m : Model) (r : Run) (s : State) : Keeps s (beginRun c m r s) := by
  unfold beginRun
  repeat'
    first
      | with_reducible exact Keeps.refl _
      | with_reducible refine Keeps.pair ‹_› ?_
      | with_reducible refine Keeps.pair2 ‹_› ?_
      | with_reducible apply Keeps.trans' (commitRun_keeps ..)
      | with_reducible apply Keeps.trans' (setRun_keeps ..)
      | with_reducible apply Keeps.trans' (partials_keeps ..)
      | with_reducible apply Keeps.trans' (splitStart_keeps ..)
      | with_reducible apply Keeps.trans' (sendPartials_keeps ..)
      | with_reducible apply Keeps.trans' (recompute_keeps ..)
      | with_reducible apply Keeps.trans' (startWith_keeps ..)
      | extract_lets
      | with_reducible apply Keeps.ite
      | with_reducible apply Keeps.ite2
      | split

theorem sendSpins_keeps (m : Model) (r : Run) (turn : Nat) (c : Nat) (s : State) : Keeps s (sendSpins m r turn c s) := by
  unfold sendSpins
  repeat'
    first
      | with_reducible exact Keeps.refl _
      | with_reducible refine Keeps.pair ‹_› ?_
      | with_reducible refine Keeps.pair2 ‹_› ?_
      | with_reducible apply Keeps.trans' (turn_keeps ..)
      | with_reducible apply Keeps.trans' (splitSend_keeps ..)
      | with_reducible refine Keeps.trans' (Keeps.foldl (fun _ _ => ?_) ..) ?_

theorem phaseEnds_keeps (engines : List Nat) (s : State) : Keeps s (phaseEnds engines s) := by
  unfold phaseEnds
  repeat'
    first
      | with_reducible exact Keeps.refl _
      | with_reducible apply Keeps.trans' (icuSend_keeps ..)
      | with_reducible refine Keeps.trans' (Keeps.foldl (fun _ _ => ?_) ..) ?_

theorem turnOf_keeps {w} {t : State} {m : Model} {r : Run} {s : State} (h : turnOf m r s = some (w, t)) : Keeps s t := by
  unfold turnOf at h
  extract_lets at h
  split at h
  extract_lets at h
  split at h
  · cases h
  injection h with h
  injection h with _ h
  subst h
  repeat'
    first
      | with_reducible exact Keeps.refl _
      | with_reducible apply Keeps.trans' (anlFlag_keeps ..)
      | with_reducible apply Keeps.trans' (countEval_keeps ..)
      | with_reducible apply Keeps.trans' (noteSteps_keeps ..)
      | with_reducible refine Keeps.trans' (Keeps.foldl (fun _ _ => ?_) ..) ?_
      | with_reducible apply Keeps.ite
      | with_reducible refine Keeps.upd ?_ rfl rfl rfl rfl rfl rfl rfl rfl

theorem turn_keeps (c : Cmd) (r : Run) (s : State) : Keeps s (turn c r s) := by
  unfold turn
  repeat'
    first
      | with_reducible exact Keeps.refl _
      | with_reducible refine Keeps.pair ‹_› ?_
      | with_reducible apply Keeps.trans' (failCmd_keeps ..)
      | with_reducible apply Keeps.trans' (stopAtTurn_keeps ..)
      | with_reducible apply Keeps.trans' (modelRead_keeps ..)
      | with_reducible apply Keeps.trans' (sendSpins_keeps ..)
      | with_reducible apply Keeps.trans' (turnOf_keeps ‹_›)
      | with_reducible apply Keeps.trans' (countEvals_keeps ..)
      | with_reducible apply Keeps.trans' (phaseEnds_keeps ..)
      | extract_lets
      | with_reducible apply Keeps.ite
      | with_reducible apply Keeps.ite2
      | split

theorem finalEnergies_keeps (m : Model) (r : Run) (split : Option (List Quad)) (s : State) :
    Keeps s (finalEnergies m r split s).2 := by
  unfold finalEnergies
  repeat'
    first
      | with_reducible exact Keeps.refl _
      | with_reducible apply Keeps.pair2 ‹_›
      | with_reducible refine Keeps.pair ‹_› ?_
      | with_reducible apply Keeps.trans' (anlFlag_keeps ..)
      | with_reducible apply Keeps.trans' (recompute_keeps ..)
      | extract_lets
      | with_reducible apply Keeps.ite
      | with_reducible apply Keeps.ite2
      | split
      | dsimp only
      | with_reducible refine Keeps.upd ?_ rfl rfl rfl rfl rfl rfl rfl rfl

theorem boundaryTail_keeps (c : Cmd) (m : Model) (r : Run) (s : State) : Keeps s (boundaryTail c m r s) := by
  unfold boundaryTail
  extract_lets r0 r1 a s1 stop due
  have h1 : Keeps s s1 := (Keeps.refl s).upd rfl rfl rfl rfl rfl rfl rfl rfl
  clear_value stop
  have h2 : Keeps s (if due then takeCkpt c m r0 s1 else (r0, s1)).2 :=
    Keeps.ite2 (h1.trans (takeCkpt_keeps ..)) h1
  generalize (if due then takeCkpt c m r0 s1 else (r0, s1)) = p at h2 ⊢
  split
  extract_lets
  repeat'
    first
      | with_reducible assumption
      | with_reducible apply Keeps.trans' (setRun_keeps ..)
      | with_reducible apply Keeps.trans' (finishPause_keeps ..)
      | with_reducible apply Keeps.trans' (commitRun_keeps ..)
      | with_reducible apply Keeps.trans' (stopAtTurn_keeps ..)
      | with_reducible apply Keeps.ite
      | split

theorem formPart_keeps (m : Model) (r : Run) (s : State) : Keeps s (formPart m r s).2 := by
  unfold formPart
  split
  split
  rename_i e
  exact (((countEvals_keeps ..).trans (Keeps.pair2 e (partials_keeps ..))).upd rfl rfl rfl rfl rfl rfl rfl rfl).trans
    (sendPartials_keeps ..)

theorem splitBoundary_keeps (c : Cmd) (m : Model) (r : Run) (s : State) : Keeps s (splitBoundary c m r s) := by
  unfold splitBoundary
  split
  · exact Keeps.refl s
  have h : Keeps s (if r.split.sentPartial = some r.sweep then (r, s) else formPart m r s).2 :=
    Keeps.ite2 (Keeps.refl s) (formPart_keeps m r s)
  generalize (if r.split.sentPartial = some r.sweep then (r, s) else formPart m r s) = p at h ⊢
  split
  refine h.trans ?_
  split
  · exact setRun_keeps ..
  · split
    rename_i e
    refine (Keeps.pair2 e (noteEnergies_keeps ..)).trans ?_
    split
    rename_i e
    exact (Keeps.pair e (finalEnergies_keeps ..)).trans (boundaryTail_keeps ..)

theorem sweepBoundary_keeps (c : Cmd) (r : Run) (s : State) : Keeps s (sweepBoundary c r s) := by
  unfold sweepBoundary
  repeat'
    first
      | with_reducible exact Keeps.refl _
      | with_reducible refine Keeps.pair ‹_› ?_
      | with_reducible refine Keeps.pair2 ‹_› ?_
      | with_reducible apply Keeps.trans' (modelRead_keeps ..)
      | with_reducible apply Keeps.trans' (failCmd_keeps ..)
      | with_reducible apply Keeps.trans' (splitBoundary_keeps ..)
      | with_reducible apply Keeps.trans' (finalEnergies_keeps ..)
      | with_reducible apply Keeps.trans' (boundaryTail_keeps ..)
      | extract_lets
      | with_reducible apply Keeps.ite
      | with_reducible apply Keeps.ite2
      | split

theorem bestStateCopy_keeps (c : Cmd) (r : Run) (b : Nat) (s : State) : Keeps s (bestStateCopy c r b s) := by
  unfold bestStateCopy
  repeat'
    first
      | with_reducible exact Keeps.refl _
      | with_reducible apply Keeps.trans' (setRun_keeps ..)
      | with_reducible apply Keeps.trans' (finishRun_keeps ..)
      | with_reducible apply Keeps.trans' (finishPause_keeps ..)
      | extract_lets
      | with_reducible apply Keeps.ite
      | split

/-! ## Image -/

theorem runProgram_keeps (c : Cmd) (s : State) : Keeps s (runProgram c s) := by
  unfold runProgram
  repeat'
    first
      | with_reducible exact Keeps.refl _
      | with_reducible refine Keeps.pair ‹_› ?_
      | with_reducible refine Keeps.pair2 ‹_› ?_
      | with_reducible apply Keeps.trans' (refuse_keeps ..)
      | with_reducible apply Keeps.trans' (complete_keeps ..)
      | with_reducible apply Keeps.trans' (drawSeed_keeps ..)
      | with_reducible apply Keeps.trans' (lsAdmit_keeps ..)
      | with_reducible apply Keeps.trans' (readyOrder_keeps ..)
      | with_reducible apply Keeps.trans' (updCmd_keeps ..)
      | extract_lets
      | with_reducible apply Keeps.ite
      | with_reducible apply Keeps.ite2
      | split

/-! ## Program -/

theorem setProg_keeps (k : Key) (p : Prog) (s : State) : Keeps s (setProg k p s) := by
  unfold setProg
  repeat'
    first
      | with_reducible exact Keeps.refl _
      | with_reducible apply Keeps.trans' (updCmd_keeps ..)

theorem updProg_keeps (k : Key) (f : Prog → Prog) (s : State) : Keeps s (updProg k f s) := by
  unfold updProg
  repeat'
    first
      | with_reducible exact Keeps.refl _
      | with_reducible apply Keeps.trans' (updCmd_keeps ..)

theorem preloadEntry_keeps (c : Cmd) (n : Nat) (i : Nat) (entry : List Byte) (s : State) :
    Keeps s (preloadEntry c n i entry s).2 := by
  unfold preloadEntry
  extract_lets src dst len got
  have h : Keeps s got.2 := by
    unfold got
    refine Keeps.ite2 (spadRead_keeps ..) ?_
    split
    · exact Keeps.pair ‹_› (devRead_keeps ..)
    · exact (Keeps.pair ‹_› (devRead_keeps ..)).trans (spadWrite_keeps ..)
  clear_value got
  split
  · exact h
  · exact Keeps.ite (h.trans (updEng_keeps ..)) h

theorem preloadAll_keeps (c : Cmd) (n : Nat) (i : Nat) (x0 : List (List Byte)) (s : State) :
    Keeps s (preloadAll c n i x0 s).2 := by
  fun_induction preloadAll c n i x0 s <;> repeat'
    first
      | with_reducible exact Keeps.refl _
      | with_reducible apply Keeps.trans' ‹Keeps _ _›
      | with_reducible refine Keeps.pair ‹_› ?_
      | with_reducible apply Keeps.trans' (preloadEntry_keeps ..)

theorem startEngine_keeps (p : Prog) (n : Nat) (i : Nat) (count : Nat) (s : State) : Keeps s (startEngine p n i count s) := by
  unfold startEngine
  repeat'
    first
      | with_reducible exact Keeps.refl _
      | with_reducible apply Keeps.trans' (updEng_keeps ..)

theorem copyProgram_keeps (p : Prog) (n : Nat) (s : State) : Keeps s (copyProgram p n s) := by
  unfold copyProgram
  repeat'
    first
      | with_reducible exact Keeps.refl _
      | with_reducible refine Keeps.pair ‹_› ?_
      | with_reducible refine Keeps.pair2 ‹_› ?_
      | with_reducible apply Keeps.trans' (spadWrite_keeps ..)
      | with_reducible apply Keeps.trans' (updEng_keeps ..)

theorem preloadEngines_keeps (c : Cmd) (p : Prog) (x0 : List (Nat × Nat)) (s : State) :
    Keeps s (preloadEngines c p x0 s).2 := by
  fun_induction preloadEngines c p x0 s <;> repeat'
    first
      | with_reducible exact Keeps.refl _
      | with_reducible refine Keeps.pair ‹_› ?_
      | with_reducible refine Keeps.pair2 ‹_› ?_
      | with_reducible apply Keeps.trans' ‹Keeps _ _›
      | with_reducible apply Keeps.trans' (preloadAll_keeps ..)
      | with_reducible apply Keeps.trans' (copyProgram_keeps ..)

theorem startProgram_keeps (c : Cmd) (p : Prog) (engs : List Nat) (s : State) : Keeps s (startProgram c p engs s) := by
  unfold startProgram
  repeat'
    first
      | with_reducible exact Keeps.refl _
      | with_reducible refine Keeps.pair ‹_› ?_
      | with_reducible refine Keeps.pair2 ‹_› ?_
      | with_reducible apply Keeps.trans' (setProg_keeps ..)
      | with_reducible apply Keeps.trans' (startEngine_keeps ..)
      | with_reducible refine Keeps.trans' (Keeps.foldl (fun _ _ => ?_) ..) ?_

theorem preloadEnds_keeps (c : Cmd) (p : Prog) (s : State) : Keeps s (preloadEnds c p s) := by
  unfold preloadEnds
  repeat'
    first
      | with_reducible exact Keeps.refl _
      | with_reducible refine Keeps.pair ‹_› ?_
      | with_reducible refine Keeps.pair2 ‹_› ?_
      | with_reducible apply Keeps.trans' (preloadEngines_keeps ..)
      | with_reducible apply Keeps.trans' (complete_keeps ..)
      | with_reducible apply Keeps.trans' (lsForm_keeps ..)
      | with_reducible apply Keeps.trans' (setProg_keeps ..)
      | extract_lets
      | with_reducible apply Keeps.ite
      | with_reducible apply Keeps.ite2
      | split

/-- The state in which a row runs its instruction, or leaves it. -/
theorem Go.keeps_run {a t : State} {g : Go} {x : Ectx} (h : g = .run x t) (k : Keeps a g.state) : Keeps a t := by
  subst h; exact k

theorem Go.keeps_stay {a t : State} {g : Go} (h : g = .stay t) (k : Keeps a g.state) : Keeps a t := by
  subst h; exact k

theorem fetchIns_keeps (op n : Nat) (c : Cmd) (p : Prog) (s : State) : Keeps s (fetchIns op n c p s).state := by
  unfold fetchIns
  split
  · split
    · exact (Keeps.pair ‹_› (spadRead_keeps ..)).trans (complete_keeps ..)
    · split
      · exact Keeps.pair ‹_› (spadRead_keeps ..)
      · exact Keeps.refl s
  · exact Keeps.refl s

theorem withIns_keeps (op : Nat) (n : Nat) (f : Ectx → State → State) (s : State) (hf : ∀ y0 st, Keeps st (f y0 st)) :
    Keeps s (withIns op n f s) := by
  unfold withIns
  split
  · exact Keeps.refl s
  split
  · exact (Go.keeps_run ‹_› (fetchIns_keeps ..)).trans (hf ..)
  · exact Go.keeps_stay ‹_› (fetchIns_keeps ..)

theorem goUnit_keeps (c : Cmd) (p : Prog) (n i : Nat) (s : State) : Keeps s (goUnit c p n i s).state := by
  unfold goUnit
  split <;> exact Keeps.refl s

theorem issueIns_keeps (x : Ectx) {a s s' : State} (h : Keeps a s) (h' : Keeps a s') :
    Keeps a (issueIns x s s').state := by
  unfold issueIns
  split
  · exact h
  split
  · dsimp only [Go.state]
    exact h.trans (updEng_keeps ..)
  extract_lets t
  have k : Keeps a t := h'.trans (updEng_keeps x.n _ s')
  clear_value t
  split
  · exact k.trans (goUnit_keeps ..)
  · exact k

theorem unitGo_keeps (op n : Nat) (s : State) (begins : Bool) : Keeps s (unitGo op n s begins).state := by
  unfold unitGo
  split
  · exact Keeps.refl s
  split
  · exact goUnit_keeps ..
  split
  · exact setEng_keeps ..
  split
  · exact issueIns_keeps _ (Keeps.refl s) (Go.keeps_run ‹_› (fetchIns_keeps ..))
  · exact Go.keeps_stay ‹_› (fetchIns_keeps ..)

theorem programStops_keeps (k : Key) (s : State) : Keeps s (programStops k s) :=
  Keeps.ite (completeDecided_keeps ..) (Keeps.refl s)

theorem stopProgram_keeps (k : Key) (p : Prog) (s : State) : Keeps s (stopProgram k p s) :=
  (Keeps.foldl (fun _ _ => updEng_keeps ..) p.engs s).trans (programStops_keeps ..)

theorem withUnit_keeps (op : Nat) (n : Nat) (f : Ectx → State → State) (s : State) (begins : Bool)
    (hf : ∀ y0 st, Keeps st (f y0 st)) : Keeps s (withUnit op n f s begins) := by
  unfold withUnit
  split
  · refine (Go.keeps_run ‹_› (unitGo_keeps ..)).trans ?_
    exact Keeps.ite ((hf ..).trans (programStops_keeps ..)) (hf ..)
  · exact Go.keeps_stay ‹_› (unitGo_keeps ..)

theorem beginIns_keeps (x : Ectx) (s : State) : Keeps s (beginIns x s) := by
  unfold beginIns
  repeat'
    first
      | with_reducible exact Keeps.refl _
      | with_reducible refine Keeps.pair ‹_› ?_
      | with_reducible refine Keeps.pair2 ‹_› ?_
      | with_reducible apply Keeps.trans' (updEng_keeps ..)

theorem retire_keeps (x : Ectx) (s : State) : Keeps s (retire x s) := by
  unfold retire
  repeat'
    first
      | with_reducible exact Keeps.refl _
      | with_reducible refine Keeps.pair ‹_› ?_
      | with_reducible refine Keeps.pair2 ‹_› ?_
      | with_reducible apply Keeps.trans' (updEng_keeps ..)

theorem retireWaiting_keeps (op : Nat) (n : Nat) (s : State) : Keeps s (retireWaiting op n s) := by
  unfold retireWaiting
  repeat'
    first
      | with_reducible exact Keeps.refl _
      | with_reducible refine Keeps.pair ‹_› ?_
      | with_reducible refine Keeps.pair2 ‹_› ?_
      | with_reducible apply Keeps.trans' (updEng_keeps ..)

theorem jumpTo_keeps (n : Nat) (t : Nat) (s : State) : Keeps s (jumpTo n t s) := by
  unfold jumpTo
  repeat'
    first
      | with_reducible exact Keeps.refl _
      | with_reducible apply Keeps.trans' (updEng_keeps ..)

theorem advance_keeps (n : Nat) (s : State) : Keeps s (advance n s) := by
  unfold advance
  repeat'
    first
      | with_reducible exact Keeps.refl _
      | with_reducible apply Keeps.trans' (updEng_keeps ..)

theorem writeA_keeps (n : Nat) (i : Nat) (v : Nat) (s : State) : Keeps s (writeA n i v s) := by
  unfold writeA
  repeat'
    first
      | with_reducible exact Keeps.refl _
      | with_reducible apply Keeps.trans' (updEng_keeps ..)
      | with_reducible apply Keeps.trans' (advance_keeps ..)

theorem progFault_keeps (x : Ectx) (code : Nat) (s : State) : Keeps s (progFault x code s) :=
  (updEng_keeps ..).trans (failCmd_keeps ..)

theorem readOp_keeps (x : Ectx) (d : Nat) (units : Nat) (align : Bool) (f : List Byte → State → State) (s : State)
    (hf : ∀ y0 st, Keeps st (f y0 st)) : Keeps s (readOp x d units align f s) := by
  unfold readOp
  repeat'
    first
      | with_reducible exact Keeps.refl _
      | assumption
      | with_reducible apply Keeps.trans' (hf ..)
      | with_reducible refine Keeps.pair ‹_› ?_
      | with_reducible apply Keeps.trans' (failCmd_keeps ..)
      | with_reducible apply Keeps.trans' (readSpan_keeps ..)
      | with_reducible apply Keeps.trans' (progFault_keeps ..)
      | split

theorem onGroup_keeps (x : Ectx) (f : Nat → State → State) (s : State) (hf : ∀ y0 st, Keeps st (f y0 st)) :
    Keeps s (onGroup x f s) := by
  unfold onGroup
  repeat'
    first
      | with_reducible exact Keeps.refl _
      | assumption
      | with_reducible apply Keeps.trans' (hf ..)
      | with_reducible apply Keeps.trans' (setEng_keeps ..)
      | split

theorem progCkpt_keeps (c : Cmd) (p : Prog) (s : State) : Keeps s (progCkpt c p s).2 := by
  unfold progCkpt
  repeat'
    first
      | with_reducible exact Keeps.refl _
      | with_reducible refine Keeps.pair ‹_› ?_
      | with_reducible apply Keeps.trans' (lsForm_keeps ..)

theorem commitProgram_keeps (c : Cmd) (p : Prog) (s : State) : Keeps s (commitProgram c p s) := by
  unfold commitProgram
  repeat'
    first
      | with_reducible exact Keeps.refl _
      | with_reducible refine Keeps.pair ‹_› ?_
      | with_reducible apply Keeps.trans' (freshBelow_keeps ..)
      | with_reducible apply Keeps.trans' (cmdWrite_keeps ..)
      | with_reducible apply Keeps.trans' (settle_keeps ..)
      | with_reducible apply Keeps.trans' (setProg_keeps ..)
      | with_reducible apply Keeps.trans' (progCkpt_keeps ..)
      | extract_lets
      | with_reducible apply Keeps.ite
      | with_reducible apply Keeps.ite2
      | split
      | dsimp only
      | with_reducible refine Keeps.upd ?_ rfl rfl rfl rfl rfl rfl rfl rfl

/-! ## ArrayIns -/

theorem openIn_keeps (x : Ectx) (t : Nat) (accs : List (Acc × Nat)) (s : State) : Keeps s (openIn x t accs s) := by
  unfold openIn
  repeat'
    first
      | with_reducible exact Keeps.refl _
      | with_reducible refine Keeps.pair ‹_› ?_
      | with_reducible refine Keeps.pair2 ‹_› ?_
      | with_reducible apply Keeps.trans' (retire_keeps ..)
      | with_reducible apply Keeps.trans' (updEng_keeps ..)

theorem openBegins_keeps (x : Ectx) (t : Nat) (s : State) : Keeps s (openBegins x t s) := by
  unfold openBegins
  repeat'
    first
      | with_reducible exact Keeps.refl _
      | with_reducible refine Keeps.pair ‹_› ?_
      | with_reducible refine Keeps.pair2 ‹_› ?_
      | with_reducible apply Keeps.trans' (beginIns_keeps ..)
      | with_reducible apply Keeps.trans' (updEng_keeps ..)

theorem openEnds_keeps (x : Ectx) (t : Nat) (s : State) : Keeps s (openEnds x t s) := by
  unfold openEnds
  repeat'
    first
      | with_reducible exact Keeps.refl _
      | with_reducible refine Keeps.pair ‹_› ?_
      | with_reducible refine Keeps.pair2 ‹_› ?_
      | with_reducible apply Keeps.trans' (openIn_keeps ..)
      | with_reducible apply Keeps.trans' (readOp_keeps ..)
      | extract_lets
      | with_reducible apply Keeps.ite
      | with_reducible apply Keeps.ite2
      | split
      | dsimp only
      | intro _

theorem openIns_keeps (begins : Bool) (x : Ectx) (s : State) : Keeps s (openIns begins x s) := by
  unfold openIns
  repeat'
    first
      | with_reducible exact Keeps.refl _
      | with_reducible refine Keeps.pair ‹_› ?_
      | with_reducible refine Keeps.pair2 ‹_› ?_
      | with_reducible apply Keeps.trans' (openEnds_keeps ..)
      | with_reducible apply Keeps.trans' (progFault_keeps ..)
      | with_reducible apply Keeps.trans' (setEng_keeps ..)
      | with_reducible apply Keeps.trans' (openBegins_keeps ..)
      | extract_lets
      | with_reducible apply Keeps.ite
      | with_reducible apply Keeps.ite2
      | split

theorem mmaEnds_keeps (x : Ectx) (t : Nat) (s : State) : Keeps s (mmaEnds x t s) := by
  unfold mmaEnds
  repeat'
    first
      | with_reducible exact Keeps.refl _
      | with_reducible refine Keeps.pair ‹_› ?_
      | with_reducible refine Keeps.pair2 ‹_› ?_
      | with_reducible apply Keeps.trans' (readOp_keeps ..)
      | with_reducible apply Keeps.trans' (addSteps_keeps ..)
      | with_reducible apply Keeps.trans' (retire_keeps ..)
      | with_reducible apply Keeps.trans' (updEng_keeps ..)
      | extract_lets
      | with_reducible apply Keeps.ite
      | with_reducible apply Keeps.ite2
      | split
      | dsimp only
      | intro _

theorem mmaIns_keeps (begins : Bool) (x : Ectx) (s : State) : Keeps s (mmaIns begins x s) := by
  unfold mmaIns
  repeat'
    first
      | with_reducible exact Keeps.refl _
      | with_reducible refine Keeps.pair ‹_› ?_
      | with_reducible refine Keeps.pair2 ‹_› ?_
      | with_reducible apply Keeps.trans' (mmaEnds_keeps ..)
      | with_reducible apply Keeps.trans' (progFault_keeps ..)
      | with_reducible apply Keeps.trans' (onGroup_keeps ..)
      | with_reducible apply Keeps.trans' (beginIns_keeps ..)
      | with_reducible apply Keeps.trans' (updEng_keeps ..)
      | extract_lets
      | with_reducible apply Keeps.ite
      | with_reducible apply Keeps.ite2
      | split
      | dsimp only
      | intro _

theorem drainBegins_keeps (x : Ectx) (t : Nat) (s : State) : Keeps s (drainBegins x t s) := by
  unfold drainBegins
  repeat'
    first
      | with_reducible exact Keeps.refl _
      | with_reducible refine Keeps.pair ‹_› ?_
      | with_reducible refine Keeps.pair2 ‹_› ?_
      | with_reducible apply Keeps.trans' (beginIns_keeps ..)
      | with_reducible apply Keeps.trans' (updEng_keeps ..)

theorem drainEnds_keeps (x : Ectx) (s : State) : Keeps s (drainEnds x s) := by
  unfold drainEnds
  repeat'
    first
      | with_reducible exact Keeps.refl _
      | with_reducible refine Keeps.pair ‹_› ?_
      | with_reducible refine Keeps.pair2 ‹_› ?_
      | with_reducible apply Keeps.trans' (writeSpan_keeps ..)
      | with_reducible apply Keeps.trans' (retire_keeps ..)
      | with_reducible apply Keeps.trans' (updEng_keeps ..)
      | with_reducible apply Keeps.trans' (countClose_keeps ..)
      | with_reducible apply Keeps.trans' (progFault_keeps ..)
      | extract_lets
      | with_reducible apply Keeps.ite
      | with_reducible apply Keeps.ite2
      | split

theorem drainIns_keeps (begins : Bool) (x : Ectx) (s : State) : Keeps s (drainIns begins x s) := by
  unfold drainIns
  repeat'
    first
      | with_reducible exact Keeps.refl _
      | with_reducible refine Keeps.pair ‹_› ?_
      | with_reducible refine Keeps.pair2 ‹_› ?_
      | with_reducible apply Keeps.trans' (drainEnds_keeps ..)
      | with_reducible apply Keeps.trans' (progFault_keeps ..)
      | with_reducible apply Keeps.trans' (onGroup_keeps ..)
      | with_reducible apply Keeps.trans' (drainBegins_keeps ..)
      | extract_lets
      | with_reducible apply Keeps.ite
      | with_reducible apply Keeps.ite2
      | split
      | dsimp only
      | intro _

theorem sampleEnds_keeps (x : Ectx) (s : State) : Keeps s (sampleEnds x s) := by
  unfold sampleEnds
  repeat'
    first
      | with_reducible exact Keeps.refl _
      | with_reducible refine Keeps.pair ‹_› ?_
      | with_reducible refine Keeps.pair2 ‹_› ?_
      | with_reducible apply Keeps.trans' (writeSpan_keeps ..)
      | with_reducible apply Keeps.trans' (retire_keeps ..)
      | with_reducible apply Keeps.trans' (updEng_keeps ..)
      | with_reducible apply Keeps.trans' (countClose_keeps ..)
      | with_reducible apply Keeps.trans' (progFault_keeps ..)
      | with_reducible refine Keeps.trans' (Keeps.foldl (fun _ _ => ?_) ..) ?_
      | extract_lets
      | with_reducible apply Keeps.ite
      | with_reducible apply Keeps.ite2
      | split

theorem sampleIns_keeps (begins : Bool) (x : Ectx) (s : State) : Keeps s (sampleIns begins x s) := by
  unfold sampleIns
  repeat'
    first
      | with_reducible exact Keeps.refl _
      | with_reducible refine Keeps.pair ‹_› ?_
      | with_reducible refine Keeps.pair2 ‹_› ?_
      | with_reducible apply Keeps.trans' (sampleEnds_keeps ..)
      | with_reducible apply Keeps.trans' (progFault_keeps ..)
      | with_reducible apply Keeps.trans' (onGroup_keeps ..)
      | with_reducible apply Keeps.trans' (drainBegins_keeps ..)
      | extract_lets
      | with_reducible apply Keeps.ite
      | with_reducible apply Keeps.ite2
      | split
      | dsimp only
      | intro _

theorem discardIns_keeps (x : Ectx) (s : State) : Keeps s (discardIns x s) := by
  unfold discardIns
  repeat'
    first
      | with_reducible exact Keeps.refl _
      | with_reducible refine Keeps.pair ‹_› ?_
      | with_reducible refine Keeps.pair2 ‹_› ?_
      | with_reducible apply Keeps.trans' (progFault_keeps ..)
      | with_reducible apply Keeps.trans' (retire_keeps ..)
      | with_reducible apply Keeps.trans' (updEng_keeps ..)
      | extract_lets
      | with_reducible apply Keeps.ite
      | with_reducible apply Keeps.ite2
      | split

theorem redEnds_keeps (x : Ectx) (parts : List Nat) (waits : List RedWait) (s : State) : Keeps s (redEnds x parts waits s) := by
  unfold redEnds
  repeat'
    first
      | with_reducible exact Keeps.refl _
      | with_reducible refine Keeps.pair ‹_› ?_
      | with_reducible refine Keeps.pair2 ‹_› ?_
      | with_reducible apply Keeps.trans' (progFault_keeps ..)
      | with_reducible apply Keeps.trans' (updProg_keeps ..)
      | with_reducible apply Keeps.trans' (updEng_keeps ..)
      | with_reducible apply Keeps.trans' (retireWaiting_keeps ..)
      | with_reducible refine Keeps.trans' (Keeps.foldl (fun _ _ => ?_) ..) ?_
      | extract_lets
      | with_reducible apply Keeps.ite

theorem redIns_keeps (x : Ectx) (s : State) : Keeps s (redIns x s) := by
  unfold redIns
  repeat'
    first
      | with_reducible exact Keeps.refl _
      | with_reducible refine Keeps.pair ‹_› ?_
      | with_reducible refine Keeps.pair2 ‹_› ?_
      | with_reducible apply Keeps.trans' (progFault_keeps ..)
      | with_reducible apply Keeps.trans' (onGroup_keeps ..)
      | with_reducible apply Keeps.trans' (updProg_keeps ..)
      | with_reducible apply Keeps.trans' (beginIns_keeps ..)
      | with_reducible apply Keeps.trans' (updEng_keeps ..)
      | with_reducible apply Keeps.trans' (redEnds_keeps ..)
      | extract_lets
      | with_reducible apply Keeps.ite
      | with_reducible apply Keeps.ite2
      | split
      | dsimp only
      | intro _

theorem parkLost_keeps (n : Nat) (g : Nat) (s : State) : Keeps s (parkLost n g s) := by
  unfold parkLost
  extract_lets a s1 s2
  have k1 : Keeps s s1 := Keeps.trans (Keeps.upd (Keeps.refl s) rfl rfl rfl rfl rfl rfl rfl rfl) (arrFlag_keeps ..)
  have k : Keeps s s2 := k1.trans (updEng_keeps n _ s1)
  clear_value s2
  split
  · split
    · exact k.trans (failCmd_keeps ..)
    · exact k
  · exact k

end Sys2Proof.Machine
end

