-- ==== Sys2Proof/Laws/KeepsHost.lean ====
section
/-! SUPPORT. Streams, queues, boot steps, links, power, services and registers keep what Laws/Keeps.lean lists. -/

namespace Sys2Proof.Machine

/-! ## Blotter -/

theorem bbPut_keeps (e : Event) (s : State) : Keeps s (bbPut e s) := by
  unfold bbPut
  repeat'
    first
      | with_reducible exact Keeps.refl _
      | with_reducible apply Keeps.trans' (bbFlag_keeps ..)
      | extract_lets
      | with_reducible apply Keeps.ite
      | split
      | with_reducible refine Keeps.upd ?_ rfl rfl rfl rfl rfl rfl rfl rfl

theorem setRate_keeps (code : Nat) (w : Nat) (n : Nat) (s : State) : Keeps s (setRate code w n s) :=
  Keeps.upd (Keeps.refl s) rfl rfl rfl rfl rfl rfl rfl rfl

theorem blotterStep_keeps (s : State) : Keeps s (blotterStep s) := by
  unfold blotterStep
  repeat'
    first
      | with_reducible exact Keeps.refl _
      | with_reducible apply Keeps.trans' (bbPut_keeps ..)
      | with_reducible apply Keeps.trans' (setRate_keeps ..)
      | extract_lets
      | with_reducible apply Keeps.ite
      | split
      | with_reducible refine Keeps.upd ?_ rfl rfl rfl rfl rfl rfl rfl rfl

theorem blotterFlush_keeps (x0 : Nat) (s : State) : Keeps s (blotterFlush x0 s) := by
  fun_induction blotterFlush x0 s <;> repeat'
    first
      | with_reducible exact Keeps.refl _
      | with_reducible apply Keeps.trans' ‹Keeps _ _›
      | with_reducible refine Keeps.pair ‹_› ?_
      | with_reducible apply Keeps.trans' (blotterStep_keeps ..)

theorem blotterScan_keeps (s : State) : Keeps s (blotterScan s) := by
  unfold blotterScan
  repeat'
    first
      | with_reducible exact Keeps.refl _
      | with_reducible refine Keeps.trans' (Keeps.foldl (fun _ _ => ?_) ..) ?_
      | extract_lets
      | with_reducible refine Keeps.upd ?_ rfl rfl rfl rfl rfl rfl rfl rfl

/-! ## Reset -/

theorem setSlot_keeps (i : Nat) (x : Slot) (s : State) : Keeps s (setSlot i x s) := by
  unfold setSlot
  repeat'
    first
      | with_reducible exact Keeps.refl _
      | with_reducible apply Keeps.ite
      | split
      | with_reducible refine Keeps.upd ?_ rfl rfl rfl rfl rfl rfl rfl rfl

theorem readDir_keeps (s : State) : Keeps s (readDir s) := by
  unfold readDir
  repeat'
    first
      | with_reducible exact Keeps.refl _
      | with_reducible refine Keeps.pair ‹_› ?_
      | with_reducible refine Keeps.pair2 ‹_› ?_
      | extract_lets
      | with_reducible apply Keeps.ite
      | with_reducible apply Keeps.ite2
      | split
      | dsimp only
      | with_reducible refine Keeps.upd ?_ rfl rfl rfl rfl rfl rfl rfl rfl

theorem setSlotState_keeps (i : Nat) (st : SlotState) (s : State) : Keeps s (setSlotState i st s) := by
  unfold setSlotState
  repeat'
    first
      | with_reducible exact Keeps.refl _
      | with_reducible apply Keeps.trans' (setSlot_keeps ..)

theorem rejectOld_keeps (s : State) : Keeps s (rejectOld s) := by
  unfold rejectOld
  repeat'
    first
      | with_reducible exact Keeps.refl _
      | with_reducible apply Keeps.trans' (setSlotState_keeps ..)
      | with_reducible apply Keeps.ite
      | split

/-! ## Icu -/

theorem setSrc_keeps (n : Nat) (x : Src) (s : State) : Keeps s (setSrc n x s) :=
  Keeps.upd (Keeps.refl s) rfl rfl rfl rfl rfl rfl rfl rfl

theorem updSrc_keeps (n : Nat) (f : Src → Src) (s : State) : Keeps s (updSrc n f s) :=
  setSrc_keeps ..

theorem setTgt_keeps (t : Nat) (x : Tgt) (s : State) : Keeps s (setTgt t x s) :=
  Keeps.upd (Keeps.refl s) rfl rfl rfl rfl rfl rfl rfl rfl

theorem updTgt_keeps (t : Nat) (f : Tgt → Tgt) (s : State) : Keeps s (updTgt t f s) :=
  setTgt_keeps ..

theorem hostForward_keeps (n : Nat) (s : State) : Keeps s (hostForward n s) := by
  unfold hostForward
  repeat'
    first
      | with_reducible exact Keeps.refl _
      | with_reducible apply Keeps.trans' (sendMsix_keeps ..)
      | with_reducible apply Keeps.ite

theorem icuSet_keeps (n : Nat) (s : State) : Keeps s (icuSet n s) := by
  unfold icuSet
  repeat'
    first
      | with_reducible exact Keeps.refl _
      | with_reducible apply Keeps.trans' (updSrc_keeps ..)
      | with_reducible apply Keeps.trans' (hostForward_keeps ..)
      | split
      | with_reducible refine Keeps.upd ?_ rfl rfl rfl rfl rfl rfl rfl rfl

theorem icuClear_keeps (n : Nat) (s : State) : Keeps s (icuClear n s) := by
  unfold icuClear
  repeat'
    first
      | with_reducible exact Keeps.refl _
      | with_reducible apply Keeps.trans' (updSrc_keeps ..)
      | split

theorem icuWithdraw_keeps (n : Nat) (s : State) : Keeps s (icuWithdraw n s) := by
  unfold icuWithdraw
  repeat'
    first
      | with_reducible exact Keeps.refl _
      | with_reducible apply Keeps.trans' (updSrc_keeps ..)

theorem deliverTo_keeps (n : Nat) (t : Nat) (s : State) : Keeps s (deliverTo n t s) := by
  unfold deliverTo
  repeat'
    first
      | with_reducible exact Keeps.refl _
      | with_reducible apply Keeps.trans' (updSrc_keeps ..)
      | extract_lets
      | with_reducible apply Keeps.ite
      | split
      | with_reducible refine Keeps.upd ?_ rfl rfl rfl rfl rfl rfl rfl rfl

theorem wakeFor_keeps (n : Nat) (s : State) : Keeps s (wakeFor n s) := by
  unfold wakeFor
  repeat'
    first
      | with_reducible exact Keeps.refl _
      | with_reducible apply Keeps.trans' (updTgt_keeps ..)
      | extract_lets
      | split
      | with_reducible refine Keeps.upd ?_ rfl rfl rfl rfl rfl rfl rfl rfl

theorem icuDeliver_keeps (s : State) : Keeps s (icuDeliver s) := by
  unfold icuDeliver
  repeat'
    first
      | with_reducible exact Keeps.refl _
      | with_reducible apply Keeps.trans' (deliverTo_keeps ..)
      | with_reducible apply Keeps.trans' (wakeFor_keeps ..)
      | extract_lets
      | split

theorem icuClaim_keeps (t : Nat) (s : State) : Keeps s (icuClaim t s).2 := by
  unfold icuClaim
  repeat'
    first
      | with_reducible exact Keeps.refl _
      | with_reducible refine Keeps.pair ‹_› ?_
      | with_reducible apply Keeps.trans' (icuFlag_keeps ..)
      | with_reducible apply Keeps.trans' (updSrc_keeps ..)
      | with_reducible apply Keeps.trans' (updTgt_keeps ..)
      | extract_lets
      | split
      | dsimp only
      | with_reducible refine Keeps.upd ?_ rfl rfl rfl rfl rfl rfl rfl rfl

theorem icuComplete_keeps (t : Nat) (n : Nat) (s : State) : Keeps s (icuComplete t n s) := by
  unfold icuComplete
  repeat'
    first
      | with_reducible exact Keeps.refl _
      | with_reducible apply Keeps.trans' (icuFlag_keeps ..)
      | with_reducible apply Keeps.trans' (updSrc_keeps ..)
      | with_reducible apply Keeps.trans' (updTgt_keeps ..)
      | extract_lets
      | with_reducible apply Keeps.ite
      | split
      | with_reducible refine Keeps.upd ?_ rfl rfl rfl rfl rfl rfl rfl rfl

theorem icuDenied_keeps (s : State) : Keeps s (icuDenied s) := by
  unfold icuDenied
  repeat'
    first
      | with_reducible exact Keeps.refl _
      | with_reducible apply Keeps.trans' (icuFlag_keeps ..)
      | with_reducible refine Keeps.upd ?_ rfl rfl rfl rfl rfl rfl rfl rfl

theorem icuWrite_keeps (path : Path) (f : State → State) (s : State) (hf : ∀ st, Keeps st (f st)) :
    Keeps s (icuWrite path f s) := by
  unfold icuWrite
  repeat'
    first
      | with_reducible exact Keeps.refl _
      | assumption
      | with_reducible apply Keeps.trans' (hf ..)
      | with_reducible apply Keeps.trans' (icuDenied_keeps ..)
      | with_reducible apply Keeps.ite
      | split

theorem icuPendSet_keeps (w : Nat) (mask : Word) (s : State) : Keeps s (icuPendSet w mask s) := by
  unfold icuPendSet
  repeat'
    first
      | with_reducible exact Keeps.refl _
      | with_reducible apply Keeps.trans' (icuSet_keeps ..)
      | with_reducible refine Keeps.trans' (Keeps.foldl (fun _ _ => ?_) ..) ?_

theorem icuPendClr_keeps (w : Nat) (mask : Word) (s : State) : Keeps s (icuPendClr w mask s) := by
  unfold icuPendClr
  repeat'
    first
      | with_reducible exact Keeps.refl _
      | with_reducible apply Keeps.trans' (icuClear_keeps ..)
      | with_reducible refine Keeps.trans' (Keeps.foldl (fun _ _ => ?_) ..) ?_

theorem icuEnSet_keeps (w : Nat) (mask : Word) (s : State) : Keeps s (icuEnSet w mask s) := by
  unfold icuEnSet
  repeat'
    first
      | with_reducible exact Keeps.refl _
      | with_reducible apply Keeps.trans' (updSrc_keeps ..)
      | with_reducible refine Keeps.trans' (Keeps.foldl (fun _ _ => ?_) ..) ?_

theorem icuEnClr_keeps (w : Nat) (mask : Word) (s : State) : Keeps s (icuEnClr w mask s) := by
  unfold icuEnClr
  repeat'
    first
      | with_reducible exact Keeps.refl _
      | with_reducible apply Keeps.trans' (updSrc_keeps ..)
      | with_reducible apply Keeps.trans' (icuWithdraw_keeps ..)
      | with_reducible refine Keeps.trans' (Keeps.foldl (fun _ _ => ?_) ..) ?_

theorem icuTCtrl_keeps (t : Nat) (v : Word) (s : State) : Keeps s (icuTCtrl t v s) := by
  unfold icuTCtrl
  repeat'
    first
      | with_reducible exact Keeps.refl _
      | with_reducible apply Keeps.trans' (updTgt_keeps ..)
      | with_reducible apply Keeps.trans' (icuWithdraw_keeps ..)
      | with_reducible refine Keeps.trans' (Keeps.foldl (fun _ _ => ?_) ..) ?_

theorem icuSrcCfg_keeps (n : Nat) (v : Word) (s : State) : Keeps s (icuSrcCfg n v s) := by
  unfold icuSrcCfg
  repeat'
    first
      | with_reducible exact Keeps.refl _
      | with_reducible apply Keeps.trans' (updSrc_keeps ..)
      | with_reducible apply Keeps.trans' (icuWithdraw_keeps ..)
      | extract_lets
      | with_reducible apply Keeps.ite

theorem icuBoot_keeps (s : State) : Keeps s (icuBoot s) := by
  unfold icuBoot
  repeat'
    first
      | with_reducible exact Keeps.refl _
      | with_reducible apply Keeps.trans' (updSrc_keeps ..)
      | with_reducible apply Keeps.trans' (updTgt_keeps ..)
      | with_reducible refine Keeps.trans' (Keeps.foldl (fun _ _ => ?_) ..) ?_

/-! ## Ingest -/

theorem rxFrame_keeps (p : Nat) (s : State) : Keeps s (rxFrame p s) := by
  unfold rxFrame
  repeat'
    first
      | with_reducible exact Keeps.refl _
      | with_reducible apply Keeps.trans' (updPrt_keeps ..)

theorem dropIp_keeps (p : Nat) (s : State) : Keeps s (dropIp p s) :=
  updPrt_keeps ..

theorem jobDrop_keeps (p : Nat) (s : State) : Keeps s (jobDrop p s) :=
  updPrt_keeps ..

theorem addrReply_keeps (p : Nat) (src : NetAddr) (tags : List Word) (v6 : Bool) (own : Bool) (s : State) :
    Keeps s (addrReply p src tags v6 own s) := by
  unfold addrReply
  repeat'
    first
      | with_reducible exact Keeps.refl _
      | with_reducible refine Keeps.pair ‹_› ?_
      | with_reducible refine Keeps.pair2 ‹_› ?_
      | with_reducible apply Keeps.trans' (rxFrame_keeps ..)
      | with_reducible apply Keeps.trans' (dropIp_keeps ..)
      | with_reducible apply Keeps.trans' (emit_keeps ..)
      | extract_lets
      | with_reducible apply Keeps.ite

theorem setStrm_keeps (i : Nat) (x : Stream) (s : State) : Keeps s (setStrm i x s) :=
  Keeps.upd (Keeps.refl s) rfl rfl rfl rfl rfl rfl rfl rfl

theorem updStrm_keeps (i : Nat) (f : Stream → Stream) (s : State) : Keeps s (updStrm i f s) :=
  setStrm_keeps ..

theorem writeProd_keeps (i : Nat) (s : State) : Keeps s (writeProd i s) := by
  unfold writeProd
  repeat'
    first
      | with_reducible exact Keeps.refl _
      | with_reducible refine Keeps.pair ‹_› ?_
      | with_reducible apply Keeps.trans' (devWrite_keeps ..)

theorem ringPut_keeps (i : Nat) (bytes : List Byte) (len : Nat) (s : State) : Keeps s (ringPut i bytes len s) := by
  unfold ringPut
  repeat'
    first
      | with_reducible exact Keeps.refl _
      | with_reducible refine Keeps.pair ‹_› ?_
      | with_reducible apply Keeps.trans' (devWrite_keeps ..)
      | with_reducible apply Keeps.trans' (updStrm_keeps ..)
      | with_reducible apply Keeps.trans' (writeProd_keeps ..)

theorem putGap_keeps (i : Nat) (s : State) : Keeps s (putGap i s) := by
  unfold putGap
  repeat'
    first
      | with_reducible exact Keeps.refl _
      | with_reducible apply Keeps.trans' (ingFlag_keeps ..)
      | with_reducible apply Keeps.trans' (updStrm_keeps ..)
      | with_reducible apply Keeps.trans' (ringPut_keeps ..)
      | extract_lets
      | with_reducible apply Keeps.ite

theorem ringRoom_keeps (i : Nat) (s : State) : Keeps s (ringRoom i s).2 := by
  unfold ringRoom
  repeat'
    first
      | with_reducible exact Keeps.refl _
      | with_reducible refine Keeps.pair ‹_› ?_
      | with_reducible apply Keeps.trans' (devRead_keeps ..)
      | extract_lets
      | split

theorem commitFrame_keeps (i : Nat) (f : CapFrame) (s : State) : Keeps s (commitFrame i f s) := by
  unfold commitFrame
  repeat'
    first
      | with_reducible exact Keeps.refl _
      | with_reducible refine Keeps.pair ‹_› ?_
      | with_reducible apply Keeps.trans' (complete_keeps ..)
      | with_reducible apply Keeps.trans' (updStrm_keeps ..)
      | with_reducible apply Keeps.trans' (ringPut_keeps ..)
      | with_reducible apply Keeps.trans' (putGap_keeps ..)
      | with_reducible apply Keeps.trans' (ringRoom_keeps ..)
      | extract_lets
      | with_reducible apply Keeps.ite

theorem finishStop_keeps (i : Nat) (s : State) : Keeps s (finishStop i s) := by
  unfold finishStop
  repeat'
    first
      | with_reducible exact Keeps.refl _
      | with_reducible apply Keeps.trans' (ingFlag_keeps ..)
      | with_reducible apply Keeps.trans' (updStrm_keeps ..)
      | with_reducible apply Keeps.trans' (ringPut_keeps ..)
      | with_reducible apply Keeps.trans' (putGap_keeps ..)
      | extract_lets
      | with_reducible apply Keeps.ite

theorem streamEnable_keeps (i : Nat) (v : Nat) (s : State) : Keeps s (streamEnable i v s) := by
  unfold streamEnable
  repeat'
    first
      | with_reducible exact Keeps.refl _
      | with_reducible apply Keeps.trans' (ingFlag_keeps ..)
      | with_reducible apply Keeps.trans' (complete_keeps ..)
      | with_reducible apply Keeps.trans' (updStrm_keeps ..)
      | with_reducible apply Keeps.trans' (writeProd_keeps ..)
      | extract_lets
      | with_reducible apply Keeps.ite
      | split

theorem streamStop_keeps (i : Nat) (v : Nat) (s : State) : Keeps s (streamStop i v s) := by
  unfold streamStop
  repeat'
    first
      | with_reducible exact Keeps.refl _
      | with_reducible apply Keeps.trans' (updStrm_keeps ..)
      | with_reducible apply Keeps.trans' (finishStop_keeps ..)
      | with_reducible refine Keeps.trans' (Keeps.foldl (fun _ _ => ?_) ..) ?_
      | split

theorem replyRecords_keeps (q : Nat) (x0 : Nat) (x1 : Word) (s : State) : Keeps s (replyRecords q x0 x1 s).2 := by
  fun_induction replyRecords q x0 x1 s <;> repeat'
    first
      | with_reducible exact Keeps.refl _
      | with_reducible apply Keeps.trans' ‹Keeps _ _›
      | with_reducible refine Keeps.pair ‹_› ?_
      | with_reducible apply Keeps.trans' (ringRead_keeps ..)

theorem jobReply_keeps (from' : JobSrc) (h : JobHdr) (result : Nat) (s : State) : Keeps s (jobReply from' h result s) := by
  unfold jobReply
  repeat'
    first
      | with_reducible exact Keeps.refl _
      | with_reducible refine Keeps.pair ‹_› ?_
      | with_reducible apply Keeps.trans' (kwSend_keeps ..)
      | with_reducible apply Keeps.trans' (sendReply_keeps ..)
      | with_reducible apply Keeps.trans' (replyRecords_keeps ..)
      | extract_lets
      | split

theorem writeEntries_keeps {t : State} {q : Nat} {x0 : List Nat} {x1 : Word} {x2 : List Byte} {s : State}
    (h : writeEntries q x0 x1 x2 s = some t) : Keeps s t := by
  induction x0 generalizing x1 s with
  | nil =>
    cases h
    exact Keeps.refl _
  | cons i is ih =>
    rw [writeEntries] at h
    split at h
    · exact (Keeps.pair ‹_› (ringWrite_keeps ..)).trans (ih h)
    · cases h

theorem jobRun_keeps (from' : JobSrc) (b : List Byte) (s : State) : Keeps s (jobRun from' b s) := by
  unfold jobRun
  repeat'
    first
      | with_reducible exact Keeps.refl _
      | with_reducible apply Keeps.trans' (writeEntries_keeps ‹_›)
      | with_reducible refine Keeps.pair ‹_› ?_
      | with_reducible refine Keeps.pair2 ‹_› ?_
      | with_reducible apply Keeps.trans' (jobReply_keeps ..)
      | with_reducible apply Keeps.trans' (cqDoorbell_keeps ..)
      | with_reducible apply Keeps.trans' (sqDoorbell_keeps ..)
      | with_reducible apply Keeps.trans' (updQue_keeps ..)
      | extract_lets
      | with_reducible apply Keeps.ite
      | with_reducible apply Keeps.ite2
      | split

theorem relayJob_keeps (d : Datagram) (l : Nat) (s : State) : Keeps s (relayJob d l s) := by
  unfold relayJob
  repeat'
    first
      | with_reducible exact Keeps.refl _
      | with_reducible apply Keeps.trans' (kwSend_keeps ..)
      | with_reducible apply Keeps.trans' (jobDrop_keeps ..)
      | extract_lets
      | with_reducible apply Keeps.ite
      | split
      | with_reducible refine Keeps.upd ?_ rfl rfl rfl rfl rfl rfl rfl rfl

theorem jobFrame_keeps (d : Datagram) (s : State) : Keeps s (jobFrame d s) := by
  unfold jobFrame
  repeat'
    first
      | with_reducible exact Keeps.refl _
      | with_reducible refine Keeps.pair ‹_› ?_
      | with_reducible refine Keeps.pair2 ‹_› ?_
      | with_reducible apply Keeps.trans' (rxFrame_keeps ..)
      | with_reducible apply Keeps.trans' (dropIp_keeps ..)
      | with_reducible apply Keeps.trans' (jobDrop_keeps ..)
      | with_reducible apply Keeps.trans' (icuSend_keeps ..)
      | with_reducible apply Keeps.trans' (relayJob_keeps ..)
      | with_reducible apply Keeps.trans' (jobRun_keeps ..)
      | with_reducible apply Keeps.trans' (updQue_keeps ..)
      | extract_lets
      | with_reducible apply Keeps.ite
      | with_reducible apply Keeps.ite2
      | split

/-! ## Queues -/

theorem createQueue_keeps {t : State} {d : List Byte} {s : State} (h : createQueue d s = .ok t) : Keeps s t := by
  unfold createQueue at h
  split at h
  · cases h
  split at h
  · cases h
  cases h
  exact setQue_keeps ..

theorem queueCreate_keeps (c : Cmd) (s : State) : Keeps s (queueCreate c s) := by
  unfold queueCreate
  repeat'
    first
      | with_reducible exact Keeps.refl _
      | with_reducible apply Keeps.trans' (createQueue_keeps ‹_›)
      | with_reducible refine Keeps.pair ‹_› ?_
      | with_reducible refine Keeps.pair2 ‹_› ?_
      | with_reducible apply Keeps.trans' (refuse_keeps ..)
      | with_reducible apply Keeps.trans' (commitOk_keeps ..)
      | extract_lets
      | with_reducible apply Keeps.ite
      | with_reducible apply Keeps.ite2
      | split

theorem stopUnstarted_keeps (t : Cmd) (d : Decision) (s : State) : Keeps s (stopUnstarted t d s) := by
  unfold stopUnstarted
  repeat'
    first
      | with_reducible exact Keeps.refl _
      | with_reducible apply Keeps.trans' (complete_keeps ..)

theorem stopRunning_keeps (t : Cmd) (d : Decision) (p : Option PauseReq) (s : State) : Keeps s (stopRunning t d p s) := by
  unfold stopRunning
  repeat'
    first
      | with_reducible exact Keeps.refl _
      | with_reducible apply Keeps.trans' (stopProgram_keeps ..)
      | with_reducible apply Keeps.trans' (decide'_keeps ..)
      | with_reducible apply Keeps.trans' (updCmd_keeps ..)
      | with_reducible apply Keeps.trans' (complete_keeps ..)
      | with_reducible apply Keeps.trans' (loadFails_keeps ..)
      | with_reducible apply Keeps.trans' (stopAtTurn_keeps ..)
      | extract_lets
      | with_reducible apply Keeps.ite
      | split

theorem watch_keeps (c : Cmd) (t : Key) (pause : Bool) (detail : Nat) (value : Nat) (s : State) :
    Keeps s (watch c t pause detail value s) := by
  unfold watch
  repeat'
    first
      | with_reducible exact Keeps.refl _
      | with_reducible apply Keeps.trans' (updCmd_keeps ..)

theorem stopTarget_keeps (c : Cmd) (pause : Bool) (s : State) : Keeps s (stopTarget c pause s) := by
  unfold stopTarget
  repeat'
    first
      | with_reducible exact Keeps.refl _
      | with_reducible apply Keeps.trans' (noteFree_keeps ..)
      | with_reducible apply Keeps.trans' (complete_keeps ..)
      | with_reducible apply Keeps.trans' (refuse_keeps ..)
      | with_reducible apply Keeps.trans' (stopUnstarted_keeps ..)
      | with_reducible apply Keeps.trans' (stopRunning_keeps ..)
      | with_reducible apply Keeps.trans' (watch_keeps ..)
      | extract_lets
      | with_reducible apply Keeps.ite
      | split

theorem cancelWaiting_keeps (d : Decision) (cs : List Cmd) (s : State) : Keeps s (cancelWaiting d cs s) := by
  unfold cancelWaiting
  repeat'
    first
      | with_reducible exact Keeps.refl _
      | with_reducible refine Keeps.pair ‹_› ?_
      | with_reducible refine Keeps.pair2 ‹_› ?_
      | with_reducible apply Keeps.trans' (settle_keeps ..)
      | extract_lets
      | with_reducible apply Keeps.ite
      | with_reducible apply Keeps.ite2
      | split
      | dsimp only
      | intro _
      | with_reducible refine Keeps.upd ?_ rfl rfl rfl rfl rfl rfl rfl rfl

theorem stopRuns_keeps (x0 : List Cmd) (s : State) : Keeps s (stopRuns x0 s) := by
  fun_induction stopRuns x0 s <;> repeat'
    first
      | with_reducible exact Keeps.refl _
      | with_reducible apply Keeps.trans' ‹Keeps _ _›
      | with_reducible refine Keeps.pair ‹_› ?_
      | with_reducible apply Keeps.trans' (stopRunning_keeps ..)
      | with_reducible apply Keeps.ite
      | with_reducible apply Keeps.ite2
      | split

theorem queueDestroy_keeps (c : Cmd) (s : State) : Keeps s (queueDestroy c s) := by
  unfold queueDestroy
  repeat'
    first
      | with_reducible exact Keeps.refl _
      | with_reducible refine Keeps.pair ‹_› ?_
      | with_reducible apply Keeps.trans' (updQue_keeps ..)
      | with_reducible apply Keeps.trans' (updCmd_keeps ..)
      | with_reducible apply Keeps.trans' (finishDestroy_keeps ..)
      | with_reducible apply Keeps.trans' (settle_keeps ..)
      | with_reducible apply Keeps.trans' (refuse_keeps ..)
      | with_reducible apply Keeps.trans' (cancelWaiting_keeps ..)
      | with_reducible apply Keeps.trans' (stopRuns_keeps ..)
      | extract_lets
      | with_reducible apply Keeps.ite

theorem queueReset_keeps (c : Cmd) (s : State) : Keeps s (queueReset c s) := by
  unfold queueReset
  repeat'
    first
      | with_reducible exact Keeps.refl _
      | with_reducible apply Keeps.trans' (updQue_keeps ..)
      | with_reducible apply Keeps.trans' (commitOk_keeps ..)
      | with_reducible apply Keeps.trans' (refuse_keeps ..)
      | extract_lets
      | with_reducible apply Keeps.ite

theorem claimExtent_keeps (e : Nat) (s : State) : Keeps s (claimExtent e s) := by
  unfold claimExtent
  split
  · exact setExt_keeps ..
  · exact (zeroCarafe_keeps ..).trans (setExt_keeps ..)
  · exact Keeps.ite (Keeps.refl s) ((zeroCarafe_keeps ..).trans (setExt_keeps ..))
  · exact Keeps.refl s

theorem mapExtents_keeps (ctx : Nat) (r : Bool) (w : Bool) (x0 : Nat) (x1 : List Nat) (s : State) :
    Keeps s (mapExtents ctx r w x0 x1 s) := by
  fun_induction mapExtents ctx r w x0 x1 s with
  | case1 => exact Keeps.refl _
  | case2 _ _ _ _ _ ih => exact Keeps.trans' ih (Keeps.upd (claimExtent_keeps ..) rfl rfl rfl rfl rfl rfl rfl rfl)

theorem mapCmd_keeps (c : Cmd) (s : State) : Keeps s (mapCmd c s) := by
  unfold mapCmd
  repeat'
    first
      | with_reducible exact Keeps.refl _
      | with_reducible apply Keeps.trans' (commitOk_keeps ..)
      | with_reducible apply Keeps.trans' (refuse_keeps ..)
      | with_reducible apply Keeps.trans' (mapExtents_keeps ..)
      | extract_lets
      | with_reducible apply Keeps.ite

theorem clearEntries_keeps (ctx first count : Nat) (s : State) : Keeps s (clearEntries ctx first count s) :=
  Keeps.upd (Keeps.refl s) rfl rfl rfl rfl rfl rfl rfl rfl

theorem unmapCmd_keeps (c : Cmd) (s : State) : Keeps s (unmapCmd c s) := by
  unfold unmapCmd
  extract_lets ctx first count es waits
  exact Keeps.ite (refuse_keeps ..) (((clearEntries_keeps ..).trans (updCmd_keeps ..)).trans (noteFree_keeps ..))

theorem unmapEnds_keeps (c : Cmd) (es : List Nat) (count : Nat) (s : State) : Keeps s (unmapEnds c es count s) := by
  unfold unmapEnds
  repeat'
    first
      | with_reducible exact Keeps.refl _
      | with_reducible apply Keeps.trans' (extentFreed_keeps ..)
      | with_reducible apply Keeps.trans' (updCmd_keeps ..)
      | with_reducible apply Keeps.trans' (completeDecided_keeps ..)
      | with_reducible refine Keeps.trans' (Keeps.foldl (fun _ _ => ?_) ..) ?_

theorem fenceSet_keeps (c : Cmd) (s : State) : Keeps s (fenceSet c s) := by
  unfold fenceSet
  repeat'
    first
      | with_reducible exact Keeps.refl _
      | with_reducible apply Keeps.trans' (setFnc_keeps ..)
      | with_reducible apply Keeps.trans' (noteFree_keeps ..)
      | with_reducible apply Keeps.trans' (commitOk_keeps ..)

theorem peerBind_keeps (c : Cmd) (s : State) : Keeps s (peerBind c s) := by
  unfold peerBind
  repeat'
    first
      | with_reducible exact Keeps.refl _
      | with_reducible apply Keeps.trans' (setBnd_keeps ..)
      | with_reducible apply Keeps.trans' (commitOk_keeps ..)
      | with_reducible apply Keeps.trans' (runAlone_keeps ..)
      | extract_lets
      | with_reducible apply Keeps.ite

theorem sendSignal_keeps (c : Cmd) (s : State) : Keeps s (sendSignal c s) := by
  unfold sendSignal
  repeat'
    first
      | with_reducible exact Keeps.refl _
      | with_reducible refine Keeps.pair ‹_› ?_
      | with_reducible refine Keeps.pair2 ‹_› ?_
      | with_reducible apply Keeps.trans' (setBnd_keeps ..)
      | with_reducible apply Keeps.trans' (updCmd_keeps ..)
      | with_reducible apply Keeps.trans' (peerSignal_keeps ..)
      | with_reducible apply Keeps.trans' (noteFree_keeps ..)
      | with_reducible apply Keeps.trans' (bindingSend_keeps ..)

theorem peerSignal_keeps (c : Cmd) (s : State) : Keeps s (peerSignal c s) := by
  unfold peerSignal
  repeat'
    first
      | with_reducible exact Keeps.refl _
      | with_reducible refine Keeps.pair ‹_› ?_
      | with_reducible refine Keeps.pair2 ‹_› ?_
      | with_reducible apply Keeps.trans' (refuse_keeps ..)
      | with_reducible apply Keeps.trans' (readyOrder_keeps ..)
      | with_reducible apply Keeps.trans' (updCmd_keeps ..)
      | with_reducible apply Keeps.trans' (sendSignal_keeps ..)
      | extract_lets
      | with_reducible apply Keeps.ite

theorem modelUnload_keeps (c : Cmd) (s : State) : Keeps s (modelUnload c s) := by
  unfold modelUnload
  repeat'
    first
      | with_reducible exact Keeps.refl _
      | with_reducible refine Keeps.pair ‹_› ?_
      | with_reducible refine Keeps.pair2 ‹_› ?_
      | with_reducible apply Keeps.trans' (refuse_keeps ..)
      | with_reducible apply Keeps.trans' (updMdl_keeps ..)
      | with_reducible apply Keeps.trans' (releaseExtent_keeps ..)
      | with_reducible apply Keeps.trans' (noteFree_keeps ..)
      | with_reducible apply Keeps.trans' (updCmd_keeps ..)
      | with_reducible apply Keeps.trans' (completeDecided_keeps ..)
      | with_reducible refine Keeps.trans' (Keeps.foldl (fun _ _ => ?_) ..) ?_
      | extract_lets
      | with_reducible apply Keeps.ite
      | with_reducible apply Keeps.ite2
      | split
      | dsimp only
      | intro _
      | with_reducible refine Keeps.upd ?_ rfl rfl rfl rfl rfl rfl rfl rfl

theorem extentZeroed_keeps (e : Nat) (s : State) : Keeps s (extentZeroed e s) := by
  unfold extentZeroed
  repeat'
    first
      | with_reducible exact Keeps.refl _
      | with_reducible refine Keeps.pair ‹_› ?_
      | with_reducible refine Keeps.pair2 ‹_› ?_
      | with_reducible apply Keeps.trans' (setExt_keeps ..)
      | with_reducible apply Keeps.trans' (zeroCarafe_keeps ..)
      | with_reducible apply Keeps.trans' (extentFreed_keeps ..)
      | extract_lets
      | with_reducible apply Keeps.ite

theorem unloadStep_keeps (s : State) : Keeps s (unloadStep s) := by
  unfold unloadStep
  repeat'
    first
      | with_reducible exact Keeps.refl _
      | with_reducible refine Keeps.pair ‹_› ?_
      | with_reducible refine Keeps.pair2 ‹_› ?_
      | with_reducible apply Keeps.trans' (extentFreed_keeps ..)
      | with_reducible apply Keeps.trans' (completeDecided_keeps ..)
      | with_reducible refine Keeps.trans' (Keeps.foldl (fun _ _ => ?_) ..) ?_
      | extract_lets
      | with_reducible apply Keeps.ite
      | with_reducible apply Keeps.ite2
      | split
      | dsimp only
      | intro _
      | with_reducible refine Keeps.upd ?_ rfl rfl rfl rfl rfl rfl rfl rfl

/-! ## Boot -/

theorem settleSlot_keeps (i : Nat) (s : State) : Keeps s (settleSlot i s) := by
  unfold settleSlot
  repeat'
    first
      | with_reducible exact Keeps.refl _
      | with_reducible apply Keeps.trans' (fwFlag_keeps ..)
      | with_reducible apply Keeps.trans' (logEvent_keeps ..)
      | with_reducible apply Keeps.trans' (setSlot_keeps ..)
      | with_reducible apply Keeps.trans' (setSlotState_keeps ..)
      | extract_lets
      | with_reducible apply Keeps.ite
      | split

theorem tryslot_keeps (c : Option Nat) (to' : SlotState) (s : State) : Keeps s (tryslot c to' s).2 := by
  unfold tryslot
  repeat'
    first
      | with_reducible exact Keeps.refl _
      | with_reducible refine Keeps.pair ‹_› ?_
      | with_reducible apply Keeps.trans' (fwFlag_keeps ..)
      | with_reducible apply Keeps.trans' (logEvent_keeps ..)
      | with_reducible apply Keeps.trans' (setSlotState_keeps ..)
      | extract_lets
      | with_reducible apply Keeps.ite
      | with_reducible apply Keeps.ite2
      | split

theorem chooseSlot_keeps (s : State) : Keeps s (chooseSlot s).2 := by
  unfold chooseSlot
  repeat'
    first
      | with_reducible exact Keeps.refl _
      | with_reducible refine Keeps.pair ‹_› ?_
      | with_reducible apply Keeps.trans' (tryslot_keeps ..)
      | split

theorem sendVout_keeps (s : State) : Keeps s (sendVout s) :=
  Keeps.ite (Keeps.refl s) (Keeps.trans (Keeps.upd (Keeps.refl s) rfl rfl rfl rfl rfl rfl rfl rfl) (emit_keeps ..))

theorem bootHardware_keeps (f : BootFindings) (s : State) : Keeps s (bootHardware f s) := by
  unfold bootHardware
  extract_lets
  exact Keeps.trans' (sendVout_keeps _) (Keeps.upd (Keeps.refl s) rfl rfl rfl rfl rfl rfl rfl rfl)

theorem bootKey_keeps (s : State) : Keeps s (bootKey s) := by
  unfold bootKey
  repeat'
    first
      | with_reducible exact Keeps.refl _
      | with_reducible refine Keeps.pair ‹_› ?_
      | with_reducible refine Keeps.pair2 ‹_› ?_
      | with_reducible apply Keeps.trans' (bootDraw_keeps ..)
      | with_reducible apply Keeps.trans' (freshBelow_keeps ..)
      | with_reducible apply Keeps.trans' (logEvent_keeps ..)
      | extract_lets
      | with_reducible apply Keeps.ite
      | with_reducible apply Keeps.ite2
      | split
      | dsimp only
      | intro _
      | with_reducible refine Keeps.upd ?_ rfl rfl rfl rfl rfl rfl rfl rfl

theorem tableContext_keeps {t : State} {b : List Byte} {s : State} (h : tableContext b s = .ok t) : Keeps s t := by
  unfold tableContext at h
  extract_lets at h
  split at h
  · cases h
  cases h
  exact (Keeps.foldl (fun _ _ => extentFreed_keeps ..) ..).trans (mapExtents_keeps ..)

theorem tableQueue_keeps {t : State} {b : List Byte} {s : State} (h : tableQueue b s = .ok t) : Keeps s t := by
  unfold tableQueue at h
  split at h
  · cases h
  · exact createQueue_keeps h

theorem tableBinding_keeps {t : State} {b : List Byte} {s : State} (h : tableBinding b s = .ok t) : Keeps s t := by
  unfold tableBinding at h
  extract_lets at h
  split at h
  · cases h
  cases h
  exact setBnd_keeps ..

theorem tableLockStep_keeps {t : State} {b : List Byte} {s : State} (h : tableLockStep b s = .ok t) : Keeps s t := by
  unfold tableLockStep at h
  split at h
  · cases h
  cases h
  exact (Keeps.refl s).upd rfl rfl rfl rfl rfl rfl rfl rfl

theorem tableFence_keeps {t : State} {b : List Byte} {s : State} (h : tableFence b s = .ok t) : Keeps s t := by
  unfold tableFence at h
  extract_lets at h
  split at h
  · cases h
  cases h
  exact setFnc_keeps ..

theorem tableStream_keeps {t : State} {b : List Byte} {s : State} (h : tableStream b s = .ok t) : Keeps s t := by
  unfold tableStream at h
  extract_lets i at h
  split at h
  · cases h
  split at h
  · injection h with h
    subst h
    refine Keeps.trans (Keeps.foldl (fun _ _ => ?_) ..) (streamEnable_keeps ..)
    exact Keeps.ite (Keeps.refl _) (updStrm_keeps ..)
  · cases h

theorem tableRoute_keeps {t : State} {b : List Byte} {s : State} (h : tableRoute b s = .ok t) : Keeps s t := by
  unfold tableRoute at h
  extract_lets at h
  split at h
  · cases h
  cases h
  exact (Keeps.refl s).upd rfl rfl rfl rfl rfl rfl rfl rfl

theorem tableApply_keeps {t : State} {kind : Nat} {b : List Byte} {s : State} (h : tableApply kind b s = .ok t) :
    Keeps s t := by
  unfold tableApply at h
  split at h
  · exact tableContext_keeps h
  · exact tableQueue_keeps h
  · exact tableBinding_keeps h
  · exact tableLockStep_keeps h
  · exact tableFence_keeps h
  · exact tableStream_keeps h
  · exact tableRoute_keeps h
  · cases h

theorem applyTable_keeps (x0 : Nat) (x1 : List (Nat × List Byte)) (s : State) : Keeps s (applyTable x0 x1 s) := by
  induction x1 generalizing x0 s with
  | nil => exact Keeps.refl s
  | cons p es ih =>
    unfold applyTable
    split
    · exact (tableApply_keeps ‹_›).trans (ih ..)
    · refine Keeps.trans' (ih ..) (Keeps.trans' (logEvent_keeps ..) ?_)
      exact Keeps.upd (Keeps.refl s) rfl rfl rfl rfl rfl rfl rfl rfl

/-! ## FrontEnd -/

theorem bar0DbSq_keeps (q : Nat) (t : Word) (s : State) : Keeps s (bar0DbSq q t s) := by
  unfold bar0DbSq
  repeat'
    first
      | with_reducible exact Keeps.refl _
      | with_reducible apply Keeps.trans' (feDbIgnored_keeps ..)
      | with_reducible apply Keeps.trans' (sqDoorbell_keeps ..)
      | with_reducible apply Keeps.ite

theorem bar0DbCq_keeps (q : Nat) (h : Word) (s : State) : Keeps s (bar0DbCq q h s) := by
  unfold bar0DbCq
  repeat'
    first
      | with_reducible exact Keeps.refl _
      | with_reducible apply Keeps.trans' (feDbIgnored_keeps ..)
      | with_reducible apply Keeps.trans' (cqDoorbell_keeps ..)
      | with_reducible apply Keeps.ite

theorem setDom_keeps (d : Nat) (x : DomState) (s : State) : Keeps s (setDom d x s) :=
  Keeps.upd (Keeps.refl s) rfl rfl rfl rfl rfl rfl rfl rfl

theorem wakeDomain_keeps (s : State) (d : Nat) : Keeps s (wakeDomain s d) := by
  unfold wakeDomain
  repeat'
    first
      | with_reducible exact Keeps.refl _
      | with_reducible apply Keeps.trans' (setDom_keeps ..)
      | split
      | with_reducible refine Keeps.upd ?_ rfl rfl rfl rfl rfl rfl rfl rfl

theorem takeEngine_keeps (k : Key) (program : Bool) (s : State) (n : Nat) : Keeps s (takeEngine k program s n) := by
  unfold takeEngine
  repeat'
    first
      | with_reducible exact Keeps.refl _
      | with_reducible apply Keeps.trans' (updEng_keeps ..)
      | with_reducible apply Keeps.trans' (zeroSpad_keeps ..)
      | extract_lets
      | with_reducible apply Keeps.ite
      | split

theorem launch_keeps (c : Cmd) (engs : List Nat) (s : State) : Keeps s (launch c engs s) := by
  unfold launch
  repeat'
    first
      | with_reducible exact Keeps.refl _
      | with_reducible refine Keeps.pair ‹_› ?_
      | with_reducible refine Keeps.pair2 ‹_› ?_
      | with_reducible apply Keeps.trans' (takeEngine_keeps ..)
      | with_reducible apply Keeps.trans' (openOnchip_keeps ..)
      | with_reducible apply Keeps.trans' (updCmd_keeps ..)
      | with_reducible apply Keeps.trans' (noteFree_keeps ..)
      | with_reducible apply Keeps.trans' (beginRun_keeps ..)
      | with_reducible apply Keeps.trans' (startProgram_keeps ..)
      | with_reducible apply Keeps.trans' (peerSignal_keeps ..)
      | with_reducible apply Keeps.trans' (sendSignal_keeps ..)
      | with_reducible refine Keeps.trans' (Keeps.foldl (fun _ _ => ?_) ..) ?_
      | extract_lets
      | with_reducible apply Keeps.ite
      | with_reducible apply Keeps.ite2
      | split

theorem startCmd_keeps (c : Cmd) (engs : List Nat) (s : State) : Keeps s (startCmd c engs s) := by
  unfold startCmd
  repeat'
    first
      | with_reducible exact Keeps.refl _
      | with_reducible apply Keeps.trans' (wakeDomain_keeps ..)
      | with_reducible apply Keeps.trans' (launch_keeps ..)
      | with_reducible refine Keeps.trans' (Keeps.foldl (fun _ _ => ?_) ..) ?_
      | extract_lets
      | with_reducible apply Keeps.ite

theorem endPreload_keeps (c : Cmd) (s : State) : Keeps s (endPreload c s) := by
  unfold endPreload
  repeat'
    first
      | with_reducible exact Keeps.refl _
      | with_reducible refine Keeps.pair ‹_› ?_
      | with_reducible refine Keeps.pair2 ‹_› ?_
      | with_reducible apply Keeps.trans' (preloadEnds_keeps ..)
      | extract_lets
      | with_reducible apply Keeps.ite
      | with_reducible apply Keeps.ite2
      | split

theorem copyCmd_keeps (c : Cmd) (s : State) : Keeps s (copyCmd c s) := by
  unfold copyCmd
  repeat'
    first
      | with_reducible exact Keeps.refl _
      | with_reducible apply Keeps.trans' (updCmd_keeps ..)
      | with_reducible apply Keeps.trans' (readyOrder_keeps ..)

theorem copyChunks_keeps (c : Cmd) (x0 : Nat) (x1 : Nat) (x2 : Nat) (s : State) : Keeps s (copyChunks c x0 x1 x2 s).2 := by
  fun_induction copyChunks c x0 x1 x2 s <;> repeat'
    first
      | with_reducible exact Keeps.refl _
      | with_reducible apply Keeps.trans' ‹Keeps _ _›
      | with_reducible refine Keeps.pair ‹_› ?_
      | with_reducible apply Keeps.trans' (spaceRead_keeps ..)
      | with_reducible apply Keeps.trans' (spaceWrite_keeps ..)

theorem copyBytes_keeps (c : Cmd) (len : Nat) (s : State) : Keeps s (copyBytes c len s).2 := by
  unfold copyBytes
  repeat'
    first
      | with_reducible exact Keeps.refl _
      | with_reducible refine Keeps.pair ‹_› ?_
      | with_reducible apply Keeps.trans' (copyChunks_keeps ..)

theorem copyEnds_keeps (c : Cmd) (s : State) : Keeps s (copyEnds c s) := by
  unfold copyEnds
  repeat'
    first
      | with_reducible exact Keeps.refl _
      | with_reducible refine Keeps.pair ‹_› ?_
      | with_reducible apply Keeps.trans' (complete_keeps ..)
      | with_reducible apply Keeps.trans' (commitOk_keeps ..)
      | with_reducible apply Keeps.trans' (copyBytes_keeps ..)
      | split

theorem loadTimesOut_keeps (c : Cmd) (id : Nat) (addr : Nat) (s : State) : Keeps s (loadTimesOut c id addr s) := by
  unfold loadTimesOut
  repeat'
    first
      | with_reducible exact Keeps.refl _
      | with_reducible refine Keeps.pair ‹_› ?_
      | with_reducible refine Keeps.pair2 ‹_› ?_
      | with_reducible apply Keeps.trans' (loadModel_keeps ..)
      | with_reducible apply Keeps.trans' (loadFails_keeps ..)
      | extract_lets
      | with_reducible apply Keeps.ite
      | with_reducible apply Keeps.ite2
      | split
      | dsimp only
      | with_reducible refine Keeps.upd ?_ rfl rfl rfl rfl rfl rfl rfl rfl

theorem aerTimeout_keeps (s : State) : Keeps s (aerTimeout s) := by
  unfold aerTimeout
  repeat'
    first
      | with_reducible exact Keeps.refl _
      | with_reducible refine Keeps.pair ‹_› ?_
      | with_reducible refine Keeps.pair2 ‹_› ?_
      | extract_lets
      | with_reducible apply Keeps.ite
      | with_reducible apply Keeps.ite2
      | split
      | dsimp only
      | with_reducible refine Keeps.upd ?_ rfl rfl rfl rfl rfl rfl rfl rfl

theorem readTimesOut_keeps (c : Cmd) (addr : Nat) (s : State) : Keeps s (readTimesOut c addr s) := by
  unfold readTimesOut
  repeat'
    first
      | with_reducible exact Keeps.refl _
      | with_reducible refine Keeps.pair ‹_› ?_
      | with_reducible refine Keeps.pair2 ‹_› ?_
      | with_reducible apply Keeps.trans' (updCmd_keeps ..)
      | with_reducible apply Keeps.trans' (complete_keeps ..)
      | with_reducible apply Keeps.trans' (loadTimesOut_keeps ..)
      | extract_lets
      | with_reducible apply Keeps.ite
      | with_reducible apply Keeps.ite2
      | split

theorem timesOut_keeps (c : Cmd) (s : State) : Keeps s (timesOut c s) := by
  unfold timesOut
  repeat'
    first
      | with_reducible exact Keeps.refl _
      | with_reducible refine Keeps.pair ‹_› ?_
      | with_reducible apply Keeps.trans' (feFlag_keeps ..)
      | with_reducible apply Keeps.trans' (killCmd_keeps ..)
      | with_reducible apply Keeps.trans' (loadFails_keeps ..)
      | with_reducible apply Keeps.trans' (peerSignal_keeps ..)
      | with_reducible apply Keeps.trans' (missingPeer_keeps ..)
      | extract_lets
      | split

/-! ## Carafe -/

theorem writeBacks_keeps (ch : Nat) (s : State) : Keeps s (writeBacks ch s) := by
  unfold writeBacks
  repeat'
    first
      | with_reducible exact Keeps.refl _
      | with_reducible refine Keeps.pair ‹_› ?_
      | with_reducible refine Keeps.pair2 ‹_› ?_
      | with_reducible refine Keeps.trans' (Keeps.foldl (fun _ _ => ?_) ..) ?_
      | extract_lets
      | with_reducible apply Keeps.ite
      | with_reducible apply Keeps.ite2
      | split
      | dsimp only
      | intro _
      | with_reducible refine Keeps.upd ?_ rfl rfl rfl rfl rfl rfl rfl rfl

theorem scrub_keeps (ch : Nat) (s : State) : Keeps s (scrub ch s) := by
  unfold scrub
  repeat'
    first
      | with_reducible exact Keeps.refl _
      | with_reducible refine Keeps.pair ‹_› ?_
      | with_reducible apply Keeps.trans' (readLine_keeps ..)
      | with_reducible apply Keeps.trans' (writeBacks_keeps ..)
      | extract_lets
      | with_reducible apply Keeps.ite
      | with_reducible apply Keeps.ite2
      | split
      | dsimp only
      | with_reducible refine Keeps.upd ?_ rfl rfl rfl rfl rfl rfl rfl rfl

theorem wipeEnds_keeps (failed : Bool) (s : State) : Keeps s (wipeEnds failed s) := by
  unfold wipeEnds
  repeat'
    first
      | with_reducible exact Keeps.refl _
      | with_reducible apply Keeps.trans' (logSev_keeps ..)
      | extract_lets
      | with_reducible apply Keeps.ite
      | split
      | with_reducible refine Keeps.upd ?_ rfl rfl rfl rfl rfl rfl rfl rfl

theorem tamperSlots_keeps (s : State) : Keeps s (tamperSlots s) := by
  unfold tamperSlots
  repeat'
    first
      | with_reducible exact Keeps.refl _
      | with_reducible apply Keeps.trans' (logEvent_keeps ..)
      | with_reducible apply Keeps.trans' (setSlot_keeps ..)
      | split

theorem tamperAssert_keeps (lowNs : Nat) (s : State) : Keeps s (tamperAssert lowNs s) := by
  unfold tamperAssert
  repeat'
    first
      | with_reducible exact Keeps.refl _
      | with_reducible apply Keeps.trans' (svcFlag_keeps ..)
      | with_reducible apply Keeps.trans' (logEvent_keeps ..)
      | with_reducible apply Keeps.trans' (startWipe_keeps ..)
      | with_reducible apply Keeps.trans' (tamperSlots_keeps ..)
      | extract_lets
      | with_reducible refine Keeps.upd ?_ rfl rfl rfl rfl rfl rfl rfl rfl

theorem bar2Access_keeps (off : Nat) (write : Bool) (len : Nat) (data : List Byte) (s : State) :
    Keeps s (bar2Access off write len data s) := by
  unfold bar2Access
  repeat'
    first
      | with_reducible exact Keeps.refl _
      | with_reducible refine Keeps.pair ‹_› ?_
      | with_reducible apply Keeps.trans' (emit_keeps ..)
      | with_reducible apply Keeps.trans' (memFlag_keeps ..)
      | with_reducible apply Keeps.trans' (readPlaces_keeps ..)
      | with_reducible apply Keeps.trans' (writePlaces_keeps ..)
      | extract_lets
      | with_reducible apply Keeps.ite
      | with_reducible apply Keeps.ite2
      | split
      | dsimp only
      | with_reducible refine Keeps.upd ?_ rfl rfl rfl rfl rfl rfl rfl rfl

/-! ## ControlIns -/

theorem setIns_keeps (x : Ectx) (s : State) : Keeps s (setIns x s) :=
  writeA_keeps ..

theorem addIns_keeps (x : Ectx) (s : State) : Keeps s (addIns x s) :=
  writeA_keeps ..

theorem orHazard_keeps (x : Ectx) (f : Ectx → State → State) (s : State) (hf : ∀ x st, Keeps st (f x st)) :
    Keeps s (orHazard x f s) := by
  unfold orHazard
  split
  · exact updEng_keeps ..
  · exact hf ..

theorem ldIns_keeps (x : Ectx) (s : State) : Keeps s (ldIns x s) := by
  unfold ldIns
  repeat'
    first
      | with_reducible exact Keeps.refl _
      | with_reducible apply Keeps.trans' (writeA_keeps ..)
      | with_reducible apply Keeps.trans' (readOp_keeps ..)
      | intro _

theorem stIns_keeps (x : Ectx) (s : State) : Keeps s (stIns x s) := by
  unfold stIns
  repeat'
    first
      | with_reducible exact Keeps.refl _
      | with_reducible apply Keeps.trans' (writeSpan_keeps ..)
      | with_reducible apply Keeps.trans' (advance_keeps ..)
      | with_reducible apply Keeps.trans' (progFault_keeps ..)
      | with_reducible apply Keeps.trans' (readOp_keeps ..)
      | split
      | with_reducible refine Keeps.upd ?_ rfl rfl rfl rfl rfl rfl rfl rfl
      | intro _

theorem brIns_keeps (x : Ectx) (s : State) : Keeps s (brIns x s) := by
  unfold brIns
  repeat'
    first
      | with_reducible exact Keeps.refl _
      | with_reducible apply Keeps.trans' (jumpTo_keeps ..)
      | with_reducible apply Keeps.trans' (advance_keeps ..)
      | with_reducible apply Keeps.ite

theorem loopIns_keeps (x : Ectx) (s : State) : Keeps s (loopIns x s) := by
  unfold loopIns
  repeat'
    first
      | with_reducible exact Keeps.refl _
      | with_reducible apply Keeps.trans' (updEng_keeps ..)
      | with_reducible apply Keeps.trans' (jumpTo_keeps ..)
      | with_reducible apply Keeps.trans' (advance_keeps ..)
      | extract_lets
      | with_reducible apply Keeps.ite

theorem barEnds_keeps (x : Ectx) (p : Prog) (s : State) : Keeps s (barEnds x p s) := by
  unfold barEnds
  repeat'
    first
      | with_reducible exact Keeps.refl _
      | with_reducible refine Keeps.pair ‹_› ?_
      | with_reducible apply Keeps.trans' (updEng_keeps ..)
      | with_reducible apply Keeps.trans' (setProg_keeps ..)
      | with_reducible apply Keeps.trans' (advance_keeps ..)
      | with_reducible apply Keeps.trans' (progCkpt_keeps ..)
      | with_reducible refine Keeps.trans' (Keeps.foldl (fun _ _ => ?_) ..) ?_
      | extract_lets
      | with_reducible apply Keeps.ite
      | with_reducible apply Keeps.ite2

theorem barIns_keeps (x : Ectx) (s : State) : Keeps s (barIns x s) := by
  unfold barIns
  repeat'
    first
      | with_reducible exact Keeps.refl _
      | with_reducible apply Keeps.trans' (updEng_keeps ..)
      | with_reducible apply Keeps.trans' (setProg_keeps ..)
      | with_reducible apply Keeps.trans' (barEnds_keeps ..)
      | extract_lets
      | with_reducible apply Keeps.ite

theorem claimIns_keeps (x : Ectx) (s : State) : Keeps s (claimIns x s) := by
  unfold claimIns
  repeat'
    first
      | with_reducible exact Keeps.refl _
      | with_reducible apply Keeps.trans' (setProg_keeps ..)
      | with_reducible apply Keeps.trans' (writeA_keeps ..)

theorem waitanyIns_keeps (ended : Option (BitVec 12)) (x : Ectx) (s : State) : Keeps s (waitanyIns ended x s) := by
  unfold waitanyIns
  repeat'
    first
      | with_reducible exact Keeps.refl _
      | with_reducible apply Keeps.trans' (updEng_keeps ..)
      | with_reducible apply Keeps.trans' (writeA_keeps ..)
      | with_reducible apply Keeps.ite
      | split

theorem timeIns_keeps (x : Ectx) (s : State) : Keeps s (timeIns x s) := by
  unfold timeIns
  repeat'
    first
      | with_reducible exact Keeps.refl _
      | with_reducible apply Keeps.trans' (writeA_keeps ..)

theorem endIns_keeps (x : Ectx) (s : State) : Keeps s (endIns x s) := by
  unfold endIns
  repeat'
    first
      | with_reducible exact Keeps.refl _
      | with_reducible apply Keeps.trans' (icuSend_keeps ..)
      | with_reducible apply Keeps.trans' (updEng_keeps ..)
      | with_reducible apply Keeps.trans' (setProg_keeps ..)
      | with_reducible apply Keeps.trans' (progFault_keeps ..)
      | with_reducible apply Keeps.trans' (commitProgram_keeps ..)
      | extract_lets
      | with_reducible apply Keeps.ite

/-! ## Kweow -/

theorem linkAlone_keeps (l : Nat) (s : State) : Keeps s (linkAlone l s) := by
  unfold linkAlone
  repeat'
    first
      | with_reducible exact Keeps.refl _
      | with_reducible apply Keeps.trans' (runAlone_keeps ..)
      | with_reducible refine Keeps.trans' (Keeps.foldl (fun _ _ => ?_) ..) ?_
      | with_reducible apply Keeps.ite

theorem linkTo_keeps (l : Nat) (to' : LState) (s : State) : Keeps s (linkTo l to' s) := by
  unfold linkTo
  repeat'
    first
      | with_reducible exact Keeps.refl _
      | with_reducible apply Keeps.trans' (kwFlag_keeps ..)
      | with_reducible apply Keeps.trans' (logEvent_keeps ..)
      | with_reducible apply Keeps.trans' (updLnk_keeps ..)
      | with_reducible apply Keeps.trans' (linkAlone_keeps ..)
      | extract_lets
      | with_reducible apply Keeps.ite

theorem trainFail_keeps (l : Nat) (cause : Nat) (s : State) : Keeps s (trainFail l cause s) := by
  unfold trainFail
  repeat'
    first
      | with_reducible exact Keeps.refl _
      | with_reducible apply Keeps.trans' (logEvent_keeps ..)
      | with_reducible apply Keeps.trans' (updLnk_keeps ..)
      | with_reducible apply Keeps.trans' (linkTo_keeps ..)

theorem linkStep_keeps (l : Nat) (from' : LState) (f : Link → Link) (s : State) : Keeps s (linkStep l from' f s) := by
  unfold linkStep
  repeat'
    first
      | with_reducible exact Keeps.refl _
      | with_reducible apply Keeps.trans' (updLnk_keeps ..)
      | with_reducible apply Keeps.ite

theorem resendFrom_keeps (l : Nat) (n : Nat) (s : State) : Keeps s (resendFrom l n s) := by
  unfold resendFrom
  repeat'
    first
      | with_reducible exact Keeps.refl _
      | with_reducible apply Keeps.trans' (updLnk_keeps ..)
      | with_reducible apply Keeps.trans' (flitOut_keeps ..)
      | with_reducible refine Keeps.trans' (Keeps.foldl (fun _ _ => ?_) ..) ?_
      | extract_lets
      | with_reducible apply Keeps.ite

theorem rejoin_keeps (s : State) : Keeps s (rejoin s) := by
  unfold rejoin
  repeat'
    first
      | with_reducible exact Keeps.refl _
      | with_reducible apply Keeps.trans' (sendJoins_keeps ..)
      | with_reducible refine Keeps.trans' (Keeps.foldl (fun _ _ => ?_) ..) ?_
      | with_reducible apply Keeps.ite
      | split

theorem identify_keeps (l : Nat) (p : PeerInfo) (s : State) : Keeps s (identify l p s) := by
  unfold identify
  repeat'
    first
      | with_reducible exact Keeps.refl _
      | with_reducible refine Keeps.pair ‹_› ?_
      | with_reducible refine Keeps.pair2 ‹_› ?_
      | with_reducible apply Keeps.trans' (trainFail_keeps ..)
      | with_reducible apply Keeps.trans' (logEvent_keeps ..)
      | with_reducible apply Keeps.trans' (drawKey_keeps ..)
      | with_reducible apply Keeps.trans' (emit_keeps ..)
      | with_reducible apply Keeps.trans' (updLnk_keeps ..)
      | with_reducible apply Keeps.trans' (kwFlag_keeps ..)
      | with_reducible apply Keeps.trans' (rejoin_keeps ..)
      | with_reducible apply Keeps.trans' (pump_keeps ..)
      | with_reducible apply Keeps.trans' (resendFrom_keeps ..)
      | extract_lets
      | with_reducible apply Keeps.ite
      | with_reducible apply Keeps.ite2
      | split

theorem retrainLink_keeps (l : Nat) (s : State) : Keeps s (retrainLink l s) := by
  unfold retrainLink
  repeat'
    first
      | with_reducible exact Keeps.refl _
      | with_reducible apply Keeps.trans' (linkTo_keeps ..)
      | with_reducible apply Keeps.ite

theorem fecCount_keeps (l : Nat) (byteErrors : Nat) (s : State) : Keeps s (fecCount l byteErrors s) := by
  unfold fecCount
  repeat'
    first
      | with_reducible exact Keeps.refl _
      | with_reducible apply Keeps.trans' (updLnk_keeps ..)
      | with_reducible apply Keeps.ite

theorem takeAck_keeps (l : Nat) (f : Flit) (s : State) : Keeps s (takeAck l f s) := by
  unfold takeAck
  repeat'
    first
      | with_reducible exact Keeps.refl _
      | with_reducible apply Keeps.trans' (updLnk_keeps ..)
      | with_reducible apply Keeps.trans' (pump_keeps ..)

theorem assemble_keeps (l : Nat) (f : Flit) (p : List Byte) (s : State) : Keeps s (assemble l f p s) := by
  unfold assemble
  repeat'
    first
      | with_reducible exact Keeps.refl _
      | with_reducible apply Keeps.trans' (icuSend_keeps ..)
      | with_reducible apply Keeps.trans' (updLnk_keeps ..)
      | extract_lets
      | with_reducible apply Keeps.ite
      | split

theorem askRetry_keeps (l : Nat) (s : State) : Keeps s (askRetry l s) := by
  unfold askRetry
  repeat'
    first
      | with_reducible exact Keeps.refl _
      | with_reducible refine Keeps.pair ‹_› ?_
      | with_reducible refine Keeps.pair2 ‹_› ?_
      | with_reducible apply Keeps.trans' (sendBare_keeps ..)
      | extract_lets
      | with_reducible apply Keeps.ite
      | with_reducible apply Keeps.ite2
      | split
      | dsimp only
      | intro _
      | with_reducible refine Keeps.upd ?_ rfl rfl rfl rfl rfl rfl rfl rfl

theorem takeFlit_keeps (l : Nat) (f : Flit) (byteErrors : Nat) (lsn : Nat) (x : Link) (s : State) :
    Keeps s (takeFlit l f byteErrors lsn x s) := by
  unfold takeFlit
  repeat'
    first
      | with_reducible exact Keeps.refl _
      | with_reducible refine Keeps.pair ‹_› ?_
      | with_reducible refine Keeps.pair2 ‹_› ?_
      | with_reducible apply Keeps.trans' (updLnk_keeps ..)
      | with_reducible apply Keeps.trans' (takeAck_keeps ..)
      | with_reducible apply Keeps.trans' (assemble_keeps ..)
      | with_reducible apply Keeps.trans' (askRetry_keeps ..)
      | extract_lets
      | with_reducible apply Keeps.ite

theorem dataFlit_keeps (l : Nat) (f : Flit) (byteErrors : Nat) (s : State) : Keeps s (dataFlit l f byteErrors s) := by
  unfold dataFlit
  repeat'
    first
      | with_reducible exact Keeps.refl _
      | with_reducible refine Keeps.pair ‹_› ?_
      | with_reducible refine Keeps.pair2 ‹_› ?_
      | with_reducible apply Keeps.trans' (askRetry_keeps ..)
      | with_reducible apply Keeps.trans' (fecCount_keeps ..)
      | with_reducible apply Keeps.trans' (takeFlit_keeps ..)
      | extract_lets
      | with_reducible apply Keeps.ite
      | with_reducible apply Keeps.ite2
      | split

theorem retryFrom_keeps (l : Nat) (n : Nat) (s : State) : Keeps s (retryFrom l n s) := by
  unfold retryFrom
  repeat'
    first
      | with_reducible exact Keeps.refl _
      | with_reducible apply Keeps.trans' (updLnk_keeps ..)
      | with_reducible apply Keeps.trans' (resendFrom_keeps ..)
      | with_reducible apply Keeps.trans' (retrainLink_keeps ..)
      | with_reducible apply Keeps.ite

theorem relayReply_keeps (l : Nat) (b : List Byte) (s : State) : Keeps s (relayReply l b s) := by
  unfold relayReply
  repeat'
    first
      | with_reducible exact Keeps.refl _
      | with_reducible apply Keeps.trans' (sendReply_keeps ..)
      | extract_lets
      | split
      | with_reducible refine Keeps.upd ?_ rfl rfl rfl rfl rfl rfl rfl rfl

theorem peerSignalIn_keeps (l : Nat) (m : Msg) (s : State) : Keeps s (peerSignalIn l m s) := by
  unfold peerSignalIn
  repeat'
    first
      | with_reducible exact Keeps.refl _
      | with_reducible apply Keeps.trans' (feFlag_keeps ..)
      | with_reducible apply Keeps.trans' (setBnd_keeps ..)
      | with_reducible apply Keeps.trans' (raiseFence_keeps ..)
      | with_reducible apply Keeps.trans' (bindingSend_keeps ..)
      | with_reducible apply Keeps.trans' (noteFree_keeps ..)
      | extract_lets
      | with_reducible apply Keeps.ite
      | split
      | with_reducible refine Keeps.upd ?_ rfl rfl rfl rfl rfl rfl rfl rfl

theorem lsReplay_keeps (s : State) : Keeps s (lsReplay s) :=
  ((Keeps.refl s).upd rfl rfl rfl rfl rfl rfl rfl rfl).trans (detFlag_keeps ..)

theorem setLs_keeps (k : Key) (ls : LockStep) (s : State) : Keeps s (setLs k ls s) := by
  unfold setLs
  repeat'
    first
      | with_reducible exact Keeps.refl _
      | with_reducible apply Keeps.trans' (updCmd_keeps ..)

theorem checkpointIn_keeps (l : Nat) (m : Msg) (s : State) : Keeps s (checkpointIn l m s) := by
  unfold checkpointIn
  repeat'
    first
      | with_reducible exact Keeps.refl _
      | with_reducible refine Keeps.pair ‹_› ?_
      | with_reducible refine Keeps.pair2 ‹_› ?_
      | with_reducible apply Keeps.trans' (lsReplay_keeps ..)
      | with_reducible apply Keeps.trans' (setBnd_keeps ..)
      | with_reducible apply Keeps.trans' (lsCompare_keeps ..)
      | with_reducible apply Keeps.trans' (setLs_keeps ..)
      | extract_lets
      | with_reducible apply Keeps.ite
      | with_reducible apply Keeps.ite2
      | split

theorem cmdEndIn_keeps (l : Nat) (m : Msg) (s : State) : Keeps s (cmdEndIn l m s) := by
  unfold cmdEndIn
  repeat'
    first
      | with_reducible exact Keeps.refl _
      | with_reducible apply Keeps.trans' (detFlag_keeps ..)
      | with_reducible apply Keeps.trans' (setLs_keeps ..)
      | with_reducible apply Keeps.ite
      | split

theorem joinIn_keeps (l : Nat) (m : Msg) (c : Cmd) (r : Run) (s : State) : Keeps s (joinIn l m c r s) := by
  unfold joinIn
  repeat'
    first
      | with_reducible exact Keeps.refl _
      | with_reducible apply Keeps.trans' (complete_keeps ..)
      | with_reducible apply Keeps.trans' (refuse_keeps ..)
      | with_reducible apply Keeps.trans' (setRun_keeps ..)
      | with_reducible apply Keeps.trans' (sendJoins_keeps ..)
      | extract_lets
      | with_reducible apply Keeps.ite

theorem splitRelay_keeps (m : Msg) (p : SplitSt) (s : State) : Keeps s (splitRelay m p s) := by
  unfold splitRelay
  repeat'
    first
      | with_reducible exact Keeps.refl _
      | with_reducible apply Keeps.trans' (kwSend_keeps ..)
      | split

theorem splitMsg_keeps (l : Nat) (m : Msg) (take : Cmd → Run → State → State) (s : State)
    (h : ∀ c r st, Keeps st (take c r st)) : Keeps s (splitMsg l m take s) := by
  unfold splitMsg
  split
  · exact Keeps.ite (h ..) (splitRelay_keeps ..)
  · split
    · exact Keeps.ite (Keeps.refl s) (splitRelay_keeps ..)
    · exact Keeps.refl s

theorem spinsIn_keeps (m : Msg) (c : Cmd) (r : Run) (s : State) : Keeps s (spinsIn m c r s) := by
  unfold spinsIn
  repeat'
    first
      | with_reducible exact Keeps.refl _
      | with_reducible apply Keeps.trans' (setRun_keeps ..)

theorem energyIn_keeps (m : Msg) (c : Cmd) (r : Run) (s : State) : Keeps s (energyIn m c r s) := by
  unfold energyIn
  repeat'
    first
      | with_reducible exact Keeps.refl _
      | with_reducible apply Keeps.trans' (setRun_keeps ..)
      | with_reducible apply Keeps.trans' (splitStart_keeps ..)
      | extract_lets
      | with_reducible apply Keeps.ite

theorem relayFail_keeps (m : Msg) (p : SplitSt) (s : State) : Keeps s (relayFail m p s) := by
  unfold relayFail
  repeat'
    first
      | with_reducible exact Keeps.refl _
      | with_reducible refine Keeps.pair ‹_› ?_
      | with_reducible refine Keeps.pair2 ‹_› ?_
      | with_reducible apply Keeps.trans' (kwSend_keeps ..)
      | with_reducible refine Keeps.trans' (Keeps.foldl (fun _ _ => ?_) ..) ?_
      | extract_lets
      | with_reducible apply Keeps.ite
      | with_reducible apply Keeps.ite2
      | split

/-! ## Pcie -/

theorem flrKill_keeps (c : Cmd) (s : State) : Keeps s (flrKill c s) := by
  unfold flrKill
  repeat'
    first
      | with_reducible exact Keeps.refl _
      | with_reducible refine Keeps.pair ‹_› ?_
      | with_reducible refine Keeps.pair2 ‹_› ?_
      | with_reducible apply Keeps.trans' (releaseEngines_keeps ..)
      | with_reducible apply Keeps.trans' (engineFate_keeps ..)
      | with_reducible apply Keeps.trans' (dropCmd_keeps ..)
      | with_reducible apply Keeps.trans' (sendSplitFail_keeps ..)
      | with_reducible apply Keeps.trans' (sendCmdEnd_keeps ..)
      | with_reducible apply Keeps.trans' (dropWork_keeps ..)
      | with_reducible apply Keeps.trans' (endLoad_keeps ..)
      | with_reducible apply Keeps.trans' (flogWrite_keeps ..)
      | with_reducible apply Keeps.trans' (destroyCount_keeps ..)
      | extract_lets
      | with_reducible apply Keeps.ite
      | with_reducible apply Keeps.ite2
      | split
      | dsimp only
      | with_reducible refine Keeps.upd ?_ rfl rfl rfl rfl rfl rfl rfl rfl

theorem flrDestroy_keeps (q : Nat) (s : State) : Keeps s (flrDestroy q s) := by
  unfold flrDestroy
  repeat'
    first
      | with_reducible exact Keeps.refl _
      | with_reducible apply Keeps.trans' (updQue_keeps ..)

theorem flrQueue_keeps (q : Nat) (s : State) : Keeps s (flrQueue q s) := by
  unfold flrQueue
  repeat'
    first
      | with_reducible exact Keeps.refl _
      | with_reducible apply Keeps.trans' (setQue_keeps ..)
      | with_reducible apply Keeps.trans' (destroyLogged_keeps ..)

theorem flrConfig_keeps (s : State) : Keeps s (flrConfig s) := by
  unfold flrConfig
  repeat'
    first
      | with_reducible exact Keeps.refl _
      | extract_lets
      | with_reducible refine Keeps.upd ?_ rfl rfl rfl rfl rfl rfl rfl rfl

theorem pcieReset_keeps (s : State) : Keeps s (pcieReset s) := by
  unfold pcieReset
  repeat'
    first
      | with_reducible exact Keeps.refl _
      | with_reducible apply Keeps.trans' (settle_keeps ..)
      | with_reducible apply Keeps.trans' (flrKill_keeps ..)
      | with_reducible apply Keeps.trans' (flrDestroy_keeps ..)
      | with_reducible apply Keeps.trans' (flrQueue_keeps ..)
      | with_reducible apply Keeps.trans' (flrConfig_keeps ..)
      | with_reducible refine Keeps.trans' (Keeps.foldl (fun _ _ => ?_) ..) ?_

/-! ## Power -/

theorem endThrottle_keeps (a s : State) : Keeps s (endThrottle a s) := by
  unfold endThrottle
  split
  · exact Keeps.trans (Keeps.upd (Keeps.refl s) rfl rfl rfl rfl rfl rfl rfl rfl) (logSev_keeps ..)
  · exact Keeps.refl s

theorem pwrCfg_keeps (v : Word) (s : State) : Keeps s (pwrCfg v s) := by
  unfold pwrCfg
  extract_lets
  refine Keeps.ite (pwrFlag_keeps ..) ?_
  exact Keeps.trans' (endThrottle_keeps ..) (Keeps.trans' (sendVout_keeps _) (Keeps.trans' (logSev_keeps ..) (Keeps.upd (Keeps.refl s) rfl rfl rfl rfl rfl rfl rfl rfl)))

theorem noteSample_keeps (p : PowerReading) (s : State) : Keeps s (noteSample p s) := by
  unfold noteSample
  repeat'
    first
      | with_reducible exact Keeps.refl _
      | with_reducible refine Keeps.trans' (Keeps.foldl (fun _ _ => ?_) ..) ?_
      | extract_lets
      | split
      | with_reducible refine Keeps.upd ?_ rfl rfl rfl rfl rfl rfl rfl rfl

theorem lowerStage_keeps (power : Bool) (temp : Bool) (s : State) : Keeps s (lowerStage power temp s) := by
  unfold lowerStage
  extract_lets p cause act hold s1 s2
  split
  · exact Keeps.refl s
  have k1 : Keeps s s1 := Keeps.upd (Keeps.refl s) rfl rfl rfl rfl rfl rfl rfl rfl
  have k2 : Keeps s s2 := (k1.trans (Keeps.ite (pwrFlag_keeps ..) (Keeps.refl _))).trans (pwrFlag_keeps ..)
  clear_value s1 s2
  exact (k2.trans (logSev_keeps ..)).trans (sendVout_keeps _)

theorem raiseStage_keeps (s : State) : Keeps s (raiseStage s) :=
  Keeps.trans (Keeps.trans' (sendVout_keeps _) (Keeps.upd (Keeps.refl s) rfl rfl rfl rfl rfl rfl rfl rfl)) (endThrottle_keeps ..)

theorem throttleTime_keeps (s : State) : Keeps s (throttleTime s) := by
  unfold throttleTime
  repeat'
    first
      | with_reducible exact Keeps.refl _
      | extract_lets
      | with_reducible apply Keeps.ite
      | split
      | with_reducible refine Keeps.upd ?_ rfl rfl rfl rfl rfl rfl rfl rfl

theorem trimVcore_keeps (s : State) : Keeps s (trimVcore s) := by
  unfold trimVcore
  extract_lets
  exact Keeps.ite (Keeps.refl s) (Keeps.trans' (sendVout_keeps _) (Keeps.upd (Keeps.refl s) rfl rfl rfl rfl rfl rfl rfl rfl))

theorem powerSample_keeps (p : PowerReading) (s : State) : Keeps s (powerSample p s) := by
  unfold powerSample
  repeat'
    first
      | with_reducible exact Keeps.refl _
      | with_reducible apply Keeps.trans' (noteSample_keeps ..)
      | with_reducible apply Keeps.trans' (lowerStage_keeps ..)
      | with_reducible apply Keeps.trans' (raiseStage_keeps ..)
      | with_reducible apply Keeps.trans' (throttleTime_keeps ..)
      | with_reducible apply Keeps.trans' (trimVcore_keeps ..)
      | extract_lets
      | with_reducible apply Keeps.ite
      | split
      | with_reducible refine Keeps.upd ?_ rfl rfl rfl rfl rfl rfl rfl rfl

theorem supplyEdge_keeps (code : Nat) (flag : Nat) (asserted : Bool) (s : State) :
    Keeps s (supplyEdge code flag asserted s) := by
  unfold supplyEdge
  repeat'
    first
      | with_reducible exact Keeps.refl _
      | with_reducible apply Keeps.trans' (pwrFlag_keeps ..)
      | with_reducible apply Keeps.trans' (logSev_keeps ..)
      | with_reducible apply Keeps.ite

theorem portWakes_keeps (d : Nat) (s : State) : Keeps s (portWakes d s) := by
  unfold portWakes
  repeat'
    first
      | with_reducible exact Keeps.refl _
      | with_reducible apply Keeps.trans' (updLnk_keeps ..)
      | with_reducible apply Keeps.ite

theorem zeroDomain_keeps (d : Nat) (s : State) : Keeps s (zeroDomain d s) := by
  unfold zeroDomain
  repeat'
    first
      | with_reducible exact Keeps.refl _
      | with_reducible apply Keeps.trans' (zeroSpad_keeps ..)
      | with_reducible apply Keeps.trans' (zeroCluster_keeps ..)
      | with_reducible apply Keeps.ite

theorem enginesOff_keeps (c : Nat) (s : State) : Keeps s (enginesOff c s) := by
  unfold enginesOff
  repeat'
    first
      | with_reducible exact Keeps.refl _
      | with_reducible refine Keeps.pair ‹_› ?_
      | with_reducible refine Keeps.pair2 ‹_› ?_
      | with_reducible apply Keeps.trans' (setDom_keeps ..)
      | with_reducible refine Keeps.trans' (Keeps.foldl (fun _ _ => ?_) ..) ?_
      | extract_lets
      | with_reducible apply Keeps.ite

theorem clusterOffline_keeps (c : Nat) (s : State) : Keeps s (clusterOffline c s) := by
  unfold clusterOffline
  repeat'
    first
      | with_reducible exact Keeps.refl _
      | with_reducible refine Keeps.pair ‹_› ?_
      | with_reducible refine Keeps.pair2 ‹_› ?_
      | with_reducible apply Keeps.trans' (updEng_keeps ..)
      | with_reducible apply Keeps.trans' (enginesOff_keeps ..)
      | with_reducible refine Keeps.trans' (Keeps.foldl (fun _ _ => ?_) ..) ?_
      | extract_lets
      | with_reducible apply Keeps.ite
      | with_reducible apply Keeps.ite2
      | split
      | dsimp only
      | intro _
      | with_reducible refine Keeps.upd ?_ rfl rfl rfl rfl rfl rfl rfl rfl

theorem domainFails_keeps (d : Nat) (s : State) : Keeps s (domainFails d s) := by
  unfold domainFails
  repeat'
    first
      | with_reducible exact Keeps.refl _
      | with_reducible apply Keeps.trans' (engineFail_keeps ..)
      | with_reducible apply Keeps.trans' (clusterOffline_keeps ..)
      | with_reducible apply Keeps.ite

theorem loseDomain_keeps (d : Nat) (s : State) : Keeps s (loseDomain d s) := by
  unfold loseDomain
  repeat'
    first
      | with_reducible exact Keeps.refl _
      | with_reducible refine Keeps.pair ‹_› ?_
      | with_reducible refine Keeps.pair2 ‹_› ?_
      | with_reducible apply Keeps.trans' (zeroDomain_keeps ..)
      | with_reducible apply Keeps.trans' (updEng_keeps ..)
      | with_reducible apply Keeps.trans' (linkTo_keeps ..)
      | extract_lets
      | with_reducible apply Keeps.ite
      | with_reducible apply Keeps.ite2
      | split

/-! ## Service -/

theorem svcAnswer_keeps (op : Nat) (status : Nat) (body : List Byte) (s : State) : Keeps s (svcAnswer op status body s) := by
  unfold svcAnswer
  repeat'
    first
      | with_reducible exact Keeps.refl _
      | with_reducible apply Keeps.trans' (emit_keeps ..)
      | with_reducible apply Keeps.trans' (svcFlag_keeps ..)
      | extract_lets
      | with_reducible apply Keeps.ite
      | split
      | with_reducible refine Keeps.upd ?_ rfl rfl rfl rfl rfl rfl rfl rfl

theorem svcBegin_keeps (op : Nat) (s : State) : Keeps s (svcBegin op s) := by
  unfold svcBegin
  repeat'
    first
      | with_reducible exact Keeps.refl _
      | with_reducible refine Keeps.pair ‹_› ?_
      | with_reducible refine Keeps.pair2 ‹_› ?_
      | extract_lets
      | with_reducible apply Keeps.ite
      | with_reducible apply Keeps.ite2
      | split
      | dsimp only
      | intro _
      | with_reducible refine Keeps.upd ?_ rfl rfl rfl rfl rfl rfl rfl rfl

theorem serve_keeps (op : Nat) (act : State → State) (s : State) (hf : ∀ st, Keeps st (act st)) :
    Keeps s (serve op act s) := by
  unfold serve
  split
  · exact Keeps.refl s
  split
  · exact svcAnswer_keeps ..
  · exact (svcBegin_keeps ..).trans (hf _)

theorem svcBadFrame_keeps (op : Nat) (s : State) : Keeps s (svcBadFrame op s) :=
  svcAnswer_keeps ..

theorem svcAuth_keeps (op : Nat) (s : State) : Keeps s (svcAuth op s) := by
  unfold svcAuth
  repeat'
    first
      | with_reducible exact Keeps.refl _
      | with_reducible apply Keeps.trans' (logEvent_keeps ..)
      | with_reducible apply Keeps.trans' (svcAnswer_keeps ..)

theorem ownerAccept_keeps (r : SvcReq) (s : State) : Keeps s (ownerAccept r s) := by
  unfold ownerAccept
  repeat'
    first
      | with_reducible exact Keeps.refl _
      | with_reducible apply Keeps.trans' (svcFlag_keeps ..)
      | with_reducible refine Keeps.upd ?_ rfl rfl rfl rfl rfl rfl rfl rfl

theorem serveOwner_keeps (op : Nat) (shape : Bool) (act : State → Option State) (r : SvcReq) (s : State)
    (hact : ∀ st t, act st = some t → Keeps st t) : Keeps s (serveOwner op shape act r s) := by
  refine serve_keeps _ _ _ fun st => ?_
  split
  · exact svcBadFrame_keeps ..
  split
  · exact svcAuth_keeps ..
  split
  · exact (hact _ _ ‹_›).trans ((ownerAccept_keeps ..).trans (svcAnswer_keeps ..))
  · exact (logEvent_keeps ..).trans (svcAnswer_keeps ..)

theorem portRetrain_keeps (p : Nat) (s : State) : Keeps s (portRetrain p s) := by
  unfold portRetrain
  repeat'
    first
      | with_reducible exact Keeps.refl _
      | with_reducible refine Keeps.pair ‹_› ?_
      | with_reducible refine Keeps.pair2 ‹_› ?_
      | with_reducible apply Keeps.trans' (updPrt_keeps ..)

theorem svcRefuse_keeps (op : Nat) (reason : Nat) (s : State) : Keeps s (svcRefuse op reason s) := by
  unfold svcRefuse
  repeat'
    first
      | with_reducible exact Keeps.refl _
      | with_reducible apply Keeps.trans' (fwFlag_keeps ..)
      | with_reducible apply Keeps.trans' (logEvent_keeps ..)
      | with_reducible apply Keeps.trans' (svcAnswer_keeps ..)
      | extract_lets
      | with_reducible refine Keeps.upd ?_ rfl rfl rfl rfl rfl rfl rfl rfl

theorem serveLife_keeps (op : Nat) (shape auth : Bool) (own : State → Option Nat) (act : State → State) (s : State)
    (hact : ∀ st, Keeps st (act st)) : Keeps s (serveLife op shape auth own act s) := by
  refine serve_keeps _ _ _ fun st => ?_
  split
  · exact svcBadFrame_keeps ..
  split
  · exact svcAuth_keeps ..
  split
  · exact svcRefuse_keeps ..
  · exact hact _

theorem ownerOk_keeps (op : Nat) (r : SvcReq) (s : State) : Keeps s (ownerOk op r s) := by
  unfold ownerOk
  repeat'
    first
      | with_reducible exact Keeps.refl _
      | with_reducible apply Keeps.trans' (svcAnswer_keeps ..)
      | with_reducible apply Keeps.trans' (ownerAccept_keeps ..)

theorem releaseOwner_keeps (s : State) : Keeps s (releaseOwner s) :=
  Keeps.upd (Keeps.refl s) rfl rfl rfl rfl rfl rfl rfl rfl

theorem ownerLock_keeps (on : Bool) (s : State) : Keeps s (ownerLock on s) := by
  unfold ownerLock
  repeat'
    first
      | with_reducible exact Keeps.refl _
      | with_reducible apply Keeps.trans' (logEvent_keeps ..)
      | with_reducible refine Keeps.upd ?_ rfl rfl rfl rfl rfl rfl rfl rfl

/-! ## RegRead -/

theorem regRead32_keeps (p : Path) (a : Nat) (s : State) : Keeps s (regRead32 p a s).2 := by
  unfold regRead32
  repeat'
    first
      | with_reducible exact Keeps.refl _
      | with_reducible refine Keeps.pair ‹_› ?_
      | with_reducible refine Keeps.pair2 ‹_› ?_
      | with_reducible apply Keeps.trans' (feBadAccess_keeps ..)
      | with_reducible apply Keeps.trans' (rngSwData_keeps ..)
      | with_reducible apply Keeps.trans' (carafeErr_keeps ..)
      | with_reducible apply Keeps.trans' (icuClaim_keeps ..)
      | extract_lets
      | with_reducible apply Keeps.ite
      | with_reducible apply Keeps.ite2
      | split
      | dsimp only
      | with_reducible refine Keeps.upd ?_ rfl rfl rfl rfl rfl rfl rfl rfl

theorem regRead_keeps (p : Path) (a : Nat) (bytes : Nat) (s : State) : Keeps s (regRead p a bytes s).2 := by
  unfold regRead
  repeat'
    first
      | with_reducible exact Keeps.refl _
      | with_reducible refine Keeps.pair ‹_› ?_
      | with_reducible apply Keeps.trans' (feBadAccess_keeps ..)
      | with_reducible apply Keeps.trans' (regRead32_keeps ..)
      | extract_lets
      | with_reducible apply Keeps.ite
      | with_reducible apply Keeps.ite2

/-! ## VectorIns -/

theorem vopIns_keeps (x : Ectx) (s : State) : Keeps s (vopIns x s) := by
  unfold vopIns
  repeat'
    first
      | with_reducible exact Keeps.refl _
      | with_reducible refine Keeps.pair ‹_› ?_
      | with_reducible refine Keeps.pair2 ‹_› ?_
      | with_reducible apply Keeps.trans' (progFault_keeps ..)
      | with_reducible apply Keeps.trans' (readOp_keeps ..)
      | with_reducible apply Keeps.trans' (retire_keeps ..)
      | with_reducible apply Keeps.trans' (writeSpan_keeps ..)
      | extract_lets
      | with_reducible apply Keeps.ite
      | with_reducible apply Keeps.ite2
      | split
      | dsimp only
      | intro _

theorem extRead_keeps (x : Ectx) (a : ExtAddr) (off : Nat) (len : Nat) (s : State) : Keeps s (extRead x a off len s).2 := by
  unfold extRead
  repeat'
    first
      | with_reducible exact Keeps.refl _
      | with_reducible refine Keeps.pair ‹_› ?_
      | with_reducible apply Keeps.trans' (clusterRead_keeps ..)
      | with_reducible apply Keeps.trans' (devRead_keeps ..)
      | with_reducible apply Keeps.ite
      | with_reducible apply Keeps.ite2
      | split

theorem extWrite_keeps (x : Ectx) (a : ExtAddr) (off : Nat) (bs : List Byte) (s : State) :
    Keeps s (extWrite x a off bs s).2 := by
  unfold extWrite
  repeat'
    first
      | with_reducible exact Keeps.refl _
      | with_reducible refine Keeps.pair ‹_› ?_
      | with_reducible apply Keeps.trans' (clusterWrite_keeps ..)
      | with_reducible apply Keeps.trans' (devWrite_keeps ..)
      | with_reducible apply Keeps.ite
      | with_reducible apply Keeps.ite2
      | split

theorem extFail_keeps (x : Ectx) (d : Decision) (s : State) : Keeps s (extFail x d s) := by
  unfold extFail
  repeat'
    first
      | with_reducible exact Keeps.refl _
      | with_reducible apply Keeps.trans' (failCmd_keeps ..)
      | with_reducible apply Keeps.trans' (complete_keeps ..)
      | with_reducible apply Keeps.trans' (progFault_keeps ..)
      | with_reducible apply Keeps.ite

theorem readRuns_keeps (x : Ectx) (a : ExtAddr) (x0 : List (Nat × Nat)) (s : State) : Keeps s (readRuns x a x0 s).2 := by
  fun_induction readRuns x a x0 s <;> repeat'
    first
      | with_reducible exact Keeps.refl _
      | with_reducible apply Keeps.trans' ‹Keeps _ _›
      | with_reducible refine Keeps.pair ‹_› ?_
      | with_reducible apply Keeps.trans' (extRead_keeps ..)

theorem writeRuns_keeps (x : Ectx) (a : ExtAddr) (x0 : List (Nat × Nat)) (x1 : List Byte) (s : State) :
    Keeps s (writeRuns x a x0 x1 s).2 := by
  fun_induction writeRuns x a x0 x1 s <;> repeat'
    first
      | with_reducible exact Keeps.refl _
      | with_reducible apply Keeps.trans' ‹Keeps _ _›
      | with_reducible refine Keeps.pair ‹_› ?_
      | with_reducible apply Keeps.trans' (extWrite_keeps ..)

theorem noteDma_keeps (n : Nat) (pc : Nat) (s : State) : Keeps s (noteDma n pc s) := by
  unfold noteDma
  repeat'
    first
      | with_reducible exact Keeps.refl _
      | with_reducible refine Keeps.pair ‹_› ?_
      | with_reducible refine Keeps.pair2 ‹_› ?_
      | with_reducible apply Keeps.trans' (updEng_keeps ..)

theorem deliverIn_keeps (cast : Bool) (k : Key) (n : Nat) (i : Nat) (pc : Nat) (ps : List (Nat × Nat)) (bs : List Byte)
    (s : State) : Keeps s (deliverIn cast k n i pc ps bs s) := by
  unfold deliverIn
  exact ((writeSpanBy_keeps ..).trans (updProg_keeps ..)).trans (noteDma_keeps ..)

theorem dmaOutward_keeps (x : Ectx) (a : ExtAddr) (runs : List (Nat × Nat)) (len : Nat) (s : State) :
    Keeps s (dmaOutward x a runs len s) := by
  unfold dmaOutward
  repeat'
    first
      | with_reducible exact Keeps.refl _
      | with_reducible refine Keeps.pair ‹_› ?_
      | with_reducible refine Keeps.pair2 ‹_› ?_
      | with_reducible apply Keeps.trans' (readOp_keeps ..)
      | with_reducible apply Keeps.trans' (writeRuns_keeps ..)
      | with_reducible apply Keeps.trans' (extFail_keeps ..)
      | with_reducible apply Keeps.trans' (updProg_keeps ..)
      | with_reducible apply Keeps.trans' (retire_keeps ..)
      | with_reducible apply Keeps.trans' (noteDma_keeps ..)
      | extract_lets
      | with_reducible apply Keeps.ite
      | with_reducible apply Keeps.ite2
      | split
      | dsimp only
      | intro _

theorem dmaInward_keeps (x : Ectx) (a : ExtAddr) (runs : List (Nat × Nat)) (ps : List (Nat × Nat)) (s : State) :
    Keeps s (dmaInward x a runs ps s) := by
  unfold dmaInward
  repeat'
    first
      | with_reducible exact Keeps.refl _
      | with_reducible refine Keeps.pair ‹_› ?_
      | with_reducible refine Keeps.pair2 ‹_› ?_
      | with_reducible apply Keeps.trans' (readRuns_keeps ..)
      | with_reducible apply Keeps.trans' (extFail_keeps ..)
      | with_reducible apply Keeps.trans' (retire_keeps ..)
      | with_reducible apply Keeps.trans' (deliverIn_keeps ..)
      | extract_lets
      | with_reducible apply Keeps.ite
      | with_reducible apply Keeps.ite2
      | split

theorem shareEnds_keeps (x : Ectx) (a : ExtAddr) (runs : List (Nat × Nat)) (waits : List ShareWait) (s : State) :
    Keeps s (shareEnds x a runs waits s) := by
  unfold shareEnds
  repeat'
    first
      | with_reducible exact Keeps.refl _
      | with_reducible refine Keeps.pair ‹_› ?_
      | with_reducible refine Keeps.pair2 ‹_› ?_
      | with_reducible apply Keeps.trans' (readRuns_keeps ..)
      | with_reducible apply Keeps.trans' (extFail_keeps ..)
      | with_reducible apply Keeps.trans' (updProg_keeps ..)
      | with_reducible apply Keeps.trans' (retireWaiting_keeps ..)
      | with_reducible apply Keeps.trans' (deliverIn_keeps ..)
      | with_reducible refine Keeps.trans' (Keeps.foldl (fun _ _ => ?_) ..) ?_
      | extract_lets
      | with_reducible apply Keeps.ite
      | with_reducible apply Keeps.ite2
      | split

theorem dmaShared_keeps (x : Ectx) (tag : Nat) (a : ExtAddr) (runs : List (Nat × Nat)) (ps : List (Nat × Nat)) (len : Nat)
    (s : State) : Keeps s (dmaShared x tag a runs ps len s) := by
  unfold dmaShared
  repeat'
    first
      | with_reducible exact Keeps.refl _
      | with_reducible refine Keeps.pair ‹_› ?_
      | with_reducible refine Keeps.pair2 ‹_› ?_
      | with_reducible apply Keeps.trans' (progFault_keeps ..)
      | with_reducible apply Keeps.trans' (updProg_keeps ..)
      | with_reducible apply Keeps.trans' (beginIns_keeps ..)
      | with_reducible apply Keeps.trans' (shareEnds_keeps ..)
      | extract_lets
      | with_reducible apply Keeps.ite
      | with_reducible apply Keeps.ite2
      | split

theorem dmaIns_keeps (x : Ectx) (s : State) : Keeps s (dmaIns x s) := by
  unfold dmaIns
  repeat'
    first
      | with_reducible exact Keeps.refl _
      | with_reducible apply Keeps.trans' (progFault_keeps ..)
      | with_reducible apply Keeps.trans' (dmaOutward_keeps ..)
      | with_reducible apply Keeps.trans' (dmaInward_keeps ..)
      | with_reducible apply Keeps.trans' (dmaShared_keeps ..)
      | extract_lets
      | with_reducible apply Keeps.ite
      | split

theorem atomfIns_keeps (x : Ectx) (s : State) : Keeps s (atomfIns x s) := by
  unfold atomfIns
  repeat'
    first
      | with_reducible exact Keeps.refl _
      | with_reducible refine Keeps.pair ‹_› ?_
      | with_reducible refine Keeps.pair2 ‹_› ?_
      | with_reducible apply Keeps.trans' (readOp_keeps ..)
      | with_reducible apply Keeps.trans' (progFault_keeps ..)
      | with_reducible apply Keeps.trans' (clusterRead_keeps ..)
      | with_reducible apply Keeps.trans' (extFail_keeps ..)
      | with_reducible apply Keeps.trans' (retire_keeps ..)
      | with_reducible apply Keeps.trans' (clusterWrite_keeps ..)
      | extract_lets
      | with_reducible apply Keeps.ite
      | with_reducible apply Keeps.ite2
      | split
      | dsimp only
      | intro _

theorem winWriteAll_keeps (size : Bool) (w : Nat) (v : Word) (s : State) : Keeps s (winWriteAll size w v s) := by
  unfold winWriteAll
  repeat'
    first
      | with_reducible exact Keeps.refl _
      | with_reducible apply Keeps.trans' (updEng_keeps ..)
      | with_reducible refine Keeps.trans' (Keeps.foldl (fun _ _ => ?_) ..) ?_

/-! ## RegWrite -/

theorem feWrite_keeps (o : Nat) (v : Word) (s : State) : Keeps s (feWrite o v s) := by
  unfold feWrite
  repeat'
    first
      | with_reducible exact Keeps.refl _
      | with_reducible apply Keeps.trans' (aqEnable_keeps ..)
      | with_reducible apply Keeps.trans' (aqDisable_keeps ..)
      | with_reducible apply Keeps.trans' (bar0DbSq_keeps ..)
      | with_reducible apply Keeps.trans' (bar0DbCq_keeps ..)
      | extract_lets
      | with_reducible apply Keeps.ite
      | split
      | with_reducible refine Keeps.upd ?_ rfl rfl rfl rfl rfl rfl rfl rfl

theorem icuTWrite_keeps (t : Nat) (o : Nat) (v : Word) (s : State) : Keeps s (icuTWrite t o v s) := by
  unfold icuTWrite
  repeat'
    first
      | with_reducible exact Keeps.refl _
      | with_reducible apply Keeps.trans' (updTgt_keeps ..)
      | with_reducible apply Keeps.trans' (icuComplete_keeps ..)
      | with_reducible apply Keeps.trans' (icuTCtrl_keeps ..)
      | with_reducible apply Keeps.ite
      | split

theorem icuLocalWrite_keeps (o : Nat) (v : Word) (s : State) : Keeps s (icuLocalWrite o v s) := by
  unfold icuLocalWrite
  repeat'
    first
      | with_reducible exact Keeps.refl _
      | with_reducible apply Keeps.trans' (icuPendSet_keeps ..)
      | with_reducible apply Keeps.trans' (icuPendClr_keeps ..)
      | with_reducible apply Keeps.trans' (icuEnSet_keeps ..)
      | with_reducible apply Keeps.trans' (icuEnClr_keeps ..)
      | with_reducible apply Keeps.trans' (icuSrcCfg_keeps ..)
      | with_reducible apply Keeps.trans' (icuTWrite_keeps ..)
      | extract_lets
      | with_reducible apply Keeps.ite
      | split
      | with_reducible refine Keeps.upd ?_ rfl rfl rfl rfl rfl rfl rfl rfl

theorem icuRegWrite_keeps (p : Path) (o : Nat) (v : Word) (s : State) : Keeps s (icuRegWrite p o v s) := by
  unfold icuRegWrite
  repeat'
    first
      | with_reducible exact Keeps.refl _
      | with_reducible apply Keeps.trans' (icuDenied_keeps ..)
      | with_reducible apply Keeps.trans' (icuLocalWrite_keeps ..)
      | with_reducible apply Keeps.ite
      | split
      | with_reducible refine Keeps.upd ?_ rfl rfl rfl rfl rfl rfl rfl rfl

theorem memWrite_keeps (o : Nat) (v : Word) (s : State) : Keeps s (memWrite o v s) := by
  unfold memWrite
  repeat'
    first
      | with_reducible exact Keeps.refl _
      | extract_lets
      | with_reducible apply Keeps.ite
      | split
      | with_reducible refine Keeps.upd ?_ rfl rfl rfl rfl rfl rfl rfl rfl

theorem rngWrite_keeps (p : Path) (o : Nat) (v : Word) (s : State) : Keeps s (rngWrite p o v s) := by
  unfold rngWrite
  repeat'
    first
      | with_reducible exact Keeps.refl _
      | with_reducible apply Keeps.trans' (rngFlag_keeps ..)
      | with_reducible apply Keeps.trans' (rngCtrlWrite_keeps ..)
      | extract_lets
      | with_reducible apply Keeps.ite
      | split
      | with_reducible refine Keeps.upd ?_ rfl rfl rfl rfl rfl rfl rfl rfl

theorem anlWrite_keeps (o : Nat) (v : Word) (s : State) : Keeps s (anlWrite o v s) := by
  unfold anlWrite
  repeat'
    first
      | with_reducible exact Keeps.refl _
      | split
      | with_reducible refine Keeps.upd ?_ rfl rfl rfl rfl rfl rfl rfl rfl

theorem arrWrite_keeps (o : Nat) (v : Word) (s : State) : Keeps s (arrWrite o v s) := by
  unfold arrWrite
  repeat'
    first
      | with_reducible exact Keeps.refl _
      | split
      | with_reducible refine Keeps.upd ?_ rfl rfl rfl rfl rfl rfl rfl rfl

theorem spadRegWrite_keeps (o : Nat) (v : Word) (s : State) : Keeps s (spadRegWrite o v s) := by
  unfold spadRegWrite
  repeat'
    first
      | with_reducible exact Keeps.refl _
      | with_reducible apply Keeps.trans' (winWriteAll_keeps ..)
      | split

theorem engWrite_keeps (n : Nat) (o : Nat) (v : Word) (s : State) : Keeps s (engWrite n o v s) := by
  unfold engWrite
  repeat'
    first
      | with_reducible exact Keeps.refl _
      | with_reducible apply Keeps.trans' (updEng_keeps ..)
      | with_reducible apply Keeps.ite
      | split

theorem detWrite_keeps (o : Nat) (v : Word) (s : State) : Keeps s (detWrite o v s) := by
  unfold detWrite
  repeat'
    first
      | with_reducible exact Keeps.refl _
      | extract_lets
      | with_reducible apply Keeps.ite
      | split
      | with_reducible refine Keeps.upd ?_ rfl rfl rfl rfl rfl rfl rfl rfl

theorem streamWrite_keeps (i : Nat) (k : Nat) (v : Word) (s : State) : Keeps s (streamWrite i k v s) := by
  unfold streamWrite
  repeat'
    first
      | with_reducible exact Keeps.refl _
      | with_reducible apply Keeps.trans' (updStrm_keeps ..)
      | with_reducible apply Keeps.trans' (streamEnable_keeps ..)
      | with_reducible apply Keeps.trans' (streamStop_keeps ..)
      | with_reducible apply Keeps.ite

theorem ingWrite_keeps (o : Nat) (v : Word) (s : State) : Keeps s (ingWrite o v s) := by
  unfold ingWrite
  repeat'
    first
      | with_reducible exact Keeps.refl _
      | with_reducible apply Keeps.trans' (streamWrite_keeps ..)
      | with_reducible apply Keeps.ite
      | split
      | with_reducible refine Keeps.upd ?_ rfl rfl rfl rfl rfl rfl rfl rfl

theorem kwWrite_keeps (o : Nat) (v : Word) (s : State) : Keeps s (kwWrite o v s) := by
  unfold kwWrite
  repeat'
    first
      | with_reducible exact Keeps.refl _
      | with_reducible apply Keeps.trans' (retrainLink_keeps ..)
      | with_reducible apply Keeps.ite
      | split
      | with_reducible refine Keeps.upd ?_ rfl rfl rfl rfl rfl rfl rfl rfl

theorem svcWrite_keeps (o : Nat) (v : Word) (s : State) : Keeps s (svcWrite o v s) := by
  unfold svcWrite
  repeat'
    first
      | with_reducible exact Keeps.refl _
      | split
      | with_reducible refine Keeps.upd ?_ rfl rfl rfl rfl rfl rfl rfl rfl

theorem bbWrite_keeps (o : Nat) (v : Word) (s : State) : Keeps s (bbWrite o v s) := by
  unfold bbWrite
  repeat'
    first
      | with_reducible exact Keeps.refl _
      | split
      | with_reducible refine Keeps.upd ?_ rfl rfl rfl rfl rfl rfl rfl rfl

theorem pwrWrite_keeps (o : Nat) (v : Word) (s : State) : Keeps s (pwrWrite o v s) := by
  unfold pwrWrite
  repeat'
    first
      | with_reducible exact Keeps.refl _
      | with_reducible apply Keeps.trans' (pwrCfg_keeps ..)
      | split
      | with_reducible refine Keeps.upd ?_ rfl rfl rfl rfl rfl rfl rfl rfl

theorem msixWrite_keeps (o : Nat) (v : Word) (s : State) : Keeps s (msixWrite o v s) := by
  unfold msixWrite
  repeat'
    first
      | with_reducible exact Keeps.refl _
      | with_reducible apply Keeps.trans' (msixRelease_keeps ..)
      | with_reducible apply Keeps.ite
      | split
      | with_reducible refine Keeps.upd ?_ rfl rfl rfl rfl rfl rfl rfl rfl

end Sys2Proof.Machine
end

