-- ==== Sys2Proof/Laws/KeepsExec.lean ====
section
/-! SUPPORT. What one command keeps: every row but the resets, BOOT, a confirmed or abandoned trial and the requests
that change the lifecycle (those are in Laws/Ages.lean). -/

namespace Sys2Proof.Machine

/-! ## Blocks -/

theorem execAdmission_keeps {s' : State} {s : State}
    (h : execAdmission s = .next s') : Keeps s s' := by
  obtain rfl := Host.Outcome.next.inj h
  repeat'
    first
      | with_reducible exact Keeps.refl _
      | with_reducible apply Keeps.trans' (admitCmd_keeps ..)
      | with_reducible apply Keeps.ite
      | split

/-! ## Trng -/

theorem execBlockPeriod_keeps {s' : State} {raw : BitVec 1024} {s : State}
    (h : execBlockPeriod raw s = .next s') : Keeps s s' := by
  obtain rfl := Host.Outcome.next.inj h
  extract_lets r
  split
  · exact Keeps.refl s
  · exact Keeps.refl s
  · split
    · exact rngBlock_keeps ..
    · exact (rngCount_keeps ..).trans (rngFailure_keeps ..)
  · split
    · exact Keeps.refl s
    · split
      · exact Keeps.upd (Keeps.refl s) rfl rfl rfl rfl rfl rfl rfl rfl
      · exact (rngCount_keeps ..).trans (startupFails_keeps ..)

theorem execStartupTestEnd_keeps {s' : State} {katOk : Bool} {s : State}
    (h : execStartupTestEnd katOk s = .next s') : Keeps s s' := by
  obtain rfl := Host.Outcome.next.inj h
  extract_lets r
  exact Keeps.ite (Keeps.ite (startupPasses_keeps s) (startupFails_keeps ..)) (Keeps.refl s)

theorem execFailRunClear_keeps {s' : State} {s : State}
    (h : execFailRunClear s = .next s') : Keeps s s' := by
  obtain rfl := Host.Outcome.next.inj h
  repeat'
    first
      | with_reducible exact Keeps.refl _
      | with_reducible apply Keeps.ite
      | split
      | with_reducible refine Keeps.upd ?_ rfl rfl rfl rfl rfl rfl rfl rfl

theorem execRngRequest_keeps {s' : State} {port : Fin 3} {s : State}
    (h : execRngRequest port s = .next s') : Keeps s s' := by
  obtain rfl := Host.Outcome.next.inj h
  split
  · exact emit_keeps ..
  · exact emit_keeps ..
  · split
    · exact (takeWordIf_keeps ‹_›).trans (deliverWord_keeps ..)
    · exact Keeps.upd (Keeps.refl s) rfl rfl rfl rfl rfl rfl rfl rfl

theorem execRngSwStatRead_keeps {s' : State} {p : Path} {bytes : Nat} {s : State}
    (h : execRngSwStatRead p bytes s = .next s') : Keeps s s' := by
  obtain rfl := Host.Outcome.next.inj h
  repeat'
    first
      | with_reducible exact Keeps.refl _
      | with_reducible refine Keeps.pair ‹_› ?_
      | with_reducible refine Keeps.pair2 ‹_› ?_
      | with_reducible apply Keeps.trans' (rngSwRead_keeps ..)
      | extract_lets
      | with_reducible apply Keeps.ite

theorem execRngSwDataRead_keeps {s' : State} {p : Path} {s : State}
    (h : execRngSwDataRead p s = .next s') : Keeps s s' := by
  obtain rfl := Host.Outcome.next.inj h
  repeat'
    first
      | with_reducible exact Keeps.refl _
      | with_reducible refine Keeps.pair ‹_› ?_
      | with_reducible apply Keeps.trans' (emit_keeps ..)
      | with_reducible apply Keeps.trans' (rngSwData_keeps ..)
      | extract_lets
      | with_reducible apply Keeps.ite

theorem execKatEntry_keeps {s' : State} {p : Path} {len : BitVec 8} {s : State}
    (h : execKatEntry p len s = .next s') : Keeps s s' := by
  obtain rfl := Host.Outcome.next.inj h
  repeat'
    first
      | with_reducible exact Keeps.refl _
      | with_reducible apply Keeps.trans' (rngKatEntry_keeps ..)
      | with_reducible apply Keeps.ite

theorem execKatExit_keeps {s' : State} {p : Path} {len : BitVec 8} {s : State}
    (h : execKatExit p len s = .next s') : Keeps s s' := by
  obtain rfl := Host.Outcome.next.inj h
  repeat'
    first
      | with_reducible exact Keeps.refl _
      | with_reducible apply Keeps.trans' (rngKatExit_keeps ..)
      | with_reducible apply Keeps.ite

theorem execKatGo_keeps {s' : State} {p : Path} {len : BitVec 8} {s : State}
    (h : execKatGo p len s = .next s') : Keeps s s' := by
  obtain rfl := Host.Outcome.next.inj h
  repeat'
    first
      | with_reducible exact Keeps.refl _
      | with_reducible apply Keeps.trans' (rngKatGo_keeps ..)
      | with_reducible apply Keeps.ite

/-! ## Runs -/

theorem execRunAnneal_keeps {s' : State} {k : Key} {s : State}
    (h : execRunAnneal k s = .next s') : Keeps s s' := by
  obtain rfl := Host.Outcome.next.inj h
  repeat'
    first
      | with_reducible exact Keeps.refl _
      | with_reducible apply Keeps.trans' (runAnneal_keeps ..)
      | split

theorem execResume_keeps {s' : State} {k : Key} {s : State}
    (h : execResume k s = .next s') : Keeps s s' := by
  obtain rfl := Host.Outcome.next.inj h
  repeat'
    first
      | with_reducible exact Keeps.refl _
      | with_reducible apply Keeps.trans' (resume_keeps ..)
      | split

theorem execTurn_keeps {s' : State} {k : Key} {s : State}
    (h : execTurn k s = .next s') : Keeps s s' := by
  obtain rfl := Host.Outcome.next.inj h
  repeat'
    first
      | with_reducible exact Keeps.refl _
      | with_reducible apply Keeps.trans' (turn_keeps ..)
      | split

theorem execSweepBoundary_keeps {s' : State} {k : Key} {s : State}
    (h : execSweepBoundary k s = .next s') : Keeps s s' := by
  obtain rfl := Host.Outcome.next.inj h
  repeat'
    first
      | with_reducible exact Keeps.refl _
      | with_reducible apply Keeps.trans' (sweepBoundary_keeps ..)
      | split

theorem execBestStateCopy_keeps {s' : State} {k : Key} {rowBlock : Nat} {s : State}
    (h : execBestStateCopy k rowBlock s = .next s') : Keeps s s' := by
  obtain rfl := Host.Outcome.next.inj h
  repeat'
    first
      | with_reducible exact Keeps.refl _
      | with_reducible apply Keeps.trans' (bestStateCopy_keeps ..)
      | split

theorem execEngineFailure_keeps {s' : State} {phys : Fin 72} {s : State}
    (h : execEngineFailure phys s = .next s') : Keeps s s' := by
  obtain rfl := Host.Outcome.next.inj h
  repeat'
    first
      | with_reducible exact Keeps.refl _
      | with_reducible apply Keeps.trans' (engineFail_keeps ..)
      | with_reducible apply Keeps.ite

/-! ## Image -/

theorem execRunProgram_keeps {s' : State} {k : Key} {s : State}
    (h : execRunProgram k s = .next s') : Keeps s s' := by
  obtain rfl := Host.Outcome.next.inj h
  repeat'
    first
      | with_reducible exact Keeps.refl _
      | with_reducible apply Keeps.trans' (runProgram_keeps ..)
      | split

/-! ## ArrayIns -/

theorem execOpenGroup_keeps {s' : State} {n : Fin 64} {begins : Bool} {s : State}
    (h : execOpenGroup n s begins = .next s') : Keeps s s' := by
  obtain rfl := Host.Outcome.next.inj h
  repeat'
    first
      | with_reducible exact Keeps.refl _
      | with_reducible refine Keeps.pair ‹_› ?_
      | with_reducible refine Keeps.pair2 ‹_› ?_
      | with_reducible apply Keeps.trans' (withUnit_keeps ..)
      | with_reducible apply Keeps.trans' (openIns_keeps ..)
      | extract_lets
      | with_reducible apply Keeps.ite
      | with_reducible apply Keeps.ite2
      | split
      | dsimp only
      | intro _

theorem execMma_keeps {s' : State} {n : Fin 64} {begins : Bool} {s : State}
    (h : execMma n s begins = .next s') : Keeps s s' := by
  obtain rfl := Host.Outcome.next.inj h
  repeat'
    first
      | with_reducible exact Keeps.refl _
      | with_reducible refine Keeps.pair ‹_› ?_
      | with_reducible refine Keeps.pair2 ‹_› ?_
      | with_reducible apply Keeps.trans' (withUnit_keeps ..)
      | with_reducible apply Keeps.trans' (mmaIns_keeps ..)
      | extract_lets
      | with_reducible apply Keeps.ite
      | with_reducible apply Keeps.ite2
      | split
      | dsimp only
      | intro _

theorem execDrain_keeps {s' : State} {n : Fin 64} {begins : Bool} {s : State}
    (h : execDrain n s begins = .next s') : Keeps s s' := by
  obtain rfl := Host.Outcome.next.inj h
  repeat'
    first
      | with_reducible exact Keeps.refl _
      | with_reducible refine Keeps.pair ‹_› ?_
      | with_reducible refine Keeps.pair2 ‹_› ?_
      | with_reducible apply Keeps.trans' (withUnit_keeps ..)
      | with_reducible apply Keeps.trans' (drainIns_keeps ..)
      | extract_lets
      | with_reducible apply Keeps.ite
      | with_reducible apply Keeps.ite2
      | split
      | dsimp only
      | intro _

theorem execSample_keeps {s' : State} {n : Fin 64} {begins : Bool} {s : State}
    (h : execSample n s begins = .next s') : Keeps s s' := by
  obtain rfl := Host.Outcome.next.inj h
  repeat'
    first
      | with_reducible exact Keeps.refl _
      | with_reducible refine Keeps.pair ‹_› ?_
      | with_reducible refine Keeps.pair2 ‹_› ?_
      | with_reducible apply Keeps.trans' (withUnit_keeps ..)
      | with_reducible apply Keeps.trans' (sampleIns_keeps ..)
      | extract_lets
      | with_reducible apply Keeps.ite
      | with_reducible apply Keeps.ite2
      | split
      | dsimp only
      | intro _

theorem execDiscard_keeps {s' : State} {n : Fin 64} {s : State}
    (h : execDiscard n s = .next s') : Keeps s s' := by
  obtain rfl := Host.Outcome.next.inj h
  repeat'
    first
      | with_reducible exact Keeps.refl _
      | with_reducible refine Keeps.pair ‹_› ?_
      | with_reducible refine Keeps.pair2 ‹_› ?_
      | with_reducible apply Keeps.trans' (withUnit_keeps ..)
      | with_reducible apply Keeps.trans' (discardIns_keeps ..)
      | extract_lets
      | with_reducible apply Keeps.ite
      | with_reducible apply Keeps.ite2
      | split
      | dsimp only
      | intro _

theorem execRed_keeps {s' : State} {n : Fin 64} {s : State}
    (h : execRed n s = .next s') : Keeps s s' := by
  obtain rfl := Host.Outcome.next.inj h
  repeat'
    first
      | with_reducible exact Keeps.refl _
      | with_reducible refine Keeps.pair ‹_› ?_
      | with_reducible refine Keeps.pair2 ‹_› ?_
      | with_reducible apply Keeps.trans' (withUnit_keeps ..)
      | with_reducible apply Keeps.trans' (redIns_keeps ..)
      | extract_lets
      | with_reducible apply Keeps.ite
      | with_reducible apply Keeps.ite2
      | split
      | dsimp only
      | intro _

theorem execPark_keeps {s' : State} {n : Fin 64} {g : Fin 8} {s : State}
    (h : execPark n g s = .next s') : Keeps s s' := by
  obtain rfl := Host.Outcome.next.inj h
  repeat'
    first
      | with_reducible exact Keeps.refl _
      | with_reducible apply Keeps.trans' (updEng_keeps ..)
      | with_reducible apply Keeps.ite

theorem execUnpark_keeps {s' : State} {n : Fin 64} {g : Fin 8} {ecc : Ecc} {s : State}
    (h : execUnpark n g ecc s = .next s') : Keeps s s' := by
  obtain rfl := Host.Outcome.next.inj h
  repeat'
    first
      | with_reducible exact Keeps.refl _
      | with_reducible apply Keeps.trans' (uncorrectable_keeps ..)
      | with_reducible apply Keeps.trans' (corrected_keeps ..)
      | with_reducible apply Keeps.trans' (updEng_keeps ..)
      | with_reducible apply Keeps.trans' (parkLost_keeps ..)
      | extract_lets
      | with_reducible apply Keeps.ite
      | split
      | with_reducible refine Keeps.upd ?_ rfl rfl rfl rfl rfl rfl rfl rfl

/-! ## Blotter -/

theorem execBlotterWrite_keeps {s' : State} {s : State}
    (h : execBlotterWrite s = .next s') : Keeps s s' := by
  obtain rfl := Host.Outcome.next.inj h
  repeat'
    first
      | with_reducible exact Keeps.refl _
      | with_reducible apply Keeps.trans' (blotterStep_keeps ..)
      | with_reducible apply Keeps.ite

theorem execSuppressed_keeps {s' : State} {s : State}
    (h : execSuppressed s = .next s') : Keeps s s' := by
  obtain rfl := Host.Outcome.next.inj h
  repeat'
    first
      | with_reducible exact Keeps.refl _
      | with_reducible apply Keeps.trans' (logEvent_keeps ..)
      | with_reducible refine Keeps.trans' (Keeps.foldl (fun _ _ => ?_) ..) ?_
      | extract_lets
      | with_reducible apply Keeps.ite
      | split
      | with_reducible refine Keeps.upd ?_ rfl rfl rfl rfl rfl rfl rfl rfl

/-! ## Icu -/

theorem execMessageArrival_keeps {s' : State} {n : Fin 512} {s : State}
    (h : execMessageArrival n s = .next s') : Keeps s s' := by
  obtain rfl := Host.Outcome.next.inj h
  repeat'
    first
      | with_reducible exact Keeps.refl _
      | with_reducible apply Keeps.trans' (icuSet_keeps ..)
      | with_reducible apply Keeps.ite
      | split
      | with_reducible refine Keeps.upd ?_ rfl rfl rfl rfl rfl rfl rfl rfl

theorem execLevelAssert_keeps {s' : State} {n : Fin 512} {s : State}
    (h : execLevelAssert n s = .next s') : Keeps s s' := by
  obtain rfl := Host.Outcome.next.inj h
  repeat'
    first
      | with_reducible exact Keeps.refl _
      | with_reducible apply Keeps.trans' (updSrc_keeps ..)
      | with_reducible apply Keeps.trans' (hostForward_keeps ..)
      | with_reducible apply Keeps.ite

theorem execLevelDrop_keeps {s' : State} {n : Fin 512} {s : State}
    (h : execLevelDrop n s = .next s') : Keeps s s' := by
  obtain rfl := Host.Outcome.next.inj h
  repeat'
    first
      | with_reducible exact Keeps.refl _
      | with_reducible apply Keeps.trans' (updSrc_keeps ..)
      | with_reducible apply Keeps.ite

theorem execDelivery_keeps {s' : State} {s : State}
    (h : execDelivery s = .next s') : Keeps s s' := by
  obtain rfl := Host.Outcome.next.inj h
  exact icuDeliver_keeps ..

theorem execTargetAwake_keeps {s' : State} {t : Fin 5} {s : State}
    (h : execTargetAwake t s = .next s') : Keeps s s' := by
  obtain rfl := Host.Outcome.next.inj h
  repeat'
    first
      | with_reducible exact Keeps.refl _
      | with_reducible apply Keeps.trans' (updTgt_keeps ..)
      | with_reducible apply Keeps.ite

theorem execTargetSleep_keeps {s' : State} {t : Fin 5} {s : State}
    (h : execTargetSleep t s = .next s') : Keeps s s' := by
  obtain rfl := Host.Outcome.next.inj h
  repeat'
    first
      | with_reducible exact Keeps.refl _
      | with_reducible apply Keeps.trans' (updTgt_keeps ..)
      | with_reducible apply Keeps.trans' (icuWithdraw_keeps ..)
      | with_reducible refine Keeps.trans' (Keeps.foldl (fun _ _ => ?_) ..) ?_
      | with_reducible apply Keeps.ite

theorem execIcuTClaim_keeps {s' : State} {path : Path} {t : Fin 5} {s : State}
    (h : execIcuTClaim path t s = .next s') : Keeps s s' := by
  obtain rfl := Host.Outcome.next.inj h
  repeat'
    first
      | with_reducible exact Keeps.refl _
      | with_reducible refine Keeps.pair ‹_› ?_
      | with_reducible apply Keeps.trans' (emit_keeps ..)
      | with_reducible apply Keeps.trans' (icuClaim_keeps ..)
      | extract_lets
      | with_reducible apply Keeps.ite
      | with_reducible apply Keeps.ite2
      | split

theorem execIcuTComplete_keeps {s' : State} {path : Path} {t : Fin 5} {value : Word} {s : State}
    (h : execIcuTComplete path t value s = .next s') : Keeps s s' := by
  obtain rfl := Host.Outcome.next.inj h
  repeat'
    first
      | with_reducible exact Keeps.refl _
      | with_reducible apply Keeps.trans' (icuComplete_keeps ..)
      | with_reducible apply Keeps.trans' (icuWrite_keeps ..)
      | intro _

theorem execIcuPendSet_keeps {s' : State} {path : Path} {w : Fin 16} {mask : Word} {s : State}
    (h : execIcuPendSet path w mask s = .next s') : Keeps s s' := by
  obtain rfl := Host.Outcome.next.inj h
  repeat'
    first
      | with_reducible exact Keeps.refl _
      | with_reducible apply Keeps.trans' (icuWrite_keeps ..)
      | with_reducible apply Keeps.trans' (icuPendSet_keeps ..)
      | intro _

theorem execIcuPendClr_keeps {s' : State} {path : Path} {w : Fin 16} {mask : Word} {s : State}
    (h : execIcuPendClr path w mask s = .next s') : Keeps s s' := by
  obtain rfl := Host.Outcome.next.inj h
  repeat'
    first
      | with_reducible exact Keeps.refl _
      | with_reducible apply Keeps.trans' (icuWrite_keeps ..)
      | with_reducible apply Keeps.trans' (icuPendClr_keeps ..)
      | intro _

theorem execIcuEnSet_keeps {s' : State} {path : Path} {w : Fin 16} {mask : Word} {s : State}
    (h : execIcuEnSet path w mask s = .next s') : Keeps s s' := by
  obtain rfl := Host.Outcome.next.inj h
  repeat'
    first
      | with_reducible exact Keeps.refl _
      | with_reducible apply Keeps.trans' (icuWrite_keeps ..)
      | with_reducible apply Keeps.trans' (icuEnSet_keeps ..)
      | intro _

theorem execIcuEnClr_keeps {s' : State} {path : Path} {w : Fin 16} {mask : Word} {s : State}
    (h : execIcuEnClr path w mask s = .next s') : Keeps s s' := by
  obtain rfl := Host.Outcome.next.inj h
  repeat'
    first
      | with_reducible exact Keeps.refl _
      | with_reducible apply Keeps.trans' (icuWrite_keeps ..)
      | with_reducible apply Keeps.trans' (icuEnClr_keeps ..)
      | intro _

theorem execIcuTCtrlWrite_keeps {s' : State} {path : Path} {t : Fin 5} {value : Word} {s : State}
    (h : execIcuTCtrlWrite path t value s = .next s') : Keeps s s' := by
  obtain rfl := Host.Outcome.next.inj h
  repeat'
    first
      | with_reducible exact Keeps.refl _
      | with_reducible apply Keeps.trans' (icuWrite_keeps ..)
      | with_reducible apply Keeps.trans' (icuTCtrl_keeps ..)
      | intro _

theorem execIcuSrcCfgWrite_keeps {s' : State} {path : Path} {n : Fin 512} {value : Word} {s : State}
    (h : execIcuSrcCfgWrite path n value s = .next s') : Keeps s s' := by
  obtain rfl := Host.Outcome.next.inj h
  repeat'
    first
      | with_reducible exact Keeps.refl _
      | with_reducible apply Keeps.trans' (icuWrite_keeps ..)
      | with_reducible apply Keeps.trans' (icuSrcCfg_keeps ..)
      | intro _

/-! ## Ingest -/

theorem execBadFcsFrame_keeps {s' : State} {port : Fin 2} {codewords : Nat} {s : State}
    (h : execBadFcsFrame port s codewords = .next s') : Keeps s s' := by
  obtain rfl := Host.Outcome.next.inj h
  repeat'
    first
      | with_reducible exact Keeps.refl _
      | with_reducible refine Keeps.pair ‹_› ?_
      | with_reducible refine Keeps.pair2 ‹_› ?_
      | with_reducible apply Keeps.trans' (updPrt_keeps ..)
      | extract_lets
      | with_reducible apply Keeps.ite

theorem execPauseFrame_keeps {s' : State} {port : Fin 2} {s : State}
    (h : execPauseFrame port s = .next s') : Keeps s s' := by
  obtain rfl := Host.Outcome.next.inj h
  repeat'
    first
      | with_reducible exact Keeps.refl _
      | with_reducible apply Keeps.trans' (ingFlag_keeps ..)
      | with_reducible apply Keeps.trans' (updPrt_keeps ..)
      | with_reducible apply Keeps.trans' (rxFrame_keeps ..)
      | with_reducible apply Keeps.ite

theorem execArpRequest_keeps {s' : State} {port : Fin 2} {src : NetAddr} {target : BitVec 32} {tags : List Word} {s : State}
    (h : execArpRequest port src target tags s = .next s') : Keeps s s' := by
  obtain rfl := Host.Outcome.next.inj h
  repeat'
    first
      | with_reducible exact Keeps.refl _
      | with_reducible refine Keeps.pair ‹_› ?_
      | with_reducible refine Keeps.pair2 ‹_› ?_
      | with_reducible apply Keeps.trans' (addrReply_keeps ..)

theorem execNeighborSolicitation_keeps {s' : State} {port : Fin 2} {src : NetAddr} {target : BitVec 128} {tags : List Word} {s : State}
    (h : execNeighborSolicitation port src target tags s = .next s') : Keeps s s' := by
  obtain rfl := Host.Outcome.next.inj h
  repeat'
    first
      | with_reducible exact Keeps.refl _
      | with_reducible refine Keeps.pair ‹_› ?_
      | with_reducible refine Keeps.pair2 ‹_› ?_
      | with_reducible apply Keeps.trans' (addrReply_keeps ..)

theorem execRecord_keeps {s' : State} {port : Fin 2} {udp : BitVec 16} {payload : List Byte} {head : FrameHead} {s : State}
    (h : execRecord port udp payload s head = .next s') : Keeps s s' := by
  obtain rfl := Host.Outcome.next.inj h
  repeat'
    first
      | with_reducible exact Keeps.refl _
      | with_reducible refine Keeps.pair ‹_› ?_
      | with_reducible refine Keeps.pair2 ‹_› ?_
      | with_reducible apply Keeps.trans' (rxFrame_keeps ..)
      | with_reducible apply Keeps.trans' (dropIp_keeps ..)
      | with_reducible apply Keeps.trans' (updStrm_keeps ..)
      | extract_lets
      | with_reducible apply Keeps.ite
      | with_reducible apply Keeps.ite2
      | split

theorem execDroppedDatagram_keeps {s' : State} {d : Datagram} {s : State}
    (h : execDroppedDatagram d s = .next s') : Keeps s s' := by
  obtain rfl := Host.Outcome.next.inj h
  repeat'
    first
      | with_reducible exact Keeps.refl _
      | with_reducible refine Keeps.pair ‹_› ?_
      | with_reducible refine Keeps.pair2 ‹_› ?_
      | with_reducible apply Keeps.trans' (dropIp_keeps ..)
      | with_reducible apply Keeps.trans' (rxFrame_keeps ..)
      | extract_lets
      | with_reducible apply Keeps.ite

theorem execReasmTimeout_keeps {s' : State} {i : Fin 16} {frameSeq : Quad} {s : State}
    (h : execReasmTimeout i frameSeq s = .next s') : Keeps s s' := by
  obtain rfl := Host.Outcome.next.inj h
  repeat'
    first
      | with_reducible exact Keeps.refl _
      | with_reducible apply Keeps.trans' (updStrm_keeps ..)
      | with_reducible apply Keeps.ite
      | split

theorem execFrameCommit_keeps {s' : State} {i : Fin 16} {s : State}
    (h : execFrameCommit i s = .next s') : Keeps s s' := by
  obtain rfl := Host.Outcome.next.inj h
  repeat'
    first
      | with_reducible exact Keeps.refl _
      | with_reducible apply Keeps.trans' (complete_keeps ..)
      | with_reducible apply Keeps.trans' (commitFrame_keeps ..)
      | with_reducible apply Keeps.trans' (finishStop_keeps ..)
      | with_reducible apply Keeps.ite
      | split

theorem execStreamEnable_keeps {s' : State} {i : Fin 16} {value : BitVec 31} {s : State}
    (h : execStreamEnable i value s = .next s') : Keeps s s' := by
  obtain rfl := Host.Outcome.next.inj h
  repeat'
    first
      | with_reducible exact Keeps.refl _
      | with_reducible apply Keeps.trans' (streamEnable_keeps ..)
      | with_reducible apply Keeps.ite

theorem execStreamStop_keeps {s' : State} {i : Fin 16} {value : BitVec 31} {s : State}
    (h : execStreamStop i value s = .next s') : Keeps s s' := by
  obtain rfl := Host.Outcome.next.inj h
  repeat'
    first
      | with_reducible exact Keeps.refl _
      | with_reducible apply Keeps.trans' (streamStop_keeps ..)
      | with_reducible apply Keeps.ite

theorem execSubmit_keeps {s' : State} {d : Datagram} {s : State}
    (h : execSubmit d s = .next s') : Keeps s s' := by
  obtain rfl := Host.Outcome.next.inj h
  repeat'
    first
      | with_reducible exact Keeps.refl _
      | with_reducible apply Keeps.trans' (jobFrame_keeps ..)
      | with_reducible apply Keeps.ite

theorem execPoll_keeps {s' : State} {d : Datagram} {s : State}
    (h : execPoll d s = .next s') : Keeps s s' := by
  obtain rfl := Host.Outcome.next.inj h
  repeat'
    first
      | with_reducible exact Keeps.refl _
      | with_reducible apply Keeps.trans' (jobFrame_keeps ..)
      | with_reducible apply Keeps.ite

/-! ## Queues -/

theorem execQueueCreate_keeps {s' : State} {k : Key} {s : State}
    (h : execQueueCreate k s = .next s') : Keeps s s' := by
  obtain rfl := Host.Outcome.next.inj h
  repeat'
    first
      | with_reducible exact Keeps.refl _
      | with_reducible apply Keeps.trans' (queueCreate_keeps ..)
      | split

theorem execAbort_keeps {s' : State} {k : Key} {s : State}
    (h : execAbort k s = .next s') : Keeps s s' := by
  obtain rfl := Host.Outcome.next.inj h
  repeat'
    first
      | with_reducible exact Keeps.refl _
      | with_reducible apply Keeps.trans' (stopTarget_keeps ..)
      | split

theorem execPause_keeps {s' : State} {k : Key} {s : State}
    (h : execPause k s = .next s') : Keeps s s' := by
  obtain rfl := Host.Outcome.next.inj h
  repeat'
    first
      | with_reducible exact Keeps.refl _
      | with_reducible apply Keeps.trans' (stopTarget_keeps ..)
      | split

theorem execQueueDestroy_keeps {s' : State} {k : Key} {s : State}
    (h : execQueueDestroy k s = .next s') : Keeps s s' := by
  obtain rfl := Host.Outcome.next.inj h
  repeat'
    first
      | with_reducible exact Keeps.refl _
      | with_reducible apply Keeps.trans' (queueDestroy_keeps ..)
      | split

theorem execQueueReset_keeps {s' : State} {k : Key} {s : State}
    (h : execQueueReset k s = .next s') : Keeps s s' := by
  obtain rfl := Host.Outcome.next.inj h
  repeat'
    first
      | with_reducible exact Keeps.refl _
      | with_reducible apply Keeps.trans' (queueReset_keeps ..)
      | split

theorem execMap_keeps {s' : State} {k : Key} {s : State}
    (h : execMap k s = .next s') : Keeps s s' := by
  obtain rfl := Host.Outcome.next.inj h
  repeat'
    first
      | with_reducible exact Keeps.refl _
      | with_reducible apply Keeps.trans' (mapCmd_keeps ..)
      | split

theorem execUnmap_keeps {s' : State} {k : Key} {s : State}
    (h : execUnmap k s = .next s') : Keeps s s' := by
  obtain rfl := Host.Outcome.next.inj h
  repeat'
    first
      | with_reducible exact Keeps.refl _
      | with_reducible apply Keeps.trans' (unmapCmd_keeps ..)
      | split

theorem execUnmapComplete_keeps {s' : State} {k : Key} {s : State}
    (h : execUnmapComplete k s = .next s') : Keeps s s' := by
  obtain rfl := Host.Outcome.next.inj h
  repeat'
    first
      | with_reducible exact Keeps.refl _
      | with_reducible apply Keeps.trans' (unmapEnds_keeps ..)
      | with_reducible apply Keeps.ite
      | split

theorem execFenceSet_keeps {s' : State} {k : Key} {s : State}
    (h : execFenceSet k s = .next s') : Keeps s s' := by
  obtain rfl := Host.Outcome.next.inj h
  repeat'
    first
      | with_reducible exact Keeps.refl _
      | with_reducible apply Keeps.trans' (fenceSet_keeps ..)
      | split

theorem execPeerBind_keeps {s' : State} {k : Key} {s : State}
    (h : execPeerBind k s = .next s') : Keeps s s' := by
  obtain rfl := Host.Outcome.next.inj h
  repeat'
    first
      | with_reducible exact Keeps.refl _
      | with_reducible apply Keeps.trans' (peerBind_keeps ..)
      | split

theorem execPeerSignal_keeps {s' : State} {k : Key} {s : State}
    (h : execPeerSignal k s = .next s') : Keeps s s' := by
  obtain rfl := Host.Outcome.next.inj h
  repeat'
    first
      | with_reducible exact Keeps.refl _
      | with_reducible apply Keeps.trans' (peerSignal_keeps ..)
      | split

theorem execNop_keeps {s' : State} {k : Key} {s : State}
    (h : execNop k s = .next s') : Keeps s s' := by
  obtain rfl := Host.Outcome.next.inj h
  repeat'
    first
      | with_reducible exact Keeps.refl _
      | with_reducible apply Keeps.trans' (commitOk_keeps ..)
      | split

theorem execModelUnload_keeps {s' : State} {k : Key} {s : State}
    (h : execModelUnload k s = .next s') : Keeps s s' := by
  obtain rfl := Host.Outcome.next.inj h
  repeat'
    first
      | with_reducible exact Keeps.refl _
      | with_reducible apply Keeps.trans' (modelUnload_keeps ..)
      | split

theorem execModelLoad_keeps {s' : State} {k : Key} {s : State}
    (h : execModelLoad k s = .next s') : Keeps s s' := by
  obtain rfl := Host.Outcome.next.inj h
  repeat'
    first
      | with_reducible exact Keeps.refl _
      | with_reducible apply Keeps.trans' (modelLoad_keeps ..)
      | split

theorem execModelLoadEnd_keeps {s' : State} {k : Key} {s : State}
    (h : execModelLoadEnd k s = .next s') : Keeps s s' := by
  obtain rfl := Host.Outcome.next.inj h
  repeat'
    first
      | with_reducible exact Keeps.refl _
      | with_reducible apply Keeps.trans' (loadEnds_keeps ..)
      | split

theorem execExtentZeroed_keeps {s' : State} {ext : BitVec 13} {s : State}
    (h : execExtentZeroed ext s = .next s') : Keeps s s' := by
  obtain rfl := Host.Outcome.next.inj h
  repeat'
    first
      | with_reducible exact Keeps.refl _
      | with_reducible refine Keeps.pair ‹_› ?_
      | with_reducible refine Keeps.pair2 ‹_› ?_
      | with_reducible apply Keeps.trans' (unloadStep_keeps ..)
      | with_reducible apply Keeps.trans' (extentZeroed_keeps ..)
      | extract_lets
      | with_reducible apply Keeps.ite

/-! ## FrontEnd -/

theorem execFeDbSq_keeps {s' : State} {q : BitVec 16} {t : Word} {s : State}
    (h : execFeDbSq q t s = .next s') : Keeps s s' := by
  obtain rfl := Host.Outcome.next.inj h
  repeat'
    first
      | with_reducible exact Keeps.refl _
      | with_reducible apply Keeps.trans' (bar0DbSq_keeps ..)
      | with_reducible apply Keeps.ite

theorem execFeDbCq_keeps {s' : State} {q : BitVec 16} {h : Word} {s : State}
    (h : execFeDbCq q h s = .next s') : Keeps s s' := by
  obtain rfl := Host.Outcome.next.inj h
  repeat'
    first
      | with_reducible exact Keeps.refl _
      | with_reducible apply Keeps.trans' (bar0DbCq_keeps ..)
      | with_reducible apply Keeps.ite

theorem execFeAqEnable_keeps {s' : State} {value : BitVec 31} {s : State}
    (h : execFeAqEnable value s = .next s') : Keeps s s' := by
  obtain rfl := Host.Outcome.next.inj h
  repeat'
    first
      | with_reducible exact Keeps.refl _
      | with_reducible apply Keeps.trans' (aqEnable_keeps ..)
      | with_reducible apply Keeps.ite

theorem execFeAqDisable_keeps {s' : State} {value : BitVec 31} {s : State}
    (h : execFeAqDisable value s = .next s') : Keeps s s' := by
  obtain rfl := Host.Outcome.next.inj h
  repeat'
    first
      | with_reducible exact Keeps.refl _
      | with_reducible apply Keeps.trans' (aqDisable_keeps ..)
      | with_reducible apply Keeps.ite

theorem execCommandFetch_keeps {s' : State} {q : BitVec 16} {s : State}
    (h : execCommandFetch q s = .next s') : Keeps s s' := by
  obtain rfl := Host.Outcome.next.inj h
  repeat'
    first
      | with_reducible exact Keeps.refl _
      | with_reducible apply Keeps.trans' (fetchOne_keeps ..)
      | with_reducible apply Keeps.ite

theorem execCommandStart_keeps {s' : State} {k : Key} {place : List (Fin 64)} {s : State}
    (h : execCommandStart k place s = .next s') : Keeps s s' := by
  obtain rfl := Host.Outcome.next.inj h
  repeat'
    first
      | with_reducible exact Keeps.refl _
      | with_reducible refine Keeps.pair ‹_› ?_
      | with_reducible refine Keeps.pair2 ‹_› ?_
      | with_reducible apply Keeps.trans' (startCmd_keeps ..)
      | with_reducible apply Keeps.trans' (endPreload_keeps ..)
      | extract_lets
      | with_reducible apply Keeps.ite
      | with_reducible apply Keeps.ite2
      | split

theorem execCopy_keeps {s' : State} {k : Key} {s : State}
    (h : execCopy k s = .next s') : Keeps s s' := by
  obtain rfl := Host.Outcome.next.inj h
  repeat'
    first
      | with_reducible exact Keeps.refl _
      | with_reducible apply Keeps.trans' (copyCmd_keeps ..)
      | split

theorem execCopyDone_keeps {s' : State} {k : Key} {s : State}
    (h : execCopyDone k s = .next s') : Keeps s s' := by
  obtain rfl := Host.Outcome.next.inj h
  repeat'
    first
      | with_reducible exact Keeps.refl _
      | with_reducible apply Keeps.trans' (copyEnds_keeps ..)
      | with_reducible apply Keeps.ite
      | split

theorem execCopyStopsAtBoundary_keeps {s' : State} {k : Key} {done : Nat} {s : State}
    (h : execCopyStopsAtBoundary k done s = .next s') : Keeps s s' := by
  obtain rfl := Host.Outcome.next.inj h
  repeat'
    first
      | with_reducible exact Keeps.refl _
      | with_reducible refine Keeps.pair ‹_› ?_
      | with_reducible apply Keeps.trans' (completeDecided_keeps ..)
      | with_reducible apply Keeps.trans' (copyBytes_keeps ..)
      | with_reducible apply Keeps.ite
      | with_reducible apply Keeps.ite2
      | split

theorem execHostReadTimeout_keeps {s' : State} {k : Key} {addr : Quad} {s : State}
    (h : execHostReadTimeout k addr s = .next s') : Keeps s s' := by
  obtain rfl := Host.Outcome.next.inj h
  repeat'
    first
      | with_reducible exact Keeps.refl _
      | with_reducible refine Keeps.pair ‹_› ?_
      | with_reducible refine Keeps.pair2 ‹_› ?_
      | with_reducible apply Keeps.trans' (readTimesOut_keeps ..)
      | with_reducible apply Keeps.trans' (aerTimeout_keeps ..)
      | extract_lets
      | with_reducible apply Keeps.ite
      | with_reducible apply Keeps.ite2
      | split

theorem execCommandTimeout_keeps {s' : State} {k : Key} {s : State}
    (h : execCommandTimeout k s = .next s') : Keeps s s' := by
  obtain rfl := Host.Outcome.next.inj h
  repeat'
    first
      | with_reducible exact Keeps.refl _
      | with_reducible apply Keeps.trans' (timesOut_keeps ..)
      | with_reducible apply Keeps.ite
      | split

theorem execDrainTimeout_keeps {s' : State} {k : Key} {s : State}
    (h : execDrainTimeout k s = .next s') : Keeps s s' := by
  obtain rfl := Host.Outcome.next.inj h
  repeat'
    first
      | with_reducible exact Keeps.refl _
      | with_reducible apply Keeps.trans' (killCmd_keeps ..)
      | with_reducible apply Keeps.ite
      | split

/-! ## Carafe -/

theorem execRefresh_keeps {s' : State} {ch : Fin 24} {s : State}
    (h : execRefresh ch s = .next s') : Keeps s s' := by
  obtain rfl := Host.Outcome.next.inj h
  repeat'
    first
      | with_reducible exact Keeps.refl _
      | with_reducible apply Keeps.ite
      | split
      | with_reducible refine Keeps.upd ?_ rfl rfl rfl rfl rfl rfl rfl rfl

theorem execScrubRead_keeps {s' : State} {ch : Fin 24} {s : State}
    (h : execScrubRead ch s = .next s') : Keeps s s' := by
  obtain rfl := Host.Outcome.next.inj h
  repeat'
    first
      | with_reducible exact Keeps.refl _
      | with_reducible apply Keeps.trans' (scrub_keeps ..)
      | with_reducible apply Keeps.ite

theorem execWipeCheck_keeps {s' : State} {clean : Bool} {s : State}
    (h : execWipeCheck clean s = .next s') : Keeps s s' := by
  obtain rfl := Host.Outcome.next.inj h
  repeat'
    first
      | with_reducible exact Keeps.refl _
      | with_reducible apply Keeps.trans' (wipeEnds_keeps ..)
      | with_reducible apply Keeps.ite
      | split
      | with_reducible refine Keeps.upd ?_ rfl rfl rfl rfl rfl rfl rfl rfl

theorem execTamper_keeps {s' : State} {lowNs : Nat} {s : State}
    (h : execTamper lowNs s = .next s') : Keeps s s' := by
  obtain rfl := Host.Outcome.next.inj h
  repeat'
    first
      | with_reducible exact Keeps.refl _
      | with_reducible apply Keeps.trans' (tamperAssert_keeps ..)
      | with_reducible apply Keeps.ite

theorem execBar2Access_keeps {s' : State} {off : Nat} {write : Bool} {len : Nat} {data : List Byte} {s : State}
    (h : execBar2Access off write len data s = .next s') : Keeps s s' := by
  obtain rfl := Host.Outcome.next.inj h
  repeat'
    first
      | with_reducible exact Keeps.refl _
      | with_reducible apply Keeps.trans' (bar2Access_keeps ..)
      | with_reducible apply Keeps.ite

theorem execAtsInvalidation_keeps {s' : State} {addr : Quad} {size : Nat} {s : State}
    (h : execAtsInvalidation addr size s = .next s') : Keeps s s' := by
  obtain rfl := Host.Outcome.next.inj h
  repeat'
    first
      | with_reducible exact Keeps.refl _
      | with_reducible apply Keeps.trans' (emit_keeps ..)
      | extract_lets
      | with_reducible apply Keeps.ite
      | split
      | with_reducible refine Keeps.upd ?_ rfl rfl rfl rfl rfl rfl rfl rfl

/-! ## ControlIns -/

theorem execSet_keeps {s' : State} {n : Fin 64} {s : State}
    (h : execSet n s = .next s') : Keeps s s' := by
  obtain rfl := Host.Outcome.next.inj h
  repeat'
    first
      | with_reducible exact Keeps.refl _
      | with_reducible apply Keeps.trans' (withIns_keeps ..)
      | with_reducible apply Keeps.trans' (setIns_keeps ..)
      | intro _

theorem execAdd_keeps {s' : State} {n : Fin 64} {s : State}
    (h : execAdd n s = .next s') : Keeps s s' := by
  obtain rfl := Host.Outcome.next.inj h
  repeat'
    first
      | with_reducible exact Keeps.refl _
      | with_reducible apply Keeps.trans' (withIns_keeps ..)
      | with_reducible apply Keeps.trans' (addIns_keeps ..)
      | intro _

theorem execLd_keeps {s' : State} {n : Fin 64} {s : State}
    (h : execLd n s = .next s') : Keeps s s' := by
  obtain rfl := Host.Outcome.next.inj h
  repeat'
    first
      | with_reducible exact Keeps.refl _
      | with_reducible refine Keeps.pair ‹_› ?_
      | with_reducible refine Keeps.pair2 ‹_› ?_
      | with_reducible apply Keeps.trans' (withIns_keeps ..)
      | with_reducible apply Keeps.trans' (orHazard_keeps ..)
      | with_reducible apply Keeps.trans' (ldIns_keeps ..)
      | extract_lets
      | with_reducible apply Keeps.ite
      | with_reducible apply Keeps.ite2
      | split
      | dsimp only
      | intro _

theorem execSt_keeps {s' : State} {n : Fin 64} {s : State}
    (h : execSt n s = .next s') : Keeps s s' := by
  obtain rfl := Host.Outcome.next.inj h
  repeat'
    first
      | with_reducible exact Keeps.refl _
      | with_reducible refine Keeps.pair ‹_› ?_
      | with_reducible refine Keeps.pair2 ‹_› ?_
      | with_reducible apply Keeps.trans' (withIns_keeps ..)
      | with_reducible apply Keeps.trans' (orHazard_keeps ..)
      | with_reducible apply Keeps.trans' (stIns_keeps ..)
      | extract_lets
      | with_reducible apply Keeps.ite
      | with_reducible apply Keeps.ite2
      | split
      | dsimp only
      | intro _

theorem execBr_keeps {s' : State} {n : Fin 64} {s : State}
    (h : execBr n s = .next s') : Keeps s s' := by
  obtain rfl := Host.Outcome.next.inj h
  repeat'
    first
      | with_reducible exact Keeps.refl _
      | with_reducible apply Keeps.trans' (withIns_keeps ..)
      | with_reducible apply Keeps.trans' (brIns_keeps ..)
      | intro _

theorem execLoop_keeps {s' : State} {n : Fin 64} {s : State}
    (h : execLoop n s = .next s') : Keeps s s' := by
  obtain rfl := Host.Outcome.next.inj h
  repeat'
    first
      | with_reducible exact Keeps.refl _
      | with_reducible apply Keeps.trans' (withIns_keeps ..)
      | with_reducible apply Keeps.trans' (loopIns_keeps ..)
      | intro _

theorem execBar_keeps {s' : State} {n : Fin 64} {s : State}
    (h : execBar n s = .next s') : Keeps s s' := by
  obtain rfl := Host.Outcome.next.inj h
  repeat'
    first
      | with_reducible exact Keeps.refl _
      | with_reducible apply Keeps.trans' (withIns_keeps ..)
      | with_reducible apply Keeps.trans' (barIns_keeps ..)
      | intro _

theorem execClaim_keeps {s' : State} {n : Fin 64} {s : State}
    (h : execClaim n s = .next s') : Keeps s s' := by
  obtain rfl := Host.Outcome.next.inj h
  repeat'
    first
      | with_reducible exact Keeps.refl _
      | with_reducible apply Keeps.trans' (withIns_keeps ..)
      | with_reducible apply Keeps.trans' (claimIns_keeps ..)
      | intro _

theorem execWaitany_keeps {s' : State} {n : Fin 64} {ended : Option (BitVec 12)} {s : State}
    (h : execWaitany n ended s = .next s') : Keeps s s' := by
  obtain rfl := Host.Outcome.next.inj h
  repeat'
    first
      | with_reducible exact Keeps.refl _
      | with_reducible apply Keeps.trans' (withIns_keeps ..)
      | with_reducible apply Keeps.trans' (waitanyIns_keeps ..)
      | intro _

theorem execTime_keeps {s' : State} {n : Fin 64} {s : State}
    (h : execTime n s = .next s') : Keeps s s' := by
  obtain rfl := Host.Outcome.next.inj h
  repeat'
    first
      | with_reducible exact Keeps.refl _
      | with_reducible apply Keeps.trans' (withIns_keeps ..)
      | with_reducible apply Keeps.trans' (timeIns_keeps ..)
      | intro _

theorem execEndProgram_keeps {s' : State} {n : Fin 64} {s : State}
    (h : execEndProgram n s = .next s') : Keeps s s' := by
  obtain rfl := Host.Outcome.next.inj h
  repeat'
    first
      | with_reducible exact Keeps.refl _
      | with_reducible apply Keeps.trans' (withIns_keeps ..)
      | with_reducible apply Keeps.trans' (endIns_keeps ..)
      | intro _

/-! ## Kweow -/

theorem execSignalDetect_keeps {s' : State} {l : Fin 8} {s : State}
    (h : execSignalDetect l s = .next s') : Keeps s s' := by
  obtain rfl := Host.Outcome.next.inj h
  repeat'
    first
      | with_reducible exact Keeps.refl _
      | with_reducible apply Keeps.trans' (linkStep_keeps ..)

theorem execEqualizeDone_keeps {s' : State} {l : Fin 8} {s : State}
    (h : execEqualizeDone l s = .next s') : Keeps s s' := by
  obtain rfl := Host.Outcome.next.inj h
  repeat'
    first
      | with_reducible exact Keeps.refl _
      | with_reducible apply Keeps.trans' (linkStep_keeps ..)

theorem execAlignDone_keeps {s' : State} {l : Fin 8} {reversed : Bool} {s : State}
    (h : execAlignDone l reversed s = .next s') : Keeps s s' := by
  obtain rfl := Host.Outcome.next.inj h
  repeat'
    first
      | with_reducible exact Keeps.refl _
      | with_reducible apply Keeps.trans' (linkStep_keeps ..)

theorem execHoldoffEnd_keeps {s' : State} {l : Fin 8} {s : State}
    (h : execHoldoffEnd l s = .next s') : Keeps s s' := by
  obtain rfl := Host.Outcome.next.inj h
  repeat'
    first
      | with_reducible exact Keeps.refl _
      | with_reducible apply Keeps.trans' (linkStep_keeps ..)

theorem execIdentifyDone_keeps {s' : State} {l : Fin 8} {p : PeerInfo} {s : State}
    (h : execIdentifyDone l p s = .next s') : Keeps s s' := by
  obtain rfl := Host.Outcome.next.inj h
  repeat'
    first
      | with_reducible exact Keeps.refl _
      | with_reducible apply Keeps.trans' (identify_keeps ..)
      | with_reducible apply Keeps.ite

theorem execTrainingTimeout_keeps {s' : State} {l : Fin 8} {s : State}
    (h : execTrainingTimeout l s = .next s') : Keeps s s' := by
  obtain rfl := Host.Outcome.next.inj h
  repeat'
    first
      | with_reducible exact Keeps.refl _
      | with_reducible apply Keeps.trans' (trainFail_keeps ..)
      | with_reducible apply Keeps.trans' (identify_keeps ..)
      | with_reducible apply Keeps.ite
      | split

theorem execRetrain_keeps {s' : State} {l : Fin 8} {s : State}
    (h : execRetrain l s = .next s') : Keeps s s' := by
  obtain rfl := Host.Outcome.next.inj h
  repeat'
    first
      | with_reducible exact Keeps.refl _
      | with_reducible apply Keeps.trans' (retrainLink_keeps ..)
      | with_reducible apply Keeps.ite

theorem execLaneLoss_keeps {s' : State} {l : Fin 8} {s : State}
    (h : execLaneLoss l s = .next s') : Keeps s s' := by
  obtain rfl := Host.Outcome.next.inj h
  repeat'
    first
      | with_reducible exact Keeps.refl _
      | with_reducible apply Keeps.trans' (linkTo_keeps ..)
      | with_reducible apply Keeps.ite

theorem execDataFlit_keeps {s' : State} {l : Fin 8} {f : Flit} {byteErrors : Nat} {s : State}
    (h : execDataFlit l f byteErrors s = .next s') : Keeps s s' := by
  obtain rfl := Host.Outcome.next.inj h
  repeat'
    first
      | with_reducible exact Keeps.refl _
      | with_reducible apply Keeps.trans' (dataFlit_keeps ..)
      | with_reducible apply Keeps.ite

theorem execIdleFlit_keeps {s' : State} {l : Fin 8} {f : Flit} {byteErrors : Nat} {s : State}
    (h : execIdleFlit l f byteErrors s = .next s') : Keeps s s' := by
  obtain rfl := Host.Outcome.next.inj h
  repeat'
    first
      | with_reducible exact Keeps.refl _
      | with_reducible apply Keeps.trans' (fecCount_keeps ..)
      | with_reducible apply Keeps.trans' (takeAck_keeps ..)
      | extract_lets
      | with_reducible apply Keeps.ite

theorem execRetryReq_keeps {s' : State} {l : Fin 8} {f : Flit} {byteErrors : Nat} {s : State}
    (h : execRetryReq l f byteErrors s = .next s') : Keeps s s' := by
  obtain rfl := Host.Outcome.next.inj h
  repeat'
    first
      | with_reducible exact Keeps.refl _
      | with_reducible apply Keeps.trans' (fecCount_keeps ..)
      | with_reducible apply Keeps.trans' (takeAck_keeps ..)
      | with_reducible apply Keeps.trans' (retryFrom_keeps ..)
      | extract_lets
      | with_reducible apply Keeps.ite

theorem execRetryTimeout_keeps {s' : State} {l : Fin 8} {s : State}
    (h : execRetryTimeout l s = .next s') : Keeps s s' := by
  obtain rfl := Host.Outcome.next.inj h
  repeat'
    first
      | with_reducible exact Keeps.refl _
      | with_reducible apply Keeps.trans' (retryFrom_keeps ..)
      | with_reducible apply Keeps.ite

theorem execAlignmentFlit_keeps {s' : State} {l : Fin 8} {s : State}
    (h : execAlignmentFlit l s = .next s') : Keeps s s' := by
  obtain rfl := Host.Outcome.next.inj h
  repeat'
    first
      | with_reducible exact Keeps.refl _
      | with_reducible apply Keeps.trans' (emit_keeps ..)
      | with_reducible apply Keeps.trans' (updLnk_keeps ..)
      | with_reducible apply Keeps.ite

theorem takeMsg_keeps {w} {t : State} {l : Nat} {ty : Nat} {later : Msg → Bool} {s : State}
    (h : takeMsg l ty later s = some (w, t)) : Keeps s t := by
  unfold takeMsg at h
  split at h
  · cases h
  split at h
  · cases h
  · cases h
    exact updLnk_keeps ..

theorem execJobMessage_keeps {s' : State} {l : Fin 8} {s : State}
    (h : execJobMessage l s = .next s') : Keeps s s' := by
  obtain rfl := Host.Outcome.next.inj h
  repeat'
    first
      | with_reducible exact Keeps.refl _
      | with_reducible apply Keeps.trans' (takeMsg_keeps ‹_›)
      | with_reducible refine Keeps.pair ‹_› ?_
      | with_reducible refine Keeps.pair2 ‹_› ?_
      | with_reducible apply Keeps.trans' (jobRun_keeps ..)
      | extract_lets
      | with_reducible apply Keeps.ite
      | with_reducible apply Keeps.ite2
      | split

theorem execJobReply_keeps {s' : State} {l : Fin 8} {s : State}
    (h : execJobReply l s = .next s') : Keeps s s' := by
  obtain rfl := Host.Outcome.next.inj h
  repeat'
    first
      | with_reducible exact Keeps.refl _
      | with_reducible apply Keeps.trans' (takeMsg_keeps ‹_›)
      | with_reducible refine Keeps.pair ‹_› ?_
      | with_reducible refine Keeps.pair2 ‹_› ?_
      | with_reducible apply Keeps.trans' (relayReply_keeps ..)
      | extract_lets
      | with_reducible apply Keeps.ite
      | with_reducible apply Keeps.ite2
      | split

theorem execPeerSignalMessage_keeps {s' : State} {l : Fin 8} {s : State}
    (h : execPeerSignalMessage l s = .next s') : Keeps s s' := by
  obtain rfl := Host.Outcome.next.inj h
  repeat'
    first
      | with_reducible exact Keeps.refl _
      | with_reducible apply Keeps.trans' (takeMsg_keeps ‹_›)
      | with_reducible refine Keeps.pair ‹_› ?_
      | with_reducible refine Keeps.pair2 ‹_› ?_
      | with_reducible apply Keeps.trans' (peerSignalIn_keeps ..)
      | extract_lets
      | with_reducible apply Keeps.ite
      | with_reducible apply Keeps.ite2
      | split

theorem execSignalAck_keeps {s' : State} {l : Fin 8} {s : State}
    (h : execSignalAck l s = .next s') : Keeps s s' := by
  obtain rfl := Host.Outcome.next.inj h
  repeat'
    first
      | with_reducible exact Keeps.refl _
      | with_reducible apply Keeps.trans' (takeMsg_keeps ‹_›)
      | with_reducible refine Keeps.pair ‹_› ?_
      | with_reducible refine Keeps.pair2 ‹_› ?_
      | with_reducible apply Keeps.trans' (commitOk_keeps ..)
      | extract_lets
      | with_reducible apply Keeps.ite
      | with_reducible apply Keeps.ite2
      | split

theorem execCheckpointMessage_keeps {s' : State} {l : Fin 8} {s : State}
    (h : execCheckpointMessage l s = .next s') : Keeps s s' := by
  obtain rfl := Host.Outcome.next.inj h
  repeat'
    first
      | with_reducible exact Keeps.refl _
      | with_reducible apply Keeps.trans' (takeMsg_keeps ‹_›)
      | with_reducible refine Keeps.pair ‹_› ?_
      | with_reducible refine Keeps.pair2 ‹_› ?_
      | with_reducible apply Keeps.trans' (checkpointIn_keeps ..)
      | extract_lets
      | with_reducible apply Keeps.ite
      | with_reducible apply Keeps.ite2
      | split

theorem execCmdEnd_keeps {s' : State} {l : Fin 8} {s : State}
    (h : execCmdEnd l s = .next s') : Keeps s s' := by
  obtain rfl := Host.Outcome.next.inj h
  repeat'
    first
      | with_reducible exact Keeps.refl _
      | with_reducible apply Keeps.trans' (takeMsg_keeps ‹_›)
      | with_reducible refine Keeps.pair ‹_› ?_
      | with_reducible refine Keeps.pair2 ‹_› ?_
      | with_reducible apply Keeps.trans' (cmdEndIn_keeps ..)
      | extract_lets
      | with_reducible apply Keeps.ite
      | with_reducible apply Keeps.ite2
      | split

theorem execSplitJoin_keeps {s' : State} {l : Fin 8} {s : State}
    (h : execSplitJoin l s = .next s') : Keeps s s' := by
  obtain rfl := Host.Outcome.next.inj h
  repeat'
    first
      | with_reducible exact Keeps.refl _
      | with_reducible apply Keeps.trans' (takeMsg_keeps ‹_›)
      | with_reducible refine Keeps.pair ‹_› ?_
      | with_reducible refine Keeps.pair2 ‹_› ?_
      | with_reducible apply Keeps.trans' (joinIn_keeps ..)
      | extract_lets
      | with_reducible apply Keeps.ite
      | with_reducible apply Keeps.ite2
      | split

theorem execSplitSpins_keeps {s' : State} {l : Fin 8} {s : State}
    (h : execSplitSpins l s = .next s') : Keeps s s' := by
  obtain rfl := Host.Outcome.next.inj h
  split
  · exact (takeMsg_keeps ‹_›).trans (splitMsg_keeps _ _ _ _ (fun _ _ _ => spinsIn_keeps ..))
  · exact Keeps.refl s

theorem execSplitEnergy_keeps {s' : State} {l : Fin 8} {s : State}
    (h : execSplitEnergy l s = .next s') : Keeps s s' := by
  obtain rfl := Host.Outcome.next.inj h
  split
  · exact (takeMsg_keeps ‹_›).trans (splitMsg_keeps _ _ _ _ (fun _ _ _ => energyIn_keeps ..))
  · exact Keeps.refl s

theorem execSplitFail_keeps {s' : State} {l : Fin 8} {s : State}
    (h : execSplitFail l s = .next s') : Keeps s s' := by
  obtain rfl := Host.Outcome.next.inj h
  repeat'
    first
      | with_reducible exact Keeps.refl _
      | with_reducible apply Keeps.trans' (takeMsg_keeps ‹_›)
      | with_reducible refine Keeps.pair ‹_› ?_
      | with_reducible refine Keeps.pair2 ‹_› ?_
      | with_reducible apply Keeps.trans' (relayFail_keeps ..)
      | with_reducible apply Keeps.trans' (killCmd_keeps ..)
      | extract_lets
      | with_reducible apply Keeps.ite
      | with_reducible apply Keeps.ite2
      | split

/-! ## Pcie -/

theorem execFunctionLevelReset_keeps {s' : State} {s : State}
    (h : execFunctionLevelReset s = .next s') : Keeps s s' := by
  obtain rfl := Host.Outcome.next.inj h
  repeat'
    first
      | with_reducible exact Keeps.refl _
      | with_reducible apply Keeps.trans' (pcieReset_keeps ..)
      | with_reducible apply Keeps.ite

theorem execPerstN_keeps {s' : State} {s : State}
    (h : execPerstN s = .next s') : Keeps s s' := by
  obtain rfl := Host.Outcome.next.inj h
  repeat'
    first
      | with_reducible exact Keeps.refl _
      | with_reducible apply Keeps.trans' (pcieReset_keeps ..)
      | with_reducible apply Keeps.ite

/-! ## Power -/

theorem execPointSet_keeps {s' : State} {value : Word} {s : State}
    (h : execPointSet value s = .next s') : Keeps s s' := by
  obtain rfl := Host.Outcome.next.inj h
  repeat'
    first
      | with_reducible exact Keeps.refl _
      | with_reducible apply Keeps.trans' (pwrCfg_keeps ..)
      | with_reducible apply Keeps.ite

theorem execPowerSample_keeps {s' : State} {p : PowerReading} {s : State}
    (h : execPowerSample p s = .next s') : Keeps s s' := by
  obtain rfl := Host.Outcome.next.inj h
  repeat'
    first
      | with_reducible exact Keeps.refl _
      | with_reducible apply Keeps.trans' (powerSample_keeps ..)
      | with_reducible apply Keeps.ite

theorem execHoldup_keeps {s' : State} {s : State}
    (h : execHoldup s = .next s') : Keeps s s' := by
  obtain rfl := Host.Outcome.next.inj h
  repeat'
    first
      | with_reducible exact Keeps.refl _
      | with_reducible apply Keeps.trans' (supplyEdge_keeps ..)
      | with_reducible apply Keeps.ite
      | split
      | with_reducible refine Keeps.upd ?_ rfl rfl rfl rfl rfl rfl rfl rfl

theorem execHoldupRelease_keeps {s' : State} {s : State}
    (h : execHoldupRelease s = .next s') : Keeps s s' := by
  obtain rfl := Host.Outcome.next.inj h
  repeat'
    first
      | with_reducible exact Keeps.refl _
      | with_reducible apply Keeps.trans' (supplyEdge_keeps ..)
      | with_reducible apply Keeps.ite
      | split
      | with_reducible refine Keeps.upd ?_ rfl rfl rfl rfl rfl rfl rfl rfl

theorem execLowVoltage_keeps {s' : State} {s : State}
    (h : execLowVoltage s = .next s') : Keeps s s' := by
  obtain rfl := Host.Outcome.next.inj h
  repeat'
    first
      | with_reducible exact Keeps.refl _
      | with_reducible apply Keeps.trans' (supplyEdge_keeps ..)
      | with_reducible apply Keeps.ite
      | split
      | with_reducible refine Keeps.upd ?_ rfl rfl rfl rfl rfl rfl rfl rfl

theorem execLowVoltageRelease_keeps {s' : State} {s : State}
    (h : execLowVoltageRelease s = .next s') : Keeps s s' := by
  obtain rfl := Host.Outcome.next.inj h
  repeat'
    first
      | with_reducible exact Keeps.refl _
      | with_reducible apply Keeps.trans' (supplyEdge_keeps ..)
      | with_reducible apply Keeps.ite
      | split
      | with_reducible refine Keeps.upd ?_ rfl rfl rfl rfl rfl rfl rfl rfl

theorem execRefclkLost_keeps {s' : State} {s : State}
    (h : execRefclkLost s = .next s') : Keeps s s' := by
  obtain rfl := Host.Outcome.next.inj h
  repeat'
    first
      | with_reducible exact Keeps.refl _
      | with_reducible apply Keeps.trans' (pwrFlag_keeps ..)
      | with_reducible apply Keeps.trans' (logSev_keeps ..)
      | extract_lets
      | with_reducible apply Keeps.ite
      | split
      | with_reducible refine Keeps.upd ?_ rfl rfl rfl rfl rfl rfl rfl rfl

theorem execRefclkRestored_keeps {s' : State} {s : State}
    (h : execRefclkRestored s = .next s') : Keeps s s' := by
  obtain rfl := Host.Outcome.next.inj h
  repeat'
    first
      | with_reducible exact Keeps.refl _
      | with_reducible apply Keeps.trans' (logSev_keeps ..)
      | extract_lets
      | with_reducible apply Keeps.ite
      | split
      | with_reducible refine Keeps.upd ?_ rfl rfl rfl rfl rfl rfl rfl rfl

theorem execDomainWake_keeps {s' : State} {d : Fin 96} {s : State}
    (h : execDomainWake d s = .next s') : Keeps s s' := by
  obtain rfl := Host.Outcome.next.inj h
  repeat'
    first
      | with_reducible exact Keeps.refl _
      | with_reducible apply Keeps.trans' (setDom_keeps ..)
      | with_reducible apply Keeps.trans' (portWakes_keeps ..)
      | with_reducible apply Keeps.trans' (zeroDomain_keeps ..)
      | with_reducible apply Keeps.ite
      | split
      | with_reducible refine Keeps.upd ?_ rfl rfl rfl rfl rfl rfl rfl rfl

theorem execDomainFault_keeps {s' : State} {d : Fin 96} {s : State}
    (h : execDomainFault d s = .next s') : Keeps s s' := by
  obtain rfl := Host.Outcome.next.inj h
  repeat'
    first
      | with_reducible exact Keeps.refl _
      | with_reducible apply Keeps.trans' (pwrFlag_keeps ..)
      | with_reducible apply Keeps.trans' (logSev_keeps ..)
      | with_reducible apply Keeps.trans' (setDom_keeps ..)
      | with_reducible apply Keeps.trans' (domainFails_keeps ..)
      | extract_lets
      | with_reducible apply Keeps.ite
      | split
      | with_reducible refine Keeps.upd ?_ rfl rfl rfl rfl rfl rfl rfl rfl

theorem execDomainOff_keeps {s' : State} {d : Fin 96} {s : State}
    (h : execDomainOff d s = .next s') : Keeps s s' := by
  obtain rfl := Host.Outcome.next.inj h
  repeat'
    first
      | with_reducible exact Keeps.refl _
      | with_reducible apply Keeps.trans' (setDom_keeps ..)
      | with_reducible apply Keeps.trans' (loseDomain_keeps ..)
      | with_reducible apply Keeps.ite
      | split
      | with_reducible refine Keeps.upd ?_ rfl rfl rfl rfl rfl rfl rfl rfl

theorem execIdleOff_keeps {s' : State} {n : Fin 64} {s : State}
    (h : execIdleOff n s = .next s') : Keeps s s' := by
  obtain rfl := Host.Outcome.next.inj h
  repeat'
    first
      | with_reducible exact Keeps.refl _
      | with_reducible apply Keeps.ite
      | split
      | with_reducible refine Keeps.upd ?_ rfl rfl rfl rfl rfl rfl rfl rfl

/-! ## Service -/

theorem execGetStatus_keeps {s' : State} {r : SvcReq} {s : State}
    (h : execGetStatus r s = .next s') : Keeps s s' := by
  obtain rfl := Host.Outcome.next.inj h
  repeat'
    first
      | with_reducible exact Keeps.refl _
      | with_reducible refine Keeps.pair ‹_› ?_
      | with_reducible refine Keeps.pair2 ‹_› ?_
      | with_reducible apply Keeps.trans' (serve_keeps ..)
      | with_reducible apply Keeps.trans' (svcBadFrame_keeps ..)
      | with_reducible apply Keeps.trans' (svcAnswer_keeps ..)
      | extract_lets
      | with_reducible apply Keeps.ite
      | with_reducible apply Keeps.ite2
      | split
      | dsimp only
      | intro _

theorem execSetGlobalTimeout_keeps {s' : State} {r : SvcReq} {s : State}
    (h : execSetGlobalTimeout r s = .next s') : Keeps s s' := by
  obtain rfl := Host.Outcome.next.inj h
  refine serveOwner_keeps _ _ _ _ _ fun st t e => ?_
  obtain rfl := Option.some.inj e
  exact (Keeps.refl _).upd rfl rfl rfl rfl rfl rfl rfl rfl

theorem execSetCarafeCrypt_keeps {s' : State} {r : SvcReq} {s : State}
    (h : execSetCarafeCrypt r s = .next s') : Keeps s s' := by
  obtain rfl := Host.Outcome.next.inj h
  refine serveOwner_keeps _ _ _ _ _ fun st t e => ?_
  obtain rfl := Option.some.inj e
  exact (Keeps.refl _).upd rfl rfl rfl rfl rfl rfl rfl rfl

theorem execSetKwPolicy_keeps {s' : State} {r : SvcReq} {s : State}
    (h : execSetKwPolicy r s = .next s') : Keeps s s' := by
  obtain rfl := Host.Outcome.next.inj h
  refine serveOwner_keeps _ _ _ _ _ fun st t e => ?_
  obtain rfl := Option.some.inj e
  exact (Keeps.refl _).upd rfl rfl rfl rfl rfl rfl rfl rfl

theorem execSetEthAddr_keeps {s' : State} {r : SvcReq} {s : State}
    (h : execSetEthAddr r s = .next s') : Keeps s s' := by
  obtain rfl := Host.Outcome.next.inj h
  refine serveOwner_keeps _ _ _ _ _ fun st t e => ?_
  obtain rfl := Option.some.inj e
  exact (Keeps.refl _).upd rfl rfl rfl rfl rfl rfl rfl rfl

theorem execSetJobKey_keeps {s' : State} {r : SvcReq} {s : State}
    (h : execSetJobKey r s = .next s') : Keeps s s' := by
  obtain rfl := Host.Outcome.next.inj h
  refine serveOwner_keeps _ _ _ _ _ fun st t e => ?_
  dsimp only at e
  split at e
  · cases e
  split at e
  · obtain rfl := Option.some.inj e
    exact (Keeps.refl _).upd rfl rfl rfl rfl rfl rfl rfl rfl
  · cases e

theorem execInstallCert_keeps {s' : State} {r : SvcReq} {s : State}
    (h : execInstallCert r s = .next s') : Keeps s s' := by
  obtain rfl := Host.Outcome.next.inj h
  refine serveOwner_keeps _ _ _ _ _ fun st t e => ?_
  dsimp only at e
  split at e
  · split at e
    · obtain rfl := Option.some.inj e
      exact (Keeps.refl _).upd rfl rfl rfl rfl rfl rfl rfl rfl
    · cases e
  · cases e

theorem execStageTable_keeps {s' : State} {r : SvcReq} {s : State}
    (h : execStageTable r s = .next s') : Keeps s s' := by
  obtain rfl := Host.Outcome.next.inj h
  refine serveOwner_keeps _ _ _ _ _ fun st t e => ?_
  obtain rfl := Option.some.inj e
  exact (Keeps.refl _).upd rfl rfl rfl rfl rfl rfl rfl rfl

theorem execCommitTable_keeps {s' : State} {r : SvcReq} {s : State}
    (h : execCommitTable r s = .next s') : Keeps s s' := by
  obtain rfl := Host.Outcome.next.inj h
  refine serveOwner_keeps _ _ _ _ _ fun st t e => ?_
  dsimp only at e
  split at e
  · obtain rfl := Option.some.inj e
    exact (Keeps.refl _).upd rfl rfl rfl rfl rfl rfl rfl rfl
  · cases e

theorem execSetOwnerLock_keeps {s' : State} {r : SvcReq} {s : State}
    (h : execSetOwnerLock r s = .next s') : Keeps s s' := by
  obtain rfl := Host.Outcome.next.inj h
  repeat'
    first
      | with_reducible exact Keeps.refl _
      | with_reducible apply Keeps.trans' (serveLife_keeps ..)
      | with_reducible apply Keeps.trans' (ownerOk_keeps ..)
      | with_reducible apply Keeps.trans' (ownerLock_keeps ..)
      | intro _

theorem execClearOwnerLock_keeps {s' : State} {r : SvcReq} {s : State}
    (h : execClearOwnerLock r s = .next s') : Keeps s s' := by
  obtain rfl := Host.Outcome.next.inj h
  repeat'
    first
      | with_reducible exact Keeps.refl _
      | with_reducible apply Keeps.trans' (serveLife_keeps ..)
      | with_reducible apply Keeps.trans' (ownerOk_keeps ..)
      | with_reducible apply Keeps.trans' (ownerLock_keeps ..)
      | intro _

theorem execUpdateBegin_keeps {s' : State} {r : SvcReq} {s : State}
    (h : execUpdateBegin r s = .next s') : Keeps s s' := by
  obtain rfl := Host.Outcome.next.inj h
  repeat'
    first
      | with_reducible exact Keeps.refl _
      | with_reducible apply Keeps.trans' (logEvent_keeps ..)
      | with_reducible apply Keeps.trans' (setSlot_keeps ..)
      | with_reducible apply Keeps.trans' (serveLife_keeps ..)
      | with_reducible apply Keeps.trans' (ownerOk_keeps ..)
      | extract_lets
      | with_reducible apply Keeps.ite
      | split
      | intro _

theorem execUpdateBlock_keeps {s' : State} {r : SvcReq} {s : State}
    (h : execUpdateBlock r s = .next s') : Keeps s s' := by
  obtain rfl := Host.Outcome.next.inj h
  repeat'
    first
      | with_reducible exact Keeps.refl _
      | with_reducible apply Keeps.trans' (setSlot_keeps ..)
      | with_reducible apply Keeps.trans' (svcAnswer_keeps ..)
      | with_reducible apply Keeps.trans' (serveLife_keeps ..)
      | extract_lets
      | with_reducible apply Keeps.ite
      | split
      | intro _

theorem execUpdateCommit_keeps {s' : State} {r : SvcReq} {s : State}
    (h : execUpdateCommit r s = .next s') : Keeps s s' := by
  obtain rfl := Host.Outcome.next.inj h
  repeat'
    first
      | with_reducible exact Keeps.refl _
      | with_reducible apply Keeps.trans' (fwFlag_keeps ..)
      | with_reducible apply Keeps.trans' (logEvent_keeps ..)
      | with_reducible apply Keeps.trans' (setSlotState_keeps ..)
      | with_reducible apply Keeps.trans' (serveLife_keeps ..)
      | with_reducible apply Keeps.trans' (ownerOk_keeps ..)
      | extract_lets
      | intro _

theorem execUpdateCancel_keeps {s' : State} {r : SvcReq} {s : State}
    (h : execUpdateCancel r s = .next s') : Keeps s s' := by
  obtain rfl := Host.Outcome.next.inj h
  repeat'
    first
      | with_reducible exact Keeps.refl _
      | with_reducible apply Keeps.trans' (logEvent_keeps ..)
      | with_reducible apply Keeps.trans' (setSlot_keeps ..)
      | with_reducible apply Keeps.trans' (serveLife_keeps ..)
      | with_reducible apply Keeps.trans' (ownerOk_keeps ..)
      | with_reducible apply Keeps.ite
      | split
      | intro _

theorem execSetConfirmWindow_keeps {s' : State} {r : SvcReq} {s : State}
    (h : execSetConfirmWindow r s = .next s') : Keeps s s' := by
  obtain rfl := Host.Outcome.next.inj h
  repeat'
    first
      | with_reducible exact Keeps.refl _
      | with_reducible apply Keeps.trans' (serveLife_keeps ..)
      | with_reducible apply Keeps.trans' (ownerOk_keeps ..)
      | extract_lets
      | intro _
      | with_reducible refine Keeps.upd ?_ rfl rfl rfl rfl rfl rfl rfl rfl

theorem execUpdateStatus_keeps {s' : State} {r : SvcReq} {s : State}
    (h : execUpdateStatus r s = .next s') : Keeps s s' := by
  obtain rfl := Host.Outcome.next.inj h
  repeat'
    first
      | with_reducible exact Keeps.refl _
      | with_reducible refine Keeps.pair ‹_› ?_
      | with_reducible refine Keeps.pair2 ‹_› ?_
      | with_reducible apply Keeps.trans' (serve_keeps ..)
      | with_reducible apply Keeps.trans' (svcBadFrame_keeps ..)
      | with_reducible apply Keeps.trans' (svcAnswer_keeps ..)
      | extract_lets
      | with_reducible apply Keeps.ite
      | with_reducible apply Keeps.ite2
      | split
      | dsimp only
      | intro _

theorem execBbRead_keeps {s' : State} {r : SvcReq} {s : State}
    (h : execBbRead r s = .next s') : Keeps s s' := by
  obtain rfl := Host.Outcome.next.inj h
  repeat'
    first
      | with_reducible exact Keeps.refl _
      | with_reducible refine Keeps.pair ‹_› ?_
      | with_reducible refine Keeps.pair2 ‹_› ?_
      | with_reducible apply Keeps.trans' (serve_keeps ..)
      | with_reducible apply Keeps.trans' (svcBadFrame_keeps ..)
      | with_reducible apply Keeps.trans' (svcAnswer_keeps ..)
      | extract_lets
      | with_reducible apply Keeps.ite
      | with_reducible apply Keeps.ite2
      | split
      | dsimp only
      | intro _

theorem execUnknownOp_keeps {s' : State} {op : BitVec 8} {_r : SvcReq} {s : State}
    (h : execUnknownOp op _r s = .next s') : Keeps s s' := by
  obtain rfl := Host.Outcome.next.inj h
  repeat'
    first
      | with_reducible exact Keeps.refl _
      | with_reducible refine Keeps.pair ‹_› ?_
      | with_reducible refine Keeps.pair2 ‹_› ?_
      | with_reducible apply Keeps.trans' (serve_keeps ..)
      | with_reducible apply Keeps.trans' (svcAnswer_keeps ..)
      | extract_lets
      | with_reducible apply Keeps.ite
      | with_reducible apply Keeps.ite2
      | split
      | dsimp only
      | intro _

/-! ## RegRead -/

theorem execLowWordRead_keeps {s' : State} {path : Path} {addr : Nat} {bytes : Nat} {s : State}
    (h : execLowWordRead path addr bytes s = .next s') : Keeps s s' := by
  obtain rfl := Host.Outcome.next.inj h
  repeat'
    first
      | with_reducible exact Keeps.refl _
      | with_reducible refine Keeps.pair ‹_› ?_
      | with_reducible refine Keeps.pair2 ‹_› ?_
      | with_reducible apply Keeps.trans' (rngSwRead_keeps ..)
      | with_reducible apply Keeps.trans' (regRead_keeps ..)
      | with_reducible apply Keeps.trans' (emit_keeps ..)
      | extract_lets
      | with_reducible apply Keeps.ite

/-! ## VectorIns -/

theorem execVop_keeps {s' : State} {n : Fin 64} {s : State}
    (h : execVop n s = .next s') : Keeps s s' := by
  obtain rfl := Host.Outcome.next.inj h
  repeat'
    first
      | with_reducible exact Keeps.refl _
      | with_reducible refine Keeps.pair ‹_› ?_
      | with_reducible refine Keeps.pair2 ‹_› ?_
      | with_reducible apply Keeps.trans' (withUnit_keeps ..)
      | with_reducible apply Keeps.trans' (vopIns_keeps ..)
      | extract_lets
      | with_reducible apply Keeps.ite
      | with_reducible apply Keeps.ite2
      | split
      | dsimp only
      | intro _

theorem execDma_keeps {s' : State} {n : Fin 64} {s : State}
    (h : execDma n s = .next s') : Keeps s s' := by
  obtain rfl := Host.Outcome.next.inj h
  repeat'
    first
      | with_reducible exact Keeps.refl _
      | with_reducible refine Keeps.pair ‹_› ?_
      | with_reducible refine Keeps.pair2 ‹_› ?_
      | with_reducible apply Keeps.trans' (withUnit_keeps ..)
      | with_reducible apply Keeps.trans' (dmaIns_keeps ..)
      | extract_lets
      | with_reducible apply Keeps.ite
      | with_reducible apply Keeps.ite2
      | split
      | dsimp only
      | intro _

theorem execAtomf_keeps {s' : State} {n : Fin 64} {s : State}
    (h : execAtomf n s = .next s') : Keeps s s' := by
  obtain rfl := Host.Outcome.next.inj h
  repeat'
    first
      | with_reducible exact Keeps.refl _
      | with_reducible refine Keeps.pair ‹_› ?_
      | with_reducible refine Keeps.pair2 ‹_› ?_
      | with_reducible apply Keeps.trans' (withUnit_keeps ..)
      | with_reducible apply Keeps.trans' (atomfIns_keeps ..)
      | extract_lets
      | with_reducible apply Keeps.ite
      | with_reducible apply Keeps.ite2
      | split
      | dsimp only
      | intro _

theorem execSpadWinWrite_keeps {s' : State} {size : Bool} {w : Fin 16} {value : Word} {s : State}
    (h : execSpadWinWrite size w value s = .next s') : Keeps s s' := by
  obtain rfl := Host.Outcome.next.inj h
  repeat'
    first
      | with_reducible exact Keeps.refl _
      | with_reducible apply Keeps.trans' (winWriteAll_keeps ..)
      | with_reducible apply Keeps.ite

/-! ## RegWrite -/

theorem execBadRegisterAccess_keeps {s' : State} {write : Bool} {addr : Nat} {bytes : Nat} {s : State}
    (h : execBadRegisterAccess write addr bytes s = .next s') : Keeps s s' := by
  obtain rfl := Host.Outcome.next.inj h
  repeat'
    first
      | with_reducible exact Keeps.refl _
      | with_reducible apply Keeps.trans' (emit_keeps ..)
      | with_reducible apply Keeps.trans' (feBadAccess_keeps ..)
      | extract_lets
      | with_reducible apply Keeps.ite

end Sys2Proof.Machine
end

