-- ==== Sys2Proof/Laws/Ages.lean ====
section
/-! SUPPORT. What every command does at most to the fuses, the phase, the queue, the time and the form of the memories:
the rows that Laws/KeepsExec.lean leaves out. -/

namespace Sys2Proof.Machine

/-- The queue stays, time does not fall, the memories stay canonical and the fuses follow their one-way rules. -/
structure Ages0 (a s : State) : Prop where
  pending : s.pending = a.pending
  now : a.now ≤ s.now
  wf : Memory.wf a = true → Memory.wf s = true
  fuse : fusesOneWay a s

/-- And the lifecycle rule of R503 stays true. -/
structure Ages (a s : State) : Prop extends Ages0 a s where
  life : lifeInv a → lifeInv s

theorem fusesOneWay.refl (s : State) : fusesOneWay s s := ⟨Nat.le_refl _, id, rfl, rfl, rfl, rfl, rfl⟩

theorem fusesOneWay.trans {a b c : State} (h : fusesOneWay a b) (k : fusesOneWay b c) : fusesOneWay a c :=
  ⟨Nat.le_trans h.1 k.1, k.2.1 ∘ h.2.1, k.2.2.1.trans h.2.2.1, k.2.2.2.1.trans h.2.2.2.1,
    k.2.2.2.2.1.trans h.2.2.2.2.1, k.2.2.2.2.2.1.trans h.2.2.2.2.2.1, k.2.2.2.2.2.2.trans h.2.2.2.2.2.2⟩

theorem Ages0.trans {a b c : State} (h : Ages0 a b) (k : Ages0 b c) : Ages0 a c :=
  ⟨k.pending.trans h.pending, Nat.le_trans h.now k.now, k.wf ∘ h.wf, h.fuse.trans k.fuse⟩

theorem Ages.trans {a b c : State} (h : Ages a b) (k : Ages b c) : Ages a c :=
  ⟨h.toAges0.trans k.toAges0, k.life ∘ h.life⟩

theorem Keeps.ages {a s : State} (h : Keeps a s) : Ages a s :=
  ⟨⟨h.pending, Nat.le_of_eq h.now.symm, h.wf, by unfold fusesOneWay; rw [h.fuse]; exact fusesOneWay.refl a⟩,
    fun l => by unfold lifeInv; rw [h.fuse, h.phase]; exact l⟩

theorem Ages.refl (s : State) : Ages s s := (Keeps.refl s).ages

theorem Ages.ite {a x y : State} {c : Prop} [Decidable c] (h : Ages a x) (k : Ages a y) :
    Ages a (if c then x else y) := by
  split
  · exact h
  · exact k

/-- A state with another phase: the lifecycle rule must be checked again. -/
theorem Ages.phase {a s t : State} (h : Ages a s) (h1 : t.fuse = s.fuse) (h2 : t.pending = s.pending)
    (h3 : s.now ≤ t.now) (h4 : t.mem = s.mem) (h5 : t.host = s.host) (h6 : lifeInv a → lifeInv t) : Ages a t :=
  ⟨h.toAges0.trans ⟨h2, h3, fun w => by rw [Memory.wf_iff] at *; rw [h4, h5]; exact w,
    by unfold fusesOneWay; rw [h1]; exact fusesOneWay.refl s⟩, h6⟩

theorem lifeInv_of_stopped {s : State} (h1 : s.boot.phase ≠ .decommissioned) (h2 : s.boot.phase ≠ .running)
    (h3 : s.boot.phase ≠ .recovery) : lifeInv s :=
  ⟨fun h => absurd h h1, fun _ => ⟨h2, h3⟩⟩

theorem lifeInv_of_owned {s : State} (h1 : s.boot.phase ≠ .decommissioned) (h2 : s.fuse.decommissioned = false) :
    lifeInv s :=
  ⟨fun h => absurd h h1, fun h => absurd (h.symm.trans h2) (by decide)⟩

/-! ## A tick -/

theorem rngTick_keeps (s : State) : Keeps s (rngTick s) := by
  unfold rngTick
  exact Keeps.trans ((Keeps.refl s).upd rfl rfl rfl rfl rfl rfl rfl rfl) (Keeps.foldl (fun _ _ => swNotReady_keeps ..) ..)

/-- An idle step takes 10 ns and keeps the rest of what Ages lists. -/
theorem tick_ages (s : State) : Ages s (tick s) :=
  ((Ages.refl s).phase (t := { s with now := s.now + 1 }) rfl rfl (Nat.le_succ _) rfl rfl id).trans (rngTick_keeps _).ages

theorem tick_now (s : State) : (tick s).now = s.now + 1 := (rngTick_keeps { s with now := s.now + 1 }).now

theorem tick_pending (s : State) : (tick s).pending = s.pending := (rngTick_keeps { s with now := s.now + 1 }).pending

/-! ## Resets -/

theorem resetMachine_ages0 (cause : Nat) (s : State) : Ages0 s (resetMachine cause s) :=
  ⟨rfl, Nat.le_refl _, fun w => by
    rw [Memory.wf_iff] at *
    refine ⟨?_, ?_, ?_, w.2.2.2⟩ <;> (unfold resetMachine; dsimp only; split <;> rfl), fusesOneWay.refl s⟩

theorem resetMachine_phase (cause : Nat) (s : State) : (resetMachine cause s).boot.phase = .booting := rfl

theorem resetMachine_life (cause : Nat) (s : State) : lifeInv (resetMachine cause s) :=
  lifeInv_of_stopped (by simp [resetMachine_phase]) (by simp [resetMachine_phase]) (by simp [resetMachine_phase])

theorem resetMachine_ages (cause : Nat) (s : State) : Ages s (resetMachine cause s) :=
  ⟨resetMachine_ages0 cause s, fun _ => resetMachine_life cause s⟩

theorem selfReset_ages0 (cause : Nat) (s : State) : Ages0 s (selfReset cause s) :=
  (blotterFlush_keeps ..).ages.toAges0.trans (resetMachine_ages0 ..)

theorem selfReset_ages (cause : Nat) (s : State) : Ages s (selfReset cause s) :=
  ⟨selfReset_ages0 cause s, fun _ => resetMachine_life ..⟩

theorem holdReset_phase (s : State) : (holdReset s).boot.phase = .held := rfl

theorem holdReset_ages (s : State) : Ages s (holdReset s) :=
  (resetMachine_ages 0 s).phase rfl rfl (Nat.le_refl _) rfl rfl fun _ =>
    lifeInv_of_stopped (by simp [holdReset_phase]) (by simp [holdReset_phase]) (by simp [holdReset_phase])

theorem thermTrip_ages (sensor : Nat) (temp : BitVec 16) (vio : Bool) (s : State) :
    Ages s (thermTrip sensor temp vio s) := by
  unfold thermTrip
  extract_lets s1 brown p s2
  have h0 : Keeps s (if bbScanned s then s else blotterScan s) := Keeps.ite (Keeps.refl s) (blotterScan_keeps ..)
  have h1 : Ages s s1 :=
    Ages.ite ((h0.trans ((logSev_keeps ..).trans (blotterFlush_keeps ..))).ages) (Ages.refl s)
  have h2 : Ages s s2 := (h1.trans ((Keeps.refl s1).upd rfl rfl rfl rfl rfl rfl rfl rfl).ages).trans (holdReset_ages ..)
  refine h2.trans (Keeps.ages ?_)
  exact Keeps.upd (Keeps.refl s2) rfl rfl rfl rfl rfl rfl rfl rfl

theorem lifeChange_ages (change : State → State) (s : State) (h : Ages0 s (change s)) : Ages s (lifeChange change s) :=
  ⟨(h.trans ((startWipe_keeps ..).trans ((wipeEnds_keeps ..).trans (logEvent_keeps ..))).ages.toAges0).trans
    (selfReset_ages0 ..), fun _ => resetMachine_life ..⟩

/-! ## A trial's end and BOOT -/

theorem confirmTrial_ages (path : Path) (s : State) : Ages s (confirmTrial path s) := by
  unfold confirmTrial
  split
  · exact (fwFlag_keeps ..).ages
  split
  · exact Ages.refl s
  extract_lets i s1 s2 svn b f s3
  have h1 : Keeps s s1 := by
    unfold s1
    split
    · exact setSlotState_keeps ..
    · exact Keeps.refl s
  have h2 : Keeps s s2 := h1.trans (setSlotState_keeps ..)
  have h3 : Ages s s3 := by
    have e : s2.fuse.svnMin ≤ s3.fuse.svnMin := by
      show s2.fuse.svnMin ≤ BitVec.ofNat 6 svn
      rw [BitVec.le_def, BitVec.toNat_ofNat]
      have hs : slotSvn (slotOf s2 i) < 64 := by
        exact Nat.mod_lt _ (by decide)
      have : svn < 2 ^ 6 := Nat.max_lt.2 ⟨s2.fuse.svnMin.isLt, hs⟩
      rw [Nat.mod_eq_of_lt this]
      exact Nat.le_max_left ..
    refine h2.ages.trans ⟨⟨rfl, Nat.le_refl _, fun w => w, e, id, rfl, rfl, rfl, rfl, rfl⟩, fun l => l⟩
  exact h3.trans ((rejectOld_keeps ..).trans ((fwFlag_keeps ..).trans (logEvent_keeps ..))).ages

theorem abandonTrial_ages (path : Path) (s : State) : Ages s (abandonTrial path s) := by
  unfold abandonTrial
  split
  · exact (fwFlag_keeps ..).ages
  · exact Ages.ite (selfReset_ages ..) (Ages.refl s)

theorem enterRecovery_ages (cause : Nat) (s : State) (h : s.fuse.decommissioned = false) :
    Ages s (enterRecovery cause s) := by
  unfold enterRecovery
  refine Ages.trans ?_ (logEvent_keeps ..).ages
  exact (Ages.refl s).phase rfl rfl (Nat.le_refl _) rfl rfl fun _ => lifeInv_of_owned (by simp) h

theorem bootReady_ages (f : BootFindings) (s : State) (h : s.fuse.decommissioned = false) :
    Ages s (bootReady f s) := by
  unfold bootReady
  extract_lets off online b fl s1
  refine Ages.trans ?_ (logEvent_keeps ..).ages
  have e : s1.boot.phase ≠ .decommissioned := by simp [s1]
  exact (Ages.refl s).phase rfl rfl (Nat.le_max_left ..) rfl rfl fun _ => lifeInv_of_owned e h

theorem startFirmware_core (i : Nat) (trial : Bool) (s : State) :
    Ages s (startFirmware i trial s) ∧ (startFirmware i trial s).fuse = s.fuse ∧
      (startFirmware i trial s).boot.slot = i ∧ (startFirmware i trial s).boot.trial = trial := by
  unfold startFirmware
  extract_lets x b s1
  have a : Ages s s1 := (Ages.refl s).phase rfl rfl (Nat.le_refl _) rfl rfl fun l => l
  have k : Keeps s1 (logEvent 0x01 0xFF
    [i, slotMajor x, slotMinor x, slotBuild x, s1.boot.cause.toNat, b2n trial] s1) := logEvent_keeps ..
  exact ⟨a.trans k.ages, k.fuse, k.slot, k.trial⟩

/-- Steps 4 to 8 of R498 up to where BAR0 becomes accessible: the slot and the kind of start are those asked for. -/
theorem bootFirmware_core (f : BootFindings) (i : Nat) (trial : Bool) (s : State) :
    ∃ s1, bootFirmware f i trial s = (if (bootReady f s1).boot.trial && trialFails (bootReady f s1) then
        selfReset 3 (bootReady f s1) else bootReady f s1) ∧ Ages s s1 ∧ s1.fuse = s.fuse ∧ s1.boot.slot = i ∧
      s1.boot.trial = trial := by
  unfold bootFirmware
  extract_lets s1 s2
  have k1 : Keeps (startFirmware i trial s) s1 := (bootHardware_keeps ..).trans (bootKey_keeps ..)
  have k2 : Keeps s1 s2 := applyTable_keeps ..
  have k : Keeps (startFirmware i trial s) (icuBoot s2) := (k1.trans k2).trans (icuBoot_keeps ..)
  obtain ⟨a0, f0, b0, t0⟩ := startFirmware_core i trial s
  exact ⟨_, rfl, a0.trans k.ages, k.fuse.trans f0, k.slot.trans b0, k.trial.trans t0⟩

theorem bootFirmware_ages (f : BootFindings) (i : Nat) (trial : Bool) (s : State)
    (h : s.fuse.decommissioned = false) : Ages s (bootFirmware f i trial s) := by
  obtain ⟨s1, e, a, hf, -⟩ := bootFirmware_core f i trial s
  rw [e]
  have k : Ages s (bootReady f s1) := a.trans (bootReady_ages f s1 (by rw [hf]; exact h))
  exact Ages.ite (k.trans (selfReset_ages ..)) k

theorem measureRefclk_keeps (s : State) : Keeps s (measureRefclk s) :=
  Keeps.ite (Keeps.refl s) ((pwrFlag_keeps ..).trans (logSev_keeps ..))

theorem bootRom_ages (f : BootFindings) (s : State) : Ages s (bootRom f s) := by
  unfold bootRom
  extract_lets fl s1 b s2 s3
  have h1 : Keeps s s1 :=
    ((Keeps.refl s).upd rfl rfl rfl rfl rfl rfl rfl rfl).trans ((blotterScan_keeps ..).trans (readDir_keeps ..))
  have h2 : Keeps s s2 := by
    refine Keeps.trans (b := { s1 with boot := { s1.boot with latched := [] } }) ?_
      (Keeps.foldl (fun _ _ => logSev_keeps ..) ..)
    exact h1.upd rfl rfl rfl rfl rfl rfl rfl rfl
  have h3 : Keeps s s3 := ((h2.trans (measureRefclk_keeps _)).trans (settleSlot_keeps ..)).trans (settleSlot_keeps ..)
  clear_value s3
  split
  · rename_i hd
    exact h3.ages.phase rfl rfl (Nat.le_refl _) rfl rfl fun _ => ⟨fun _ => hd, fun _ => by simp⟩
  rename_i hd
  have hd : s3.fuse.decommissioned = false := by simpa using hd
  split
  · exact h3.ages.trans (enterRecovery_ages 1 s3 hd)
  split
  · have k := Keeps.pair ‹_› (chooseSlot_keeps s3)
    exact (h3.trans k).ages.trans (enterRecovery_ages _ _ (by rw [k.fuse]; exact hd))
  · have k := Keeps.pair ‹_› (chooseSlot_keeps s3)
    exact (h3.trans k).ages.trans (bootFirmware_ages _ _ _ _ (by rw [k.fuse]; exact hd))

/-! ## Register writes -/

theorem fwWrite_ages (p : Path) (o : Nat) (v : Word) (s : State) : Ages s (fwWrite p o v s) := by
  unfold fwWrite
  split
  · refine Keeps.ages ?_
    exact Keeps.upd (Keeps.refl s) rfl rfl rfl rfl rfl rfl rfl rfl
  · refine Keeps.ages ?_
    exact Keeps.upd (Keeps.refl s) rfl rfl rfl rfl rfl rfl rfl rfl
  · refine Ages.ite (fwFlag_keeps ..).ages (Ages.ite ?_ (Ages.refl s))
    extract_lets s1
    have h1 : Ages s s1 := Ages.ite (confirmTrial_ages ..) (Ages.refl s)
    exact Ages.ite (h1.trans (abandonTrial_ages ..)) h1

theorem regPoke_ages (p : Path) (a : Nat) (v : Word) (s : State) : Ages s (regPoke p a v s) := by
  unfold regPoke
  extract_lets o
  refine Ages.ite (engWrite_keeps ..).ages ?_
  split
  · exact (msixWrite_keeps ..).ages
  · exact (feWrite_keeps ..).ages
  · exact (icuRegWrite_keeps ..).ages
  · exact (memWrite_keeps ..).ages
  · exact (rngWrite_keeps ..).ages
  · exact (anlWrite_keeps ..).ages
  · exact (arrWrite_keeps ..).ages
  · exact (spadRegWrite_keeps ..).ages
  · exact (detWrite_keeps ..).ages
  · exact (ingWrite_keeps ..).ages
  · exact (kwWrite_keeps ..).ages
  · exact (svcWrite_keeps ..).ages
  · exact fwWrite_ages ..
  · exact (bbWrite_keeps ..).ages
  · exact (pwrWrite_keeps ..).ages
  · exact Ages.refl s

theorem regWrite32_ages (p : Path) (a : Nat) (v : Word) (s : State) : Ages s (regWrite32 p a v s) := by
  unfold regWrite32
  split
  · exact (feBadAccess_keeps ..).ages
  · exact regPoke_ages ..

theorem regWrite_ages (p : Path) (a bytes : Nat) (v : Quad) (s : State) : Ages s (regWrite p a bytes v s) := by
  unfold regWrite
  refine Ages.ite (feBadAccess_keeps ..).ages ?_
  extract_lets s1
  exact Ages.ite (regWrite32_ages ..) ((regWrite32_ages ..).trans (regWrite32_ages ..))

/-! ## The commands -/

theorem execPowerOn_ages {s' : State} {s : State} (h : execPowerOn s = .next s') : Ages s s' := by
  obtain rfl := Host.Outcome.next.inj h
  exact Ages.trans (Keeps.ages (by exact Keeps.upd (Keeps.refl s) rfl rfl rfl rfl rfl rfl rfl rfl)) (resetMachine_ages ..)

theorem execResetN_ages {s' : State} {lowNs : Nat} {s : State} (h : execResetN lowNs s = .next s') : Ages s s' := by
  obtain rfl := Host.Outcome.next.inj h
  refine Ages.ite (Ages.refl s) ?_
  extract_lets p b s1
  have h1 : Keeps s s1 := (Keeps.refl s).upd rfl rfl rfl rfl rfl rfl rfl rfl
  exact h1.ages.trans (Ages.ite (Ages.refl s1) (resetMachine_ages ..))

theorem execBrownout_ages {s' : State} {rail : Fin 8} {vio : Bool} {s : State}
    (h : execBrownout rail vio s = .next s') : Ages s s' := by
  obtain rfl := Host.Outcome.next.inj h
  extract_lets th brown latched s1
  have h1 : Ages s s1 := holdReset_ages s
  refine h1.trans (Keeps.ages ?_)
  exact Keeps.upd (Keeps.refl s1) rfl rfl rfl rfl rfl rfl rfl rfl

theorem execRailRestored_ages {s' : State} {rail : Fin 8} {s : State} (h : execRailRestored s rail = .next s') :
    Ages s s' := by
  obtain rfl := Host.Outcome.next.inj h
  refine Ages.ite (Ages.refl s) (Ages.ite ?_ (resetMachine_ages ..))
  refine Keeps.ages ?_
  exact Keeps.upd (Keeps.refl s) rfl rfl rfl rfl rfl rfl rfl rfl

theorem execThermtrip_ages {s' : State} {sensor : Fin 111} {temp : BitVec 16} {vio : Bool} {s : State}
    (h : execThermtrip sensor temp vio s = .next s') : Ages s s' := by
  obtain rfl := Host.Outcome.next.inj h
  exact Ages.ite (thermTrip_ages ..) (Ages.refl s)

theorem execWatchdog_ages {s' : State} {proc : Fin 5} {s : State} (h : execWatchdog proc s = .next s') :
    Ages s s' := by
  obtain rfl := Host.Outcome.next.inj h
  refine Ages.ite (Ages.trans ?_ (selfReset_ages ..)) (Ages.refl s)
  refine Keeps.ages (Keeps.trans ?_ (logEvent_keeps ..))
  exact Keeps.upd (Keeps.refl s) rfl rfl rfl rfl rfl rfl rfl rfl

theorem execTrialTimeout_ages {s' : State} {s : State} (h : execTrialTimeout s = .next s') : Ages s s' := by
  obtain rfl := Host.Outcome.next.inj h
  exact Ages.ite (selfReset_ages ..) (Ages.refl s)

theorem execAbandon_ages {s' : State} {p : Path} {s : State} (h : execAbandon p s = .next s') : Ages s s' := by
  obtain rfl := Host.Outcome.next.inj h
  exact Ages.ite (abandonTrial_ages ..) (Ages.refl s)

theorem execConfirm_ages {s' : State} {p : Path} {s : State} (h : execConfirm p s = .next s') : Ages s s' := by
  obtain rfl := Host.Outcome.next.inj h
  exact Ages.ite (confirmTrial_ages ..) (Ages.refl s)

theorem execBoot_ages {s' : State} {f : BootFindings} {s : State} (h : execBoot f s = .next s') : Ages s s' := by
  obtain rfl := Host.Outcome.next.inj h
  exact Ages.ite (bootRom_ages ..) (Ages.refl s)

theorem execRegisterWrite_ages {s' : State} {p : Path} {a bytes : Nat} {v : Quad} {s : State}
    (h : execRegisterWrite p a bytes v s = .next s') : Ages s s' := by
  obtain rfl := Host.Outcome.next.inj h
  exact Ages.ite (regWrite_ages ..) (Ages.refl s)

theorem serveLife_ages (op : Nat) (shape auth : Bool) (own : State → Option Nat) (act : State → State) (s : State)
    (h : ∀ t, Ages t (act t)) : Ages s (serveLife op shape auth own act s) := by
  unfold serveLife serve
  refine Ages.ite (Ages.refl s) (Ages.ite (svcAnswer_keeps ..).ages ((svcBegin_keeps op s).ages.trans ?_))
  refine Ages.ite (svcBadFrame_keeps ..).ages (Ages.ite (svcAuth_keeps ..).ages ?_)
  split
  · exact (svcRefuse_keeps ..).ages
  · exact h _

theorem execUpdateActivate_ages {s' : State} {r : SvcReq} {s : State} (h : execUpdateActivate r s = .next s') :
    Ages s s' := by
  obtain rfl := Host.Outcome.next.inj h
  exact serveLife_ages _ _ _ _ _ _ fun _ => ((ownerOk_keeps ..).ages.trans (selfReset_ages ..))

theorem execTakeOwnership_ages {s' : State} {r : SvcReq} {s : State} (h : execTakeOwnership r s = .next s') :
    Ages s s' := by
  obtain rfl := Host.Outcome.next.inj h
  refine serveLife_ages _ _ _ _ _ _ fun _ => ((svcAnswer_keeps ..).ages.trans (lifeChange_ages _ _ ?_))
  refine (Keeps.ages ?_).toAges0
  exact Keeps.upd (Keeps.refl _) rfl rfl rfl rfl rfl rfl rfl rfl

theorem execReleaseOwnership_ages {s' : State} {r : SvcReq} {s : State} (h : execReleaseOwnership r s = .next s') :
    Ages s s' := by
  obtain rfl := Host.Outcome.next.inj h
  exact serveLife_ages _ _ _ _ _ _ fun _ => ((ownerOk_keeps ..).ages.trans (lifeChange_ages _ _ (releaseOwner_keeps ..).ages.toAges0))

theorem execDecommission_ages {s' : State} {r : SvcReq} {s : State} (h : execDecommission r s = .next s') :
    Ages s s' := by
  obtain rfl := Host.Outcome.next.inj h
  refine serveLife_ages _ _ _ _ _ _ fun _ => ((ownerOk_keeps ..).ages.trans (lifeChange_ages _ _ ?_))
  exact ⟨rfl, Nat.le_refl _, id, Nat.le_refl _, fun _ => rfl, rfl, rfl, rfl, rfl, rfl⟩

end Sys2Proof.Machine
end

