-- ==== Sys2Proof/Laws/Bytes.lean ====
section
/-! SUPPORT. Lengths of byte strings: numbers in bytes, slices, digests. -/

namespace Sys2Proof

@[simp] theorem leBytes_length (n x : Nat) : (leBytes n x).length = n := by
  induction n generalizing x with
  | zero => rfl
  | succ n ih => exact congrArg (· + 1) (ih _)

@[simp] theorem beBytes_length (n x : Nat) : (beBytes n x).length = n := by simp [beBytes]

@[simp] theorem shaRound_length (kw : Nat) (l : List Nat) : (shaRound kw l).length = l.length := by
  unfold shaRound; split <;> simp only [List.length_cons]

theorem shaSteps_length (ks : List Nat) (st : List Nat × List Nat) : (ks.foldl shaStep st).1.length = st.1.length := by
  induction ks generalizing st with
  | nil => rfl
  | cons k ks ih => rw [List.foldl_cons, ih]; exact shaRound_length _ _

@[simp] theorem shaBlock_length (c : List Nat) (m : List Byte) : (shaBlock c m).length = c.length := by
  simp [shaBlock, shaSteps_length]

@[simp] theorem shaBlocks_length (n : Nat) (m : List Byte) (c : List Nat) : (shaBlocks n m c).length = c.length := by
  induction n generalizing m c with
  | zero => rfl
  | succ n ih => simp [shaBlocks, ih]

/-- A digest has 32 bytes. -/
@[simp] theorem sha256_length (m : List Byte) : (sha256 m).length = 32 := by
  have h : ∀ l : List Nat, (l.flatMap (beBytes 4)).length = 4 * l.length := fun l => by
    induction l with
    | nil => rfl
    | cons x l ih => simp [ih]; omega
  rw [sha256, h, shaBlocks_length]
  rfl

@[simp] theorem chunkedDigest_length (x : List Byte) : (chunkedDigest x).length = 32 := sha256_length _

end Sys2Proof
end

