-- ==== Sys2Proof/Laws/LinkOut.lean ====
section
/-! SUPPORT. What sending on a Kweow link can change: what was sent, and of that link the flits to send, the counts of
sent ones and the flits since an alignment; nothing else of any link and nothing else of the machine. -/

namespace Sys2Proof.Machine

/-- A link but for what the transmitter counts and holds. -/
def linkRest (x : Link) : Link :=
  { x with queued := [], unacked := [], txLsn := 0, sentVc := [], tx := 0, sinceAlign := 0 }

/-- A link's state, as `linkRest` keeps it. -/
theorem linkRest_st {x y : Link} (h : linkRest x = linkRest y) : x.st = y.st :=
  (congrArg Link.st h : (linkRest x).st = (linkRest y).st)

/-- The second state has what the first had, but for what sending may change. -/
structure LinkOut (a s : State) : Prop where
  rest : s = { a with sent := s.sent, kw := { a.kw with links := s.kw.links } }
  link : ∀ m, linkRest (lnk s m) = linkRest (lnk a m)

theorem LinkOut.refl (s : State) : LinkOut s s := ⟨rfl, fun _ => rfl⟩

theorem LinkOut.trans {a b c : State} (h : LinkOut a b) (k : LinkOut b c) : LinkOut a c := by
  refine ⟨k.rest.trans ?_, fun m => (k.link m).trans (h.link m)⟩
  have := h.rest
  exact congrArg (fun x : State => { x with sent := c.sent, kw := { x.kw with links := c.kw.links } }) this

theorem LinkOut.foldl {α : Type} {f : State → α → State} (h : ∀ st x, LinkOut st (f st x)) (l : List α) (s : State) :
    LinkOut s (l.foldl f s) := by
  induction l generalizing s with
  | nil => exact LinkOut.refl s
  | cons x l ih => exact (h s x).trans (ih (f s x))

theorem emit_linkOut (x : Sent) (s : State) : LinkOut s (emit x s) := ⟨rfl, fun _ => rfl⟩

/-- The record a link holds after an update. -/
@[simp] theorem lnk_setLnk (l : Nat) (x : Link) (s : State) : lnk (setLnk l x s) l = x := Tab.get_put_same _ _ _

theorem lnk_setLnk_other (l : Nat) (x : Link) (s : State) {m : Nat} (h : m ≠ l) : lnk (setLnk l x s) m = lnk s m :=
  Tab.get_put_other _ _ h

/-- An update of the transmitter's fields of a link. -/
theorem updLnk_linkOut (l : Nat) (f : Link → Link) (s : State)
    (k : linkRest (f (lnk s l)) = linkRest (lnk s l)) : LinkOut s (updLnk l f s) := by
  refine ⟨rfl, fun m => ?_⟩
  by_cases e : m = l
  · subst e
    rw [updLnk, lnk_setLnk, k]
  · rw [updLnk, lnk_setLnk_other _ _ _ e]

theorem LinkOut.st {a s : State} (h : LinkOut a s) (m : Nat) : (lnk s m).st = (lnk a m).st := linkRest_st (h.link m)

theorem flitOut_linkOut (l : Nat) (f : Flit) (s : State) : LinkOut s (flitOut l f s) := by
  have step : ∀ (g : Flit) (t : State), LinkOut s t →
      LinkOut s (emit (.flit l g) (updLnk l (fun x => { x with sinceAlign := x.sinceAlign + 1 }) t)) := fun _ t k =>
    (k.trans (updLnk_linkOut l _ t rfl)).trans (emit_linkOut ..)
  unfold flitOut
  extract_lets u
  refine step _ _ ?_
  simp only [u]
  split
  · exact (updLnk_linkOut l _ s rfl).trans (emit_linkOut ..)
  · exact LinkOut.refl s

theorem LinkOut.ite {a x y : State} {c : Prop} [Decidable c] (h : LinkOut a x) (k : LinkOut a y) :
    LinkOut a (if c then x else y) := by
  split
  · exact h
  · exact k

theorem sendBare_linkOut (l kind : Nat) (s : State) : LinkOut s (sendBare l kind s) :=
  LinkOut.ite (flitOut_linkOut _ _ _) (LinkOut.refl s)

theorem pumpLink_linkOut (l n : Nat) (s : State) : LinkOut s (pumpLink l n s) := by
  induction n generalizing s with
  | zero => exact LinkOut.refl s
  | succ n ih =>
    unfold pumpLink
    extract_lets x
    split
    · exact LinkOut.refl s
    · rename_i f _
      extract_lets sealed t
      have k : LinkOut s t := updLnk_linkOut l _ s rfl
      have k2 := k.trans (flitOut_linkOut l sealed t)
      exact k2.trans (ih _)

theorem pump_linkOut (l : Nat) (s : State) : LinkOut s (pump l s) :=
  LinkOut.ite (pumpLink_linkOut _ _ _) (LinkOut.refl s)

theorem kwSend_linkOut (l : Nat) (m : Msg) (s : State) : LinkOut s (kwSend l m s) := by
  unfold kwSend
  split
  · extract_lets fs
    exact (updLnk_linkOut l (fun x => { x with queued := x.queued ++ fs }) s rfl).trans (pump_linkOut l _)
  · exact LinkOut.refl s

end Sys2Proof.Machine
end

