-- ==== Sys2Proof/Laws/State.lean ====
section
/-! SUPPORT. What each named update of one component leaves as it was, field by field. -/

namespace Sys2Proof.Machine

@[simp] theorem emit_pending (x : Sent) (s : State) : (emit x s).pending = s.pending := rfl
@[simp] theorem emit_free (x : Sent) (s : State) : (emit x s).free = s.free := rfl
@[simp] theorem emit_now (x : Sent) (s : State) : (emit x s).now = s.now := rfl
@[simp] theorem emit_fuse (x : Sent) (s : State) : (emit x s).fuse = s.fuse := rfl
@[simp] theorem emit_flash (x : Sent) (s : State) : (emit x s).flash = s.flash := rfl
@[simp] theorem emit_boot (x : Sent) (s : State) : (emit x s).boot = s.boot := rfl
@[simp] theorem emit_fe (x : Sent) (s : State) : (emit x s).fe = s.fe := rfl
@[simp] theorem emit_queues (x : Sent) (s : State) : (emit x s).queues = s.queues := rfl
@[simp] theorem emit_cmds (x : Sent) (s : State) : (emit x s).cmds = s.cmds := rfl
@[simp] theorem emit_fences (x : Sent) (s : State) : (emit x s).fences = s.fences := rfl
@[simp] theorem emit_bindings (x : Sent) (s : State) : (emit x s).bindings = s.bindings := rfl
@[simp] theorem emit_mem (x : Sent) (s : State) : (emit x s).mem = s.mem := rfl
@[simp] theorem emit_host (x : Sent) (s : State) : (emit x s).host = s.host := rfl
@[simp] theorem emit_models (x : Sent) (s : State) : (emit x s).models = s.models := rfl
@[simp] theorem emit_eng (x : Sent) (s : State) : (emit x s).eng = s.eng := rfl
@[simp] theorem emit_emap (x : Sent) (s : State) : (emit x s).emap = s.emap := rfl
@[simp] theorem emit_arr (x : Sent) (s : State) : (emit x s).arr = s.arr := rfl
@[simp] theorem emit_anl (x : Sent) (s : State) : (emit x s).anl = s.anl := rfl
@[simp] theorem emit_det (x : Sent) (s : State) : (emit x s).det = s.det := rfl
@[simp] theorem emit_icu (x : Sent) (s : State) : (emit x s).icu = s.icu := rfl
@[simp] theorem emit_rng (x : Sent) (s : State) : (emit x s).rng = s.rng := rfl
@[simp] theorem emit_ing (x : Sent) (s : State) : (emit x s).ing = s.ing := rfl
@[simp] theorem emit_kw (x : Sent) (s : State) : (emit x s).kw = s.kw := rfl
@[simp] theorem emit_svc (x : Sent) (s : State) : (emit x s).svc = s.svc := rfl
@[simp] theorem emit_bb (x : Sent) (s : State) : (emit x s).bb = s.bb := rfl
@[simp] theorem emit_pwr (x : Sent) (s : State) : (emit x s).pwr = s.pwr := rfl
@[simp] theorem feFlag_pending (n : Nat) (s : State) : (feFlag n s).pending = s.pending := rfl
@[simp] theorem feFlag_free (n : Nat) (s : State) : (feFlag n s).free = s.free := rfl
@[simp] theorem feFlag_now (n : Nat) (s : State) : (feFlag n s).now = s.now := rfl
@[simp] theorem feFlag_sent (n : Nat) (s : State) : (feFlag n s).sent = s.sent := rfl
@[simp] theorem feFlag_fuse (n : Nat) (s : State) : (feFlag n s).fuse = s.fuse := rfl
@[simp] theorem feFlag_flash (n : Nat) (s : State) : (feFlag n s).flash = s.flash := rfl
@[simp] theorem feFlag_boot (n : Nat) (s : State) : (feFlag n s).boot = s.boot := rfl
@[simp] theorem feFlag_queues (n : Nat) (s : State) : (feFlag n s).queues = s.queues := rfl
@[simp] theorem feFlag_cmds (n : Nat) (s : State) : (feFlag n s).cmds = s.cmds := rfl
@[simp] theorem feFlag_fences (n : Nat) (s : State) : (feFlag n s).fences = s.fences := rfl
@[simp] theorem feFlag_bindings (n : Nat) (s : State) : (feFlag n s).bindings = s.bindings := rfl
@[simp] theorem feFlag_mem (n : Nat) (s : State) : (feFlag n s).mem = s.mem := rfl
@[simp] theorem feFlag_host (n : Nat) (s : State) : (feFlag n s).host = s.host := rfl
@[simp] theorem feFlag_models (n : Nat) (s : State) : (feFlag n s).models = s.models := rfl
@[simp] theorem feFlag_eng (n : Nat) (s : State) : (feFlag n s).eng = s.eng := rfl
@[simp] theorem feFlag_emap (n : Nat) (s : State) : (feFlag n s).emap = s.emap := rfl
@[simp] theorem feFlag_arr (n : Nat) (s : State) : (feFlag n s).arr = s.arr := rfl
@[simp] theorem feFlag_anl (n : Nat) (s : State) : (feFlag n s).anl = s.anl := rfl
@[simp] theorem feFlag_det (n : Nat) (s : State) : (feFlag n s).det = s.det := rfl
@[simp] theorem feFlag_icu (n : Nat) (s : State) : (feFlag n s).icu = s.icu := rfl
@[simp] theorem feFlag_rng (n : Nat) (s : State) : (feFlag n s).rng = s.rng := rfl
@[simp] theorem feFlag_ing (n : Nat) (s : State) : (feFlag n s).ing = s.ing := rfl
@[simp] theorem feFlag_kw (n : Nat) (s : State) : (feFlag n s).kw = s.kw := rfl
@[simp] theorem feFlag_svc (n : Nat) (s : State) : (feFlag n s).svc = s.svc := rfl
@[simp] theorem feFlag_bb (n : Nat) (s : State) : (feFlag n s).bb = s.bb := rfl
@[simp] theorem feFlag_pwr (n : Nat) (s : State) : (feFlag n s).pwr = s.pwr := rfl
@[simp] theorem anlFlag_pending (n : Nat) (s : State) : (anlFlag n s).pending = s.pending := rfl
@[simp] theorem anlFlag_free (n : Nat) (s : State) : (anlFlag n s).free = s.free := rfl
@[simp] theorem anlFlag_now (n : Nat) (s : State) : (anlFlag n s).now = s.now := rfl
@[simp] theorem anlFlag_sent (n : Nat) (s : State) : (anlFlag n s).sent = s.sent := rfl
@[simp] theorem anlFlag_fuse (n : Nat) (s : State) : (anlFlag n s).fuse = s.fuse := rfl
@[simp] theorem anlFlag_flash (n : Nat) (s : State) : (anlFlag n s).flash = s.flash := rfl
@[simp] theorem anlFlag_boot (n : Nat) (s : State) : (anlFlag n s).boot = s.boot := rfl
@[simp] theorem anlFlag_fe (n : Nat) (s : State) : (anlFlag n s).fe = s.fe := rfl
@[simp] theorem anlFlag_queues (n : Nat) (s : State) : (anlFlag n s).queues = s.queues := rfl
@[simp] theorem anlFlag_cmds (n : Nat) (s : State) : (anlFlag n s).cmds = s.cmds := rfl
@[simp] theorem anlFlag_fences (n : Nat) (s : State) : (anlFlag n s).fences = s.fences := rfl
@[simp] theorem anlFlag_bindings (n : Nat) (s : State) : (anlFlag n s).bindings = s.bindings := rfl
@[simp] theorem anlFlag_mem (n : Nat) (s : State) : (anlFlag n s).mem = s.mem := rfl
@[simp] theorem anlFlag_host (n : Nat) (s : State) : (anlFlag n s).host = s.host := rfl
@[simp] theorem anlFlag_models (n : Nat) (s : State) : (anlFlag n s).models = s.models := rfl
@[simp] theorem anlFlag_eng (n : Nat) (s : State) : (anlFlag n s).eng = s.eng := rfl
@[simp] theorem anlFlag_emap (n : Nat) (s : State) : (anlFlag n s).emap = s.emap := rfl
@[simp] theorem anlFlag_arr (n : Nat) (s : State) : (anlFlag n s).arr = s.arr := rfl
@[simp] theorem anlFlag_det (n : Nat) (s : State) : (anlFlag n s).det = s.det := rfl
@[simp] theorem anlFlag_icu (n : Nat) (s : State) : (anlFlag n s).icu = s.icu := rfl
@[simp] theorem anlFlag_rng (n : Nat) (s : State) : (anlFlag n s).rng = s.rng := rfl
@[simp] theorem anlFlag_ing (n : Nat) (s : State) : (anlFlag n s).ing = s.ing := rfl
@[simp] theorem anlFlag_kw (n : Nat) (s : State) : (anlFlag n s).kw = s.kw := rfl
@[simp] theorem anlFlag_svc (n : Nat) (s : State) : (anlFlag n s).svc = s.svc := rfl
@[simp] theorem anlFlag_bb (n : Nat) (s : State) : (anlFlag n s).bb = s.bb := rfl
@[simp] theorem anlFlag_pwr (n : Nat) (s : State) : (anlFlag n s).pwr = s.pwr := rfl
@[simp] theorem arrFlag_pending (n : Nat) (s : State) : (arrFlag n s).pending = s.pending := rfl
@[simp] theorem arrFlag_free (n : Nat) (s : State) : (arrFlag n s).free = s.free := rfl
@[simp] theorem arrFlag_now (n : Nat) (s : State) : (arrFlag n s).now = s.now := rfl
@[simp] theorem arrFlag_sent (n : Nat) (s : State) : (arrFlag n s).sent = s.sent := rfl
@[simp] theorem arrFlag_fuse (n : Nat) (s : State) : (arrFlag n s).fuse = s.fuse := rfl
@[simp] theorem arrFlag_flash (n : Nat) (s : State) : (arrFlag n s).flash = s.flash := rfl
@[simp] theorem arrFlag_boot (n : Nat) (s : State) : (arrFlag n s).boot = s.boot := rfl
@[simp] theorem arrFlag_fe (n : Nat) (s : State) : (arrFlag n s).fe = s.fe := rfl
@[simp] theorem arrFlag_queues (n : Nat) (s : State) : (arrFlag n s).queues = s.queues := rfl
@[simp] theorem arrFlag_cmds (n : Nat) (s : State) : (arrFlag n s).cmds = s.cmds := rfl
@[simp] theorem arrFlag_fences (n : Nat) (s : State) : (arrFlag n s).fences = s.fences := rfl
@[simp] theorem arrFlag_bindings (n : Nat) (s : State) : (arrFlag n s).bindings = s.bindings := rfl
@[simp] theorem arrFlag_mem (n : Nat) (s : State) : (arrFlag n s).mem = s.mem := rfl
@[simp] theorem arrFlag_host (n : Nat) (s : State) : (arrFlag n s).host = s.host := rfl
@[simp] theorem arrFlag_models (n : Nat) (s : State) : (arrFlag n s).models = s.models := rfl
@[simp] theorem arrFlag_eng (n : Nat) (s : State) : (arrFlag n s).eng = s.eng := rfl
@[simp] theorem arrFlag_emap (n : Nat) (s : State) : (arrFlag n s).emap = s.emap := rfl
@[simp] theorem arrFlag_anl (n : Nat) (s : State) : (arrFlag n s).anl = s.anl := rfl
@[simp] theorem arrFlag_det (n : Nat) (s : State) : (arrFlag n s).det = s.det := rfl
@[simp] theorem arrFlag_icu (n : Nat) (s : State) : (arrFlag n s).icu = s.icu := rfl
@[simp] theorem arrFlag_rng (n : Nat) (s : State) : (arrFlag n s).rng = s.rng := rfl
@[simp] theorem arrFlag_ing (n : Nat) (s : State) : (arrFlag n s).ing = s.ing := rfl
@[simp] theorem arrFlag_kw (n : Nat) (s : State) : (arrFlag n s).kw = s.kw := rfl
@[simp] theorem arrFlag_svc (n : Nat) (s : State) : (arrFlag n s).svc = s.svc := rfl
@[simp] theorem arrFlag_bb (n : Nat) (s : State) : (arrFlag n s).bb = s.bb := rfl
@[simp] theorem arrFlag_pwr (n : Nat) (s : State) : (arrFlag n s).pwr = s.pwr := rfl
@[simp] theorem memFlag_pending (n : Nat) (s : State) : (memFlag n s).pending = s.pending := rfl
@[simp] theorem memFlag_free (n : Nat) (s : State) : (memFlag n s).free = s.free := rfl
@[simp] theorem memFlag_now (n : Nat) (s : State) : (memFlag n s).now = s.now := rfl
@[simp] theorem memFlag_sent (n : Nat) (s : State) : (memFlag n s).sent = s.sent := rfl
@[simp] theorem memFlag_fuse (n : Nat) (s : State) : (memFlag n s).fuse = s.fuse := rfl
@[simp] theorem memFlag_flash (n : Nat) (s : State) : (memFlag n s).flash = s.flash := rfl
@[simp] theorem memFlag_boot (n : Nat) (s : State) : (memFlag n s).boot = s.boot := rfl
@[simp] theorem memFlag_fe (n : Nat) (s : State) : (memFlag n s).fe = s.fe := rfl
@[simp] theorem memFlag_queues (n : Nat) (s : State) : (memFlag n s).queues = s.queues := rfl
@[simp] theorem memFlag_cmds (n : Nat) (s : State) : (memFlag n s).cmds = s.cmds := rfl
@[simp] theorem memFlag_fences (n : Nat) (s : State) : (memFlag n s).fences = s.fences := rfl
@[simp] theorem memFlag_bindings (n : Nat) (s : State) : (memFlag n s).bindings = s.bindings := rfl
@[simp] theorem memFlag_host (n : Nat) (s : State) : (memFlag n s).host = s.host := rfl
@[simp] theorem memFlag_models (n : Nat) (s : State) : (memFlag n s).models = s.models := rfl
@[simp] theorem memFlag_eng (n : Nat) (s : State) : (memFlag n s).eng = s.eng := rfl
@[simp] theorem memFlag_emap (n : Nat) (s : State) : (memFlag n s).emap = s.emap := rfl
@[simp] theorem memFlag_arr (n : Nat) (s : State) : (memFlag n s).arr = s.arr := rfl
@[simp] theorem memFlag_anl (n : Nat) (s : State) : (memFlag n s).anl = s.anl := rfl
@[simp] theorem memFlag_det (n : Nat) (s : State) : (memFlag n s).det = s.det := rfl
@[simp] theorem memFlag_icu (n : Nat) (s : State) : (memFlag n s).icu = s.icu := rfl
@[simp] theorem memFlag_rng (n : Nat) (s : State) : (memFlag n s).rng = s.rng := rfl
@[simp] theorem memFlag_ing (n : Nat) (s : State) : (memFlag n s).ing = s.ing := rfl
@[simp] theorem memFlag_kw (n : Nat) (s : State) : (memFlag n s).kw = s.kw := rfl
@[simp] theorem memFlag_svc (n : Nat) (s : State) : (memFlag n s).svc = s.svc := rfl
@[simp] theorem memFlag_bb (n : Nat) (s : State) : (memFlag n s).bb = s.bb := rfl
@[simp] theorem memFlag_pwr (n : Nat) (s : State) : (memFlag n s).pwr = s.pwr := rfl
@[simp] theorem detFlag_pending (n : Nat) (s : State) : (detFlag n s).pending = s.pending := rfl
@[simp] theorem detFlag_free (n : Nat) (s : State) : (detFlag n s).free = s.free := rfl
@[simp] theorem detFlag_now (n : Nat) (s : State) : (detFlag n s).now = s.now := rfl
@[simp] theorem detFlag_sent (n : Nat) (s : State) : (detFlag n s).sent = s.sent := rfl
@[simp] theorem detFlag_fuse (n : Nat) (s : State) : (detFlag n s).fuse = s.fuse := rfl
@[simp] theorem detFlag_flash (n : Nat) (s : State) : (detFlag n s).flash = s.flash := rfl
@[simp] theorem detFlag_boot (n : Nat) (s : State) : (detFlag n s).boot = s.boot := rfl
@[simp] theorem detFlag_fe (n : Nat) (s : State) : (detFlag n s).fe = s.fe := rfl
@[simp] theorem detFlag_queues (n : Nat) (s : State) : (detFlag n s).queues = s.queues := rfl
@[simp] theorem detFlag_cmds (n : Nat) (s : State) : (detFlag n s).cmds = s.cmds := rfl
@[simp] theorem detFlag_fences (n : Nat) (s : State) : (detFlag n s).fences = s.fences := rfl
@[simp] theorem detFlag_bindings (n : Nat) (s : State) : (detFlag n s).bindings = s.bindings := rfl
@[simp] theorem detFlag_mem (n : Nat) (s : State) : (detFlag n s).mem = s.mem := rfl
@[simp] theorem detFlag_host (n : Nat) (s : State) : (detFlag n s).host = s.host := rfl
@[simp] theorem detFlag_models (n : Nat) (s : State) : (detFlag n s).models = s.models := rfl
@[simp] theorem detFlag_eng (n : Nat) (s : State) : (detFlag n s).eng = s.eng := rfl
@[simp] theorem detFlag_emap (n : Nat) (s : State) : (detFlag n s).emap = s.emap := rfl
@[simp] theorem detFlag_arr (n : Nat) (s : State) : (detFlag n s).arr = s.arr := rfl
@[simp] theorem detFlag_anl (n : Nat) (s : State) : (detFlag n s).anl = s.anl := rfl
@[simp] theorem detFlag_icu (n : Nat) (s : State) : (detFlag n s).icu = s.icu := rfl
@[simp] theorem detFlag_rng (n : Nat) (s : State) : (detFlag n s).rng = s.rng := rfl
@[simp] theorem detFlag_ing (n : Nat) (s : State) : (detFlag n s).ing = s.ing := rfl
@[simp] theorem detFlag_kw (n : Nat) (s : State) : (detFlag n s).kw = s.kw := rfl
@[simp] theorem detFlag_svc (n : Nat) (s : State) : (detFlag n s).svc = s.svc := rfl
@[simp] theorem detFlag_bb (n : Nat) (s : State) : (detFlag n s).bb = s.bb := rfl
@[simp] theorem detFlag_pwr (n : Nat) (s : State) : (detFlag n s).pwr = s.pwr := rfl
@[simp] theorem rngFlag_pending (n : Nat) (s : State) : (rngFlag n s).pending = s.pending := rfl
@[simp] theorem rngFlag_free (n : Nat) (s : State) : (rngFlag n s).free = s.free := rfl
@[simp] theorem rngFlag_now (n : Nat) (s : State) : (rngFlag n s).now = s.now := rfl
@[simp] theorem rngFlag_sent (n : Nat) (s : State) : (rngFlag n s).sent = s.sent := rfl
@[simp] theorem rngFlag_fuse (n : Nat) (s : State) : (rngFlag n s).fuse = s.fuse := rfl
@[simp] theorem rngFlag_flash (n : Nat) (s : State) : (rngFlag n s).flash = s.flash := rfl
@[simp] theorem rngFlag_boot (n : Nat) (s : State) : (rngFlag n s).boot = s.boot := rfl
@[simp] theorem rngFlag_fe (n : Nat) (s : State) : (rngFlag n s).fe = s.fe := rfl
@[simp] theorem rngFlag_queues (n : Nat) (s : State) : (rngFlag n s).queues = s.queues := rfl
@[simp] theorem rngFlag_cmds (n : Nat) (s : State) : (rngFlag n s).cmds = s.cmds := rfl
@[simp] theorem rngFlag_fences (n : Nat) (s : State) : (rngFlag n s).fences = s.fences := rfl
@[simp] theorem rngFlag_bindings (n : Nat) (s : State) : (rngFlag n s).bindings = s.bindings := rfl
@[simp] theorem rngFlag_mem (n : Nat) (s : State) : (rngFlag n s).mem = s.mem := rfl
@[simp] theorem rngFlag_host (n : Nat) (s : State) : (rngFlag n s).host = s.host := rfl
@[simp] theorem rngFlag_models (n : Nat) (s : State) : (rngFlag n s).models = s.models := rfl
@[simp] theorem rngFlag_eng (n : Nat) (s : State) : (rngFlag n s).eng = s.eng := rfl
@[simp] theorem rngFlag_emap (n : Nat) (s : State) : (rngFlag n s).emap = s.emap := rfl
@[simp] theorem rngFlag_arr (n : Nat) (s : State) : (rngFlag n s).arr = s.arr := rfl
@[simp] theorem rngFlag_anl (n : Nat) (s : State) : (rngFlag n s).anl = s.anl := rfl
@[simp] theorem rngFlag_det (n : Nat) (s : State) : (rngFlag n s).det = s.det := rfl
@[simp] theorem rngFlag_icu (n : Nat) (s : State) : (rngFlag n s).icu = s.icu := rfl
@[simp] theorem rngFlag_ing (n : Nat) (s : State) : (rngFlag n s).ing = s.ing := rfl
@[simp] theorem rngFlag_kw (n : Nat) (s : State) : (rngFlag n s).kw = s.kw := rfl
@[simp] theorem rngFlag_svc (n : Nat) (s : State) : (rngFlag n s).svc = s.svc := rfl
@[simp] theorem rngFlag_bb (n : Nat) (s : State) : (rngFlag n s).bb = s.bb := rfl
@[simp] theorem rngFlag_pwr (n : Nat) (s : State) : (rngFlag n s).pwr = s.pwr := rfl
@[simp] theorem ingFlag_pending (n : Nat) (s : State) : (ingFlag n s).pending = s.pending := rfl
@[simp] theorem ingFlag_free (n : Nat) (s : State) : (ingFlag n s).free = s.free := rfl
@[simp] theorem ingFlag_now (n : Nat) (s : State) : (ingFlag n s).now = s.now := rfl
@[simp] theorem ingFlag_sent (n : Nat) (s : State) : (ingFlag n s).sent = s.sent := rfl
@[simp] theorem ingFlag_fuse (n : Nat) (s : State) : (ingFlag n s).fuse = s.fuse := rfl
@[simp] theorem ingFlag_flash (n : Nat) (s : State) : (ingFlag n s).flash = s.flash := rfl
@[simp] theorem ingFlag_boot (n : Nat) (s : State) : (ingFlag n s).boot = s.boot := rfl
@[simp] theorem ingFlag_fe (n : Nat) (s : State) : (ingFlag n s).fe = s.fe := rfl
@[simp] theorem ingFlag_queues (n : Nat) (s : State) : (ingFlag n s).queues = s.queues := rfl
@[simp] theorem ingFlag_cmds (n : Nat) (s : State) : (ingFlag n s).cmds = s.cmds := rfl
@[simp] theorem ingFlag_fences (n : Nat) (s : State) : (ingFlag n s).fences = s.fences := rfl
@[simp] theorem ingFlag_bindings (n : Nat) (s : State) : (ingFlag n s).bindings = s.bindings := rfl
@[simp] theorem ingFlag_mem (n : Nat) (s : State) : (ingFlag n s).mem = s.mem := rfl
@[simp] theorem ingFlag_host (n : Nat) (s : State) : (ingFlag n s).host = s.host := rfl
@[simp] theorem ingFlag_models (n : Nat) (s : State) : (ingFlag n s).models = s.models := rfl
@[simp] theorem ingFlag_eng (n : Nat) (s : State) : (ingFlag n s).eng = s.eng := rfl
@[simp] theorem ingFlag_emap (n : Nat) (s : State) : (ingFlag n s).emap = s.emap := rfl
@[simp] theorem ingFlag_arr (n : Nat) (s : State) : (ingFlag n s).arr = s.arr := rfl
@[simp] theorem ingFlag_anl (n : Nat) (s : State) : (ingFlag n s).anl = s.anl := rfl
@[simp] theorem ingFlag_det (n : Nat) (s : State) : (ingFlag n s).det = s.det := rfl
@[simp] theorem ingFlag_icu (n : Nat) (s : State) : (ingFlag n s).icu = s.icu := rfl
@[simp] theorem ingFlag_rng (n : Nat) (s : State) : (ingFlag n s).rng = s.rng := rfl
@[simp] theorem ingFlag_kw (n : Nat) (s : State) : (ingFlag n s).kw = s.kw := rfl
@[simp] theorem ingFlag_svc (n : Nat) (s : State) : (ingFlag n s).svc = s.svc := rfl
@[simp] theorem ingFlag_bb (n : Nat) (s : State) : (ingFlag n s).bb = s.bb := rfl
@[simp] theorem ingFlag_pwr (n : Nat) (s : State) : (ingFlag n s).pwr = s.pwr := rfl
@[simp] theorem kwFlag_pending (n : Nat) (s : State) : (kwFlag n s).pending = s.pending := rfl
@[simp] theorem kwFlag_free (n : Nat) (s : State) : (kwFlag n s).free = s.free := rfl
@[simp] theorem kwFlag_now (n : Nat) (s : State) : (kwFlag n s).now = s.now := rfl
@[simp] theorem kwFlag_sent (n : Nat) (s : State) : (kwFlag n s).sent = s.sent := rfl
@[simp] theorem kwFlag_fuse (n : Nat) (s : State) : (kwFlag n s).fuse = s.fuse := rfl
@[simp] theorem kwFlag_flash (n : Nat) (s : State) : (kwFlag n s).flash = s.flash := rfl
@[simp] theorem kwFlag_boot (n : Nat) (s : State) : (kwFlag n s).boot = s.boot := rfl
@[simp] theorem kwFlag_fe (n : Nat) (s : State) : (kwFlag n s).fe = s.fe := rfl
@[simp] theorem kwFlag_queues (n : Nat) (s : State) : (kwFlag n s).queues = s.queues := rfl
@[simp] theorem kwFlag_cmds (n : Nat) (s : State) : (kwFlag n s).cmds = s.cmds := rfl
@[simp] theorem kwFlag_fences (n : Nat) (s : State) : (kwFlag n s).fences = s.fences := rfl
@[simp] theorem kwFlag_bindings (n : Nat) (s : State) : (kwFlag n s).bindings = s.bindings := rfl
@[simp] theorem kwFlag_mem (n : Nat) (s : State) : (kwFlag n s).mem = s.mem := rfl
@[simp] theorem kwFlag_host (n : Nat) (s : State) : (kwFlag n s).host = s.host := rfl
@[simp] theorem kwFlag_models (n : Nat) (s : State) : (kwFlag n s).models = s.models := rfl
@[simp] theorem kwFlag_eng (n : Nat) (s : State) : (kwFlag n s).eng = s.eng := rfl
@[simp] theorem kwFlag_emap (n : Nat) (s : State) : (kwFlag n s).emap = s.emap := rfl
@[simp] theorem kwFlag_arr (n : Nat) (s : State) : (kwFlag n s).arr = s.arr := rfl
@[simp] theorem kwFlag_anl (n : Nat) (s : State) : (kwFlag n s).anl = s.anl := rfl
@[simp] theorem kwFlag_det (n : Nat) (s : State) : (kwFlag n s).det = s.det := rfl
@[simp] theorem kwFlag_icu (n : Nat) (s : State) : (kwFlag n s).icu = s.icu := rfl
@[simp] theorem kwFlag_rng (n : Nat) (s : State) : (kwFlag n s).rng = s.rng := rfl
@[simp] theorem kwFlag_ing (n : Nat) (s : State) : (kwFlag n s).ing = s.ing := rfl
@[simp] theorem kwFlag_svc (n : Nat) (s : State) : (kwFlag n s).svc = s.svc := rfl
@[simp] theorem kwFlag_bb (n : Nat) (s : State) : (kwFlag n s).bb = s.bb := rfl
@[simp] theorem kwFlag_pwr (n : Nat) (s : State) : (kwFlag n s).pwr = s.pwr := rfl
@[simp] theorem svcFlag_pending (n : Nat) (s : State) : (svcFlag n s).pending = s.pending := rfl
@[simp] theorem svcFlag_free (n : Nat) (s : State) : (svcFlag n s).free = s.free := rfl
@[simp] theorem svcFlag_now (n : Nat) (s : State) : (svcFlag n s).now = s.now := rfl
@[simp] theorem svcFlag_sent (n : Nat) (s : State) : (svcFlag n s).sent = s.sent := rfl
@[simp] theorem svcFlag_fuse (n : Nat) (s : State) : (svcFlag n s).fuse = s.fuse := rfl
@[simp] theorem svcFlag_flash (n : Nat) (s : State) : (svcFlag n s).flash = s.flash := rfl
@[simp] theorem svcFlag_boot (n : Nat) (s : State) : (svcFlag n s).boot = s.boot := rfl
@[simp] theorem svcFlag_fe (n : Nat) (s : State) : (svcFlag n s).fe = s.fe := rfl
@[simp] theorem svcFlag_queues (n : Nat) (s : State) : (svcFlag n s).queues = s.queues := rfl
@[simp] theorem svcFlag_cmds (n : Nat) (s : State) : (svcFlag n s).cmds = s.cmds := rfl
@[simp] theorem svcFlag_fences (n : Nat) (s : State) : (svcFlag n s).fences = s.fences := rfl
@[simp] theorem svcFlag_bindings (n : Nat) (s : State) : (svcFlag n s).bindings = s.bindings := rfl
@[simp] theorem svcFlag_mem (n : Nat) (s : State) : (svcFlag n s).mem = s.mem := rfl
@[simp] theorem svcFlag_host (n : Nat) (s : State) : (svcFlag n s).host = s.host := rfl
@[simp] theorem svcFlag_models (n : Nat) (s : State) : (svcFlag n s).models = s.models := rfl
@[simp] theorem svcFlag_eng (n : Nat) (s : State) : (svcFlag n s).eng = s.eng := rfl
@[simp] theorem svcFlag_emap (n : Nat) (s : State) : (svcFlag n s).emap = s.emap := rfl
@[simp] theorem svcFlag_arr (n : Nat) (s : State) : (svcFlag n s).arr = s.arr := rfl
@[simp] theorem svcFlag_anl (n : Nat) (s : State) : (svcFlag n s).anl = s.anl := rfl
@[simp] theorem svcFlag_det (n : Nat) (s : State) : (svcFlag n s).det = s.det := rfl
@[simp] theorem svcFlag_icu (n : Nat) (s : State) : (svcFlag n s).icu = s.icu := rfl
@[simp] theorem svcFlag_rng (n : Nat) (s : State) : (svcFlag n s).rng = s.rng := rfl
@[simp] theorem svcFlag_ing (n : Nat) (s : State) : (svcFlag n s).ing = s.ing := rfl
@[simp] theorem svcFlag_kw (n : Nat) (s : State) : (svcFlag n s).kw = s.kw := rfl
@[simp] theorem svcFlag_bb (n : Nat) (s : State) : (svcFlag n s).bb = s.bb := rfl
@[simp] theorem svcFlag_pwr (n : Nat) (s : State) : (svcFlag n s).pwr = s.pwr := rfl
@[simp] theorem fwFlag_pending (n : Nat) (s : State) : (fwFlag n s).pending = s.pending := rfl
@[simp] theorem fwFlag_free (n : Nat) (s : State) : (fwFlag n s).free = s.free := rfl
@[simp] theorem fwFlag_now (n : Nat) (s : State) : (fwFlag n s).now = s.now := rfl
@[simp] theorem fwFlag_sent (n : Nat) (s : State) : (fwFlag n s).sent = s.sent := rfl
@[simp] theorem fwFlag_fuse (n : Nat) (s : State) : (fwFlag n s).fuse = s.fuse := rfl
@[simp] theorem fwFlag_flash (n : Nat) (s : State) : (fwFlag n s).flash = s.flash := rfl
@[simp] theorem fwFlag_fe (n : Nat) (s : State) : (fwFlag n s).fe = s.fe := rfl
@[simp] theorem fwFlag_queues (n : Nat) (s : State) : (fwFlag n s).queues = s.queues := rfl
@[simp] theorem fwFlag_cmds (n : Nat) (s : State) : (fwFlag n s).cmds = s.cmds := rfl
@[simp] theorem fwFlag_fences (n : Nat) (s : State) : (fwFlag n s).fences = s.fences := rfl
@[simp] theorem fwFlag_bindings (n : Nat) (s : State) : (fwFlag n s).bindings = s.bindings := rfl
@[simp] theorem fwFlag_mem (n : Nat) (s : State) : (fwFlag n s).mem = s.mem := rfl
@[simp] theorem fwFlag_host (n : Nat) (s : State) : (fwFlag n s).host = s.host := rfl
@[simp] theorem fwFlag_models (n : Nat) (s : State) : (fwFlag n s).models = s.models := rfl
@[simp] theorem fwFlag_eng (n : Nat) (s : State) : (fwFlag n s).eng = s.eng := rfl
@[simp] theorem fwFlag_emap (n : Nat) (s : State) : (fwFlag n s).emap = s.emap := rfl
@[simp] theorem fwFlag_arr (n : Nat) (s : State) : (fwFlag n s).arr = s.arr := rfl
@[simp] theorem fwFlag_anl (n : Nat) (s : State) : (fwFlag n s).anl = s.anl := rfl
@[simp] theorem fwFlag_det (n : Nat) (s : State) : (fwFlag n s).det = s.det := rfl
@[simp] theorem fwFlag_icu (n : Nat) (s : State) : (fwFlag n s).icu = s.icu := rfl
@[simp] theorem fwFlag_rng (n : Nat) (s : State) : (fwFlag n s).rng = s.rng := rfl
@[simp] theorem fwFlag_ing (n : Nat) (s : State) : (fwFlag n s).ing = s.ing := rfl
@[simp] theorem fwFlag_kw (n : Nat) (s : State) : (fwFlag n s).kw = s.kw := rfl
@[simp] theorem fwFlag_svc (n : Nat) (s : State) : (fwFlag n s).svc = s.svc := rfl
@[simp] theorem fwFlag_bb (n : Nat) (s : State) : (fwFlag n s).bb = s.bb := rfl
@[simp] theorem fwFlag_pwr (n : Nat) (s : State) : (fwFlag n s).pwr = s.pwr := rfl
@[simp] theorem bbFlag_pending (n : Nat) (s : State) : (bbFlag n s).pending = s.pending := rfl
@[simp] theorem bbFlag_free (n : Nat) (s : State) : (bbFlag n s).free = s.free := rfl
@[simp] theorem bbFlag_now (n : Nat) (s : State) : (bbFlag n s).now = s.now := rfl
@[simp] theorem bbFlag_sent (n : Nat) (s : State) : (bbFlag n s).sent = s.sent := rfl
@[simp] theorem bbFlag_fuse (n : Nat) (s : State) : (bbFlag n s).fuse = s.fuse := rfl
@[simp] theorem bbFlag_flash (n : Nat) (s : State) : (bbFlag n s).flash = s.flash := rfl
@[simp] theorem bbFlag_boot (n : Nat) (s : State) : (bbFlag n s).boot = s.boot := rfl
@[simp] theorem bbFlag_fe (n : Nat) (s : State) : (bbFlag n s).fe = s.fe := rfl
@[simp] theorem bbFlag_queues (n : Nat) (s : State) : (bbFlag n s).queues = s.queues := rfl
@[simp] theorem bbFlag_cmds (n : Nat) (s : State) : (bbFlag n s).cmds = s.cmds := rfl
@[simp] theorem bbFlag_fences (n : Nat) (s : State) : (bbFlag n s).fences = s.fences := rfl
@[simp] theorem bbFlag_bindings (n : Nat) (s : State) : (bbFlag n s).bindings = s.bindings := rfl
@[simp] theorem bbFlag_mem (n : Nat) (s : State) : (bbFlag n s).mem = s.mem := rfl
@[simp] theorem bbFlag_host (n : Nat) (s : State) : (bbFlag n s).host = s.host := rfl
@[simp] theorem bbFlag_models (n : Nat) (s : State) : (bbFlag n s).models = s.models := rfl
@[simp] theorem bbFlag_eng (n : Nat) (s : State) : (bbFlag n s).eng = s.eng := rfl
@[simp] theorem bbFlag_emap (n : Nat) (s : State) : (bbFlag n s).emap = s.emap := rfl
@[simp] theorem bbFlag_arr (n : Nat) (s : State) : (bbFlag n s).arr = s.arr := rfl
@[simp] theorem bbFlag_anl (n : Nat) (s : State) : (bbFlag n s).anl = s.anl := rfl
@[simp] theorem bbFlag_det (n : Nat) (s : State) : (bbFlag n s).det = s.det := rfl
@[simp] theorem bbFlag_icu (n : Nat) (s : State) : (bbFlag n s).icu = s.icu := rfl
@[simp] theorem bbFlag_rng (n : Nat) (s : State) : (bbFlag n s).rng = s.rng := rfl
@[simp] theorem bbFlag_ing (n : Nat) (s : State) : (bbFlag n s).ing = s.ing := rfl
@[simp] theorem bbFlag_kw (n : Nat) (s : State) : (bbFlag n s).kw = s.kw := rfl
@[simp] theorem bbFlag_svc (n : Nat) (s : State) : (bbFlag n s).svc = s.svc := rfl
@[simp] theorem bbFlag_pwr (n : Nat) (s : State) : (bbFlag n s).pwr = s.pwr := rfl
@[simp] theorem pwrFlag_pending (n : Nat) (s : State) : (pwrFlag n s).pending = s.pending := rfl
@[simp] theorem pwrFlag_free (n : Nat) (s : State) : (pwrFlag n s).free = s.free := rfl
@[simp] theorem pwrFlag_now (n : Nat) (s : State) : (pwrFlag n s).now = s.now := rfl
@[simp] theorem pwrFlag_sent (n : Nat) (s : State) : (pwrFlag n s).sent = s.sent := rfl
@[simp] theorem pwrFlag_fuse (n : Nat) (s : State) : (pwrFlag n s).fuse = s.fuse := rfl
@[simp] theorem pwrFlag_flash (n : Nat) (s : State) : (pwrFlag n s).flash = s.flash := rfl
@[simp] theorem pwrFlag_boot (n : Nat) (s : State) : (pwrFlag n s).boot = s.boot := rfl
@[simp] theorem pwrFlag_fe (n : Nat) (s : State) : (pwrFlag n s).fe = s.fe := rfl
@[simp] theorem pwrFlag_queues (n : Nat) (s : State) : (pwrFlag n s).queues = s.queues := rfl
@[simp] theorem pwrFlag_cmds (n : Nat) (s : State) : (pwrFlag n s).cmds = s.cmds := rfl
@[simp] theorem pwrFlag_fences (n : Nat) (s : State) : (pwrFlag n s).fences = s.fences := rfl
@[simp] theorem pwrFlag_bindings (n : Nat) (s : State) : (pwrFlag n s).bindings = s.bindings := rfl
@[simp] theorem pwrFlag_mem (n : Nat) (s : State) : (pwrFlag n s).mem = s.mem := rfl
@[simp] theorem pwrFlag_host (n : Nat) (s : State) : (pwrFlag n s).host = s.host := rfl
@[simp] theorem pwrFlag_models (n : Nat) (s : State) : (pwrFlag n s).models = s.models := rfl
@[simp] theorem pwrFlag_eng (n : Nat) (s : State) : (pwrFlag n s).eng = s.eng := rfl
@[simp] theorem pwrFlag_emap (n : Nat) (s : State) : (pwrFlag n s).emap = s.emap := rfl
@[simp] theorem pwrFlag_arr (n : Nat) (s : State) : (pwrFlag n s).arr = s.arr := rfl
@[simp] theorem pwrFlag_anl (n : Nat) (s : State) : (pwrFlag n s).anl = s.anl := rfl
@[simp] theorem pwrFlag_det (n : Nat) (s : State) : (pwrFlag n s).det = s.det := rfl
@[simp] theorem pwrFlag_icu (n : Nat) (s : State) : (pwrFlag n s).icu = s.icu := rfl
@[simp] theorem pwrFlag_rng (n : Nat) (s : State) : (pwrFlag n s).rng = s.rng := rfl
@[simp] theorem pwrFlag_ing (n : Nat) (s : State) : (pwrFlag n s).ing = s.ing := rfl
@[simp] theorem pwrFlag_kw (n : Nat) (s : State) : (pwrFlag n s).kw = s.kw := rfl
@[simp] theorem pwrFlag_svc (n : Nat) (s : State) : (pwrFlag n s).svc = s.svc := rfl
@[simp] theorem pwrFlag_bb (n : Nat) (s : State) : (pwrFlag n s).bb = s.bb := rfl
@[simp] theorem icuFlag_pending (n : Nat) (s : State) : (icuFlag n s).pending = s.pending := rfl
@[simp] theorem icuFlag_free (n : Nat) (s : State) : (icuFlag n s).free = s.free := rfl
@[simp] theorem icuFlag_now (n : Nat) (s : State) : (icuFlag n s).now = s.now := rfl
@[simp] theorem icuFlag_sent (n : Nat) (s : State) : (icuFlag n s).sent = s.sent := rfl
@[simp] theorem icuFlag_fuse (n : Nat) (s : State) : (icuFlag n s).fuse = s.fuse := rfl
@[simp] theorem icuFlag_flash (n : Nat) (s : State) : (icuFlag n s).flash = s.flash := rfl
@[simp] theorem icuFlag_boot (n : Nat) (s : State) : (icuFlag n s).boot = s.boot := rfl
@[simp] theorem icuFlag_fe (n : Nat) (s : State) : (icuFlag n s).fe = s.fe := rfl
@[simp] theorem icuFlag_queues (n : Nat) (s : State) : (icuFlag n s).queues = s.queues := rfl
@[simp] theorem icuFlag_cmds (n : Nat) (s : State) : (icuFlag n s).cmds = s.cmds := rfl
@[simp] theorem icuFlag_fences (n : Nat) (s : State) : (icuFlag n s).fences = s.fences := rfl
@[simp] theorem icuFlag_bindings (n : Nat) (s : State) : (icuFlag n s).bindings = s.bindings := rfl
@[simp] theorem icuFlag_mem (n : Nat) (s : State) : (icuFlag n s).mem = s.mem := rfl
@[simp] theorem icuFlag_host (n : Nat) (s : State) : (icuFlag n s).host = s.host := rfl
@[simp] theorem icuFlag_models (n : Nat) (s : State) : (icuFlag n s).models = s.models := rfl
@[simp] theorem icuFlag_eng (n : Nat) (s : State) : (icuFlag n s).eng = s.eng := rfl
@[simp] theorem icuFlag_emap (n : Nat) (s : State) : (icuFlag n s).emap = s.emap := rfl
@[simp] theorem icuFlag_arr (n : Nat) (s : State) : (icuFlag n s).arr = s.arr := rfl
@[simp] theorem icuFlag_anl (n : Nat) (s : State) : (icuFlag n s).anl = s.anl := rfl
@[simp] theorem icuFlag_det (n : Nat) (s : State) : (icuFlag n s).det = s.det := rfl
@[simp] theorem icuFlag_rng (n : Nat) (s : State) : (icuFlag n s).rng = s.rng := rfl
@[simp] theorem icuFlag_ing (n : Nat) (s : State) : (icuFlag n s).ing = s.ing := rfl
@[simp] theorem icuFlag_kw (n : Nat) (s : State) : (icuFlag n s).kw = s.kw := rfl
@[simp] theorem icuFlag_svc (n : Nat) (s : State) : (icuFlag n s).svc = s.svc := rfl
@[simp] theorem icuFlag_bb (n : Nat) (s : State) : (icuFlag n s).bb = s.bb := rfl
@[simp] theorem icuFlag_pwr (n : Nat) (s : State) : (icuFlag n s).pwr = s.pwr := rfl
@[simp] theorem icuSend_pending (src : Nat) (s : State) : (icuSend src s).pending = s.pending := rfl
@[simp] theorem icuSend_free (src : Nat) (s : State) : (icuSend src s).free = s.free := rfl
@[simp] theorem icuSend_now (src : Nat) (s : State) : (icuSend src s).now = s.now := rfl
@[simp] theorem icuSend_sent (src : Nat) (s : State) : (icuSend src s).sent = s.sent := rfl
@[simp] theorem icuSend_fuse (src : Nat) (s : State) : (icuSend src s).fuse = s.fuse := rfl
@[simp] theorem icuSend_flash (src : Nat) (s : State) : (icuSend src s).flash = s.flash := rfl
@[simp] theorem icuSend_boot (src : Nat) (s : State) : (icuSend src s).boot = s.boot := rfl
@[simp] theorem icuSend_fe (src : Nat) (s : State) : (icuSend src s).fe = s.fe := rfl
@[simp] theorem icuSend_queues (src : Nat) (s : State) : (icuSend src s).queues = s.queues := rfl
@[simp] theorem icuSend_cmds (src : Nat) (s : State) : (icuSend src s).cmds = s.cmds := rfl
@[simp] theorem icuSend_fences (src : Nat) (s : State) : (icuSend src s).fences = s.fences := rfl
@[simp] theorem icuSend_bindings (src : Nat) (s : State) : (icuSend src s).bindings = s.bindings := rfl
@[simp] theorem icuSend_mem (src : Nat) (s : State) : (icuSend src s).mem = s.mem := rfl
@[simp] theorem icuSend_host (src : Nat) (s : State) : (icuSend src s).host = s.host := rfl
@[simp] theorem icuSend_models (src : Nat) (s : State) : (icuSend src s).models = s.models := rfl
@[simp] theorem icuSend_eng (src : Nat) (s : State) : (icuSend src s).eng = s.eng := rfl
@[simp] theorem icuSend_emap (src : Nat) (s : State) : (icuSend src s).emap = s.emap := rfl
@[simp] theorem icuSend_arr (src : Nat) (s : State) : (icuSend src s).arr = s.arr := rfl
@[simp] theorem icuSend_anl (src : Nat) (s : State) : (icuSend src s).anl = s.anl := rfl
@[simp] theorem icuSend_det (src : Nat) (s : State) : (icuSend src s).det = s.det := rfl
@[simp] theorem icuSend_rng (src : Nat) (s : State) : (icuSend src s).rng = s.rng := rfl
@[simp] theorem icuSend_ing (src : Nat) (s : State) : (icuSend src s).ing = s.ing := rfl
@[simp] theorem icuSend_kw (src : Nat) (s : State) : (icuSend src s).kw = s.kw := rfl
@[simp] theorem icuSend_svc (src : Nat) (s : State) : (icuSend src s).svc = s.svc := rfl
@[simp] theorem icuSend_bb (src : Nat) (s : State) : (icuSend src s).bb = s.bb := rfl
@[simp] theorem icuSend_pwr (src : Nat) (s : State) : (icuSend src s).pwr = s.pwr := rfl
@[simp] theorem feDbIgnored_pending (s : State) : (feDbIgnored s).pending = s.pending := rfl
@[simp] theorem feDbIgnored_free (s : State) : (feDbIgnored s).free = s.free := rfl
@[simp] theorem feDbIgnored_now (s : State) : (feDbIgnored s).now = s.now := rfl
@[simp] theorem feDbIgnored_sent (s : State) : (feDbIgnored s).sent = s.sent := rfl
@[simp] theorem feDbIgnored_fuse (s : State) : (feDbIgnored s).fuse = s.fuse := rfl
@[simp] theorem feDbIgnored_flash (s : State) : (feDbIgnored s).flash = s.flash := rfl
@[simp] theorem feDbIgnored_boot (s : State) : (feDbIgnored s).boot = s.boot := rfl
@[simp] theorem feDbIgnored_queues (s : State) : (feDbIgnored s).queues = s.queues := rfl
@[simp] theorem feDbIgnored_cmds (s : State) : (feDbIgnored s).cmds = s.cmds := rfl
@[simp] theorem feDbIgnored_fences (s : State) : (feDbIgnored s).fences = s.fences := rfl
@[simp] theorem feDbIgnored_bindings (s : State) : (feDbIgnored s).bindings = s.bindings := rfl
@[simp] theorem feDbIgnored_mem (s : State) : (feDbIgnored s).mem = s.mem := rfl
@[simp] theorem feDbIgnored_host (s : State) : (feDbIgnored s).host = s.host := rfl
@[simp] theorem feDbIgnored_models (s : State) : (feDbIgnored s).models = s.models := rfl
@[simp] theorem feDbIgnored_eng (s : State) : (feDbIgnored s).eng = s.eng := rfl
@[simp] theorem feDbIgnored_emap (s : State) : (feDbIgnored s).emap = s.emap := rfl
@[simp] theorem feDbIgnored_arr (s : State) : (feDbIgnored s).arr = s.arr := rfl
@[simp] theorem feDbIgnored_anl (s : State) : (feDbIgnored s).anl = s.anl := rfl
@[simp] theorem feDbIgnored_det (s : State) : (feDbIgnored s).det = s.det := rfl
@[simp] theorem feDbIgnored_icu (s : State) : (feDbIgnored s).icu = s.icu := rfl
@[simp] theorem feDbIgnored_rng (s : State) : (feDbIgnored s).rng = s.rng := rfl
@[simp] theorem feDbIgnored_ing (s : State) : (feDbIgnored s).ing = s.ing := rfl
@[simp] theorem feDbIgnored_kw (s : State) : (feDbIgnored s).kw = s.kw := rfl
@[simp] theorem feDbIgnored_svc (s : State) : (feDbIgnored s).svc = s.svc := rfl
@[simp] theorem feDbIgnored_bb (s : State) : (feDbIgnored s).bb = s.bb := rfl
@[simp] theorem feDbIgnored_pwr (s : State) : (feDbIgnored s).pwr = s.pwr := rfl
@[simp] theorem setExt_pending (e : Nat) (x : ExtState) (s : State) : (setExt e x s).pending = s.pending := rfl
@[simp] theorem setExt_free (e : Nat) (x : ExtState) (s : State) : (setExt e x s).free = s.free := rfl
@[simp] theorem setExt_now (e : Nat) (x : ExtState) (s : State) : (setExt e x s).now = s.now := rfl
@[simp] theorem setExt_sent (e : Nat) (x : ExtState) (s : State) : (setExt e x s).sent = s.sent := rfl
@[simp] theorem setExt_fuse (e : Nat) (x : ExtState) (s : State) : (setExt e x s).fuse = s.fuse := rfl
@[simp] theorem setExt_flash (e : Nat) (x : ExtState) (s : State) : (setExt e x s).flash = s.flash := rfl
@[simp] theorem setExt_boot (e : Nat) (x : ExtState) (s : State) : (setExt e x s).boot = s.boot := rfl
@[simp] theorem setExt_fe (e : Nat) (x : ExtState) (s : State) : (setExt e x s).fe = s.fe := rfl
@[simp] theorem setExt_queues (e : Nat) (x : ExtState) (s : State) : (setExt e x s).queues = s.queues := rfl
@[simp] theorem setExt_cmds (e : Nat) (x : ExtState) (s : State) : (setExt e x s).cmds = s.cmds := rfl
@[simp] theorem setExt_fences (e : Nat) (x : ExtState) (s : State) : (setExt e x s).fences = s.fences := rfl
@[simp] theorem setExt_bindings (e : Nat) (x : ExtState) (s : State) : (setExt e x s).bindings = s.bindings := rfl
@[simp] theorem setExt_host (e : Nat) (x : ExtState) (s : State) : (setExt e x s).host = s.host := rfl
@[simp] theorem setExt_models (e : Nat) (x : ExtState) (s : State) : (setExt e x s).models = s.models := rfl
@[simp] theorem setExt_eng (e : Nat) (x : ExtState) (s : State) : (setExt e x s).eng = s.eng := rfl
@[simp] theorem setExt_emap (e : Nat) (x : ExtState) (s : State) : (setExt e x s).emap = s.emap := rfl
@[simp] theorem setExt_arr (e : Nat) (x : ExtState) (s : State) : (setExt e x s).arr = s.arr := rfl
@[simp] theorem setExt_anl (e : Nat) (x : ExtState) (s : State) : (setExt e x s).anl = s.anl := rfl
@[simp] theorem setExt_det (e : Nat) (x : ExtState) (s : State) : (setExt e x s).det = s.det := rfl
@[simp] theorem setExt_icu (e : Nat) (x : ExtState) (s : State) : (setExt e x s).icu = s.icu := rfl
@[simp] theorem setExt_rng (e : Nat) (x : ExtState) (s : State) : (setExt e x s).rng = s.rng := rfl
@[simp] theorem setExt_ing (e : Nat) (x : ExtState) (s : State) : (setExt e x s).ing = s.ing := rfl
@[simp] theorem setExt_kw (e : Nat) (x : ExtState) (s : State) : (setExt e x s).kw = s.kw := rfl
@[simp] theorem setExt_svc (e : Nat) (x : ExtState) (s : State) : (setExt e x s).svc = s.svc := rfl
@[simp] theorem setExt_bb (e : Nat) (x : ExtState) (s : State) : (setExt e x s).bb = s.bb := rfl
@[simp] theorem setExt_pwr (e : Nat) (x : ExtState) (s : State) : (setExt e x s).pwr = s.pwr := rfl
@[simp] theorem setEng_pending (n : Nat) (e : Engine) (s : State) : (setEng n e s).pending = s.pending := rfl
@[simp] theorem setEng_free (n : Nat) (e : Engine) (s : State) : (setEng n e s).free = s.free := rfl
@[simp] theorem setEng_now (n : Nat) (e : Engine) (s : State) : (setEng n e s).now = s.now := rfl
@[simp] theorem setEng_sent (n : Nat) (e : Engine) (s : State) : (setEng n e s).sent = s.sent := rfl
@[simp] theorem setEng_fuse (n : Nat) (e : Engine) (s : State) : (setEng n e s).fuse = s.fuse := rfl
@[simp] theorem setEng_flash (n : Nat) (e : Engine) (s : State) : (setEng n e s).flash = s.flash := rfl
@[simp] theorem setEng_boot (n : Nat) (e : Engine) (s : State) : (setEng n e s).boot = s.boot := rfl
@[simp] theorem setEng_fe (n : Nat) (e : Engine) (s : State) : (setEng n e s).fe = s.fe := rfl
@[simp] theorem setEng_queues (n : Nat) (e : Engine) (s : State) : (setEng n e s).queues = s.queues := rfl
@[simp] theorem setEng_cmds (n : Nat) (e : Engine) (s : State) : (setEng n e s).cmds = s.cmds := rfl
@[simp] theorem setEng_fences (n : Nat) (e : Engine) (s : State) : (setEng n e s).fences = s.fences := rfl
@[simp] theorem setEng_bindings (n : Nat) (e : Engine) (s : State) : (setEng n e s).bindings = s.bindings := rfl
@[simp] theorem setEng_mem (n : Nat) (e : Engine) (s : State) : (setEng n e s).mem = s.mem := rfl
@[simp] theorem setEng_host (n : Nat) (e : Engine) (s : State) : (setEng n e s).host = s.host := rfl
@[simp] theorem setEng_models (n : Nat) (e : Engine) (s : State) : (setEng n e s).models = s.models := rfl
@[simp] theorem setEng_emap (n : Nat) (e : Engine) (s : State) : (setEng n e s).emap = s.emap := rfl
@[simp] theorem setEng_arr (n : Nat) (e : Engine) (s : State) : (setEng n e s).arr = s.arr := rfl
@[simp] theorem setEng_anl (n : Nat) (e : Engine) (s : State) : (setEng n e s).anl = s.anl := rfl
@[simp] theorem setEng_det (n : Nat) (e : Engine) (s : State) : (setEng n e s).det = s.det := rfl
@[simp] theorem setEng_icu (n : Nat) (e : Engine) (s : State) : (setEng n e s).icu = s.icu := rfl
@[simp] theorem setEng_rng (n : Nat) (e : Engine) (s : State) : (setEng n e s).rng = s.rng := rfl
@[simp] theorem setEng_ing (n : Nat) (e : Engine) (s : State) : (setEng n e s).ing = s.ing := rfl
@[simp] theorem setEng_kw (n : Nat) (e : Engine) (s : State) : (setEng n e s).kw = s.kw := rfl
@[simp] theorem setEng_svc (n : Nat) (e : Engine) (s : State) : (setEng n e s).svc = s.svc := rfl
@[simp] theorem setEng_bb (n : Nat) (e : Engine) (s : State) : (setEng n e s).bb = s.bb := rfl
@[simp] theorem setEng_pwr (n : Nat) (e : Engine) (s : State) : (setEng n e s).pwr = s.pwr := rfl
@[simp] theorem updEng_pending (n : Nat) (f : Engine → Engine) (s : State) : (updEng n f s).pending = s.pending := rfl
@[simp] theorem updEng_free (n : Nat) (f : Engine → Engine) (s : State) : (updEng n f s).free = s.free := rfl
@[simp] theorem updEng_now (n : Nat) (f : Engine → Engine) (s : State) : (updEng n f s).now = s.now := rfl
@[simp] theorem updEng_sent (n : Nat) (f : Engine → Engine) (s : State) : (updEng n f s).sent = s.sent := rfl
@[simp] theorem updEng_fuse (n : Nat) (f : Engine → Engine) (s : State) : (updEng n f s).fuse = s.fuse := rfl
@[simp] theorem updEng_flash (n : Nat) (f : Engine → Engine) (s : State) : (updEng n f s).flash = s.flash := rfl
@[simp] theorem updEng_boot (n : Nat) (f : Engine → Engine) (s : State) : (updEng n f s).boot = s.boot := rfl
@[simp] theorem updEng_fe (n : Nat) (f : Engine → Engine) (s : State) : (updEng n f s).fe = s.fe := rfl
@[simp] theorem updEng_queues (n : Nat) (f : Engine → Engine) (s : State) : (updEng n f s).queues = s.queues := rfl
@[simp] theorem updEng_cmds (n : Nat) (f : Engine → Engine) (s : State) : (updEng n f s).cmds = s.cmds := rfl
@[simp] theorem updEng_fences (n : Nat) (f : Engine → Engine) (s : State) : (updEng n f s).fences = s.fences := rfl
@[simp] theorem updEng_bindings (n : Nat) (f : Engine → Engine) (s : State) : (updEng n f s).bindings = s.bindings := rfl
@[simp] theorem updEng_mem (n : Nat) (f : Engine → Engine) (s : State) : (updEng n f s).mem = s.mem := rfl
@[simp] theorem updEng_host (n : Nat) (f : Engine → Engine) (s : State) : (updEng n f s).host = s.host := rfl
@[simp] theorem updEng_models (n : Nat) (f : Engine → Engine) (s : State) : (updEng n f s).models = s.models := rfl
@[simp] theorem updEng_emap (n : Nat) (f : Engine → Engine) (s : State) : (updEng n f s).emap = s.emap := rfl
@[simp] theorem updEng_arr (n : Nat) (f : Engine → Engine) (s : State) : (updEng n f s).arr = s.arr := rfl
@[simp] theorem updEng_anl (n : Nat) (f : Engine → Engine) (s : State) : (updEng n f s).anl = s.anl := rfl
@[simp] theorem updEng_det (n : Nat) (f : Engine → Engine) (s : State) : (updEng n f s).det = s.det := rfl
@[simp] theorem updEng_icu (n : Nat) (f : Engine → Engine) (s : State) : (updEng n f s).icu = s.icu := rfl
@[simp] theorem updEng_rng (n : Nat) (f : Engine → Engine) (s : State) : (updEng n f s).rng = s.rng := rfl
@[simp] theorem updEng_ing (n : Nat) (f : Engine → Engine) (s : State) : (updEng n f s).ing = s.ing := rfl
@[simp] theorem updEng_kw (n : Nat) (f : Engine → Engine) (s : State) : (updEng n f s).kw = s.kw := rfl
@[simp] theorem updEng_svc (n : Nat) (f : Engine → Engine) (s : State) : (updEng n f s).svc = s.svc := rfl
@[simp] theorem updEng_bb (n : Nat) (f : Engine → Engine) (s : State) : (updEng n f s).bb = s.bb := rfl
@[simp] theorem updEng_pwr (n : Nat) (f : Engine → Engine) (s : State) : (updEng n f s).pwr = s.pwr := rfl
@[simp] theorem setQue_pending (q : Nat) (x : Queue) (s : State) : (setQue q x s).pending = s.pending := rfl
@[simp] theorem setQue_free (q : Nat) (x : Queue) (s : State) : (setQue q x s).free = s.free := rfl
@[simp] theorem setQue_now (q : Nat) (x : Queue) (s : State) : (setQue q x s).now = s.now := rfl
@[simp] theorem setQue_sent (q : Nat) (x : Queue) (s : State) : (setQue q x s).sent = s.sent := rfl
@[simp] theorem setQue_fuse (q : Nat) (x : Queue) (s : State) : (setQue q x s).fuse = s.fuse := rfl
@[simp] theorem setQue_flash (q : Nat) (x : Queue) (s : State) : (setQue q x s).flash = s.flash := rfl
@[simp] theorem setQue_boot (q : Nat) (x : Queue) (s : State) : (setQue q x s).boot = s.boot := rfl
@[simp] theorem setQue_fe (q : Nat) (x : Queue) (s : State) : (setQue q x s).fe = s.fe := rfl
@[simp] theorem setQue_cmds (q : Nat) (x : Queue) (s : State) : (setQue q x s).cmds = s.cmds := rfl
@[simp] theorem setQue_fences (q : Nat) (x : Queue) (s : State) : (setQue q x s).fences = s.fences := rfl
@[simp] theorem setQue_bindings (q : Nat) (x : Queue) (s : State) : (setQue q x s).bindings = s.bindings := rfl
@[simp] theorem setQue_mem (q : Nat) (x : Queue) (s : State) : (setQue q x s).mem = s.mem := rfl
@[simp] theorem setQue_host (q : Nat) (x : Queue) (s : State) : (setQue q x s).host = s.host := rfl
@[simp] theorem setQue_models (q : Nat) (x : Queue) (s : State) : (setQue q x s).models = s.models := rfl
@[simp] theorem setQue_eng (q : Nat) (x : Queue) (s : State) : (setQue q x s).eng = s.eng := rfl
@[simp] theorem setQue_emap (q : Nat) (x : Queue) (s : State) : (setQue q x s).emap = s.emap := rfl
@[simp] theorem setQue_arr (q : Nat) (x : Queue) (s : State) : (setQue q x s).arr = s.arr := rfl
@[simp] theorem setQue_anl (q : Nat) (x : Queue) (s : State) : (setQue q x s).anl = s.anl := rfl
@[simp] theorem setQue_det (q : Nat) (x : Queue) (s : State) : (setQue q x s).det = s.det := rfl
@[simp] theorem setQue_icu (q : Nat) (x : Queue) (s : State) : (setQue q x s).icu = s.icu := rfl
@[simp] theorem setQue_rng (q : Nat) (x : Queue) (s : State) : (setQue q x s).rng = s.rng := rfl
@[simp] theorem setQue_ing (q : Nat) (x : Queue) (s : State) : (setQue q x s).ing = s.ing := rfl
@[simp] theorem setQue_kw (q : Nat) (x : Queue) (s : State) : (setQue q x s).kw = s.kw := rfl
@[simp] theorem setQue_svc (q : Nat) (x : Queue) (s : State) : (setQue q x s).svc = s.svc := rfl
@[simp] theorem setQue_bb (q : Nat) (x : Queue) (s : State) : (setQue q x s).bb = s.bb := rfl
@[simp] theorem setQue_pwr (q : Nat) (x : Queue) (s : State) : (setQue q x s).pwr = s.pwr := rfl
@[simp] theorem updQue_pending (q : Nat) (f : Queue → Queue) (s : State) : (updQue q f s).pending = s.pending := rfl
@[simp] theorem updQue_free (q : Nat) (f : Queue → Queue) (s : State) : (updQue q f s).free = s.free := rfl
@[simp] theorem updQue_now (q : Nat) (f : Queue → Queue) (s : State) : (updQue q f s).now = s.now := rfl
@[simp] theorem updQue_sent (q : Nat) (f : Queue → Queue) (s : State) : (updQue q f s).sent = s.sent := rfl
@[simp] theorem updQue_fuse (q : Nat) (f : Queue → Queue) (s : State) : (updQue q f s).fuse = s.fuse := rfl
@[simp] theorem updQue_flash (q : Nat) (f : Queue → Queue) (s : State) : (updQue q f s).flash = s.flash := rfl
@[simp] theorem updQue_boot (q : Nat) (f : Queue → Queue) (s : State) : (updQue q f s).boot = s.boot := rfl
@[simp] theorem updQue_fe (q : Nat) (f : Queue → Queue) (s : State) : (updQue q f s).fe = s.fe := rfl
@[simp] theorem updQue_cmds (q : Nat) (f : Queue → Queue) (s : State) : (updQue q f s).cmds = s.cmds := rfl
@[simp] theorem updQue_fences (q : Nat) (f : Queue → Queue) (s : State) : (updQue q f s).fences = s.fences := rfl
@[simp] theorem updQue_bindings (q : Nat) (f : Queue → Queue) (s : State) : (updQue q f s).bindings = s.bindings := rfl
@[simp] theorem updQue_mem (q : Nat) (f : Queue → Queue) (s : State) : (updQue q f s).mem = s.mem := rfl
@[simp] theorem updQue_host (q : Nat) (f : Queue → Queue) (s : State) : (updQue q f s).host = s.host := rfl
@[simp] theorem updQue_models (q : Nat) (f : Queue → Queue) (s : State) : (updQue q f s).models = s.models := rfl
@[simp] theorem updQue_eng (q : Nat) (f : Queue → Queue) (s : State) : (updQue q f s).eng = s.eng := rfl
@[simp] theorem updQue_emap (q : Nat) (f : Queue → Queue) (s : State) : (updQue q f s).emap = s.emap := rfl
@[simp] theorem updQue_arr (q : Nat) (f : Queue → Queue) (s : State) : (updQue q f s).arr = s.arr := rfl
@[simp] theorem updQue_anl (q : Nat) (f : Queue → Queue) (s : State) : (updQue q f s).anl = s.anl := rfl
@[simp] theorem updQue_det (q : Nat) (f : Queue → Queue) (s : State) : (updQue q f s).det = s.det := rfl
@[simp] theorem updQue_icu (q : Nat) (f : Queue → Queue) (s : State) : (updQue q f s).icu = s.icu := rfl
@[simp] theorem updQue_rng (q : Nat) (f : Queue → Queue) (s : State) : (updQue q f s).rng = s.rng := rfl
@[simp] theorem updQue_ing (q : Nat) (f : Queue → Queue) (s : State) : (updQue q f s).ing = s.ing := rfl
@[simp] theorem updQue_kw (q : Nat) (f : Queue → Queue) (s : State) : (updQue q f s).kw = s.kw := rfl
@[simp] theorem updQue_svc (q : Nat) (f : Queue → Queue) (s : State) : (updQue q f s).svc = s.svc := rfl
@[simp] theorem updQue_bb (q : Nat) (f : Queue → Queue) (s : State) : (updQue q f s).bb = s.bb := rfl
@[simp] theorem updQue_pwr (q : Nat) (f : Queue → Queue) (s : State) : (updQue q f s).pwr = s.pwr := rfl
@[simp] theorem setLnk_pending (l : Nat) (x : Link) (s : State) : (setLnk l x s).pending = s.pending := rfl
@[simp] theorem setLnk_free (l : Nat) (x : Link) (s : State) : (setLnk l x s).free = s.free := rfl
@[simp] theorem setLnk_now (l : Nat) (x : Link) (s : State) : (setLnk l x s).now = s.now := rfl
@[simp] theorem setLnk_sent (l : Nat) (x : Link) (s : State) : (setLnk l x s).sent = s.sent := rfl
@[simp] theorem setLnk_fuse (l : Nat) (x : Link) (s : State) : (setLnk l x s).fuse = s.fuse := rfl
@[simp] theorem setLnk_flash (l : Nat) (x : Link) (s : State) : (setLnk l x s).flash = s.flash := rfl
@[simp] theorem setLnk_boot (l : Nat) (x : Link) (s : State) : (setLnk l x s).boot = s.boot := rfl
@[simp] theorem setLnk_fe (l : Nat) (x : Link) (s : State) : (setLnk l x s).fe = s.fe := rfl
@[simp] theorem setLnk_queues (l : Nat) (x : Link) (s : State) : (setLnk l x s).queues = s.queues := rfl
@[simp] theorem setLnk_cmds (l : Nat) (x : Link) (s : State) : (setLnk l x s).cmds = s.cmds := rfl
@[simp] theorem setLnk_fences (l : Nat) (x : Link) (s : State) : (setLnk l x s).fences = s.fences := rfl
@[simp] theorem setLnk_bindings (l : Nat) (x : Link) (s : State) : (setLnk l x s).bindings = s.bindings := rfl
@[simp] theorem setLnk_mem (l : Nat) (x : Link) (s : State) : (setLnk l x s).mem = s.mem := rfl
@[simp] theorem setLnk_host (l : Nat) (x : Link) (s : State) : (setLnk l x s).host = s.host := rfl
@[simp] theorem setLnk_models (l : Nat) (x : Link) (s : State) : (setLnk l x s).models = s.models := rfl
@[simp] theorem setLnk_eng (l : Nat) (x : Link) (s : State) : (setLnk l x s).eng = s.eng := rfl
@[simp] theorem setLnk_emap (l : Nat) (x : Link) (s : State) : (setLnk l x s).emap = s.emap := rfl
@[simp] theorem setLnk_arr (l : Nat) (x : Link) (s : State) : (setLnk l x s).arr = s.arr := rfl
@[simp] theorem setLnk_anl (l : Nat) (x : Link) (s : State) : (setLnk l x s).anl = s.anl := rfl
@[simp] theorem setLnk_det (l : Nat) (x : Link) (s : State) : (setLnk l x s).det = s.det := rfl
@[simp] theorem setLnk_icu (l : Nat) (x : Link) (s : State) : (setLnk l x s).icu = s.icu := rfl
@[simp] theorem setLnk_rng (l : Nat) (x : Link) (s : State) : (setLnk l x s).rng = s.rng := rfl
@[simp] theorem setLnk_ing (l : Nat) (x : Link) (s : State) : (setLnk l x s).ing = s.ing := rfl
@[simp] theorem setLnk_svc (l : Nat) (x : Link) (s : State) : (setLnk l x s).svc = s.svc := rfl
@[simp] theorem setLnk_bb (l : Nat) (x : Link) (s : State) : (setLnk l x s).bb = s.bb := rfl
@[simp] theorem setLnk_pwr (l : Nat) (x : Link) (s : State) : (setLnk l x s).pwr = s.pwr := rfl
@[simp] theorem updLnk_pending (l : Nat) (f : Link → Link) (s : State) : (updLnk l f s).pending = s.pending := rfl
@[simp] theorem updLnk_free (l : Nat) (f : Link → Link) (s : State) : (updLnk l f s).free = s.free := rfl
@[simp] theorem updLnk_now (l : Nat) (f : Link → Link) (s : State) : (updLnk l f s).now = s.now := rfl
@[simp] theorem updLnk_sent (l : Nat) (f : Link → Link) (s : State) : (updLnk l f s).sent = s.sent := rfl
@[simp] theorem updLnk_fuse (l : Nat) (f : Link → Link) (s : State) : (updLnk l f s).fuse = s.fuse := rfl
@[simp] theorem updLnk_flash (l : Nat) (f : Link → Link) (s : State) : (updLnk l f s).flash = s.flash := rfl
@[simp] theorem updLnk_boot (l : Nat) (f : Link → Link) (s : State) : (updLnk l f s).boot = s.boot := rfl
@[simp] theorem updLnk_fe (l : Nat) (f : Link → Link) (s : State) : (updLnk l f s).fe = s.fe := rfl
@[simp] theorem updLnk_queues (l : Nat) (f : Link → Link) (s : State) : (updLnk l f s).queues = s.queues := rfl
@[simp] theorem updLnk_cmds (l : Nat) (f : Link → Link) (s : State) : (updLnk l f s).cmds = s.cmds := rfl
@[simp] theorem updLnk_fences (l : Nat) (f : Link → Link) (s : State) : (updLnk l f s).fences = s.fences := rfl
@[simp] theorem updLnk_bindings (l : Nat) (f : Link → Link) (s : State) : (updLnk l f s).bindings = s.bindings := rfl
@[simp] theorem updLnk_mem (l : Nat) (f : Link → Link) (s : State) : (updLnk l f s).mem = s.mem := rfl
@[simp] theorem updLnk_host (l : Nat) (f : Link → Link) (s : State) : (updLnk l f s).host = s.host := rfl
@[simp] theorem updLnk_models (l : Nat) (f : Link → Link) (s : State) : (updLnk l f s).models = s.models := rfl
@[simp] theorem updLnk_eng (l : Nat) (f : Link → Link) (s : State) : (updLnk l f s).eng = s.eng := rfl
@[simp] theorem updLnk_emap (l : Nat) (f : Link → Link) (s : State) : (updLnk l f s).emap = s.emap := rfl
@[simp] theorem updLnk_arr (l : Nat) (f : Link → Link) (s : State) : (updLnk l f s).arr = s.arr := rfl
@[simp] theorem updLnk_anl (l : Nat) (f : Link → Link) (s : State) : (updLnk l f s).anl = s.anl := rfl
@[simp] theorem updLnk_det (l : Nat) (f : Link → Link) (s : State) : (updLnk l f s).det = s.det := rfl
@[simp] theorem updLnk_icu (l : Nat) (f : Link → Link) (s : State) : (updLnk l f s).icu = s.icu := rfl
@[simp] theorem updLnk_rng (l : Nat) (f : Link → Link) (s : State) : (updLnk l f s).rng = s.rng := rfl
@[simp] theorem updLnk_ing (l : Nat) (f : Link → Link) (s : State) : (updLnk l f s).ing = s.ing := rfl
@[simp] theorem updLnk_svc (l : Nat) (f : Link → Link) (s : State) : (updLnk l f s).svc = s.svc := rfl
@[simp] theorem updLnk_bb (l : Nat) (f : Link → Link) (s : State) : (updLnk l f s).bb = s.bb := rfl
@[simp] theorem updLnk_pwr (l : Nat) (f : Link → Link) (s : State) : (updLnk l f s).pwr = s.pwr := rfl
@[simp] theorem setBnd_pending (b : Nat) (x : Binding) (s : State) : (setBnd b x s).pending = s.pending := rfl
@[simp] theorem setBnd_free (b : Nat) (x : Binding) (s : State) : (setBnd b x s).free = s.free := rfl
@[simp] theorem setBnd_now (b : Nat) (x : Binding) (s : State) : (setBnd b x s).now = s.now := rfl
@[simp] theorem setBnd_sent (b : Nat) (x : Binding) (s : State) : (setBnd b x s).sent = s.sent := rfl
@[simp] theorem setBnd_fuse (b : Nat) (x : Binding) (s : State) : (setBnd b x s).fuse = s.fuse := rfl
@[simp] theorem setBnd_flash (b : Nat) (x : Binding) (s : State) : (setBnd b x s).flash = s.flash := rfl
@[simp] theorem setBnd_boot (b : Nat) (x : Binding) (s : State) : (setBnd b x s).boot = s.boot := rfl
@[simp] theorem setBnd_fe (b : Nat) (x : Binding) (s : State) : (setBnd b x s).fe = s.fe := rfl
@[simp] theorem setBnd_queues (b : Nat) (x : Binding) (s : State) : (setBnd b x s).queues = s.queues := rfl
@[simp] theorem setBnd_cmds (b : Nat) (x : Binding) (s : State) : (setBnd b x s).cmds = s.cmds := rfl
@[simp] theorem setBnd_fences (b : Nat) (x : Binding) (s : State) : (setBnd b x s).fences = s.fences := rfl
@[simp] theorem setBnd_mem (b : Nat) (x : Binding) (s : State) : (setBnd b x s).mem = s.mem := rfl
@[simp] theorem setBnd_host (b : Nat) (x : Binding) (s : State) : (setBnd b x s).host = s.host := rfl
@[simp] theorem setBnd_models (b : Nat) (x : Binding) (s : State) : (setBnd b x s).models = s.models := rfl
@[simp] theorem setBnd_eng (b : Nat) (x : Binding) (s : State) : (setBnd b x s).eng = s.eng := rfl
@[simp] theorem setBnd_emap (b : Nat) (x : Binding) (s : State) : (setBnd b x s).emap = s.emap := rfl
@[simp] theorem setBnd_arr (b : Nat) (x : Binding) (s : State) : (setBnd b x s).arr = s.arr := rfl
@[simp] theorem setBnd_anl (b : Nat) (x : Binding) (s : State) : (setBnd b x s).anl = s.anl := rfl
@[simp] theorem setBnd_det (b : Nat) (x : Binding) (s : State) : (setBnd b x s).det = s.det := rfl
@[simp] theorem setBnd_icu (b : Nat) (x : Binding) (s : State) : (setBnd b x s).icu = s.icu := rfl
@[simp] theorem setBnd_rng (b : Nat) (x : Binding) (s : State) : (setBnd b x s).rng = s.rng := rfl
@[simp] theorem setBnd_ing (b : Nat) (x : Binding) (s : State) : (setBnd b x s).ing = s.ing := rfl
@[simp] theorem setBnd_kw (b : Nat) (x : Binding) (s : State) : (setBnd b x s).kw = s.kw := rfl
@[simp] theorem setBnd_svc (b : Nat) (x : Binding) (s : State) : (setBnd b x s).svc = s.svc := rfl
@[simp] theorem setBnd_bb (b : Nat) (x : Binding) (s : State) : (setBnd b x s).bb = s.bb := rfl
@[simp] theorem setBnd_pwr (b : Nat) (x : Binding) (s : State) : (setBnd b x s).pwr = s.pwr := rfl
@[simp] theorem updPrt_pending (p : Nat) (f : PortSt → PortSt) (s : State) : (updPrt p f s).pending = s.pending := rfl
@[simp] theorem updPrt_free (p : Nat) (f : PortSt → PortSt) (s : State) : (updPrt p f s).free = s.free := rfl
@[simp] theorem updPrt_now (p : Nat) (f : PortSt → PortSt) (s : State) : (updPrt p f s).now = s.now := rfl
@[simp] theorem updPrt_sent (p : Nat) (f : PortSt → PortSt) (s : State) : (updPrt p f s).sent = s.sent := rfl
@[simp] theorem updPrt_fuse (p : Nat) (f : PortSt → PortSt) (s : State) : (updPrt p f s).fuse = s.fuse := rfl
@[simp] theorem updPrt_flash (p : Nat) (f : PortSt → PortSt) (s : State) : (updPrt p f s).flash = s.flash := rfl
@[simp] theorem updPrt_boot (p : Nat) (f : PortSt → PortSt) (s : State) : (updPrt p f s).boot = s.boot := rfl
@[simp] theorem updPrt_fe (p : Nat) (f : PortSt → PortSt) (s : State) : (updPrt p f s).fe = s.fe := rfl
@[simp] theorem updPrt_queues (p : Nat) (f : PortSt → PortSt) (s : State) : (updPrt p f s).queues = s.queues := rfl
@[simp] theorem updPrt_cmds (p : Nat) (f : PortSt → PortSt) (s : State) : (updPrt p f s).cmds = s.cmds := rfl
@[simp] theorem updPrt_fences (p : Nat) (f : PortSt → PortSt) (s : State) : (updPrt p f s).fences = s.fences := rfl
@[simp] theorem updPrt_bindings (p : Nat) (f : PortSt → PortSt) (s : State) : (updPrt p f s).bindings = s.bindings := rfl
@[simp] theorem updPrt_mem (p : Nat) (f : PortSt → PortSt) (s : State) : (updPrt p f s).mem = s.mem := rfl
@[simp] theorem updPrt_host (p : Nat) (f : PortSt → PortSt) (s : State) : (updPrt p f s).host = s.host := rfl
@[simp] theorem updPrt_models (p : Nat) (f : PortSt → PortSt) (s : State) : (updPrt p f s).models = s.models := rfl
@[simp] theorem updPrt_eng (p : Nat) (f : PortSt → PortSt) (s : State) : (updPrt p f s).eng = s.eng := rfl
@[simp] theorem updPrt_emap (p : Nat) (f : PortSt → PortSt) (s : State) : (updPrt p f s).emap = s.emap := rfl
@[simp] theorem updPrt_arr (p : Nat) (f : PortSt → PortSt) (s : State) : (updPrt p f s).arr = s.arr := rfl
@[simp] theorem updPrt_anl (p : Nat) (f : PortSt → PortSt) (s : State) : (updPrt p f s).anl = s.anl := rfl
@[simp] theorem updPrt_det (p : Nat) (f : PortSt → PortSt) (s : State) : (updPrt p f s).det = s.det := rfl
@[simp] theorem updPrt_icu (p : Nat) (f : PortSt → PortSt) (s : State) : (updPrt p f s).icu = s.icu := rfl
@[simp] theorem updPrt_rng (p : Nat) (f : PortSt → PortSt) (s : State) : (updPrt p f s).rng = s.rng := rfl
@[simp] theorem updPrt_kw (p : Nat) (f : PortSt → PortSt) (s : State) : (updPrt p f s).kw = s.kw := rfl
@[simp] theorem updPrt_svc (p : Nat) (f : PortSt → PortSt) (s : State) : (updPrt p f s).svc = s.svc := rfl
@[simp] theorem updPrt_bb (p : Nat) (f : PortSt → PortSt) (s : State) : (updPrt p f s).bb = s.bb := rfl
@[simp] theorem updPrt_pwr (p : Nat) (f : PortSt → PortSt) (s : State) : (updPrt p f s).pwr = s.pwr := rfl
@[simp] theorem updCmd_pending (k : Key) (f : Cmd → Cmd) (s : State) : (updCmd k f s).pending = s.pending := rfl
@[simp] theorem updCmd_free (k : Key) (f : Cmd → Cmd) (s : State) : (updCmd k f s).free = s.free := rfl
@[simp] theorem updCmd_now (k : Key) (f : Cmd → Cmd) (s : State) : (updCmd k f s).now = s.now := rfl
@[simp] theorem updCmd_sent (k : Key) (f : Cmd → Cmd) (s : State) : (updCmd k f s).sent = s.sent := rfl
@[simp] theorem updCmd_fuse (k : Key) (f : Cmd → Cmd) (s : State) : (updCmd k f s).fuse = s.fuse := rfl
@[simp] theorem updCmd_flash (k : Key) (f : Cmd → Cmd) (s : State) : (updCmd k f s).flash = s.flash := rfl
@[simp] theorem updCmd_boot (k : Key) (f : Cmd → Cmd) (s : State) : (updCmd k f s).boot = s.boot := rfl
@[simp] theorem updCmd_fe (k : Key) (f : Cmd → Cmd) (s : State) : (updCmd k f s).fe = s.fe := rfl
@[simp] theorem updCmd_queues (k : Key) (f : Cmd → Cmd) (s : State) : (updCmd k f s).queues = s.queues := rfl
@[simp] theorem updCmd_fences (k : Key) (f : Cmd → Cmd) (s : State) : (updCmd k f s).fences = s.fences := rfl
@[simp] theorem updCmd_bindings (k : Key) (f : Cmd → Cmd) (s : State) : (updCmd k f s).bindings = s.bindings := rfl
@[simp] theorem updCmd_mem (k : Key) (f : Cmd → Cmd) (s : State) : (updCmd k f s).mem = s.mem := rfl
@[simp] theorem updCmd_host (k : Key) (f : Cmd → Cmd) (s : State) : (updCmd k f s).host = s.host := rfl
@[simp] theorem updCmd_models (k : Key) (f : Cmd → Cmd) (s : State) : (updCmd k f s).models = s.models := rfl
@[simp] theorem updCmd_eng (k : Key) (f : Cmd → Cmd) (s : State) : (updCmd k f s).eng = s.eng := rfl
@[simp] theorem updCmd_emap (k : Key) (f : Cmd → Cmd) (s : State) : (updCmd k f s).emap = s.emap := rfl
@[simp] theorem updCmd_arr (k : Key) (f : Cmd → Cmd) (s : State) : (updCmd k f s).arr = s.arr := rfl
@[simp] theorem updCmd_anl (k : Key) (f : Cmd → Cmd) (s : State) : (updCmd k f s).anl = s.anl := rfl
@[simp] theorem updCmd_det (k : Key) (f : Cmd → Cmd) (s : State) : (updCmd k f s).det = s.det := rfl
@[simp] theorem updCmd_icu (k : Key) (f : Cmd → Cmd) (s : State) : (updCmd k f s).icu = s.icu := rfl
@[simp] theorem updCmd_rng (k : Key) (f : Cmd → Cmd) (s : State) : (updCmd k f s).rng = s.rng := rfl
@[simp] theorem updCmd_ing (k : Key) (f : Cmd → Cmd) (s : State) : (updCmd k f s).ing = s.ing := rfl
@[simp] theorem updCmd_kw (k : Key) (f : Cmd → Cmd) (s : State) : (updCmd k f s).kw = s.kw := rfl
@[simp] theorem updCmd_svc (k : Key) (f : Cmd → Cmd) (s : State) : (updCmd k f s).svc = s.svc := rfl
@[simp] theorem updCmd_bb (k : Key) (f : Cmd → Cmd) (s : State) : (updCmd k f s).bb = s.bb := rfl
@[simp] theorem updCmd_pwr (k : Key) (f : Cmd → Cmd) (s : State) : (updCmd k f s).pwr = s.pwr := rfl
@[simp] theorem dropCmd_pending (k : Key) (s : State) : (dropCmd k s).pending = s.pending := rfl
@[simp] theorem dropCmd_free (k : Key) (s : State) : (dropCmd k s).free = s.free := rfl
@[simp] theorem dropCmd_now (k : Key) (s : State) : (dropCmd k s).now = s.now := rfl
@[simp] theorem dropCmd_sent (k : Key) (s : State) : (dropCmd k s).sent = s.sent := rfl
@[simp] theorem dropCmd_fuse (k : Key) (s : State) : (dropCmd k s).fuse = s.fuse := rfl
@[simp] theorem dropCmd_flash (k : Key) (s : State) : (dropCmd k s).flash = s.flash := rfl
@[simp] theorem dropCmd_boot (k : Key) (s : State) : (dropCmd k s).boot = s.boot := rfl
@[simp] theorem dropCmd_fe (k : Key) (s : State) : (dropCmd k s).fe = s.fe := rfl
@[simp] theorem dropCmd_queues (k : Key) (s : State) : (dropCmd k s).queues = s.queues := rfl
@[simp] theorem dropCmd_fences (k : Key) (s : State) : (dropCmd k s).fences = s.fences := rfl
@[simp] theorem dropCmd_bindings (k : Key) (s : State) : (dropCmd k s).bindings = s.bindings := rfl
@[simp] theorem dropCmd_mem (k : Key) (s : State) : (dropCmd k s).mem = s.mem := rfl
@[simp] theorem dropCmd_host (k : Key) (s : State) : (dropCmd k s).host = s.host := rfl
@[simp] theorem dropCmd_models (k : Key) (s : State) : (dropCmd k s).models = s.models := rfl
@[simp] theorem dropCmd_eng (k : Key) (s : State) : (dropCmd k s).eng = s.eng := rfl
@[simp] theorem dropCmd_emap (k : Key) (s : State) : (dropCmd k s).emap = s.emap := rfl
@[simp] theorem dropCmd_arr (k : Key) (s : State) : (dropCmd k s).arr = s.arr := rfl
@[simp] theorem dropCmd_anl (k : Key) (s : State) : (dropCmd k s).anl = s.anl := rfl
@[simp] theorem dropCmd_det (k : Key) (s : State) : (dropCmd k s).det = s.det := rfl
@[simp] theorem dropCmd_icu (k : Key) (s : State) : (dropCmd k s).icu = s.icu := rfl
@[simp] theorem dropCmd_rng (k : Key) (s : State) : (dropCmd k s).rng = s.rng := rfl
@[simp] theorem dropCmd_ing (k : Key) (s : State) : (dropCmd k s).ing = s.ing := rfl
@[simp] theorem dropCmd_kw (k : Key) (s : State) : (dropCmd k s).kw = s.kw := rfl
@[simp] theorem dropCmd_svc (k : Key) (s : State) : (dropCmd k s).svc = s.svc := rfl
@[simp] theorem dropCmd_bb (k : Key) (s : State) : (dropCmd k s).bb = s.bb := rfl
@[simp] theorem dropCmd_pwr (k : Key) (s : State) : (dropCmd k s).pwr = s.pwr := rfl
@[simp] theorem setFnc_pending (f : Nat) (x : Fence) (s : State) : (setFnc f x s).pending = s.pending := rfl
@[simp] theorem setFnc_free (f : Nat) (x : Fence) (s : State) : (setFnc f x s).free = s.free := rfl
@[simp] theorem setFnc_now (f : Nat) (x : Fence) (s : State) : (setFnc f x s).now = s.now := rfl
@[simp] theorem setFnc_sent (f : Nat) (x : Fence) (s : State) : (setFnc f x s).sent = s.sent := rfl
@[simp] theorem setFnc_fuse (f : Nat) (x : Fence) (s : State) : (setFnc f x s).fuse = s.fuse := rfl
@[simp] theorem setFnc_flash (f : Nat) (x : Fence) (s : State) : (setFnc f x s).flash = s.flash := rfl
@[simp] theorem setFnc_boot (f : Nat) (x : Fence) (s : State) : (setFnc f x s).boot = s.boot := rfl
@[simp] theorem setFnc_fe (f : Nat) (x : Fence) (s : State) : (setFnc f x s).fe = s.fe := rfl
@[simp] theorem setFnc_queues (f : Nat) (x : Fence) (s : State) : (setFnc f x s).queues = s.queues := rfl
@[simp] theorem setFnc_cmds (f : Nat) (x : Fence) (s : State) : (setFnc f x s).cmds = s.cmds := rfl
@[simp] theorem setFnc_bindings (f : Nat) (x : Fence) (s : State) : (setFnc f x s).bindings = s.bindings := rfl
@[simp] theorem setFnc_mem (f : Nat) (x : Fence) (s : State) : (setFnc f x s).mem = s.mem := rfl
@[simp] theorem setFnc_host (f : Nat) (x : Fence) (s : State) : (setFnc f x s).host = s.host := rfl
@[simp] theorem setFnc_models (f : Nat) (x : Fence) (s : State) : (setFnc f x s).models = s.models := rfl
@[simp] theorem setFnc_eng (f : Nat) (x : Fence) (s : State) : (setFnc f x s).eng = s.eng := rfl
@[simp] theorem setFnc_emap (f : Nat) (x : Fence) (s : State) : (setFnc f x s).emap = s.emap := rfl
@[simp] theorem setFnc_arr (f : Nat) (x : Fence) (s : State) : (setFnc f x s).arr = s.arr := rfl
@[simp] theorem setFnc_anl (f : Nat) (x : Fence) (s : State) : (setFnc f x s).anl = s.anl := rfl
@[simp] theorem setFnc_det (f : Nat) (x : Fence) (s : State) : (setFnc f x s).det = s.det := rfl
@[simp] theorem setFnc_icu (f : Nat) (x : Fence) (s : State) : (setFnc f x s).icu = s.icu := rfl
@[simp] theorem setFnc_rng (f : Nat) (x : Fence) (s : State) : (setFnc f x s).rng = s.rng := rfl
@[simp] theorem setFnc_ing (f : Nat) (x : Fence) (s : State) : (setFnc f x s).ing = s.ing := rfl
@[simp] theorem setFnc_kw (f : Nat) (x : Fence) (s : State) : (setFnc f x s).kw = s.kw := rfl
@[simp] theorem setFnc_svc (f : Nat) (x : Fence) (s : State) : (setFnc f x s).svc = s.svc := rfl
@[simp] theorem setFnc_bb (f : Nat) (x : Fence) (s : State) : (setFnc f x s).bb = s.bb := rfl
@[simp] theorem setFnc_pwr (f : Nat) (x : Fence) (s : State) : (setFnc f x s).pwr = s.pwr := rfl
@[simp] theorem updMdl_pending (i : Nat) (f : Model → Model) (s : State) : (updMdl i f s).pending = s.pending := rfl
@[simp] theorem updMdl_free (i : Nat) (f : Model → Model) (s : State) : (updMdl i f s).free = s.free := rfl
@[simp] theorem updMdl_now (i : Nat) (f : Model → Model) (s : State) : (updMdl i f s).now = s.now := rfl
@[simp] theorem updMdl_sent (i : Nat) (f : Model → Model) (s : State) : (updMdl i f s).sent = s.sent := rfl
@[simp] theorem updMdl_fuse (i : Nat) (f : Model → Model) (s : State) : (updMdl i f s).fuse = s.fuse := rfl
@[simp] theorem updMdl_flash (i : Nat) (f : Model → Model) (s : State) : (updMdl i f s).flash = s.flash := rfl
@[simp] theorem updMdl_boot (i : Nat) (f : Model → Model) (s : State) : (updMdl i f s).boot = s.boot := rfl
@[simp] theorem updMdl_fe (i : Nat) (f : Model → Model) (s : State) : (updMdl i f s).fe = s.fe := rfl
@[simp] theorem updMdl_queues (i : Nat) (f : Model → Model) (s : State) : (updMdl i f s).queues = s.queues := rfl
@[simp] theorem updMdl_cmds (i : Nat) (f : Model → Model) (s : State) : (updMdl i f s).cmds = s.cmds := rfl
@[simp] theorem updMdl_fences (i : Nat) (f : Model → Model) (s : State) : (updMdl i f s).fences = s.fences := rfl
@[simp] theorem updMdl_bindings (i : Nat) (f : Model → Model) (s : State) : (updMdl i f s).bindings = s.bindings := rfl
@[simp] theorem updMdl_mem (i : Nat) (f : Model → Model) (s : State) : (updMdl i f s).mem = s.mem := rfl
@[simp] theorem updMdl_host (i : Nat) (f : Model → Model) (s : State) : (updMdl i f s).host = s.host := rfl
@[simp] theorem updMdl_eng (i : Nat) (f : Model → Model) (s : State) : (updMdl i f s).eng = s.eng := rfl
@[simp] theorem updMdl_emap (i : Nat) (f : Model → Model) (s : State) : (updMdl i f s).emap = s.emap := rfl
@[simp] theorem updMdl_arr (i : Nat) (f : Model → Model) (s : State) : (updMdl i f s).arr = s.arr := rfl
@[simp] theorem updMdl_anl (i : Nat) (f : Model → Model) (s : State) : (updMdl i f s).anl = s.anl := rfl
@[simp] theorem updMdl_det (i : Nat) (f : Model → Model) (s : State) : (updMdl i f s).det = s.det := rfl
@[simp] theorem updMdl_icu (i : Nat) (f : Model → Model) (s : State) : (updMdl i f s).icu = s.icu := rfl
@[simp] theorem updMdl_rng (i : Nat) (f : Model → Model) (s : State) : (updMdl i f s).rng = s.rng := rfl
@[simp] theorem updMdl_ing (i : Nat) (f : Model → Model) (s : State) : (updMdl i f s).ing = s.ing := rfl
@[simp] theorem updMdl_kw (i : Nat) (f : Model → Model) (s : State) : (updMdl i f s).kw = s.kw := rfl
@[simp] theorem updMdl_svc (i : Nat) (f : Model → Model) (s : State) : (updMdl i f s).svc = s.svc := rfl
@[simp] theorem updMdl_bb (i : Nat) (f : Model → Model) (s : State) : (updMdl i f s).bb = s.bb := rfl
@[simp] theorem updMdl_pwr (i : Nat) (f : Model → Model) (s : State) : (updMdl i f s).pwr = s.pwr := rfl
@[simp] theorem addSteps_pending (n : Nat) (s : State) : (addSteps n s).pending = s.pending := rfl
@[simp] theorem addSteps_free (n : Nat) (s : State) : (addSteps n s).free = s.free := rfl
@[simp] theorem addSteps_now (n : Nat) (s : State) : (addSteps n s).now = s.now := rfl
@[simp] theorem addSteps_sent (n : Nat) (s : State) : (addSteps n s).sent = s.sent := rfl
@[simp] theorem addSteps_fuse (n : Nat) (s : State) : (addSteps n s).fuse = s.fuse := rfl
@[simp] theorem addSteps_flash (n : Nat) (s : State) : (addSteps n s).flash = s.flash := rfl
@[simp] theorem addSteps_boot (n : Nat) (s : State) : (addSteps n s).boot = s.boot := rfl
@[simp] theorem addSteps_fe (n : Nat) (s : State) : (addSteps n s).fe = s.fe := rfl
@[simp] theorem addSteps_queues (n : Nat) (s : State) : (addSteps n s).queues = s.queues := rfl
@[simp] theorem addSteps_cmds (n : Nat) (s : State) : (addSteps n s).cmds = s.cmds := rfl
@[simp] theorem addSteps_fences (n : Nat) (s : State) : (addSteps n s).fences = s.fences := rfl
@[simp] theorem addSteps_bindings (n : Nat) (s : State) : (addSteps n s).bindings = s.bindings := rfl
@[simp] theorem addSteps_mem (n : Nat) (s : State) : (addSteps n s).mem = s.mem := rfl
@[simp] theorem addSteps_host (n : Nat) (s : State) : (addSteps n s).host = s.host := rfl
@[simp] theorem addSteps_models (n : Nat) (s : State) : (addSteps n s).models = s.models := rfl
@[simp] theorem addSteps_eng (n : Nat) (s : State) : (addSteps n s).eng = s.eng := rfl
@[simp] theorem addSteps_emap (n : Nat) (s : State) : (addSteps n s).emap = s.emap := rfl
@[simp] theorem addSteps_anl (n : Nat) (s : State) : (addSteps n s).anl = s.anl := rfl
@[simp] theorem addSteps_det (n : Nat) (s : State) : (addSteps n s).det = s.det := rfl
@[simp] theorem addSteps_icu (n : Nat) (s : State) : (addSteps n s).icu = s.icu := rfl
@[simp] theorem addSteps_rng (n : Nat) (s : State) : (addSteps n s).rng = s.rng := rfl
@[simp] theorem addSteps_ing (n : Nat) (s : State) : (addSteps n s).ing = s.ing := rfl
@[simp] theorem addSteps_kw (n : Nat) (s : State) : (addSteps n s).kw = s.kw := rfl
@[simp] theorem addSteps_svc (n : Nat) (s : State) : (addSteps n s).svc = s.svc := rfl
@[simp] theorem addSteps_bb (n : Nat) (s : State) : (addSteps n s).bb = s.bb := rfl
@[simp] theorem addSteps_pwr (n : Nat) (s : State) : (addSteps n s).pwr = s.pwr := rfl
@[simp] theorem setRate_pending (code : Nat) (w : Nat) (n : Nat) (s : State) : (setRate code w n s).pending = s.pending := rfl
@[simp] theorem setRate_free (code : Nat) (w : Nat) (n : Nat) (s : State) : (setRate code w n s).free = s.free := rfl
@[simp] theorem setRate_now (code : Nat) (w : Nat) (n : Nat) (s : State) : (setRate code w n s).now = s.now := rfl
@[simp] theorem setRate_sent (code : Nat) (w : Nat) (n : Nat) (s : State) : (setRate code w n s).sent = s.sent := rfl
@[simp] theorem setRate_fuse (code : Nat) (w : Nat) (n : Nat) (s : State) : (setRate code w n s).fuse = s.fuse := rfl
@[simp] theorem setRate_flash (code : Nat) (w : Nat) (n : Nat) (s : State) : (setRate code w n s).flash = s.flash := rfl
@[simp] theorem setRate_boot (code : Nat) (w : Nat) (n : Nat) (s : State) : (setRate code w n s).boot = s.boot := rfl
@[simp] theorem setRate_fe (code : Nat) (w : Nat) (n : Nat) (s : State) : (setRate code w n s).fe = s.fe := rfl
@[simp] theorem setRate_queues (code : Nat) (w : Nat) (n : Nat) (s : State) : (setRate code w n s).queues = s.queues := rfl
@[simp] theorem setRate_cmds (code : Nat) (w : Nat) (n : Nat) (s : State) : (setRate code w n s).cmds = s.cmds := rfl
@[simp] theorem setRate_fences (code : Nat) (w : Nat) (n : Nat) (s : State) : (setRate code w n s).fences = s.fences := rfl
@[simp] theorem setRate_bindings (code : Nat) (w : Nat) (n : Nat) (s : State) : (setRate code w n s).bindings = s.bindings := rfl
@[simp] theorem setRate_mem (code : Nat) (w : Nat) (n : Nat) (s : State) : (setRate code w n s).mem = s.mem := rfl
@[simp] theorem setRate_host (code : Nat) (w : Nat) (n : Nat) (s : State) : (setRate code w n s).host = s.host := rfl
@[simp] theorem setRate_models (code : Nat) (w : Nat) (n : Nat) (s : State) : (setRate code w n s).models = s.models := rfl
@[simp] theorem setRate_eng (code : Nat) (w : Nat) (n : Nat) (s : State) : (setRate code w n s).eng = s.eng := rfl
@[simp] theorem setRate_emap (code : Nat) (w : Nat) (n : Nat) (s : State) : (setRate code w n s).emap = s.emap := rfl
@[simp] theorem setRate_arr (code : Nat) (w : Nat) (n : Nat) (s : State) : (setRate code w n s).arr = s.arr := rfl
@[simp] theorem setRate_anl (code : Nat) (w : Nat) (n : Nat) (s : State) : (setRate code w n s).anl = s.anl := rfl
@[simp] theorem setRate_det (code : Nat) (w : Nat) (n : Nat) (s : State) : (setRate code w n s).det = s.det := rfl
@[simp] theorem setRate_icu (code : Nat) (w : Nat) (n : Nat) (s : State) : (setRate code w n s).icu = s.icu := rfl
@[simp] theorem setRate_rng (code : Nat) (w : Nat) (n : Nat) (s : State) : (setRate code w n s).rng = s.rng := rfl
@[simp] theorem setRate_ing (code : Nat) (w : Nat) (n : Nat) (s : State) : (setRate code w n s).ing = s.ing := rfl
@[simp] theorem setRate_kw (code : Nat) (w : Nat) (n : Nat) (s : State) : (setRate code w n s).kw = s.kw := rfl
@[simp] theorem setRate_svc (code : Nat) (w : Nat) (n : Nat) (s : State) : (setRate code w n s).svc = s.svc := rfl
@[simp] theorem setRate_pwr (code : Nat) (w : Nat) (n : Nat) (s : State) : (setRate code w n s).pwr = s.pwr := rfl
@[simp] theorem setSrc_pending (n : Nat) (x : Src) (s : State) : (setSrc n x s).pending = s.pending := rfl
@[simp] theorem setSrc_free (n : Nat) (x : Src) (s : State) : (setSrc n x s).free = s.free := rfl
@[simp] theorem setSrc_now (n : Nat) (x : Src) (s : State) : (setSrc n x s).now = s.now := rfl
@[simp] theorem setSrc_sent (n : Nat) (x : Src) (s : State) : (setSrc n x s).sent = s.sent := rfl
@[simp] theorem setSrc_fuse (n : Nat) (x : Src) (s : State) : (setSrc n x s).fuse = s.fuse := rfl
@[simp] theorem setSrc_flash (n : Nat) (x : Src) (s : State) : (setSrc n x s).flash = s.flash := rfl
@[simp] theorem setSrc_boot (n : Nat) (x : Src) (s : State) : (setSrc n x s).boot = s.boot := rfl
@[simp] theorem setSrc_fe (n : Nat) (x : Src) (s : State) : (setSrc n x s).fe = s.fe := rfl
@[simp] theorem setSrc_queues (n : Nat) (x : Src) (s : State) : (setSrc n x s).queues = s.queues := rfl
@[simp] theorem setSrc_cmds (n : Nat) (x : Src) (s : State) : (setSrc n x s).cmds = s.cmds := rfl
@[simp] theorem setSrc_fences (n : Nat) (x : Src) (s : State) : (setSrc n x s).fences = s.fences := rfl
@[simp] theorem setSrc_bindings (n : Nat) (x : Src) (s : State) : (setSrc n x s).bindings = s.bindings := rfl
@[simp] theorem setSrc_mem (n : Nat) (x : Src) (s : State) : (setSrc n x s).mem = s.mem := rfl
@[simp] theorem setSrc_host (n : Nat) (x : Src) (s : State) : (setSrc n x s).host = s.host := rfl
@[simp] theorem setSrc_models (n : Nat) (x : Src) (s : State) : (setSrc n x s).models = s.models := rfl
@[simp] theorem setSrc_eng (n : Nat) (x : Src) (s : State) : (setSrc n x s).eng = s.eng := rfl
@[simp] theorem setSrc_emap (n : Nat) (x : Src) (s : State) : (setSrc n x s).emap = s.emap := rfl
@[simp] theorem setSrc_arr (n : Nat) (x : Src) (s : State) : (setSrc n x s).arr = s.arr := rfl
@[simp] theorem setSrc_anl (n : Nat) (x : Src) (s : State) : (setSrc n x s).anl = s.anl := rfl
@[simp] theorem setSrc_det (n : Nat) (x : Src) (s : State) : (setSrc n x s).det = s.det := rfl
@[simp] theorem setSrc_rng (n : Nat) (x : Src) (s : State) : (setSrc n x s).rng = s.rng := rfl
@[simp] theorem setSrc_ing (n : Nat) (x : Src) (s : State) : (setSrc n x s).ing = s.ing := rfl
@[simp] theorem setSrc_kw (n : Nat) (x : Src) (s : State) : (setSrc n x s).kw = s.kw := rfl
@[simp] theorem setSrc_svc (n : Nat) (x : Src) (s : State) : (setSrc n x s).svc = s.svc := rfl
@[simp] theorem setSrc_bb (n : Nat) (x : Src) (s : State) : (setSrc n x s).bb = s.bb := rfl
@[simp] theorem setSrc_pwr (n : Nat) (x : Src) (s : State) : (setSrc n x s).pwr = s.pwr := rfl
@[simp] theorem setTgt_pending (t : Nat) (x : Tgt) (s : State) : (setTgt t x s).pending = s.pending := rfl
@[simp] theorem setTgt_free (t : Nat) (x : Tgt) (s : State) : (setTgt t x s).free = s.free := rfl
@[simp] theorem setTgt_now (t : Nat) (x : Tgt) (s : State) : (setTgt t x s).now = s.now := rfl
@[simp] theorem setTgt_sent (t : Nat) (x : Tgt) (s : State) : (setTgt t x s).sent = s.sent := rfl
@[simp] theorem setTgt_fuse (t : Nat) (x : Tgt) (s : State) : (setTgt t x s).fuse = s.fuse := rfl
@[simp] theorem setTgt_flash (t : Nat) (x : Tgt) (s : State) : (setTgt t x s).flash = s.flash := rfl
@[simp] theorem setTgt_boot (t : Nat) (x : Tgt) (s : State) : (setTgt t x s).boot = s.boot := rfl
@[simp] theorem setTgt_fe (t : Nat) (x : Tgt) (s : State) : (setTgt t x s).fe = s.fe := rfl
@[simp] theorem setTgt_queues (t : Nat) (x : Tgt) (s : State) : (setTgt t x s).queues = s.queues := rfl
@[simp] theorem setTgt_cmds (t : Nat) (x : Tgt) (s : State) : (setTgt t x s).cmds = s.cmds := rfl
@[simp] theorem setTgt_fences (t : Nat) (x : Tgt) (s : State) : (setTgt t x s).fences = s.fences := rfl
@[simp] theorem setTgt_bindings (t : Nat) (x : Tgt) (s : State) : (setTgt t x s).bindings = s.bindings := rfl
@[simp] theorem setTgt_mem (t : Nat) (x : Tgt) (s : State) : (setTgt t x s).mem = s.mem := rfl
@[simp] theorem setTgt_host (t : Nat) (x : Tgt) (s : State) : (setTgt t x s).host = s.host := rfl
@[simp] theorem setTgt_models (t : Nat) (x : Tgt) (s : State) : (setTgt t x s).models = s.models := rfl
@[simp] theorem setTgt_eng (t : Nat) (x : Tgt) (s : State) : (setTgt t x s).eng = s.eng := rfl
@[simp] theorem setTgt_emap (t : Nat) (x : Tgt) (s : State) : (setTgt t x s).emap = s.emap := rfl
@[simp] theorem setTgt_arr (t : Nat) (x : Tgt) (s : State) : (setTgt t x s).arr = s.arr := rfl
@[simp] theorem setTgt_anl (t : Nat) (x : Tgt) (s : State) : (setTgt t x s).anl = s.anl := rfl
@[simp] theorem setTgt_det (t : Nat) (x : Tgt) (s : State) : (setTgt t x s).det = s.det := rfl
@[simp] theorem setTgt_rng (t : Nat) (x : Tgt) (s : State) : (setTgt t x s).rng = s.rng := rfl
@[simp] theorem setTgt_ing (t : Nat) (x : Tgt) (s : State) : (setTgt t x s).ing = s.ing := rfl
@[simp] theorem setTgt_kw (t : Nat) (x : Tgt) (s : State) : (setTgt t x s).kw = s.kw := rfl
@[simp] theorem setTgt_svc (t : Nat) (x : Tgt) (s : State) : (setTgt t x s).svc = s.svc := rfl
@[simp] theorem setTgt_bb (t : Nat) (x : Tgt) (s : State) : (setTgt t x s).bb = s.bb := rfl
@[simp] theorem setTgt_pwr (t : Nat) (x : Tgt) (s : State) : (setTgt t x s).pwr = s.pwr := rfl
@[simp] theorem setStrm_pending (i : Nat) (x : Stream) (s : State) : (setStrm i x s).pending = s.pending := rfl
@[simp] theorem setStrm_free (i : Nat) (x : Stream) (s : State) : (setStrm i x s).free = s.free := rfl
@[simp] theorem setStrm_now (i : Nat) (x : Stream) (s : State) : (setStrm i x s).now = s.now := rfl
@[simp] theorem setStrm_sent (i : Nat) (x : Stream) (s : State) : (setStrm i x s).sent = s.sent := rfl
@[simp] theorem setStrm_fuse (i : Nat) (x : Stream) (s : State) : (setStrm i x s).fuse = s.fuse := rfl
@[simp] theorem setStrm_flash (i : Nat) (x : Stream) (s : State) : (setStrm i x s).flash = s.flash := rfl
@[simp] theorem setStrm_boot (i : Nat) (x : Stream) (s : State) : (setStrm i x s).boot = s.boot := rfl
@[simp] theorem setStrm_fe (i : Nat) (x : Stream) (s : State) : (setStrm i x s).fe = s.fe := rfl
@[simp] theorem setStrm_queues (i : Nat) (x : Stream) (s : State) : (setStrm i x s).queues = s.queues := rfl
@[simp] theorem setStrm_cmds (i : Nat) (x : Stream) (s : State) : (setStrm i x s).cmds = s.cmds := rfl
@[simp] theorem setStrm_fences (i : Nat) (x : Stream) (s : State) : (setStrm i x s).fences = s.fences := rfl
@[simp] theorem setStrm_bindings (i : Nat) (x : Stream) (s : State) : (setStrm i x s).bindings = s.bindings := rfl
@[simp] theorem setStrm_mem (i : Nat) (x : Stream) (s : State) : (setStrm i x s).mem = s.mem := rfl
@[simp] theorem setStrm_host (i : Nat) (x : Stream) (s : State) : (setStrm i x s).host = s.host := rfl
@[simp] theorem setStrm_models (i : Nat) (x : Stream) (s : State) : (setStrm i x s).models = s.models := rfl
@[simp] theorem setStrm_eng (i : Nat) (x : Stream) (s : State) : (setStrm i x s).eng = s.eng := rfl
@[simp] theorem setStrm_emap (i : Nat) (x : Stream) (s : State) : (setStrm i x s).emap = s.emap := rfl
@[simp] theorem setStrm_arr (i : Nat) (x : Stream) (s : State) : (setStrm i x s).arr = s.arr := rfl
@[simp] theorem setStrm_anl (i : Nat) (x : Stream) (s : State) : (setStrm i x s).anl = s.anl := rfl
@[simp] theorem setStrm_det (i : Nat) (x : Stream) (s : State) : (setStrm i x s).det = s.det := rfl
@[simp] theorem setStrm_icu (i : Nat) (x : Stream) (s : State) : (setStrm i x s).icu = s.icu := rfl
@[simp] theorem setStrm_rng (i : Nat) (x : Stream) (s : State) : (setStrm i x s).rng = s.rng := rfl
@[simp] theorem setStrm_kw (i : Nat) (x : Stream) (s : State) : (setStrm i x s).kw = s.kw := rfl
@[simp] theorem setStrm_svc (i : Nat) (x : Stream) (s : State) : (setStrm i x s).svc = s.svc := rfl
@[simp] theorem setStrm_bb (i : Nat) (x : Stream) (s : State) : (setStrm i x s).bb = s.bb := rfl
@[simp] theorem setStrm_pwr (i : Nat) (x : Stream) (s : State) : (setStrm i x s).pwr = s.pwr := rfl
@[simp] theorem updStrm_pending (i : Nat) (f : Stream → Stream) (s : State) : (updStrm i f s).pending = s.pending := rfl
@[simp] theorem updStrm_free (i : Nat) (f : Stream → Stream) (s : State) : (updStrm i f s).free = s.free := rfl
@[simp] theorem updStrm_now (i : Nat) (f : Stream → Stream) (s : State) : (updStrm i f s).now = s.now := rfl
@[simp] theorem updStrm_sent (i : Nat) (f : Stream → Stream) (s : State) : (updStrm i f s).sent = s.sent := rfl
@[simp] theorem updStrm_fuse (i : Nat) (f : Stream → Stream) (s : State) : (updStrm i f s).fuse = s.fuse := rfl
@[simp] theorem updStrm_flash (i : Nat) (f : Stream → Stream) (s : State) : (updStrm i f s).flash = s.flash := rfl
@[simp] theorem updStrm_boot (i : Nat) (f : Stream → Stream) (s : State) : (updStrm i f s).boot = s.boot := rfl
@[simp] theorem updStrm_fe (i : Nat) (f : Stream → Stream) (s : State) : (updStrm i f s).fe = s.fe := rfl
@[simp] theorem updStrm_queues (i : Nat) (f : Stream → Stream) (s : State) : (updStrm i f s).queues = s.queues := rfl
@[simp] theorem updStrm_cmds (i : Nat) (f : Stream → Stream) (s : State) : (updStrm i f s).cmds = s.cmds := rfl
@[simp] theorem updStrm_fences (i : Nat) (f : Stream → Stream) (s : State) : (updStrm i f s).fences = s.fences := rfl
@[simp] theorem updStrm_bindings (i : Nat) (f : Stream → Stream) (s : State) : (updStrm i f s).bindings = s.bindings := rfl
@[simp] theorem updStrm_mem (i : Nat) (f : Stream → Stream) (s : State) : (updStrm i f s).mem = s.mem := rfl
@[simp] theorem updStrm_host (i : Nat) (f : Stream → Stream) (s : State) : (updStrm i f s).host = s.host := rfl
@[simp] theorem updStrm_models (i : Nat) (f : Stream → Stream) (s : State) : (updStrm i f s).models = s.models := rfl
@[simp] theorem updStrm_eng (i : Nat) (f : Stream → Stream) (s : State) : (updStrm i f s).eng = s.eng := rfl
@[simp] theorem updStrm_emap (i : Nat) (f : Stream → Stream) (s : State) : (updStrm i f s).emap = s.emap := rfl
@[simp] theorem updStrm_arr (i : Nat) (f : Stream → Stream) (s : State) : (updStrm i f s).arr = s.arr := rfl
@[simp] theorem updStrm_anl (i : Nat) (f : Stream → Stream) (s : State) : (updStrm i f s).anl = s.anl := rfl
@[simp] theorem updStrm_det (i : Nat) (f : Stream → Stream) (s : State) : (updStrm i f s).det = s.det := rfl
@[simp] theorem updStrm_icu (i : Nat) (f : Stream → Stream) (s : State) : (updStrm i f s).icu = s.icu := rfl
@[simp] theorem updStrm_rng (i : Nat) (f : Stream → Stream) (s : State) : (updStrm i f s).rng = s.rng := rfl
@[simp] theorem updStrm_kw (i : Nat) (f : Stream → Stream) (s : State) : (updStrm i f s).kw = s.kw := rfl
@[simp] theorem updStrm_svc (i : Nat) (f : Stream → Stream) (s : State) : (updStrm i f s).svc = s.svc := rfl
@[simp] theorem updStrm_bb (i : Nat) (f : Stream → Stream) (s : State) : (updStrm i f s).bb = s.bb := rfl
@[simp] theorem updStrm_pwr (i : Nat) (f : Stream → Stream) (s : State) : (updStrm i f s).pwr = s.pwr := rfl
@[simp] theorem setSlot_pending (i : Nat) (x : Slot) (s : State) : (setSlot i x s).pending = s.pending := rfl
@[simp] theorem setSlot_free (i : Nat) (x : Slot) (s : State) : (setSlot i x s).free = s.free := rfl
@[simp] theorem setSlot_now (i : Nat) (x : Slot) (s : State) : (setSlot i x s).now = s.now := rfl
@[simp] theorem setSlot_sent (i : Nat) (x : Slot) (s : State) : (setSlot i x s).sent = s.sent := rfl
@[simp] theorem setSlot_fuse (i : Nat) (x : Slot) (s : State) : (setSlot i x s).fuse = s.fuse := rfl
@[simp] theorem setSlot_boot (i : Nat) (x : Slot) (s : State) : (setSlot i x s).boot = s.boot := rfl
@[simp] theorem setSlot_fe (i : Nat) (x : Slot) (s : State) : (setSlot i x s).fe = s.fe := rfl
@[simp] theorem setSlot_queues (i : Nat) (x : Slot) (s : State) : (setSlot i x s).queues = s.queues := rfl
@[simp] theorem setSlot_cmds (i : Nat) (x : Slot) (s : State) : (setSlot i x s).cmds = s.cmds := rfl
@[simp] theorem setSlot_fences (i : Nat) (x : Slot) (s : State) : (setSlot i x s).fences = s.fences := rfl
@[simp] theorem setSlot_bindings (i : Nat) (x : Slot) (s : State) : (setSlot i x s).bindings = s.bindings := rfl
@[simp] theorem setSlot_mem (i : Nat) (x : Slot) (s : State) : (setSlot i x s).mem = s.mem := rfl
@[simp] theorem setSlot_host (i : Nat) (x : Slot) (s : State) : (setSlot i x s).host = s.host := rfl
@[simp] theorem setSlot_models (i : Nat) (x : Slot) (s : State) : (setSlot i x s).models = s.models := rfl
@[simp] theorem setSlot_eng (i : Nat) (x : Slot) (s : State) : (setSlot i x s).eng = s.eng := rfl
@[simp] theorem setSlot_emap (i : Nat) (x : Slot) (s : State) : (setSlot i x s).emap = s.emap := rfl
@[simp] theorem setSlot_arr (i : Nat) (x : Slot) (s : State) : (setSlot i x s).arr = s.arr := rfl
@[simp] theorem setSlot_anl (i : Nat) (x : Slot) (s : State) : (setSlot i x s).anl = s.anl := rfl
@[simp] theorem setSlot_det (i : Nat) (x : Slot) (s : State) : (setSlot i x s).det = s.det := rfl
@[simp] theorem setSlot_icu (i : Nat) (x : Slot) (s : State) : (setSlot i x s).icu = s.icu := rfl
@[simp] theorem setSlot_rng (i : Nat) (x : Slot) (s : State) : (setSlot i x s).rng = s.rng := rfl
@[simp] theorem setSlot_ing (i : Nat) (x : Slot) (s : State) : (setSlot i x s).ing = s.ing := rfl
@[simp] theorem setSlot_kw (i : Nat) (x : Slot) (s : State) : (setSlot i x s).kw = s.kw := rfl
@[simp] theorem setSlot_svc (i : Nat) (x : Slot) (s : State) : (setSlot i x s).svc = s.svc := rfl
@[simp] theorem setSlot_bb (i : Nat) (x : Slot) (s : State) : (setSlot i x s).bb = s.bb := rfl
@[simp] theorem setSlot_pwr (i : Nat) (x : Slot) (s : State) : (setSlot i x s).pwr = s.pwr := rfl
@[simp] theorem setDom_pending (d : Nat) (x : DomState) (s : State) : (setDom d x s).pending = s.pending := rfl
@[simp] theorem setDom_free (d : Nat) (x : DomState) (s : State) : (setDom d x s).free = s.free := rfl
@[simp] theorem setDom_now (d : Nat) (x : DomState) (s : State) : (setDom d x s).now = s.now := rfl
@[simp] theorem setDom_sent (d : Nat) (x : DomState) (s : State) : (setDom d x s).sent = s.sent := rfl
@[simp] theorem setDom_fuse (d : Nat) (x : DomState) (s : State) : (setDom d x s).fuse = s.fuse := rfl
@[simp] theorem setDom_flash (d : Nat) (x : DomState) (s : State) : (setDom d x s).flash = s.flash := rfl
@[simp] theorem setDom_boot (d : Nat) (x : DomState) (s : State) : (setDom d x s).boot = s.boot := rfl
@[simp] theorem setDom_fe (d : Nat) (x : DomState) (s : State) : (setDom d x s).fe = s.fe := rfl
@[simp] theorem setDom_queues (d : Nat) (x : DomState) (s : State) : (setDom d x s).queues = s.queues := rfl
@[simp] theorem setDom_cmds (d : Nat) (x : DomState) (s : State) : (setDom d x s).cmds = s.cmds := rfl
@[simp] theorem setDom_fences (d : Nat) (x : DomState) (s : State) : (setDom d x s).fences = s.fences := rfl
@[simp] theorem setDom_bindings (d : Nat) (x : DomState) (s : State) : (setDom d x s).bindings = s.bindings := rfl
@[simp] theorem setDom_mem (d : Nat) (x : DomState) (s : State) : (setDom d x s).mem = s.mem := rfl
@[simp] theorem setDom_host (d : Nat) (x : DomState) (s : State) : (setDom d x s).host = s.host := rfl
@[simp] theorem setDom_models (d : Nat) (x : DomState) (s : State) : (setDom d x s).models = s.models := rfl
@[simp] theorem setDom_eng (d : Nat) (x : DomState) (s : State) : (setDom d x s).eng = s.eng := rfl
@[simp] theorem setDom_emap (d : Nat) (x : DomState) (s : State) : (setDom d x s).emap = s.emap := rfl
@[simp] theorem setDom_arr (d : Nat) (x : DomState) (s : State) : (setDom d x s).arr = s.arr := rfl
@[simp] theorem setDom_anl (d : Nat) (x : DomState) (s : State) : (setDom d x s).anl = s.anl := rfl
@[simp] theorem setDom_det (d : Nat) (x : DomState) (s : State) : (setDom d x s).det = s.det := rfl
@[simp] theorem setDom_icu (d : Nat) (x : DomState) (s : State) : (setDom d x s).icu = s.icu := rfl
@[simp] theorem setDom_rng (d : Nat) (x : DomState) (s : State) : (setDom d x s).rng = s.rng := rfl
@[simp] theorem setDom_ing (d : Nat) (x : DomState) (s : State) : (setDom d x s).ing = s.ing := rfl
@[simp] theorem setDom_kw (d : Nat) (x : DomState) (s : State) : (setDom d x s).kw = s.kw := rfl
@[simp] theorem setDom_svc (d : Nat) (x : DomState) (s : State) : (setDom d x s).svc = s.svc := rfl
@[simp] theorem setDom_bb (d : Nat) (x : DomState) (s : State) : (setDom d x s).bb = s.bb := rfl

end Sys2Proof.Machine
end

