-- ==== Sys2Proof/Laws/Touch.lean ====
section
/-! SUPPORT. What an access to a memory can change: the memories, the Blotter's queue, an engine's error flags, what was
sent, the ATS cache, the extents retired, the count of free values; nothing else. One lemma per operation says so, and
gives each other field of the state by name (`(devRead_touch ..).queues`). -/

namespace Sys2Proof.Machine

/-- Flash but for the extents that retirement lists. -/
def flashRest (f : Flash) : Flash := { f with retired := [], removed := [] }

/-- The second state has what the first had, but for what an access may change. -/
structure Touch (a s : State) : Prop where
  pending : s.pending = a.pending
  now : s.now = a.now
  fuse : s.fuse = a.fuse
  boot : s.boot = a.boot
  fe : s.fe = a.fe
  queues : s.queues = a.queues
  cmds : s.cmds = a.cmds
  fences : s.fences = a.fences
  bindings : s.bindings = a.bindings
  models : s.models = a.models
  emap : s.emap = a.emap
  arr : s.arr = a.arr
  anl : s.anl = a.anl
  det : s.det = a.det
  icu : s.icu = a.icu
  rng : s.rng = a.rng
  ing : s.ing = a.ing
  kw : s.kw = a.kw
  svc : s.svc = a.svc
  pwr : s.pwr = a.pwr
  flash : flashRest s.flash = flashRest a.flash

theorem Touch.refl (s : State) : Touch s s :=
  ⟨rfl, rfl, rfl, rfl, rfl, rfl, rfl, rfl, rfl, rfl, rfl, rfl, rfl, rfl, rfl, rfl, rfl, rfl, rfl, rfl, rfl⟩

theorem Touch.trans {a b c : State} (h : Touch a b) (k : Touch b c) : Touch a c :=
  ⟨k.pending.trans h.pending, k.now.trans h.now, k.fuse.trans h.fuse, k.boot.trans h.boot, k.fe.trans h.fe, k.queues.trans h.queues,
    k.cmds.trans h.cmds, k.fences.trans h.fences, k.bindings.trans h.bindings, k.models.trans h.models, k.emap.trans h.emap, k.arr.trans h.arr,
    k.anl.trans h.anl, k.det.trans h.det, k.icu.trans h.icu, k.rng.trans h.rng, k.ing.trans h.ing, k.kw.trans h.kw,
    k.svc.trans h.svc, k.pwr.trans h.pwr, k.flash.trans h.flash⟩

theorem Touch.trans' {a b c : State} (k : Touch b c) (h : Touch a b) : Touch a c := h.trans k

theorem Touch.ite {a x y : State} {c : Prop} [Decidable c] (h : Touch a x) (k : Touch a y) :
    Touch a (if c then x else y) := by
  split
  · exact h
  · exact k

theorem Touch.ite2 {α : Type} {a : State} {x y : α × State} {c : Prop} [Decidable c] (h : Touch a x.2)
    (k : Touch a y.2) : Touch a (if c then x else y).2 := by
  split
  · exact h
  · exact k

theorem Touch.upd {a s : State} (h : Touch a s) {free : Nat} {sent : List Sent} {flash : Flash} {mem : MemSt} {host : HostSt} {eng : Tab Engine}
    {bb : BbSt} (k : flashRest flash = flashRest s.flash) :
    Touch a { s with free := free, sent := sent, flash := flash, mem := mem, host := host, eng := eng, bb := bb } :=
  ⟨h.pending, h.now, h.fuse, h.boot, h.fe, h.queues, h.cmds, h.fences, h.bindings, h.models,
    h.emap, h.arr, h.anl, h.det, h.icu, h.rng, h.ing, h.kw, h.svc, h.pwr, k.trans h.flash⟩

theorem Touch.pair {α : Type} {a s : State} {p : α × State} {x : α} (e : p = (x, s)) (h : Touch a p.2) : Touch a s := by
  subst e; exact h

theorem Touch.foldl {α : Type} {f : State → α → State} (h : ∀ st x, Touch st (f st x)) (l : List α) (s : State) :
    Touch s (l.foldl f s) := by
  induction l generalizing s with
  | nil => exact Touch.refl s
  | cons x l ih => exact (h s x).trans (ih (f s x))

theorem emit_touch (x : Sent) (s : State) : Touch s (emit x s) :=
  Touch.upd (Touch.refl s) rfl

theorem memFlag_touch (n : Nat) (s : State) : Touch s (memFlag n s) :=
  Touch.upd (Touch.refl s) rfl

theorem bbFlag_touch (n : Nat) (s : State) : Touch s (bbFlag n s) :=
  Touch.upd (Touch.refl s) rfl

theorem logSev_touch (sev : Nat) (code : Nat) (source : Nat) (data : List Nat) (s : State) :
    Touch s (logSev sev code source data s) := by
  unfold logSev
  repeat'
    first
      | with_reducible exact Touch.refl _
      | with_reducible apply Touch.trans' (bbFlag_touch ..)
      | extract_lets
      | with_reducible apply Touch.ite
      | split
      | with_reducible refine Touch.upd ?_ rfl

theorem logEvent_touch (code : Nat) (source : Nat) (data : List Nat) (s : State) : Touch s (logEvent code source data s) :=
  logSev_touch ..

theorem transFault_touch (ctx : Nat) (kind : Nat) (a : Nat) (write : Bool) (s : State) :
    Touch s (transFault ctx kind a write s) := by
  unfold transFault
  repeat'
    first
      | with_reducible exact Touch.refl _
      | with_reducible apply Touch.trans' (memFlag_touch ..)
      | extract_lets
      | with_reducible apply Touch.ite
      | split
      | with_reducible refine Touch.upd ?_ rfl

theorem setExt_touch (e : Nat) (x : ExtState) (s : State) : Touch s (setExt e x s) :=
  Touch.upd (Touch.refl s) rfl

theorem zeroCarafe_touch (pa : Nat) (len : Nat) (s : State) : Touch s (zeroCarafe pa len s) := by
  unfold zeroCarafe
  repeat'
    first
      | with_reducible exact Touch.refl _
      | with_reducible refine Touch.pair ‹_› ?_
      | with_reducible refine Touch.pair2 ‹_› ?_
      | extract_lets
      | with_reducible apply Touch.ite
      | with_reducible apply Touch.ite2
      | split
      | dsimp only
      | intro _
      | with_reducible refine Touch.upd ?_ rfl

theorem retireExtent_touch (e : Nat) (s : State) : Touch s (retireExtent e s) := by
  unfold retireExtent
  repeat'
    first
      | with_reducible exact Touch.refl _
      | with_reducible apply Touch.trans' (memFlag_touch ..)
      | with_reducible apply Touch.trans' (logEvent_touch ..)
      | with_reducible apply Touch.trans' (setExt_touch ..)
      | with_reducible apply Touch.trans' (zeroCarafe_touch ..)
      | extract_lets
      | split
      | with_reducible refine Touch.upd ?_ rfl

theorem markExtent_touch (e : Nat) (s : State) : Touch s (markExtent e s) := by
  unfold markExtent
  repeat'
    first
      | with_reducible exact Touch.refl _
      | with_reducible apply Touch.trans' (retireExtent_touch ..)
      | with_reducible apply Touch.ite
      | split
      | with_reducible refine Touch.upd ?_ rfl

theorem markAt_touch (pa : Nat) (s : State) : Touch s (markAt pa s) := by
  unfold markAt
  repeat'
    first
      | with_reducible exact Touch.refl _
      | with_reducible apply Touch.trans' (markExtent_touch ..)
      | split

theorem extentFreed_touch (e : Nat) (s : State) : Touch s (extentFreed e s) := by
  unfold extentFreed
  repeat'
    first
      | with_reducible exact Touch.refl _
      | with_reducible apply Touch.trans' (setExt_touch ..)
      | with_reducible apply Touch.trans' (zeroCarafe_touch ..)
      | with_reducible apply Touch.trans' (retireExtent_touch ..)
      | extract_lets
      | with_reducible apply Touch.ite

theorem releaseExtent_touch (s : State) (e : Nat) : Touch s (releaseExtent s e) :=
  setExt_touch ..

theorem carafeErr_touch (kind : Nat) (line : Nat) (symbols : Nat) (s : State) : Touch s (carafeErr kind line symbols s) := by
  unfold carafeErr
  repeat'
    first
      | with_reducible exact Touch.refl _
      | with_reducible apply Touch.trans' (memFlag_touch ..)
      | extract_lets
      | with_reducible apply Touch.ite
      | split
      | with_reducible refine Touch.upd ?_ rfl

theorem uncorrectable_touch (kind : Nat) (line : Nat) (reader : Nat) (s : State) :
    Touch s (uncorrectable kind line reader s) := by
  unfold uncorrectable
  repeat'
    first
      | with_reducible exact Touch.refl _
      | with_reducible apply Touch.trans' (logEvent_touch ..)
      | with_reducible apply Touch.trans' (markAt_touch ..)
      | with_reducible apply Touch.trans' (carafeErr_touch ..)
      | extract_lets
      | with_reducible apply Touch.ite
      | split
      | with_reducible refine Touch.upd ?_ rfl

theorem corrected_touch (line : Nat) (symbols : Nat) (s : State) : Touch s (corrected line symbols s) := by
  unfold corrected
  repeat'
    first
      | with_reducible exact Touch.refl _
      | with_reducible apply Touch.trans' (markAt_touch ..)
      | with_reducible apply Touch.trans' (carafeErr_touch ..)
      | extract_lets
      | with_reducible apply Touch.ite
      | split
      | with_reducible refine Touch.upd ?_ rfl

theorem corruptLine_touch (line : Nat) (s : State) : Touch s (corruptLine line s) := by
  unfold corruptLine
  extract_lets k
  generalize (List.range 64).map (fun i => Config.freeByte k (line * 64 + i)) = l
  refine Touch.upd (Touch.refl s) rfl

theorem readLine_touch (reader line : Nat) (s : State) : Touch s (readLine reader line s).2 := by
  have hf : Touch s { s with free := s.free + 1 } := Touch.upd (Touch.refl s) rfl
  unfold readLine
  extract_lets kind n
  split
  · exact carafeErr_touch ..
  split
  · exact uncorrectable_touch ..
  split
  · exact Touch.refl s
  split
  · exact corrected_touch ..
  split
  · exact uncorrectable_touch ..
  split
  · exact hf.trans (corruptLine_touch ..)
  · exact hf.trans (uncorrectable_touch ..)

theorem readLines_touch (reader : Nat) (x0 : List Nat) (s : State) : Touch s (readLines reader x0 s).2 := by
  fun_induction readLines reader x0 s <;> repeat'
    first
      | with_reducible exact Touch.refl _
      | with_reducible apply Touch.trans' ‹Touch _ _›
      | with_reducible exact Touch.refl _
      | with_reducible refine Touch.pair ‹_› ?_
      | with_reducible apply Touch.trans' (readLine_touch ..)

theorem carafeRead_touch (reader : Nat) (pa : Nat) (len : Nat) (s : State) : Touch s (carafeRead reader pa len s).2 := by
  unfold carafeRead
  repeat'
    first
      | with_reducible exact Touch.refl _
      | with_reducible refine Touch.pair ‹_› ?_
      | with_reducible apply Touch.trans' (readLines_touch ..)
      | with_reducible apply Touch.ite
      | with_reducible apply Touch.ite2
      | split
      | dsimp only
      | with_reducible refine Touch.upd ?_ rfl

theorem writeLine_touch (pa : Nat) (bs : List Byte) (s : State) : Touch s (writeLine pa bs s) := by
  unfold writeLine
  extract_lets line
  split
  · exact Touch.refl s
  split
  · exact Touch.upd (Touch.refl s) rfl
  split
  · rename_i t e
    have h : Touch s t := Touch.pair e (readLine_touch ..)
    exact Touch.upd h rfl
  · rename_i t e
    exact Touch.pair e (readLine_touch ..)

theorem carafeWriteN_touch (x0 : Nat) (x1 : Nat) (x2 : List Byte) (s : State) : Touch s (carafeWriteN x0 x1 x2 s) := by
  fun_induction carafeWriteN x0 x1 x2 s <;> repeat'
    first
      | with_reducible exact Touch.refl _
      | with_reducible apply Touch.trans' ‹Touch _ _›
      | with_reducible exact Touch.refl _
      | with_reducible refine Touch.pair ‹_› ?_
      | with_reducible apply Touch.trans' (writeLine_touch ..)

theorem carafeWrite_touch (pa : Nat) (bs : List Byte) (s : State) : Touch s (carafeWrite pa bs s) :=
  carafeWriteN_touch ..

theorem setEng_touch (n : Nat) (e : Engine) (s : State) : Touch s (setEng n e s) :=
  Touch.upd (Touch.refl s) rfl

theorem updEng_touch (n : Nat) (f : Engine → Engine) (s : State) : Touch s (updEng n f s) :=
  setEng_touch ..

theorem noteCe_touch (n : Nat) (k : Nat) (s : State) : Touch s (noteCe n k s) := by
  unfold noteCe
  repeat'
    first
      | with_reducible exact Touch.refl _
      | with_reducible refine Touch.pair ‹_› ?_
      | with_reducible refine Touch.pair2 ‹_› ?_
      | with_reducible apply Touch.trans' (updEng_touch ..)
      | extract_lets
      | with_reducible apply Touch.ite

theorem spadRead_touch (n : Nat) (off : Nat) (len : Nat) (s : State) : Touch s (spadRead n off len s).2 := by
  unfold spadRead
  repeat'
    first
      | with_reducible exact Touch.refl _
      | with_reducible refine Touch.pair ‹_› ?_
      | with_reducible refine Touch.pair2 ‹_› ?_
      | with_reducible apply Touch.trans' (noteCe_touch ..)
      | with_reducible apply Touch.trans' (updEng_touch ..)
      | extract_lets
      | with_reducible apply Touch.ite
      | with_reducible apply Touch.ite2
      | split

theorem spadStore_touch (p : Nat) (off : Nat) (bs : List Byte) (s : State) : Touch s (spadStore p off bs s) := by
  unfold spadStore
  repeat'
    first
      | with_reducible exact Touch.refl _
      | with_reducible refine Touch.pair ‹_› ?_
      | with_reducible refine Touch.pair2 ‹_› ?_
      | extract_lets
      | with_reducible apply Touch.ite
      | with_reducible apply Touch.ite2
      | split
      | dsimp only
      | intro _
      | with_reducible refine Touch.upd ?_ rfl

theorem portWrite_touch (net : Bool) (n : Nat) (off : Nat) (bs : List Byte) (s : State) :
    Touch s (portWrite net n off bs s) := by
  unfold portWrite
  repeat'
    first
      | with_reducible exact Touch.refl _
      | with_reducible refine Touch.pair ‹_› ?_
      | with_reducible refine Touch.pair2 ‹_› ?_
      | with_reducible apply Touch.trans' (spadStore_touch ..)
      | with_reducible apply Touch.trans' (updEng_touch ..)
      | extract_lets
      | with_reducible apply Touch.ite
      | with_reducible apply Touch.ite2
      | split
      | dsimp only
      | intro _
      | with_reducible refine Touch.upd ?_ rfl

theorem spadWrite_touch (n : Nat) (off : Nat) (bs : List Byte) (s : State) : Touch s (spadWrite n off bs s) := by
  unfold spadWrite
  repeat'
    first
      | with_reducible exact Touch.refl _
      | with_reducible refine Touch.pair ‹_› ?_
      | with_reducible refine Touch.pair2 ‹_› ?_
      | with_reducible apply Touch.trans' (portWrite_touch ..)

theorem zeroSpad_touch (p : Nat) (s : State) : Touch s (zeroSpad p s) :=
  Touch.upd (Touch.refl s) rfl

theorem zeroCluster_touch (c : Nat) (s : State) : Touch s (zeroCluster c s) :=
  Touch.upd (Touch.refl s) rfl

theorem clusterRead_touch (n : Nat) (c : Nat) (off : Nat) (len : Nat) (s : State) : Touch s (clusterRead n c off len s).2 := by
  unfold clusterRead
  repeat'
    first
      | with_reducible exact Touch.refl _
      | with_reducible refine Touch.pair ‹_› ?_
      | with_reducible refine Touch.pair2 ‹_› ?_
      | with_reducible apply Touch.trans' (noteCe_touch ..)
      | extract_lets
      | with_reducible apply Touch.ite
      | with_reducible apply Touch.ite2

theorem clusterWrite_touch (c off : Nat) (bs : List Byte) (s : State) : Touch s (clusterWrite c off bs s) :=
  Touch.upd (Touch.refl s) rfl

theorem openOnchip_touch (s : State) : Touch s (openOnchip s) := by
  unfold openOnchip
  repeat'
    first
      | with_reducible exact Touch.refl _
      | with_reducible refine Touch.pair ‹_› ?_
      | with_reducible refine Touch.pair2 ‹_› ?_
      | with_reducible apply Touch.trans' (zeroSpad_touch ..)
      | with_reducible apply Touch.trans' (zeroCluster_touch ..)
      | with_reducible refine Touch.trans' (Touch.foldl (fun _ _ => ?_) ..) ?_
      | extract_lets
      | with_reducible apply Touch.ite
      | with_reducible apply Touch.ite2
      | split
      | dsimp only
      | intro _
      | with_reducible refine Touch.upd ?_ rfl

theorem onchipSpads_touch (x0 : List Nat) (s : State) : Touch s (onchipSpads x0 s).2 := by
  fun_induction onchipSpads x0 s <;> repeat'
    first
      | with_reducible exact Touch.refl _
      | with_reducible refine Touch.pair ‹_› ?_
      | with_reducible refine Touch.pair2 ‹_› ?_
      | with_reducible apply Touch.trans' ‹Touch _ _›
      | with_reducible apply Touch.trans' (noteCe_touch ..)
      | with_reducible apply Touch.trans' (updEng_touch ..)

theorem onchipClusters_touch (x0 : List Nat) (s : State) : Touch s (onchipClusters x0 s).2 := by
  fun_induction onchipClusters x0 s <;> repeat'
    first
      | with_reducible exact Touch.refl _
      | with_reducible refine Touch.pair ‹_› ?_
      | with_reducible refine Touch.pair2 ‹_› ?_
      | with_reducible apply Touch.trans' ‹Touch _ _›
      | with_reducible apply Touch.trans' (noteCe_touch ..)

theorem readPlace_touch (reader : Nat) (p : Place) (len : Nat) (s : State) : Touch s (readPlace reader p len s).2 := by
  unfold readPlace
  repeat'
    first
      | with_reducible exact Touch.refl _
      | with_reducible refine Touch.pair ‹_› ?_
      | with_reducible refine Touch.pair2 ‹_› ?_
      | with_reducible apply Touch.trans' (carafeRead_touch ..)
      | with_reducible apply Touch.trans' (clusterRead_touch ..)
      | with_reducible apply Touch.trans' (spadRead_touch ..)
      | extract_lets
      | with_reducible apply Touch.ite
      | with_reducible apply Touch.ite2
      | split
      | with_reducible refine Touch.upd ?_ rfl

theorem writePlace_touch (p : Place) (bs : List Byte) (s : State) : Touch s (writePlace p bs s) := by
  unfold writePlace
  repeat'
    first
      | with_reducible exact Touch.refl _
      | with_reducible refine Touch.pair ‹_› ?_
      | with_reducible refine Touch.pair2 ‹_› ?_
      | with_reducible apply Touch.trans' (carafeWrite_touch ..)
      | with_reducible apply Touch.trans' (clusterWrite_touch ..)
      | with_reducible apply Touch.trans' (portWrite_touch ..)
      | extract_lets
      | with_reducible apply Touch.ite
      | with_reducible apply Touch.ite2
      | split

theorem readPlaces_touch (reader : Nat) (x0 : List (Place × Nat)) (s : State) : Touch s (readPlaces reader x0 s).2 := by
  fun_induction readPlaces reader x0 s <;> repeat'
    first
      | with_reducible exact Touch.refl _
      | with_reducible apply Touch.trans' ‹Touch _ _›
      | with_reducible exact Touch.refl _
      | with_reducible refine Touch.pair ‹_› ?_
      | with_reducible apply Touch.trans' (readPlace_touch ..)

theorem writePlaces_touch (x0 : List (Place × Nat)) (x1 : List Byte) (s : State) : Touch s (writePlaces x0 x1 s) := by
  fun_induction writePlaces x0 x1 s <;> repeat'
    first
      | with_reducible exact Touch.refl _
      | with_reducible apply Touch.trans' ‹Touch _ _›
      | with_reducible exact Touch.refl _
      | with_reducible refine Touch.pair ‹_› ?_
      | with_reducible apply Touch.trans' (writePlace_touch ..)

theorem devRead_touch (ctx : View) (a : Nat) (len : Nat) (s : State) : Touch s (devRead ctx a len s).2 := by
  unfold devRead
  repeat'
    first
      | with_reducible exact Touch.refl _
      | with_reducible refine Touch.pair ‹_› ?_
      | with_reducible apply Touch.trans' (transFault_touch ..)
      | with_reducible apply Touch.trans' (readPlaces_touch ..)
      | split

theorem devWrite_touch (ctx : View) (a : Nat) (bs : List Byte) (s : State) : Touch s (devWrite ctx a bs s).2 := by
  unfold devWrite
  repeat'
    first
      | with_reducible exact Touch.refl _
      | with_reducible refine Touch.pair ‹_› ?_
      | with_reducible apply Touch.trans' (transFault_touch ..)
      | with_reducible apply Touch.trans' (writePlaces_touch ..)
      | split

theorem startWipe_touch (cause : Nat) (s : State) : Touch s (startWipe cause s) := by
  unfold startWipe
  repeat'
    first
      | with_reducible exact Touch.refl _
      | with_reducible apply Touch.trans' (logSev_touch ..)
      | with_reducible apply Touch.ite
      | split
      | with_reducible refine Touch.upd ?_ rfl

theorem atsFetch_touch (page : Nat) (s : State) : Touch s (atsFetch page s) := by
  unfold atsFetch
  repeat'
    first
      | with_reducible exact Touch.refl _
      | with_reducible apply Touch.trans' (emit_touch ..)
      | extract_lets
      | with_reducible apply Touch.ite
      | split
      | with_reducible refine Touch.upd ?_ rfl

theorem atsCheck_touch (ats : Bool) (write : Bool) (a : Nat) (len : Nat) (s : State) :
    Touch s (atsCheck ats write a len s).2 := by
  unfold atsCheck
  repeat'
    first
      | with_reducible exact Touch.refl _
      | with_reducible refine Touch.pair ‹_› ?_
      | with_reducible apply Touch.trans' (atsFetch_touch ..)
      | with_reducible refine Touch.trans' (Touch.foldl (fun _ _ => ?_) ..) ?_
      | extract_lets
      | with_reducible apply Touch.ite
      | with_reducible apply Touch.ite2
      | split

theorem hostRead_touch (ats : Bool) (a : Nat) (len : Nat) (s : State) : Touch s (hostRead ats a len s).2 := by
  unfold hostRead
  repeat'
    first
      | with_reducible exact Touch.refl _
      | with_reducible refine Touch.pair ‹_› ?_
      | with_reducible apply Touch.trans' (atsCheck_touch ..)
      | with_reducible apply Touch.ite
      | with_reducible apply Touch.ite2
      | split

theorem hostWrite_touch (ats : Bool) (a : Nat) (bs : List Byte) (s : State) : Touch s (hostWrite ats a bs s).2 := by
  unfold hostWrite
  split
  · exact Touch.refl s
  split
  · rename_i e
    exact Touch.pair e (atsCheck_touch ..)
  · rename_i t e
    exact Touch.upd (Touch.pair e (atsCheck_touch ..)) rfl

theorem spaceRead_touch (host : Bool) (ats : Bool) (ctx : View) (a : Nat) (len : Nat) (s : State) :
    Touch s (spaceRead host ats ctx a len s).2 := by
  unfold spaceRead
  repeat'
    first
      | with_reducible exact Touch.refl _
      | with_reducible refine Touch.pair ‹_› ?_
      | with_reducible apply Touch.trans' (devRead_touch ..)
      | with_reducible apply Touch.trans' (hostRead_touch ..)
      | with_reducible apply Touch.ite
      | with_reducible apply Touch.ite2
      | split

theorem spaceWrite_touch (host : Bool) (ats : Bool) (ctx : View) (a : Nat) (bs : List Byte) (s : State) :
    Touch s (spaceWrite host ats ctx a bs s).2 := by
  unfold spaceWrite
  repeat'
    first
      | with_reducible exact Touch.refl _
      | with_reducible refine Touch.pair ‹_› ?_
      | with_reducible apply Touch.trans' (devWrite_touch ..)
      | with_reducible apply Touch.trans' (hostWrite_touch ..)
      | with_reducible apply Touch.ite
      | with_reducible apply Touch.ite2
      | split

theorem queWrite_touch (q : Nat) (a : Nat) (bs : List Byte) (s : State) : Touch s (queWrite q a bs s).2 := by
  unfold queWrite
  repeat'
    first
      | with_reducible exact Touch.refl _
      | with_reducible refine Touch.pair ‹_› ?_
      | with_reducible apply Touch.trans' (spaceWrite_touch ..)

theorem ringRead_touch (q : Nat) (a : Nat) (len : Nat) (s : State) : Touch s (ringRead q a len s).2 := by
  unfold ringRead
  repeat'
    first
      | with_reducible exact Touch.refl _
      | with_reducible refine Touch.pair ‹_› ?_
      | with_reducible apply Touch.trans' (spaceRead_touch ..)

theorem ringWrite_touch (q : Nat) (a : Nat) (bs : List Byte) (s : State) : Touch s (ringWrite q a bs s).2 := by
  unfold ringWrite
  repeat'
    first
      | with_reducible exact Touch.refl _
      | with_reducible refine Touch.pair ‹_› ?_
      | with_reducible apply Touch.trans' (spaceWrite_touch ..)

end Sys2Proof.Machine
end

