-- ==== Sys2Proof/WellFormed.lean ====
section
/-! DEFINITION. Which commands the outside can form: sizes and ranges that the manual fixes and the operand types do
not. -/

namespace Sys2Proof

/-- A register access inside BAR0 (R7) of a size and alignment of R9. -/
def Instr.accessOk (addr bytes : Nat) : Bool :=
  decide (addr + bytes ≤ 0x4000000) && ((bytes == 4 && addr % 4 == 0) || (bytes == 8 && addr % 8 == 0))

/-- A UDP payload is at most 65,507 bytes. -/
def Datagram.wf (d : Datagram) : Bool := decide (d.payload.length ≤ 65507)

/-- A flit's payload is 224 bytes (R473). -/
def Flit.wf (f : Flit) : Bool := f.payload.length == 224

/-- A request's body is at most 4,100 bytes (R489), and its signature 64 or none. -/
def SvcReq.wf (r : SvcReq) : Bool := decide (r.body.length ≤ 4100) && (r.sig.length == 0 || r.sig.length == 64)

/-- BOOT_READY comes within 600 ms (R499); a repair is in one of 48 banks of 72 engines or of 16 banks of 8 cluster
memories, of 8 columns (R267, R276, R277). -/
def BootFindings.wf (f : BootFindings) : Bool :=
  decide (f.readyMs.toNat ≤ 600) &&
    f.softRepairs.all fun r => (decide (r.1 < 3456) || decide (4096 ≤ r.1 ∧ r.1 < 4224)) && decide (r.2.toNat ≤ 8)

/-- An unpark's corrected symbols are one or two. -/
def Ecc.wf : Ecc → Bool
  | .corrected n => decide (1 ≤ n ∧ n ≤ 2)
  | _ => true

/-- Is the command one that the outside can form? -/
def Instr.wf : Instr → Bool
  | .boot f => f.wf
  | .registerWrite _ addr bytes value => Instr.accessOk addr bytes && (bytes == 8 || decide (value.toNat < 2 ^ 32))
  | .badRegisterAccess _ addr bytes => decide (1 ≤ bytes ∧ addr + bytes ≤ 0x4000000)
  | .lowWordRead _ addr bytes => Instr.accessOk addr bytes
  | .bar2Access off write len data =>
    decide (off + len ≤ 2 ^ 39) && (if write then data.length == len && decide (1 ≤ len ∧ len ≤ 512)
      else data.isEmpty && decide (1 ≤ len ∧ len ≤ 4096))
  | .atsInvalidation addr size => addr.toNat % 4096 == 0 && size % 4096 == 0 && decide (0 < size)
  | .commandStart _ place => decide place.Nodup
  | .unpark _ _ ecc => ecc.wf
  | .record port udp payload head => (head.datagram port udp payload).wf
  | .submit d => d.wf
  | .poll d => d.wf
  | .arpRequest _ _ _ _ => true
  | .neighborSolicitation _ _ _ _ => true
  | .dataFlit _ f _ => f.wf
  | .idleFlit _ f _ => f.wf
  | .retryReq _ f _ => f.wf
  | .getStatus r => r.wf
  | .setGlobalTimeout r => r.wf
  | .setCarafeCrypt r => r.wf
  | .setKwPolicy r => r.wf
  | .setEthAddr r => r.wf
  | .setJobKey r => r.wf
  | .installCert r => r.wf
  | .stageTable r => r.wf
  | .commitTable r => r.wf
  | .takeOwnership r => r.wf
  | .releaseOwnership r => r.wf
  | .decommission r => r.wf
  | .setOwnerLock r => r.wf
  | .clearOwnerLock r => r.wf
  | .updateBegin r => r.wf
  | .updateBlock r => r.wf
  | .updateCommit r => r.wf
  | .updateActivate r => r.wf
  | .updateCancel r => r.wf
  | .setConfirmWindow r => r.wf
  | .updateStatus r => r.wf
  | .bbRead r => r.wf
  | .unknownOp _ r => r.wf
  | .powerSample p => p.temps.length == 111
  | .copyStopsAtBoundary _ done => done % 4096 == 0
  | .powerOn => true
  | .resetN _ => true
  | .extentZeroed _ => true
  | .watchdog _ => true
  | .trialTimeout => true
  | .confirm _ => true
  | .abandon _ => true
  | .functionLevelReset => true
  | .perstN => true
  | .hostReadTimeout _ _ => true
  | .feDbSq _ _ => true
  | .feDbCq _ _ => true
  | .feAqEnable _ => true
  | .feAqDisable _ => true
  | .commandFetch _ => true
  | .admission => true
  | .commandTimeout _ => true
  | .drainTimeout _ => true
  | .copyDone _ => true
  | .queueCreate _ => true
  | .queueDestroy _ => true
  | .queueReset _ => true
  | .map _ => true
  | .unmap _ => true
  | .unmapComplete _ => true
  | .fenceSet _ => true
  | .peerBind _ => true
  | .modelLoad _ => true
  | .modelLoadEnd _ => true
  | .modelUnload _ => true
  | .runAnneal _ => true
  | .runProgram _ => true
  | .pause _ => true
  | .resume _ => true
  | .copy _ => true
  | .nop _ => true
  | .peerSignal _ => true
  | .abort _ => true
  | .turn _ => true
  | .sweepBoundary _ => true
  | .bestStateCopy _ _ => true
  | .engineFailure _ => true
  | .openGroup _ _ => true
  | .mma _ _ => true
  | .drain _ _ => true
  | .sample _ _ => true
  | .discard _ => true
  | .red _ => true
  | .vop _ => true
  | .dma _ => true
  | .atomf _ => true
  | .set _ => true
  | .add _ => true
  | .ld _ => true
  | .st _ => true
  | .br _ => true
  | .loop _ => true
  | .bar _ => true
  | .claim _ => true
  | .waitany _ _ => true
  | .time _ => true
  | .endProgram _ => true
  | .park _ _ => true
  | .refresh _ => true
  | .scrubRead _ => true
  | .wipeCheck _ => true
  | .tamper _ => true
  | .reasmTimeout _ _ => true
  | .frameCommit _ => true
  | .streamEnable _ _ => true
  | .streamStop _ _ => true
  | .pauseFrame _ => true
  | .badFcsFrame _ _ => true
  | .droppedDatagram d => d.wf
  | .signalDetect _ => true
  | .equalizeDone _ => true
  | .alignDone _ _ => true
  | .identifyDone _ _ => true
  | .trainingTimeout _ => true
  | .holdoffEnd _ => true
  | .retrain _ => true
  | .laneLoss _ => true
  | .retryTimeout _ => true
  | .alignmentFlit _ => true
  | .jobMessage _ => true
  | .jobReply _ => true
  | .peerSignalMessage _ => true
  | .signalAck _ => true
  | .checkpointMessage _ => true
  | .cmdEnd _ => true
  | .splitJoin _ => true
  | .splitSpins _ => true
  | .splitEnergy _ => true
  | .splitFail _ => true
  | .messageArrival _ => true
  | .levelAssert _ => true
  | .levelDrop _ => true
  | .delivery => true
  | .targetAwake _ => true
  | .targetSleep _ => true
  | .icuTClaim _ _ => true
  | .icuTComplete _ _ _ => true
  | .icuPendSet _ _ _ => true
  | .icuPendClr _ _ _ => true
  | .icuEnSet _ _ _ => true
  | .icuEnClr _ _ _ => true
  | .icuTCtrlWrite _ _ _ => true
  | .icuSrcCfgWrite _ _ _ => true
  | .blockPeriod _ => true
  | .startupTestEnd _ => true
  | .failRunClear => true
  | .rngRequest _ => true
  | .rngSwStatRead _ bytes => bytes == 4 || bytes == 8
  | .rngSwDataRead _ => true
  | .katEntry _ _ => true
  | .katExit _ _ => true
  | .katGo _ _ => true
  | .blotterWrite => true
  | .suppressed => true
  | .pointSet _ => true
  | .thermtrip _ _ _ => true
  | .brownout _ _ => true
  | .railRestored _ => true
  | .holdup => true
  | .holdupRelease => true
  | .lowVoltage => true
  | .lowVoltageRelease => true
  | .refclkLost => true
  | .refclkRestored => true
  | .domainWake _ => true
  | .domainFault _ => true
  | .domainOff _ => true
  | .idleOff _ => true
  | .spadWinWrite _ _ _ => true

end Sys2Proof
end

