-- ==== Sys2Proof/Tests/Slice0.lean ====
section
/-! SUPPORT. Small tests: well-formedness, values that the manual states, and for each statement with hypotheses concrete
states and operands that meet them, clause by clause. -/

namespace Sys2Proof.Tests

set_option Elab.async false

open Sys2Proof Sys2Proof.Machine

/-! ## Well-formedness: one ill-formed command per check -/

def noReq : SvcReq := ⟨0, 0, [], []⟩
def noFlit : Flit := ⟨0, 0, 0, false, false, 0, 0, 0, 0, 0, [], 0, 0⟩
def someone : NetAddr := ⟨1, false, 2, 3⟩

theorem test_wf_accepts : (Instr.wf (.registerWrite .bar0 0x01000008 4 1) && Instr.wf (.bar2Access 0 true 1 [5]) &&
    Instr.wf (.getStatus noReq) && Instr.wf (.dataFlit 0 { noFlit with payload := List.replicate 224 0 } 0)) = true := by
  decide +kernel

theorem test_wf_refuses_accesses : (Instr.wf (.registerWrite .bar0 2 4 0) || Instr.wf (.registerWrite .bar0 0 2 0) ||
    Instr.wf (.registerWrite .bar0 0x4000000 4 0) || Instr.wf (.registerWrite .bar0 0 4 (2 ^ 32)) ||
    Instr.wf (.badRegisterAccess true 0 0) || Instr.wf (.lowWordRead .bar0 4 8) || Instr.wf (.rngSwStatRead .bar0 2) ||
    Instr.wf (.bar2Access 0 true 2 [5]) || Instr.wf (.bar2Access 0 false 0 []) || Instr.wf (.bar2Access 0 false 1 [5]) ||
    Instr.wf (.bar2Access (2 ^ 39) false 1 []) || Instr.wf (.atsInvalidation 1 4096) || Instr.wf (.atsInvalidation 0 0)) =
    false := by decide +kernel

def noFrame : Datagram := { port := 0, src := someone, tags := [], dst := 9, payload := [] }

theorem test_wf_refuses_frames : (Datagram.wf { noFrame with payload := List.replicate 65508 0 } ||
    Instr.wf (.dataFlit 0 noFlit 0) || Instr.wf (.idleFlit 0 noFlit 0) || Instr.wf (.retryReq 0 noFlit 0)) = false := by
  decide +kernel

theorem test_wf_refuses_requests : (Instr.wf (.getStatus ⟨0, 0, List.replicate 4101 0, []⟩) ||
    Instr.wf (.updateBegin ⟨0, 0, [], [1]⟩) || Instr.wf (.unknownOp 9 ⟨0, 0, [], [1]⟩)) = false := by decide +kernel

theorem test_wf_refuses_events : (Instr.wf (.boot ⟨0, 0, [], 601, 0, 0⟩) || Instr.wf (.boot ⟨0, 0, [(3456, 0)], 0, 0, 0⟩) ||
    Instr.wf (.boot ⟨0, 0, [(0, 9)], 0, 0, 0⟩) || Instr.wf (.boot ⟨0, 0, [(4224, 0)], 0, 0, 0⟩) || Instr.wf (.commandStart ⟨1, 0⟩ [0, 0]) ||
    Instr.wf (.unpark 0 0 (.corrected 3)) || Instr.wf (.powerSample ⟨0, 0, [], 0⟩) ||
    Instr.wf (.copyStopsAtBoundary ⟨1, 0⟩ 4095)) = false := by decide +kernel

/-! ## States that the tests start from -/

/-- The part in service with nothing configured. -/
def up : State := { State.reset with boot := { BootSt.reset 0 0 with phase := .running } }

/-- The 64 bytes of a submission entry that names no fence (R302). -/
def raw (op seq p0 p1 p2 p3 : Nat) : List Byte :=
  leBytes 4 op ++ leBytes 4 seq ++ leBytes 4 0xFFFFFFFF ++ leBytes 4 p0 ++ leBytes 24 0 ++ leBytes 8 p1 ++ leBytes 8 p2 ++
  leBytes 8 p3

/-- A command of queue 1 in ADMITTING. -/
def cmd (op p0 p1 p2 p3 : Nat) : Cmd := { newCmd 1 (raw op 0 p0 p1 p2 p3) none with st := .admitting }
def k1 : Key := ⟨1, 0⟩

/-- A kernel queue of context 0 bound to PCIe, rings of 16 entries. -/
def queue1 : Queue := { Queue.init with st := .active, kind := 1, timeoutMs := 1000, drainMs := 10 }

/-- The part in service with queue 1 and host memory in reach. -/
def base : State := { up with queues := [(1, queue1)], host := { HostSt.reset with bme := true } }

/-- The same with some commands in flight. -/
def withCmds (cs : List Cmd) (s : State) : State := { s with cmds := cs }

/-- A run of one replica on model 0, and a program of one engine. -/
def aRun : Run :=
  { model := 0, sweepBlk := [], repBlk := [], ladder := [0x10000], seed := 1, ordered := true, digest := false
    interval := 0, settings := 0, started := true, resumed := false, spins := [0], best := [0], energy := [0]
    bestE := [0], bestSweep := [0], rung := [0], att := [0], acc := [0], rungAtt := [], rungAcc := [], fields := []
    valid := 0, lists := [], cls := 0, sweep := 0, turnNo := 0, done := 0, full := 0, delta := 0, conflicts := 0
    rounds := 0, stall := 0, runBest := 0, inertForced := false, odd := false, mismatch := false, trunc := false
    nonfinite := false, startTime := 0, endTime := 0, copies := [], stop := none, ckpts := 0, chain := 0
    inputDigest := 0, workspace := [], steps := 0, ls := LockStep.off, split := splitState [] [] }

/-- A program image of `count` instructions loaded at unit 0 of the scratchpad (R236), and a program of one engine. -/
def header (count : Nat) : List Byte := leBytes 4 1 ++ leBytes 4 count ++ List.replicate 56 0
def aProg (image : List Byte) : Prog :=
  { image := image, preloads := [], shares := [], reduces := [], params := [], seed := 1, ordered := true, digest := false
    settings := 0, engs := [0], claimNext := 0, claimCnt := [], ended := [], waitBar := [], waitShare := [], waitRed := []
    bars := 0, chain := 0, ckpts := 0, preDigest := 0, inBytes := [], outBytes := [], outSince := [], ls := LockStep.off }

/-- A descriptor of a SPARSE_I8 model of 128 spins without couplings at host addresses, one class, one replica (R82). -/
def desc : List Byte :=
  leBytes 4 1 ++ leBytes 4 3 ++ leBytes 4 128 ++ leBytes 4 1 ++ leBytes 4 1 ++ List.replicate 52 0 ++ leBytes 8 0x4000 ++
  List.replicate 48 0

/-- A model of 512 spins without couplings, one class of two active spins. -/
def aModel : Model :=
  { Model.init with st := .ready, desc := desc, form := 1, n := 512, rowCount := 512, colours := [(0, 2)], exts := [7] }

/-- Is something there, with a property? -/
def has {α : Type} (o : Option α) (p : α → Bool) : Bool := o.any p

/-- What a command leaves: the next state's view. -/
def after (o : Host.Outcome State Fault Refusal) (f : State → Bool) : Bool :=
  match o with
  | .next t => f t
  | _ => false

/-! ## The whole machine, resets, boot -/

theorem test_meets_StepRunsFrontCommand : after (step { up with pending := [.perstN, .delivery] }) (fun t =>
    t.pending == [.delivery] && after (exec .perstN { up with pending := [.delivery] }) (fun u => t == u)) = true := by
  decide +kernel

theorem test_meets_EveryStepAnswers : after (step up) (fun t => t == { up with now := 1 }) = true := by decide +kernel

/-- A byte written through BAR2 and read back; the memory stays canonical. -/
def oneByte : State := { up with pending := [.bar2Access 5 true 1 [9]] }

theorem test_meets_MemoryCanonicalKept : Memory.wf oneByte = true ∧
    after (step oneByte) (fun t => Memory.wf t && Tab.get 0 t.mem.carafe 5 == 9) = true := by decide +kernel

theorem test_meets_LifecycleKept : lifeInv up ∧ lifeInv { State.reset with fuse := { Fuses.shipped with decommissioned := true } } := by
  unfold lifeInv; decide

/-- A brown-out holds the part in reset. -/
def brown : State := { up with boot := { up.boot with phase := .held, brown := [1] } }

theorem test_meets_ResetCauses : (1000 ≤ 1000 ∧ up.boot.brown = []) ∧ (1000 ≤ 1000 ∧ brown.boot.brown ≠ []) ∧ 999 < 1000 ∧
    isUp up = true ∧ { up with boot := { up.boot with trial := true } }.boot.trial = true := by decide

/-- The key of RFC 6979, A.2.5. -/
def testKey : BitVec 512 := 0x992246d494c2a377519f7e2d0cb2f1f264bc2856e9e91aa499bcb80810fe0379b69ff2602e6269e66cfa613b92b849c0686d35c674eb61c9319d5a25bad4fe60
/-- A signed image with SVN 3 and no body. Its signature is (e, e) over the header's digest e, and the test part's vendor
key is R - G, R the point with abscissa e. -/
def imageBytes : List Byte :=
  beBytes 64 0x1e0a4fe604000201030000000000000001000000000000000000000000000000e3b0c44298fc1c149afbf4c8996fb92427ae41e4649b934ca495991b7852b855 ++
  beBytes 32 0xfee2dc9a9dc33868c488a2f973d534e05f866b4b632b5bdabea1b08e3cc1f268 ++
  beBytes 32 0xfee2dc9a9dc33868c488a2f973d534e05f866b4b632b5bdabea1b08e3cc1f268
def imageKey : BitVec 512 := 0xf2360021fd8cd6ce46eedab6bdad2b5a58d1df6277d75c9d8cb93f1b5be86495ea098b097790ab85d701d0460fb22ae09f2b6f062d68ab24e99d988136c83b5b
def signedSlot (st : SlotState) : Slot := { Slot.init with st := st, image := Tab.putList 0 [] 0 imageBytes }

/-- The part before BOOT with its two slots, as the newer copy of the directory has them. -/
def twoSlots (a b : Slot) : State :=
  { State.reset with
    fuse := { Fuses.shipped with vendorKey := imageKey }
    flash := { Flash.shipped with slot0 := a, slot1 := b, dirA := ⟨3, a.st, b.st⟩ } }

/-- RFC 6979, A.2.5: the signature of "sample" with SHA-256. -/
theorem test_ecdsa_rfc6979 : ecdsaVerify (keyBytes testKey) [0x73, 0x61, 0x6d, 0x70, 0x6c, 0x65]
    (beBytes 32 0xEFD48B2AACB6A8FD1140DD9CD45E81D69D2C877B56AAF991C34D0EA84EAF3716 ++
      beBytes 32 0xF7CB1C942D657C41D436C7A1B6E29F65F3E900DBB9AFF4064DC4AB2F843ACDA8) = true := by decide +kernel

/-- FIPS 180-4's example: SHA-256 of "abc". -/
theorem test_sha256_abc : beNat (sha256 [0x61, 0x62, 0x63]) =
    0xba7816bf8f01cfea414140de5dae2223b00361a396177a9cb410ff61f20015ad := by decide +kernel

/-- The part on trial of the image in slot 1. -/
def onTrial : State :=
  { twoSlots (signedSlot .active) (signedSlot .trial) with
    boot := { BootSt.reset 0 0 with phase := .running, trial := true, slot := 1, trained := 0xFFFFFF }
    rng := { RngSt.reset with st := .running, passed := true } }

theorem test_meets_ConfirmEndsTrial : onTrial.boot.trial = true ∧ trialHealthy onTrial = true ∧ onTrial.boot.slot < 2 ∧
    slotIn onTrial .active = some (1 - onTrial.boot.slot) ∧
    trialHealthy { onTrial with boot := { onTrial.boot with trained := 0xFFFFFE } } = false ∧
    trialHealthy { onTrial with rng := { onTrial.rng with passed := false } } = false ∧
    after (exec (.confirm .localPort) onTrial) (fun t => !t.boot.trial) = true := by decide +kernel

theorem test_meets_FusesOneWay : after (step { onTrial with pending := [.confirm .localPort] }) (fun t => t.fuse.svnMin == 3) =
    true := by decide +kernel

def trialNext : State := twoSlots (signedSlot .active) (signedSlot .pending)
def activeOnly : State := twoSlots (signedSlot .active) Slot.init
def watched : State := { activeOnly with boot := BootSt.reset 4 0, flash := { activeOnly.flash with watchdogs := [0, 5, 60000000000] } }
def leftOver : State := twoSlots (signedSlot .receiving) (signedSlot .trial)

theorem test_meets_BootOutcome_pending : trialNext.boot.phase = .booting ∧ (readDir trialNext).fuse.decommissioned = false ∧
    watchdogRule (readDir trialNext) = false ∧ slotIn (readDir trialNext) .pending = some 1 ∧
    bootable (readDir trialNext) (slotOf (readDir trialNext) 1) = true ∧ (readDir trialNext).rng.st ≠ .fatal ∧
    (readDir trialNext).flash.lastOnline = 0 ∧ (readDir trialNext).flash.table = [] ∧
    (readDir trialNext).boot.tableFails ≤ (readDir trialNext).flash.lastFails := by
  decide +kernel

theorem test_meets_BootOutcome_active : watchdogRule (readDir activeOnly) = false ∧
    slotIn (readDir activeOnly) .pending = none ∧ slotIn (readDir activeOnly) .active = some 0 ∧
    bootable (readDir activeOnly) (slotOf (readDir activeOnly) 0) = true := by decide +kernel

theorem test_meets_BootOutcome_watchdogs : (readDir watched).fuse.decommissioned = false ∧
    watchdogRule (readDir watched) = true ∧
    { Fuses.shipped with decommissioned := true }.decommissioned = true ∧
    (slotOf (readDir leftOver) 0).st = .receiving ∧ (slotOf (readDir leftOver) 1).st = .trial := by decide +kernel

/-- A PENDING image that does not verify beside an ACTIVE one that does; a BACKUP image alone. -/
def badPending : State := twoSlots (signedSlot .active) { Slot.init with st := .pending }
def backupOnly : State := twoSlots (signedSlot .backup) Slot.init

theorem test_meets_BootOutcome_fallbacks : watchdogRule (readDir badPending) = false ∧
    slotIn (readDir badPending) .pending = some 1 ∧ bootable (readDir badPending) (slotOf (readDir badPending) 1) = false ∧
    slotIn (readDir badPending) .active = some 0 ∧ bootable (readDir badPending) (slotOf (readDir badPending) 0) = true ∧
    watchdogRule (readDir backupOnly) = false ∧ slotIn (readDir backupOnly) .backup = some 0 ∧
    bootable (readDir backupOnly) (slotOf (readDir backupOnly) 0) = true ∧
    (slotOf (readDir backupOnly) 0).st = .backup ∧ (slotOf (readDir backupOnly) 1).st = .empty := by decide +kernel

/-- With no image to start: the part of State.reset. -/
theorem test_meets_BootOutcome_none : ∀ i, bootable (readDir State.reset) (slotOf (readDir State.reset) i) = true →
    (slotOf (readDir State.reset) i).st ≠ .pending ∧ (slotOf (readDir State.reset) i).st ≠ .active ∧
    (slotOf (readDir State.reset) i).st ≠ .backup := by
  intro i h
  have h0 : bootable (readDir State.reset) (slotOf (readDir State.reset) 0) = false := by decide +kernel
  by_cases hi : i = 0
  · subst hi; rw [h0] at h; cases h
  · simp [slotOf, hi, readDir, newestDir, State.reset, Flash.shipped, Slot.init]

/-! ## Registers, BAR2, PCIe -/

/-- FE_CMDS at 2^32 + 7. -/
def manyCmds : State := { up with fe := { FeSt.reset with cmds := 0x100000007 } }

theorem test_meets_RegisterAccess : isUp up = true ∧ regAligned 2 4 = false ∧ regAligned 4 8 = false ∧
    regPeek .bar0 up 0x3FFFFFC = none ∧ regLow 0x01000044 = true ∧ pathUp manyCmds .localPort = true ∧
    regPeek .bar0 manyCmds 0x01000044 = some 7 ∧ regPeek .bar0 manyCmds 0x01000048 = some 1 ∧
    after (exec (.lowWordRead .bar0 0x01000044 4) manyCmds)
      (fun t => Tab.get none t.fe.latch (latchKey .bar0 0x01000048) == some 1) = true := by decide +kernel

/-- BAR2 over the firmware extents, which it may not reach. -/
def bar2High : State := { up with mem := { MemSt.reset with bar2Base := fwExt * extBytes } }

theorem test_meets_Bar2AccessPlace : (2 ^ 30 - 1 + 1 ≤ 2 ^ up.host.bar2Log ∧
      bar2Places up true (bar2Base up + (2 ^ 30 - 1)) 1 = some [(.carafe (2 ^ 30 - 1), 1)]) ∧
    bar2Places bar2High true (bar2Base bar2High) 1 = none ∧ bar2Places bar2High false (bar2Base bar2High) 1 = none ∧
    (readPlaces 1 [(.carafe 0, 1)] up).1.isOk = true := by decide +kernel

theorem test_meets_FunctionReset : isUp base = true ∧ base.cmds = [] ∧ pcieQueues base = [1] ∧
    after (exec .functionLevelReset base) (fun t => t.fe.flogCount == 1 && (que t 1).st == .unused) = true := by decide +kernel

/-! ## Front end -/

/-- Queue 1 with the head at 0 and the completion tail at 2. -/
def rings : State := { base with queues := [(1, { queue1 with cqTail := 2 })] }

/-- T equal to head + ring size is accepted, one later overruns; H at the completion tail is accepted, one later not. -/
theorem test_meets_Doorbells : (que rings 1).onPcie = true ∧ (que rings 1).st = .active ∧ (que rings 2).st ≠ .active ∧
    after (exec (.feDbSq 1 16) rings) (fun t => (que t 1).sqTail == 16 && (que t 1).st == .active) = true ∧
    after (exec (.feDbSq 1 17) rings) (fun t => (que t 1).st == .error && (que t 1).cause == 3) = true ∧
    after (exec (.feDbSq 1 0) rings) (fun t => t.fe.dupDoorbell == 1) = true ∧
    after (exec (.feDbCq 1 2) rings) (fun t => (que t 1).cqHead == 2) = true ∧
    after (exec (.feDbCq 1 3) rings) (fun t => t.fe.dupDoorbell == 1 && (que t 1).cqHead == 0) = true ∧
    after (exec (.feDbSq 2 1) rings) (fun t => t.fe.dbIgnored == 1) = true := by decide +kernel

/-- An admin command in flight. -/
def adminBusy : State := withCmds [{ cmd 0x20 0 0 0 0 with key := ⟨0, 3⟩ }] base

theorem test_meets_AdminQueueEnable : isUp base = true ∧ base.fe.aqCtrl.getLsbD 31 = false ∧
    { base.fe with aqCtrl := 0x80000000 }.aqCtrl.getLsbD 31 = true ∧ (adminBusy.cmds.any fun c => c.key.q == 0) = true ∧
    after (exec (.feAqEnable 0) base) (fun t => t.fe.aqCtrl.getLsbD 31 && (que t 0).sqLog == 12) = true := by decide +kernel

/-- Queue 1 expects SEQ `e`, one entry is announced, and host memory holds a NOP of SEQ 1 (R302). -/
def announced (e : Word) (bytes : List Byte) : State :=
  { base with queues := [(1, { queue1 with sqTail := 1, expSeq := e })]
              host := { base.host with mem := Tab.putList 0 [] 0 bytes } }
def fetches (s : State) : Bool := isUp s && mayFetch s 1 && (ringRead 1 0 64 s).1.isOk

theorem test_meets_CommandFetchAndChecks : fetches (announced 1 (raw 0x20 1 0 0 0 0)) = true ∧
    after (exec (.commandFetch 1) (announced 1 (raw 0x20 1 0 0 0 0))) (fun t => t.cmds.length == 1) = true ∧
    after (exec (.commandFetch 1) (announced 1 (raw 0xFF 1 0 0 0 0)))
      (fun t => t.cmds.isEmpty && Tab.get 0 t.host.mem 2 == 0x40) = true ∧
    after (exec (.commandFetch 1) (announced 2 (raw 0x20 1 0 0 0 0))) (fun t => t.fe.dupCmd == 1) = true ∧
    after (exec (.commandFetch 1) (announced 0 (raw 0x20 1 0 0 0 0))) (fun t => (que t 1).cause == 2) = true := by
  decide +kernel

/-- A fetch with bus mastering off; and an entry that waits for a fence with ERR. -/
def unread : State := { announced 1 [] with host := HostSt.reset }
def waitsErr : List Byte := patchAt (raw 0x20 1 0 0 0 0) 8 [5, 0]

theorem test_meets_CommandFetchAndChecks_failures : mayFetch unread 1 = true ∧ (ringRead 1 0 64 unread).1.isOk = false ∧
    after (exec (.commandFetch 1) { announced 1 waitsErr with fences := [(5, { Fence.init with err := true })] })
      (fun t => t.fe.cmds == 1 && t.cmds.isEmpty) = true := by decide +kernel

theorem test_meets_CommandFetchAndChecks_detail : checkDetail base (cmd 0xFF 0 0 0 0) = some 0x40 ∧
    checkDetail base (cmd 0x20 1 0 0 0) = some 0x41 ∧ checkDetail base (cmd 1 0 0 0 0) = some 0x42 ∧
    checkDetail base { cmd 0x20 0 0 0 0 with raw := patchAt (raw 0x20 0 0 0 0 0) 8 [0, 16] } = some 0x43 ∧
    checkDetail base { cmd 0x20 0 0 0 0 with raw := patchAt (raw 0x20 0 0 0 0 0) 10 [0, 16] } = some 0x43 ∧
    checkDetail { base with queues := [(1, { queue1 with port := 4 })] } (cmd 0x18 1 0 0 64) = some 0x44 ∧
    checkDetail base { cmd 0x23 0 0 0 0 with raw := patchAt (raw 0x23 0 0 0 0 0) 8 [0, 0] } = some 0x4F ∧
    checkDetail base (cmd 0x20 0 0 0 0) = none := by decide +kernel

/-- A command in WAITING, free to go; with a patch list at an odd address, and at one that cannot be read. -/
def waiting (c : Cmd) (s : State) : State := withCmds [{ c with st := .waiting }] s
def patched (a : Nat) : Cmd := { cmd 0x20 0 0 0 0 with raw := patchAt (raw 0x20 0 0 0 0 0) 32 (leBytes 8 a) }

theorem test_meets_AdmissionAndStart_next : nextToAdmit base = none ∧
    (nextToAdmit (waiting (cmd 0x20 0 0 0 0) base)).isSome = true ∧
    after (exec .admission (waiting (cmd 0x20 0 0 0 0) base)) (fun t => t.cmds.all fun c => c.st == .admitting) = true ∧
    after (exec .admission (waiting (patched 1) base)) (fun t => t.cmds.isEmpty && Tab.get 0 t.host.mem 2 == 0x45) = true ∧
    after (exec .admission (waiting (patched 64) up)) (fun t => t.cmds.isEmpty && t.fe.cmds == 1) = true := by
  decide +kernel

/-- A READY program on logical engine 0, served by physical engine 0, with both its domains on or off. -/
def readyProg (d : DomState) : State :=
  { withCmds [{ cmd 0x13 0 0 0 0 with st := .ready, engines := [0], work := .program (aProg (header 1)) }] base with
    emap := { MapSt.reset with phys := [(0, 1)] }
    pwr := { PwrSt.reset with dom := if d = .off then [] else [(0, d), (72, d)] } }

theorem test_meets_AdmissionAndStart_start : isUp (readyProg .on) = true ∧ (findCmd (readyProg .on) k1).isSome = true ∧
    ((readyProg .on).cmds.all fun c => mayStart (readyProg .on) c (startEngines (readyProg .on) c [])) = true ∧
    domainsOf (readyProg .on) [0] = [0, 72] ∧ domState (readyProg .on) 72 = .on ∧ domState (readyProg .off) 0 = .off ∧
    Tab.wf .off (readyProg .off).pwr.dom = true ∧ mayStart base (cmd 0x13 0 0 0 0) [] = false ∧
    after (exec (.commandStart k1 []) (readyProg .on)) (fun t => (eng t 0).cmd == some k1) = true ∧
    after (exec (.commandStart k1 []) (readyProg .off)) (fun t => domState t 0 == .waking) = true := by decide +kernel

/-- A domain on its way, one failed, one asked to go off; a program whose engine preloads, and one that has no engine. -/
theorem test_meets_AdmissionAndStart_domains : domState (readyProg .waking) 0 = .waking ∧
    domState (readyProg .failed) 0 = .failed ∧
    (let s := readyProg .on; let t := { s with pwr := { s.pwr with offReq := [0] } }
     domState t 0 = .on ∧ 0 ∈ t.pwr.offReq ∧ (t.cmds.all fun c => mayStart t c (startEngines t c [])) = true ∧
     after (exec (.commandStart k1 []) t) (fun u => u.pwr.wakeAfter == [0]) = true) ∧
    preloading { base with eng := [(0, { Engine.init with cmd := some k1, pst := .preload })] } (aProg (header 1)) = true ∧
    preloading base (aProg (header 1)) = false := by decide +kernel

/-- A command at work. -/
def atWork (op : Nat) (w : Work) : Cmd := { cmd op 0 0 0 64 with st := .running, work := w, engines := [0] }
def working (op : Nat) (w : Work) : State := withCmds [atWork op w] base

theorem test_meets_Timeouts_command : (findCmd (working 0x18 .copy) k1).isSome = true ∧
    (findCmd (working 0x13 (.program (aProg (header 1)))) k1).isSome = true ∧ aRun.split.devices ≤ 1 ∧
    after (exec (.commandTimeout k1) (working 0x12 (.anneal aRun))) (fun t => t.fe.status == 32 && t.cmds.isEmpty) = true ∧
    after (exec (.commandTimeout k1) (working 0x21 (.peerSignal 1))) (fun t => t.fe.status == 0 && t.cmds.isEmpty) = true ∧
    after (exec (.commandTimeout k1) (waiting (cmd 0x20 0 0 0 0) base)) (fun t => t.cmds.length == 1) = true := by
  decide +kernel

/-- A split run of two devices that is device 0 and still waits for device 1 to join. -/
def lonely : Run := { aRun with split := { aRun.split with devices := 2, complete := false } }

/-- A copy of a queue under destruction; one that an ABORT of queue 2 stopped; a copy that the destroy alone stopped. -/
def draining : State := { working 0x18 .copy with queues := [(1, { queue1 with st := .destroying })] }
def aborted : State :=
  withCmds [{ atWork 0x18 .copy with decided := some (mkDecision 9 0 3) },
            { cmd 0x23 0 0 0 0 with key := ⟨2, 9⟩, work := .target k1 false, decided := some (mkDecision 0 0 0) }] base
def destroyed : State := { draining with cmds := [{ atWork 0x18 .copy with decided := some (mkDecision 9 1 0) }] }
/-- A paused run short of its boundary, and a run at its stop. -/
def pausing : Cmd :=
  { atWork 0x12 (.anneal aRun) with pause := some ⟨0, 1, 7⟩, decided := some (mkDecision 0x0C 1 0) }
def stopped : Cmd := atWork 0x12 (.anneal { aRun with stop := some (0, 0) })

theorem test_meets_Timeouts_drain : missingPeer base aModel lonely = some 1 ∧
    has (findCmd draining k1) (fun c => c.st == .running && c.decided.isNone && !c.atStop) = true ∧
    (que draining 1).st = .destroying ∧ (que aborted 1).st ≠ .destroying ∧ abortWon aborted k1 = true ∧
    has (findCmd aborted k1) (fun c => has c.decided (fun d => d.status == 9 && d.value == 3)) = true ∧
    has (findCmd destroyed k1) (fun c => has c.decided (fun d => d.status == 9 && d.value == 0)) = true ∧
    abortWon destroyed k1 = false ∧ pausing.pause.isSome = true ∧ pausing.decided.isSome = true ∧ pausing.atStop = false ∧
    stopped.atStop = true ∧ mkDecision 0 0 0 ≠ mkDecision 9 0 0 := by decide +kernel

/-- A host read outstanding: of a copy, and of a load whose couplings' pointers lie in host memory. -/
theorem test_meets_Timeouts_read : readsHost base (cmd 0x20 0 0 0 0) = true ∧ readsHost base (atWork 0x18 .copy) = false ∧
    readsHost base { cmd 0x18 1 0 0 64 with st := .running, work := .copy } = true := by decide +kernel

/-- A completion of a command whose SIGNAL_FENCE is 5 with SIGNAL_VALUE 9 raises the fence to 9 (R323). -/
def signals : Cmd := { cmd 0x20 0 0 0 0 with raw := patchAt (patchAt (raw 0x20 0 0 0 0 0) 10 [5, 0]) 24 [9] }
def signalling : State := { withCmds [signals] base with fences := [(5, { Fence.init with val := 4 })] }

theorem test_meets_CommandCompletes : (findCmd signalling k1).isSome = true ∧ (que signalling 1).st = .active ∧
    signals.signalFence = 5 ∧ signals.work = .none ∧
    (fnc (finishOne k1 (mkDecision 0 0 0) signalling).2 5).val = 9 ∧
    (fnc (finishOne k1 (mkDecision 1 0 0) signalling).2 5).err = true ∧
    (ringWrite 1 0 (recordBytes 0x20 0 true (mkDecision 0 0 0)) signalling).1.isOk = true := by decide +kernel

/-- A load whose model is in LOADING, its report's address in reach or not; a program's engine; a run stopped before. -/
def loadCmd : Cmd := { cmd 0x10 0 0 0 0 with st := .running, work := .load 0 }
def endsLoad (bme : Bool) : State :=
  { withCmds [loadCmd] base with models := [(0, { Model.init with st := .loading })], host := { base.host with bme := bme } }

theorem test_meets_CommandCompletes_load : (mdl (endsLoad true) 0).st = .loading ∧
    ([true, false].all fun b => (cmdWrite loadCmd 0 (List.replicate 64 0) (dropModel 0 (endsLoad b))).1.isOk == b) = true ∧
    (endLoad loadCmd (mkDecision 9 0 3) (endsLoad true)).1.status = 9 ∧
    (endLoad loadCmd (mkDecision 9 0 3) (endsLoad false)).1.status = 5 := by decide +kernel

/-- The views that faults and failures start from. -/
def faulting (d : Option Decision) : State :=
  { withCmds [{ atWork 0x13 (.program (aProg (header 4))) with decided := d }] base with
    eng := [(0, { Engine.init with cmd := some k1, areg := [(1, 4)] })] }
def faultView : Ectx := ⟨atWork 0x13 (.program (aProg (header 4))), aProg (header 4), 0, 0, eng (faulting none) 0, insOf [], 0, false⟩

theorem test_meets_CommandCompletes_fault : (eng (faulting none) 0).cmd = some k1 ∧ (findCmd (faulting none) k1).isSome = true ∧
    faultView.c.key = k1 ∧ faultView.c.decided = none ∧ stopped.decided = none ∧ pausing.pause = some ⟨0, 1, 7⟩ ∧
    has (findCmd aborted k1) (fun c => c.pause.isNone && c.decided == some (mkDecision 9 0 3)) = true ∧
    (eng (progFault faultView 0x0F (faulting none)) 0).fault = 0x0F ∧
    (eng (progFault faultView 0x10 (faulting none)) 0).pfault = 0x10 ∧
    (mkDecision 4 1 0).status ≠ 3 ∧ (mkDecision 4 1 0).status ≠ 5 ∧ (mkDecision 5 0x10 0).status = 5 ∧
    (eng (killCmd faultView.c (mkDecision 8 0 0) (faulting none)) 0).zeroFirst = true := by decide +kernel

/-- An entry of queue 1 in its ring, whose record goes there. -/
theorem test_meets_CommandCompletes_record : (que base 1).diverted = false ∧ (que base 1).port = 0 ∧ signals.irq = false ∧
    (ringWrite 1 0 (recordBytes 0x20 0 true (mkDecision 0 0 0)) base).1.isOk = true := by decide +kernel

/-! ## Ring commands -/

/-- A queue descriptor (R289): kernel queue 3, rings at 4 KiB addresses, SEQ 7 expected. -/
def queueDesc : List Byte :=
  leBytes 4 (3 + 2 ^ 16) ++ leBytes 4 (0xFFFF * 2 ^ 16) ++ leBytes 8 0x1000 ++ leBytes 8 0x2000 ++ leBytes 4 0x0404 ++
  leBytes 4 7 ++ leBytes 4 1 ++ leBytes 4 1 ++ leBytes 24 0

/-- The admin queue with a command in ADMITTING. -/
def adminCmd (op p0 p1 p2 p3 : Nat) : Cmd := { cmd op p0 p1 p2 p3 with key := ⟨0, 0⟩ }
def admin0 : State := { base with queues := [(0, { queue1 with kind := 0 }), (1, queue1)] }
def admitted (c : Cmd) : State := withCmds [c] admin0
def k0 : Key := ⟨0, 0⟩
def creating (d : List Byte) : Cmd := (adminCmd 1 0 0 0 0).setBlock blkQueue d

theorem test_meets_QueueCommands_create : (admitting (admitted (creating queueDesc)) k0 1).isSome = true ∧
    queueDescOk (admitted (creating queueDesc)) queueDesc = true ∧ qdQueue queueDesc = 3 ∧
    (que (admitted (creating queueDesc)) 3).st = .unused ∧
    queueDescOk admin0 (patchAt queueDesc 0x18 [3]) = false ∧ (que (admitted (creating (patchAt queueDesc 0 [1]))) 1).st ≠ .unused ∧
    after (exec (.queueCreate k0) (admitted (creating queueDesc))) (fun t => (que t 3).expSeq == 7) = true := by decide +kernel

/-- QUEUE_RESET and QUEUE_DESTROY of queue 1: idle; with a command in flight; of queue 0. -/
def resets (q : Nat) (cs : List Cmd) : State := withCmds (adminCmd 3 q 9 0 0 :: cs) admin0
def destroys (q : Nat) (a : Nat) : State := withCmds [adminCmd 2 q a 0 0] admin0

theorem test_meets_QueueCommands_reset : (admitting (resets 1 []) k0 3).isSome = true ∧ (que (resets 1 []) 1).st = .active ∧
    ((resets 1 []).cmds.all fun d => d.key.q != 1) = true ∧ ((resets 1 [cmd 0x20 0 0 0 0]).cmds.any fun d => d.key.q == 1) = true ∧
    (que (resets 5 []) 5).st = .unused ∧
    after (exec (.queueReset k0) (resets 1 [])) (fun t => (que t 1).expSeq == 9) = true := by decide +kernel

theorem test_meets_QueueCommands_destroy : (admitting (destroys 1 0) k0 2).isSome = true ∧ (que (destroys 1 0) 1).st = .active ∧
    ((destroys 1 0).cmds.all fun d => d.key.q != 1 && d.work != .destroy) = true ∧ (que (destroys 5 0) 5).st = .unused ∧
    (cmdWrite (adminCmd 2 1 0 0 0) 0 (destructionBytes 1 Tally.zero) (destroys 1 0)).1.isOk = true ∧
    (cmdWrite (adminCmd 2 1 0 0 0) 0 (destructionBytes 1 Tally.zero) { destroys 1 0 with host := HostSt.reset }).1.isOk = false ∧
    after (exec (.queueDestroy k0) (destroys 1 0)) (fun t => (que t 1).st == .unused && t.cmds.isEmpty) = true := by
  decide +kernel

/-- MAP of one free extent at the last virtual extent of context 1 (ALLOC); with none free; one past the end. -/
def maps (first : Nat) (ext : Tab ExtState) : State :=
  { withCmds [adminCmd 4 0x701 (first + 2 ^ 32) 0 0] admin0 with mem := { MemSt.reset with ext := ext } }
/-- The same with extent 5 listed in its block. -/
def mapsListed (x : ExtState) : State :=
  { withCmds [(adminCmd 4 0x301 (0 + 2 ^ 32) 0 0).setBlock blkMap (leBytes 4 5)] admin0 with
    mem := { MemSt.reset with ext := [(5, x)] } }

theorem test_meets_MapAndUnmap_map : (admitting (maps 8191 [(5, .free)]) k0 4).isSome = true ∧ 8191 + 1 ≤ 8192 ∧
    8192 < 8192 + 1 ∧
    (Tab.get VEntry.init (maps 8191 [(5, .free)]).mem.vmap (8192 + 8191)).valid = false ∧
    (freeExtents (maps 8191 [(5, .free)])).take 1 = [5] ∧ extState (maps 8191 [(5, .free)]) 5 = .free ∧
    extState (mapsListed .removed) 5 = .removed ∧ (freeExtents (maps 0 [])).length < 1 ∧
    after (exec (.map k0) (maps 8191 [(5, .free)])) (fun t =>
      Tab.get VEntry.init t.mem.vmap 16383 == ⟨true, true, true, 5⟩ && extState t 5 == .mapped) = true ∧
    after (exec (.map k0) (mapsListed .removed)) (fun t => extState t 5 == .removed && t.mem.vmap.isEmpty) = true ∧
    ([ExtState.releasing, .unzeroed].all fun x => unloadsExtent (mapsListed x) 5 == false &&
      after (exec (.map k0) (mapsListed x)) (fun t => extState t 5 == .mapped)) = true := by
  decide +kernel

/-- UNMAP of that extent, and its completion with and without a command to wait for. -/
def unmaps (v : Tab VEntry) : State :=
  { withCmds [adminCmd 5 0x101 (0 + 2 ^ 32) 0 0] admin0 with mem := { MemSt.reset with ext := [(5, .mapped)], vmap := v } }
def entry5 : Tab VEntry := [(8192, ⟨true, true, true, 5⟩)]
def unmapping (cs : List Cmd) : State :=
  { withCmds ({ adminCmd 5 0x101 (0 + 2 ^ 32) 0 0 with
      st := .running, work := .unmap [5] [k1] 1, decided := some (mkDecision 0 0 0) } :: cs) admin0 with
    mem := { MemSt.reset with ext := [(5, .mapped)] } }

theorem test_meets_MapAndUnmap_unmap : (admitting (unmaps entry5) k0 5).isSome = true ∧
    (Tab.get VEntry.init (unmaps entry5).mem.vmap 8192).valid = true ∧
    (Tab.get VEntry.init (unmaps []).mem.vmap 8192).valid = false ∧
    (running (unmapping []) k0).isSome = true ∧ findCmd (unmapping []) k1 = none ∧
    (findCmd (unmapping [cmd 0x20 0 0 0 0]) k1).isSome = true ∧
    isMapped { unmapping [] with cmds := [] } 5 = false ∧
    after (exec (.unmap k0) (unmaps entry5)) (fun t => t.mem.vmap.isEmpty && extState t 5 == .mapped) = true ∧
    after (exec (.unmapComplete k0) (unmapping [])) (fun t => t.cmds.isEmpty && extState t 5 == .free) = true := by
  decide +kernel

theorem test_meets_MapExtentsEntries : Tab.get VEntry.init (mapExtents 1 true false 3 [5, 6] base).mem.vmap (8192 + 4) =
    ⟨true, true, false, 6⟩ := by decide +kernel

/-- The same over an extent that is still to be zeroed. -/
theorem test_meets_MapExtentsEntries_zeroed : extState (mapsListed .releasing) 5 = .releasing ∧
    unloadsExtent (mapsListed .releasing) 5 = false ∧ (mapsListed .releasing).mem.locked = false ∧
    extState (mapsListed .unzeroed) 5 = .unzeroed ∧ (carafePhys base (5 * extBytes) + extBytes ≤ 6 * extBytes) ∧
    extState (mapExtents 1 true false 0 [5] (mapsListed .releasing)) 5 = .mapped := by decide +kernel

/-- Binding 1 bound to a link. -/
def bound : State :=
  { admin0 with bindings := [(1, { Binding.init with bound := true, link := 2 })] }

theorem test_meets_FenceAndPeerCommands : (admitting (admitted (adminCmd 6 (5 + 2 ^ 21) 9 0 0)) k0 6).isSome = true ∧
    (admitting (admitted (adminCmd 7 1 0 0 0)) k0 7).isSome = true ∧ (1 : Nat).testBit 6 = false ∧ (65 : Nat).testBit 6 = true ∧
    (admitting (withCmds [cmd 0x20 0 0 0 0] base) k1 0x20).isSome = true ∧
    (admitting (withCmds [cmd 0x21 1 0 0 0] bound) k1 0x21).isSome = true ∧ (bnd bound 1).bound = true ∧
    (bnd bound 0).bound = false ∧
    after (exec (.fenceSet k0) (admitted (adminCmd 6 (5 + 2 ^ 21) 9 0 0))) (fun t => (fnc t 5).val == 9 && (fnc t 5).peerOk) = true ∧
    after (exec (.peerSignal k1) (withCmds [cmd 0x21 1 0 0 0] bound)) (fun t => (bnd t 1).sent == 1) = true := by
  decide +kernel

/-- Binding 1 bound to the peer that link 2 has reached, and the supply low. -/
def liveBound : State :=
  { withCmds [cmd 0x21 (1 + 5 * 2 ^ 16) 9 0 0] bound with
    kw := { KwSt.reset with links := [(2, { Link.init with st := .active })] } }

theorem test_meets_FenceAndPeerCommands_message : (admitting liveBound k1 0x21).isSome = true ∧ bindingLive liveBound 1 = true ∧
    bindingLive bound 1 = false ∧ (bnd liveBound 1).link = 2 ∧ (lnk liveBound 2).queued = [] ∧
    hasCredit (lnk liveBound 2) 0 = true ∧ sealable liveBound 2 = true ∧ (lnk liveBound 2).sinceAlign < 4095 ∧
    (lnk liveBound 2).encrypted = false ∧ { liveBound.pwr with lowv := true }.lowv = true ∧
    after (exec (.peerSignal k1) liveBound) (fun t => match t.sent.getLast? with
      | some (.flit 2 f) => f.payload.take 32 == leBytes 4 3 ++ leBytes 4 16 ++ leBytes 4 0 ++ leBytes 4 1 ++ leBytes 8 5 ++ leBytes 8 9
      | _ => false) = true := by decide +kernel

/-! ## Models and runs in admission -/

/-- A load of that descriptor, whose class table in host memory says ACTIVE 2; and of one with version 2. -/
def loading (d : List Byte) : State :=
  { withCmds [(cmd 0x10 0 0 0 0).setBlock blkModel d] base with
    mem := { MemSt.reset with ext := [(5, .free), (6, .free)] }, host := { base.host with mem := [(0x4004, 2)] } }
def admits (d : List Byte) : Option Nat :=
  match (admitModel ((cmd 0x10 0 0 0 0).setBlock blkModel d) d (loading d)).1 with
  | .admitted _ _ e _ => some e
  | _ => none
def loadWork (n : Nat) : Cmd := { cmd 0x10 0 0 0 0 with st := .running, work := .load n }
def sparseModel (colours : List (Nat × Nat)) : Model :=
  { Model.init with st := .loading, desc := desc, form := 3, n := 128, rowCount := 128, colours := colours, exts := [5] }
def loadsOk (d : List Byte) : Bool :=
  match (loadModel (loadWork 0) { sparseModel [(0, 2)] with desc := d } { base with host := { base.host with mem := [(0x2008, 1)] } }).1 with
  | .ok _ _ _ _ => true
  | .fail _ _ _ => false

/-- The pointers lie at 0, where host memory holds 0, or at 0x2000, where they fall. -/
theorem test_meets_ModelCommands_load : (admitting (loading desc) k1 0x10).isSome = true ∧ (cmd 0x10 0 0 0 0).blockFail = none ∧
    admits desc = some 1 ∧ admits (patchAt desc 0 [2]) = none ∧ (running (working 0x10 (.load 0)) k1).isSome = true ∧
    loadsOk desc = true ∧ loadsOk (patchAt desc 0x30 (leBytes 8 0x2000)) = false := by decide +kernel

theorem test_meets_ModelCommands_unload : (admitting (withCmds [cmd 0x11 0 0 0 0] { base with models := [(0, aModel)] }) k1 0x11).isSome = true ∧
    (modelFor { base with models := [(0, aModel)] } 1 0).isSome = true ∧ modelFor base 1 0 = none ∧ aModel.st = .ready ∧
    aModel.exts ≠ [] ∧ { aModel with st := .inUse }.st ≠ .ready ∧
    after (exec (.modelUnload k1) (withCmds [cmd 0x11 0 0 0 0] { base with models := [(0, aModel)] }))
      (fun t => (mdl t 0).st == .unloading && extState t 7 == .releasing) = true := by decide +kernel

/-- Extents: the lowest unzeroed one, a releasing one, a free one; the last allocatable one. -/
def extents : State := { base with mem := { MemSt.reset with ext := [(0, .free), (1, .releasing), (2, .free)] } }

theorem test_meets_ModelCommands_zeroed : extState extents 1 = .releasing ∧ extState extents 2 = .free ∧ 6079 < 6080 ∧
    extState base 0 = .unzeroed ∧ extState extents 3 = .unzeroed ∧
    ((List.range 3).all fun i => extState extents i != .unzeroed) = true ∧
    after (exec (.extentZeroed 3) extents) (fun t => extState t 3 == .free) = true := by decide +kernel

/-- An extent of a model that is being unloaded, not its last. -/
theorem test_meets_ModelCommands_unloading :
    let s := { extents with models := [(0, { aModel with st := .unloading, exts := [1, 2] })] }
    unloadsExtent s 1 = true ∧ extState s 1 = .releasing ∧ extState (extentZeroed 1 s) 2 ≠ .zeroed ∧
    after (exec (.extentZeroed 1) s) (fun t => extState t 1 == .zeroed && (mdl t 0).st == .unloading) = true := by
  decide +kernel

/-- A sweep block of one segment of one sweep, class 0 FULL, with a SEED (R132), and a replica block of one replica
(R156). -/
def sweepBlk (seed : Nat) : List Byte :=
  leBytes 4 1 ++ leBytes 4 1 ++ List.replicate 16 0 ++ leBytes 8 seed ++ List.replicate 32 0 ++ leBytes 64 1 ++
  leBytes 4 1 ++ leBytes 4 0x1000000 ++ leBytes 4 0x1000000 ++ leBytes 4 0
def repBlk : List Byte :=
  leBytes 4 1 ++ leBytes 4 1 ++ leBytes 4 1 ++ List.replicate 44 0 ++ leBytes 8 0x10000 ++ leBytes 4 1 ++ List.replicate 60 0
def runCmd (seed : Nat) (rep : List Byte) : Cmd :=
  ((({ cmd 0x12 0 0 0 0 with raw := raw 0x212 0 0 0 0 0 }).setBlock blkSweep (sweepBlk seed)).setBlock blkReplica rep).setBlock
    blkLadder (leBytes 4 0x10000)

/-- An admitted command of a free-mode run on a model in some state. -/
def annealing (c : Cmd) (st : MState) : State :=
  { withCmds [c] base with models := if st = .absent then [] else [(0, { aModel with st := st })] }
def runs1 : State := annealing (runCmd 1 repBlk) .ready

theorem test_meets_RunAdmission_anneal : (admitting runs1 k1 0x12).isSome = true ∧
    modelFor (annealing (runCmd 1 repBlk) .absent) 1 0 = none ∧
    (modelFor (annealing (runCmd 1 repBlk) .loading) 1 0).isSome = true ∧
    (modelFor runs1 1 0).isSome = true ∧ (annealCheck (runCmd 1 []) aModel runs1).isSome = true ∧
    annealCheck (runCmd 1 repBlk) aModel runs1 = none ∧ annealCheck (runCmd 0 repBlk) aModel runs1 = none ∧
    swpSeed (sweepBlk 0) = 0 ∧ swpSeed (sweepBlk 1) = 1 ∧ (drawSeed runs1).1 = none ∧
    (drawSeed { runs1 with rng := { RngSt.reset with seedWords := [1, 2] } }).1.isSome = true ∧
    (initialStates (runCmd 1 repBlk) aModel repBlk 1 runs1).1.isOk = true ∧
    after (exec (.runAnneal k1) runs1) (fun t => t.cmds.all (fun c => c.st == .ready) && (mdl t 0).st == .inUse) = true := by
  decide +kernel

/-- A save area that a run on that model can be resumed from (R387), free-mode or ordered, with class 0 FULL or AUTO:
header, digest, blocks, zeros. -/
def saveBytes (full : Bool) : Nat := saveSize aModel 1 (!full)
def saveHead (free full : Bool) : List Byte :=
  leBytes 4 0x20001 ++ leBytes 4 (settingsWord base free).toNat ++ List.replicate 0x60 0 ++ leBytes 8 0 ++
  leBytes 8 (saveBytes full) ++ List.replicate 0x68 0
def saveRest (full : Bool) : List Byte :=
  repBlk ++ patchAt (sweepBlk 1) 0x40 [if full then 1 else 0] ++
  List.replicate (saveBytes full - 0x100 - repBlk.length - (sweepBlk 1).length) 0
def saved (free full : Bool) : List Byte :=
  saveHead free full ++ (saveDigest (saveHead free full) (saveRest full) ++ saveRest full)
def resumes (free : Bool) (a : List Byte) : Cmd :=
  ({ cmd 0x15 0 0 0 0 with raw := raw (if free then 0x215 else 0x15) 0 0 0 0 0 }).setBlock blkSave a
def resuming (free : Bool) (a : List Byte) : State := annealing (resumes free a) .ready

theorem saveHead_length (f g : Bool) : (saveHead f g).length = 0xE0 := by cases f <;> cases g <;> decide +kernel
theorem saveRest_length (g : Bool) : 0x100 + (saveRest g).length = saveBytes g := by cases g <;> decide +kernel

/-- What the area holds in its header, at the digest and after it. -/
theorem saved_head (f g : Bool) {o n : Nat} (h : o + n ≤ 0xE0) : slice o n (saved f g) = slice o n (saveHead f g) := by
  have hh := saveHead_length f g
  have : ((saved f g).drop o).take n = ((saveHead f g).drop o).take n := by
    rw [saved, List.drop_append_of_le_length (by omega), List.take_append_of_le_length (by simp; omega)]
  simp only [slice, this]

theorem saved_rest (f g : Bool) (o n : Nat) : slice (0x100 + o) n (saved f g) = slice o n (saveRest g) := by
  have : (saved f g).drop (0x100 + o) = (saveRest g).drop o := by
    rw [saved, ← List.append_assoc, ← List.drop_drop, List.drop_left' (by simp [saveHead_length, saveDigest])]
  simp only [slice, this]

theorem saved_digest (f g : Bool) : slice 0xE0 32 (saved f g) = saveDigest (saveHead f g) (saveRest g) ∧
    (saved f g).take 0xE0 = saveHead f g ∧ ((saved f g).take (saveBytes g)).drop 0x100 = saveRest g := by
  have hh := saveHead_length f g
  have hd : (saveDigest (saveHead f g) (saveRest g)).length = 32 := sha256_length _
  refine ⟨?_, ?_, ?_⟩
  · simp [saved, slice, ← hh, ← hd]
  · simp [saved, ← hh]
  · rw [saved, List.take_of_length_le (by simp [hh, hd, ← saveRest_length]; omega), ← List.append_assoc,
      List.drop_left' (by simp [hh, hd])]

theorem test_meets_RunAdmission_resume (f g : Bool) (hfg : f || g) :
    resumeCheck (resumes f (saved f g)) (resuming f (saved f g)) = .ok (0, aModel) := by
  have hb : (resumes f (saved f g)).block blkSave = saved f g := rfl
  have hf : (resumes f (saved f g)).blockFail = none := rfl
  have hx := saved_digest f g
  have hl : ∀ o n, o + n ≤ 0xE0 → leAt (saved f g) o n = leAt (saveHead f g) o n := fun o n h => by
    simp only [leAt, saved_head f g h]
  have h1 := hl 4 4 (by omega)
  have h2 := hl 0 2 (by omega)
  have h3 := hl 2 1 (by omega)
  have h4 := hl 0x70 8 (by omega)
  have h5 := hl 0x68 4 (by omega)
  have hs := saved_head f g (o := 0x18) (n := 32) (by omega)
  have r1 := saved_rest f g 0 128
  have r2 := fun n => saved_rest f g 0x80 n
  have r3 : leAt (saved f g) 0x184 4 = leAt (saveRest g) 0x84 4 := congrArg leNat (saved_rest f g 0x84 4)
  have r4 : ∀ k, leAt (saved f g) (0x600 + 4 * k) 4 = leAt (saveRest g) (0x500 + 4 * k) 4 := fun k => by
    rw [show 0x600 + 4 * k = 0x100 + (0x500 + 4 * k) by omega]; exact congrArg leNat (saved_rest f g _ 4)
  have hn : leAt (saveHead f g) 0x70 8 = saveBytes g := by cases f <;> cases g <;> decide +kernel
  unfold resumeCheck
  rw [hb]
  simp only [Nat.add_zero, Nat.reduceAdd] at r1 r2
  simp only [h1, h2, h3, h4, h5, hs, r1, r2, r3, r4, hn, hx.1, hx.2.1, hx.2.2, hf, ne_eq, not_true_eq_false, if_false]
  cases f <;> cases g
  · cases hfg
  all_goals rw [if_neg (by decide +kernel), if_neg (by decide +kernel)]
  all_goals
    rw [show modelByDigest _ _ _ = some (0, aModel) by decide +kernel]
    dsimp only
    rw [if_neg (by decide +kernel), if_neg (by decide +kernel), if_neg (by decide +kernel)]

/-- A free-mode run and one that needs workspace with none free; an ordered one with engines offline. -/
theorem test_meets_RunAdmission_resume_clauses : (resumes true []).freeMode = true ∧ (resumes false []).freeMode = false ∧
    allOnline (resuming false []) = false ∧ (freeExtents (resuming true [])).length = 0 ∧
    workspaceExtents aModel (patchAt (sweepBlk 1) 0x40 [0]) 1 = 1 ∧ workspaceExtents aModel (sweepBlk 1) 1 = 0 := by
  decide +kernel

theorem test_meets_RunAdmission_resume_refused : (admitting (resuming true []) k1 0x15).isSome = true ∧
    (resumeCheck (resumes true []) (resuming true [])).isOk = false := by decide +kernel

/-- A program of one instruction, END, on one engine (R236), of version 1 or 2, with a SEED; engine 0 is online. -/
def image (version : Nat) : List Byte :=
  leBytes 4 version ++ leBytes 4 1 ++ leBytes 8 0 ++ leBytes 8 1 ++ List.replicate 40 0 ++ leBytes 4 0x3F ++
  leBytes 4 0xC0000000 ++ leBytes 4 0xC0000000 ++ leBytes 4 0xC0000000
def progCmd (img : List Byte) (seed : Nat) : Cmd :=
  { cmd 0x13 0 0 0 0 with raw := raw 0x213 0 0 0 0 seed }.setBlock blkImage img
def programs (img : List Byte) (seed : Nat) : State :=
  { withCmds [progCmd img seed] base with emap := { MapSt.reset with phys := [(0, 1)] } }

theorem test_meets_RunAdmission_program : (admitting (programs (image 1) 5) k1 0x13).isSome = true ∧
    headerBad 0 (image 2) = true ∧ headerBad 0 (image 1) = false ∧ (progCmd (image 1) 5).blockFail = none ∧
    lowest (imageDetails (programs (image 1) 5) false (image 1) [] [] [] [] 0) = none ∧
    lowest (imageDetails (programs (image 1) 5) false (patchAt (image 1) 0x40 [0x3E]) [] [] [] [] 0) = some 0x21 ∧
    (drawSeed (programs (image 1) 0)).1 = none ∧
    after (exec (.runProgram k1) (programs (image 1) 5)) (fun t => t.cmds.all fun c => c.st == .ready && c.anyEngines == 1) = true ∧
    after (exec (.runProgram k1) (programs (image 1) 0)) (fun t => t.cmds.all fun c => c.st == .admitting) = true := by
  decide +kernel

/-- COPY: 64 bytes from host address 0 to Carafe address 0 (context 0); the same from an unmapped address. -/
def copyWork (from' : Nat) (d : Option Decision) : State :=
  withCmds [{ cmd 0x18 (if from' = 0 then 1 else 0) from' 0 64 with st := .running, work := .copy, decided := d }] base

theorem test_meets_CopyAbortPause_copy : (admitting (withCmds [cmd 0x18 1 0 0 64] base) k1 0x18).isSome = true ∧
    (running (copyWork 0 none) k1).isSome = true ∧ (copyBytes (cmd 0x18 1 0 0 64) 64 (copyWork 0 none)).1.isOk = true ∧
    (copyBytes (cmd 0x18 0 0x700000000000 0 64) 64 (copyWork 0x700000000000 none)).1.isOk = false ∧ 0 % 4096 = 0 ∧ 0 ≤ 64 ∧
    ((running (copyWork 0 (some (mkDecision 9 1 0))) k1).map fun c => c.decided.isSome) = some true := by decide +kernel

/-- An ABORT (0x23) or PAUSE (0x14) of SEQ 5 of queue 1, acting from queue 1, beside some command of that SEQ. -/
def acts (op : Nat) (cs : List Cmd) : State := withCmds ({ cmd op 1 5 0 0 with st := .waiting } :: cs) base
def target (op : Nat) (st : CState) (w : Work) : Cmd := { cmd op 0 0 0 64 with key := ⟨1, 5⟩, st := st, work := w }
def otherContext : State :=
  { acts 0x23 [] with queues := [(1, { queue1 with ctx := 1 })] }

theorem test_meets_CopyAbortPause_actions : (actingCmd (acts 0x23 []) k1 0x23).isSome = true ∧
    (que (acts 0x23 []) 1).ctx0 = true ∧
    (actingCmd { otherContext with cmds := [{ cmd 0x23 2 5 0 0 with st := .waiting }] } k1 0x23).isSome = true ∧
    (que otherContext 1).ctx0 = false ∧ (que otherContext 2).ctx ≠ (que otherContext 1).ctx ∧
    findCmd (acts 0x23 []) ⟨1, 5⟩ = none ∧ (que (acts 0x23 []) 1).recent = [] ∧
    ([((5 : Word), (0 : BitVec 8))].find? fun p => p.1 == 5).isSome = true ∧
    (findCmd (acts 0x23 [target 0x20 .waiting .none]) ⟨1, 5⟩).isSome = true ∧ (actingCmd (acts 0x14 []) k1 0x14).isSome = true ∧
    (target 0x18 .running .copy).opcode ≠ 0x12 ∧ (target 0x12 .running (.anneal aRun)).opcode = 0x12 ∧
    aRun.cls < nColours (mdl { base with models := [(0, aModel)] } 0) ∧ mayTurn aRun = true ∧
    after (exec (.abort k1) (acts 0x23 [target 0x20 .waiting .none])) (fun t => t.fe.cmds == 2) = true ∧
    after (exec (.pause k1) { acts 0x14 [target 0x12 .running (.anneal aRun)] with models := [(0, aModel)] })
      (fun t => t.cmds.any fun c => c.pause.isSome) = true := by decide +kernel

/-! ## Annealing -/

/-- Model 0 resident, and a run on it in a running command. -/
def annealed (r : Run) : State :=
  { withCmds [atWork 0x12 (.anneal r)] base with models := [(0, aModel)] }
/-- The run with its three replicas on three rungs, an exchange interval of 1. -/
def ladderRun : Run :=
  { aRun with spins := [0, 1, 2], rung := [0, 1, 2], energy := [5, 0, 3]
              repBlk := leBytes 4 1 ++ leBytes 4 3 ++ leBytes 4 3 ++ leBytes 4 1, ladder := [1, 2, 3] }
/-- A run that lock-step holds at its second checkpoint. -/
def heldRun : Run :=
  { aRun with ckpts := 1, ls := { LockStep.off with on := true, own := [(0, 0)] } }

theorem test_meets_TurnSetsSpins : aRun.spins.length = aRun.reps ∧ (classRows aModel 0) = [0, 1] := by decide +kernel

/-- With all fields 0 and temperature above 0 the comparator decides by noise alone; the turn goes on to class 1. -/
theorem test_meets_TurnCompletes : (running (annealed aRun) k1).isSome = true ∧ aRun.started = true ∧ aRun.stop = none ∧
    aRun.cls < nColours (mdl (annealed aRun) 0) ∧ mayTurn aRun = true ∧ mayTurn heldRun = false ∧
    (modelRead aModel (annealed aRun)).1 = none ∧
    (modelRead aModel { annealed aRun with mem := { MemSt.reset with locked := true } }).1.isSome = true ∧
    aRun.split.devices ≤ 1 ∧ (atWork 0x12 (.anneal aRun)).decided = none ∧
    after (exec (.turn k1) (annealed aRun)) (fun t => t.anl.full == 1 && t.anl.delta == 0) = true := by decide +kernel

/-- At the boundary: the run goes on while sweeps are left, and stops after the last. -/
def atBoundary (sweeps : Nat) : Run :=
  { aRun with cls := 1, sweepBlk := patchAt (sweepBlk 1) 0x80 (leBytes 4 sweeps), repBlk := repBlk }

theorem test_meets_SweepBoundaryAndBest : (running (annealed (atBoundary 2)) k1).isSome = true ∧
    (atBoundary 2).cls = nColours aModel ∧ (atBoundary 2).digest = false ∧
    stopNow aModel { atBoundary 2 with done := 1 } = none ∧ (stopNow aModel { atBoundary 1 with done := 1 }).isSome = true ∧
    exchangeDue (atBoundary 2) = false ∧
    copyNext { aRun with copies := [(0, [0])] } 0 = true ∧ copyNext aRun 0 = false ∧
    ({ aRun with copies := [(0, [0])] }.copies.find? fun p => p.1 == 0) = some (0, [0]) := by decide +kernel

theorem test_meets_ExchangeKeepsLadders : ladderRun.rung.length = ladderRun.reps ∧ ladderRun.rungs = 3 ∧
    ladderRun.reps / 3 = 1 ∧
    ((List.range 3).all fun k => (List.range 3).any fun a => ladderRun.rung.getD a 3 == k) = true := by decide +kernel

theorem test_meets_EngineFailureEffect : servedBy (readyProg .on) 0 = some 0 ∧ servedBy (readyProg .on) 71 = none ∧
    isUp (readyProg .on) = true ∧
    (spareFor (readyProg .on) 0).isSome = true ∧
    spareFor { readyProg .on with emap := { MapSt.reset with phys := [(0, 1)], failed := List.range 9 } } 0 = none ∧
    after (exec (.engineFailure 0) (readyProg .on)) (fun t => physOf t 0 != some 0) = true := by decide +kernel

/-! ## Engine programs -/

/-- What engine 0 sees of the control instruction at its PC, or of the one that goes on in its unit, and the state then. -/
def sees (op : Nat) (s : State) : Option (Ectx × State) :=
  match progOf s 0 with
  | none => none
  | some (c, p) => match fetchIns op 0 c p s with | .run x u => some (x, u) | .stay _ => none
def works (op : Nat) (s : State) (begins : Bool := false) : Option (Ectx × State) :=
  match unitGo op 0 s begins with | .run x u => if x.c.decided = none then some (x, u) else none | .stay _ => none

/-- They are what `issuing` and `working` say. -/
theorem sees_issuing {op : Nat} {s u : State} {x : Ectx} (h : sees op s = some (x, u)) : issuing op 0 s x u := by
  unfold sees at h
  split at h
  · cases h
  · rename_i c p hp
    unfold fetchIns at h
    split at h <;> rename_i hg
    · cases h
      split at hg
      · rename_i hm
        split at hg
        · cases hg
        · rename_i bs v hr
          split at hg
          · rename_i ho
            cases hg
            exact ⟨c, p, bs, hp, hm, hr, ho, rfl⟩
          · cases hg
      · cases hg
    · cases h

theorem works_working {op : Nat} {s u : State} {x : Ectx} {b : Bool} (h : works op s b = some (x, u)) :
    Machine.working op 0 s x u b := by
  unfold works at h
  split at h
  · split at h <;> cases h
    exact ⟨by assumption, by assumption⟩
  · cases h

/-- The 16 bytes of an instruction (R206), and what a unit holds of one that was issued from index 0. -/
def insBytes (op group par a b c : Nat) (flag : Bool) : List Byte :=
  leBytes 4 (op + group * 2 ^ 8 + (if flag then 2 ^ 11 else 0) + par * 2 ^ 12) ++ leBytes 4 a ++ leBytes 4 b ++ leBytes 4 c
def issued (bytes : List Byte) (begun : Bool) : Issued := ⟨0, insOf bytes, [(1, 4)], begun⟩

/-- Engine 0, served by physical engine 0, in a program of four instructions whose first is this one. -/
def engine0 (bytes : List Byte) (e : Engine) (p : Prog → Prog) : State :=
  { withCmds [atWork 0x13 (.program (p (aProg (header 4))))] base with
    emap := { MapSt.reset with phys := [(0, 1)] }, eng := [(0, { e with cmd := some k1, pst := .run })]
    mem := { MemSt.reset with spad := Tab.putList 0 [] 0 bytes } }

/-- It is about to issue the instruction; or the instruction has begun in its unit. -/
def issues (op group par a b c : Nat) (flag : Bool) (e : Engine) (p : Prog → Prog) : State :=
  engine0 (insBytes op group par a b c flag) e p
def goesOn (op group par a b c : Nat) (flag : Bool) (e : Engine) : State :=
  engine0 [] { e with pc := 1, units := [issued (insBytes op group par a b c flag) true] } id

/-- Its view and the state meet a condition. -/
def meets1 (op : Nat) (s : State) (f : Ectx → State → Bool) : Bool :=
  match (if unitOf op = 0 then sees op s else works op s) with
  | some (x, u) => x.ins.op == op && f x u
  | none => false

def fresh : Engine := Engine.init
def none' : Nat := 0xC0000000
/-- An engine with one group resident in tile register 0, or in another state of its own; with both registers held. -/
def holds (st : GState) : Engine :=
  { fresh with groups := [(0, { Group.init with st := st, tile := 0, slot := 0, named := 1 })]
               tile0 := match st with
                 | .parked => .empty | .parking => .park | .unparking => .unpark | .draining => .drain | .starting => .start
                 | _ => .held }
def full2 : Engine :=
  { holds .resident with tile1 := .held
                         groups := [(0, { Group.init with st := .resident, tile := 0 }), (1, { Group.init with st := .resident, tile := 1 })] }
def waits : Seat → Bool
  | .at _ => false
  | .wait _ => true

theorem test_meets_ScalarState : aReg (setA 15 7 fresh) 15 = 7 ∧ Tab.wf 0 fresh.areg = true ∧ (15 : Nat) ≠ 0 ∧
    ([0x20, 0x21, 0x29, 0x24, 0x25, 0x27].all fun op =>
      meets1 op (issues op 0 1 5 none' none' false fresh id) fun _ _ => true) = true ∧
    after (exec (.loop 0) (issues 0x25 0 1 2 none' none' false (setA 1 1 fresh) id)) (fun t => (eng t 0).pc == 1) = true ∧
    after (exec (.loop 0) (issues 0x25 0 1 2 none' none' false (setA 1 2 fresh) id)) (fun t => (eng t 0).pc == 2) = true := by
  decide +kernel

theorem test_meets_ClaimsAndBranches : (aProg (header 4)).ordered = true ∧
    { aProg (header 4) with ordered := false }.ordered = false ∧
    imgItems (patchAt (header 4) 0x18 [3]) = 3 ∧
    (claimOf { aProg (patchAt (header 4) 0x18 [3]) with ordered := false, claimNext := 2 } 0).1 = 2 ∧
    (claimOf { aProg (patchAt (header 4) 0x18 [3]) with ordered := false, claimNext := 3 } 0).1 = 0xFFFFFFFF := by decide +kernel

/-- A DMA beside five DRAINs and five VOPs of three ranges each and two DMAs behind them; a VOP alone, of 1,000 words by
way of a window of one unit; engines with DRAINs that have not begun. -/
def crowd : List Issued :=
  (List.range 5).map (fun i => issued (insBytes 3 0 (2 * 2 ^ 8) 1000 99 3000 false) (i == 0)) ++
  (List.range 5).map (fun i => issued (insBytes 0x10 0 (6 * 2 ^ 12 + 6 * 2 ^ 15 + 1 * 2 ^ 8) 16 20 64 false) (i == 0)) ++
  List.replicate 2 (issued (insBytes 0x18 0 0 64 0 1 true) false)
def crowded : State := issues 0x18 0 0 70 0 1 true { setA 1 4 fresh with units := crowd } id
def windowed : State :=
  issues 0x10 0 (6 * 2 ^ 12 + 6 * 2 ^ 15 + 1 * 2 ^ 8) 0x80000000 none' 64 false
    { setA 1 1000 fresh with winBaseNow := [(0, 100)], winSizeNow := [(0, 1)] } id
def queued (n : Nat) : Engine :=
  { fresh with units := List.replicate n (issued (insBytes 3 0 0 none' none' none' false) false) }

theorem test_meets_LoadStoreVector_queues :
    ([1, 2, 3, 4, 5, 8, 0x10, 0x18, 0x19].all fun op => let s := issues op 0 0 16 none' none' false fresh id
      (sees op s).isSome && (firstFree (eng s 0) op true).isNone && (firstFree (eng s 0) op false).isNone &&
        (firstTransfer (eng s 0) op).isNone) = true ∧
    has (sees 2 (issues 2 0 0 16 none' none' false (queued 4) id)) (fun q => queueFull q.1.e 2) = true ∧
    has (sees 0x18 crowded) (fun q => !queueFull q.1.e 0x18 && rangesFull q.1.e q.1.ins) = true ∧
    (firstFree (eng crowded 0) 0x18 false).isNone = true ∧ (firstTransfer (eng crowded 0) 0x18).isNone = true ∧
    has (sees 0x10 windowed) (fun q => !queueFull q.1.e 0x10 && !rangesFull q.1.e q.1.ins) = true ∧
    has (sees 2 (issues 2 0 0 16 none' none' false (queued 1) id)) (fun q =>
      !queueFull q.1.e 2 && !rangesFull q.1.e q.1.ins) = true ∧
    (works 2 (issues 2 0 0 16 none' none' false (queued 1) id)).isNone = true ∧
    (works 2 (issues 2 0 0 16 none' none' false fresh id)).isSome = true ∧
    after (exec (.mma 0 true) (issues 2 0 0 16 none' none' false (queued 4) id)) (fun t => (eng t 0).units.length == 4) = true ∧
    after (exec (.mma 0 true) (issues 2 0 0 16 none' none' false (queued 1) id)) (fun t => (eng t 0).units.length == 2) = true := by
  decide +kernel

/-- An MMA of parked group 1 behind one that has begun: its transfer can begin. -/
def behind : Engine :=
  { holds .resident with
    groups := [(0, { Group.init with st := .resident, tile := 0 }), (1, { Group.init with st := .parked, slot := 0 })]
    tile0 := .accum, pc := 2
    units := [issued (insBytes 2 0 0 16 32 1 false) true, issued (insBytes 2 1 0 16 32 1 false) false] }
/-- A program that an ABORT stopped, with an MMA that goes on, and with nothing left. -/
def stoppedProg (e : Engine) : State :=
  let s := engine0 [] e id
  { s with cmds := s.cmds.map fun c => { c with decided := some (mkDecision 9 0 3) } }

theorem test_meets_LoadStoreVector_units :
    (firstFree behind 2 true).isNone = true ∧ has (firstTransfer behind 2) (fun e => (grp e 1).st == .unparking) = true ∧
    after (exec (.mma 0 true) (engine0 [] behind id)) (fun t => tileAt (eng t 0) 1 == .unpark) = true ∧
    (match unitGo 2 0 (stoppedProg behind) with | .run x _ => x.c.decided.isSome | .stay _ => false) = true ∧
    (eng (stoppedProg behind) 0).units ≠ [] ∧ (eng (stoppedProg fresh) 0).units = [] ∧
    (eng (stoppedProg fresh) 0).cmd = some k1 := by decide +kernel

/-- LD and ST at unit 16, outside the program's units 0 to 3; at unit 3 in it; at unit 393216, past the scratchpad; while
a VOP that writes unit 16 is unfinished. -/
theorem test_meets_LoadStoreVector :
    let busy := { fresh with units := [issued (insBytes 0x10 0 (6 * 2 ^ 12 + 6 * 2 ^ 15 + 1 * 2 ^ 8) none' none' 16 false) false] }
    meets1 0x22 (issues 0x22 0 1 16 none' none' false busy id) (fun x _ => mustWait x) = true ∧
    meets1 0x23 (issues 0x23 0 1 16 none' none' false busy id) (fun x _ => mustWait x) = true ∧
    meets1 0x22 (issues 0x22 0 1 393216 none' none' false fresh id) (fun x _ =>
      !mustWait x && (spanOf x.e x.ins.a 1 false).isNone) = true ∧
    meets1 0x22 (issues 0x22 0 1 393215 none' none' false fresh id) (fun x u =>
      (readSpan 0 ((spanOf x.e x.ins.a 1 false).getD []) u).1.isOk && (spanOf x.e x.ins.a 1 false).isSome) = true ∧
    meets1 0x23 (issues 0x23 0 1 393216 none' none' false fresh id) (fun x _ => (spanOf x.e x.ins.a 1 false).isNone) = true ∧
    meets1 0x23 (issues 0x23 0 1 3 none' none' false fresh id) (fun x _ =>
      hitsProgram x.p ((spanOf x.e x.ins.a 1 false).getD [])) = true ∧
    meets1 0x23 (issues 0x23 0 1 4 none' none' false fresh id) (fun x u => x.ins.a != 0xC0000000 && !mustWait x &&
      !hitsProgram x.p ((spanOf x.e x.ins.a 1 false).getD []) && (readSpan 0 [(4, 1)] u).1.isOk) = true := by decide +kernel

theorem test_meets_LoadStoreVector_vop :
    let v := fun a b c flag => issues 0x10 0 (6 * 2 ^ 12 + 6 * 2 ^ 15 + 1 * 2 ^ 8) a b c flag (setA 1 4 fresh) id
    meets1 0x10 (v 16 20 24 true) (fun x _ => x.ins.flag && aReg x.e (x.ins.par 11 8) % 65536 == 4) = true ∧
    meets1 0x10 (v 16 20 0 false) (fun x _ => !x.ins.flag && !(spanW x x.ins.c 1).isOk) = true ∧
    meets1 0x10 (v 393216 20 24 false) (fun x _ => (spanW x x.ins.c 1).isOk && (spanOf x.e x.ins.a 1 false).isNone) = true ∧
    meets1 0x10 (v 16 20 24 false) (fun x u => !x.ins.flag && x.ins.b != 0xC0000000 && (spanW x x.ins.c 1).isOk &&
      (spanOf x.e x.ins.b 1 false).isSome && (readSpan 0 [(16, 1)] u).1.isOk && aReg x.e (x.ins.par 11 8) == 4) = true := by
  decide +kernel

theorem test_meets_GroupInstructions_open :
    let o := fun g par a e => issues 1 g par a none' none' false e id
    meets1 1 (o 0 0 none' (holds .resident)) (fun x _ => !x.begun && (grp x.e 0).st == .resident) = true ∧
    meets1 1 (o 0 0 none' (holds .draining)) (fun x _ => !x.begun && (grp x.e 0).st == .draining) = true ∧
    meets1 1 (o 2 0 none' full2) (fun x u => (grp x.e 2).st == .closed && waits (seatNew (eng u 0) 2)) = true ∧
    meets1 1 (o 0 0 none' fresh) (fun x u => !x.begun && (grp x.e 0).st == .closed && !waits (seatNew (eng u 0) 0) &&
      x.ins.par 2 1 == 0) = true ∧
    meets1 1 (goesOn 1 0 0 none' none' none' false (holds .resident)) (fun x _ => x.begun && x.ins.par 2 1 == 0) = true ∧
    meets1 1 (o 0 2 393216 fresh) (fun x u => !waits (seatNew (eng u 0) 0) && x.ins.par 2 1 == 1 &&
      (spanOf x.e x.ins.a 32 false).isNone) = true ∧
    meets1 1 (o 0 2 16 fresh) (fun x u => (spanOf x.e x.ins.a 32 false).isSome && (readSpan 0 [(16, 32)] u).1.isOk) = true ∧
    after (exec (.openGroup 0 true) (o 0 2 16 fresh)) (fun t => (grp (eng t 0) 0).st == .starting && (eng t 0).tile0 == .start) = true ∧
    after (exec (.openGroup 0 true) (o 0 0 none' fresh)) (fun t => (eng t 0).tile0 == .accum) = true := by decide +kernel

theorem test_meets_GroupInstructions_discard :
    ([.closed, .parking, .unparking, .draining, .resident, .parked].all fun st =>
      meets1 5 (issues 5 0 0 none' none' none' false (if st = GState.closed then fresh else holds st) id)
        fun x _ => (grp x.e 0).st == st) = true := by decide +kernel

def seated (x : Ectx) (u : State) : Bool := !waits (seatOf (eng u 0) x.ins.group)

theorem test_meets_GroupInstructions_drain :
    let d := fun par a c e => issues 3 0 par a none' c false e id
    meets1 3 (d 0 none' none' fresh) (fun x _ => !x.begun && (grp x.e 0).st == .closed) = true ∧
    meets1 3 (d 3 none' none' (holds .resident)) (fun x _ => !outAllowed (grp x.e 0).float 3) = true ∧
    meets1 3 (d (4 * 2 ^ 8) none' none' (holds .resident)) (fun x _ => x.ins.par 10 8 == 4 && !(grp x.e 0).float) = true ∧
    meets1 3 (d 0 none' none' (holds .parked)) (fun x u => outAllowed (grp x.e 0).float 0 && !seated x u) = true ∧
    meets1 3 (goesOn 3 0 0 4 none' none' false (holds .draining)) (fun x _ => x.begun) = true ∧
    meets1 3 (d 0 0 none' (holds .resident)) (fun x u => seated x u &&
      !(spansW x [(x.ins.a, 4096 * outBytes 0), (x.ins.b, 1), (x.ins.c, 0)]).isOk) = true ∧
    meets1 3 (d (2 * 2 ^ 8) 4 65536 (holds .resident)) (fun x u => seated x u && !x.begun &&
      outAllowed (grp x.e 0).float 0 && x.ins.par 10 8 != 4 &&
      (spansW x [(x.ins.a, 4096 * outBytes 0), (x.ins.b, 1), (x.ins.c, 128)]).isOk) = true ∧
    after (exec (.drain 0 true) (d 0 4 none' (holds .resident))) (fun t => (grp (eng t 0) 0).st == .draining) = true := by
  decide +kernel

theorem test_meets_GroupInstructions_sample :
    let d := fun a e => issues 4 0 0 a none' none' false e id
    meets1 4 (d none' fresh) (fun x _ => !x.begun && (grp x.e 0).st == .closed) = true ∧
    meets1 4 (d none' (holds .parked)) (fun x u => !x.begun && !seated x u) = true ∧
    meets1 4 (goesOn 4 0 0 4 none' none' false (holds .draining)) (fun x _ => x.begun) = true ∧
    meets1 4 (d 0 (holds .resident)) (fun x u => seated x u && !(spansW x [(x.ins.a, 512), (x.ins.b, 512), (x.ins.c, 8192)]).isOk) = true ∧
    meets1 4 (d 4 (holds .resident)) (fun x u => seated x u &&
      (spansW x [(x.ins.a, 512), (x.ins.b, 512), (x.ins.c, 4096 * meanBytes (x.ins.par 18 16))]).isOk) = true := by
  decide +kernel

theorem test_meets_MmaEffect :
    let m := fun par a e => issues 2 0 par a 32 1 false e id
    let int := fun x : Ectx => pairPath (x.ins.par 2 0) (x.ins.par 5 3) == some (grp x.e 0).float
    meets1 2 (m 0 16 fresh) (fun x _ => !x.begun && (grp x.e 0).st == .closed) = true ∧
    meets1 2 (m 3 16 (holds .resident)) (fun x _ => !int x) = true ∧
    meets1 2 (m 0 16 (holds .parked)) (fun x u => !seated x u && int x) = true ∧
    meets1 2 (goesOn 2 0 0 16 32 1 false { holds .resident with tile0 := .accum }) (fun x _ => x.begun && (grp x.e 0).st != .closed) = true ∧
    meets1 2 (m 0 393216 (holds .resident)) (fun x u => seated x u && int x && (spanOf x.e x.ins.a 8 true).isNone) = true ∧
    meets1 2 (m 0 16 (holds .resident)) (fun x u => seated x u && int x &&
      (spanOf x.e x.ins.a 8 true).isSome && (readSpan 0 [(16, 8)] u).1.isOk && (spanOf x.e x.ins.b 32 true).isSome &&
      (readSpan 0 [(32, 32)] u).1.isOk) = true ∧
    after (exec (.mma 0 true) (m 0 16 (holds .resident))) (fun t => (eng t 0).tile0 == .accum) = true := by
  decide +kernel

/-- The rows of the beginning see an instruction that has not begun. -/
theorem test_meets_beginnings :
    let b := fun op par a e => works op (issues op 0 par a 32 1 false e id) true
    has (b 1 0 none' fresh) (fun q => !q.1.begun && (grp q.1.e 0).st == .closed && !waits (seatNew (eng q.2 0) 0)) = true ∧
    has (b 3 0 4 (holds .resident)) (fun q => !q.1.begun && seated q.1 q.2 && outAllowed (grp q.1.e 0).float 0) = true ∧
    has (b 4 0 4 (holds .resident)) (fun q => !q.1.begun && seated q.1 q.2) = true ∧
    has (b 2 0 16 (holds .resident)) (fun q => !q.1.begun && seated q.1 q.2 &&
      pairPath (q.1.ins.par 2 0) (q.1.ins.par 5 3) == some (grp q.1.e 0).float) = true ∧
    has (b 2 0 16 fresh) (fun q => (grp q.1.e 0).st == .closed) = true ∧
    (b 2 0 16 (queued 1)).isNone = true := by decide +kernel

/-- R174: 2,147,483,647 + 1 stays at the bound and sets SAT; one less does not. -/
theorem test_meets_IntegerMma : intStep 0x7FFFFFFF 1 = (0x7FFFFFFF, 1) ∧ intStep 0x7FFFFFFE 1 = (0x7FFFFFFF, 0) ∧
    intStep 0x80000000 (-1) = (0x80000000, 1) ∧ Group.init.float = false ∧ (1 : Nat).testBit 0 = true := by decide +kernel

/-- A reduce entry of engines 0 and 1; engine 1's part waits. -/
def reduceProg (l : List RedWait) (p : Prog) : Prog := { p with reduces := [[0, 1]], engs := [0, 1], waitRed := l }
def busy0 : Engine := { fresh with units := [issued (insBytes 0x10 0 0 none' none' 64 false) true] }

theorem test_meets_MeetingInstructions_red :
    let r := fun e p => issues 8 0 0 none' none' none' false e p
    meets1 8 (r fresh id) (fun x _ => (grp x.e 0).st == .closed) = true ∧
    meets1 8 (r (holds .resident) id) (fun x _ => !decide (x.i ∈ x.p.reduces.getD 0 [])) = true ∧
    meets1 8 (r (holds .parked) (reduceProg [])) (fun x u => !seated x u && decide (x.i ∈ x.p.reduces.getD 0 []) &&
      !redCross x.p x.i 0) = true ∧
    meets1 8 (r (holds .resident) (reduceProg [])) (fun x u => seated x u &&
      decide (x.i ∈ x.p.reduces.getD 0 []) && !redCross x.p x.i 0 && (redWaits x.p 0).length == 0) = true ∧
    meets1 8 (r (holds .resident) (reduceProg [⟨1, 0, 0, false⟩])) (fun x u => seated x u &&
      !redCross x.p x.i 0 && (redWaits x.p 0).length == 1) = true := by decide +kernel

theorem test_meets_MeetingInstructions :
    let i := fun op e p => issues op 0 1 none' none' none' false e p
    meets1 0x26 (i 0x26 busy0 id) (fun x _ => x.e.units != []) = true ∧
    meets1 0x26 (i 0x26 fresh (reduceProg [])) (fun x _ => x.e.units == [] && (x.p.waitBar ++ [x.i]).length != x.p.engs.length) = true ∧
    meets1 0x26 (i 0x26 fresh id) (fun x u => (x.p.waitBar ++ [x.i]).length == x.p.engs.length &&
      !x.p.digest && decide x.p.engs.Nodup && x.p.engs.all fun j => (eng u j).cmd.isSome) = true ∧
    meets1 0x3F (i 0x3F busy0 id) (fun x _ => x.e.units != []) = true ∧
    meets1 0x3F (i 0x3F (holds .resident) id) (fun x _ => (grp x.e 0).st != .closed && x.e.units == []) = true ∧
    meets1 0x3F (i 0x3F fresh id) (fun x _ =>
      ((List.range 8).all fun g => (grp x.e g).st == .closed) && (x.p.ended ++ [x.i]).length == x.p.engs.length) = true ∧
    meets1 0x3F (i 0x3F fresh (reduceProg [])) (fun x _ => (x.p.ended ++ [x.i]).length != x.p.engs.length) = true ∧
    meets1 0x28 (i 0x28 { fresh with dmaOut := [3] } id) (fun x _ => !dmaPending x.e &&
      decide ((3 : BitVec 12) ∈ x.e.dmaOut) && !decide ((4 : BitVec 12) ∈ x.e.dmaOut)) = true ∧
    meets1 0x28 (i 0x28 { fresh with units := [issued (insBytes 0x18 0 0 16 0 1 true) false] } id)
      (fun x _ => dmaPending x.e) = true := by decide +kernel

/-- Share 5 of program engines 0 and 1, which one command names. -/
def shareProg (mask : Nat) (p : Prog) : Prog := { p with shares := [(5, mask)], engs := [0, 1] }

/-- A DMA out of unit 16 to cluster memory, one in to unit 16, one in to the program, and ones with a tag. -/
theorem test_meets_ExternalTransfers :
    let d := fun par a b flag p => issues 0x18 0 par a b 1 flag fresh p
    meets1 0x18 (d 0 393216 0 true id) (fun x _ => x.ins.flag && (spanOf x.e x.ins.a 1 false).isNone) = true ∧
    meets1 0x18 (d 0 16 0 true id) (fun x u => x.ins.flag && (spanOf x.e x.ins.a 1 false).isSome &&
      (readSpan 0 [(16, 1)] u).1.isOk && (writeRuns x (dmaAddr x.e x.ins.b) (dmaRuns 0 0 1) (List.replicate 16 0) u).1.isOk) = true ∧
    meets1 0x18 (issues 0x18 0 0 16 524287 2 true fresh id) (fun x u =>
      !(writeRuns x (dmaAddr x.e x.ins.b) (dmaRuns 0 0 2) (List.replicate 32 0) u).1.isOk) = true ∧
    meets1 0x18 (d 0 0 0 false id) (fun x _ => !x.ins.flag && !(spanW x x.ins.a 1).isOk) = true ∧
    meets1 0x18 (d 0 16 0 false id) (fun x u => !x.ins.flag && (spanW x x.ins.a 1).isOk && x.ins.par 15 8 == 0 &&
      (readRuns x (dmaAddr x.e x.ins.b) (dmaRuns 0 0 1) u).1.isOk) = true ∧
    meets1 0x18 (issues 0x18 0 0 16 524287 2 false fresh id) (fun x u => (spanW x x.ins.a 2).isOk &&
      !(readRuns x (dmaAddr x.e x.ins.b) (dmaRuns 0 0 2) u).1.isOk) = true ∧
    meets1 0x18 (d (5 * 2 ^ 8) 16 0 false id) (fun x _ => x.ins.par 15 8 == 5 && (x.p.shares.find? fun e => e.1 == 5).isNone) = true ∧
    meets1 0x18 (d (5 * 2 ^ 8) 16 0 false (shareProg 2)) (fun x _ => !(2 : Nat).testBit x.i &&
      (x.p.shares.find? fun e => e.1 == 5) == some (5, 2)) = true ∧
    meets1 0x18 (d (5 * 2 ^ 8) 16 0 false (shareProg 3)) (fun x _ => (3 : Nat).testBit x.i && popcount 64 3 != 1 &&
      (x.p.shares.find? fun e => e.1 == 5) == some (5, 3) && x.p.waitShare == []) = true := by decide +kernel

/-- The second of a share's two engines, with the address of the first or another. -/
def sharing (addr : Nat) : State :=
  issues 0x18 0 (5 * 2 ^ 8) 16 0 1 false fresh (fun p => { shareProg 3 p with waitShare := [⟨1, 5, false, addr, 0, 0, 1, [(20, 1)]⟩] })

theorem test_meets_ExternalTransfers_share :
    let olds := fun q : Ectx × State => q.1.p.waitShare.filter fun w => w.tag == 5
    has (works 0x18 (sharing 0x6000000000)) (fun q => (olds q).length + 1 == popcount 64 3 &&
      (readRuns q.1 (dmaAddr q.1.e q.1.ins.b) (dmaRuns 0 0 1) q.2).1.isOk) = true ∧
    has (works 0x18 (sharing 0)) (fun q => (olds q).any fun w => w.addr != 0x6000000000) = true ∧
    after (exec (.dma 0) (sharing 0x6000000000)) (fun t => (eng t 0).dmaOut == [0] && (eng t 0).units.isEmpty) = true ∧
    after (exec (.dma 0) (sharing 0)) (fun t => (eng t 0).pfault.toNat % 4096 == 0x13) = true := by decide +kernel

theorem test_meets_ExternalTransfers_atomf :
    let f := fun a n => issues 0x19 0 (1 * 2 ^ 8) a 524287 none' false (setA 1 n fresh) id
    meets1 0x19 (f 393216 4) (fun x _ => (spanOf x.e x.ins.a 1 false).isNone) = true ∧
    meets1 0x19 (f 16 4) (fun x u => (readSpan 0 [(16, 1)] u).1.isOk &&
      decide (16 * atomUnit x.e x.ins.b + 4 * aReg x.e 1 ≤ 16 * 524288) && (clusterRead 0 0 (16 * 524287) 16 u).1.isOk) = true ∧
    meets1 0x19 (f 16 5) (fun x _ => decide (16 * 524288 < 16 * atomUnit x.e x.ins.b + 4 * aReg x.e 1)) = true := by decide +kernel

theorem test_meets_ParkAndWindows : (grp (holds .parking) 0).st = .parking ∧ (grp (holds .unparking) 0).st = .unparking ∧
    tileAt (holds .unparking) 0 = .unpark ∧ (grp (holds .unparking) 0).named ≠ 0 ∧ (grp (holds .resident) 0).st ≠ .parking ∧
    isUp (issues 0 0 0 0 0 0 false (holds .unparking) id) = true ∧
    ((eng (issues 0 0 0 0 0 0 false (holds .unparking) id) 0).cmd).isSome = true ∧
    after (exec (.unpark 0 0 .uncorrectable) (issues 0 0 0 0 0 0 false (holds .unparking) id))
      (fun t => t.arr.parkUncorr == 1 && t.cmds.isEmpty) = true ∧
    after (exec (.spadWinWrite true 15 0x1FFFF) base) (fun t => Tab.get 0 (eng t 63).winSize 15 == 0x1FFFF) = true := by
  decide +kernel

/-- The same group of a command whose status was fixed before. -/
theorem test_meets_ParkAndWindows_decided :
    let s := issues 0 0 0 0 0 0 false (holds .unparking) id
    let t := { s with cmds := s.cmds.map fun c => { c with decided := some (mkDecision 9 0 3) } }
    has (findCmd t k1) (fun c => c.decided == some (mkDecision 9 0 3) && c.pause.isNone) = true ∧
    after (exec (.unpark 0 0 .uncorrectable) t) (fun t => t.arr.parkUncorr == 1 && t.fe.status == 0) = true ∧
    regPeek .bar0 base 0x01600000 = some 1 := by decide +kernel

/-! ## Upkeep, tamper, wipe -/

/-- Channel 0 after seven and after eight refresh slots; the last line of a pass next. -/
def refreshed (n : Nat) : State := { base with mem := { MemSt.reset with refSlots := [(0, n)] } }

theorem test_meets_RefreshAndScrub : isUp (refreshed 7) = true ∧ Tab.get 0 (refreshed 7).mem.refSlots 0 < 8 ∧
    8 ≤ Tab.get 0 (refreshed 8).mem.refSlots 0 ∧ 0x6000000000 / 64 - 1 + 1 = 0x6000000000 / 64 ∧
    after (exec (.refresh 0) (refreshed 8)) (fun t => Tab.get 0 t.mem.refSlots 0 == 8) = true ∧
    after (exec (.scrubRead 0) (refreshed 7)) (fun t => t.mem.scrubCount == 0) = true := by decide +kernel

/-- The scrub order's next line of channel 0 with errors in some symbols, or poisoned. -/
def scrubs (n : Nat) (p : Bool) : State :=
  let s := refreshed 8
  { s with mem := { s.mem with symErr := Tab.put 0 [] (scrubTarget 0 s) n, poison := if p then [scrubTarget 0 s] else [] } }

theorem test_meets_RefreshAndScrub_line (n : Nat) (p : Bool) : 8 ≤ Tab.get 0 (scrubs n p).mem.refSlots 0 ∧
    (scrubs n p).mem.locked = false ∧ { (scrubs n p).mem with locked := true }.locked = true ∧
    Tab.get 0 (scrubs n p).mem.symErr (scrubTarget 0 (scrubs n p)) = n ∧ (scrubs n p).mem.writeBack = [] ∧
    (scrubTarget 0 (scrubs n p) ∈ (scrubs n p).mem.poison ↔ p = true) := by
  refine ⟨Nat.le_refl 8, rfl, rfl, ?_, rfl, ?_⟩
  · exact Tab.get_put_same [] _ n
  · cases p <;> simp [scrubTarget, scrubs]

/-- A wipe under way after some failed checks; a slot that is receiving. -/
def wiping (tries : Nat) : State := { base with mem := { MemSt.reset with wipeActive := true, wipeTries := tries } }
def receiving : State := { base with flash := { Flash.shipped with slot1 := { Slot.init with st := .receiving } } }

theorem test_meets_TamperAndWipe : base.boot.phase ≠ .held ∧ 1000 ≤ 1000 ∧ 999 < 1000 ∧ slotIn receiving .receiving = some 1 ∧
    (wiping 1).mem.wipeTries + 1 < 3 ∧ 3 ≤ (wiping 2).mem.wipeTries + 1 ∧ base.mem.wipeActive = false ∧
    after (exec (.tamper 1000) receiving) (fun t => (slotOf t 1).st == .empty && t.mem.locked && t.svc.tamper == 1) = true ∧
    after (exec (.wipeCheck false) (wiping 2)) (fun t => t.mem.wipeFailed && !t.mem.wipeActive) = true := by decide +kernel

/-! ## Interrupts -/

/-- Source 33 in some state with a message on its way; block source 0 with a level. -/
def requested (st : SrcState) : State :=
  { base with icu := { IcuSt.reset with messages := [33], src := [(33, { Src.init with st := st, holder := if st = .idle then 7 else 2, prio := 5, en := true, targets := 4 })] } }
def level (line : Bool) (st : SrcState) (status : BitVec 6) : State :=
  { base with fe := { FeSt.reset with status := status, intEn := 1 }, icu := { IcuSt.reset with src := [(0, { Src.init with line := line, st := st })] } }
def targets (x : Tgt) (s : State) : State := { s with icu := { s.icu with tgt := [(2, x)] } }
def awake2 : Tgt := { Tgt.init with mask := false }

theorem test_meets_InterruptDelivery_requests : 33 ∈ (requested .idle).icu.messages ∧ icuMessage 33 = true ∧
    (src (requested .active) 33).st = .active ∧ (src (requested .delivered) 33).st = .delivered ∧
    lineNow (level false .idle 1) 0 = true ∧ (src (level false .idle 1) 0).line = false ∧
    lineNow (level true .pending 0) 0 = false ∧ (src (level true .pending 0) 0).line = true ∧
    (src (level true .active 0) 0).st = .active ∧
    after (exec (.messageArrival 33) (requested .pending)) (fun t => t.icu.merged == 1) = true ∧
    after (exec (.levelAssert 0) (level false .idle 1)) (fun t => (src t 0).st == .pending) = true := by decide +kernel

theorem test_meets_InterruptDelivery_delivery : 33 ∈ Tab.keys (requested .pending).icu.src ∧ icuReserved 33 = false ∧
    bestTarget (targets awake2 (requested .pending)) (src (requested .pending) 33) = some 2 ∧
    bestTarget (targets Tgt.init (requested .pending)) (src (requested .pending) 33) = none ∧
    wantsWake (targets Tgt.init (requested .pending)) (src (requested .pending) 33) = false ∧
    wantsWake (targets { awake2 with power := .sleeping } (requested .pending)) (src (requested .pending) 33) = true ∧
    bestTarget (targets { awake2 with power := .sleeping } (requested .pending)) (src (requested .pending) 33) = none ∧
    after (exec .delivery (targets awake2 (requested .pending))) (fun t => (src t 33).holder == 2) = true ∧
    after (exec .delivery (targets { awake2 with power := .sleeping } (requested .pending))) (fun t => (tgt t 2).power == .waking) = true ∧
    after (exec (.targetSleep 2) (targets awake2 (requested .delivered))) (fun t => (src t 33).st == .pending) = true := by
  decide +kernel

/-- Source 33 of priority 5: target 2 holds a claim of priority 3 or 5; a target without one has rank 0. -/
theorem test_meets_InterruptDelivery_rank :
    let held := fun p => { awake2 with claims := [(40, p)] }
    tgtRank awake2 = 0 ∧ tgtRank (held 3) = 4 ∧ (held 3).claims ≠ [] ∧
    bestTarget (targets (held 3) (requested .pending)) (src (requested .pending) 33) = some 2 ∧
    bestTarget (targets (held 5) (requested .pending)) (src (requested .pending) 33) = none ∧
    (let s := requested .pending
     bestTarget { s with icu := { s.icu with tgt := [(1, held 3), (2, awake2)] } } { src s 33 with targets := 6 } = some 2 ∧
     bestTarget { s with icu := { s.icu with tgt := [(1, awake2), (2, awake2)] } } { src s 33 with targets := 6 } = some 1) := by
  decide +kernel

theorem test_meets_InterruptService_claims : pathUp base .localPort = true ∧ isUp base = true ∧ nextClaim base 2 = none ∧
    nextClaim (requested .delivered) 2 = some 33 ∧ (src (requested .active) 33).holder = 2 ∧
    (icuLevel 33 && (src (requested .active) 33).line) = false ∧ (src (requested .activePending) 33).st = .activePending ∧
    (0x3FF : Word).toNat % 1024 = 0x3FF ∧ (src (requested .pending) 33).st ≠ .active ∧
    after (exec (.icuTComplete .localPort 2 33) (requested .activePending)) (fun t => (src t 33).st == .pending) = true ∧
    after (exec (.icuTComplete .localPort 3 33) (requested .active)) (fun t => t.icu.badComplete == 1) = true ∧
    after (exec (.icuTComplete .bar0 2 33) (requested .active)) (fun t => t.icu.bar0Denied == 1) = true := by decide +kernel

/-- Bit 1 of word 1 is source 33. -/
theorem test_meets_InterruptService_registers : 33 / 32 = 1 ∧ (2 : Word).getLsbD (33 % 32) = true ∧ icuReserved 33 = false ∧
    after (exec (.icuPendSet .localPort 1 2) (requested .idle)) (fun t => (src t 33).st == .pending) = true ∧
    after (exec (.icuPendClr .localPort 1 2) (requested .activePending)) (fun t => (src t 33).st == .active) = true ∧
    after (exec (.icuEnClr .localPort 1 2) (requested .delivered)) (fun t => (src t 33).st == .pending && !(src t 33).en) = true ∧
    after (exec (.icuSrcCfgWrite .localPort 33 0x1000F) (requested .pending)) (fun t => (src t 33).prio == 15) = true := by
  decide +kernel

/-- PEND_SET of a source that is active, and of one pending. -/
theorem test_meets_InterruptService_pendSet : (src (requested .active) 33).st = .active ∧
    after (exec (.icuPendSet .localPort 1 2) (requested .active)) (fun t => (src t 33).st == .activePending && t.icu.merged == 0) = true ∧
    after (exec (.icuPendSet .localPort 1 2) (requested .pending)) (fun t => (src t 33).st == .pending && t.icu.merged == 1) = true := by
  decide +kernel

/-! ## Ethernet and capture streams -/

/-- Both Ethernet ports up. -/
def ports : State := { base with pwr := { PwrSt.reset with dom := [(94, .on), (95, .on)] } }

/-- The tags of R452: an outer one of either kind, an inner one of the first; a payload of 9,167 bytes is one too long
beside a tag, an IPv4 header with options is not accepted. -/
theorem test_meets_EthernetFrames : portUp ports 0 = true ∧ portUp ports 1 = true ∧
    tagsOk [] = true ∧ tagsOk [0x88A80001] = true ∧ tagsOk [0x88A80001, 0x81000002] = true ∧
    tagsOk [0x88A80001, 0x88A80002] = false ∧ tagsOk [0x86DD0001] = false ∧
    dgFits noFrame = true ∧ dgFits { noFrame with tags := [0x81000001], payload := List.replicate 9166 0 } = true ∧
    dgFits { noFrame with tags := [0x81000001], payload := List.replicate 9167 0 } = false ∧
    dgIpOk noFrame = true ∧ dgIpOk { noFrame with ip := { ihl := 6 } } = false ∧
    streamFor ports 0 noFrame.dst = none ∧ noFrame.dst ≠ jobPortOf ports 0 ∧
    after (exec (.badFcsFrame 1 3) ports) (fun t => (prt t 1).fecUncorr == 3) = true ∧
    after (exec (.arpRequest 0 someone 7 [0x86DD0001]) ports) (fun t => (prt t 0).dropIp == 1) = true := by decide +kernel

/-- Stream 0 takes records of 64 bytes from port 0. -/
def stream0 : Stream :=
  { Stream.init with st := .active, port := 1, ringLog2 := 20, tag := 5, udp := 7, recUnits := 1, ring := 0x100000
                     consAddr := 0x40, prodAddr := 0x80, reasm := 1000 }
def streams (x : Stream) : State := { ports with ing := { IngSt.reset with streams := [(0, x)] } }
/-- A record of frame 9 with 64 samples. -/
def rec9 (index count : Nat) : List Byte :=
  leBytes 4 0xCA9E0001 ++ leBytes 1 count ++ leBytes 1 index ++ leBytes 2 5 ++ leBytes 8 9 ++ leBytes 8 0 ++
  leBytes 4 (64 * count) ++ leBytes 2 64 ++ leBytes 2 0 ++ List.replicate 64 0
def frame (seq index count : Nat) : CapFrame :=
  { seq := BitVec.ofNat 64 seq, recCount := count, frameBytes := 64 * count, format := 0, capTime := 0
    recs := [(index, List.replicate 64 0)], tainted := false, time := 0 }
def known9 (x : Stream) : Bool := x.recent.any (fun q => q.toNat == 9) || x.complete.any (fun f => f.seq.toNat == 9)
def rec7 (payload : List Byte) : Datagram := { noFrame with dst := 7, payload := payload }
def recIn (d : Datagram) : Instr := .record d.port d.dst d.payload d.head
/-- A record too short for what it names, seen before the first good one of its frame. -/
def bad9 : List Byte := (rec9 0 1).take 90

theorem test_meets_RecordsAssembled : portUp (streams stream0) 0 = true ∧ dgFits (rec7 (rec9 1 2)) = true ∧
    dgIpOk (rec7 (rec9 1 2)) = true ∧ dgIpOk { rec7 (rec9 1 2) with ip := { proto := 6 } } = false ∧
    streamFor (rxFrame 0 (streams stream0)) 0 7 = some 0 ∧ recOk stream0 bad9 = false ∧ 32 ≤ bad9.length ∧
    recOk stream0 [] = false ∧ recOk stream0 (rec9 2 2) = false ∧ recOk stream0 (rec9 1 2) = true ∧
    recOk stream0 (rec9 31 32) = true ∧
    known9 { stream0 with recent := [9] } = true ∧ known9 { stream0 with asm := [frame 9 0 2] } = false ∧
    ([1, 2, 3, 4].map fun n => frame n 0 2).length = 4 ∧
    (recHdr (rec9 0 1)).count = 1 ∧ (recHdr (rec9 0 1)).seq ∉ stream0.badSeqs ∧
    (recHdr (rec9 0 1)).seq ∈ { stream0 with badSeqs := [9] }.badSeqs ∧
    recAgrees (frame 9 0 3) (recHdr (rec9 1 2)) = false ∧ recAgrees (frame 9 0 2) (recHdr (rec9 1 2)) = true ∧
    (frame 9 0 2).recs.length + 1 = (frame 9 0 2).recCount ∧ streamFor (rxFrame 0 (streams stream0)) 0 8 = none ∧
    (8 : BitVec 16) ≠ jobPortOf (streams stream0) 0 ∧
    after (exec (recIn (rec7 (rec9 1 2))) (streams { stream0 with asm := [frame 9 0 2] }))
      (fun t => (strm t 0).complete.length == 1 && (strm t 0).asm.isEmpty) = true ∧
    after (exec (recIn (rec7 (rec9 1 2))) (streams { stream0 with asm := [1, 2, 3, 4].map fun n => frame n 0 2 }))
      (fun t => (strm t 0).gap.evicted == 1) = true ∧
    after (exec (recIn (rec7 bad9)) (streams stream0)) (fun t => after (exec (recIn (rec7 (rec9 0 1))) t)
      (fun t => (strm t 0).complete.isEmpty && (strm t 0).asm.length == 1)) = true := by decide +kernel

/-- A completed frame waits; the ring is empty, or its consumer count cannot be read. -/
def commits (gap : Gap) (cons : Quad) : State :=
  streams { stream0 with complete := [frame 9 0 1], gap := gap, consAddr := cons }
def oneBad : Gap := { Gap.init with bad := 1 }
def fits (s : State) : Bool := frameFits (strm s 0) (ringRoom 0 s).1 (frame 9 0 1)
/-- A write of ING_S_CTRL for port 0 with a ring of 2^n bytes. -/
def ctrl (n : Nat) : Nat := 2 ^ 27 + n * 2 ^ 19 + 5
def idle0 : Stream := { stream0 with st := .disabled }

theorem test_meets_StreamCommitAndControl : isUp (streams stream0) = true ∧
    ([stream0, idle0, { stream0 with st := .stopping }].map fun x => (strm (streams x) 0).st) = [.active, .disabled, .stopping] ∧
    (strm (commits Gap.init 0x40) 0).complete ≠ [] ∧ (strm (streams stream0) 0).complete = [] ∧
    fits (commits Gap.init 0x40) = true ∧ fits (commits oneBad 0x40) = true ∧
    fits (commits Gap.init 0xFFFFFFFFFFFFFFF8) = false ∧ oneBad.due = true ∧ Gap.init.due = false ∧
    streamOk (setStrm 0 (setCtrl (ctrl 20) idle0) (streams idle0)) 0 = true ∧
    streamOk (setStrm 0 (setCtrl (ctrl 19) idle0) (streams idle0)) 0 = false ∧
    after (exec (.frameCommit 0) (commits oneBad 0x40)) (fun t => (strm t 0).prod == 192) = true ∧
    after (exec (.streamStop 0 0) (streams stream0)) (fun t => (strm t 0).st == .disabled && (strm t 0).prod == 64) = true := by
  decide +kernel

/-- The last completed frame of a stream that is being stopped; a write at the end of Carafe's part for contexts. -/
theorem test_meets_StreamCommitAndControl_entries :
    let s := streams { stream0 with st := .stopping, complete := [frame 9 0 1] }
    fits s = true ∧ (strm s 0).complete.length = 1 ∧
    after (exec (.frameCommit 0) s) (fun t => (strm t 0).st == .disabled && (strm t 0).prod == 192) = true ∧
    after (exec (.frameCommit 0) s) (fun t => Tab.get 0 t.mem.carafe (0x100000 + 128 + 3) == 4) = true ∧
    6080 * 0x4000000 - 1 + [(7 : Byte)].length ≤ 6080 * 0x4000000 ∧ base.mem.locked = false ∧ base.mem.poison = [] ∧
    base.mem.symErr = [] ∧ base.flash.retired = [] ∧ 255 < 256 ∧ (frame 9 0 1).frameBytes + 64 < 2 ^ 32 := by decide +kernel

/-- Queue 1 served by frames of port 0 from sender 3; frame 1 is due next. -/
def frames (st : QState) (head : Word) : State :=
  { ports with queues := [(1, { queue1 with st := st, kind := 2, port := 1, source := 3, sqAddr := 0x100000, cqAddr := 0x200000
                                            sqTail := 16, sqHead := head })] }
def jobBytes (kind n seq : Nat) : List Byte :=
  leBytes 4 0xCA9F0001 ++ leBytes 2 1 ++ leBytes 1 n ++ leBytes 1 kind ++ leBytes 4 3 ++ leBytes 4 0 ++ leBytes 8 seq ++
  leBytes 8 0 ++ List.replicate (64 * n) 0
def dgram (b : List Byte) : Datagram := { noFrame with dst := 0, payload := b }
def accepts (s : State) (b : List Byte) : Bool := jobFormOk b false && jobAccepted s (.eth (dgram b)) (jobHdr b) && jobTagOk s 0 b
def freeSlots (s : State) : Nat := ((que s 1).sqHead + BitVec.ofNat 32 (2 ^ (que s 1).sqLog.toNat) - (que s 1).sqTail).toNat

/-- Port 0 with a job key, a UDP payload too short for its tag; a route for queue 1 over link 2, its link ACTIVE. -/
def secret (s : State) : State := { s with flash := { s.flash with jobKey := [some 5, none] } }
def routed (s : State) : State :=
  { s with ing := { s.ing with routes := [(1, 2)] }
           kw := { s.kw with links := [(2, { Link.init with st := .active })] } }

theorem test_meets_JobFrames_forms : dgFits (dgram (jobBytes 1 1 1)) = true ∧ dgIpOk (dgram (jobBytes 1 1 1)) = true ∧
    (dgram (jobBytes 1 1 1)).dst = jobPortOf (frames .active 16) 0 ∧
    dgIpOk { dgram (jobBytes 1 1 1) with tags := [1] } = false ∧
    (secret base).flash.jobKey.getD 0 none = some 5 ∧ jobFormOk (jobBytes 1 1 1) true = false ∧
    jobFormOk (jobBytes 1 1 1 ++ List.replicate 16 0) true = true ∧
    routeOf (routed (frames .active 16)) 1 = some 2 ∧ (lnk (routed (frames .active 16)) 2).st = .active ∧
    (que (routed ports) 1).kind = 1 ∧ (lnk (routed ports) 2).sameInst = false ∧
    (que (routed { ports with queues := [] }) 1).st = .unused ∧
    jobTagOk (routed { ports with queues := [] }) 0 (jobBytes 1 1 1) = true ∧
    after (exec (.submit (dgram (jobBytes 1 1 1))) (routed { ports with queues := [] }))
      (fun t => t.ing.relays.length == 1 && (lnk t 2).queued.isEmpty) = true := by decide +kernel

theorem test_meets_JobFrames : portUp (frames .active 16) 0 = true ∧ isPoll (dgram (jobBytes 2 0 1)) = true ∧
    isPoll (dgram (jobBytes 1 1 1)) = false ∧ jobFormOk (jobBytes 1 17 1) false = false ∧
    jobFormOk (jobBytes 1 16 1) false = true ∧
    routeOf (frames .active 16) 1 = none ∧ jobAccepted base (.eth (dgram (jobBytes 1 1 1))) (jobHdr (jobBytes 1 1 1)) = false ∧
    accepts (frames .active 16) (jobBytes 1 16 1) = true ∧ accepts (frames .active 16) (jobBytes 2 0 1) = true ∧
    accepts (frames .error 16) (jobBytes 1 1 1) = true ∧ (jobHdr (jobBytes 1 1 0)).seq.toNat ≤ 0 ∧
    0 + 1 < (jobHdr (jobBytes 1 1 2)).seq.toNat ∧
    freeSlots (frames .active 16) = 16 ∧ freeSlots (frames .active 1) = 1 ∧
    (writeEntries 1 (List.range 1) 16 (jobBytes 1 1 1) (frames .active 16)).isSome = true ∧
    after (exec (.submit (dgram (jobBytes 1 1 1))) (frames .active 16)) (fun t => (que t 1).sqTail == 17 && (que t 1).lastFrame == 1) =
      true := by decide +kernel

/-! ## Kweow links -/

/-- Link 0 with a record. -/
def linked (x : Link) (s : State) : State := { s with kw := { s.kw with links := [(0, x)] } }
/-- Link 0 in a state; with a peer of serial 4. -/
def linkIn (st : LState) : State := linked { Link.init with st := st } base
def live : Link := { Link.init with st := .active, peer := 4 }
def keyed (s : State) : State := { s with rng := { RngSt.reset with st := .running, buffer := [0] } }
def stranger : PeerInfo := { serial := 4, cert := none, pub := [], idKey := [], sig := [], encrypt := false, nextLsn := 0, wasReset := true }
def refusing : State := { keyed (linkIn .identify) with kw := { (linkIn .identify).kw with refuse := true } }

theorem test_meets_LinkTraining : isUp base = true ∧ (lnk (linkIn .equalize) 0).st = .equalize ∧
    (lnk (linkIn .identify) 0).st = .identify ∧ (lnk base 0).st = .disabled ∧ (lnk (linkIn .active) 0).st = .active ∧
    base.bb.queue.length < 240 ∧ (linkIn .identify).rng.st ≠ .fatal ∧ (linkIn .identify).mem.wipeFailed = false ∧
    (drawKey (linkIn .identify)).1 = none ∧ (drawKey (keyed (linkIn .identify))).1.isSome = true ∧
    (keyed (linkIn .identify)).kw.refuse = false ∧ refusing.kw.refuse = true ∧
    after (exec (.trainingTimeout 0) (linkIn .align)) (fun t => (lnk t 0).cause == 2) = true := by decide +kernel

/-- A peer without a certificate is foreign, whatever the exchange's bytes. -/
theorem test_meets_LinkTraining_foreign (b : List Byte) : sameInstallation refusing stranger b = false := rfl

/-- A flit with its CHECK and its code. -/
def sealed (f : Flit) : Flit :=
  { f with check := flitCheck live [] f, parity := flitCode { f with check := flitCheck live [] f } }
/-- A flit of a kind with its CHECK and its code, an acknowledgement of everything before extended LSN `ack` + 1. -/
def flit (kind lsn ack : Nat) : Flit :=
  sealed { bareFlit kind with lsn := BitVec.ofNat 24 lsn, ack := BitVec.ofNat 24 ack, som := true, eom := true }
def noAck : Nat := 0xFFFFFF
def rows512 : Link := { live with rxLsn := 512 }
/-- Link 0 with one flit unacknowledged. -/
def unackedLink : Link := { live with unacked := [bareFlit 1], txLsn := 1 }

/-- Such a flit verifies on a link like `live`, with up to 8 byte errors. -/
theorem flit_good (x : Link) (hx : x.encrypted = false ∧ x.epoch = 0) (kind lsn ack n : Nat) (hn : n ≤ 8) :
    flitGood (linked x base) 0 lsn (flit kind lsn ack) n = true := by
  have h : lnk (linked x base) 0 = x := rfl
  have he : (bareFlit kind).epoch = 0 := rfl
  have hl : live.encrypted = false := rfl
  simp [flit, flitGood, sealable, h, hx.1, hx.2, codeOk, hn, sealed, flitCode, flitHeader, he, flitCheck, hl]

/-- The hypotheses on the flit, with the boundary of 8 byte errors. -/
theorem test_meets_FlitsReceived_good : flitGood (linked live base) 0 0 (flit 1 0 noAck) 8 = true ∧
    flitGood (linked live base) 0 0 (flit 0 0 0) 0 = true ∧ flitGood (linked unackedLink base) 0 0 (flit 2 0 noAck) 0 = true ∧
    flitGood (linked live base) 0 0 (flit 1 0 noAck) 9 = false :=
  ⟨flit_good live ⟨rfl, rfl⟩ 1 0 noAck 8 (by decide), flit_good live ⟨rfl, rfl⟩ 0 0 0 0 (by decide),
    flit_good unackedLink ⟨rfl, rfl⟩ 2 0 noAck 0 (by decide), by simp [flitGood, codeOk]⟩

theorem test_meets_FlitsReceived : (lnk (linked live base) 0).st = .active ∧ extendLsn live 0 = some live.rxLsn ∧
    extendLsn rows512 0 = some 0 ∧ rows512.rxLsn ≤ 0 + 512 ∧ extendLsn live 1 = some 1 ∧ live.rxLsn < 1 ∧
    extendLsn live 0xFFFFFF = none ∧ extendLsn { live with rxLsn := 513 } 0 = some 0 ∧ live.queued = [] ∧
    live.encrypted = false ∧
    ((flit 2 0 noAck).ack.toNat + 1 + 2 ^ 24 - (unackedLink.txLsn - unackedLink.unacked.length) % 2 ^ 24) % 2 ^ 24 = 0 ∧
    ((flit 0 0 0).ack.toNat + 1 + 2 ^ 24 - (unackedLink.txLsn - unackedLink.unacked.length) % 2 ^ 24) % 2 ^ 24 = 1 ∧
    unackedLink.unacked ≠ [] ∧ unackedLink.retriesInRow < 16 ∧ 16 ≤ { unackedLink with retriesInRow := 16 }.retriesInRow ∧
    4095 ≤ { live with sinceAlign := 4095 }.sinceAlign ∧ live.sinceAlign < 4095 := by decide +kernel

/-- Flits of a message in pieces: its first, one between, its last. -/
def ones : List Byte := List.replicate 224 1
def piece (som eom : Bool) : Flit :=
  sealed { bareFlit 1 with lsn := 0, ack := 0xFFFFFF, som := som, eom := eom, payload := ones }
def inPieces : Link := { live with asm := [(0, List.replicate 224 0)] }

theorem piece_good (x : Link) (hx : x.encrypted = false ∧ x.epoch = 0) (som eom : Bool) :
    flitGood (linked x base) 0 0 (piece som eom) 0 = true := by
  have h : lnk (linked x base) 0 = x := rfl
  have he : (bareFlit 1).epoch = 0 := rfl
  have hl : live.encrypted = false := rfl
  simp [piece, flitGood, sealable, h, hx.1, hx.2, codeOk, sealed, flitCode, flitHeader, he, flitCheck, hl]

theorem test_meets_FlitsReceived_pieces (som eom : Bool) : flitGood (linked inPieces base) 0 0 (piece som eom) 0 = true ∧
    flitGood (linked live base) 0 0 (piece som eom) 0 = true ∧ (piece som eom).kind = 1 ∧ (piece som eom).som = som ∧
    (piece som eom).eom = eom ∧ (live.asm.find? fun a => a.1 == 0).isNone = true ∧
    (inPieces.asm.find? fun a => a.1 == 0).map (·.2) = some (List.replicate 224 0) :=
  ⟨piece_good _ ⟨rfl, rfl⟩ .., piece_good _ ⟨rfl, rfl⟩ .., rfl, rfl, rfl, rfl, rfl⟩

/-- A message of three flits; a link without credit, or not ACTIVE. -/
theorem test_meets_FlitsReceived_messages : (msgBytes ⟨5, 0, 6, 0, List.replicate 433 0⟩).length = 449 ∧
    (msgFlits 0 3 true (msgBytes ⟨5, 0, 6, 0, List.replicate 433 0⟩)).map (fun f => (f.som, f.eom)) =
      [(true, false), (false, false), (false, true)] ∧
    (lnk (linkIn .holdoff) 0).st ≠ .active ∧
    hasCredit { live with unacked := List.replicate 512 noFlit } 0 = false ∧ hasCredit live 3 = true := by decide +kernel

/-- The catalogue check values of CRC-64/ECMA-182 and CRC-32. -/
theorem test_crc64 : crc64 [0x31, 0x32, 0x33, 0x34, 0x35, 0x36, 0x37, 0x38, 0x39] = 0x6C40DF5F0B497347 ∧
    crc32 [0x31, 0x32, 0x33, 0x34, 0x35, 0x36, 0x37, 0x38, 0x39] = 0xCBF43926 := by decide +kernel

/-- A message waits on link 0, whose peer, of the same installation, binding 2 names in epoch 6. -/
def arrives (m : Msg) (s : State) : State :=
  linked { live with sameInst := true, inbox := [m] }
    { s with bindings := [(2, { Binding.init with bound := true, serial := 4, link := 0, epoch := 6 })] }
def msg (ty : Nat) (w3 : Word) (body : List Byte) : Msg := ⟨ty, 0, 6, w3, body⟩
def linkQueue : State :=
  { base with queues := [(1, { queue1 with port := 4, sqAddr := 0x100000, cqAddr := 0x200000 })] }
def raises (s : State) (m : Msg) : List Nat :=
  (bindingOf s 0).filter fun b => signalAllowed s b (leAt m.body 0 8 % 4096) m.w2
def peerFence : State := { base with fences := [(5, { Fence.init with peerOk := true, binding := 2 })] }
def signal5 (n : Word) : Msg := msg 3 n (leBytes 8 5 ++ leBytes 8 9)
def sending : State := withCmds [{ cmd 7 2 5 1 0 with st := .running, work := .peerSignal 3 }] base

/-- Frame 1 of the sender, relayed over link 0; its reply, without and with a job key. -/
def relayed (s : State) : State := arrives (msg 2 0 (jobBytes 1 0 1)) { s with ing := { s.ing with relays := [(0, dgram (jobBytes 1 1 1))] } }

theorem test_meets_JobAndSignalMessages_replies : routeOf (arrives (msg 1 0 []) linkQueue) (jobHdr (jobBytes 1 1 1)).q = none ∧
    routeOf (routed base) (jobHdr (jobBytes 1 1 1)).q ≠ none ∧
    has ((relayed ports).ing.relays.find? fun r => r.1 == 0 && answers (jobBytes 1 0 1) r.2) (fun r => r.2 == dgram (jobBytes 1 1 1)) = true ∧
    portUp (relayed ports) 0 = true ∧ portUp (relayed base) 0 = false ∧ ports.flash.jobKey.getD 0 none = none ∧
    (secret ports).flash.jobKey.getD 0 none = some 5 ∧ ports.mem.wipeFailed = false ∧
    after (exec (.jobReply 0) (relayed ports)) (fun t => t.ing.relays.isEmpty && t.sent.length == 1 && t.flash.jobNonce == 1) = true ∧
    after (exec (.jobReply 0) (relayed base)) (fun t => t.ing.relays.isEmpty && t.sent.isEmpty) = true := by decide +kernel

theorem test_meets_JobAndSignalMessages : (jobFormOk (jobBytes 1 1 1) false && jobAccepted (arrives (msg 1 0 []) linkQueue)
      (.link 0) (jobHdr (jobBytes 1 1 1))) = true ∧
    (jobFormOk [] false && jobAccepted (arrives (msg 1 0 []) linkQueue) (.link 0) (jobHdr [])) = false ∧
    base.ing.relays = [] ∧ answers (jobBytes 1 1 1) (dgram (jobBytes 1 1 1)) = true ∧
    raises (arrives (signal5 1) peerFence) (signal5 1) = [2] ∧ raises (arrives (signal5 1) base) (signal5 1) = [] ∧
    (signal5 0).w3.toNat ≤ (bnd (arrives (signal5 0) peerFence) 2).got.toNat ∧
    (bnd (arrives (signal5 1) peerFence) 2).got.toNat < (signal5 1).w3.toNat ∧
    (signalCmd (arrives (msg 4 3 []) sending) 0 (msg 4 3 [])).isSome = true ∧
    signalCmd (arrives (msg 4 2 []) sending) 0 (msg 4 2 []) = none ∧
    after (exec (.peerSignalMessage 0) (arrives (signal5 1) peerFence)) (fun t => (fnc t 5).val == 9) = true ∧
    after (exec (.signalAck 0) (arrives (msg 4 3 []) sending)) (fun t => t.cmds.isEmpty) = true := by decide +kernel

/-- A lock-step run of binding 2 whose own checkpoint 0 is formed; a member, index 0 of 2, of split group 6. -/
def lockRun (peer : List (Nat × Digest)) : Run :=
  { aRun with ls := { LockStep.off with on := true, binding := 2, own := [(0, 8)], peer := peer } }
def lockStepped (m : Msg) (peer : List (Nat × Digest)) : State := arrives m (annealed (lockRun peer))
/-- The same with checkpoint 0 of SEQ 0 already received. -/
def heardOnce (m : Msg) : State :=
  { lockStepped m [] with bindings := [(2, { Binding.init with bound := true, serial := 4, link := 0, epoch := 6, seen := [(0, 0)] })] }
def memberRun (joined : List (Nat × Nat × Quad)) : Run :=
  { aRun with split := { splitState [] [] with devices := 2, group := 6, digest := 0, joined := joined, complete := false } }
def member (st : CState) (joined : List (Nat × Nat × Quad)) (m : Msg) : State :=
  arrives m { withCmds [{ atWork 0x12 (.anneal (memberRun joined)) with st := st }] base with models := [(0, aModel)] }
def join (dig : Byte) : Msg := msg 7 1 (dig :: List.replicate 31 0 ++ leBytes 8 1)

/-- Every command with its status fixed. -/
def committed (s : State) : State := { s with cmds := s.cmds.map fun c => { c with decided := some (mkDecision 0 0 0) } }

theorem test_meets_LockStepAndSplitMessages : epochBinding (lockStepped (msg 5 0 []) []) 0 6 = some 2 ∧
    epochBinding (lockStepped (msg 5 0 []) []) 0 7 = none ∧ (0, 0) ∈ (bnd (heardOnce (msg 5 0 [])) 2).seen ∧
    (0, 0) ∉ (bnd (lockStepped (msg 5 0 []) []) 2).seen ∧ lsCmd (arrives (msg 5 0 []) base) 2 0 = none ∧
    lsLater (lockStepped (msg 5 0 []) []) 0 (msg 5 0 []) = false ∧
    has (lsCmd (lockStepped (msg 5 0 []) []) 2 0) (fun c => c.lockStep == some (lockRun []).ls) = true ∧
    (lockRun []).ls.alone = false ∧ leAt (leBytes 4 0xFFFFFFFF) 0 4 = 0xFFFFFFFF ∧ leAt (leBytes 4 0) 0 4 ≠ 0xFFFFFFFF ∧
    ((splitCmd (member .admitting [] (join 0)) 0 6).any fun p => p.1.notStarted) = true ∧
    ((1 : Word).toNat % 128 = 1 ∧ 1 ≠ (memberRun []).split.index ∧ 1 < (memberRun []).split.devices) ∧
    digOf (slice 0 32 (join 1).body) ≠ (memberRun []).split.digest ∧
    digOf (slice 0 32 (join 0).body) = (memberRun []).split.digest ∧
    bit (leAt (join 0).body 32 8) 0 = true ∧ (memberRun [(1, 0, 0)]).split.joined = [(1, 0, 0)] ∧
    (memberRun []).split.joined = [] ∧
    bit (leAt (msg 7 1 (List.replicate 40 0)).body 32 8) 0 = false ∧ (memberRun []).split.devices ≤ 2 ∧
    has (splitCmd (committed (member .running [] (msg 10 1 []))) 0 6) (fun p => p.1.decided.isSome) = true ∧
    leAt (leBytes 12 0 ++ leBytes 4 1) 12 4 = 1 ∧ leAt (leBytes 16 0) 12 4 = 0 ∧
    turnsGot (memberRun []).split 1 = 0 ∧
    fld (1 : Word).toNat 15 8 = (memberRun []).split.index ∧ fld (0x100 : Word).toNat 15 8 ≠ (memberRun []).split.index ∧
    after (exec (.checkpointMessage 0) (heardOnce (msg 5 0 (leBytes 8 0 ++ leBytes 32 8)))) (fun t => t.det.lsReplay == 1) = true ∧
    after (exec (.splitJoin 0) (member .admitting [] (join 0)))
      (fun t => t.cmds.any fun c => match c.work with | .anneal r => r.split.joined == [(1, 0, 1)] | _ => false) = true ∧
    after (exec (.checkpointMessage 0) (lockStepped (msg 5 0 (leBytes 8 0 ++ leBytes 32 9)) []))
      (fun t => t.det.lsMismatch == 1) = true ∧
    after (exec (.splitFail 0) (member .running [] (msg 10 1 []))) (fun t => t.cmds.isEmpty) = true := by decide +kernel

/-- A device heard on a link that is ACTIVE, and one heard by that device alone; groups of runs that have ended. -/
def joinedTo (l : Nat) (h : Quad) : SplitSt := { splitState [] [] with devices := 3, group := 6, joined := [(1, l, h)] }
def ended (p : List SplitSt) (m : Msg) : State := let s := arrives m base; { s with kw := { s.kw with past := p } }

theorem test_meets_LockStepAndSplitMessages_routes : directLink (ended [] (join 0)) (joinedTo 0 4) 1 = some 0 ∧
    directLink (ended [] (join 0)) (joinedTo 0 4) 2 = none ∧ hears (joinedTo 0 4) 1 2 = true ∧
    routeTo (ended [] (join 0)) (joinedTo 0 4) 2 = some 0 ∧ directLink (ended [] (join 0)) (joinedTo 3 4) 1 = none ∧
    routeTo (ended [] (join 0)) (joinedTo 0 1) 2 = none ∧
    1 < (memberRun []).split.devices ∧ splitCmd (ended [joinedTo 0 4] (join 0)) 0 6 = none ∧
    (ended [joinedTo 0 4] (join 0)).kw.past.find? (fun p => p.group == 6) = some (joinedTo 0 4) ∧
    (lnk (ended [] (join 0)) 0).sameInst = true ∧ (ended [] (join 0)).kw.past.find? (fun p => p.group == 6) = none ∧
    has (memberRun [(1, 0, 1)]).split.joined.head? (fun j => j.1 == 1) = true ∧
    bit 1 (memberRun []).split.index = true := by decide +kernel

/-! ## The service port -/

/-- The part in service, owned by the holder of the test key; its signed requests. -/
def ownedBy (f : Flash → Flash) : State := { base with flash := f { Flash.shipped with owner := some testKey } }
def ours : State := ownedBy id
def signedReq (body : List Byte) (sig : Nat) : SvcReq := ⟨BitVec.ofNat 16 body.length, 1, body, beBytes 64 sig⟩
def certBody : List Byte := leBytes 8 0 ++ leBytes 16 7
def certSig : Nat := 0x594e39deb524e2073ff12403d4d72b2250666fe0d11fec71bb73372a9eec1cbb3a202cc9f50438c6b2fb24c478e4807390984f8223aa6e8cfc1d80899b74b5f1
/-- A request of some NONCE with the signature (e, e) over its digest e: it verifies for the key R - G, R the point with
abscissa e. -/
def quickReq (nonce : Word) (body : List Byte) (e : Nat) : SvcReq :=
  ⟨BitVec.ofNat 16 body.length, nonce, body, beBytes 32 e ++ beBytes 32 e⟩
/-- The owner with a public key given by its coordinates. -/
def ownedKey (x y : Nat) (f : Flash → Flash) : State :=
  { base with flash := f { Flash.shipped with owner := some (BitVec.ofNat 512 (leNat (beBytes 32 x ++ beBytes 32 y))) } }
def req10 : SvcReq := quickReq 1 (leBytes 4 3600000)
  0x5ae1da45f903763579f8195858e4e304d85541dab90535ffe8e13cda71a616aa
def own10 : State := ownedKey
  0x9fa256209557663e67b91abb28c1b95b6ea164f0b71b7b468db576959d380da4
  0x601758c3346b235a093eb549feaf6deb16a2dab07fe6f34c6ee88c64740e3f50 id
def req11 : SvcReq := quickReq 1 (leBytes 4 1)
  0x22b7d341291b976b6e33eb33f535196cb39f0532f541e9daec12da8490b47136
def own11 : State := ownedKey
  0x858aefdf90a50f1509a50b9cc282f1c3d73e04b0fab4d3b164bc680e4592a142
  0xfd47a537f4af1f938de59ca7052d3fb0d35e31ad7b304528b3a06398a03a1792 id
def req12 : SvcReq := quickReq 1 (leBytes 4 3)
  0xacca2b9cd80bb610fbbd7c1f31c909361fc7db68272f9301ccdf4d20dfefec66
def own12 : State := ownedKey
  0x01b1f23450b4bab8491322676679ed660574b510ee48e65435fceb987609b59d
  0x9db11e00464d5ce42c546bbe9a1b1298cf13c02c4b239bbab89179902e2aa946 id
def req13 : SvcReq := quickReq 1 (leBytes 4 1 ++ List.replicate 32 0)
  0xbe41f6066a0fec64576fbaf76e407c069bb89419a4e581150dbd3d69847138a1
def own13 : State := ownedKey
  0x65f3dd0bb0b7d5b1509bac54cc51510e49900a3d534911972321636536fe602c
  0x2995a4ef08d65321f580331077616cc4206d31284e435569d0bcb962c7a0a84d id
def req14 : SvcReq := quickReq 2 (leBytes 4 1 ++ List.replicate 124 0)
  0xf46a95addaf8fa128a624f279a7fbc2d6e57a18d50c29bca75245c2f8595145e
def own14 : State := ownedKey
  0xd298e846b4077ac90e3d61b4db813831928dbda5f0fd7f2d1217dbc26216dee8
  0x6cdaf9ba0fa6ba1e25a40b9b9e1d907ca203328407efa6f04841a12d8c46f4d5 id
def req15 : SvcReq := signedReq (certBody ++ beBytes 64 certSig)
  0x3b6d134c279b68f7663c2c35302ae3d3e2a797538eb60f2c8421dc62df9a389ad3748cce7baa7500232ab272218e9f191981347bf35d146603cd4fd2d3a2499c
def req16 : SvcReq := quickReq 2 (leBytes 4 65535 ++ [0])
  0x85f28422d76f1e95892ea4e11c57b74b23796e1a695ab2732d39a6be78cabdc0
def own16 : State := ownedKey
  0xbc8e7033653a2e4fef0e116e556f2dcc0dab32fa7a652a865d2818b401bd9daf
  0x0d556c56284c8b31060abdd273eac8aba47284d785ddac4c85b0b76c48ff6ad6 id
def req17 : SvcReq := quickReq 1 (sha256 [])
  0xead646fae004fa4afef4942b6946464c6594e6db0273c0ad7344ef410313bdd3
def own17 : State := ownedKey
  0x0ad783b1b205cabb62e22c10db9b3f1029fa939be604e8cf9dee94dbd3628f1a
  0xb5f4c5b6404734fd3dcc812332a1b17b72be9564e38db65320aa04efa9f556f6 id
def req40 : SvcReq := signedReq (keyBytes testKey)
  0x547ea8a192a3a7400036beff33786ce1adf6413aed8e151edec000710d6df5400c28d30b8a8a44548e6f22d930835e207bcb8536fbde3b9ca0db8bfdba44e9e7
def req41 : SvcReq := quickReq 1 []
  0x08cfb5448d187144eef6574d59c4ddc72b0f88090c472a3f8508b7bff433e1a4
def own41 : State := ownedKey
  0xf1efb9e2983900473d070ba937748c733554aea223dde5046b5170da2dcd9f3d
  0x4ef542f12398dd23e41c6d0494b47db9de64ab6988efcfdf5c1ec52325040682 id
def req42 : SvcReq := quickReq 2 (leBytes 8 0)
  0x0c6a77a5e568b34f5946effc1847cb05dab2768f9bef676abb30f26a4ef89d6a
def own42 : State := ownedKey
  0x48807ac7da409ba2ac9192411904773924cf54a182cb619b0392a86d14cfa677
  0x939efec2bf855fbe5ec58eefff76765b022a2f3a41cb112b98c5b4871a8df766 id
def req43 : SvcReq := quickReq 1 []
  0x3c2d32c689442777ddb1988802d16b3c828148feef5aec2569d18ea1fcb187b9
def own43 : State := ownedKey
  0x65d11be97377c70137e233c8107cf3741e417bb2f8551fa062c1f19a92b38b11
  0xee5924b34df73f720f5dd864f101ca2308a219dea3a97a69394048a240237a75 id
def req44 : SvcReq := quickReq 1 []
  0x565139f5c95e740fed440333f664bbcfe854aa4e1dbf2fd87d5f947d632dc533
def own44 : State := ownedKey
  0x2e200c28744766da4b0669c73e19b55ca28645099c8126ce3e22dd807dc41c81
  0x16605255783c0234181426a40e45b9dc0d836e2c43963cc64fb8de66220578bd id
def req48 : SvcReq := quickReq 7 (leBytes 4 33554432 ++ List.replicate 32 0)
  0xdd5b1c40dbea587119b5ca624189582b20e27b1237d638c5b4d844eaac67e045
def own48 : State := ownedKey
  0x2e8d5f55f0fc7dd1bb331c3ee1f8e9a25c4513c557040c2e2a4b58bcb6bddaa2
  0xfe143e01c87931ad9294073b53b1cc6dcf526982bdf3fe951221d564c4d43bff id
def req4A : SvcReq := quickReq 3 []
  0xef7bc3389b054612d7f393aaacb10ae6f746bbd9aa3ec214d599ee8ea3f32ada
def own4A : State := ownedKey
  0x6efbeb3589a84cc6ded70ad30a7799b0ef4cca552c37279dd4a647ab81b17dd3
  0xf40191d3e14011c67843db31eb13c80abfacf86b78993f984a9bc9166a02880b id
def req4B : SvcReq := quickReq 5 []
  0x9952b2d5628494a2434cb42e245ebb1278c3eec64ab6e1a7c902a37b80d626b8
def own4B : State := ownedKey
  0xe19e62cc944fe51fe4c2eb4867e1ea51de5d404c91527fa66073a7b064bf7f0a
  0xb207cf52ae82553a288b2d3ec8a34ec9c28f2c36d7fdaedc7c1d59ad1d2a0a5a id
def req4C : SvcReq := quickReq 1 []
  0xbb03a7c79221f7ebe4c64f326cee03d27fcba7a4d2eafcab0ee2fafbc1c2db71
def own4C : State := ownedKey
  0x8ea8e35057f5d10944e11e8f3198dcad635fa845eafc04a9f33f8857f87b6e0d
  0xaa2c7a53c077333fe4eac03ffaf7eff2cda8f6aa81c350422be07173c26f88b9 id
def req4D : SvcReq := quickReq 1 (leBytes 4 3600)
  0x83a1fdcadd1c25f83934fb3159e27ba492a0d160ea313bee149c72b186189bcb
def own4D : State := ownedKey
  0xc9e64e0cf0e15d34dc84d5226b48c06f291db7680785c389d5725b89c640d696
  0x79d433f0447fa42184ddfcc6cb5ad4dda847ef67fc372c88accbdddb55fae148 id

theorem test_meets_OwnerSettings_signed : ownerSigned own10 0x10 req10 = true ∧ ownerSigned own11 0x11 req11 = true ∧
    ownerSigned own12 0x12 req12 = true ∧ ownerSigned own13 0x13 req13 = true := by decide +kernel

theorem test_meets_OwnerSettings_signed2 : ownerSigned own14 0x14 req14 = true ∧ ownerSigned ours 0x15 req15 = true ∧
    ownerSigned own16 0x16 req16 = true ∧ ownerSigned own17 0x17 req17 = true ∧
    ecdsaVerify (keyBytes testKey) (req15.body.take 24) (req15.body.drop 24) = true := by decide +kernel

/-- The layouts, at the ends of the ranges, and an unsigned, unframed and unknown request. -/
theorem test_meets_OwnerSettings : isUp ours = true ∧ ([req10, req11, req12, req13, req14, req15, req16, req17].all fun r => framed r 64) = true ∧
    req10.body.length = 4 ∧ leAt req10.body 0 4 = 3600000 ∧ req13.body.length = 36 ∧ leAt req13.body 0 4 = 1 ∧
    req14.body.length = 128 ∧ leAt req14.body 0 4 = 1 ∧ ours.mem.wipeFailed = false ∧ ours.fuse.identity = true ∧
    req15.body.length = 88 ∧ leAt req15.body 0 8 = ours.fuse.serial.toNat ∧
    leAt req16.body 0 4 + (req16.body.length - 4) = 65536 ∧ req17.body.length = 32 ∧ sha256 (stagedBytes ours) = req17.body ∧
    sha256 (stagedBytes (ownedBy fun f => { f with stagedLen := 1 })) ≠ req17.body ∧ framed noReq 64 = false ∧
    ownerSigned ours 0x10 noReq = false ∧ svcServed ours 1 = true ∧ framedN noReq 0 0 = true ∧ knownOp 9 = false := by
  decide +kernel

/-- A request in progress. -/
theorem test_meets_OwnerSettings_busy : base.svc.doneAt ≤ base.now ∧ svcBusy base = false ∧ svcBusy ours = false ∧
    svcBusy { ours with svc := { SvcSt.reset with doneAt := 5 } } = true ∧
    after (exec (.setGlobalTimeout req10) { own10 with svc := { SvcSt.reset with doneAt := 5 } })
      (fun t => t.sent == [.svc 0x10 4 []] && t.flash == own10.flash) = true := by decide +kernel

/-- SET_JOB_KEY completes for whatever key the request unwraps to. -/
theorem test_meets_OwnerSettings_jobKey (k : BitVec 256) (h : Config.unwrapJobKey 0 (req14.body.drop 4) = some k) :
    isUp own14 = true ∧ framed req14 64 = true ∧ req14.body.length = 128 ∧ leAt req14.body 0 4 < 2 ∧
    ownerSigned own14 0x14 req14 = true ∧
    own14.mem.wipeFailed = false ∧ own14.fuse.identity = true ∧
    Config.unwrapJobKey own14.fuse.serial.toNat (req14.body.drop 4) = some k :=
  ⟨rfl, by decide +kernel, by decide +kernel, by decide +kernel, test_meets_OwnerSettings_signed2.1, rfl, rfl, h⟩

theorem test_meets_LifecycleOperations : isUp base = true ∧ lifeState base = 0 ∧ base.pwr.holdup = false ∧
    base.pwr.lowv = false ∧
    framedN req40 64 64 = true ∧ ecdsaVerify req40.body (signedBytes base 0x40 req40) req40.sig = true ∧ lifeState ours = 1 ∧
    ecdsaVerify [] (signedBytes base 0x40 noReq) [] = false := by decide +kernel

theorem test_meets_LifecycleOperations_owned : ownerSigned own41 0x41 req41 = true ∧ framedN req41 0 64 = true ∧
    ownerSigned own42 0x42 req42 = true ∧ framedN req42 8 64 = true ∧ req42.body = serialBytes ours ∧
    ownerSigned own43 0x43 req43 = true ∧ framedN req43 0 64 = true ∧ ownerSigned own44 0x44 req44 = true ∧
    framedN req44 0 64 = true := by
  decide +kernel

/-- No reason, and each reason of R505 for RELEASE_OWNERSHIP. -/
theorem test_meets_LifecycleOperations_reasons : commonReason ours 0x41 = none ∧ commonReason base 0x41 = some 1 ∧
    commonReason (ownedBy fun f => { f with lock := true }) 0x41 = some 2 ∧
    commonReason { ours with boot := { ours.boot with trial := true } } 0x41 = some 3 ∧
    commonReason { ours with pwr := { PwrSt.reset with holdup := true } } 0x41 = some 4 ∧
    commonReason { ours with pwr := { PwrSt.reset with lowv := true } } 0x41 = some 5 ∧
    commonReason (withCmds [atWork 0x13 .none] ours) 0x41 = some 6 ∧
    commonReason { ours with ing := (streams stream0).ing } 0x41 = some 7 := by decide +kernel

/-- A slot that receives `n` bytes with the test image in it; one that waits. -/
def updating (len : Nat) (digest : List Byte) : Slot := { signedSlot .receiving with length := len, digest := digest }
def slots (x : Slot) : State :=
  { ownedBy (fun f => { f with slot1 := x }) with fuse := { Fuses.shipped with vendorKey := imageKey, svnMin := 3 } }
/-- One whole Blotter record, number 0, all zero but for its CRC. -/
def oneRecord : State :=
  { base with bb := { BbSt.reset [(0, BitVec.ofNat 1024 (0x15d70e0c * 2 ^ 992))] with next := 1, done := 1 } }
def block4096 (off : Word) : SvcReq := ⟨4096, off, List.replicate 4096 0, []⟩

theorem test_meets_FirmwareUpdate_signed : ownerSigned own48 0x48 req48 = true ∧ ownerSigned own4A 0x4A req4A = true ∧
    ownerSigned own4B 0x4B req4B = true ∧ ownerSigned own4C 0x4C req4C = true ∧
    ownerSigned own4D 0x4D req4D = true := by decide +kernel

theorem test_meets_FirmwareUpdate : svcServed ours 0x48 = true ∧
    (List.range 6).all (fun k => commonReason ours (0x48 + k) == none) = true ∧
    framedN req48 36 64 = true ∧ framedN req4A 0 64 = true ∧ framedN req4D 4 64 = true ∧ framedN (block4096 0) 4096 0 = true ∧
    slotIn ours .receiving = none ∧ slotIn ours .pending = none ∧ leAt req48.body 0 4 = 33554432 ∧ 33554432 % 4096 = 0 ∧
    slotIn (slots (updating 8192 [])) .receiving = some 1 ∧ (slotOf (slots (updating 8192 [])) 1).length = 8192 ∧
    4096 % 4096 = 0 ∧
    8192 / 4096 > (updating 8192 []).blocks.length ∧ slotIn (slots (signedSlot .pending)) .pending = some 1 ∧
    leAt req4D.body 0 4 = 3600 ∧
    framedN noReq 0 0 = true ∧ bbHeld oneRecord 0 = true := by decide +kernel

/-- COMMIT's conditions, on a slot of LENGTH 0 whose image has SVN 3. -/
theorem test_meets_FirmwareUpdate_commit : sha256 (imgBytes (updating 0 []) 0 0) ≠ [] ∧
    sha256 (imgBytes (updating 0 (sha256 [])) 0 0) = (updating 0 (sha256 [])).digest ∧
    imageOk (slots Slot.init) (updating 0 (sha256 [])) = true ∧
    imageOk (slots Slot.init) { updating 0 [] with image := [] } = false ∧
    slotSvn (updating 0 []) = 3 ∧ (slots Slot.init).fuse.svnMin.toNat = 3 ∧
    0 / 4096 ≤ (updating 0 []).blocks.length := by decide +kernel

/-! ## Random numbers -/

/-- Samples that alternate in every cell; samples that are all 0. -/
def alternating : BitVec 1024 := BitVec.ofNat 1024 (leNat ((List.replicate 64 [0x00, 0xFF]).flatten))
def ring (r : RngSt) : State := { base with rng := r }
def generating : RngSt := { RngSt.reset with st := .running }

theorem test_meets_RngHealth : (periodTests alternating 128 0 generating.cells).2 = none ∧
    (periodTests 0 128 0 generating.cells).2 = some ([0, 1, 2, 3, 4, 5, 6, 7], []) ∧ generating.heldBlocks.length < 3 ∧
    { generating with heldBlocks := [0, 0, 0] }.heldBlocks.length = 3 ∧ generating.waiting = [] ∧
    generating.buffer.length ≤ 60 ∧
    RngSt.reset.periods < 8 ∧ 8 ≤ { RngSt.reset with periods := 8 }.periods ∧ RngSt.reset.st = .startup ∧
    after (exec (.blockPeriod 0) (ring { generating with failRun := 3 })) (fun t => t.rng.st == .fatal) = true ∧
    after (exec (.blockPeriod 0) (ring { generating with failRun := 2 })) (fun t => t.rng.st == .restart) = true ∧
    after (exec (.startupTestEnd true) (ring { RngSt.reset with periods := 8 })) (fun t => t.rng.st == .running) = true := by
  decide +kernel

/-- A fourth block with a full buffer, or with requests waiting; a failing period before RUNNING. -/
def fourth (buf : List Digest) (ports : List Nat) (reads : List (Path × Nat × Nat)) : State :=
  ring { generating with heldBlocks := [0, 0, 0], buffer := buf, waiting := ports, swWait := reads }

theorem test_meets_RngHealth_waiting :
    after (exec (.blockPeriod alternating) (fourth (List.replicate 64 1) [] [])) (fun t => t.rng.buffer.length == 64 && t.rng.blocks == 0) = true ∧
    after (exec (.blockPeriod alternating) (fourth [] [2, 0] [(.bar0, 4, 0), (.localPort, 8, 0)]))
      (fun t => t.rng.waiting.isEmpty && t.rng.swWait.isEmpty && t.rng.taken == 4 && t.sent.length == 4) = true ∧
    (serveWaiting 1 (fourth [5] [2, 0] [])).rng.waiting = [2] ∧
    (serveWaiting 1 (fourth [5] [] [(.bar0, 4, 0)])).rng.latchBar0 = 5 ∧
    (serveWaiting 1 (fourth [5] [] [(.localPort, 8, 0)])).sent = [.readData .localPort 0x500000000] := by decide +kernel

theorem test_meets_RngHealth_startup : (periodTests 0 128 0 RngSt.reset.cells).2 = some ([0, 1, 2, 3, 4, 5, 6, 7], []) ∧
    after (exec (.blockPeriod 0) (ring RngSt.reset)) (fun t => t.rng.st == .restart && t.rng.failRun == 0) = true ∧
    after (exec (.blockPeriod 0) (ring { RngSt.reset with st := .restart, failRun := 3 })) (fun t => t.rng.st == .fatal) = true ∧
    after (exec (.startupTestEnd false) (ring { RngSt.reset with st := .restart, periods := 8 })) (fun t => t.rng.failRun == 1) = true := by
  decide +kernel

theorem test_meets_RngRequestsAndTest : base.boot.phase = .running ∧ ({ generating with buffer := [5], taken := 6 }.taken < 7) ∧
    ({ generating with buffer := [5], taken := 7 }.buffer = [5]) ∧ generating.buffer = [] ∧ base.pending = [] ∧
    { generating with swWait := [(Path.bar0, 4, 0)] }.swWait = [(.bar0, 4, 0)] ∧ 0 + 1600 ≤ { base with now := 1599 }.now + 1 ∧
    after (step { ring { generating with swWait := [(.bar0, 4, 0)] } with now := 1599 }) (fun t => t.rng.swNotReady == 1) = true ∧
    after (exec (.rngRequest 2) (ring { generating with buffer := [BitVec.ofNat 256 (3 * 2 ^ 224)], taken := 7 }))
      (fun t => t.rng.seedWords == [3] && t.rng.buffer.isEmpty) = true ∧
    after (exec (.rngSwStatRead .bar0 8) (ring { generating with buffer := [5] }))
      (fun t => t.sent.getLast? == some (.readData .bar0 0x500000000)) = true ∧
    after (exec (.katEntry .localPort 3) (ring generating)) (fun t => t.rng.st == .kat && t.rng.katLen == 3) = true ∧
    after (exec (.katGo .bar0 3) (ring generating)) (fun t => t.rng.flags == 64) = true := by decide +kernel

/-- The eighth word to each port and path; hashes in KAT, one of them with its end. -/
def tested : State := ring { generating with st := .kat }
theorem test_meets_RngRequestsAndTest_words :
    (([0, 1] : List (Fin 3)).all fun p => after (exec (.rngRequest p) (ring { generating with buffer := [5, 6], taken := 7 }))
      (fun t => t.rng.buffer == [6] && t.rng.taken == 0)) = true ∧
    ([Path.bar0, .localPort].all fun q => after (exec (.rngSwStatRead q 4) (ring { generating with buffer := [5], taken := 7 }))
      (fun t => t.rng.buffer.isEmpty)) = true ∧
    tested.rng.st = .kat ∧ ((0x10000 : Word).getLsbD 16 = true ∧ (0x10000 : Word).getLsbD 0 = false) ∧
    after (exec (.katGo .localPort 0) tested) (fun t => Tab.get 0 t.rng.katOut 7 == 0x55B85278) = true ∧
    (rngCtrlWrite .localPort 0x10000 tested).rng.st = .restart ∧
    Tab.get 0 (rngCtrlWrite .localPort 0x10000 tested).rng.katOut 0 = 0x42C4B0E3 := by decide +kernel

/-! ## Blotter -/

/-- An event of code 0x60 waits, or of SEVERITY 4, after `n` records of its code in this second. -/
def events (sev n owed : Nat) : State :=
  { base with bb := { BbSt.reset [] with queue := [⟨0x60, 7, sev, [], 0, 0⟩], owed := owed, rate := [(0x60, n, 0)] } }

theorem test_meets_BlotterWriter : base.boot.phase ≠ .held ∧ base.boot.phase ≠ .booting ∧ State.reset.boot.phase = .booting ∧
    (events 1 0 1).bb.queue ≠ [] ∧ (rateOf (events 1 15 0) 0x60).1 < 16 ∧ 16 ≤ (rateOf (events 1 16 0) 0x60).1 ∧
    0 < (events 1 0 1).bb.owed ∧ (events 1 0 0).bb.queue.length + [(0x60, 16, 3)].length ≤ 240 := by decide +kernel

/-- The layout's bounds; after a loss of 7 events. -/
theorem test_meets_BlotterWriter_overrun : 2 ^ 64 - 1 < 2 ^ 64 ∧
    after (exec .blotterWrite (events 1 0 7)) (fun t => t.bb.queue.length == 1 && t.bb.owed == 0 && t.bb.next == 1) = true := by
  decide +kernel

theorem first_byte (m c p q : Nat) : (7 + 256 * m + c * 2 ^ (p + 8)) % 2 ^ (q + 8) ≠ 0 := by
  intro h
  have h2 := Nat.mod_mod_of_dvd (7 + 256 * m + c * 2 ^ (p + 8)) (Nat.pow_dvd_pow 2 (Nat.le_add_left 8 q))
  rw [h, Nat.pow_add 2 p 8, ← Nat.mul_assoc] at h2
  generalize c * 2 ^ p = x at h2
  omega

/-- A record of an event above 0 is not 0: record 7 begins with byte 7. -/
theorem test_meets_BlotterWriter_record (e : Event) : bbRecord 7 e ≠ 0 := by
  intro h
  obtain ⟨m, hm⟩ : ∃ m, leNat (bbBody 7 e) = 7 + 256 * m := ⟨leNat ((bbBody 7 e).drop 1), rfl⟩
  have h1 : (bbRecord 7 e).toNat = 0 := by rw [h]; exact BitVec.toNat_zero
  rw [bbRecord, BitVec.toNat_ofNat, hm] at h1
  exact first_byte m (crc32 (bbBody 7 e)) 984 1016 h1

/-! ## Power -/

/-- The part at point `act` of `pt` with a hold, after samples of some power. -/
def powered (pt act hold : BitVec 3) (w since quiet : Nat) : State :=
  { base with pwr := { PwrSt.reset with point := pt, actual := act, hold := hold, samples := List.replicate 10 (w, w / 2)
                                        sinceLower := since, quiet := quiet } }
def reading (w temp : Nat) : PowerReading :=
  ⟨BitVec.ofNat 16 w, BitVec.ofNat 16 (w / 2), List.replicate 111 (some (BitVec.ofNat 16 (temp * 16))), 0⟩
def overNow (p : PowerReading) (s : State) : Bool := overCap (throttleTime (noteSample p s)) || overTemp (readings p.temps)
def raiseNow (p : PowerReading) (s : State) : Bool := mayRaise (readings p.temps) (throttleTime (noteSample p s))

/-- 760 W is not over the cap, 761 W is; 90 degrees is over no limit, 91 is over that of the stacks. -/
theorem test_meets_PowerControl : isUp base = true ∧ overNow (reading 760 60) (powered 4 4 0 760 9 0) = false ∧
    overNow (reading 761 60) (powered 4 4 0 761 9 0) = true ∧ overNow (reading 100 90) (powered 4 4 0 100 8 0) = false ∧
    overNow (reading 100 91) (powered 4 0 7 100 9 0) = true ∧ raiseNow (reading 400 60) (powered 4 3 0 400 9 99) = true ∧
    raiseNow (reading 400 60) (powered 4 0 1 400 9 98) = true ∧ raiseNow (reading 400 86) (powered 4 3 0 400 9 99) = false ∧
    (powered 4 0 7 100 9 0).pwr.hold = 7 ∧ fld (0xA04 : Word).toNat 15 8 = 10 ∧ 10 < fld (0xB04 : Word).toNat 15 8 ∧
    throttled (powered 4 3 0 0 0 0) = true ∧ throttled (powered 4 4 0 0 0 0) = false ∧
    after (exec (.powerSample (reading 761 60)) (powered 4 4 0 761 9 0)) (fun t => t.pwr.actual == 3) = true ∧
    after (exec (.powerSample (reading 400 60)) (powered 4 0 1 400 9 99)) (fun t => t.pwr.hold == 0 && t.pwr.actual == 0) = true := by
  decide +kernel

theorem test_meets_TripsAndSupply : tripAt 86 * 16 ≤ (BitVec.ofNat 16 1680).toInt ∧
    (BitVec.ofNat 16 1679).toInt < tripAt 86 * 16 ∧
    tripAt 87 * 16 ≤ (BitVec.ofNat 16 1600).toInt ∧ base.boot.phase ≠ .held ∧ base.boot.brown = [] ∧ brown.boot.brown = [1] ∧
    brown.boot.brown.filter (· != 1) = [] ∧ brown.boot.brown.filter (· != 2) ≠ [] ∧
    brown.boot.thermal = false ∧ { brown.boot with thermal := true }.thermal = true ∧ base.pwr.holdup = false ∧
    base.pwr.lowv = false ∧
    base.pwr.refclkOk = true ∧ { base.pwr with refclkOk := false, holdup := true, lowv := true }.holdup = true ∧
    after (exec (.thermtrip 87 1600 false) base) (fun t => t.boot.phase == .held) = true ∧
    after (exec (.thermtrip 86 1600 false) base) (fun t => t.boot.phase == .running) = true := by decide +kernel

/-- The reference clock lost while the part is held or boots. -/
theorem test_meets_TripsAndSupply_held : brown.boot.phase = .held ∧ State.reset.boot.phase = .booting ∧
    after (exec .refclkLost brown) (fun t => !t.pwr.refclkOk && t.pwr.status == brown.pwr.status) = true := by decide +kernel

/-- Engine 9 with its cluster, 73, in some states. -/
def domains (e c : DomState) (off : List Nat) (idle : BitVec 8) : State :=
  { base with emap := { MapSt.reset with phys := [(8, 10)] }
              pwr := { PwrSt.reset with dom := Tab.put .off (Tab.put .off [] 9 e) 73 c, offReq := off, idleOff := idle } }
def domain (d : Nat) (x : DomState) : State := { base with pwr := { PwrSt.reset with dom := [(d, x)] } }

theorem test_meets_PowerDomains : isUp (domains .waking .on [] 0) = true ∧ domState (domains .waking .on [] 0) 9 = .waking ∧
    72 + 9 / 9 = 73 ∧ domState (domains .waking .on [] 0) 73 = .on ∧ domState (domains .waking .waking [] 0) 73 ≠ .on ∧
    9 ∈ (domains .on .on [9] 0).pwr.offReq ∧ 9 ∉ (domains .on .on [9] 0).pwr.wakeAfter ∧
    after (exec (.domainOff 9) (let s := domains .on .on [9] 0; { s with pwr := { s.pwr with wakeAfter := [9] } }))
      (fun t => domState t 9 == .waking) = true ∧
    (List.range 9).all (fun i => domState (domains .off .on [] 0) (9 + i) == .off) = true ∧
    (domain 86 .on).flash.portsOn.getLsbD 0 = false ∧ domState (domain 86 .waking) 86 = .waking ∧
    domState (domain 80 .on) 80 = .on ∧ physOf (domains .on .on [] 1) 8 = some 9 ∧ (eng (domains .on .on [] 1) 8).cmd = none ∧
    readyNeeds (domains .on .on [] 1) 8 = false ∧ 9 ∉ (domains .on .on [] 1).pwr.offReq ∧
    (domains .on .on [] 1).pwr.idleOff ≠ 0 ∧
    after (exec (.domainWake 86) (domain 86 .waking)) (fun t => (lnk t 0).st == .detect) = true ∧
    after (exec (.domainWake 9) (domains .waking .waking [] 0)) (fun t => domState t 9 == .waking) = true ∧
    after (exec (.domainFault 9) (domains .waking .on [] 0)) (fun t => domState t 9 == .failed) = true ∧
    after (exec (.idleOff 8) (domains .on .on [] 1)) (fun t => t.pwr.offReq == [9]) = true := by decide +kernel

end Sys2Proof.Tests
end

section
/-! PROOFS. The registers of BAR0 (O10): status bits, accesses that meet no register, and the latched high word. -/

namespace Sys2Proof.Machine

/-! ## Writes of one word -/

theorem regAligned_word {a : Nat} (h : a % 4 = 0) : regAligned a 4 = true := by
  simp [regAligned, h]

theorem regWrite32_of_none {p : Path} {a : Nat} {s : State} (v : Word) (h : regPeek p s a = none) :
    regWrite32 p a v s = feBadAccess s := by
  simp only [regWrite32, h]

theorem regWrite32_of_isSome {p : Path} {a : Nat} {s : State} (v : Word) (h : (regPeek p s a).isSome = true) :
    regWrite32 p a v s = regPoke p a v s := by
  obtain ⟨x, hx⟩ := Option.isSome_iff_exists.1 h
  simp only [regWrite32, hx]

theorem regWrite_word {p : Path} {a : Nat} (v : Quad) (s : State) (h : a % 4 = 0) :
    regWrite p a 4 v s = regWrite32 p a (v.setWidth 32) s := by
  simp [regWrite, regAligned_word h]

theorem exec_registerWrite {p : Path} {s : State} (a bytes : Nat) (v : Quad) (h : pathUp s p = true) :
    exec (.registerWrite p a bytes v) s = .next (regWrite p a bytes v s) := by
  simp only [exec, execRegisterWrite, if_pos h]

/-- A 4-byte write to a register that is there does what its block says. -/
theorem exec_registerWrite_word {p : Path} {a : Nat} {s : State} (v : Quad) (hup : pathUp s p = true)
    (ha : a % 4 = 0) (hreg : (regPeek p s a).isSome = true) :
    exec (.registerWrite p a 4 v) s = .next (regPoke p a (v.setWidth 32) s) := by
  rw [exec_registerWrite a 4 v hup, regWrite_word v s ha, regWrite32_of_isSome _ hreg]

/-- The low bits of the word that a 4-byte write delivers. -/
theorem setWidth_word {w : Nat} (v : Quad) (h : w ≤ 32) : (v.setWidth 32).setWidth w = v.setWidth w :=
  BitVec.setWidth_setWidth_of_le v h

/-! ## The STATUS and INT_EN registers (R14) -/

theorem regPoke_feStatus (p : Path) (v : Word) (s : State) :
    regPoke p 0x01000004 v s = { s with fe := { s.fe with status := w1c s.fe.status (v.setWidth 6) } } := rfl

theorem regPoke_feIntEn (p : Path) (v : Word) (s : State) :
    regPoke p 0x01000008 v s = { s with fe := { s.fe with intEn := v.setWidth 6 } } := rfl

theorem regPoke_memStatus (p : Path) (v : Word) (s : State) :
    regPoke p 0x01200004 v s = { s with mem := { s.mem with status := w1c s.mem.status (v.setWidth 7) } } := rfl

theorem regPoke_anlStatus (p : Path) (v : Word) (s : State) :
    regPoke p 0x01400004 v s = { s with anl := { s.anl with status := w1c s.anl.status (v.setWidth 6) } } := rfl

theorem regPoke_arrStatus (p : Path) (v : Word) (s : State) :
    regPoke p 0x01500004 v s = { s with arr := { s.arr with status := w1c s.arr.status (v.setWidth 7) } } := rfl

theorem regPoke_pwrStatus (p : Path) (v : Word) (s : State) :
    regPoke p 0x01D00004 v s = { s with pwr := { s.pwr with status := w1c s.pwr.status (v.setWidth 7) } } := rfl

/-! ## Accesses that meet no register (R9, R10) -/

/-- An access that R9 does not accept, or an aligned word where no register is: one access, counted once. -/
def BadWord (p : Path) (s : State) (a bytes : Nat) : Prop :=
  regAligned a bytes = false ∨ (bytes = 4 ∧ a % 4 = 0 ∧ regPeek p s a = none)

theorem regWrite_of_badWord {p : Path} {s : State} {a bytes : Nat} (v : Quad) (h : BadWord p s a bytes) :
    regWrite p a bytes v s = feBadAccess s := by
  rcases h with h | ⟨rfl, ha, hnone⟩
  · simp [regWrite, h]
  · rw [regWrite_word v s ha, regWrite32_of_none _ hnone]

theorem regRead_word {p : Path} {a : Nat} (s : State) (h : a % 4 = 0) :
    regRead p a 4 s = ((regRead32 p a s).1.setWidth 64, (regRead32 p a s).2) := by
  simp [regRead, regAligned_word h]

theorem regRead_of_badWord {p : Path} {s : State} {a bytes : Nat} (h : BadWord p s a bytes) :
    regRead p a bytes s = (0, feBadAccess s) := by
  rcases h with h | ⟨rfl, ha, hnone⟩
  · simp [regRead, h]
  · rw [regRead_word s ha]
    simp [regRead32, hnone]

/-- RNG_SW_STAT is a register: an access that meets none is not a read of it. -/
theorem not_swStat_of_badWord {p : Path} {s : State} {a bytes : Nat} (h : BadWord p s a bytes) :
    ¬ (a = 0x01300010 ∧ (bytes = 4 ∨ bytes = 8)) := by
  rintro ⟨rfl, hbytes⟩
  rcases h with h | ⟨-, -, hnone⟩
  · rcases hbytes with rfl | rfl <;> exact absurd h (by decide)
  · exact absurd hnone (by cases p <;> exact Option.some_ne_none _)

theorem exec_badRegisterAccess_of_badWord {s : State} {a bytes : Nat} (write : Bool) (hup : isUp s = true)
    (h : BadWord .bar0 s a bytes) :
    exec (.badRegisterAccess write a bytes) s =
      .next (if write then feBadAccess s else emit (.readData .bar0 0) (feBadAccess s)) := by
  have hbad : regBad s a bytes = true := by
    rcases h with h | ⟨rfl, -, hnone⟩
    · simp [regBad, h]
    · simp [regBad, hnone]
  have hone : (regAligned a bytes && bytes == 8) = false := by
    rcases h with h | ⟨rfl, -, -⟩
    · simp [h]
    · simp
  simp [exec, execBadRegisterAccess, hup, hbad, hone]

/-- A read of anything but RNG_SW_STAT, whose read may wait, answers at once. -/
theorem exec_lowWordRead {p : Path} {s : State} {a bytes : Nat} (hup : pathUp s p = true)
    (h : ¬ (a = 0x01300010 ∧ (bytes = 4 ∨ bytes = 8))) :
    exec (.lowWordRead p a bytes) s = .next (emit (.readData p (regRead p a bytes s).1) (regRead p a bytes s).2) := by
  simp [exec, execLowWordRead, hup, h]

theorem exec_lowWordRead_of_badWord {p : Path} {s : State} {a bytes : Nat} (hup : pathUp s p = true)
    (h : BadWord p s a bytes) :
    exec (.lowWordRead p a bytes) s = .next (emit (.readData p 0) (feBadAccess s)) := by
  rw [exec_lowWordRead hup (not_swStat_of_badWord h), regRead_of_badWord h]

/-! ## The latched high word (R11) -/

/-- The addresses of registers whose read has an effect of its own: RNG_SW_STAT and RNG_SW_DATA, FE_FLOG_DATA, and those
of the ICU's targets. -/
def EffectRead (a : Nat) : Prop :=
  (0x01300010 ≤ a ∧ a < 0x01300018) ∨ (0x01000100 ≤ a ∧ a < 0x01000140) ∨ (0x01101000 ≤ a ∧ a < 0x01101500)

/-- Where a low word lies in its block: its successor lies in the same block. In FE and RNG, where reads have effects of
their own, it is none of those. -/
theorem regLow_place {a : Nat} (h : regLow a = true) :
    a % 0x100000 < 0xFFFFC ∧ a / 0x100000 ≠ 0x11 ∧
      (a / 0x100000 = 0x10 → a % 0x100000 < 0x6C ∨ 0x40000 ≤ a % 0x100000) ∧
      (a / 0x100000 = 0x13 → a % 0x100000 = 0x18) := by
  unfold regLow at h
  -- one case per block that has 64-bit quantities; the offsets listed there decide
  split at h <;> simp at h <;> omega

/-- Neither word of a 64-bit quantity is a register whose read has an effect of its own. -/
theorem not_effectRead_of_regLow {a b : Nat} (h : regLow a = true) (hb : b = a ∨ b = a + 4) : ¬ EffectRead b := by
  obtain ⟨hin, hicu, hfe, hrng⟩ := regLow_place h
  unfold EffectRead
  omega

/-- A high word is no low word: within each block the listed offsets are at least 8 apart. -/
theorem regLow_high {a : Nat} (h : regLow a = true) : regLow (a + 4) = false := by
  have hin := (regLow_place h).1
  have hblock : (a + 4) / 0x100000 = a / 0x100000 := by omega
  have hoff : (a + 4) % 0x100000 = a % 0x100000 + 4 := by omega
  unfold regLow at h ⊢
  rw [hblock, hoff]
  split at h <;> simp at h ⊢ <;> omega

/-- The latch of path `p` for the high word at `a`, holding a word or none. -/
def setLatch (p : Path) (a : Nat) (w : Option Word) (s : State) : State :=
  { s with fe := { s.fe with latch := Tab.put none s.fe.latch (latchKey p a) w } }

theorem get_latch_setLatch (p : Path) (a : Nat) (w : Option Word) (s : State) :
    Tab.get none (setLatch p a w s).fe.latch (latchKey p a) = w :=
  Tab.get_put_same _ _ _

/-- Of a register whose read has no effect of its own, the branches of RNG_SW_DATA, FE_FLOG_DATA and the claim are not
taken. -/
theorem branches_of_not_effectRead {a : Nat} (p : Path) (s : State) (h : ¬ EffectRead a) :
    a ≠ 0x01300014 ∧ flogLocked a s = false ∧
      ¬ (0x01101000 ≤ a ∧ a < 0x01101500 ∧ a % 0x100 = 8 ∧ p = .localPort) := by
  unfold EffectRead at h
  refine ⟨by omega, ?_, by omega⟩
  have hout : ¬ (0x01000100 ≤ a ∧ a < 0x01000140) := by omega
  simp [flogLocked, hout]

/-- The read of a low word latches the high word of the same state. -/
theorem regRead32_low {p : Path} {a v h : Nat} {s : State} (hlow : regLow a = true) (hv : regPeek p s a = some v)
    (hh : regPeek p s (a + 4) = some h) :
    regRead32 p a s = (BitVec.ofNat 32 v, setLatch p (a + 4) (some (BitVec.ofNat 32 h)) s) := by
  obtain ⟨hdata, hflog, hclaim⟩ := branches_of_not_effectRead p s (not_effectRead_of_regLow hlow (.inl rfl))
  simp only [regRead32, hv, if_neg hdata, hflog, if_neg hclaim, hlow, hh, setLatch, Bool.false_eq_true, if_false,
    if_true, Option.getD_some]

/-- The read of a high word whose latch holds a word returns that and empties the latch. -/
theorem regRead32_high {p : Path} {a : Nat} {w : Word} {s : State} (hlow : regLow a = true)
    (hreg : (regPeek p s (a + 4)).isSome = true) (hw : Tab.get none s.fe.latch (latchKey p (a + 4)) = some w) :
    regRead32 p (a + 4) s = (w, setLatch p (a + 4) none s) := by
  obtain ⟨hdata, hflog, hclaim⟩ := branches_of_not_effectRead p s (not_effectRead_of_regLow hlow (.inr rfl))
  obtain ⟨v, hv⟩ := Option.isSome_iff_exists.1 hreg
  simp only [regRead32, hv, if_neg hdata, hflog, if_neg hclaim, regLow_high hlow, hw, setLatch, Bool.false_eq_true,
    if_false]

/-- LOW_WORD_READ of either word of a 64-bit quantity answers with what the 32-bit read there gives. -/
theorem exec_lowWordRead_word {p : Path} {a b : Nat} {s : State} (hup : pathUp s p = true) (halign : a % 4 = 0)
    (hlow : regLow a = true) (hb : b = a ∨ b = a + 4) :
    exec (.lowWordRead p b 4) s =
      .next (emit (.readData p ((regRead32 p b s).1.setWidth 64)) (regRead32 p b s).2) := by
  have heff := not_effectRead_of_regLow hlow hb
  have hstat : ¬ (b = 0x01300010 ∧ (4 = 4 ∨ 4 = 8)) := by
    unfold EffectRead at heff
    omega
  rw [exec_lowWordRead hup hstat, regRead_word s (by omega)]

/-! ## The obligation -/

/-- Settles O10: each write goes to the register's own case, an access that meets no register is refused whole before any
case is reached, and the latch is a table that the low read fills and the high read empties. -/
theorem registerAccess : Obligations.RegisterAccess := by
  unfold Obligations.RegisterAccess
  refine ⟨fun v s hup => ?_, fun a bytes v s hup hbad => ?_, fun p a v h s hup ha hlow hv hh => ⟨?_, ?_⟩⟩
  · have hwrite {a : Nat} : a % 4 = 0 → (regPeek .bar0 s a).isSome = true →
        exec (.registerWrite .bar0 a 4 v) s = .next (regPoke .bar0 a (v.setWidth 32) s) :=
      exec_registerWrite_word v hup
    refine ⟨?_, ?_, ?_, ?_, ?_, ?_⟩
    · rw [hwrite rfl rfl, regPoke_feStatus, setWidth_word v (by decide), w1c]
    · rw [hwrite rfl rfl, regPoke_feIntEn, setWidth_word v (by decide)]
    · rw [hwrite rfl rfl, regPoke_memStatus, setWidth_word v (by decide), w1c]
    · rw [hwrite rfl rfl, regPoke_anlStatus, setWidth_word v (by decide), w1c]
    · rw [hwrite rfl rfl, regPoke_arrStatus, setWidth_word v (by decide), w1c]
    · rw [hwrite rfl rfl, regPoke_pwrStatus, setWidth_word v (by decide), w1c]
  · refine ⟨?_, exec_badRegisterAccess_of_badWord true hup hbad, exec_badRegisterAccess_of_badWord false hup hbad,
      exec_lowWordRead_of_badWord hup hbad⟩
    rw [exec_registerWrite (p := .bar0) a bytes v hup, regWrite_of_badWord v hbad]
    rfl
  · refine ⟨_, exec_lowWordRead_word hup ha hlow (.inl rfl), ?_⟩
    rw [regRead32_low hlow hv hh]
    exact ⟨rfl, rfl, rfl, rfl, get_latch_setLatch ..⟩
  · intro w u hup hreg hw
    refine ⟨_, exec_lowWordRead_word hup ha hlow (.inr rfl), ?_⟩
    rw [regRead32_high hlow hreg hw]
    exact ⟨rfl, get_latch_setLatch ..⟩

end Sys2Proof.Machine
end

section
/-! PROOFS. What a row of a unit finds and does (O33): issue, the units' order, the park's early transfers, the end of a
stopped program; then LD, ST and VOP. -/

namespace Sys2Proof.Machine

/-! ## The instruction at the PC -/

/-- What `issuing` gives: the program, the fetch, and what the instruction sees. -/
theorem issuing_fetch {op n : Nat} {s u : State} {x : Ectx} (h : issuing op n s x u) :
    progOf s n = some (x.c, x.p) ∧ fetchIns op n x.c x.p s = .run x u ∧ x.n = n ∧ x.e = eng u n ∧ x.ins.op = op ∧
      x.c.decided = none := by
  obtain ⟨c, p, bs, hp, hm, hread, hop, rfl⟩ := h
  refine ⟨hp, ?_, rfl, rfl, hop, ?_⟩
  · simp only [fetchIns, hm, hread, hop, if_true]
  · simp only [mayIssue, Bool.and_eq_true, Option.isNone_iff_eq_none] at hm
    exact hm.1.1.1

/-- A control instruction at the PC runs on the state after its fetch. -/
theorem withIns_issuing {op n : Nat} {s u : State} {x : Ectx} (f : Ectx → State → State) (h : issuing op n s x u) :
    withIns op n f s = f x u := by
  obtain ⟨hp, hf, -⟩ := issuing_fetch h
  simp only [withIns, hp, hf]

/-- The fetch delivers an instruction of the opcode asked for, with no place among the unfinished yet. -/
theorem fetchIns_run {op n : Nat} {c : Cmd} {p : Prog} {s u : State} {x : Ectx} (h : fetchIns op n c p s = .run x u) :
    x.n = n ∧ x.e = eng u n ∧ x.ins.op = op := by
  unfold fetchIns at h
  split at h
  · split at h
    · cases h
    · split at h
      · rename_i hop
        cases h
        exact ⟨rfl, rfl, hop⟩
      · cases h
  · cases h

/-! ## Issue -/

/-- The state when the instruction at the PC has been handed to its unit. -/
def handed (x : Ectx) (u : State) : State :=
  updEng x.n (fun e => { e with units := e.units ++ [⟨e.pc, x.ins, e.areg, false⟩], pc := e.pc + 1, pst := .run }) u

theorem issueIns_eq (x : Ectx) (s u : State) : issueIns x s u =
    if queueFull x.e x.ins.op then .stay s
    else if rangesFull x.e x.ins then .stay (updEng x.n (fun e => { e with pst := .waitHazard }) s)
    else if unitFree (eng (handed x u) x.n) x.e.units.length then goUnit x.c x.p x.n x.e.units.length (handed x u)
    else .stay (handed x u) := rfl

/-- The instruction handed over is the last of the unfinished ones. -/
theorem units_handed {x : Ectx} {u : State} (he : x.e = eng u x.n) :
    (eng (handed x u) x.n).units[x.e.units.length]? = some ⟨x.e.pc, x.ins, x.e.areg, false⟩ := by
  simp [handed, updEng, he]

/-- An unfinished instruction goes on as it was issued. -/
theorem goUnit_of_getElem? {c : Cmd} {p : Prog} {n i : Nat} {s : State} {w : Issued} (h : (eng s n).units[i]? = some w) :
    goUnit c p n i s =
      .run ⟨c, p, n, (eng s n).progEngine, { eng s n with areg := w.areg, pc := w.pc }, w.ins, i, w.begun⟩ s := by
  simp only [goUnit, h]

/-! ## What a row of a unit finds -/

theorem unitGo_of_firstFree {op n i : Nat} {b : Bool} {s : State} {c : Cmd} {p : Prog} (hp : progOf s n = some (c, p))
    (hi : firstFree (eng s n) op b = some i) : unitGo op n s b = goUnit c p n i s := by
  simp only [unitGo, hp, hi]

theorem unitGo_of_firstTransfer {op n : Nat} {b : Bool} {s : State} {e : Engine} (hp : progOf s n ≠ none)
    (hi : firstFree (eng s n) op b = none) (he : firstTransfer (eng s n) op = some e) :
    unitGo op n s b = .stay (setEng n e s) := by
  obtain ⟨⟨c, p⟩, hp⟩ := Option.ne_none_iff_exists'.1 hp
  simp only [unitGo, hp, hi, he]

theorem unitGo_of_issuing {op n : Nat} {b : Bool} {s u : State} {x : Ectx} (h : issuing op n s x u)
    (hi : firstFree (eng s n) op b = none) (he : firstTransfer (eng s n) op = none) :
    unitGo op n s b = issueIns x s u := by
  obtain ⟨hp, hf, -⟩ := issuing_fetch h
  simp only [unitGo, hp, hi, he, hf]

/-- The instruction `x` stands at its place among the unfinished of engine `n`, is of the opcode asked for, has not begun
if that was asked for, and may go on. -/
structure GoesOn (op n : Nat) (b : Bool) (x : Ectx) (u : State) : Prop where
  engine : x.n = n
  opcode : x.ins.op = op
  fresh : b = true → x.begun = false
  place : (eng u n).units[x.ix]? = some ⟨x.e.pc, x.ins, x.e.areg, x.begun⟩
  free : unitFree (eng u n) x.ix = true

/-- What `goUnit` runs is the unfinished instruction at the place given. -/
theorem goesOn_of_goUnit {op n i : Nat} {b : Bool} {c : Cmd} {p : Prog} {s u : State} {x : Ectx} {w : Issued}
    (hw : (eng s n).units[i]? = some w) (hfree : unitFree (eng s n) i = true) (hop : w.ins.op = op)
    (hb : b = true → w.begun = false) (h : goUnit c p n i s = .run x u) : GoesOn op n b x u := by
  rw [goUnit_of_getElem? hw] at h
  cases h
  exact ⟨rfl, hop, hb, hw, hfree⟩

theorem firstFree_some {e : Engine} {op i : Nat} {b : Bool} (h : firstFree e op b = some i) :
    unitFree e i = true ∧ ∃ w, e.units[i]? = some w ∧ w.ins.op = op ∧ (b = true → w.begun = false) := by
  have hi := List.find?_some h
  rw [Bool.and_eq_true] at hi
  refine ⟨hi.1, ?_⟩
  have hw := hi.2
  split at hw
  · rename_i w hget
    rw [Bool.and_eq_true] at hw
    refine ⟨w, hget, eq_of_beq hw.1, fun hb => ?_⟩
    rw [hb, Bool.true_and, Bool.not_eq_true'] at hw
    exact hw.2
  · cases hw

/-- Whatever a row of a unit runs stands among the unfinished, and nothing is in its way. -/
theorem goesOn_of_unitGo {op n : Nat} {b : Bool} {s u : State} {x : Ectx} (h : unitGo op n s b = .run x u) :
    GoesOn op n b x u := by
  unfold unitGo at h
  split at h
  · cases h
  split at h
  · rename_i i hi
    obtain ⟨hfree, w, hw, hop, hb⟩ := firstFree_some hi
    exact goesOn_of_goUnit hw hfree hop hb h
  split at h
  · cases h
  split at h
  · rename_i y v hf
    obtain ⟨rfl, he, hop⟩ := fetchIns_run hf
    rw [issueIns_eq] at h
    split at h
    · cases h
    split at h
    · cases h
    split at h
    · rename_i hfree
      exact goesOn_of_goUnit (units_handed he) hfree hop (fun _ => rfl) h
    · cases h
  · cases h

/-- Nothing before what goes on is in its way (R208). -/
theorem GoesOn.clear {op n : Nat} {b : Bool} {x : Ectx} {u : State} (h : GoesOn op n b x u) :
    ∀ y ∈ (eng u n).units.take x.ix, unitBehind (eng u n) y ⟨x.e.pc, x.ins, x.e.areg, x.begun⟩ = false := by
  have hfree := h.free
  simp only [unitFree, h.place, Bool.and_eq_true, Bool.not_eq_true', List.any_eq_false] at hfree
  exact fun y hy => by simpa using hfree.1 y hy

theorem GoesOn.lt {op n : Nat} {b : Bool} {x : Ectx} {u : State} (h : GoesOn op n b x u) :
    x.ix < (eng u n).units.length :=
  (List.getElem?_eq_some_iff.1 h.place).1

/-! ## Transfers keep every group's sums (R31, R186) -/

/-- What an accumulation has summed up in a group. -/
def Group.sums (x : Group) : Tab Acc × BitVec 6 × Nat × Bool := (x.acc, x.flags, x.k, x.float)

/-- Engine `e` has the unfinished instructions, the PC, the scalar registers and the groups' sums of `a`. -/
structure SumsKept (a e : Engine) : Prop where
  units : e.units = a.units
  pc : e.pc = a.pc
  areg : e.areg = a.areg
  sums : ∀ g, (grp e g).sums = (grp a g).sums

theorem SumsKept.refl (e : Engine) : SumsKept e e := ⟨rfl, rfl, rfl, fun _ => rfl⟩

theorem SumsKept.setTile {a e : Engine} (h : SumsKept a e) (t : Nat) (x : TState) : SumsKept a (setTile t x e) := by
  unfold Machine.setTile
  split <;> exact ⟨h.units, h.pc, h.areg, h.sums⟩

theorem SumsKept.setGrp {a e : Engine} {g : Nat} {y : Group} (h : SumsKept a e) (hy : y.sums = (grp a g).sums) :
    SumsKept a (setGrp g y e) := by
  refine ⟨h.units, h.pc, h.areg, fun k => ?_⟩
  rw [grp_setGrp]
  split
  · rename_i hk
    rw [hk, hy]
  · exact h.sums k

theorem sumsKept_unparkInto (t g : Nat) (e : Engine) : SumsKept e (unparkInto t g e) :=
  ((SumsKept.refl e).setGrp (by rfl)).setTile _ _

theorem sumsKept_of_parkFor {e f : Engine} {g : Nat} (h : parkFor e g = some f) : SumsKept e f := by
  unfold parkFor at h
  split at h
  · cases h
  dsimp only at h
  split at h
  · cases h
    exact ((SumsKept.refl e).setGrp (by rfl)).setTile _ _
  split at h
  · cases h
    exact (((SumsKept.refl e).setGrp (by rfl)).setGrp (by rfl)).setTile _ _
  · cases h

theorem sumsKept_of_makeRoom {e f : Engine} {g : Nat} (h : makeRoom e g = some f) : SumsKept e f := by
  unfold makeRoom at h
  split at h
  · exact sumsKept_of_parkFor h
  · cases h

theorem sumsKept_of_transferFor {e f : Engine} {u : Issued} (h : transferFor e u = some f) : SumsKept e f := by
  unfold transferFor at h
  dsimp only at h
  split at h
  · split at h
    · cases h
      exact sumsKept_unparkInto ..
    · exact sumsKept_of_makeRoom h
  · split at h
    · exact sumsKept_of_makeRoom h
    · cases h
  · cases h

theorem sumsKept_of_firstTransfer {e f : Engine} {op : Nat} (h : firstTransfer e op = some f) : SumsKept e f := by
  unfold firstTransfer at h
  split at h
  · obtain ⟨i, -, hi⟩ := List.exists_of_findSome?_eq_some h
    split at hi
    · split at hi
      · exact sumsKept_of_transferFor hi
      · cases hi
    · cases hi
  · cases h

/-! ## The rows -/

theorem withUnit_run {op n : Nat} {s u : State} {x : Ectx} {b : Bool} (f : Ectx → State → State)
    (h : unitGo op n s b = .run x u) :
    withUnit op n f s b = if x.c.decided.isSome then programStops x.c.key (f x u) else f x u := by
  simp only [withUnit, h]

theorem withUnit_stay {op n : Nat} {s t : State} {b : Bool} (f : Ectx → State → State)
    (h : unitGo op n s b = .stay t) : withUnit op n f s b = t := by
  simp only [withUnit, h]

theorem withUnit_working {op n : Nat} {s u : State} {x : Ectx} {b : Bool} (f : Ectx → State → State)
    (h : working op n s x u b) : withUnit op n f s b = f x u := by
  obtain ⟨hgo, hdec⟩ := h
  rw [withUnit_run f hgo, hdec]
  rfl

/-- The rows of instructions that a unit runs: opcode, whether the row is the instruction's beginning alone, the command and
its meaning. -/
def unitRows (n : Fin 64) : List (Nat × Bool × Instr × (Ectx → State → State)) :=
  [(1, true, .openGroup n true, openIns true), (1, false, .openGroup n false, openIns false),
    (2, true, .mma n true, mmaIns true), (2, false, .mma n false, mmaIns false), (3, true, .drain n true, drainIns true),
    (3, false, .drain n false, drainIns false), (4, true, .sample n true, sampleIns true),
    (4, false, .sample n false, sampleIns false), (5, false, .discard n, discardIns), (8, false, .red n, redIns),
    (0x10, false, .vop n, vopIns), (0x18, false, .dma n, dmaIns), (0x19, false, .atomf n, atomfIns)]

/-- Every row of a unit has its meaning through `withUnit`. -/
theorem exec_unitRow {n : Fin 64} {r : Nat × Bool × Instr × (Ectx → State → State)} (h : r ∈ unitRows n) (s : State) :
    exec r.2.2.1 s = .next (withUnit r.1 n.val r.2.2.2 s r.2.1) := by
  simp only [unitRows, List.mem_cons, List.not_mem_nil, or_false] at h
  rcases h with rfl | rfl | rfl | rfl | rfl | rfl | rfl | rfl | rfl | rfl | rfl | rfl | rfl <;> rfl

section
variable {n : Fin 64} {r : Nat × Bool × Instr × (Ectx → State → State)} {s u : State} {x : Ectx}

/-- A row that issues: a full queue leaves the state, full ranges make the engine wait, else the instruction is handed
over, and goes on where nothing is in its way. -/
theorem exec_unitRow_issuing (hr : r ∈ unitRows n) (h : issuing r.1 n.val s x u)
    (hi : firstFree (eng s n.val) r.1 r.2.1 = none) (ht : firstTransfer (eng s n.val) r.1 = none) :
    (queueFull x.e r.1 = true → exec r.2.2.1 s = .next s) ∧
    (queueFull x.e r.1 = false → rangesFull x.e x.ins = true →
      exec r.2.2.1 s = .next (updEng n.val (fun e => { e with pst := .waitHazard }) s)) ∧
    (queueFull x.e r.1 = false → rangesFull x.e x.ins = false →
      (unitFree (eng (handed x u) n.val) x.e.units.length = false → exec r.2.2.1 s = .next (handed x u)) ∧
      (unitFree (eng (handed x u) n.val) x.e.units.length = true → ∃ y, working r.1 n.val s y (handed x u) r.2.1 ∧
        y.ins = x.ins ∧ y.begun = false ∧ y.ix = x.e.units.length ∧ y.e.areg = x.e.areg ∧ y.e.pc = x.e.pc)) := by
  obtain ⟨-, -, hn, he, hop, hdec⟩ := issuing_fetch h
  have hgo : unitGo r.1 n.val s r.2.1 = issueIns x s u := unitGo_of_issuing h hi ht
  rw [issueIns_eq, hop, hn] at hgo
  rw [exec_unitRow hr]
  refine ⟨fun hq => ?_, fun hq hf => ?_, fun hq hf => ⟨fun hfree => ?_, fun hfree => ?_⟩⟩
  · rw [if_pos hq] at hgo
    rw [withUnit_stay _ hgo]
  · rw [if_neg (by simp [hq]), if_pos hf] at hgo
    rw [withUnit_stay _ hgo]
  · rw [if_neg (by simp [hq]), if_neg (by simp [hf]), if_neg (by simp [hfree])] at hgo
    rw [withUnit_stay _ hgo]
  · have hplace := units_handed (u := u) (x := x) (by rw [hn, he])
    rw [if_neg (by simp [hq]), if_neg (by simp [hf]), if_pos hfree, goUnit_of_getElem? (hn ▸ hplace)] at hgo
    exact ⟨_, ⟨hgo, hdec⟩, rfl, rfl, rfl, rfl, rfl⟩

/-- A row that finds a transfer to begin: it begins, and the engine's groups keep their sums. -/
theorem exec_unitRow_transfer {e : Engine} (hr : r ∈ unitRows n) (hp : progOf s n.val ≠ none)
    (hi : firstFree (eng s n.val) r.1 r.2.1 = none) (ht : firstTransfer (eng s n.val) r.1 = some e) :
    exec r.2.2.1 s = .next (setEng n.val e s) ∧ SumsKept (eng s n.val) e :=
  ⟨by rw [exec_unitRow hr, withUnit_stay _ (unitGo_of_firstTransfer hp hi ht)], sumsKept_of_firstTransfer ht⟩

theorem exec_unitRow_working (hr : r ∈ unitRows n) (h : working r.1 n.val s x u r.2.1) :
    exec r.2.2.1 s = .next (r.2.2.2 x u) := by
  rw [exec_unitRow hr, withUnit_working _ h]

theorem exec_unitRow_stopped (hr : r ∈ unitRows n) (h : unitGo r.1 n.val s r.2.1 = .run x u)
    (hd : x.c.decided ≠ none) : exec r.2.2.1 s = .next (programStops x.c.key (r.2.2.2 x u)) := by
  rw [exec_unitRow hr, withUnit_run _ h, if_pos (Option.isSome_iff_ne_none.2 hd)]

end

/-! ## A program that is stopped (R340) -/

theorem mem_enginesOf {s : State} {k : Key} {m : Nat} : m ∈ enginesOf s k ↔ m < 64 ∧ (eng s m).cmd = some k := by
  simp [enginesOf]

theorem programStops_of_busy {k : Key} {s : State} {m : Nat} (hm : m < 64) (hc : (eng s m).cmd = some k)
    (hu : (eng s m).units ≠ []) : programStops k s = s := by
  refine if_neg fun h => hu ?_
  simpa using List.all_eq_true.1 h m (mem_enginesOf.2 ⟨hm, hc⟩)

theorem programStops_of_idle {k : Key} {s : State} (h : ∀ m, m < 64 → (eng s m).cmd = some k → (eng s m).units = []) :
    programStops k s = completeDecided k s := by
  refine if_pos (List.all_eq_true.2 fun m hm => ?_)
  obtain ⟨hm, hc⟩ := mem_enginesOf.1 hm
  simp [h m hm hc]

/-! ## LD and ST (R216) -/

theorem engineBecomes_setEng (n : Nat) (e : Engine) (s : State) : engineBecomes n e s (setEng n e s) :=
  ⟨eng_setEng_same .., fun _ hm => eng_setEng_other _ _ hm, rfl⟩

theorem engineBecomes_updEng (n : Nat) (f : Engine → Engine) (s : State) :
    engineBecomes n (f (eng s n)) s (updEng n f s) :=
  engineBecomes_setEng ..

theorem updEng_updEng (n : Nat) (f g : Engine → Engine) (s : State) :
    updEng n g (updEng n f s) = setEng n (g (f (eng s n))) s := by
  simp [updEng, setEng, eng]

/-- A register is written and the engine goes on: nothing else changes. -/
theorem engineBecomes_writeA (n i v : Nat) (s : State) : engineBecomes n (setA i v (eng s n)).onward s (writeA n i v s) := by
  unfold writeA advance
  rw [updEng_updEng]
  exact engineBecomes_setEng ..

theorem orHazard_wait {x : Ectx} (f : Ectx → State → State) (s : State) (h : mustWait x = true) :
    orHazard x f s = updEng x.n (fun e => { e with pst := .waitHazard }) s :=
  if_pos h

theorem orHazard_go {x : Ectx} (f : Ectx → State → State) (s : State) (h : mustWait x = false) :
    orHazard x f s = f x s :=
  if_neg (by simp [h])

/-- A load or store that must wait shows WAIT_HAZARD, and nothing else changes. -/
theorem orHazard_engineBecomes {op n : Nat} {s u : State} {x : Ectx} (f : Ectx → State → State)
    (h : issuing op n s x u) (hw : mustWait x = true) :
    engineBecomes n { x.e with pst := .waitHazard } u (withIns op n (fun x => orHazard x f) s) := by
  obtain ⟨-, -, hn, he, -⟩ := issuing_fetch h
  rw [withIns_issuing _ h, orHazard_wait _ _ hw, hn, he]
  exact engineBecomes_updEng ..

theorem readOp_none {x : Ectx} {d units : Nat} {align : Bool} (f : List Byte → State → State) (s : State)
    (h : spanOf x.e d units align = none) : readOp x d units align f s = progFault x 0x10 s := by
  simp only [readOp, h, fAddress]

theorem readOp_ok {x : Ectx} {d units : Nat} {align : Bool} {ps : List (Nat × Nat)} {bs : List Byte} {s v : State}
    (f : List Byte → State → State) (h : spanOf x.e d units align = some ps) (hr : readSpan x.n ps s = (.ok bs, v)) :
    readOp x d units align f s = f bs v := by
  simp only [readOp, h, hr]

theorem spanW_of_none {x : Ectx} {d units : Nat} (hd : d ≠ noneOp) (h : spanOf x.e d units false = none) :
    spanW x d units = .error 0x10 := by
  simp only [spanW, if_neg hd, h, fAddress]

theorem spanW_of_some {x : Ectx} {d units : Nat} {ps : List (Nat × Nat)} (hd : d ≠ noneOp)
    (h : spanOf x.e d units false = some ps) :
    spanW x d units = if hitsProgram x.p ps then .error 0x11 else .ok ps := by
  simp only [spanW, if_neg hd, h, fProgram]

section
variable {n : Fin 64} {s u v : State} {x : Ectx} {ps : List (Nat × Nat)} {bs : List Byte}

theorem exec_ld (h : issuing 0x22 n.val s x u) (hw : mustWait x = false) : exec (.ld n) s = .next (ldIns x u) :=
  congrArg _ ((withIns_issuing _ h).trans (orHazard_go _ _ hw))

theorem exec_ld_addressFault (h : issuing 0x22 n.val s x u) (hw : mustWait x = false)
    (hs : spanOf x.e x.ins.a 1 false = none) : exec (.ld n) s = .next (progFault x 0x10 u) := by
  rw [exec_ld h hw, ldIns, readOp_none _ _ hs]

theorem exec_ld_loads (h : issuing 0x22 n.val s x u) (hw : mustWait x = false)
    (hs : spanOf x.e x.ins.a 1 false = some ps) (hr : readSpan n.val ps u = (.ok bs, v)) :
    ∃ t, exec (.ld n) s = .next t ∧
      engineBecomes n.val (setA (x.ins.par 3 0) (leAt bs (4 * x.ins.par 5 4) 4) (eng v n.val)).onward v t := by
  have hn := (issuing_fetch h).2.2.1
  refine ⟨_, exec_ld h hw, ?_⟩
  rw [ldIns, readOp_ok _ hs (hn ▸ hr), hn]
  exact engineBecomes_writeA ..

theorem exec_st (h : issuing 0x23 n.val s x u) (hw : mustWait x = false) : exec (.st n) s = .next (stIns x u) :=
  congrArg _ ((withIns_issuing _ h).trans (orHazard_go _ _ hw))

theorem exec_st_fault {f : Nat} (h : issuing 0x23 n.val s x u) (hw : mustWait x = false)
    (hf : spanW x x.ins.a 1 = .error f) : exec (.st n) s = .next (progFault x f u) := by
  rw [exec_st h hw]
  simp only [stIns, hf]

theorem exec_st_stores (h : issuing 0x23 n.val s x u) (hw : mustWait x = false) (hok : spanW x x.ins.a 1 = .ok ps)
    (hs : spanOf x.e x.ins.a 1 false = some ps) (hr : readSpan n.val ps u = (.ok bs, v)) :
    let w := writeSpan n.val ps (patchAt bs (4 * x.ins.par 5 4) (leBytes 4 (aReg x.e (x.ins.par 3 0)))) v
    ∃ t, exec (.st n) s = .next t ∧ engineBecomes n.val (eng w n.val).onward w t := by
  have hn := (issuing_fetch h).2.2.1
  refine ⟨_, exec_st h hw, ?_⟩
  simp only [stIns, hok]
  rw [readOp_ok _ hs (hn ▸ hr), hn]
  exact engineBecomes_updEng ..

end

/-! ## VOP (R228 to R230) -/

/-- What VOP writes: the results, with TRANS tile by tile in columns. -/
def vopBytesOut (x : Ectx) (as bs : List Byte) : List Byte :=
  let cnt := aReg x.e (x.ins.par 11 8)
  let inF := x.ins.par 14 12
  let outF := x.ins.par 17 15
  let res := ((elems (vopBytes inF) cnt as).zip (elems (vopBytes outF) cnt bs)).map fun p =>
    vopOut outF (vopElem (x.ins.par 3 0) (vopIn inF p.1) (vopIn outF p.2) (fp32.dec (aReg x.e (x.ins.par 7 4))))
  (if x.ins.flag then transOrder (cnt / 65536) res else res).flatMap (leBytes (vopBytes outF))

section
variable {x : Ectx} {s : State}

theorem vopIns_tile_fault (hf : x.ins.flag = true) (hc : aReg x.e (x.ins.par 11 8) % 65536 ≠ 0) :
    vopIns x s = progFault x 0x10 s :=
  if_pos ⟨hf, hc⟩

theorem not_tile_fault (hfit : x.ins.flag = false ∨ aReg x.e (x.ins.par 11 8) % 65536 = 0) :
    ¬ (x.ins.flag = true ∧ aReg x.e (x.ins.par 11 8) % 65536 ≠ 0) := by
  rcases hfit with h | h <;> simp [h]

theorem vopIns_of_error {f : Nat} (hfit : x.ins.flag = false ∨ aReg x.e (x.ins.par 11 8) % 65536 = 0)
    (h : spanW x x.ins.c (elemUnits (aReg x.e (x.ins.par 11 8)) (vopBytes (x.ins.par 17 15))) = .error f) :
    vopIns x s = progFault x f s := by
  simp only [vopIns, if_neg (not_tile_fault hfit), h]

/-- With OPC checked, OPA and OPB are read, NONE reading no units, and the results are written. -/
theorem vopIns_of_ok {pc : List (Nat × Nat)} (hfit : x.ins.flag = false ∨ aReg x.e (x.ins.par 11 8) % 65536 = 0)
    (h : spanW x x.ins.c (elemUnits (aReg x.e (x.ins.par 11 8)) (vopBytes (x.ins.par 17 15))) = .ok pc) :
    vopIns x s = readOp x x.ins.a (elemUnits (aReg x.e (x.ins.par 11 8)) (vopBytes (x.ins.par 14 12))) false (fun as s =>
      readOp x (if x.ins.b = 0xC0000000 then 0 else x.ins.b)
        (if x.ins.b = 0xC0000000 then 0 else elemUnits (aReg x.e (x.ins.par 11 8)) (vopBytes (x.ins.par 17 15))) false
        (fun bs s => retire x (writeSpan x.n pc (vopBytesOut x as bs) s)) s) s := by
  simp only [vopIns, vopBytesOut, noneOp, if_neg (not_tile_fault hfit), h, List.zip_map, List.map_map,
    Function.comp_def, Prod.map]
  rfl

theorem exec_vop {n : Fin 64} {s u : State} (h : working 0x10 n.val s x u) : exec (.vop n) s = .next (vopIns x u) :=
  congrArg _ (withUnit_working vopIns h)

end

/-! ## The obligation -/

/-- Settles O33: the units' rows through what `unitGo` finds, a stopped program by its engines' unfinished instructions,
and LD, ST and VOP by the checks of their operands in order. -/
theorem loadStoreVector : Obligations.LoadStoreVector := by
  unfold Obligations.LoadStoreVector
  intro n s u x
  refine ⟨fun r hr => ⟨fun h hi ht => ?_, fun e hp hi ht => ?_, fun h => ?_, fun h hd => exec_unitRow_stopped hr h hd⟩,
    fun k v => ⟨fun ⟨m, hm, hc, hu⟩ => programStops_of_busy hm hc hu, programStops_of_idle⟩,
    ⟨fun ⟨h, hw⟩ => ⟨_, rfl, orHazard_engineBecomes ldIns h hw⟩,
      fun ⟨h, hw⟩ => ⟨_, rfl, orHazard_engineBecomes stIns h hw⟩⟩,
    fun h hw => ⟨exec_ld_addressFault h hw, fun ps bs v hs hr => exec_ld_loads h hw hs hr⟩,
    fun h hw ha => ⟨fun hs => exec_st_fault h hw (spanW_of_none ha hs), fun ps hs => ⟨fun hh => ?_, fun hh bs v hr => ?_⟩⟩,
    fun h => ?_⟩
  · have hx := exec_unitRow_issuing hr h hi ht
    rw [handed, (issuing_fetch h).2.2.1] at hx
    exact hx
  · obtain ⟨hexec, hkept⟩ := exec_unitRow_transfer hr hp hi ht
    refine ⟨hexec, hkept.units, hkept.pc, hkept.areg, fun g => ?_⟩
    simpa [Group.sums] using hkept.sums g
  · have hgo := goesOn_of_unitGo h.1
    exact ⟨hgo.opcode, hgo.fresh, hgo.lt, exec_unitRow_working hr h, hgo.clear⟩
  · exact exec_st_fault h hw (by rw [spanW_of_some ha hs, if_pos hh])
  · exact exec_st_stores h hw (by rw [spanW_of_some ha hs, if_neg (by simp [hh])]) hs hr
  · have hn := (goesOn_of_unitGo h.1).engine
    rw [exec_vop h]
    refine ⟨fun hf hc => by rw [vopIns_tile_fault hf hc], fun hfit => ⟨fun f hpc => by rw [vopIns_of_error hfit hpc],
      fun pc hpc hpa => by rw [vopIns_of_ok hfit hpc, readOp_none _ _ hpa],
      fun pc pa as v pb bs w hpc hpa has hpb hbs => ?_⟩⟩
    rw [vopIns_of_ok hfit hpc, readOp_ok _ hpa (hn ▸ has), readOp_ok _ hpb (hn ▸ hbs), retire, hn]
    rfl

end Sys2Proof.Machine
end

section
/-! PROOFS. A physical engine fails (O30): the end of a command leaves the map of engines alone, and so a spare is chosen
from the map as the failure found it. -/

namespace Sys2Proof.Machine

/-! ## The end of a command leaves the map of engines alone -/

theorem foldl_emap {α : Type} {f : State → α → State} (h : ∀ st x, (f st x).emap = st.emap) (l : List α) (s : State) :
    (l.foldl f s).emap = s.emap := by
  induction l generalizing s with
  | nil => rfl
  | cons x l ih => exact (ih _).trans (h s x)

@[simp] theorem flogWrite_emap (q cause kind : Nat) (seq : Word) (addr : Nat) (record : List Byte) (s : State) :
    (flogWrite q cause kind seq addr record s).emap = s.emap := rfl

@[simp] theorem queueError_emap (q kind cause : Nat) (seq : Word) (addr : Nat) (record : List Byte) (s : State) :
    (queueError q kind cause seq addr record s).emap = s.emap := by
  unfold queueError
  extract_lets
  split <;> rfl

@[simp] theorem sendMsix_emap (v : Nat) (s : State) : (sendMsix v s).emap = s.emap := by
  unfold sendMsix
  split <;> rfl

@[simp] theorem sendReply_emap (p : Nat) (dst : NetAddr) (tags : List Word) (src : Word) (body : Nat → List Byte)
    (s : State) : (sendReply p dst tags src body s).emap = s.emap := by
  unfold sendReply
  extract_lets
  split <;> rfl

@[simp] theorem notifyQueue_emap (q : Nat) (record : List Byte) (s : State) : (notifyQueue q record s).emap = s.emap := by
  unfold notifyQueue
  extract_lets
  split
  · split <;> simp
  · rfl

@[simp] theorem writeRecord_emap (c : Cmd) (d : Decision) (s : State) : (writeRecord c d s).emap = s.emap := by
  unfold writeRecord
  extract_lets q x rb a
  split
  · rfl
  · have hring := (ringWrite_touch q a rb s).emap
    split
    · rename_i t heq
      rw [heq] at hring
      rw [notifyQueue_emap]
      split
      · rw [sendMsix_emap]
        exact hring
      · exact hring
    · rename_i e t heq
      rw [heq] at hring
      simpa using hring

@[simp] theorem raiseFence_emap (f v : Nat) (s : State) : (raiseFence f v s).emap = s.emap := rfl

@[simp] theorem signalFence_emap (c : Cmd) (d : Decision) (s : State) : (signalFence c d s).emap = s.emap := by
  unfold signalFence
  extract_lets
  split
  · rfl
  · split <;> rfl

@[simp] theorem releaseEngines_emap (ok killed : Bool) (k : Key) (s : State) :
    (releaseEngines ok killed k s).emap = s.emap :=
  foldl_emap (fun st n => by dsimp only; split <;> rfl) _ s

@[simp] theorem dropModel_emap (id : Nat) (s : State) : (dropModel id s).emap = s.emap :=
  foldl_emap (fun st e => (extentFreed_touch e st).emap) _ s

@[simp] theorem cmdWrite_emap (c : Cmd) (a : Nat) (bs : List Byte) (s : State) : (cmdWrite c a bs s).2.emap = s.emap :=
  (spaceWrite_touch ..).emap

@[simp] theorem writeReport_emap (c : Cmd) (rep : List Byte) (d : Decision) (s : State) :
    (writeReport c rep d s).2.emap = s.emap := by
  have hwrite := cmdWrite_emap c c.p2 rep s
  unfold writeReport
  split <;> (rename_i heq; rwa [heq] at hwrite)

@[simp] theorem endLoad_emap (c : Cmd) (d : Decision) (s : State) : (endLoad c d s).2.emap = s.emap := by
  unfold endLoad
  split
  · dsimp only
    split <;> simp
  · rfl

@[simp] theorem keepGroup_emap (p : SplitSt) (s : State) : (keepGroup p s).emap = s.emap := by
  unfold keepGroup
  split <;> rfl

@[simp] theorem dropWork_emap (c : Cmd) (s : State) : (dropWork c s).emap = s.emap := by
  unfold dropWork
  split
  · rw [keepGroup_emap, foldl_emap fun st e => (releaseExtent_touch st e).emap]
    rfl
  · rfl

theorem LinkOut.emap {a s : State} (h : LinkOut a s) : s.emap = a.emap := by
  rw [h.rest]

@[simp] theorem kwSend_emap (l : Nat) (m : Msg) (s : State) : (kwSend l m s).emap = s.emap := (kwSend_linkOut l m s).emap

@[simp] theorem bindingSend_emap (b ty : Nat) (w3 : Word) (body : List Byte) (s : State) :
    (bindingSend b ty w3 body s).emap = s.emap := by
  unfold bindingSend
  split <;> simp

@[simp] theorem sendCmdEnd_emap (c : Cmd) (s : State) : (sendCmdEnd c s).emap = s.emap := by
  unfold sendCmdEnd
  split
  · split <;> simp
  · rfl

@[simp] theorem sendSplitFail_emap (c : Cmd) (d : Decision) (s : State) : (sendSplitFail c d s).emap = s.emap := by
  unfold sendSplitFail
  split
  · extract_lets p
    split
    · refine foldl_emap (fun st i => ?_) _ s
      split
      · rfl
      · split <;> simp
    · rfl
  · rfl

@[simp] theorem destroyNote_emap (q : Nat) (f : Tally → Tally) (s : State) : (destroyNote q f s).emap = s.emap := rfl

@[simp] theorem destroyCount_emap (c : Cmd) (d : Decision) (newErr : Nat) (s : State) :
    (destroyCount c d newErr s).emap = s.emap := by
  unfold destroyCount
  split <;> rfl

@[simp] theorem engineFate_emap (c : Cmd) (d : Decision) (s : State) : (engineFate c d s).emap = s.emap := by
  unfold engineFate
  split <;> rfl

@[simp] theorem noteRecent_emap (c : Cmd) (d : Decision) (s : State) : (noteRecent c d s).emap = s.emap := rfl

@[simp] theorem finishDestroy_emap (q : Nat) (s : State) : (finishDestroy q s).2.emap = s.emap := by
  unfold finishDestroy
  split
  · split
    · extract_lets d w t
      have hw : t.emap = s.emap := cmdWrite_emap ..
      split <;> exact hw
    · rfl
  · rfl

@[simp] theorem finishOne_emap (k : Key) (d : Decision) (s : State) : (finishOne k d s).2.emap = s.emap := by
  unfold finishOne
  split
  · rfl
  · extract_lets
    simp only [finishDestroy_emap, destroyCount_emap]
    split <;> simp

@[simp] theorem settleN_emap (fuel : Nat) (l : List (Key × Decision)) (s : State) : (settleN fuel l s).emap = s.emap := by
  induction fuel generalizing l s with
  | zero => rfl
  | succ fuel ih =>
    cases l with
    | nil => rfl
    | cons x l => exact (ih _ _).trans (finishOne_emap ..)

@[simp] theorem settle_emap (l : List (Key × Decision)) (s : State) : (settle l s).emap = s.emap := settleN_emap ..

@[simp] theorem failCmd_emap (c : Cmd) (d : Decision) (s : State) : (failCmd c d s).emap = s.emap := by
  unfold failCmd
  split <;> exact settle_emap ..

/-! ## The failure of an engine -/

@[simp] theorem logEvent_eng (code source : Nat) (data : List Nat) (s : State) :
    (logEvent code source data s).eng = s.eng := by
  unfold logEvent logSev
  extract_lets
  split <;> rfl

@[simp] theorem logEvent_mem (code source : Nat) (data : List Nat) (s : State) :
    (logEvent code source data s).mem = s.mem := by
  unfold logEvent logSev
  extract_lets
  split <;> rfl

/-- The Blotter's event is noted, and the command of logical engine `n` ends with ENGINE_FAULT unless it has committed. -/
def engineFaulted (p cause n : Nat) (s : State) : State :=
  let u := logEvent 0x50 2 [n, p, cause] s
  match (eng s n).cmd with
  | some k => (match findCmd s k with
    | some c => if c.committed = true then u else failCmd c (atEngine n (mkDecision 4 1 0)) u
    | none => u)
  | none => u

@[simp] theorem engineFaulted_emap (p cause n : Nat) (s : State) : (engineFaulted p cause n s).emap = s.emap := by
  have hlog : (logEvent 0x50 2 [n, p, cause] s).emap = s.emap := (logEvent_touch ..).emap
  unfold engineFaulted
  extract_lets
  split
  · split
    · split
      · exact hlog
      · exact (failCmd_emap ..).trans hlog
    · exact hlog
  · exact hlog

/-- Physical engine `p` is lost, and logical engine `n` is served by none. -/
def lostEngine (p n : Nat) (m : MapSt) : MapSt := { m with failed := m.failed ++ [p], phys := Tab.put 0 m.phys n 0 }

/-- Physical engine `p` serves logical engine `n` no more: it is off and keeps no request, and `n` keeps no region. -/
def unmapEngine (p n : Nat) (s : State) : State :=
  updEng n (fun e => { e with kept := [], keepNext := [] }) { s with
    emap := lostEngine p n s.emap
    pwr := { s.pwr with
      dom := if Tab.get .off s.pwr.dom p = .failed then s.pwr.dom else Tab.put .off s.pwr.dom p .off
      offReq := s.pwr.offReq.filter (· != p)
      wakeAfter := s.pwr.wakeAfter.filter (· != p) } }

/-- Physical engine `q`, its scratchpad zeroed, serves logical engine `n` from now on. -/
def substitute (n q : Nat) (s : State) : State :=
  logEvent 0x51 2 [n, q]
    (detFlag 3 (zeroSpad q { s with emap := mapMasks { s.emap with phys := Tab.put 0 s.emap.phys n (q + 1) } }))

theorem substitute_touch (n q : Nat) (s : State) :
    Touch { s with emap := mapMasks { s.emap with phys := Tab.put 0 s.emap.phys n (q + 1) }, det := (detFlag 3 s).det }
      (substitute n q s) :=
  Touch.trans (b := detFlag 3 (zeroSpad q { s with
    emap := mapMasks { s.emap with phys := Tab.put 0 s.emap.phys n (q + 1) } })) (zeroSpad_touch ..) (logEvent_touch ..)

/-- Nothing is left in the scratchpad of the engine that takes over. -/
theorem substitute_spad (n q : Nat) (s : State) : ∀ b ∈ (substitute n q s).mem.spad, b.1 / slotBytes ≠ q := by
  intro b hb
  rw [substitute, logEvent_mem] at hb
  simpa using (List.mem_filter.1 hb).2

theorem spareFor_congr {s t : State} (h : s.emap = t.emap) (cluster : Nat) : spareFor s cluster = spareFor t cluster := by
  rw [spareFor, spareFor, h]

theorem engineFail_unserved {p : Nat} (cause : Nat) {s : State} (h : servedBy s p = none) : engineFail p cause s =
    { s with emap := { s.emap with failed := if p ∈ s.emap.failed then s.emap.failed else s.emap.failed ++ [p] } } := by
  simp only [engineFail, h]

/-- A mapped engine fails: its command ends, it is unmapped, and a spare, if there is one, takes its place. -/
theorem engineFail_served {p n : Nat} (cause : Nat) {s : State} (h : servedBy s p = some n) :
    let w := unmapEngine p n (engineFaulted p cause n s)
    engineFail p cause s = (spareFor { s with emap := lostEngine p n s.emap } (p / 9)).elim w (substitute n · w) := by
  intro w
  have hspare : spareFor { s with emap := lostEngine p n s.emap } (p / 9) = spareFor w (p / 9) :=
    spareFor_congr (congrArg (lostEngine p n) (engineFaulted_emap p cause n s)).symm _
  have heng : eng (logEvent 0x50 2 [n, p, cause] s) n = eng s n := by rw [eng, eng, logEvent_eng]
  have hfind (k : Key) : findCmd (logEvent 0x50 2 [n, p, cause] s) k = findCmd s k := by
    rw [findCmd, findCmd, (logEvent_touch ..).cmds]
  rw [hspare]
  simp only [engineFail, h, heng, hfind]
  change (match spareFor w (p / 9) with
    | some q => substitute n q w
    | none => w) = _
  cases spareFor w (p / 9) <;> rfl

theorem exec_engineFailure {s : State} (p : Fin 72) (h : isUp s = true) :
    exec (.engineFailure p) s = .next (engineFail p.val 1 s) :=
  congrArg _ (if_pos h)

/-! ## The obligation -/

/-- Settles O30: an engine that serves none is only listed; for one that serves, whether a spare is found or not, what
follows the command's end touches neither the commands nor the queues nor the fences. -/
theorem engineFailureEffect : Obligations.EngineFailureEffect := by
  unfold Obligations.EngineFailureEffect
  intro p s hup
  rw [exec_engineFailure p hup]
  refine ⟨fun hnone => ⟨_, rfl, ?_⟩, fun n hn => ⟨_, rfl, ?_⟩⟩
  · rw [engineFail_unserved 1 hnone]
    refine ⟨?_, rfl, rfl, rfl⟩
    dsimp only
    split <;> simp [*]
  · have hfuse := (engineFail_keeps p.val 1 s).fuse
    have hoff : p.val ∉ (unmapEngine p.val n (engineFaulted p.val 1 n s)).pwr.offReq := fun hmem =>
      absurd (List.mem_filter.1 hmem).2 (by simp)
    have hemap : (unmapEngine p.val n (engineFaulted p.val 1 n s)).emap = lostEngine p.val n s.emap :=
      congrArg (lostEngine p.val n) (engineFaulted_emap p.val 1 n s)
    have hfailed : p.val ∈ (lostEngine p.val n s.emap).failed := List.mem_append_right _ (List.mem_singleton.2 rfl)
    rw [engineFail_served 1 hn] at hfuse ⊢
    dsimp only
    cases hspare : spareFor { s with emap := lostEngine p.val n s.emap } (p.val / 9) with
    | none =>
      rw [hspare] at hfuse
      dsimp only [Option.elim] at hfuse ⊢
      refine ⟨by rwa [hemap], by rw [hemap]; rfl, hfuse, hoff, ⟨rfl, rfl, rfl⟩, fun _ => by simp [hemap, lostEngine],
        fun q hq => nomatch hspare.symm.trans hq⟩
    | some q =>
      rw [hspare] at hfuse
      dsimp only [Option.elim] at hfuse ⊢
      have htouch := substitute_touch n q (unmapEngine p.val n (engineFaulted p.val 1 n s))
      have hmap := htouch.emap
      rw [hemap] at hmap
      refine ⟨by rw [hmap]; exact hfailed, by rw [hmap]; rfl, hfuse, by rwa [htouch.pwr],
        ⟨htouch.cmds, htouch.queues, htouch.fences⟩, fun hno => ?_, fun q' hq => ?_⟩
      · cases hspare.symm.trans hno
      · cases hspare.symm.trans hq
        exact ⟨hmap, fun b hb => substitute_spad _ _ _ b hb⟩

end Sys2Proof.Machine
end

section
/-! PROOFS. Every step answers (O2): each command by its own law of Laws/KeepsExec.lean or Laws/Ages.lean, the idle step by
what the generator's waiting reads can change. -/

namespace Sys2Proof.Machine

/-! ## Commands -/

/-- Every row of the table has a meaning that ends in a next state. -/
theorem exec_answers (c : Instr) (s : State) : ∃ t, exec c s = .next t := by
  cases c <;> exact ⟨_, rfl⟩

/-- What every command does at most to the fuses, the phase, the queue, the time and the form of the memories: the law of
its own row. -/
theorem exec_ages {c : Instr} {s t : State} (h : exec c s = .next t) : Ages s t := by
  cases c with
  | powerOn => exact execPowerOn_ages h
  | resetN => exact execResetN_ages h
  | boot => exact execBoot_ages h
  | extentZeroed => exact (execExtentZeroed_keeps h).ages
  | watchdog => exact execWatchdog_ages h
  | trialTimeout => exact execTrialTimeout_ages h
  | confirm => exact execConfirm_ages h
  | abandon => exact execAbandon_ages h
  | registerWrite => exact execRegisterWrite_ages h
  | badRegisterAccess => exact (execBadRegisterAccess_keeps h).ages
  | lowWordRead => exact (execLowWordRead_keeps h).ages
  | bar2Access => exact (execBar2Access_keeps h).ages
  | atsInvalidation => exact (execAtsInvalidation_keeps h).ages
  | functionLevelReset => exact (execFunctionLevelReset_keeps h).ages
  | perstN => exact (execPerstN_keeps h).ages
  | hostReadTimeout => exact (execHostReadTimeout_keeps h).ages
  | feDbSq => exact (execFeDbSq_keeps h).ages
  | feDbCq => exact (execFeDbCq_keeps h).ages
  | feAqEnable => exact (execFeAqEnable_keeps h).ages
  | feAqDisable => exact (execFeAqDisable_keeps h).ages
  | commandFetch => exact (execCommandFetch_keeps h).ages
  | admission => exact (execAdmission_keeps h).ages
  | commandStart => exact (execCommandStart_keeps h).ages
  | commandTimeout => exact (execCommandTimeout_keeps h).ages
  | drainTimeout => exact (execDrainTimeout_keeps h).ages
  | copyDone => exact (execCopyDone_keeps h).ages
  | queueCreate => exact (execQueueCreate_keeps h).ages
  | queueDestroy => exact (execQueueDestroy_keeps h).ages
  | queueReset => exact (execQueueReset_keeps h).ages
  | map => exact (execMap_keeps h).ages
  | unmap => exact (execUnmap_keeps h).ages
  | unmapComplete => exact (execUnmapComplete_keeps h).ages
  | fenceSet => exact (execFenceSet_keeps h).ages
  | peerBind => exact (execPeerBind_keeps h).ages
  | modelLoad => exact (execModelLoad_keeps h).ages
  | modelLoadEnd => exact (execModelLoadEnd_keeps h).ages
  | modelUnload => exact (execModelUnload_keeps h).ages
  | runAnneal => exact (execRunAnneal_keeps h).ages
  | runProgram => exact (execRunProgram_keeps h).ages
  | pause => exact (execPause_keeps h).ages
  | resume => exact (execResume_keeps h).ages
  | copy => exact (execCopy_keeps h).ages
  | nop => exact (execNop_keeps h).ages
  | peerSignal => exact (execPeerSignal_keeps h).ages
  | abort => exact (execAbort_keeps h).ages
  | turn => exact (execTurn_keeps h).ages
  | sweepBoundary => exact (execSweepBoundary_keeps h).ages
  | bestStateCopy => exact (execBestStateCopy_keeps h).ages
  | engineFailure => exact (execEngineFailure_keeps h).ages
  | openGroup => exact (execOpenGroup_keeps h).ages
  | mma => exact (execMma_keeps h).ages
  | drain => exact (execDrain_keeps h).ages
  | sample => exact (execSample_keeps h).ages
  | discard => exact (execDiscard_keeps h).ages
  | red => exact (execRed_keeps h).ages
  | vop => exact (execVop_keeps h).ages
  | dma => exact (execDma_keeps h).ages
  | atomf => exact (execAtomf_keeps h).ages
  | set => exact (execSet_keeps h).ages
  | add => exact (execAdd_keeps h).ages
  | ld => exact (execLd_keeps h).ages
  | st => exact (execSt_keeps h).ages
  | br => exact (execBr_keeps h).ages
  | loop => exact (execLoop_keeps h).ages
  | bar => exact (execBar_keeps h).ages
  | claim => exact (execClaim_keeps h).ages
  | waitany => exact (execWaitany_keeps h).ages
  | time => exact (execTime_keeps h).ages
  | endProgram => exact (execEndProgram_keeps h).ages
  | park => exact (execPark_keeps h).ages
  | unpark => exact (execUnpark_keeps h).ages
  | refresh => exact (execRefresh_keeps h).ages
  | scrubRead => exact (execScrubRead_keeps h).ages
  | wipeCheck => exact (execWipeCheck_keeps h).ages
  | tamper => exact (execTamper_keeps h).ages
  | record => exact (execRecord_keeps h).ages
  | reasmTimeout => exact (execReasmTimeout_keeps h).ages
  | frameCommit => exact (execFrameCommit_keeps h).ages
  | streamEnable => exact (execStreamEnable_keeps h).ages
  | streamStop => exact (execStreamStop_keeps h).ages
  | submit => exact (execSubmit_keeps h).ages
  | poll => exact (execPoll_keeps h).ages
  | pauseFrame => exact (execPauseFrame_keeps h).ages
  | arpRequest => exact (execArpRequest_keeps h).ages
  | neighborSolicitation => exact (execNeighborSolicitation_keeps h).ages
  | badFcsFrame => exact (execBadFcsFrame_keeps h).ages
  | droppedDatagram => exact (execDroppedDatagram_keeps h).ages
  | signalDetect => exact (execSignalDetect_keeps h).ages
  | equalizeDone => exact (execEqualizeDone_keeps h).ages
  | alignDone => exact (execAlignDone_keeps h).ages
  | identifyDone => exact (execIdentifyDone_keeps h).ages
  | trainingTimeout => exact (execTrainingTimeout_keeps h).ages
  | holdoffEnd => exact (execHoldoffEnd_keeps h).ages
  | retrain => exact (execRetrain_keeps h).ages
  | laneLoss => exact (execLaneLoss_keeps h).ages
  | dataFlit => exact (execDataFlit_keeps h).ages
  | idleFlit => exact (execIdleFlit_keeps h).ages
  | retryReq => exact (execRetryReq_keeps h).ages
  | retryTimeout => exact (execRetryTimeout_keeps h).ages
  | alignmentFlit => exact (execAlignmentFlit_keeps h).ages
  | jobMessage => exact (execJobMessage_keeps h).ages
  | jobReply => exact (execJobReply_keeps h).ages
  | peerSignalMessage => exact (execPeerSignalMessage_keeps h).ages
  | signalAck => exact (execSignalAck_keeps h).ages
  | checkpointMessage => exact (execCheckpointMessage_keeps h).ages
  | cmdEnd => exact (execCmdEnd_keeps h).ages
  | splitJoin => exact (execSplitJoin_keeps h).ages
  | splitSpins => exact (execSplitSpins_keeps h).ages
  | splitEnergy => exact (execSplitEnergy_keeps h).ages
  | splitFail => exact (execSplitFail_keeps h).ages
  | getStatus => exact (execGetStatus_keeps h).ages
  | setGlobalTimeout => exact (execSetGlobalTimeout_keeps h).ages
  | setCarafeCrypt => exact (execSetCarafeCrypt_keeps h).ages
  | setKwPolicy => exact (execSetKwPolicy_keeps h).ages
  | setEthAddr => exact (execSetEthAddr_keeps h).ages
  | setJobKey => exact (execSetJobKey_keeps h).ages
  | installCert => exact (execInstallCert_keeps h).ages
  | stageTable => exact (execStageTable_keeps h).ages
  | commitTable => exact (execCommitTable_keeps h).ages
  | takeOwnership => exact execTakeOwnership_ages h
  | releaseOwnership => exact execReleaseOwnership_ages h
  | decommission => exact execDecommission_ages h
  | setOwnerLock => exact (execSetOwnerLock_keeps h).ages
  | clearOwnerLock => exact (execClearOwnerLock_keeps h).ages
  | updateBegin => exact (execUpdateBegin_keeps h).ages
  | updateBlock => exact (execUpdateBlock_keeps h).ages
  | updateCommit => exact (execUpdateCommit_keeps h).ages
  | updateActivate => exact execUpdateActivate_ages h
  | updateCancel => exact (execUpdateCancel_keeps h).ages
  | setConfirmWindow => exact (execSetConfirmWindow_keeps h).ages
  | updateStatus => exact (execUpdateStatus_keeps h).ages
  | bbRead => exact (execBbRead_keeps h).ages
  | messageArrival => exact (execMessageArrival_keeps h).ages
  | levelAssert => exact (execLevelAssert_keeps h).ages
  | levelDrop => exact (execLevelDrop_keeps h).ages
  | delivery => exact (execDelivery_keeps h).ages
  | targetAwake => exact (execTargetAwake_keeps h).ages
  | targetSleep => exact (execTargetSleep_keeps h).ages
  | icuTClaim => exact (execIcuTClaim_keeps h).ages
  | icuTComplete => exact (execIcuTComplete_keeps h).ages
  | icuPendSet => exact (execIcuPendSet_keeps h).ages
  | icuPendClr => exact (execIcuPendClr_keeps h).ages
  | icuEnSet => exact (execIcuEnSet_keeps h).ages
  | icuEnClr => exact (execIcuEnClr_keeps h).ages
  | icuTCtrlWrite => exact (execIcuTCtrlWrite_keeps h).ages
  | icuSrcCfgWrite => exact (execIcuSrcCfgWrite_keeps h).ages
  | blockPeriod => exact (execBlockPeriod_keeps h).ages
  | startupTestEnd => exact (execStartupTestEnd_keeps h).ages
  | failRunClear => exact (execFailRunClear_keeps h).ages
  | rngRequest => exact (execRngRequest_keeps h).ages
  | rngSwStatRead => exact (execRngSwStatRead_keeps h).ages
  | rngSwDataRead => exact (execRngSwDataRead_keeps h).ages
  | katEntry => exact (execKatEntry_keeps h).ages
  | katExit => exact (execKatExit_keeps h).ages
  | katGo => exact (execKatGo_keeps h).ages
  | blotterWrite => exact (execBlotterWrite_keeps h).ages
  | suppressed => exact (execSuppressed_keeps h).ages
  | powerSample => exact (execPowerSample_keeps h).ages
  | pointSet => exact (execPointSet_keeps h).ages
  | thermtrip => exact execThermtrip_ages h
  | brownout => exact execBrownout_ages h
  | railRestored => exact execRailRestored_ages h
  | holdup => exact (execHoldup_keeps h).ages
  | holdupRelease => exact (execHoldupRelease_keeps h).ages
  | lowVoltage => exact (execLowVoltage_keeps h).ages
  | lowVoltageRelease => exact (execLowVoltageRelease_keeps h).ages
  | refclkLost => exact (execRefclkLost_keeps h).ages
  | refclkRestored => exact (execRefclkRestored_keeps h).ages
  | domainWake => exact (execDomainWake_keeps h).ages
  | domainFault => exact (execDomainFault_keeps h).ages
  | domainOff => exact (execDomainOff_keeps h).ages
  | idleOff => exact (execIdleOff_keeps h).ages
  | spadWinWrite => exact (execSpadWinWrite_keeps h).ages
  | copyStopsAtBoundary => exact (execCopyStopsAtBoundary_keeps h).ages
  | unknownOp op r => exact (execUnknownOp_keeps (_r := r) h).ages

/-! ## The idle step -/

/-- Only the generator's state and what was sent differ. -/
def OnlyRng (a s : State) : Prop := s = { a with rng := s.rng, sent := s.sent }

theorem OnlyRng.trans {a b c : State} (h : OnlyRng a b) (k : OnlyRng b c) : OnlyRng a c := by
  unfold OnlyRng at *
  rw [k, h]

theorem foldl_onlyRng {α : Type} {f : State → α → State} (h : ∀ st x, OnlyRng st (f st x)) (l : List α) (s : State) :
    OnlyRng s (l.foldl f s) := by
  induction l generalizing s with
  | nil => rfl
  | cons x l ih => exact (h s x).trans (ih _)

theorem rngSetLatch_onlyRng (p : Path) (w : Word) (s : State) : OnlyRng s (rngSetLatch p w s) := by
  cases p <;> rfl

theorem swAnswer_onlyRng (p : Path) (bytes : Nat) (status : Word) (s : State) :
    OnlyRng s (swAnswer p bytes status s) := by
  unfold swAnswer
  split
  · exact (rngSetLatch_onlyRng p 0 s).trans rfl
  · rfl

theorem swNotReady_onlyRng (p : Path) (bytes : Nat) (s : State) : OnlyRng s (swNotReady p bytes s) := by
  have hcount : OnlyRng s { s with rng := { s.rng with swNotReady := satInc s.rng.swNotReady } } := rfl
  have hlatch := hcount.trans (rngSetLatch_onlyRng p 0 _)
  exact (hlatch.trans (c := rngFlag 5 _) rfl).trans (swAnswer_onlyRng ..)

theorem rngTick_onlyRng (s : State) : OnlyRng s (rngTick s) := by
  have hwait (l : List (Path × Nat × Nat)) : OnlyRng s { s with rng := { s.rng with swWait := l } } := rfl
  exact (hwait _).trans (foldl_onlyRng (fun _ (w : Path × Nat × Nat) => swNotReady_onlyRng w.1 w.2.1 _) _ _)

/-- With no read at the end of its wait the generator does nothing. -/
theorem rngTick_of_early {s : State} (h : ∀ w ∈ s.rng.swWait, s.now < w.2.2 + 1600) : rngTick s = s := by
  have hlate : (s.rng.swWait.filter fun w => decide (w.2.2 + 1600 ≤ s.now)) = [] :=
    List.filter_eq_nil_iff.2 fun w hw => by simpa using h w hw
  have hstay : (s.rng.swWait.filter fun w => !decide (w.2.2 + 1600 ≤ s.now)) = s.rng.swWait :=
    List.filter_eq_self.2 fun w hw => by simpa using h w hw
  rw [rngTick, hlate, hstay]
  rfl

theorem step_idle {s : State} (h : s.pending = []) : step s = .next (tick s) := by
  simp only [step, h]

theorem step_command {c : Instr} {rest : List Instr} {s : State} (h : s.pending = c :: rest) :
    step s = exec c { s with pending := rest } := by
  simp only [step, h]

/-! ## The obligation -/

/-- Settles O2: on an empty queue a step is a tick, else it is the front command on the queue's rest, and either keeps
what `Ages` lists. -/
theorem everyStepAnswers : Obligations.EveryStepAnswers := by
  unfold Obligations.EveryStepAnswers
  refine ⟨exec_answers, fun s hs => ⟨⟨tick s, step_idle hs, rngTick_onlyRng _⟩, fun hearly => ?_⟩, fun s t h => ?_⟩
  · rw [step_idle hs, tick, rngTick_of_early hearly]
  · cases hs : s.pending with
    | nil =>
      rw [step_idle hs] at h
      cases h
      exact ⟨(tick_ages s).now, (tick_pending s).trans hs⟩
    | cons c rest =>
      rw [step_command hs] at h
      have hages := exec_ages h
      exact ⟨hages.now, hages.pending⟩

end Sys2Proof.Machine
end

section
/-! PROOFS. A model from its load to the end of its unload (O23): what an admitted load reserves, how the load ends, what
an unload releases, and what a zeroed extent leads to. -/

namespace Sys2Proof.Machine

/-! ## Commands and models after a change -/

/-- A changed command is found under its key as the change left it. -/
theorem mem_updCmd_of_key {k : Key} {f : Cmd → Cmd} {s : State} {x : Cmd} (hx : x ∈ (updCmd k f s).cmds)
    (hk : x.key = k) : ∃ c ∈ s.cmds, f c = x := by
  obtain ⟨c, hc, rfl⟩ := List.mem_map.1 hx
  by_cases hck : c.key = k
  · exact ⟨c, hc, by rw [if_pos (by simpa using hck)]⟩
  · rw [if_neg (by simpa using hck)] at hk
    exact absurd hk hck

/-- Noting which commands are free to go changes their place in the order alone. -/
theorem mem_noteFree {s : State} {x : Cmd} (hx : x ∈ (noteFree s).cmds) : ∃ c ∈ s.cmds, ∃ o, x = { c with order := o } := by
  obtain ⟨c, hc, rfl⟩ := List.mem_map.1 hx
  refine ⟨c, hc, ?_⟩
  split
  · split
    · split
      · exact ⟨_, rfl⟩
      · exact ⟨c.order, rfl⟩
    · exact ⟨0, rfl⟩
  · exact ⟨c.order, rfl⟩

/-- So does noting the order in which commands became READY. -/
theorem mem_readyOrder {k : Key} {s : State} {x : Cmd} (hx : x ∈ (readyOrder k s).cmds) :
    ∃ c ∈ s.cmds, ∃ o, x = { c with order := o } := by
  obtain ⟨c, hc, rfl⟩ := List.mem_map.1 hx
  refine ⟨c, hc, ?_⟩
  split
  · exact ⟨_, rfl⟩
  · exact ⟨c.order, rfl⟩

theorem mdl_congr {s t : State} (h : s.models = t.models) (i : Nat) : mdl s i = mdl t i := by
  rw [mdl, mdl, h]

theorem stampD_congr {s t : State} (hnow : s.now = t.now) (hboot : s.boot = t.boot) (d : Decision) :
    stampD s d = stampD t d := by
  rw [stampD, stampD, timeOf, timeOf, hnow, hboot]

/-! ## Load (R84 to R86) -/

section
variable {c : Cmd} {s u : State} {k : Key}

theorem exec_modelLoad (h : admitting s k 0x10 = some c) : exec (.modelLoad k) s = .next (modelLoad c s) := by
  simp only [exec, execModelLoad, h]

theorem exec_modelLoadEnd {id : Nat} (h : running s k = some c) (hw : c.work = .load id) :
    exec (.modelLoadEnd k) s = .next (loadEnds c id s) := by
  simp only [exec, execModelLoadEnd, h, hw]

/-- The command of an admitted load: READY, with model `id` to load. -/
def loadReady (id : Nat) (onchip : Bool) (c : Cmd) : Cmd :=
  { c with st := .ready, work := .load id, engines := if onchip then List.range 64 else [] }

theorem modelLoad_admitted {oc : Bool} {cs : List (Nat × Nat)} {re rb : Nat} (hb : c.blockFail = none)
    (h : admitModel c (c.block blkModel) s = (.admitted oc cs re rb, u)) :
    modelLoad c s = readyOrder c.key (updCmd c.key (loadReady (freeModelId u) oc)
      (reserveModel c (c.block blkModel) oc cs re rb u).2) := by
  simp only [Cmd.block, blkModel] at h ⊢
  simp only [modelLoad, hb, h]
  rfl

theorem modelLoad_refused {st dt re rb : Nat} (hb : c.blockFail = none)
    (h : admitModel c (c.block blkModel) s = (.refused st dt re rb, u)) :
    ∃ opts, modelLoad c s =
      reportAndComplete c (refusalReport st dt re rb (freeExtents s).length noRow noRow opts) (mkDecision 2 st 0xFFFF) u := by
  simp only [Cmd.block, blkModel] at h
  simp only [modelLoad, hb, h]
  exact ⟨_, rfl⟩

theorem mem_loadReady {id : Nat} {oc : Bool} {x : Cmd}
    (hx : x ∈ (readyOrder c.key (updCmd c.key (loadReady id oc) s)).cmds) (hk : x.key = c.key) :
    x.st = .ready ∧ x.work = .load id ∧ x.engines = if oc then List.range 64 else [] := by
  obtain ⟨y, hy, o, rfl⟩ := mem_readyOrder hx
  obtain ⟨z, -, rfl⟩ := mem_updCmd_of_key hy hk
  exact ⟨rfl, rfl, rfl⟩

theorem ownExtents_touch (es : List Nat) (s : State) : Touch s (ownExtents es s) :=
  Touch.foldl (fun _ _ => setExt_touch ..) es s

/-- The model is reserved with what was free before it took its extents. -/
theorem mdl_reserveModel (c : Cmd) (d : List Byte) (oc : Bool) (cs : List (Nat × Nat)) (re rb : Nat) (s : State) :
    let m := mdl (reserveModel c d oc cs re rb s).2 (freeModelId s)
    m.st = .loading ∧ m.exts = (freeExtents s).take re ∧ m.desc = d ∧ m.ctx = (que s c.queue).ctx := by
  have hque : que (ownExtents ((freeExtents s).take re) s) c.queue = que s c.queue := by
    rw [que, que, (ownExtents_touch ..).queues]
  simp only [reserveModel, mdl_updMdl, if_true, hque, and_self]

theorem mdl_reserveModel_other (c : Cmd) (d : List Byte) (oc : Bool) (cs : List (Nat × Nat)) (re rb : Nat) {s : State}
    {i : Nat} (h : i ≠ freeModelId s) : mdl (reserveModel c d oc cs re rb s).2 i = mdl s i := by
  simp only [reserveModel, mdl_updMdl, if_neg h]
  exact mdl_congr (ownExtents_touch ..).models i

theorem loadEnds_ok {id : Nat} {m : Model} {diag round bound : Nat} (h : loadModel c (mdl s id) s = (.ok m diag round bound, u)) :
    loadEnds c id s =
      let dig := chunkedDigest (modelDigestBytes m)
      reportAndComplete c
        (reportBytes id 0 0 m.reqExts m.reqBytes m.avail noRow noRow bound [] m.conflictPairs.toNat diag round dig)
        (mkDecision 0 0 id)
        (updMdl id (fun _ => { m with st := .ready, digest := BitVec.ofNat 256 (leNat dig) }) u) := by
  simp only [loadEnds, h]

theorem loadEnds_fail {id dt row col : Nat} (h : loadModel c (mdl s id) s = (.fail dt row col, u)) :
    loadEnds c id s = loadFails c id dt row col (mkDecision 2 4 0xFFFF) u := by
  simp only [loadEnds, h]

/-! ## Unload (R87, R88) -/

theorem exec_modelUnload (h : admitting s k 0x11 = some c) : exec (.modelUnload k) s = .next (modelUnload c s) := by
  simp only [exec, execModelUnload, h]

theorem modelUnload_absent (h : modelFor s c.queue (c.p0 % 65536) = none) : modelUnload c s = refuse c.key 0x46 s := by
  simp only [modelUnload, h]

theorem modelUnload_not_ready {m : Model} (h : modelFor s c.queue (c.p0 % 65536) = some m) (hst : m.st ≠ .ready) :
    modelUnload c s = refuse c.key 0x48 s := by
  simp only [modelUnload, h, if_pos hst]

/-- Model `id` goes to UNLOADING and its extents are being released. -/
def releaseModel (id : Nat) (es : List Nat) (s : State) : State :=
  es.foldl releaseExtent (updMdl id (fun m => { m with st := .unloading }) s)

/-- The command of an unload: it waits, decided, for the last extent of model `id`. -/
def unloadWaits (id : Nat) (d : Decision) (c : Cmd) : Cmd :=
  { c with st := .running, work := .unload id, decided := some d }

theorem releaseModel_touch (id : Nat) (es : List Nat) (s : State) :
    Touch (updMdl id (fun m => { m with st := .unloading }) s) (releaseModel id es s) :=
  Touch.foldl releaseExtent_touch es _

theorem modelUnload_ready {m : Model} (h : modelFor s c.queue (c.p0 % 65536) = some m) (hst : m.st = .ready)
    (hes : m.exts ≠ []) :
    modelUnload c s = noteFree (updCmd c.key (unloadWaits (c.p0 % 65536) (stampD s (mkDecision 0 0 0)))
      (releaseModel (c.p0 % 65536) m.exts s)) := by
  have htouch := releaseModel_touch (c.p0 % 65536) m.exts s
  have hstamp (d : Decision) : stampD (releaseModel (c.p0 % 65536) m.exts s) d = stampD s d :=
    stampD_congr htouch.now htouch.boot d
  rw [← hstamp]
  simp only [modelUnload, h, hst, ne_eq, not_true_eq_false, if_false, if_neg hes]
  rfl

theorem mem_unloadWaits {id : Nat} {d : Decision} {x : Cmd} (hx : x ∈ (noteFree (updCmd k (unloadWaits id d) s)).cmds)
    (hk : x.key = k) : x.st = .running ∧ x.work = .unload id ∧ x.decided = some d := by
  obtain ⟨y, hy, o, rfl⟩ := mem_noteFree hx
  obtain ⟨z, -, rfl⟩ := mem_updCmd_of_key hy hk
  exact ⟨rfl, rfl, rfl⟩

theorem modelFor_some {q id : Nat} {m : Model} (h : modelFor s q id = some m) : mdl s id = m := by
  unfold modelFor at h
  dsimp only at h
  split at h
  · exact Option.some.inj h
  · cases h

theorem mdl_releaseModel (id : Nat) (es : List Nat) (s : State) :
    mdl (releaseModel id es s) id = { mdl s id with st := .unloading } := by
  rw [mdl_congr (releaseModel_touch id es s).models, mdl_updMdl, if_pos rfl]

theorem extState_releaseExtents (es : List Nat) (s : State) (e : Nat) :
    extState (es.foldl releaseExtent s) e = if e ∈ es then .releasing else extState s e := by
  induction es generalizing s with
  | nil => simp
  | cons x es ih =>
    rw [List.foldl_cons, ih, releaseExtent, extState_setExt]
    by_cases hes : e ∈ es <;> by_cases hx : e = x <;> simp [hes, hx]

theorem carafe_releaseExtents (es : List Nat) (s : State) : (es.foldl releaseExtent s).mem.carafe = s.mem.carafe := by
  induction es generalizing s with
  | nil => rfl
  | cons x es ih => exact ih _

/-! ## Extents zeroed (R88, R253) -/

variable {e : Nat}

theorem exec_extentZeroed {e : BitVec 13} (hup : isUp s = true) (he : e.toNat < 6080)
    (hst : extState s e.toNat = .releasing ∨
      (extState s e.toNat = .unzeroed ∧ ∀ i, i < e.toNat → extState s i ≠ .unzeroed)) :
    exec (.extentZeroed e) s = .next (unloadStep (extentZeroed e.toNat s)) := by
  refine congrArg _ (if_pos ⟨hup, he, ?_⟩)
  rcases hst with hrel | ⟨hun, hlow⟩
  · exact ⟨.inr hrel, .inl hrel⟩
  · exact ⟨.inl hun, .inr (by simpa using hlow)⟩

theorem exec_extentZeroed_allocated {e : BitVec 13} (hrel : extState s e.toNat ≠ .releasing)
    (hun : extState s e.toNat ≠ .unzeroed) : exec (.extentZeroed e) s = .next s :=
  congrArg _ (if_neg fun ⟨_, _, hst, _⟩ => hst.elim hun hrel)

theorem extentZeroed_of_not_unloads (h : unloadsExtent s e = false) : extentZeroed e s = extentFreed e s :=
  if_neg fun ⟨_, hun⟩ => Bool.false_ne_true (h.symm.trans hun)

/-- An extent of a model in UNLOADING is held, zeroed, until the unload completes. -/
theorem extentZeroed_of_unloads (hrel : extState s e = .releasing) (hun : unloadsExtent s e = true) :
    extentZeroed e s = setExt e .zeroed (zeroCarafe (carafePhys s (e * extBytes)) extBytes s) :=
  if_pos ⟨hrel, hun⟩

theorem extentZeroed_touch (e : Nat) (s : State) : Touch s (extentZeroed e s) :=
  Touch.ite ((zeroCarafe_touch ..).trans (setExt_touch ..)) (extentFreed_touch ..)

/-- While every model in UNLOADING has an extent to zero, no unload completes. -/
theorem unloadStep_of_unzeroed (h : ∀ p ∈ s.models, p.2.st = .unloading → ∃ x ∈ p.2.exts, extState s x ≠ .zeroed) :
    unloadStep s = s := by
  have hnone : (s.models.find? fun p => p.2.st == .unloading && p.2.exts.all (fun e => extState s e == .zeroed)) = none := by
    refine List.find?_eq_none.2 fun p hp hall => ?_
    obtain ⟨hst, hzero⟩ := Bool.and_eq_true_iff.1 hall
    obtain ⟨x, hx, hne⟩ := h p hp (eq_of_beq hst)
    exact hne (eq_of_beq (List.all_eq_true.1 hzero x hx))
  simp only [unloadStep, hnone]

end

/-! ## The obligation -/

/-- Settles O23: an admitted load through what `reserveModel` reserves, its end through what `loadModel` finds, an unload
through what `releaseModel` releases, and a zeroed extent by whether a model in UNLOADING holds it. -/
theorem modelCommands : Obligations.ModelCommands := by
  unfold Obligations.ModelCommands
  refine ⟨fun k c s hadm hb => ⟨fun oc cs re rb u h => ?_, fun st dt re rb u h => ?_⟩,
    fun k c id s hrun hw => ⟨fun m diag round bound u h => ?_, fun dt row col u h => ?_⟩,
    fun k c s hadm => ⟨fun habs => ?_, fun m hm => ⟨fun hst => ?_, fun hst hes => ?_⟩⟩,
    fun e s hup he => ⟨fun hst => ⟨fun hun => ?_, fun hrel hun => ?_⟩, exec_extentZeroed_allocated⟩⟩
  · have hother (i) (hi : i ≠ freeModelId u) := mdl_reserveModel_other c (c.block blkModel) oc cs re rb hi
    obtain ⟨hst, hexts, hdesc, hctx⟩ := mdl_reserveModel c (c.block blkModel) oc cs re rb u
    exact ⟨_, (exec_modelLoad hadm).trans (congrArg _ (modelLoad_admitted hb h)), hst, hexts, hdesc, hctx, hother,
      fun _ => mem_loadReady⟩
  · obtain ⟨opts, hload⟩ := modelLoad_refused hb h
    exact ⟨opts, (exec_modelLoad hadm).trans (congrArg _ hload)⟩
  · exact (exec_modelLoadEnd hrun hw).trans (congrArg _ (loadEnds_ok h))
  · exact (exec_modelLoadEnd hrun hw).trans (congrArg _ (loadEnds_fail h))
  · rw [exec_modelUnload hadm, modelUnload_absent habs]
  · rw [exec_modelUnload hadm, modelUnload_not_ready hm hst]
  · have hmdl := mdl_releaseModel (c.p0 % 65536) m.exts s
    rw [modelFor_some hm] at hmdl
    exact ⟨_, (exec_modelUnload hadm).trans (congrArg _ (modelUnload_ready hm hst hes)), hmdl,
      fun x hx => (extState_releaseExtents ..).trans (if_pos hx), (releaseModel_touch ..).queues, carafe_releaseExtents ..,
      fun _ => mem_unloadWaits⟩
  · rw [exec_extentZeroed hup he hst, extentZeroed_of_not_unloads hun]
  · refine ⟨exec_extentZeroed hup he hst, ?_, fun p hp hpst hleft honly => ?_⟩
    · rw [extentZeroed_of_unloads hrel hun, extState_setExt_same]
    · rw [exec_extentZeroed hup he hst, unloadStep_of_unzeroed]
      intro p' hp' hst'
      rw [(extentZeroed_touch ..).models] at hp'
      rwa [honly p' hp' hst']

end Sys2Proof.Machine
end

section
/-! PROOFS. RUN_PROGRAM with a second command of its key in flight (O24): each command of the key takes the engines of
its own mode, not those of the admitted command's. -/

namespace Sys2Proof.Machine

/-- A program of one instruction, END, on one engine (R236). -/
def endImage : List Byte :=
  leBytes 4 1 ++ leBytes 4 1 ++ leBytes 8 0 ++ leBytes 8 1 ++ List.replicate 40 0 ++ leBytes 4 0x3F ++
    leBytes 4 0xC0000000 ++ leBytes 4 0xC0000000 ++ leBytes 4 0xC0000000

/-- A RUN_PROGRAM of that image in ADMITTING, of queue 1 and SEQ 0, in free mode or ordered, with SEED 5. -/
def endCommand (free : Bool) : Cmd :=
  { newCmd 1 (leBytes 4 (if free then 0x213 else 0x13) ++ leBytes 4 0 ++ leBytes 48 0xFFFFFFFF ++ leBytes 8 5) none with
    st := .admitting, blocks := [(blkImage, endImage)] }

/-- The part in service, engine 0 online, with the free-mode command in front of the ordered one of the same key. -/
def twoOfOneKey : State :=
  { State.reset with
    boot := { State.reset.boot with phase := .running }
    emap := { State.reset.emap with phys := [(0, 1)] }
    cmds := [endCommand true, endCommand false] }

/-- The free-mode command is the one that RUN_PROGRAM admits, and nothing refuses it. -/
theorem endCommand_admits : admitting twoOfOneKey ⟨1, 0⟩ 0x13 = some (endCommand true) ∧
    headerBad (endCommand true).p1 endImage = false ∧
    lowest (imageDetails twoOfOneKey false (slice 0 (0x40 + 16 * imgCount endImage) endImage)
      ((endCommand true).block blkPreload) ((endCommand true).block blkShare) ((endCommand true).block blkReduce)
      (slice 0 64 ((endCommand true).block blkParam)) (endCommand true).p2) = none ∧
    (endCommand true).freeMode = true ∧ (endCommand true).p3 = 5 := by
  decide +kernel

/-- The ordered command becomes READY beside it, on engine 0. -/
theorem runProgram_twoOfOneKey :
    ((runProgram (endCommand true) twoOfOneKey).cmds.map fun d => (d.key == (endCommand true).key, d.engines)) =
      [(true, []), (true, [0])] := by
  decide +kernel

/-- Refutes O24: with a free-mode and an ordered RUN_PROGRAM of one key in flight, admitting the first makes both READY,
the second on engine 0, where the statement gives every command of the key no fixed engine. -/
theorem not_runAdmission : ¬ Obligations.RunAdmission := by
  unfold Obligations.RunAdmission
  rintro ⟨-, -, hprogram⟩
  obtain ⟨hadm, hhead, hok, hfree, hseed⟩ := endCommand_admits
  obtain ⟨-, hpasses⟩ := (hprogram ⟨1, 0⟩ (endCommand true) twoOfOneKey hadm).2 hhead rfl
  have hdrawn : (if (endCommand true).p3 = 0 then drawSeed twoOfOneKey
      else (some (BitVec.ofNat 64 (endCommand true).p3), twoOfOneKey)) = (some 5, twoOfOneKey) := by
    rw [if_neg (by rw [hseed]; decide), hseed]
    rfl
  obtain ⟨t, hexec, -, -, -, hcmds⟩ := (hpasses hok).2 5 twoOfOneKey hdrawn
  have ht : t = runProgram (endCommand true) twoOfOneKey := by
    simp only [exec, execRunProgram, hadm] at hexec
    exact (Host.Outcome.next.inj hexec).symm
  have hall : ∀ p ∈ t.cmds.map fun d => (d.key == (endCommand true).key, d.engines), p.1 = true → p.2 = [] := by
    intro p hp hkey
    obtain ⟨d, hd, rfl⟩ := List.mem_map.1 hp
    obtain ⟨-, -, hengines, -⟩ := hcmds d hd (eq_of_beq hkey)
    rwa [if_pos hfree] at hengines
  rw [ht, runProgram_twoOfOneKey] at hall
  exact absurd (hall (true, [0]) (by decide) rfl) (by decide)

end Sys2Proof.Machine
end

section
/-! PROOFS. What a turn does to the spins (O26): the rows an evaluation answers, one flip for a spin and a replica, and
the bit that the flips of a replica leave. -/

namespace Sys2Proof.Machine

/-! ## Flipping one bit -/

/-- Below an odd number by one, only the lowest bit differs. -/
theorem testBit_pred_of_odd {q : Nat} (h : q % 2 = 1) (k : Nat) : (q - 1).testBit k = (q.testBit k ^^ decide (k = 0)) := by
  cases k with
  | zero =>
    have heven : (q - 1) % 2 = 0 := by omega
    simp only [Nat.testBit_zero, h, heven]
    rfl
  | succ k =>
    have hhalf : (q - 1) / 2 = q / 2 := by omega
    rw [Nat.testBit_succ, Nat.testBit_succ, hhalf, decide_eq_false (Nat.succ_ne_zero k), Bool.xor_false]

/-- Taking a set bit away is the exclusive or with it: the quotient by its weight is odd. -/
theorem sub_two_pow_of_testBit {x i : Nat} (h : x.testBit i = true) : x - 2 ^ i = x ^^^ 2 ^ i := by
  have hodd : x / 2 ^ i % 2 = 1 := of_decide_eq_true (Nat.testBit_eq_decide_div_mod_eq.symm.trans h)
  have hdecomp : x - 2 ^ i = 2 ^ i * (x / 2 ^ i - 1) + x % 2 ^ i := by
    have hpos : 0 < x / 2 ^ i := Nat.pos_of_ne_zero fun hzero => by
      rw [hzero] at hodd
      cases hodd
    have hdiv := Nat.div_add_mod x (2 ^ i)
    have hle := Nat.le_mul_of_pos_right (2 ^ i) hpos
    rw [Nat.mul_sub_one]
    omega
  refine Nat.eq_of_testBit_eq fun j => ?_
  rw [hdecomp, Nat.testBit_two_pow_mul_add _ (Nat.mod_lt _ (Nat.two_pow_pos i)), Nat.testBit_xor, Nat.testBit_two_pow]
  split
  · next hj =>
    rw [Nat.testBit_mod_two_pow, decide_eq_true hj, Bool.true_and, decide_eq_false (Nat.ne_of_gt hj), Bool.xor_false]
  · next hj =>
    have hzero : j - i = 0 ↔ i = j := by omega
    rw [testBit_pred_of_odd hodd, Nat.testBit_div_two_pow, Nat.sub_add_cancel (Nat.le_of_not_lt hj),
      decide_eq_decide.2 hzero]

theorem testBit_setBit_not (x i j : Nat) :
    (setBit x i (!x.testBit i)).testBit j = (x.testBit j ^^ decide (i = j)) := by
  unfold setBit
  cases h : x.testBit i
  · by_cases hij : i = j
    · subst hij
      simp [h]
    · simp [hij]
  · simp [sub_two_pow_of_testBit h, Nat.testBit_two_pow]

/-- A replica's spins after the flips of a list of decisions. -/
def flipSpins (ds : List Dec) (x : Nat) : Nat := ds.foldl (fun x d => setBit x d.i (!x.testBit d.i)) x

/-- With at most one decision for a spin, its bit is flipped if one is there. -/
theorem testBit_flipSpins {ds : List Dec} (h : ds.Pairwise fun d e => d.i ≠ e.i) (x i : Nat) :
    (flipSpins ds x).testBit i = (x.testBit i ^^ ds.any fun d => d.i == i) := by
  induction ds generalizing x with
  | nil => simp [flipSpins]
  | cons d ds ih =>
    obtain ⟨hd, hds⟩ := List.pairwise_cons.1 h
    have hrest := ih hds (setBit x d.i (!x.testBit d.i))
    rw [testBit_setBit_not] at hrest
    refine hrest.trans ?_
    by_cases hi : d.i = i
    · have hnone : (ds.any fun e => e.i == i) = false := by
        simpa [← hi] using fun e he => (hd e he).symm
      simp [hnone, hi]
    · simp [hi]

/-! ## The rows of a class -/

theorem classRows_nodup (m : Model) (c : Nat) : (classRows m c).Nodup := by
  have hrows : ((List.range (classSpan m c).2.2).map (· + (classSpan m c).1)).Nodup :=
    List.Pairwise.map _ (fun _ _ hlt => Nat.ne_of_lt (Nat.add_lt_add_right hlt _)) List.pairwise_lt_range
  exact List.Pairwise.filter (held m) hrows

/-- Either evaluation answers each row of the class, in order. -/
theorem map_fst_evalClass (m : Model) (r : Run) (c : Nat) : (evalClass m r c).2.map Prod.fst = classRows m c := by
  unfold evalClass
  dsimp only
  split <;> simp [Function.comp_def]

/-! ## Decisions -/

/-- The decision of spin `i` in replica `a` from its evaluation (R94, R118). -/
def decOf (m : Model) (r : Run) (i a : Nat) (p : Part) : Dec :=
  let f := fieldOf m.form p
  let up := newSpin m.form f (effT r (r.rung.getD a 0)) (noiseL r.seed i r.sweep a 0)
  { i := i, a := a, f := f, flip := up != (r.spins.getD a 0).testBit i }

theorem decisions_eq (m : Model) (r : Run) (out : List (Nat × List Part)) :
    decisions m r out = out.flatMap fun p => ((List.range r.reps).zip p.2).map fun q => decOf m r p.1 q.1 q.2 := rfl

/-- The flip of replica `a` that a row's parts give, if any. -/
def rowFlip (m : Model) (r : Run) (a : Nat) (p : Nat × List Part) : Option Dec :=
  (p.2[a]?.map (decOf m r p.1 a)).filter Dec.flip

/-- The entry of a numbered list with one number. -/
theorem filter_range'_zip {α : Type} {s n a : Nat} (l : List α) (hs : s ≤ a) (hn : a < s + n) :
    ((List.range' s n).zip l).filter (fun q => q.1 == a) = (l[a - s]?.map fun x => (a, x)).toList := by
  induction l generalizing s n with
  | nil => simp
  | cons x l ih =>
    obtain ⟨n, rfl⟩ : ∃ k, n = k + 1 := ⟨n - 1, by omega⟩
    rw [List.range'_succ, List.zip_cons_cons, List.filter_cons]
    by_cases hsa : s = a
    · have hrest : ((List.range' (s + 1) n).zip l).filter (fun q => q.1 == a) = [] :=
        List.filter_eq_nil_iff.2 fun q hq => by
          have hmem := List.mem_range'_1.1 (List.of_mem_zip hq).1
          simp only [beq_iff_eq]
          omega
      simp [hsa, hsa ▸ hrest]
    · have hsucc : a - s = a - (s + 1) + 1 := by omega
      rw [if_neg (by simpa using hsa), ih (by omega) (by omega), hsucc, List.getElem?_cons_succ]

/-- Of a row's decisions, the flips of a replica are the one of its part. -/
theorem filter_row_decisions (m : Model) (r : Run) (p : Nat × List Part) {a : Nat} (h : a < r.reps) :
    (((List.range r.reps).zip p.2).map fun q => decOf m r p.1 q.1 q.2).filter (fun d => d.a == a && d.flip) =
      (rowFlip m r a p).toList := by
  have hrow := filter_range'_zip p.2 (Nat.zero_le a) (Nat.zero_add r.reps ▸ h)
  rw [← List.range_eq_range', Nat.sub_zero] at hrow
  calc (((List.range r.reps).zip p.2).map fun q => decOf m r p.1 q.1 q.2).filter (fun d => d.a == a && d.flip)
      = ((((List.range r.reps).zip p.2).filter fun q => q.1 == a).map fun q => decOf m r p.1 q.1 q.2).filter
          Dec.flip := by
        rw [List.filter_map, List.filter_map, List.filter_filter]
        simp only [Function.comp_def, decOf, Bool.and_comm]
    _ = (rowFlip m r a p).toList := by
        rw [hrow, rowFlip]
        cases p.2[a]? with
        | none => rfl
        | some q => cases hf : (decOf m r p.1 a q).flip <;> simp [hf, Option.filter]

/-- Of a class's decisions, the flips of a replica are those of its rows. -/
theorem flipsOf_decisions (m : Model) (r : Run) (out : List (Nat × List Part)) {a : Nat} (h : a < r.reps) :
    flipsOf (decisions m r out) a = out.filterMap (rowFlip m r a) := by
  induction out with
  | nil => rfl
  | cons p out ih =>
    rw [flipsOf, decisions_eq] at ih ⊢
    rw [List.flatMap_cons, List.filter_append, filter_row_decisions m r p h, ih, List.filterMap_cons]
    cases rowFlip m r a p <;> rfl

theorem rowFlip_i {m : Model} {r : Run} {a : Nat} {p : Nat × List Part} {d : Dec} (h : rowFlip m r a p = some d) :
    d.i = p.1 := by
  obtain ⟨hd, -⟩ := Option.filter_eq_some_iff.1 h
  obtain ⟨q, -, rfl⟩ := Option.map_eq_some_iff.1 hd
  rfl

/-- A replica flips a spin at most once in a turn. -/
theorem flips_pairwise (m : Model) (r : Run) {out : List (Nat × List Part)} (h : (out.map Prod.fst).Nodup) (a : Nat) :
    (out.filterMap (rowFlip m r a)).Pairwise fun d e => d.i ≠ e.i := by
  rw [List.pairwise_filterMap]
  refine (List.pairwise_map.1 h).imp fun hne d hd e he => ?_
  rwa [rowFlip_i hd, rowFlip_i he]

theorem any_flips_of_not_mem (m : Model) (r : Run) {out : List (Nat × List Part)} {i : Nat} (a : Nat)
    (h : i ∉ out.map Prod.fst) : ((out.filterMap (rowFlip m r a)).any fun d => d.i == i) = false := by
  rw [List.any_eq_false]
  intro d hd hi
  obtain ⟨p, hp, hpd⟩ := List.mem_filterMap.1 hd
  exact h (List.mem_map.2 ⟨p, hp, (rowFlip_i hpd).symm.trans (eq_of_beq hi)⟩)

/-- Rows with the same number are the same row. -/
theorem eq_of_same_row {out : List (Nat × List Part)} (h : (out.map Prod.fst).Nodup) {x y : Nat × List Part} (hx : x ∈ out)
    (hy : y ∈ out) (hxy : x.1 = y.1) : x = y := by
  induction out with
  | nil => cases hx
  | cons z out ih =>
    obtain ⟨hz, hout⟩ := List.nodup_cons.1 h
    rcases List.mem_cons.1 hx with hxz | hx' <;> rcases List.mem_cons.1 hy with hyz | hy'
    · exact hxz.trans hyz.symm
    · exact absurd (List.mem_map.2 ⟨y, hy', hxz ▸ hxy.symm⟩) hz
    · exact absurd (List.mem_map.2 ⟨x, hx', hyz ▸ hxy⟩) hz
    · exact ih hout hx' hy'

/-- Of an evaluated row the flip is the row's own decision. -/
theorem any_flips_of_mem (m : Model) (r : Run) {out : List (Nat × List Part)} (h : (out.map Prod.fst).Nodup)
    {i a : Nat} {ps : List Part} {p : Part} (hrow : (i, ps) ∈ out) (hp : ps[a]? = some p) :
    ((out.filterMap (rowFlip m r a)).any fun d => d.i == i) = (decOf m r i a p).flip := by
  rw [Bool.eq_iff_iff, List.any_eq_true]
  constructor
  · rintro ⟨d, hd, hi⟩
    obtain ⟨x, hx, hxd⟩ := List.mem_filterMap.1 hd
    have hxi : x = (i, ps) := eq_of_same_row h hx hrow ((rowFlip_i hxd).symm.trans (eq_of_beq hi))
    obtain ⟨hdec, hflip⟩ := Option.filter_eq_some_iff.1 hxd
    rw [hxi, hp] at hdec
    rwa [Option.some.inj hdec]
  · intro hflip
    refine ⟨decOf m r i a p, List.mem_filterMap.2 ⟨_, hrow, ?_⟩, beq_self_eq_true i⟩
    rw [rowFlip, hp]
    exact Option.filter_eq_some_iff.2 ⟨rfl, hflip⟩

/-! ## The turn -/

theorem length_spins_applyTurn (m : Model) (r : Run) (c : Nat) (delta : Bool) (ds : List Dec) :
    (applyTurn m r c delta ds).spins.length = r.spins.length := by
  simp [applyTurn, Run.reps]

theorem spins_applyTurn (m : Model) (r : Run) (c : Nat) (delta : Bool) (ds : List Dec) {a : Nat}
    (h : a < r.spins.length) :
    (applyTurn m r c delta ds).spins.getD a 0 = flipSpins (flipsOf ds a) (r.spins.getD a 0) := by
  have ha : a < (applyTurn m r c delta ds).spins.length := by rwa [length_spins_applyTurn]
  rw [List.getD_eq_getElem?_getD, List.getD_eq_getElem?_getD, List.getElem?_eq_getElem ha, List.getElem?_eq_getElem h]
  simp [applyTurn, flipSpins]

/-- A turn flips the bit of a spin in a replica where its row says so. -/
theorem testBit_turn (m : Model) (r : Run) (c : Nat) (delta : Bool) {a : Nat} (h : a < r.spins.length) (i : Nat) :
    ((applyTurn m r c delta (decisions m r (evalClass m r c).2)).spins.getD a 0).testBit i =
      ((r.spins.getD a 0).testBit i ^^ ((evalClass m r c).2.filterMap (rowFlip m r a)).any fun d => d.i == i) := by
  have hrows : ((evalClass m r c).2.map Prod.fst).Nodup := map_fst_evalClass m r c ▸ classRows_nodup m c
  rw [spins_applyTurn _ _ _ _ _ h, flipsOf_decisions _ _ _ h, testBit_flipSpins (flips_pairwise m r hrows a)]

/-- A bit flipped where it differs from an answer is the answer. -/
theorem xor_bne_self (x y : Bool) : (x ^^ (y != x)) = y := by
  cases x <;> cases y <;> rfl

/-! ## The obligation -/

/-- Settles O26: a replica's flips are at most one for a row of the class, so a spin's bit differs by what its row
decided, and that is whether the comparator's answer differs from it. -/
theorem turnSetsSpins : Obligations.TurnSetsSpins := by
  unfold Obligations.TurnSetsSpins
  intro m r _
  refine ⟨length_spins_applyTurn .., rfl, rfl, rfl, rfl, rfl, rfl, rfl, rfl, fun a ha i => ⟨fun hi => ?_,
    fun ps hrow p hp => ?_⟩⟩
  · rw [← map_fst_evalClass] at hi
    rw [testBit_turn _ _ _ _ ha, any_flips_of_not_mem _ _ _ hi, Bool.xor_false]
  · have hrows : ((evalClass m r r.cls).2.map Prod.fst).Nodup :=
      map_fst_evalClass m r r.cls ▸ classRows_nodup m r.cls
    rw [testBit_turn _ _ _ _ ha, any_flips_of_mem _ _ hrows hrow hp, decOf, xor_bne_self]

end Sys2Proof.Machine
end

section
/-! PROOFS. TURN (O27): when it does nothing, how a line that cannot be read ends it, and what a completed turn leaves. -/

namespace Sys2Proof.Machine

/-! ## What a turn may change of the counters -/

/-- FULL and DELTA turns counted so far. -/
def turnsCounted (s : State) : Quad := s.anl.full + s.anl.delta

theorem turnsCounted_anlFlag (n : Nat) (s : State) : turnsCounted (anlFlag n s) = turnsCounted s := rfl

theorem turnsCounted_countEval (fl : Nat) (s : State) : turnsCounted (countEval fl s) = turnsCounted s := by
  unfold countEval
  dsimp only
  split <;> split <;> rfl

theorem turnsCounted_countEvals (fl : List Nat) (s : State) : turnsCounted (countEvals fl s) = turnsCounted s := by
  induction fl generalizing s with
  | nil => rfl
  | cons f fl ih => exact (ih (countEval f s)).trans (turnsCounted_countEval f s)

theorem turnsCounted_noteSteps (form steps : Nat) (s : State) :
    turnsCounted (noteSteps form steps s) = turnsCounted s := by
  unfold noteSteps
  split <;> rfl

/-- One of the two counts goes up by one. -/
theorem add_full_delta (full delta : Quad) (isDelta : Bool) :
    full + (if isDelta then 0 else 1) + (delta + if isDelta then 1 else 0) = full + delta + 1 := by
  cases isDelta
  · simp only [Bool.false_eq_true, if_false]
    ac_rfl
  · simp only [if_true]
    ac_rfl

/-- A turn that is not held up by an outstanding copy counts once, as DELTA or as FULL. -/
theorem turnsCounted_turnOf {m : Model} {r r' : Run} {s v : State} (h : turnOf m r s = some (r', v)) :
    turnsCounted v = turnsCounted s + 1 := by
  unfold turnOf at h
  dsimp only at h
  split at h
  · cases h
  · obtain ⟨-, rfl⟩ := Prod.mk.inj (Option.some.inj h)
    rw [apply_ite turnsCounted, turnsCounted_anlFlag, ite_self]
    have hsteps := turnsCounted_noteSteps m.form (evalSteps m r r.cls (evalClass m r r.cls).1)
      (countEvals (groupFlags m r r.cls (evalClass m r r.cls).2) s)
    rw [turnsCounted_countEvals] at hsteps
    rw [← hsteps]
    exact add_full_delta ..

/-! ## Remote spins and the end of a phase -/

theorem devices_applyArrived (m : Model) (r : Run) : (applyArrived m r).1.split.devices = r.split.devices := by
  unfold applyArrived
  dsimp only
  split
  · rfl
  · exact List.foldlRecOn (motive := fun q : Run × List Nat => q.1.split.devices = r.split.devices) _ _ rfl
      fun _ hq _ _ => hq

/-- The reports of a phase's end are all that it adds. -/
theorem phaseEnds_rest (engines : List Nat) (s : State) :
    phaseEnds engines s = { s with icu := (phaseEnds engines s).icu } := by
  unfold phaseEnds
  induction (engines.map (· / 8)).eraseDups generalizing s with
  | nil => rfl
  | cons c l ih => exact ih (icuSend (96 + c) s)

theorem phaseEnds_anl (engines : List Nat) (s : State) : (phaseEnds engines s).anl = s.anl := by rw [phaseEnds_rest]
theorem phaseEnds_mem (engines : List Nat) (s : State) : (phaseEnds engines s).mem = s.mem := by rw [phaseEnds_rest]
theorem phaseEnds_queues (engines : List Nat) (s : State) : (phaseEnds engines s).queues = s.queues := by
  rw [phaseEnds_rest]

/-! ## TURN -/

section
variable {k : Key} {c : Cmd} {r : Run} {s : State}

theorem exec_turn (h : running s k = some c) (hw : c.work = .anneal r) : exec (.turn k) s = .next (turn c r s) := by
  simp only [exec, execTurn, h, hw]

theorem turn_of_held (h : mayTurn r = false) : turn c r s = s := by
  simp [turn, h]

/-- May a started run that has not stopped take its next turn? -/
def turnDue (m : Model) (r : Run) : Prop :=
  r.started = true ∧ r.stop = none ∧ r.cls < nColours m ∧ mayTurn r = true

theorem turnDue.goes {m : Model} (h : turnDue m r) :
    (!r.started || r.stop.isSome || decide (nColours m ≤ r.cls) || !mayTurn r) = false := by
  obtain ⟨hstart, hstop, hcls, hmay⟩ := h
  simp [hstart, hstop, hmay, hcls]

theorem turn_of_lineError {d : Decision} {u : State} (h : turnDue (mdl s r.model) r)
    (hread : modelRead (mdl s r.model) s = (some d, u)) : turn c r s = failCmd c d u := by
  simp only [turn, h.goes, hread, Bool.false_eq_true, if_false]

/-- A turn of a run on one device, of a command that is still undecided. -/
theorem turn_of_turnOf {r' : Run} {u v : State} (h : turnDue (mdl s r.model) r)
    (hread : modelRead (mdl s r.model) s = (none, u)) (hdev : r.split.devices ≤ 1) (hdec : c.decided = none)
    (hturn : turnOf (mdl s r.model) (applyArrived (mdl s r.model) r).1
      (countEvals (applyArrived (mdl s r.model) r).2 u) = some (r', v)) :
    turn c r s = setRun c.key r' (phaseEnds c.engines v) := by
  have hone : ¬ 1 < (applyArrived (mdl s r.model) r).1.split.devices := by
    rw [devices_applyArrived]
    omega
  simp only [turn, h.goes, hread, hturn, if_neg hone, stopAtTurn, hdec, Bool.false_eq_true, if_false]

end

/-! ## The obligation -/

/-- Settles O27: a held run is left alone, a failed read is the command's own failure, and a completed turn changes only
the interrupt controller's messages and the command's run after the state that `turnOf` gives. -/
theorem turnCompletes : Obligations.TurnCompletes := by
  unfold Obligations.TurnCompletes
  intro k c r s hrun hw hstart hstop hcls
  rw [exec_turn hrun hw]
  refine ⟨fun hheld => congrArg _ (turn_of_held hheld), fun hmay => ?_⟩
  have hdue : turnDue (mdl s r.model) r := ⟨hstart, hstop, hcls, hmay⟩
  refine ⟨fun d u hread => congrArg _ (turn_of_lineError hdue hread), fun u r' v hread hturn hdev hdec => ?_⟩
  have hcount : turnsCounted v = turnsCounted u + 1 := by
    rw [turnsCounted_turnOf hturn, turnsCounted_countEvals]
  refine ⟨_, congrArg _ (turn_of_turnOf hdue hread hdev hdec hturn), phaseEnds_anl .., phaseEnds_mem ..,
    phaseEnds_queues .., fun d hd hk => ?_, hcount⟩
  obtain ⟨x, -, rfl⟩ := mem_updCmd_of_key hd hk
  rfl

end Sys2Proof.Machine
end

section
/-! PROOFS. An exchange round (O29): a trade swaps two neighbouring rungs of one ladder, and no replica is in two pairs
of a round. -/

namespace Sys2Proof.Machine

/-! ## One pair of a round -/

/-- A run's lower rung, the replicas on it and on the next, and whether they trade, as a round decides for a pair. -/
def pairDecision (form : Nat) (r : Run) (p : Nat × Nat) : Nat × Nat × Nat × Bool :=
  let a := replicaAt r p.1 p.2
  let b := replicaAt r p.1 (p.2 + 1)
  (p.2, a, b, exchanges form (r.energy.getD a 0) (r.energy.getD b 0) (effT r p.2) (effT r (p.2 + 1))
    (noiseX r.seed p.2 r.sweep p.1))

/-- The run after the decision of a pair. -/
def exchangeStep (q : Run) (d : Nat × Nat × Nat × Bool) : Run :=
  let (k, a, b, yes) := d
  let q := { q with att := incAt (incAt q.att a) b, rungAtt := incAt q.rungAtt k }
  if yes then { q with rung := (q.rung.set a (k + 1)).set b k, acc := incAt (incAt q.acc a) b
                       rungAcc := incAt q.rungAcc k } else q

theorem exchangeRound_eq (form : Nat) (r : Run) : exchangeRound form r =
    ((exchangePairs r).map (pairDecision form r)).foldl exchangeStep { r with rounds := satInc r.rounds } := rfl

/-- What the decision of a pair makes of the rungs. -/
def trade (l : List Nat) : Nat × Nat × Nat × Bool → List Nat
  | (k, a, b, yes) => if yes then (l.set a (k + 1)).set b k else l

theorem rung_exchangeStep (q : Run) (d : Nat × Nat × Nat × Bool) : (exchangeStep q d).rung = trade q.rung d := by
  obtain ⟨k, a, b, yes⟩ := d
  cases yes <;> rfl

theorem rung_foldl_exchangeStep (q : Run) (ds : List (Nat × Nat × Nat × Bool)) :
    (ds.foldl exchangeStep q).rung = ds.foldl trade q.rung := by
  induction ds generalizing q with
  | nil => rfl
  | cons d ds ih => rw [List.foldl_cons, ih, rung_exchangeStep, List.foldl_cons]

theorem rung_exchangeRound (form : Nat) (r : Run) :
    (exchangeRound form r).rung = ((exchangePairs r).map (pairDecision form r)).foldl trade r.rung := by
  rw [exchangeRound_eq, rung_foldl_exchangeStep]

/-- Only the rungs and the counts of exchanges differ. -/
def OnlyTraded (r q : Run) : Prop :=
  q = { r with
    rung := q.rung, att := q.att, acc := q.acc, rungAtt := q.rungAtt, rungAcc := q.rungAcc, rounds := q.rounds }

theorem exchangeStep_onlyTraded {r q : Run} (h : OnlyTraded r q) (d : Nat × Nat × Nat × Bool) :
    OnlyTraded r (exchangeStep q d) := by
  obtain ⟨k, a, b, yes⟩ := d
  unfold OnlyTraded at h ⊢
  rw [h]
  cases yes <;> rfl

theorem exchangeRound_onlyTraded (form : Nat) (r : Run) : OnlyTraded r (exchangeRound form r) := by
  rw [exchangeRound_eq]
  exact List.foldlRecOn _ _ rfl fun _ h d _ => exchangeStep_onlyTraded h d

/-! ## Full ladders -/

/-- Every rung of every ladder of `n` replicas has one of them. -/
def LaddersFull (n ladders : Nat) (l : List Nat) : Prop :=
  ∀ g k, g < ladders → k < n → ∃ a, a / n = g ∧ l[a]? = some k

theorem getD_eq_iff_of_lt {l : List Nat} {n a k : Nat} (h : k < n) : l.getD a n = k ↔ l[a]? = some k := by
  rw [List.getD_eq_getElem?_getD]
  cases l[a]? with
  | none => simpa using Nat.ne_of_gt h
  | some x => simp

theorem ladder_iff {n a g : Nat} (hn : n ≠ 0) : a / n = g ↔ g * n ≤ a ∧ a < (g + 1) * n := by
  rw [Nat.div_eq_iff (Nat.pos_of_ne_zero hn), Nat.add_one_mul]
  omega

/-- The replicas of a ladder, as a round goes through them. -/
theorem mem_ladder {n a g : Nat} (hn : n ≠ 0) : a ∈ (List.range n).map (· + g * n) ↔ a / n = g := by
  rw [ladder_iff hn, Nat.add_one_mul, List.mem_map]
  constructor
  · rintro ⟨j, hj, rfl⟩
    have hj := List.mem_range.1 hj
    omega
  · rintro ⟨hlo, hhi⟩
    exact ⟨a - g * n, List.mem_range.2 (by omega), by omega⟩

theorem laddersFull_iff {n ladders : Nat} {l : List Nat} (hn : n ≠ 0) : LaddersFull n ladders l ↔
    ∀ g k, g < ladders → k < n → ∃ a, g * n ≤ a ∧ a < (g + 1) * n ∧ l.getD a n = k := by
  refine forall₄_congr fun g k _ hk => exists_congr fun a => ?_
  rw [getD_eq_iff_of_lt hk, ← and_assoc, ladder_iff hn]

/-- A pair's replicas are of one ladder and stand on its rungs. -/
structure OnRungs (n : Nat) (l : List Nat) (d : Nat × Nat × Nat × Bool) : Prop where
  ladder : d.2.1 / n = d.2.2.1 / n
  lower : l[d.2.1]? = some d.1
  upper : l[d.2.2.1]? = some (d.1 + 1)

theorem getElem?_trade {n k a b : Nat} {l : List Nat} (h : OnRungs n l (k, a, b, true)) (i : Nat) :
    (trade l (k, a, b, true))[i]? = if b = i then some k else if a = i then some (k + 1) else l[i]? := by
  have ha : a < l.length := (List.getElem?_eq_some_iff.1 h.lower).1
  have hb : b < l.length := (List.getElem?_eq_some_iff.1 h.upper).1
  rw [trade, if_pos rfl, List.getElem?_set, List.length_set, List.getElem?_set, if_pos ha, if_pos hb]

/-- A trade keeps every ladder full: each of the two rungs passes to the other replica. -/
theorem laddersFull_trade {n ladders : Nat} {l : List Nat} {d : Nat × Nat × Nat × Bool} (h : LaddersFull n ladders l)
    (hd : OnRungs n l d) : LaddersFull n ladders (trade l d) := by
  obtain ⟨k, a, b, yes⟩ := d
  cases yes with
  | false => exact h
  | true =>
    intro g j hg hj
    obtain ⟨i, hi, hrung⟩ := h g j hg hj
    by_cases ha : a = i
    · subst ha
      cases hrung.symm.trans hd.lower
      exact ⟨b, hd.ladder.symm.trans hi, by rw [getElem?_trade hd, if_pos rfl]⟩
    · by_cases hb : b = i
      · subst hb
        cases hrung.symm.trans hd.upper
        exact ⟨a, hd.ladder.trans hi, by rw [getElem?_trade hd, if_neg (Ne.symm ha), if_pos rfl]⟩
      · exact ⟨i, hi, by rw [getElem?_trade hd, if_neg hb, if_neg ha, hrung]⟩

/-! ## A round -/

/-- Two pairs have no replica in common. -/
def Apart (d e : Nat × Nat × Nat × Bool) : Prop :=
  d.2.1 ≠ e.2.1 ∧ d.2.1 ≠ e.2.2.1 ∧ d.2.2.1 ≠ e.2.1 ∧ d.2.2.1 ≠ e.2.2.1

theorem onRungs_trade {n : Nat} {l : List Nat} {d e : Nat × Nat × Nat × Bool} (h : OnRungs n l e) (hde : Apart d e) :
    OnRungs n (trade l d) e := by
  obtain ⟨k, a, b, yes⟩ := d
  obtain ⟨haa, hab, hba, hbb⟩ := hde
  cases yes with
  | false => exact h
  | true =>
    refine ⟨h.ladder, ?_, ?_⟩
    · rw [trade, if_pos rfl, List.getElem?_set_ne hba, List.getElem?_set_ne haa, h.lower]
    · rw [trade, if_pos rfl, List.getElem?_set_ne hbb, List.getElem?_set_ne hab, h.upper]

theorem laddersFull_foldl_trade {n ladders : Nat} {l : List Nat} {ds : List (Nat × Nat × Nat × Bool)}
    (h : LaddersFull n ladders l) (hon : ∀ d ∈ ds, OnRungs n l d) (hapart : ds.Pairwise Apart) :
    LaddersFull n ladders (ds.foldl trade l) := by
  induction ds generalizing l with
  | nil => exact h
  | cons d ds ih =>
    obtain ⟨hd, hds⟩ := List.pairwise_cons.1 hapart
    obtain ⟨hond, honds⟩ := List.forall_mem_cons.1 hon
    exact ih (laddersFull_trade h hond) (fun e he => onRungs_trade (honds e he) (hd e he)) hds

theorem length_foldl_trade (l : List Nat) (ds : List (Nat × Nat × Nat × Bool)) : (ds.foldl trade l).length = l.length :=
  List.foldlRecOn (motive := fun x : List Nat => x.length = l.length) ds trade rfl fun x hx d _ => by
    obtain ⟨k, a, b, yes⟩ := d
    cases yes <;> simpa [trade] using hx

/-- The parity of the lower rungs of a round's pairs (R144). -/
def roundParity (r : Run) : Nat := ((r.sweep + 1) / repExch r.repBlk + 1) % 2

theorem mem_exchangePairs {r : Run} {p : Nat × Nat} (h : p ∈ exchangePairs r) :
    p.1 < r.reps / r.rungs ∧ p.2 + 1 < r.rungs ∧ p.2 % 2 = roundParity r := by
  obtain ⟨g, hg, hp⟩ := List.mem_flatMap.1 h
  obtain ⟨k, hk, rfl⟩ := List.mem_map.1 hp
  obtain ⟨hk, hpar⟩ := List.mem_filter.1 hk
  have hlt := List.mem_range.1 hk
  exact ⟨List.mem_range.1 hg, by dsimp only; omega, eq_of_beq hpar⟩

theorem exchangePairs_nodup (r : Run) : (exchangePairs r).Nodup := by
  refine List.pairwise_flatMap.2 ⟨fun g _ => ?_, List.nodup_range.imp fun hne p hp q hq heq => ?_⟩
  · exact List.Pairwise.map _ (fun _ _ hne heq => hne (congrArg Prod.snd heq)) (List.Pairwise.filter _ List.nodup_range)
  · obtain ⟨k, -, rfl⟩ := List.mem_map.1 hp
    obtain ⟨j, -, rfl⟩ := List.mem_map.1 hq
    exact hne (congrArg Prod.fst heq)

section
variable {r : Run} (hlen : r.rung.length = r.reps) (hfull : LaddersFull r.rungs (r.reps / r.rungs) r.rung)
include hlen hfull

/-- In a full ladder the replica that a round looks for stands on the rung. -/
theorem replicaAt_of_full {g k : Nat} (hg : g < r.reps / r.rungs) (hk : k < r.rungs) :
    replicaAt r g k / r.rungs = g ∧ r.rung[replicaAt r g k]? = some k := by
  have hn : r.rungs ≠ 0 := Nat.ne_zero_of_lt hk
  obtain ⟨a, ha, hrung⟩ := hfull g k hg hk
  obtain ⟨b, hb⟩ : ∃ b, ((List.range r.rungs).map (· + g * r.rungs)).find? (fun a => r.rung.getD a 0 == k) = some b :=
    Option.isSome_iff_exists.1 (List.find?_isSome.2 ⟨a, (mem_ladder hn).2 ha, by simp [hrung]⟩)
  have hladder : b / r.rungs = g := (mem_ladder hn).1 (List.mem_of_find?_eq_some hb)
  have hfound : (r.rung.getD b 0 == k) = true := List.find?_some (p := fun a => r.rung.getD a 0 == k) hb
  have hlast : (g + 1) * r.rungs ≤ r.reps := (Nat.le_div_iff_mul_le (Nat.pos_of_ne_zero hn)).1 hg
  have hlt : b < r.rung.length := hlen ▸ Nat.lt_of_lt_of_le ((ladder_iff hn).1 hladder).2 hlast
  have hat : replicaAt r g k = b := by rw [replicaAt, hb, Option.getD_some]
  rw [List.getD_eq_getElem?_getD, List.getElem?_eq_getElem hlt] at hfound
  rw [hat, List.getElem?_eq_getElem hlt]
  exact ⟨hladder, congrArg some (eq_of_beq hfound)⟩

/-- So two different rungs have different replicas. -/
theorem replicaAt_inj {g g' k k' : Nat} (hg : g < r.reps / r.rungs) (hk : k < r.rungs) (hg' : g' < r.reps / r.rungs)
    (hk' : k' < r.rungs) (heq : replicaAt r g k = replicaAt r g' k') : g = g' ∧ k = k' := by
  obtain ⟨hladder, hrung⟩ := replicaAt_of_full hlen hfull hg hk
  obtain ⟨hladder', hrung'⟩ := replicaAt_of_full hlen hfull hg' hk'
  rw [heq] at hladder hrung
  exact ⟨hladder.symm.trans hladder', Option.some.inj (hrung.symm.trans hrung')⟩

theorem onRungs_pairDecision (form : Nat) {p : Nat × Nat} (hp : p ∈ exchangePairs r) :
    OnRungs r.rungs r.rung (pairDecision form r p) := by
  obtain ⟨hg, hk, -⟩ := mem_exchangePairs hp
  obtain ⟨hlower, hlow⟩ := replicaAt_of_full hlen hfull hg (Nat.lt_of_succ_lt hk)
  obtain ⟨hupper, hup⟩ := replicaAt_of_full hlen hfull hg hk
  exact ⟨hlower.trans hupper.symm, hlow, hup⟩

/-- Different pairs of a round differ in their ladder or by two rungs at least. -/
theorem apart_pairDecision (form : Nat) {p p' : Nat × Nat} (hp : p ∈ exchangePairs r) (hp' : p' ∈ exchangePairs r)
    (hne : p ≠ p') : Apart (pairDecision form r p) (pairDecision form r p') := by
  obtain ⟨hg, hk, hpar⟩ := mem_exchangePairs hp
  obtain ⟨hg', hk', hpar'⟩ := mem_exchangePairs hp'
  have hk0 := Nat.lt_of_succ_lt hk
  have hk0' := Nat.lt_of_succ_lt hk'
  refine ⟨fun heq => ?_, fun heq => ?_, fun heq => ?_, fun heq => ?_⟩
  · obtain ⟨hgg, hkk⟩ := replicaAt_inj hlen hfull hg hk0 hg' hk0' heq
    exact hne (Prod.ext hgg hkk)
  · obtain ⟨-, hkk⟩ := replicaAt_inj hlen hfull hg hk0 hg' hk' heq
    omega
  · obtain ⟨-, hkk⟩ := replicaAt_inj hlen hfull hg hk hg' hk0' heq
    omega
  · obtain ⟨hgg, hkk⟩ := replicaAt_inj hlen hfull hg hk hg' hk' heq
    exact hne (Prod.ext hgg (Nat.succ.inj hkk))

theorem laddersFull_exchangeRound (form : Nat) :
    LaddersFull r.rungs (r.reps / r.rungs) (exchangeRound form r).rung := by
  rw [rung_exchangeRound]
  refine laddersFull_foldl_trade hfull (List.forall_mem_map.2 fun p hp => onRungs_pairDecision hlen hfull form hp) ?_
  exact List.pairwise_map.2
    ((exchangePairs_nodup r).imp_of_mem fun hp hp' hne => apart_pairDecision hlen hfull form hp hp' hne)

end

/-! ## The obligation -/

/-- Settles O29: every trade of a round swaps two rungs of a full ladder, since no earlier one has moved its
replicas. -/
theorem exchangeKeepsLadders : Obligations.ExchangeKeepsLadders := by
  unfold Obligations.ExchangeKeepsLadders
  intro form r hlen hrungs hfull
  have hrest := exchangeRound_onlyTraded form r
  have hkept := laddersFull_exchangeRound hlen ((laddersFull_iff hrungs).2 hfull) form
  refine ⟨?_, by rw [hrest], by rw [hrest], by rw [hrest], (laddersFull_iff hrungs).1 hkept⟩
  rw [rung_exchangeRound, length_foldl_trade]

end Sys2Proof.Machine
end

section
/-! PROOFS. The boundary of a sweep and the copies of best states (O28): what the energies and the exchange leave of the
run, the two ends of a boundary, and the bits of a copied row block. -/

namespace Sys2Proof.Machine

/-! ## What the energies leave of the state -/

/-- The queues and the count of sweeps are as they were. -/
structure KeepsSweeps (a s : State) : Prop where
  queues : s.queues = a.queues
  sweeps : s.anl.sweeps = a.anl.sweeps

theorem KeepsSweeps.trans {a b c : State} (h : KeepsSweeps a b) (k : KeepsSweeps b c) : KeepsSweeps a c :=
  ⟨k.queues.trans h.queues, k.sweeps.trans h.sweeps⟩

theorem Touch.keepsSweeps {a s : State} (h : Touch a s) : KeepsSweeps a s :=
  ⟨h.queues, congrArg AnlSt.sweeps h.anl⟩

theorem KeepsSweeps.ite {a x y : State} {c : Prop} [Decidable c] (h : KeepsSweeps a x) (k : KeepsSweeps a y) :
    KeepsSweeps a (if c then x else y) := by
  split
  · exact h
  · exact k

theorem anlFlag_keepsSweeps (n : Nat) (s : State) : KeepsSweeps s (anlFlag n s) := ⟨rfl, rfl⟩

theorem countEval_keepsSweeps (fl : Nat) (s : State) : KeepsSweeps s (countEval fl s) := by
  have hclose : KeepsSweeps s (countClose fl s) := ⟨rfl, rfl⟩
  have hsat := KeepsSweeps.ite (c := bit fl 0 = true) (hclose.trans (anlFlag_keepsSweeps 4 _)) hclose
  exact KeepsSweeps.ite (hsat.trans (anlFlag_keepsSweeps 5 _)) hsat

theorem countEvals_keepsSweeps (fl : List Nat) (s : State) : KeepsSweeps s (countEvals fl s) :=
  List.foldlRecOn _ _ ⟨rfl, rfl⟩ fun st h f _ => h.trans (countEval_keepsSweeps f st)

theorem noteSteps_keepsSweeps (form steps : Nat) (s : State) : KeepsSweeps s (noteSteps form steps s) := by
  unfold noteSteps
  split <;> exact ⟨rfl, rfl⟩

theorem evalReplicas_keepsSweeps {α : Type} (m : Model) (r : Run) (f : Nat → List (Nat × Word) → α) (s : State) :
    KeepsSweeps s (evalReplicas m r f s).2.2 :=
  (countEvals_keepsSweeps (allFields m r).2.1 s).trans (noteSteps_keepsSweeps m.form (allFields m r).2.2 _)

theorem noteEnergies_keepsSweeps (m : Model) (es : List (Quad × Bool)) (bad : Bool) (r : Run) (s : State) :
    KeepsSweeps s (noteEnergies m es bad r s).2.2 :=
  KeepsSweeps.ite (anlFlag_keepsSweeps 3 s) ⟨rfl, rfl⟩

theorem recompute_keepsSweeps (m : Model) (r : Run) (s : State) : KeepsSweeps s (recompute m r s).2.2 :=
  (evalReplicas_keepsSweeps m r (energyOf m) s).trans (noteEnergies_keepsSweeps ..)

theorem finalEnergies_keepsSweeps (m : Model) (r : Run) (s : State) : KeepsSweeps s (finalEnergies m r none s).2 := by
  unfold finalEnergies
  dsimp only
  split
  · exact ⟨rfl, rfl⟩
  · have hsums := recompute_keepsSweeps m r s
    exact KeepsSweeps.ite ⟨hsums.queues, hsums.sweeps⟩ ⟨hsums.queues, hsums.sweeps⟩

/-- Only the energies and what they show about the run differ. -/
def OnlyEnergies (r q : Run) : Prop :=
  q = { r with energy := q.energy, odd := q.odd, nonfinite := q.nonfinite, mismatch := q.mismatch }

theorem finalEnergies_onlyEnergies (m : Model) (r : Run) (s : State) : OnlyEnergies r (finalEnergies m r none s).1 := by
  unfold finalEnergies
  dsimp only
  split <;> rfl

theorem modelRead_touch (m : Model) (s : State) : Touch s (modelRead m s).2 := by
  have hlines := readLines_touch 0 (modelLines s m) s
  unfold modelRead
  split
  · exact Touch.pair ‹_› hlines
  · have hread := Touch.pair ‹_› hlines
    split
    · have hspads := onchipSpads_touch (List.range 64) ‹_›
      split
      · exact hread.trans (Touch.pair ‹_› hspads)
      · exact hread.trans ((Touch.pair ‹_› hspads).trans (onchipClusters_touch ..))
    · exact hread

/-! ## Best energies (R149) -/

theorem getD_map_range {α : Type} {n a : Nat} (f : Nat → α) (d : α) (h : a < n) :
    ((List.range n).map f).getD a d = f a := by
  rw [List.getD_eq_getElem?_getD, List.getElem?_map, List.getElem?_range h]
  rfl

theorem getD_bestE_updateBest (m : Model) (r : Run) {a : Nat} (h : a < r.reps) : (updateBest m r).bestE.getD a 0 =
    if energyLt m.form (r.energy.getD a 0) (r.bestE.getD a 0) then r.energy.getD a 0 else r.bestE.getD a 0 := by
  refine (getD_map_range _ 0 h).trans ?_
  simp only [List.mem_filter, List.mem_range, h, true_and]

/-! ## The end of a boundary (R155) -/

/-- The run after a boundary at which it goes on. -/
def nextSweep (m : Model) (b : Run) : Run :=
  let q := if exchangeDue b then exchangeRound m.form b else b
  { q with done := q.done + 1, sweep := q.sweep + 1, cls := 0, stop := none }

theorem onlyTraded_nextSweep (m : Model) (b : Run) :
    OnlyTraded { b with done := b.done + 1, sweep := b.sweep + 1, cls := 0, stop := none } (nextSweep m b) := by
  unfold nextSweep
  split
  · have htraded := exchangeRound_onlyTraded m.form b
    unfold OnlyTraded at htraded ⊢
    rw [htraded]
  · rfl

theorem rung_nextSweep (m : Model) {b : Run} (h : exchangeDue b = false) : (nextSweep m b).rung = b.rung := by
  simp [nextSweep, h]

/-- The sweep is counted. -/
def countSweep (s : State) : State := { s with anl := { s.anl with sweeps := s.anl.sweeps + 1 } }

section
variable {c : Cmd} {m : Model} {r : Run} (s : State) (hdigest : r.digest = false)
include hdigest

/-- Without a digest no checkpoint is due at a boundary. -/
theorem boundaryTail_goes (hstop : stopNow m { updateBest m r with done := (updateBest m r).done + 1 } = none)
    (hdec : c.decided = none) :
    boundaryTail c m r s = setRun c.key (nextSweep m (updateBest m r)) (countSweep s) := by
  unfold boundaryTail
  extract_lets b r1 _ u stop due
  have hdue : due = false := congrArg (· && _) hdigest
  have hnone : stop = none := hstop
  rw [hdue, hnone]
  clear_value due stop
  simp only [Bool.false_eq_true, if_false, stopAtTurn, hdec]
  rfl

theorem boundaryTail_stops {st : Nat × Nat}
    (hstop : stopNow m { updateBest m r with done := (updateBest m r).done + 1 } = some st) (hpause : c.pause = none) :
    boundaryTail c m r s = commitRun c m { updateBest m r with
      done := (updateBest m r).done + 1, sweep := (updateBest m r).sweep + 1, cls := 0, stop := some st }
      (countSweep s) := by
  unfold boundaryTail
  extract_lets b r1 _ u stop due
  have hdue : due = false := congrArg (· && _) hdigest
  have hsome : stop = some st := hstop
  rw [hdue, hsome]
  clear_value due stop
  simp only [Bool.false_eq_true, if_false, hpause]
  cases c.decided <;> rfl

end

/-! ## SWEEP_BOUNDARY -/

section
variable {k : Key} {c : Cmd} {r : Run} {s : State}

theorem exec_sweepBoundary (h : running s k = some c) (hw : c.work = .anneal r) :
    exec (.sweepBoundary k) s = .next (sweepBoundary c r s) := by
  simp only [exec, execSweepBoundary, h, hw]

/-- The boundary of a started run on one device whose last turn has ended. -/
theorem sweepBoundary_of_read {u : State} (hstart : r.started = true) (hstop : r.stop = none)
    (hcls : r.cls = nColours (mdl s r.model)) (hdev : r.split.devices ≤ 1)
    (hread : modelRead (mdl s r.model) s = (none, u)) :
    sweepBoundary c r s = boundaryTail c (mdl s r.model) (finalEnergies (mdl s r.model) r none u).1
      (finalEnergies (mdl s r.model) r none u).2 := by
  have hone : ¬ 1 < r.split.devices := by omega
  simp [sweepBoundary, hstart, hstop, hcls, hread, hone]

/-- Every command of the key has the run as its work. -/
theorem work_of_mem_setRun {d : Cmd} (hd : d ∈ (setRun k r s).cmds) (hk : d.key = k) : d.work = .anneal r := by
  obtain ⟨x, -, rfl⟩ := mem_updCmd_of_key hd hk
  rfl

end

/-! ## BEST_STATE_COPY (R151) -/

/-- A copied block has the spins' bits, and the rest of the state keeps its own. -/
theorem testBit_copyBlock (b best spins i : Nat) : (copyBlock b best spins).testBit i =
    if 128 * b ≤ i ∧ i < 128 * b + 128 then spins.testBit i else best.testBit i := by
  have hbest : best = 2 ^ (128 * b) * (2 ^ 128 * (best / 2 ^ (128 * b) / 2 ^ 128) + best / 2 ^ (128 * b) % 2 ^ 128) +
      best % 2 ^ (128 * b) := by
    rw [Nat.div_add_mod, Nat.div_add_mod]
  have hcopy : copyBlock b best spins =
      2 ^ (128 * b) * (2 ^ 128 * (best / 2 ^ (128 * b) / 2 ^ 128) + spins / 2 ^ (128 * b) % 2 ^ 128) +
        best % 2 ^ (128 * b) := by
    unfold copyBlock
    dsimp only
    rw [Nat.mul_add] at hbest ⊢
    rw [Nat.mul_comm _ (2 ^ (128 * b)), Nat.mul_comm _ (2 ^ (128 * b))]
    omega
  rw [hcopy, Nat.testBit_two_pow_mul_add _ (Nat.mod_lt _ (Nat.two_pow_pos _)),
    Nat.testBit_two_pow_mul_add _ (Nat.mod_lt _ (Nat.two_pow_pos _))]
  by_cases hlo : i < 128 * b
  · rw [if_pos hlo, if_neg (by omega), Nat.testBit_mod_two_pow, decide_eq_true hlo, Bool.true_and]
  · rw [if_neg hlo]
    by_cases hhi : i < 128 * b + 128
    · have hin : i - 128 * b < 128 := by omega
      rw [if_pos hin, if_pos (by omega), Nat.testBit_mod_two_pow, decide_eq_true hin, Bool.true_and,
        Nat.testBit_div_two_pow, Nat.sub_add_cancel (by omega)]
    · rw [if_neg (by omega), if_neg (by omega), Nat.testBit_div_two_pow, Nat.testBit_div_two_pow]
      congr 1
      omega

theorem copyBest_of_find {r : Run} {b : Nat} {l : List Nat} (h : r.copies.find? (fun p => p.1 == b) = some (b, l)) :
    copyBest r b = { r with
      best := (List.range r.reps).map fun a =>
        if a ∈ l then copyBlock b (r.best.getD a 0) (r.spins.getD a 0) else r.best.getD a 0
      copies := r.copies.filter fun p => p.1 != b } := by
  simp only [copyBest, h]

section
variable {k : Key} {c : Cmd} {r : Run} {b : Nat} {s : State}

theorem exec_bestStateCopy (h : running s k = some c) (hw : c.work = .anneal r) :
    exec (.bestStateCopy k b) s = .next (bestStateCopy c r b s) := by
  simp only [exec, execBestStateCopy, h, hw]

theorem bestStateCopy_of_not_next (h : copyNext r b = false) : bestStateCopy c r b s = s := by
  simp [bestStateCopy, h]

theorem bestStateCopy_of_undecided (h : copyNext r b = true) (hdec : c.decided = none) :
    bestStateCopy c r b s = setRun c.key (copyBest r b) s := by
  simp [bestStateCopy, h, hdec]

end

/-! ## The obligation -/

/-- Settles O28: the energies change neither spins nor the count of sweeps, the boundary ends by whether a stop
condition holds, and a copied row block differs from the best state in its 128 bits alone. -/
theorem sweepBoundaryAndBest : Obligations.SweepBoundaryAndBest := by
  unfold Obligations.SweepBoundaryAndBest
  refine ⟨fun k c r u s hrun hw hstart hstop hcls hdev hread => ?_, fun r b l hfind => ?_, fun k c r b s hrun hw => ?_⟩
  · intro m f b n
    have henergies : OnlyEnergies r f.1 := finalEnergies_onlyEnergies m r u
    have hkept : KeepsSweeps s f.2 :=
      (Touch.pair hread (modelRead_touch m s)).keepsSweeps.trans (finalEnergies_keepsSweeps m r u)
    have hexec : exec (.sweepBoundary k) s = .next (boundaryTail c m f.1 f.2) := by
      rw [exec_sweepBoundary hrun hw, sweepBoundary_of_read hstart hstop hcls hdev hread]
    clear_value m f
    have hspins : f.1.spins = r.spins := by rw [henergies]
    have hrung : f.1.rung = r.rung := by rw [henergies]
    have hdigest : f.1.digest = r.digest := by rw [henergies]
    have hreps : f.1.reps = r.reps := congrArg List.length hspins
    rw [hexec]
    refine ⟨fun a ha => getD_bestE_updateBest m f.1 (hreps ▸ ha), fun hgoes hdig hdec => ?_, fun st hst hdig hpause =>
      congrArg Host.Outcome.next (boundaryTail_stops f.2 (hdigest.trans hdig) hst hpause)⟩
    have htraded := onlyTraded_nextSweep m b
    refine ⟨_, congrArg Host.Outcome.next (boundaryTail_goes f.2 (hdigest.trans hdig) hgoes hdec),
      congrArg (· + 1) hkept.sweeps, hkept.queues, fun d hd hk => ⟨_, work_of_mem_setRun hd hk, ?_⟩⟩
    refine ⟨by rw [htraded], by rw [htraded], by rw [htraded], by rw [htraded], ?_, by rw [htraded], fun hdue => ?_⟩
    · rw [htraded]
      exact hspins
    · rw [rung_nextSweep m hdue]
      exact hrung
  · rw [copyBest_of_find hfind]
    refine ⟨rfl, rfl, fun a ha i => ?_⟩
    rw [getD_map_range _ 0 ha]
    by_cases hal : a ∈ l
    · rw [if_pos hal, testBit_copyBlock]
      simp [hal]
    · simp [hal]
  · rw [exec_bestStateCopy hrun hw]
    refine ⟨fun hnot => congrArg _ (bestStateCopy_of_not_next hnot), fun hnext hdec => ?_⟩
    exact ⟨_, congrArg _ (bestStateCopy_of_undecided hnext hdec), rfl, rfl, fun d => work_of_mem_setRun⟩

end Sys2Proof.Machine
end

section
/-! PROOFS. Lock-step and split messages (O51): the links of a group's members, a message taken from a link's inbox,
then what each kind of message does. -/

namespace Sys2Proof.Machine

/-! ## Links towards members (R485) -/

section
variable {s : State} {p : SplitSt} {i : Nat}

theorem directLink_spec {l : Nat} (h : directLink s p i = some l) :
    (lnk s l).st = .active ∧ ∃ h, (i, l, h) ∈ p.joined := by
  obtain ⟨j, hj, rfl⟩ := Option.map_eq_some_iff.1 h
  have hfound := List.find?_some (p := fun m : Nat × Nat × Quad => m.1 == i && (lnk s m.2.1).st == .active) hj
  obtain ⟨hi, hst⟩ := Bool.and_eq_true_iff.1 hfound
  cases eq_of_beq hi
  exact ⟨eq_of_beq hst, j.2.2, List.mem_of_find?_eq_some hj⟩

theorem not_active_of_directLink_none (h : directLink s p i = none) {j : Nat × Nat × Quad} (hj : j ∈ p.joined)
    (hi : j.1 = i) : (lnk s j.2.1).st ≠ .active := by
  have hnone := List.find?_eq_none.1 (Option.map_eq_none_iff.1 h) j hj
  simpa [hi] using hnone

theorem routeTo_direct {l : Nat} (h : directLink s p i = some l) : routeTo s p i = some l := by
  simp only [routeTo, h]

/-- Without a link of its own a member is reached through the lowest that hears it and is heard. -/
theorem routeTo_through {m l : Nat} (h : directLink s p i = none) (hm : m < p.devices) (hears' : hears p m i = true)
    (hl : directLink s p m = some l) (hlow : ∀ k, k < m → hears p k i = false ∨ directLink s p k = none) :
    routeTo s p i = some l := by
  have hfirst : ((List.range p.devices).find? fun m => hears p m i && (directLink s p m).isSome) = some m := by
    refine List.find?_range_eq_some.2 ⟨by simp [hears', hl], List.mem_range.2 hm, fun k hk => ?_⟩
    rcases hlow k hk with hdeaf | hnone
    · simp [hdeaf]
    · simp [hnone]
  simp only [routeTo, h, hfirst, Option.bind_some, hl]

/-- A split run that ends leaves its group's record. -/
theorem mem_past_dropWork {c : Cmd} {r : Run} (hw : c.work = .anneal r) (hdev : 1 < r.split.devices) :
    { r.split with spinsGot := [], spinsLate := [], energies := [], sentPartial := none } ∈ (dropWork c s).kw.past := by
  have hmany : ¬ r.split.devices ≤ 1 := by omega
  simp only [dropWork, hw, keepGroup, if_neg hmany]
  exact List.mem_append_right _ (List.mem_singleton.2 rfl)

end

/-! ## A message taken from the inbox -/

/-- The state with a message taken out of a link's inbox. -/
def received (l : Nat) (m : Msg) (s : State) : State :=
  setLnk l { lnk s l with inbox := (lnk s l).inbox.erase m } s

theorem takeMsg_of_find {l ty : Nat} {later : Msg → Bool} {m : Msg} {s : State} (hup : isUp s = true)
    (h : ((lnk s l).inbox.find? fun m => m.ty == ty && !later m) = some m) :
    takeMsg l ty later s = some (m, received l m s) := by
  simp only [takeMsg, hup, h, Bool.not_true, Bool.false_eq_true, if_false]
  rfl

theorem takeMsg_of_first {l ty : Nat} {m : Msg} {s : State} (hup : isUp s = true)
    (h : ((lnk s l).inbox.find? fun m => m.ty == ty) = some m) :
    takeMsg l ty (fun _ => false) s = some (m, received l m s) :=
  takeMsg_of_find hup (by simpa using h)

/-! ## Checkpoints and ends of lock-step commands (R378 to R382) -/

section
variable {l : Nat} {m : Msg} {s : State}

theorem checkpointIn_of_no_binding (h : epochBinding s l m.w2 = none) : checkpointIn l m s = lsReplay s := by
  simp only [checkpointIn, h]

/-- A binding's record with the message's (SEQ, checkpoint) noted. -/
def noteSeen (b : Nat) (m : Msg) (s : State) : State :=
  setBnd b { bnd s b with seen := (bnd s b).seen ++ [(m.w3, leAt m.body 0 4)] } s

theorem any_pair_eq_mem {l : List (Word × Nat)} {x : Word} {k : Nat} :
    (l.any fun p => p.1 == x && p.2 == k) = decide ((x, k) ∈ l) := by
  rw [Bool.eq_iff_iff, List.any_eq_true, decide_eq_true_iff]
  constructor
  · rintro ⟨⟨y, j⟩, hmem, heq⟩
    obtain ⟨hy, hj⟩ := Bool.and_eq_true_iff.1 heq
    cases eq_of_beq hy
    cases eq_of_beq hj
    exact hmem
  · exact fun hmem => ⟨_, hmem, by simp⟩

theorem checkpointIn_of_seen {b : Nat} (h : epochBinding s l m.w2 = some b)
    (hseen : (m.w3, leAt m.body 0 4) ∈ (bnd s b).seen) : checkpointIn l m s = lsReplay s := by
  simp only [checkpointIn, h, any_pair_eq_mem, decide_eq_true hseen, if_true]

theorem checkpointIn_of_no_command {b : Nat} (h : epochBinding s l m.w2 = some b)
    (hseen : (m.w3, leAt m.body 0 4) ∉ (bnd s b).seen) (hc : lsCmd s b m.w3 = none) :
    checkpointIn l m s = noteSeen b m s := by
  have hc' : lsCmd (noteSeen b m s) b m.w3 = none := hc
  rw [noteSeen] at hc'
  simp only [checkpointIn, h, any_pair_eq_mem, decide_eq_false hseen, Bool.false_eq_true, if_false, hc', noteSeen]

theorem checkpointIn_of_command {b : Nat} {c : Cmd} {ls : LockStep} (h : epochBinding s l m.w2 = some b)
    (hseen : (m.w3, leAt m.body 0 4) ∉ (bnd s b).seen) (hc : lsCmd s b m.w3 = some c) (hls : c.lockStep = some ls) :
    let compared := lsCompare c { ls with peer := ls.peer ++ [(leAt m.body 0 4, digOf (slice 8 32 m.body))] }
      (leAt m.body 0 4) (noteSeen b m s)
    checkpointIn l m s = setLs c.key compared.1 compared.2 := by
  have hc' : lsCmd (noteSeen b m s) b m.w3 = some c := hc
  rw [noteSeen] at hc'
  simp only [checkpointIn, h, any_pair_eq_mem, decide_eq_false hseen, Bool.false_eq_true, if_false, hc', hls, noteSeen]

theorem exec_checkpointMessage {l : Fin 8} (hup : isUp s = true)
    (h : ((lnk s l.val).inbox.find? fun m => m.ty == 5 && !lsLater s l.val m) = some m) :
    exec (.checkpointMessage l) s = .next (checkpointIn l.val m (received l.val m s)) := by
  simp only [exec, execCheckpointMessage, takeMsg_of_find hup h]

section
variable {b : Nat} {c : Cmd} {ls : LockStep} (h : epochBinding s l m.w2 = some b) (hc : lsCmd s b m.w3 = some c)
  (hls : c.lockStep = some ls)
include h hc hls

theorem cmdEndIn_of_unfinished (hend : leAt m.body 0 4 = 0xFFFFFFFF) (halone : ls.alone = false) :
    cmdEndIn l m s = detFlag 1 (setLs c.key { ls with alone := true } s) := by
  simp only [cmdEndIn, h, hc, hls]
  exact if_pos ⟨hend, by simp [halone]⟩

theorem cmdEndIn_of_finished (hend : leAt m.body 0 4 ≠ 0xFFFFFFFF) : cmdEndIn l m s = s := by
  simp only [cmdEndIn, h, hc, hls]
  exact if_neg fun hboth => hend hboth.1

end

theorem exec_cmdEnd {l : Fin 8} (hup : isUp s = true)
    (h : ((lnk s l.val).inbox.find? fun m => m.ty == 6 && !lsLater s l.val m) = some m) :
    exec (.cmdEnd l) s = .next (cmdEndIn l.val m (received l.val m s)) := by
  simp only [exec, execCmdEnd, takeMsg_of_find hup h]

end

/-! ## Joins (R161, R484) -/

/-- Member `i` was heard on link `l`, with the members that it hears. -/
def heardOn (l i : Nat) (near : Quad) (p : SplitSt) : SplitSt :=
  { p with joined := (p.joined.filter fun j => !(j.1 == i && j.2.1 == l)) ++ [(i, l, near)] }

theorem mem_joined_heardOn {l i : Nat} {near : Quad} {p : SplitSt} {j : Nat × Nat × Quad} :
    j ∈ (heardOn l i near p).joined ↔ j = (i, l, near) ∨ (j ∈ p.joined ∧ ¬(j.1 = i ∧ j.2.1 = l)) := by
  have hkept : (!(j.1 == i && j.2.1 == l)) = true ↔ ¬(j.1 = i ∧ j.2.1 = l) := by
    rw [Bool.not_eq_true', ← Bool.not_eq_true, Bool.and_eq_true, beq_iff_eq, beq_iff_eq]
  rw [heardOn, List.mem_append, List.mem_singleton, List.mem_filter, or_comm, hkept]

/-- The group is complete once this device has a way to every other member. -/
def noteComplete (s : State) (p : SplitSt) : SplitSt :=
  { p with complete := p.complete || (List.range p.devices).all fun j => j == p.index || (routeTo s p j).isSome }

theorem complete_noteComplete {s : State} {p : SplitSt} : (noteComplete s p).complete = true ↔
    p.complete = true ∨ ∀ j, j < p.devices → j = p.index ∨ (routeTo s p j).isSome = true := by
  simp [noteComplete]

section
variable {l : Nat} {m : Msg} {c : Cmd} {r : Run} {s : State}

theorem joinIn_of_begun (h : c.notStarted = false ∨ c.decided ≠ none) : joinIn l m c r s = s := by
  refine if_pos ?_
  rcases h with h | h
  · exact .inl (by simp [h])
  · exact .inr (Option.isSome_iff_ne_none.2 h)

section
variable (hns : c.notStarted = true) (hdec : c.decided = none)
include hns hdec

theorem not_begun : ¬ ((!c.notStarted) = true ∨ c.decided.isSome = true) := by
  simp [hns, hdec]

theorem joinIn_of_differs (h : digOf (slice 0 32 m.body) ≠ r.split.digest) :
    joinIn l m c r s = refuse c.key 0x18 (sendJoins r.split s) := by
  simp only [joinIn, if_neg (not_begun hns hdec), if_pos h]

theorem joinIn_of_stranger (h : digOf (slice 0 32 m.body) = r.split.digest)
    (hi : m.w3.toNat % 128 = r.split.index ∨ r.split.devices ≤ m.w3.toNat % 128) : joinIn l m c r s = s := by
  simp only [joinIn, if_neg (not_begun hns hdec), if_neg (not_not_intro h), if_pos hi]

section
variable (h : digOf (slice 0 32 m.body) = r.split.digest) (hi : m.w3.toNat % 128 ≠ r.split.index)
  (hdev : m.w3.toNat % 128 < r.split.devices)
include h hi hdev

/-- The join of another member is noted, and answered where the member is new or does not hear this device. -/
theorem joinIn_of_member :
    let p := heardOn l (m.w3.toNat % 128) (BitVec.ofNat 64 (leAt m.body 32 8)) r.split
    let v := setRun c.key { r with split := noteComplete s p } s
    joinIn l m c r s = if (!r.split.joined.any fun j => j.1 == m.w3.toNat % 128) ||
      !bit (leAt m.body 32 8) r.split.index then sendJoins p v else v := by
  have hin : ¬ (m.w3.toNat % 128 = r.split.index ∨ r.split.devices ≤ m.w3.toNat % 128) := by omega
  simp only [joinIn, if_neg (not_begun hns hdec), if_neg (not_not_intro h), if_neg hin]
  rfl

theorem joinIn_of_known (hknown : ∃ j ∈ r.split.joined, j.1 = m.w3.toNat % 128)
    (hhears : bit (leAt m.body 32 8) r.split.index = true) : joinIn l m c r s =
      setRun c.key { r with split := noteComplete s (heardOn l (m.w3.toNat % 128)
        (BitVec.ofNat 64 (leAt m.body 32 8)) r.split) } s := by
  have hany : (r.split.joined.any fun j => j.1 == m.w3.toNat % 128) = true := by simpa using hknown
  refine (joinIn_of_member hns hdec h hi hdev).trans (if_neg ?_)
  simp [hany, hhears]

theorem joinIn_of_new (hnew : (∀ j ∈ r.split.joined, j.1 ≠ m.w3.toNat % 128) ∨
    bit (leAt m.body 32 8) r.split.index = false) : joinIn l m c r s =
      let p := heardOn l (m.w3.toNat % 128) (BitVec.ofNat 64 (leAt m.body 32 8)) r.split
      sendJoins p (setRun c.key { r with split := noteComplete s p } s) := by
  refine (joinIn_of_member hns hdec h hi hdev).trans (if_pos ?_)
  rcases hnew with hnew | hdeaf
  · have hany : (r.split.joined.any fun j => j.1 == m.w3.toNat % 128) = false := by simpa using hnew
    simp [hany]
  · simp [hdeaf]

end

end

end

/-! ## Messages of a split group (R162, R163, R165, R485) -/

section
variable {l : Fin 8} {m : Msg} {s : State} (hup : isUp s = true)
include hup

theorem exec_splitJoin_of_run {c : Cmd} {r : Run} (h : ((lnk s l.val).inbox.find? fun m => m.ty == 7) = some m)
    (hrun : splitCmd (received l.val m s) l.val m.w2 = some (c, r)) :
    exec (.splitJoin l) s = .next (joinIn l.val m c r (received l.val m s)) := by
  simp only [exec, execSplitJoin, takeMsg_of_first hup h, hrun]

theorem exec_splitJoin_of_none (h : ((lnk s l.val).inbox.find? fun m => m.ty == 7) = some m)
    (hrun : splitCmd (received l.val m s) l.val m.w2 = none) :
    exec (.splitJoin l) s = .next (received l.val m s) := by
  simp only [exec, execSplitJoin, takeMsg_of_first hup h, hrun]

theorem exec_splitSpins (h : ((lnk s l.val).inbox.find? fun m => m.ty == 8) = some m) :
    exec (.splitSpins l) s = .next (splitMsg l.val m (spinsIn m) (received l.val m s)) := by
  simp only [exec, execSplitSpins, takeMsg_of_first hup h]

theorem exec_splitEnergy (h : ((lnk s l.val).inbox.find? fun m => m.ty == 9) = some m) :
    exec (.splitEnergy l) s = .next (splitMsg l.val m (energyIn m) (received l.val m s)) := by
  simp only [exec, execSplitEnergy, takeMsg_of_first hup h]

theorem exec_splitFail_of_run {c : Cmd} {r : Run} (h : ((lnk s l.val).inbox.find? fun m => m.ty == 10) = some m)
    (hrun : splitCmd (received l.val m s) l.val m.w2 = some (c, r)) :
    exec (.splitFail l) s = .next (if c.decided.isSome then relayFail m r.split (received l.val m s) else
      killCmd c (atEngine (m.w3.toNat % 128) (mkDecision 7 2 0)) (relayFail m r.split (received l.val m s))) := by
  simp only [exec, execSplitFail, takeMsg_of_first hup h, hrun]

theorem exec_splitFail_of_past {p : SplitSt} (h : ((lnk s l.val).inbox.find? fun m => m.ty == 10) = some m)
    (hrun : splitCmd (received l.val m s) l.val m.w2 = none)
    (hpast : pastSplit (received l.val m s) l.val m.w2 = some p) :
    exec (.splitFail l) s = .next (relayFail m p (received l.val m s)) := by
  simp only [exec, execSplitFail, takeMsg_of_first hup h, hrun, hpast]

theorem exec_splitFail_of_none (h : ((lnk s l.val).inbox.find? fun m => m.ty == 10) = some m)
    (hrun : splitCmd (received l.val m s) l.val m.w2 = none)
    (hpast : pastSplit (received l.val m s) l.val m.w2 = none) :
    exec (.splitFail l) s = .next (received l.val m s) := by
  simp only [exec, execSplitFail, takeMsg_of_first hup h, hrun, hpast]

end

section
variable {l : Nat} {m : Msg} {take : Cmd → Run → State → State} {s : State}

theorem splitMsg_of_run {c : Cmd} {r : Run} (h : splitCmd s l m.w2 = some (c, r)) : splitMsg l m take s =
    if fld m.w3.toNat 15 8 = r.split.index then take c r s else splitRelay m r.split s := by
  simp only [splitMsg, h]

theorem splitMsg_of_past {p : SplitSt} (h : splitCmd s l m.w2 = none) (hpast : pastSplit s l m.w2 = some p) :
    splitMsg l m take s = if fld m.w3.toNat 15 8 = p.index then s else splitRelay m p s := by
  simp only [splitMsg, h, hpast]

theorem splitMsg_of_none (h : splitCmd s l m.w2 = none) (hpast : pastSplit s l m.w2 = none) :
    splitMsg l m take s = s := by
  simp only [splitMsg, h, hpast]

theorem pastSplit_received (group : Word) : pastSplit (received l m s) l group =
    if (lnk s l).sameInst then s.kw.past.find? fun p => p.group == group else none := by
  unfold pastSplit received
  rw [lnk_setLnk]
  rfl

theorem pastSplit_received_none {group : Word}
    (h : (lnk s l).sameInst = false ∨ (s.kw.past.find? fun p => p.group == group) = none) :
    pastSplit (received l m s) l group = none := by
  rw [pastSplit_received]
  rcases h with h | h <;> simp [h]

end

/-! ## Spins of a peer (R162) -/

/-- A run set as a command's work is found with it. -/
theorem findCmd_setRun {c : Cmd} {s : State} (r : Run) (h : (s.cmds.find? fun d => d.key == c.key) = some c) :
    findCmd (setRun c.key r s) c.key = some { c with work := .anneal r } := by
  have hkey (d : Cmd) : (if d.key == c.key then { d with work := .anneal r } else d).key = d.key := by
    split <;> rfl
  simp only [findCmd, setRun, updCmd, List.find?_map, Function.comp_def, hkey, h]
  simp

/-- Turn `t` of member `i` noted as whole. -/
def noteTurn (i t : Nat) (p : SplitSt) : SplitSt :=
  { p with spinsGot := (p.spinsGot.filter fun x => x.1 != i) ++ [(i, max (turnsGot p i) (t + 1))] }

theorem turnsGot_noteTurn_same (i t : Nat) (p : SplitSt) :
    turnsGot (noteTurn i t p) i = max (turnsGot p i) (t + 1) := by
  have hnone : ((p.spinsGot.filter fun x => x.1 != i).find? fun x => x.1 == i) = none :=
    List.find?_eq_none.2 fun x hx => by simpa using (List.mem_filter.1 hx).2
  rw [turnsGot, noteTurn, List.find?_append, hnone]
  simp

theorem turnsGot_noteTurn_other {i j : Nat} (t : Nat) (p : SplitSt) (h : j ≠ i) :
    turnsGot (noteTurn i t p) j = turnsGot p j := by
  have hsame : ((p.spinsGot.filter fun x => x.1 != i).find? fun x => x.1 == j) =
      p.spinsGot.find? fun x => x.1 == j := by
    rw [List.find?_filter]
    refine congrArg (List.find? · p.spinsGot) (funext fun x => ?_)
    by_cases hx : x.1 = j <;> simp [hx, h]
  have hlast : ([(i, max (turnsGot p i) (t + 1))].find? fun x => x.1 == j) = none := by
    simp [Ne.symm h]
  rw [turnsGot, noteTurn, List.find?_append, hsame, hlast, Option.or_none, turnsGot]

/-- What a message of spins leaves of the group's record: the end of a turn, or rows to be applied. -/
def spinsTaken (m : Msg) (p : SplitSt) : SplitSt :=
  if leAt m.body 12 4 = 0 then noteTurn (fld m.w3.toNat 7 0) (leAt m.body 0 4) p
  else { p with spinsLate := p.spinsLate ++
    [(leAt m.body 0 4, leAt m.body 4 4, leAt m.body 8 4, leAt m.body 12 4, m.body.drop 16)] }

theorem spinsIn_eq (m : Msg) (c : Cmd) (r : Run) (s : State) :
    spinsIn m c r s = setRun c.key { r with split := spinsTaken m r.split } s := rfl

/-! ## The obligation -/

/-- Settles O51: each row by the first message of its type, then by whether a run of the group, its record or neither is
here. -/
theorem lockStepAndSplitMessages : Obligations.LockStepAndSplitMessages := by
  unfold Obligations.LockStepAndSplitMessages
  refine ⟨fun p i s => ⟨fun l hl => ?_, fun hnone => ⟨fun j => not_active_of_directLink_none hnone,
      fun m l => routeTo_through hnone⟩⟩,
    fun c r s hw hdev => ⟨_, mem_past_dropWork hw hdev, rfl, rfl, rfl, rfl⟩, fun l m s hup => ?_⟩
  · obtain ⟨hst, hjoined⟩ := directLink_spec hl
    exact ⟨hst, hjoined, routeTo_direct hl⟩
  intro x ready first u passOn
  refine ⟨fun hnorun => ⟨fun h7 => exec_splitJoin_of_none hup h7 hnorun, fun p hsame hfind => ?_, fun hno => ?_⟩,
    fun h5 hb => ?_, fun b h5 hb => ⟨fun hseen => ?_, fun hseen => ⟨fun hc => ?_, fun c ls hc hls => ?_⟩⟩,
    fun b c ls h6 hb hc hls => ⟨fun hend halone => ?_, fun hend => ?_⟩, fun c r hrun => ?_, fun c r hc => ?_⟩
  · have hp : pastSplit u l.val m.w2 = some p := (pastSplit_received m.w2).trans ((if_pos hsame).trans hfind)
    exact ⟨fun h8 => (exec_splitSpins hup h8).trans (congrArg _ (splitMsg_of_past hnorun hp)),
      fun h9 => (exec_splitEnergy hup h9).trans (congrArg _ (splitMsg_of_past hnorun hp)),
      fun h10 => exec_splitFail_of_past hup h10 hnorun hp⟩
  · have hp : pastSplit u l.val m.w2 = none := pastSplit_received_none hno
    exact ⟨fun h8 => (exec_splitSpins hup h8).trans (congrArg _ (splitMsg_of_none hnorun hp)),
      fun h9 => (exec_splitEnergy hup h9).trans (congrArg _ (splitMsg_of_none hnorun hp)),
      fun h10 => exec_splitFail_of_none hup h10 hnorun hp⟩
  · exact (exec_checkpointMessage hup h5).trans (congrArg _ (checkpointIn_of_no_binding hb))
  · exact (exec_checkpointMessage hup h5).trans (congrArg _ (checkpointIn_of_seen hb hseen))
  · exact (exec_checkpointMessage hup h5).trans (congrArg _ (checkpointIn_of_no_command hb hseen hc))
  · exact (exec_checkpointMessage hup h5).trans (congrArg _ (checkpointIn_of_command hb hseen hc hls))
  · exact (exec_cmdEnd hup h6).trans (congrArg _ (cmdEndIn_of_unfinished hb hc hls hend halone))
  · exact (exec_cmdEnd hup h6).trans (congrArg _ (cmdEndIn_of_finished hb hc hls hend))
  · intro i forUs
    have hjoin (h7 : first 7 = some m) := exec_splitJoin_of_run hup h7 hrun
    refine ⟨fun h7 hns hdec hdig => (hjoin h7).trans (congrArg _ (joinIn_of_differs hns hdec hdig)),
      fun h7 hbegun => (hjoin h7).trans (congrArg _ (joinIn_of_begun hbegun)),
      fun h7 hns hdec hdig => ⟨fun hi => (hjoin h7).trans (congrArg _ (joinIn_of_stranger hns hdec hdig hi)),
        fun hi hdev => ⟨noteComplete u (heardOn l.val i (BitVec.ofNat 64 (leAt m.body 32 8)) r.split),
          fun j => mem_joined_heardOn, complete_noteComplete,
          fun hknown hhears => (hjoin h7).trans (congrArg _ (joinIn_of_known hns hdec hdig hi hdev hknown hhears)),
          fun hnew => (hjoin h7).trans (congrArg _ (joinIn_of_new hns hdec hdig hi hdev hnew))⟩⟩,
      fun h8 hus => ?_, fun h8 hus => ?_, fun h9 hus => ?_, fun h9 hus => ?_, fun h10 hdec => ?_, fun h10 hdec => ?_⟩
    · exact (exec_splitSpins hup h8).trans (congrArg _ ((splitMsg_of_run hrun).trans (if_pos hus)))
    · exact (exec_splitSpins hup h8).trans (congrArg _ ((splitMsg_of_run hrun).trans (if_neg hus)))
    · exact (exec_splitEnergy hup h9).trans (congrArg _ ((splitMsg_of_run hrun).trans (if_pos hus)))
    · exact (exec_splitEnergy hup h9).trans (congrArg _ ((splitMsg_of_run hrun).trans (if_neg hus)))
    · exact (exec_splitFail_of_run hup h10 hrun).trans (congrArg _ (if_neg (by simp [hdec])))
    · exact (exec_splitFail_of_run hup h10 hrun).trans (congrArg _ (if_pos (Option.isSome_iff_ne_none.2 hdec)))
  · intro t from'
    have ht : t = setRun c.key { r with split := spinsTaken m r.split } u := spinsIn_eq m c r u
    refine ⟨{ r with split := spinsTaken m r.split }, ht ▸ findCmd_setRun _ hc, rfl, fun hend => ?_, fun hrows => ?_⟩
    · rw [spinsTaken, if_pos hend]
      exact ⟨turnsGot_noteTurn_same .., fun j => turnsGot_noteTurn_other _ _, rfl⟩
    · rw [spinsTaken, if_neg hrows]
      exact ⟨rfl, rfl⟩

end Sys2Proof.Machine
end

section
/-! PROOFS. What OPEN, DISCARD, DRAIN and SAMPLE do to their group (O34): an engine's registers and groups after each
change of one of them, what the instruction's beginning finds, what its end leaves. -/

namespace Sys2Proof.Machine

/-! ## Tile registers and groups of an engine (R183, R186) -/

/-- An engine's record when the instruction at a place has begun. -/
def Engine.began (e : Engine) (ix : Nat) : Engine := { e with units := setBegun ix e.units }

section
variable (e : Engine) (g h t i : Nat) (w : TState) (y : Group)

@[simp] theorem tileAt_setTile_same : tileAt (setTile t w e) t = w := by
  unfold tileAt setTile
  split <;> rfl

@[simp] theorem grp_setTile : grp (setTile t w e) h = grp e h := by
  unfold setTile
  split <;> rfl

@[simp] theorem units_setTile : (setTile t w e).units = e.units := by
  unfold setTile
  split <;> rfl

@[simp] theorem pc_setTile : (setTile t w e).pc = e.pc := by
  unfold setTile
  split <;> rfl

@[simp] theorem areg_setTile : (setTile t w e).areg = e.areg := by
  unfold setTile
  split <;> rfl

@[simp] theorem tileAt_setGrp : tileAt (setGrp g y e) t = tileAt e t := rfl
@[simp] theorem units_setGrp : (setGrp g y e).units = e.units := rfl
@[simp] theorem pc_setGrp : (setGrp g y e).pc = e.pc := rfl
@[simp] theorem areg_setGrp : (setGrp g y e).areg = e.areg := rfl

theorem grp_setGrp_other {g h : Nat} (hne : h ≠ g) : grp (setGrp g y e) h = grp e h := by
  rw [grp_setGrp, if_neg hne]

@[simp] theorem grp_nameGroup_same : grp (nameGroup g e) g = { grp e g with named := e.names + 1 } :=
  grp_setGrp_same ..

theorem grp_nameGroup_other {g h : Nat} (hne : h ≠ g) : grp (nameGroup g e) h = grp e h :=
  grp_setGrp_other _ _ hne

@[simp] theorem tileAt_nameGroup : tileAt (nameGroup g e) t = tileAt e t := rfl
@[simp] theorem units_nameGroup : (nameGroup g e).units = e.units := rfl
@[simp] theorem pc_nameGroup : (nameGroup g e).pc = e.pc := rfl
@[simp] theorem areg_nameGroup : (nameGroup g e).areg = e.areg := rfl

@[simp] theorem grp_began : grp (e.began i) h = grp e h := rfl
@[simp] theorem tileAt_began : tileAt (e.began i) t = tileAt e t := rfl
@[simp] theorem units_began : (e.began i).units = setBegun i e.units := rfl
@[simp] theorem pc_began : (e.began i).pc = e.pc := rfl

@[simp] theorem grp_retired : grp (e.retired i) h = grp e h := rfl
@[simp] theorem tileAt_retired : tileAt (e.retired i) t = tileAt e t := rfl
@[simp] theorem units_retired : (e.retired i).units = e.units.eraseIdx i := rfl
@[simp] theorem pc_retired : (e.retired i).pc = e.pc := rfl
@[simp] theorem areg_retired : (e.retired i).areg = e.areg := rfl

/-! ## A group closes (R192, R205) -/

@[simp] theorem grp_closeAt_same (fl : Nat) :
    grp (closeAt g fl e) g = { closeGroup (grp e g) with flags := BitVec.ofNat 6 fl } :=
  grp_setGrp_same ..

theorem grp_closeAt_other (fl : Nat) {g h : Nat} (hne : h ≠ g) : grp (closeAt g fl e) h = grp e h := by
  unfold closeAt
  rw [grp_setGrp_other _ _ hne]
  split
  · exact grp_setTile ..
  · rfl

@[simp] theorem units_closeAt (fl : Nat) : (closeAt g fl e).units = e.units := by
  unfold closeAt
  rw [units_setGrp]
  split
  · exact units_setTile ..
  · rfl

@[simp] theorem pc_closeAt (fl : Nat) : (closeAt g fl e).pc = e.pc := by
  unfold closeAt
  rw [pc_setGrp]
  split
  · exact pc_setTile ..
  · rfl

theorem tileAt_closeAt_of_resident (fl : Nat) {g : Nat} (h : (grp e g).st = .resident) :
    tileAt (closeAt g fl e) (grp e g).tile = .empty := by
  simp [closeAt, h]

/-- Every register but the first is the second. -/
theorem tileAt_normal : tileAt e (if t = 0 then 0 else 1) = tileAt e t := by
  unfold tileAt
  split <;> simp

end

/-! ## The instruction that goes on -/

theorem goUnit_run {c : Cmd} {p : Prog} {n i : Nat} {s u : State} {x : Ectx} (h : goUnit c p n i s = .run x u) :
    x.e = { eng u n with areg := x.e.areg, pc := x.e.pc } := by
  unfold goUnit at h
  split at h
  · cases h
    rfl
  · cases h

/-- What a row of a unit runs, `goUnit` runs. -/
theorem goUnit_of_unitGo {op n : Nat} {b : Bool} {s u : State} {x : Ectx} (h : unitGo op n s b = .run x u) :
    ∃ c p i v, goUnit c p n i v = .run x u := by
  unfold unitGo at h
  split at h
  · cases h
  split at h
  · exact ⟨_, _, _, _, h⟩
  split at h
  · cases h
  split at h
  · rename_i y v hf
    obtain ⟨rfl, -, -⟩ := fetchIns_run hf
    rw [issueIns_eq] at h
    split at h
    · cases h
    split at h
    · cases h
    split at h
    · exact ⟨_, _, _, _, h⟩
    · cases h
  · cases h

section
variable {op n : Nat} {b : Bool} {s u : State} {x : Ectx}

theorem working_engine (h : working op n s x u b) : x.n = n := (goesOn_of_unitGo h.1).engine

theorem working_fresh (h : working op n s x u true) : x.begun = false := (goesOn_of_unitGo h.1).fresh rfl

/-- The instruction sees the groups as they are. -/
theorem working_grp (h : working op n s x u b) (g : Nat) : grp x.e g = grp (eng u n) g := by
  obtain ⟨c, p, i, v, hgo⟩ := goUnit_of_unitGo h.1
  rw [goUnit_run hgo]
  rfl

end

section
variable {n : Fin 64} {b : Bool} {s u : State} {x : Ectx}

theorem exec_openGroup (h : working 1 n.val s x u b) : exec (.openGroup n b) s = .next (openIns b x u) :=
  congrArg _ (withUnit_working _ h)

theorem exec_drain (h : working 3 n.val s x u b) : exec (.drain n b) s = .next (drainIns b x u) :=
  congrArg _ (withUnit_working _ h)

theorem exec_sample (h : working 4 n.val s x u b) : exec (.sample n b) s = .next (sampleIns b x u) :=
  congrArg _ (withUnit_working _ h)

theorem exec_discard (h : working 5 n.val s x u) : exec (.discard n) s = .next (discardIns x u) :=
  congrArg _ (withUnit_working _ h)

end

theorem isOpen_iff {y : Group} : y.isOpen = true ↔ y.st ≠ .closed := by
  simp [Group.isOpen]

theorem isOpen_of_closed {y : Group} (h : y.st = .closed) : y.isOpen = false := by
  simp [Group.isOpen, h]

section
variable {x : Ectx} {u : State}

theorem onGroup_at {t : Nat} (f : Nat → State → State) (h : seatOf (eng u x.n) x.ins.group = .at t) :
    onGroup x f u = f t u := by
  simp only [onGroup, h]

theorem onGroup_wait {e : Engine} (f : Nat → State → State) (h : seatOf (eng u x.n) x.ins.group = .wait e) :
    onGroup x f u = setEng x.n e u := by
  simp only [onGroup, h]

/-- A change of the engine, then the beginning of the instruction. -/
theorem beginIns_updEng (f : Engine → Engine) (n : Nat) (hn : x.n = n) :
    beginIns x (updEng x.n f u) = setEng n ((f (eng u n)).began x.ix) u := by
  rw [beginIns, updEng_updEng, hn]
  rfl

/-- A change of the engine, then the end of the instruction. -/
theorem retire_updEng (f : Engine → Engine) (n : Nat) (hn : x.n = n) :
    retire x (updEng x.n f u) = setEng n ((f (eng u n)).retired x.ix) u := by
  rw [retire, updEng_updEng, hn]
  rfl

/-! ## OPEN (R184, R185, R218) -/

theorem openIns_of_begun {b : Bool} (hb : x.begun = true) :
    openIns b x u = openEnds x (grp x.e x.ins.group).tile u := by
  simp only [openIns, if_pos hb]

theorem openIns_of_open {b : Bool} (hb : x.begun = false) (ho : (grp x.e x.ins.group).st ≠ .closed)
    (hd : (grp x.e x.ins.group).st ≠ .draining) : openIns b x u = progFault x 6 u := by
  simp only [openIns, hb, if_neg hd, isOpen_iff.2 ho, if_true, Bool.false_eq_true, if_false, fOpen]

theorem openIns_of_draining {b : Bool} (hb : x.begun = false) (hd : (grp x.e x.ins.group).st = .draining) :
    openIns b x u = u := by
  simp only [openIns, hb, if_pos hd, Bool.false_eq_true, if_false]

theorem openIns_of_wait {b : Bool} {e : Engine} (hb : x.begun = false) (hc : (grp x.e x.ins.group).st = .closed)
    (hseat : seatNew (eng u x.n) x.ins.group = .wait e) : openIns b x u = setEng x.n e u := by
  simp [openIns, hb, hc, isOpen_of_closed hc, hseat]

theorem openIns_of_seat {b : Bool} {t : Nat} (hb : x.begun = false) (hc : (grp x.e x.ins.group).st = .closed)
    (hseat : seatNew (eng u x.n) x.ins.group = .at t) :
    openIns b x u = if b then openBegins x t u else openEnds x t u := by
  simp [openIns, hb, hc, isOpen_of_closed hc, hseat]

/-- The group that OPEN's beginning leaves in register `t`. -/
def begunGroup (x : Ectx) (t : Nat) : Group :=
  { Group.init with st := if x.ins.par 2 1 == 0 then .resident else .starting, float := x.ins.par 0 0 == 1, tile := t }

/-- The engine as OPEN's beginning leaves it. -/
def beginOpen (x : Ectx) (t : Nat) (e : Engine) : Engine :=
  setTile t (if x.ins.par 2 1 == 0 then .accum else .start)
    (nameGroup x.ins.group (setGrp x.ins.group (begunGroup x t) e))

theorem openBegins_eq (t : Nat) {n : Nat} (hn : x.n = n) :
    openBegins x t u = setEng n ((beginOpen x t (eng u n)).began x.ix) u :=
  beginIns_updEng (beginOpen x t) n hn

/-- The group that OPEN's end leaves in register `t`, with these start values. -/
def openedGroup (x : Ectx) (t : Nat) (accs : List (Acc × Nat)) : Group :=
  { Group.init with
    st := .resident, float := x.ins.par 0 0 == 1, acc := accTab (accs.map Prod.fst), tile := t
    flags := BitVec.ofNat 6 (accs.foldl (fun a p => a ||| p.2) 0) }

/-- The engine as OPEN's end leaves it. -/
def endOpen (x : Ectx) (t : Nat) (accs : List (Acc × Nat)) (e : Engine) : Engine :=
  setTile t .held (nameGroup x.ins.group (setGrp x.ins.group (openedGroup x t accs) e))

theorem openIn_eq (t : Nat) (accs : List (Acc × Nat)) {n : Nat} (hn : x.n = n) :
    openIn x t accs u = setEng n ((endOpen x t accs (eng u n)).retired x.ix) u :=
  retire_updEng (endOpen x t accs) n hn

/-- What a closed group opened in register `t` shows at the beginning. -/
theorem beginOpen_spec (x : Ectx) (t : Nat) (e : Engine) :
    (grp (beginOpen x t e) x.ins.group).st = (if x.ins.par 2 1 = 0 then .resident else .starting) ∧
    (grp (beginOpen x t e) x.ins.group).acc = [] ∧ (grp (beginOpen x t e) x.ins.group).tile = t ∧
    ((grp (beginOpen x t e) x.ins.group).float = true ↔ x.ins.par 0 0 = 1) ∧
    tileAt (beginOpen x t e) t = (if x.ins.par 2 1 = 0 then .accum else .start) ∧
    (∀ h, h ≠ x.ins.group → grp (beginOpen x t e) h = grp e h) ∧
    (beginOpen x t e).units = e.units ∧ (beginOpen x t e).pc = e.pc := by
  have hgrp : grp (beginOpen x t e) x.ins.group = { begunGroup x t with named := e.names + 1 } := by
    rw [beginOpen, grp_setTile, grp_nameGroup_same, grp_setGrp_same]
    rfl
  have hoth (h : Nat) (hne : h ≠ x.ins.group) : grp (beginOpen x t e) h = grp e h := by
    rw [beginOpen, grp_setTile, grp_nameGroup_other _ hne, grp_setGrp_other _ _ hne]
  rw [hgrp]
  exact ⟨by simp [begunGroup], rfl, rfl, beq_iff_eq, by simp [beginOpen], hoth, by simp [beginOpen], by simp [beginOpen]⟩

/-- What a group opened in register `t` shows at the end. -/
theorem endOpen_spec (x : Ectx) (t : Nat) (accs : List (Acc × Nat)) (e : Engine) :
    (grp (endOpen x t accs e) x.ins.group).st = .resident ∧
    (grp (endOpen x t accs e) x.ins.group).acc = accTab (accs.map Prod.fst) ∧
    (grp (endOpen x t accs e) x.ins.group).k = 0 ∧ (grp (endOpen x t accs e) x.ins.group).n = 0 ∧
    (grp (endOpen x t accs e) x.ins.group).flags = BitVec.ofNat 6 (accs.foldl (fun a p => a ||| p.2) 0) ∧
    (grp (endOpen x t accs e) x.ins.group).tile = t ∧
    ((grp (endOpen x t accs e) x.ins.group).float = true ↔ x.ins.par 0 0 = 1) ∧
    (∀ h, h ≠ x.ins.group → grp (endOpen x t accs e) h = grp e h) ∧ tileAt (endOpen x t accs e) t = .held ∧
    (endOpen x t accs e).units = e.units ∧ (endOpen x t accs e).pc = e.pc ∧ (endOpen x t accs e).areg = e.areg := by
  have hgrp : grp (endOpen x t accs e) x.ins.group = { openedGroup x t accs with named := e.names + 1 } := by
    rw [endOpen, grp_setTile, grp_nameGroup_same, grp_setGrp_same]
    rfl
  have hoth (h : Nat) (hne : h ≠ x.ins.group) : grp (endOpen x t accs e) h = grp e h := by
    rw [endOpen, grp_setTile, grp_nameGroup_other _ hne, grp_setGrp_other _ _ hne]
  rw [hgrp]
  exact ⟨rfl, rfl, rfl, rfl, rfl, rfl, beq_iff_eq, hoth, tileAt_setTile_same .., by simp [endOpen], by simp [endOpen],
    by simp [endOpen]⟩

theorem openEnds_zero (t : Nat) (hz : x.ins.par 2 1 = 0) : openEnds x t u = openIn x t [] u :=
  if_pos hz

/-- A loaded start is read as an operand of its units. -/
theorem openEnds_loaded (t : Nat) (hz : x.ins.par 2 1 ≠ 0) : openEnds x t u =
    readOp x x.ins.a (if x.ins.par 2 1 = 1 then 32 else if x.ins.par 4 3 = 2 then 32768 else 16384) false
      (fun bs s => openIn x t (startAccs (x.ins.par 0 0 == 1) (x.ins.par 2 1) (x.ins.par 4 3) bs) s) u :=
  if_neg hz

/-! ## DISCARD (R183, R188, R205) -/

theorem discardIns_of_closed (h : (grp x.e x.ins.group).st = .closed) : discardIns x u = progFault x 2 u := by
  simp only [discardIns, h, fNotOpen]

theorem discardIns_of_leaving (h : (grp x.e x.ins.group).st = .parking ∨ (grp x.e x.ins.group).st = .unparking ∨
    (grp x.e x.ins.group).st = .draining) : discardIns x u = u := by
  rcases h with h | h | h <;> simp only [discardIns, h]

theorem discardIns_of_held (h : (grp x.e x.ins.group).st = .resident ∨ (grp x.e x.ins.group).st = .parked) :
    discardIns x u = retire x (updEng x.n (fun e => closeAt x.ins.group (grp e x.ins.group).flags.toNat
      (nameGroup x.ins.group e)) u) := by
  rcases h with h | h <;> simp only [discardIns, h]

/-- What a group closed where it stands leaves of the engine. -/
theorem closeAt_nameGroup_spec (g : Nat) (e : Engine) :
    let d := closeAt g (grp e g).flags.toNat (nameGroup g e)
    (grp d g).st = .closed ∧ (grp d g).acc = [] ∧ (grp d g).flags = (grp e g).flags ∧
      (∀ h, h ≠ g → grp d h = grp e h) ∧ d.pc = e.pc ∧
      ((grp e g).st = .resident → tileAt d (if (grp e g).tile = 0 then 0 else 1) = .empty) := by
  refine ⟨by simp [closeGroup], by simp [closeGroup], by simp, fun h hne => ?_, by simp, fun hst => ?_⟩
  · rw [grp_closeAt_other _ _ hne, grp_nameGroup_other _ hne]
  · have hx : (grp e g).tile = (grp (nameGroup g e) g).tile := by simp
    rw [tileAt_normal, hx, tileAt_closeAt_of_resident _ _ (by simpa using hst)]

end

/-! ## Writes of the engine's own scratchpad (R273) -/

/-- Engine `n` has the unfinished instructions and the PC that it had, and the other engines are as they were. -/
structure KeepsIssue (n : Nat) (a s : State) : Prop where
  units : (eng s n).units = (eng a n).units
  pc : (eng s n).pc = (eng a n).pc
  others : ∀ m, m ≠ n → eng s m = eng a m

theorem KeepsIssue.refl (n : Nat) (s : State) : KeepsIssue n s s := ⟨rfl, rfl, fun _ _ => rfl⟩

theorem KeepsIssue.trans {n : Nat} {a b c : State} (h : KeepsIssue n a b) (k : KeepsIssue n b c) : KeepsIssue n a c :=
  ⟨k.units.trans h.units, k.pc.trans h.pc, fun m hm => (k.others m hm).trans (h.others m hm)⟩

theorem keepsIssue_of_eng {n : Nat} {a s : State} (h : s.eng = a.eng) : KeepsIssue n a s := by
  have he : ∀ m, eng s m = eng a m := fun m => congrArg (Tab.get Engine.init · m) h
  exact ⟨congrArg _ (he n), congrArg _ (he n), fun m _ => he m⟩

theorem notePort_keepsIssue (net : Bool) (units : List Nat) (hits n : Nat) {a s : State} (h : s.eng = a.eng) :
    KeepsIssue n a (updEng n (notePort net units hits) s) := by
  refine (keepsIssue_of_eng h).trans ⟨?_, ?_, fun m hm => eng_setEng_other _ _ hm⟩ <;> rw [updEng, eng_setEng_same] <;> rfl

theorem portWrite_keepsIssue (net : Bool) (n off : Nat) (bs : List Byte) (s : State) :
    KeepsIssue n s (portWrite net n off bs s) := by
  unfold portWrite
  split
  · exact .refl n s
  dsimp only
  split
  · exact keepsIssue_of_eng rfl
  split
  · exact notePort_keepsIssue _ _ _ _ rfl
  · exact notePort_keepsIssue _ _ _ _ rfl

theorem writeSpan_keepsIssue (n : Nat) (ps : List (Nat × Nat)) (bs : List Byte) (s : State) :
    KeepsIssue n s (writeSpan n ps bs s) := by
  unfold writeSpan
  induction ps generalizing bs s with
  | nil => exact .refl n s
  | cons p ps ih => exact (portWrite_keepsIssue ..).trans (ih _ _)

/-! ## What DRAIN and SAMPLE share (R183, R222) -/

/-- The last of an instruction that drains its group: the group closes with these flags and is counted. -/
def closesGroup (x : Ectx) (fl : Nat) (v : State) : State :=
  retire x (updEng x.n (fun e => closeAt x.ins.group fl (nameGroup x.ins.group e)) (countClose fl v))

theorem closesGroup_spec {x : Ectx} {n : Nat} {u v : State} (hn : x.n = n) (hv : KeepsIssue n u v) (fl : Nat) :
    let z := closesGroup x fl v
    z.mem = v.mem ∧ z.arr = (countClose fl v).arr ∧ (grp (eng z n) x.ins.group).st = .closed ∧
      (grp (eng z n) x.ins.group).flags = BitVec.ofNat 6 fl ∧ (eng z n).pc = (eng u n).pc ∧
      (eng z n).units = (eng u n).units.eraseIdx x.ix ∧ ∀ m, m ≠ n → eng z m = eng u m := by
  have hc : KeepsIssue n u (countClose fl v) := hv.trans (keepsIssue_of_eng rfl)
  have hz : closesGroup x fl v = setEng n ((closeAt x.ins.group fl (nameGroup x.ins.group
    (eng (countClose fl v) n))).retired x.ix) (countClose fl v) := retire_updEng _ n hn
  rw [hz]
  refine ⟨rfl, rfl, by simp [closeGroup], by simp, by simp [hc.pc], by simp [hc.units], fun m hm => ?_⟩
  rw [eng_setEng_other _ _ hm, hc.others m hm]

/-- The engine as a drain's beginning leaves register `t`. -/
def beginDrain (g t : Nat) (e : Engine) : Engine :=
  setTile t .drain (setGrp g { grp (nameGroup g e) g with st := .draining } (nameGroup g e))

theorem drainBegins_eq {x : Ectx} {n : Nat} (hn : x.n = n) (t : Nat) (u : State) :
    drainBegins x t u = updEng n (fun e => { e with units := setBegun x.ix e.units })
      (setEng n (beginDrain x.ins.group t (eng u n)) u) := by
  rw [← hn]
  rfl

theorem beginDrain_spec (g t : Nat) (e : Engine) :
    (grp (beginDrain g t e) g).st = .draining ∧ (grp (beginDrain g t e) g).acc = (grp e g).acc ∧
      (grp (beginDrain g t e) g).tile = (grp e g).tile ∧ (∀ h, h ≠ g → grp (beginDrain g t e) h = grp e h) ∧
      tileAt (beginDrain g t e) t = .drain := by
  have hgrp : grp (beginDrain g t e) g = { grp e g with st := .draining, named := e.names + 1 } := by
    rw [beginDrain, grp_setTile, grp_setGrp_same, grp_nameGroup_same]
  rw [hgrp]
  refine ⟨rfl, rfl, rfl, fun h hne => ?_, tileAt_setTile_same ..⟩
  rw [beginDrain, grp_setTile, grp_setGrp_other _ _ hne, grp_nameGroup_other _ hne]

/-! ## DRAIN (R189 to R197, R219, R220) -/

/-- Is the drain's output format one of the group's path, and its row reduction one (R189, R195)? -/
def DrainLawful (x : Ectx) : Prop :=
  outAllowed (grp x.e x.ins.group).float (x.ins.par 2 0) = true ∧
    (x.ins.par 10 8 ≠ 4 ∨ (grp x.e x.ins.group).float = true)

section
variable {x : Ectx} {u : State} {b : Bool}

theorem drainIns_of_begun (hb : x.begun = true) : drainIns b x u = drainEnds x u :=
  if_pos hb

theorem drainIns_of_closed (hb : x.begun = false) (hc : (grp x.e x.ins.group).st = .closed) :
    drainIns b x u = progFault x 2 u := by
  simp [drainIns, hb, isOpen_of_closed hc, fNotOpen]

theorem drainFault_iff : (!outAllowed (grp x.e x.ins.group).float (x.ins.par 2 0) ||
    (x.ins.par 10 8 == 4 && !(grp x.e x.ins.group).float)) = true ↔ ¬ DrainLawful x := by
  simp only [DrainLawful, Bool.or_eq_true, Bool.and_eq_true, Bool.not_eq_true', beq_iff_eq, ← Bool.not_eq_true,
    Classical.not_and_iff_not_or_not, not_or, ne_eq, Classical.not_not]

theorem drainIns_of_unlawful (hb : x.begun = false) (ho : (grp x.e x.ins.group).st ≠ .closed) (hl : ¬ DrainLawful x) :
    drainIns b x u = progFault x 5 u := by
  simp only [drainIns, hb, isOpen_iff.2 ho, if_pos (drainFault_iff.2 hl), Bool.false_eq_true, if_false, Bool.not_true,
    fDrain]

theorem drainIns_of_lawful (hb : x.begun = false) (ho : (grp x.e x.ins.group).st ≠ .closed) (hl : DrainLawful x) :
    drainIns b x u = onGroup x (fun t s => if b then drainBegins x t s else drainEnds x s) u := by
  simp only [drainIns, hb, isOpen_iff.2 ho, if_neg (mt drainFault_iff.1 (not_not_intro hl)), Bool.false_eq_true, if_false,
    Bool.not_true]

theorem drainEnds_of_error {f : Nat} (h : spansW x [(x.ins.a, 4096 * outBytes (x.ins.par 2 0)), (x.ins.b, 1),
    (x.ins.c, if x.ins.par 10 8 = 0 then 0 else 128)] = .error f) : drainEnds x u = progFault x f u := by
  simp only [drainEnds, h]

/-- What a drain writes: the elements, the row record, the status word. -/
def drainWrites (n : Nat) (x : Ectx) (pa pb pc : List (Nat × Nat)) (u : State) : State :=
  let y := grp x.e x.ins.group
  let d := drained y (x.ins.par 2 0) (x.ins.par 7 3)
  writeSpan n pb (tileStatus x.ins.group y (x.ins.par 2 0) d.2) (writeSpan n pc
    (rowRecord (x.ins.par 10 8) (x.ins.par 2 0) (x.ins.par 19 11 + 1) d.1)
    (writeSpan n pa (tileBytes (outBytes (x.ins.par 2 0)) x.ins.flag d.1) u))

theorem drainWrites_keepsIssue (n : Nat) (x : Ectx) (pa pb pc : List (Nat × Nat)) (u : State) :
    KeepsIssue n u (drainWrites n x pa pb pc u) :=
  ((writeSpan_keepsIssue ..).trans (writeSpan_keepsIssue ..)).trans (writeSpan_keepsIssue ..)

theorem drainEnds_of_ok {n : Nat} (hn : x.n = n) {pa pb pc : List (Nat × Nat)}
    (h : spansW x [(x.ins.a, 4096 * outBytes (x.ins.par 2 0)), (x.ins.b, 1),
      (x.ins.c, if x.ins.par 10 8 = 0 then 0 else 128)] = .ok [pa, pb, pc]) :
    drainEnds x u = closesGroup x (drained (grp x.e x.ins.group) (x.ins.par 2 0) (x.ins.par 7 3)).2
      (drainWrites n x pa pb pc u) := by
  subst hn
  simp only [drainEnds, h]
  rfl

end

/-! ## SAMPLE (R222 to R225) -/

section
variable {x : Ectx} {u : State} {b : Bool}

theorem sampleIns_of_begun (hb : x.begun = true) : sampleIns b x u = sampleEnds x u :=
  if_pos hb

theorem sampleIns_of_closed (hb : x.begun = false) (hc : (grp x.e x.ins.group).st = .closed) :
    sampleIns b x u = progFault x 2 u := by
  simp [sampleIns, hb, isOpen_of_closed hc, fNotOpen]

theorem sampleIns_of_open (hb : x.begun = false) (ho : (grp x.e x.ins.group).st ≠ .closed) :
    sampleIns b x u = onGroup x (fun t s => if b then drainBegins x t s else sampleEnds x s) u := by
  simp [sampleIns, hb, isOpen_iff.2 ho]

theorem sampleEnds_of_error {f : Nat} (h : spansW x [(x.ins.a, 512), (x.ins.b, 512),
    (x.ins.c, 4096 * meanBytes (x.ins.par 18 16))] = .error f) : sampleEnds x u = progFault x f u := by
  simp only [sampleEnds, h]

/-- The fields of the nibs that a SAMPLE decides on. -/
def sampleFields (x : Ectx) : List (FVal × Nat) :=
  (accsOf (grp x.e x.ins.group)).map (sampleField (grp x.e x.ins.group))

/-- What a SAMPLE writes: the spins by rows and by columns, and the means. -/
def sampleWrites (n : Nat) (x : Ectx) (pa pb pc : List (Nat × Nat)) (u : State) : State :=
  let fs := sampleFields x
  let ups := fs.zipIdx.map fun p => sampleUp x.p.seed (aReg x.e (x.ins.par 3 0))
    ((aReg x.e (x.ins.par 7 4) + p.2 / 512) % 2 ^ 32) (aReg x.e (x.ins.par 15 12))
    ((aReg x.e (x.ins.par 11 8) + p.2 % 512) % 2 ^ 32) p.1.1
  writeSpan n pc (tileBytes (meanBytes (x.ins.par 18 16)) (x.ins.par 19 19 == 1) (fs.map fun p =>
      floatOut (x.ins.par 18 16) (sampleMean (aReg x.e (x.ins.par 3 0)) p.1)))
    (writeSpan n pb (spinCols ups) (writeSpan n pa (spinRows ups) u))

theorem sampleWrites_keepsIssue (n : Nat) (x : Ectx) (pa pb pc : List (Nat × Nat)) (u : State) :
    KeepsIssue n u (sampleWrites n x pa pb pc u) :=
  ((writeSpan_keepsIssue ..).trans (writeSpan_keepsIssue ..)).trans (writeSpan_keepsIssue ..)

theorem sampleEnds_of_ok {n : Nat} (hn : x.n = n) {pa pb pc : List (Nat × Nat)}
    (h : spansW x [(x.ins.a, 512), (x.ins.b, 512), (x.ins.c, 4096 * meanBytes (x.ins.par 18 16))] =
      .ok [pa, pb, pc]) :
    sampleEnds x u = closesGroup x ((sampleFields x).foldl (fun a p => a ||| p.2) (grp x.e x.ins.group).flags.toNat)
      (sampleWrites n x pa pb pc u) := by
  subst hn
  simp only [sampleEnds, h]
  rfl

end

/-! ## The rows -/

section
variable {n : Fin 64} {s u : State} {x : Ectx}

theorem seatOf_working {b : Bool} {op t : Nat} (h : working op n.val s x u b)
    (hseat : seatOf (eng u n.val) x.ins.group = .at t) : seatOf (eng u x.n) x.ins.group = .at t := by
  rw [working_engine h, hseat]

/-- An OPEN whose register is at hand, or which has begun, ends there. -/
theorem exec_openGroup_ends {t : Nat} (h : working 1 n.val s x u)
    (ht : (x.begun = true ∧ t = (grp x.e x.ins.group).tile) ∨
      ((x.begun = false ∧ (grp x.e x.ins.group).st = .closed) ∧ seatNew (eng u n.val) x.ins.group = .at t)) :
    exec (.openGroup n false) s = .next (openEnds x t u) := by
  rw [exec_openGroup h]
  rcases ht with ⟨hb, rfl⟩ | ⟨⟨hb, hc⟩, hseat⟩
  · rw [openIns_of_begun hb]
  · rw [openIns_of_seat hb hc (by rw [working_engine h, hseat])]
    rfl

/-- A drain's beginning in register `t`: the group is DRAINING, with its accumulators, and the other groups stay. -/
theorem next_drainBegins {op : Nat} (h : working op n.val s x u true) (t : Nat) : ∃ e,
    (.next (drainBegins x t u) : Host.Outcome State Fault Refusal) =
      .next (updEng n.val (fun e => { e with units := setBegun x.ix e.units }) (setEng n.val e u)) ∧
    (grp e x.ins.group).st = .draining ∧ (grp e x.ins.group).acc = (grp x.e x.ins.group).acc ∧
    (grp e x.ins.group).tile = (grp x.e x.ins.group).tile ∧ (∀ k, k ≠ x.ins.group → grp e k = grp x.e k) ∧
    tileAt e t = .drain := by
  simp only [working_grp h]
  exact ⟨_, congrArg _ (drainBegins_eq (working_engine h) t u), beginDrain_spec ..⟩

/-- A drain that has begun, or that is lawful and has its register at hand, ends. -/
theorem exec_drain_ends (h : working 3 n.val s x u) (hl : x.begun = true ∨ DrainLawful x)
    (hs : x.begun = true ∨ ∃ t, (grp x.e x.ins.group).st ≠ .closed ∧ seatOf (eng u n.val) x.ins.group = .at t) :
    exec (.drain n false) s = .next (drainEnds x u) := by
  rw [exec_drain h]
  cases hb : x.begun with
  | true => rw [drainIns_of_begun hb]
  | false =>
    obtain ⟨t, ho, hseat⟩ := hs.resolve_left (by simp [hb])
    rw [drainIns_of_lawful hb ho (hl.resolve_left (by simp [hb])), onGroup_at _ (seatOf_working h hseat)]
    rfl

theorem exec_sample_ends (h : working 4 n.val s x u)
    (hs : x.begun = true ∨ ∃ t, (grp x.e x.ins.group).st ≠ .closed ∧ seatOf (eng u n.val) x.ins.group = .at t) :
    exec (.sample n false) s = .next (sampleEnds x u) := by
  rw [exec_sample h]
  cases hb : x.begun with
  | true => rw [sampleIns_of_begun hb]
  | false =>
    obtain ⟨t, ho, hseat⟩ := hs.resolve_left (by simp [hb])
    rw [sampleIns_of_open hb ho, onGroup_at _ (seatOf_working h hseat)]
    rfl

end

/-! ## The obligation -/

/-- Settles O34: each instruction by its group's state and whether it has begun, and where its register is at hand, by
what it makes of the register and the group. -/
theorem groupInstructions : Obligations.GroupInstructions := by
  unfold Obligations.GroupInstructions
  refine ⟨fun n s u x => ?_, fun n s u x => ?_⟩
  · intro g start fmt fresh
    refine ⟨fun b h => ⟨fun hb ho hd => ?_, fun hb hd => ?_, fun e hf hw => ?_⟩, fun h => ⟨working_fresh h, fun t hf ht => ?_⟩,
      fun h t ht => ⟨fun hz => ?_, fun hz => ⟨fun hs => ?_, fun ps bs v hs hr => ?_⟩⟩,
      fun h => ⟨fun hc => ?_, fun hl => ?_, fun hh => ?_⟩⟩
    · rw [exec_openGroup h, openIns_of_open hb ho hd]
    · rw [exec_openGroup h, openIns_of_draining hb hd]
    · have hn := working_engine h
      rw [exec_openGroup h, openIns_of_wait hf.1 hf.2 (hn ▸ hw), hn]
    · have hn := working_engine h
      obtain ⟨hst, hacc, htile, hfl, hreg, hoth, hu, hpc⟩ := beginOpen_spec x t (eng u n.val)
      refine ⟨(beginOpen x t (eng u n.val)).began x.ix, ?_, hst, hacc, htile, hfl, hreg,
        fun k hk => (hoth k hk).trans (working_grp h k).symm, congrArg (setBegun x.ix) hu, hpc⟩
      rw [exec_openGroup h, openIns_of_seat hf.1 hf.2 (hn ▸ ht), if_pos rfl, openBegins_eq t hn]
    · obtain ⟨hst, hacc, hk, hcnt, hflags, htile, hfl, hoth, hreg, hu, hpc, ha⟩ := endOpen_spec x t [] (eng u n.val)
      refine ⟨(endOpen x t [] (eng u n.val)).retired x.ix, ?_, hst, hacc, hk, hcnt, hflags, htile, hfl,
        fun k hk => (hoth k hk).trans (working_grp h k).symm, hreg, congrArg (·.eraseIdx x.ix) hu, hpc, ha⟩
      rw [exec_openGroup_ends h ht, openEnds_zero t hz, openIn_eq t [] (working_engine h)]
    · rw [exec_openGroup_ends h ht, openEnds_loaded t hz, readOp_none _ _ hs]
    · intro accs
      have hn := working_engine h
      obtain ⟨hst, hacc, hk, hcnt, hflags, htile, hfl, -, hreg, hu, -⟩ := endOpen_spec x t accs (eng v n.val)
      refine ⟨(endOpen x t accs (eng v n.val)).retired x.ix, ?_, hst, hacc, hk, hcnt, htile, hflags, hfl, hreg,
        congrArg (·.eraseIdx x.ix) hu⟩
      rw [exec_openGroup_ends h ht, openEnds_loaded t hz, readOp_ok _ hs (hn ▸ hr), openIn_eq t _ hn]
    · rw [exec_discard h, discardIns_of_closed hc]
    · rw [exec_discard h, discardIns_of_leaving hl]
    · obtain ⟨hst, hacc, hflags, hoth, hpc, hreg⟩ := closeAt_nameGroup_spec g (eng u n.val)
      rw [working_grp h]
      refine ⟨_, ?_, hst, hacc, hflags, fun k hk => (hoth k hk).trans (working_grp h k).symm, hpc, hreg⟩
      rw [exec_discard h, discardIns_of_held hh, retire, working_engine h]
      rfl
  · intro g y seated begins
    refine ⟨⟨fun b h => ⟨fun hb hc => ?_, fun hb ho hl => ?_, fun e hb ho hl hw => ?_⟩,
        fun h => ⟨working_fresh h, fun t hl ho ht => ?_⟩, fun h hl hs => ⟨fun f hf => ?_, fun pa pb pc hok => ?_⟩⟩,
      fun b h => ⟨fun hb hc => ?_, fun e hb ho hw => ?_⟩,
        fun h => ⟨working_fresh h, fun t _ ho ht => ?_⟩, fun h hs => ⟨fun f hf => ?_, fun pa pb pc hok => ?_⟩⟩
    · rw [exec_drain h, drainIns_of_closed hb hc]
    · rw [exec_drain h, drainIns_of_unlawful hb ho hl]
    · have hn := working_engine h
      rw [exec_drain h, drainIns_of_lawful hb ho hl, onGroup_wait _ (hn ▸ hw), hn]
    · rw [exec_drain h, drainIns_of_lawful (working_fresh h) ho hl, onGroup_at _ (seatOf_working h ht)]
      exact next_drainBegins h t
    · rw [exec_drain_ends h hl hs, drainEnds_of_error hf]
    · have hn := working_engine h
      rw [exec_drain_ends h hl hs, drainEnds_of_ok hn hok]
      obtain ⟨hmem, harr, hclose⟩ := closesGroup_spec hn (drainWrites_keepsIssue n.val x pa pb pc u)
        (drained y (x.ins.par 2 0) (x.ins.par 7 3)).2
      exact ⟨_, rfl, hmem, harr, hclose⟩
    · rw [exec_sample h, sampleIns_of_closed hb hc]
    · have hn := working_engine h
      rw [exec_sample h, sampleIns_of_open hb ho, onGroup_wait _ (hn ▸ hw), hn]
    · rw [exec_sample h, sampleIns_of_open (working_fresh h) ho, onGroup_at _ (seatOf_working h ht)]
      exact next_drainBegins h t
    · rw [exec_sample_ends h hs, sampleEnds_of_error hf]
    · have hn := working_engine h
      rw [exec_sample_ends h hs, sampleEnds_of_ok hn hok]
      obtain ⟨hmem, -, hst, -, hrest⟩ := closesGroup_spec hn (sampleWrites_keepsIssue n.val x pa pb pc u)
        ((sampleFields x).foldl (fun a p => a ||| p.2) y.flags.toNat)
      exact ⟨_, rfl, hmem, hst, hrest⟩

end Sys2Proof.Machine
end

section
/-! PROOFS. MMA (O35): its faults, its waiting for a register, its beginning, and what its end leaves of the engine. -/

namespace Sys2Proof.Machine

/-! ## What MMA finds (R169, R183, R188) -/

section
variable {x : Ectx} {u : State} {b : Bool}

theorem mmaIns_of_begun (hb : x.begun = true) : mmaIns b x u = mmaEnds x (grp x.e x.ins.group).tile u :=
  if_pos hb

theorem mmaIns_of_closed (hb : x.begun = false) (hc : (grp x.e x.ins.group).st = .closed) :
    mmaIns b x u = progFault x 2 u := by
  simp [mmaIns, hb, isOpen_of_closed hc, fNotOpen]

theorem mmaIns_of_mispaired (hb : x.begun = false) (ho : (grp x.e x.ins.group).st ≠ .closed)
    (hp : pairPath (x.ins.par 2 0) (x.ins.par 5 3) ≠ some (grp x.e x.ins.group).float) :
    mmaIns b x u = progFault x 3 u := by
  simp [mmaIns, hb, isOpen_iff.2 ho, hp, fPairing]

theorem mmaIns_of_paired (hb : x.begun = false) (ho : (grp x.e x.ins.group).st ≠ .closed)
    (hp : pairPath (x.ins.par 2 0) (x.ins.par 5 3) = some (grp x.e x.ins.group).float) :
    mmaIns b x u = onGroup x (fun t s =>
      if b then beginIns x (updEng x.n (fun e => setTile t .accum (nameGroup x.ins.group e)) s) else mmaEnds x t s) u := by
  simp [mmaIns, hb, isOpen_iff.2 ho, hp]

end

/-! ## Its beginning and its end (R170, R218) -/

/-- Being named changes nothing else of any group. -/
theorem grp_nameGroup_unnamed (g h : Nat) (e : Engine) :
    { grp (nameGroup g e) h with named := 0 } = { grp e h with named := 0 } := by
  by_cases hk : h = g
  · rw [hk, grp_nameGroup_same]
  · rw [grp_nameGroup_other _ hk]

/-- The products of an MMA: its row vectors beside its column vectors. -/
def mmaVectors (x : Ectx) (rows cols : List Byte) : List (Nat × Nat) :=
  (vectors (rowUnits (x.ins.par 2 0)) (x.ins.c % 2 ^ 24) rows).zip
    (vectors (colUnits (x.ins.par 5 3)) (x.ins.c % 2 ^ 24) cols)

/-- The engine when the group in register `t` has taken these products. -/
def endMma (x : Ectx) (t : Nat) (vs : List (Nat × Nat)) (e : Engine) : Engine :=
  setTile t .held (nameGroup x.ins.group (setGrp x.ins.group
    (mmaGroup (grp e x.ins.group) (x.ins.par 2 0) (x.ins.par 5 3) (x.ins.par 11 6) x.ins.flag vs) e))

theorem endMma_spec (x : Ectx) (t : Nat) (vs : List (Nat × Nat)) (e : Engine) :
    (endMma x t vs e).pc = e.pc ∧ (endMma x t vs e).units = e.units ∧ tileAt (endMma x t vs e) t = .held ∧
      { grp (endMma x t vs e) x.ins.group with named := 0 } =
        { mmaGroup (grp e x.ins.group) (x.ins.par 2 0) (x.ins.par 5 3) (x.ins.par 11 6) x.ins.flag vs with named := 0 } := by
  refine ⟨by simp [endMma], by simp [endMma], by simp [endMma], ?_⟩
  rw [endMma, grp_setTile, grp_nameGroup_unnamed, grp_setGrp_same]

theorem fld_count (c : Nat) : fld c 23 0 = c % 2 ^ 24 := by
  simp [fld]

section
variable {x : Ectx} {t : Nat} {u : State}

theorem mmaEnds_of_none (h : spanOf x.e x.ins.a (x.ins.c % 2 ^ 24 * rowUnits (x.ins.par 2 0))
    (decide (4 ≤ rowUnits (x.ins.par 2 0))) = none) : mmaEnds x t u = progFault x 0x10 u := by
  rw [← fld_count] at h
  exact readOp_none _ _ h

/-- With both operands read, the steps are counted and the group takes the products. -/
theorem mmaEnds_of_ok {n : Nat} {pa pb : List (Nat × Nat)} {rows cols : List Byte} {v w : State} (hn : x.n = n)
    (ha : spanOf x.e x.ins.a (x.ins.c % 2 ^ 24 * rowUnits (x.ins.par 2 0)) (decide (4 ≤ rowUnits (x.ins.par 2 0))) = some pa)
    (hra : readSpan n pa u = (.ok rows, v))
    (hb : spanOf x.e x.ins.b (x.ins.c % 2 ^ 24 * colUnits (x.ins.par 5 3)) true = some pb)
    (hrb : readSpan n pb v = (.ok cols, w)) :
    mmaEnds x t u = setEng n ((endMma x t (mmaVectors x rows cols) (eng w n)).retired x.ix)
      (addSteps (x.ins.c % 2 ^ 24 * pairSteps (x.ins.par 2 0) (x.ins.par 5 3)) w) := by
  subst hn
  rw [mmaEnds]
  simp only [fld_count]
  rw [readOp_ok _ ha hra, readOp_ok _ hb hrb]
  exact retire_updEng (endMma x t (mmaVectors x rows cols)) x.n rfl

end

section
variable {n : Fin 64} {s u : State} {x : Ectx}

theorem exec_mma {b : Bool} (h : working 2 n.val s x u b) : exec (.mma n b) s = .next (mmaIns b x u) :=
  congrArg _ (withUnit_working _ h)

/-- An MMA that has begun, or that is paired and has its register at hand, ends there. -/
theorem exec_mma_ends {t : Nat} (h : working 2 n.val s x u)
    (ht : (x.begun = true ∧ (grp x.e x.ins.group).st ≠ .closed ∧ t = (grp x.e x.ins.group).tile) ∨
      (x.begun = false ∧ ((grp x.e x.ins.group).st ≠ .closed ∧
        pairPath (x.ins.par 2 0) (x.ins.par 5 3) = some (grp x.e x.ins.group).float) ∧
        seatOf (eng u n.val) x.ins.group = .at t)) :
    exec (.mma n false) s = .next (mmaEnds x t u) := by
  rw [exec_mma h]
  rcases ht with ⟨hb, -, rfl⟩ | ⟨hb, ⟨ho, hp⟩, hseat⟩
  · rw [mmaIns_of_begun hb]
  · rw [mmaIns_of_paired hb ho hp, onGroup_at _ (seatOf_working h hseat)]
    rfl

end

/-! ## The obligation -/

/-- Settles O35: the checks in their order, then the beginning and the end on the register at hand. -/
theorem mmaEffect : Obligations.MmaEffect := by
  unfold Obligations.MmaEffect
  intro n s u x g rf cf k lawful
  refine ⟨fun b h => ⟨fun hb hc => ?_, fun hb ho hp => ?_, fun e hb hl hw => ?_⟩,
    fun h => ⟨working_fresh h, fun t hl ht => ?_⟩,
    fun h t ht => ⟨fun hs => ?_, fun pa rows v pb cols w ha hra hb hrb => ?_⟩⟩
  · rw [exec_mma h, mmaIns_of_closed hb hc]
  · rw [exec_mma h, mmaIns_of_mispaired hb ho hp]
  · have hn := working_engine h
    rw [exec_mma h, mmaIns_of_paired hb hl.1 hl.2, onGroup_wait _ (hn ▸ hw), hn]
  · refine ⟨setTile t .accum (nameGroup g (eng u n.val)), ?_, fun k => ?_, tileAt_setTile_same ..⟩
    · rw [exec_mma h, mmaIns_of_paired (working_fresh h) hl.1 hl.2, onGroup_at _ (seatOf_working h ht), if_pos rfl,
        beginIns, working_engine h]
      rfl
    · rw [grp_setTile, grp_nameGroup_unnamed, working_grp h]
  · rw [exec_mma_ends h ht, mmaEnds_of_none hs]
  · obtain ⟨hpc, hu, hheld, hgrp⟩ := endMma_spec x t (mmaVectors x rows cols) (eng w n.val)
    refine ⟨_, (exec_mma_ends h ht).trans (congrArg _ (mmaEnds_of_ok (working_engine h) ha hra hb hrb)), rfl, rfl,
      fun m hm => eng_setEng_other _ _ hm, ?_⟩
    rw [eng_setEng_same]
    exact ⟨hpc, congrArg (·.eraseIdx x.ix) hu, hheld, hgrp⟩

end Sys2Proof.Machine
end

section
/-! PROOFS. The integer path of an MMA (O36): clamped sums, the accumulators of a group as a list, its start values, its
nibs and its SAT flag after an MMA, and what keeps the flag. -/

namespace Sys2Proof.Machine

/-! ## One clamped addition (R173) -/

theorem clampI_int32 (x : Int) : clampI int32Lo int32Hi x = max (-2147483648) (min 2147483647 x) := by
  unfold clampI int32Lo int32Hi
  split
  · omega
  split <;> omega

theorem toInt_intStep (v : Word) (p : Int) :
    (intStep v p).1.toInt = max (-2147483648) (min 2147483647 (v.toInt + p)) := by
  simp only [intStep, clampI_int32, BitVec.toInt_ofInt]
  rw [Int.bmod_eq_of_le] <;> omega

theorem intStep_flag (v : Word) (p : Int) : (intStep v p).2 =
    if -2147483648 ≤ v.toInt + p ∧ v.toInt + p ≤ 2147483647 then 0 else 1 := by
  simp only [intStep, clampI_int32, flSat]
  split <;> split <;> omega

/-! ## Sums of products -/

theorem sumInt_append (v : Word) (f : Nat) (a b : List Int) :
    sumInt v f (a ++ b) = sumInt (sumInt v f a).1 (sumInt v f a).2 b := by
  induction a generalizing v f with
  | nil => rfl
  | cons p a ih => exact ih _ _

/-- The flags that stand when a sum begins only stay. -/
theorem sumInt_flags (v : Word) (f : Nat) (ps : List Int) :
    sumInt v f ps = ((sumInt v 0 ps).1, f ||| (sumInt v 0 ps).2) := by
  induction ps generalizing v f with
  | nil => simp [sumInt]
  | cons p ps ih =>
    simp only [sumInt]
    rw [ih _ (f ||| _), ih _ (0 ||| _), Nat.zero_or, Nat.or_assoc]

/-- A sum raises SAT or no flag. -/
theorem sumInt_flag_le (v : Word) (ps : List Int) : (sumInt v 0 ps).2 = 0 ∨ (sumInt v 0 ps).2 = 1 := by
  induction ps generalizing v with
  | nil => exact .inl rfl
  | cons p ps ih =>
    simp only [sumInt]
    rw [sumInt_flags, intStep_flag]
    rcases ih (intStep v p).1 with h | h <;> split <;> simp [h]

theorem sumInt_sat_iff (v : Word) (ps : List Int) : (sumInt v 0 ps).2.testBit 0 = true ↔ (sumInt v 0 ps).2 ≠ 0 := by
  rcases sumInt_flag_le v ps with h | h <;> simp [h]

/-- While no partial sum leaves the range, the sum is exact and raises nothing. -/
theorem sumInt_exact (v : Word) (f : Nat) (ps : List Int)
    (h : ∀ m, m ≤ ps.length → -2147483648 ≤ v.toInt + (ps.take m).sum ∧ v.toInt + (ps.take m).sum ≤ 2147483647) :
    (sumInt v f ps).1.toInt = v.toInt + ps.sum ∧ (sumInt v f ps).2 = f := by
  induction ps generalizing v f with
  | nil => simp [sumInt]
  | cons p ps ih =>
    have h1 : -2147483648 ≤ v.toInt + p ∧ v.toInt + p ≤ 2147483647 := by simpa using h 1 (by simp)
    have hv : (intStep v p).1.toInt = v.toInt + p := by rw [toInt_intStep]; omega
    have hf : (intStep v p).2 = 0 := by rw [intStep_flag, if_pos h1]
    obtain ⟨hsum, hflag⟩ := ih (intStep v p).1 (f ||| (intStep v p).2) fun m hm => by
      simpa only [hv, List.take_succ_cons, List.sum_cons, Int.add_assoc] using h (m + 1) (Nat.succ_le_succ hm)
    simp only [sumInt]
    exact ⟨by rw [hsum, hv, List.sum_cons, Int.add_assoc], by rw [hflag, hf, Nat.or_zero]⟩

/-! ## The accumulators of a group as a list -/

section
variable {α : Type} (d : α)

@[simp] theorem length_fill (n i : Nat) (t : Tab α) : (Tab.fill d n i t).length = n := by
  induction n generalizing i t with
  | zero => rfl
  | succ n ih =>
    cases t with
    | nil => simp [Tab.fill, ih]
    | cons p t =>
      simp only [Tab.fill]
      split <;> simp [ih]

theorem fill_nil (n i : Nat) : Tab.fill d n i [] = List.replicate n d := by
  induction n generalizing i with
  | zero => rfl
  | succ n ih => rw [Tab.fill, ih, List.replicate_succ]

/-- A key below all keys of the table reads as the default. -/
theorem fill_of_above (n i : Nat) (t : Tab α) (h : ∀ p ∈ t, i < p.1) :
    Tab.fill d (n + 1) i t = d :: Tab.fill d n (i + 1) t := by
  cases t with
  | nil => rfl
  | cons p t => rw [Tab.fill, if_neg (Nat.ne_of_gt (h p (by simp)))]

theorem window_zero (t : Tab α) (n : Nat) : Tab.window d t 0 n = Tab.fill d n 0 t := by
  have h : t.dropWhile (fun p => decide (p.1 < 0)) = t := by cases t <;> simp
  rw [Tab.window, h]

end

/-- The entries of a list's table from key `i` on give the list back. -/
theorem fill_entries (l : List Acc) (i : Nat) : Tab.fill Acc.zero l.length i
    (((l.zipIdx i).filter fun p => p.1 != Acc.zero).map fun p => (p.2, p.1)) = l := by
  induction l generalizing i with
  | nil => rfl
  | cons a l ih =>
    rw [List.zipIdx_cons, List.length_cons]
    by_cases ha : a = Acc.zero
    · have habove : ∀ p ∈ ((l.zipIdx (i + 1)).filter fun p => p.1 != Acc.zero).map fun p => (p.2, p.1), i < p.1 := by
        intro p hp
        obtain ⟨q, hq, rfl⟩ := List.mem_map.1 hp
        exact List.le_snd_of_mem_zipIdx (List.mem_filter.1 hq).1
      rw [List.filter_cons_of_neg (by simp [ha]), fill_of_above _ _ _ _ habove, ih, ha]
    · rw [List.filter_cons_of_pos (by simp [ha]), List.map_cons, Tab.fill, if_pos rfl, ih]

theorem length_accsOf (x : Group) : (accsOf x).length = 65536 := by
  rw [accsOf, window_zero, length_fill]

theorem accsOf_accTab (x : Group) {l : List Acc} (h : l.length = 65536) : accsOf { x with acc := accTab l } = l := by
  rw [accsOf, window_zero, ← h]
  exact fill_entries l 0

theorem accsOf_empty {x : Group} (h : x.acc = []) : accsOf x = List.replicate 65536 Acc.zero := by
  rw [accsOf, window_zero, h, fill_nil]

/-! ## Start values (R184) -/

theorem leNat_append_zeros (bs : List Byte) (k : Nat) : leNat (bs ++ List.replicate k 0) = leNat bs := by
  induction bs with
  | nil =>
    induction k with
    | zero => rfl
    | succ k ih =>
      rw [List.nil_append] at ih ⊢
      exact congrArg ((0 : Byte).toNat + 256 * ·) ih
  | cons b bs ih => rw [List.cons_append, leNat, ih, leNat]

theorem leAt_eq_leNat (bs : List Byte) (o n : Nat) : leAt bs o n = leNat ((bs.drop o).take n) :=
  leNat_append_zeros ..

@[simp] theorem length_elems (size n : Nat) (bs : List Byte) : (elems size n bs).length = n := by
  induction n generalizing bs with
  | zero => rfl
  | succ n ih => rw [elems, List.length_cons, ih]

/-- The elements of a byte string are its fields. -/
theorem getElem?_elems (size : Nat) {n i : Nat} (bs : List Byte) (h : i < n) :
    (elems size n bs)[i]? = some (leAt bs (size * i) size) := by
  induction n generalizing i bs with
  | zero => omega
  | succ n ih =>
    cases i with
    | zero => simp [elems, leAt_eq_leNat]
    | succ i =>
      rw [elems, List.getElem?_cons_succ, ih _ (by omega), leAt_eq_leNat, leAt_eq_leNat, List.drop_drop, Nat.mul_succ,
        Nat.add_comm]

theorem getElem?_flatMap_replicate {α β : Type} (f : α → β) {n c : Nat} (hc : c < n) (l : List α) (r : Nat) :
    (l.flatMap fun v => List.replicate n (f v))[n * r + c]? = l[r]?.map f := by
  induction l generalizing r with
  | nil => simp
  | cons a l ih =>
    rw [List.flatMap_cons]
    cases r with
    | zero => rw [List.getElem?_append_left (by simpa using hc)]; simp [hc]
    | succ r =>
      rw [List.getElem?_append_right (by simp [Nat.mul_succ]; omega), List.length_replicate, List.getElem?_cons_succ, ← ih]
      congr 1
      rw [Nat.mul_succ]
      omega

theorem startAcc_int32 (x : Nat) : (startAcc false 0 x).1.v = BitVec.ofNat 32 x := by
  simp [startAcc]

theorem startAccs_rows (bs : List Byte) :
    startAccs false 1 0 bs = (elems 4 128 bs).flatMap fun v => List.replicate 512 (startAcc false 0 v) :=
  rfl

theorem startAccs_tile (bs : List Byte) : startAccs false 2 0 bs = (elems 4 65536 bs).map (startAcc false 0) :=
  rfl

theorem startAccs_spec (bs : List Byte) :
    (startAccs false 1 0 bs).length = 65536 ∧ (startAccs false 2 0 bs).length = 65536 ∧
    ∀ r c, r < 128 → c < 512 →
      ((startAccs false 1 0 bs).getD (512 * r + c) (Acc.zero, 0)).1.v = BitVec.ofNat 32 (leAt bs (4 * r) 4) ∧
      ((startAccs false 2 0 bs).getD (512 * r + c) (Acc.zero, 0)).1.v = BitVec.ofNat 32 (leAt bs (4 * (512 * r + c)) 4) := by
  rw [startAccs_rows, startAccs_tile]
  refine ⟨by simp only [List.length_flatMap, List.length_replicate, List.map_const', List.sum_replicate_nat, length_elems],
    by rw [List.length_map, length_elems], fun r c hr hc => ⟨?_, ?_⟩⟩
  · rw [List.getD_eq_getElem?_getD, getElem?_flatMap_replicate _ hc, getElem?_elems _ _ hr]
    exact startAcc_int32 _
  · rw [List.getD_eq_getElem?_getD, List.getElem?_map, getElem?_elems _ _ (by omega)]
    exact startAcc_int32 _

/-! ## The nibs of a group after an MMA (R170, R174) -/

section
variable (x : Group) (rf cf sigma : Nat) (neg : Bool) (vs : List (Nat × Nat))

/-- The accumulators after an MMA, each with the flags that its sum raised. -/
def mmaAccs : List (Acc × Nat) :=
  (accsOf x).zipIdx.map fun p => nibAcc x.float x.n rf cf sigma neg vs (p.2 / 512) (p.2 % 512) p.1

theorem length_mmaAccs : (mmaAccs x rf cf sigma neg vs).length = 65536 := by
  rw [mmaAccs, List.length_map, List.length_zipIdx, length_accsOf]

/-- The nib of row `r` and column `c` accumulates its own products. -/
theorem getElem?_mmaAccs {r c : Nat} (hr : r < 128) (hc : c < 512) : (mmaAccs x rf cf sigma neg vs)[512 * r + c]? =
    some (nibAcc x.float x.n rf cf sigma neg vs r c ((accsOf x).getD (512 * r + c) Acc.zero)) := by
  have hlt : 512 * r + c < (accsOf x).length := by rw [length_accsOf]; omega
  have hdiv : (512 * r + c) / 512 = r := by omega
  have hmod : (512 * r + c) % 512 = c := by omega
  simp [mmaAccs, List.getElem?_zipIdx, List.getElem?_eq_getElem hlt, List.getD_eq_getElem?_getD, hdiv, hmod]

theorem accsOf_mmaGroup : accsOf (mmaGroup x rf cf sigma neg vs) = (mmaAccs x rf cf sigma neg vs).map Prod.fst :=
  accsOf_accTab (l := (mmaAccs x rf cf sigma neg vs).map Prod.fst) (mmaGroup x rf cf sigma neg vs)
    (by rw [List.length_map, length_mmaAccs])

/-- A nib of an integer group: its sum, and the flag that a clamp raised. -/
theorem nibAcc_int (n : Nat) (r c : Nat) (a : Acc) : nibAcc false n rf cf sigma neg vs r c a =
    ({ a with v := (sumInt a.v 0 (nibInts rf cf sigma neg vs r c)).1 },
      (sumInt a.v 0 (nibInts rf cf sigma neg vs r c)).2) := rfl

end

/-! ## SAT (R173, R198) -/

theorem testBit_foldl_or {α : Type} (f : α → Nat) (l : List α) (a i : Nat) :
    (l.foldl (fun a p => a ||| f p) a).testBit i = (a.testBit i || l.any fun p => (f p).testBit i) := by
  induction l generalizing a with
  | nil => simp
  | cons p l ih => rw [List.foldl_cons, ih, Nat.testBit_or, List.any_cons, Bool.or_assoc]

theorem getLsbD_foldl_or {α : Type} {w : Nat} (f : α → BitVec w) (l : List α) (a : BitVec w) (i : Nat) :
    (l.foldl (fun a p => a ||| f p) a).getLsbD i = (a.getLsbD i || l.any fun p => (f p).getLsbD i) := by
  induction l generalizing a with
  | nil => simp
  | cons p l ih => rw [List.foldl_cons, ih, BitVec.getLsbD_or, List.any_cons, Bool.or_assoc]

/-- An MMA on an integer group sets SAT if one of its sums raised it, and clears it never. -/
theorem sat_mmaGroup {x : Group} (rf cf sigma : Nat) (neg : Bool) (vs : List (Nat × Nat)) (hx : x.float = false) :
    (mmaGroup x rf cf sigma neg vs).flags.getLsbD 0 =
      (x.flags.getLsbD 0 || (mmaAccs x rf cf sigma neg vs).any fun p => p.2.testBit 0) := by
  have hi8 (b : Bool) : (if b then flI8 else 0).testBit 0 = false := by cases b <;> rfl
  have hflags : (mmaGroup x rf cf sigma neg vs).flags = x.flags ||| BitVec.ofNat 6
      ((mmaAccs x rf cf sigma neg vs).foldl (fun a p => a ||| p.2) 0 |||
        (if holdsClamp rf 128 (vs.map Prod.fst) || holdsClamp cf 512 (vs.map Prod.snd) then flI8 else 0) |||
        (if x.float then longFlag (x.k + vs.length) else 0)) := rfl
  rw [hflags, BitVec.getLsbD_or, BitVec.getLsbD_ofNat, Nat.testBit_or, Nat.testBit_or, testBit_foldl_or, hi8, hx]
  simp

/-- A nib that raised SAT is the nib of a row and a column. -/
theorem any_mmaAccs_sat {x : Group} (rf cf sigma : Nat) (neg : Bool) (vs : List (Nat × Nat)) (hx : x.float = false) :
    ((mmaAccs x rf cf sigma neg vs).any fun p => p.2.testBit 0) = true ↔ ∃ r c, r < 128 ∧ c < 512 ∧
      (sumInt ((accsOf x).getD (512 * r + c) Acc.zero).v 0 (nibInts rf cf sigma neg vs r c)).2 ≠ 0 := by
  rw [List.any_eq_true]
  constructor
  · rintro ⟨p, hp, hsat⟩
    obtain ⟨i, hi⟩ := List.mem_iff_getElem?.1 hp
    have hlt : i < 65536 := length_mmaAccs x rf cf sigma neg vs ▸ (List.getElem?_eq_some_iff.1 hi).1
    have hr : i / 512 < 128 := by omega
    have hc : i % 512 < 512 := by omega
    rw [← Nat.div_add_mod i 512, getElem?_mmaAccs _ _ _ _ _ _ hr hc, hx, nibAcc_int] at hi
    obtain rfl := Option.some.inj hi
    exact ⟨_, _, hr, hc, (sumInt_sat_iff _ _).1 hsat⟩
  · rintro ⟨r, c, hr, hc, hne⟩
    refine ⟨_, List.mem_of_getElem? (getElem?_mmaAccs x rf cf sigma neg vs hr hc), ?_⟩
    rw [hx, nibAcc_int]
    exact (sumInt_sat_iff _ _).2 hne

theorem sumsKept_nameGroup (g : Nat) (e : Engine) : SumsKept e (nameGroup g e) :=
  SumsKept.setGrp (e := { e with names := e.names + 1 }) ⟨rfl, rfl, rfl, fun _ => rfl⟩ rfl

theorem sumsKept_parkEnds (g : Nat) (e : Engine) : SumsKept e (parkEnds g e) :=
  ((SumsKept.refl e).setGrp (by rfl)).setTile _ _

theorem sumsKept_unparkEnds (g : Nat) (e : Engine) : SumsKept e (unparkEnds g e) :=
  ((SumsKept.refl e).setGrp (by rfl)).setTile _ _

/-- A combined group has the flags of each of its parts. -/
theorem getLsbD_combineGroups {gs : List Group} {x : Group} (arrival : Bool) {i : Nat} (hx : x ∈ gs)
    (hi : x.flags.getLsbD i = true) : (combineGroups gs arrival).flags.getLsbD i = true := by
  cases gs with
  | nil => cases hx
  | cons y gs =>
    have hparts : (((y :: gs).foldl (fun a z => a ||| z.flags) 0) : BitVec 6).getLsbD i = true := by
      rw [getLsbD_foldl_or, Bool.or_eq_true, List.any_eq_true]
      exact .inr ⟨x, hx, hi⟩
    unfold combineGroups
    dsimp only
    rw [BitVec.getLsbD_or, hparts, Bool.true_or]

/-! ## The obligation -/

/-- Settles O36: sums by induction over their products, a group's nibs through the list of its accumulators, SAT through
the flags that the nibs raised. -/
theorem integerMma : Obligations.IntegerMma := by
  unfold Obligations.IntegerMma
  refine ⟨⟨fun v p => ⟨toInt_intStep v p, ?_, ?_⟩, sumInt_append, fun v f ps => ⟨fun hf => ?_, sumInt_exact v f ps⟩⟩,
    ⟨fun x l => accsOf_accTab x, fun x hx i hi => ?_, startAccs_spec⟩, fun x rf cf sigma neg vs hx => ?_,
    fun x rf cf sigma neg vs hx => ?_, fun e g h e' he' => ?_, fun gs b x => getLsbD_combineGroups b⟩
  · rw [intStep_flag]
    split <;> simp [*]
  · rw [intStep_flag]
    split <;> simp
  · rw [sumInt_flags, Nat.testBit_or, hf, Bool.true_or]
  · rw [accsOf_empty hx, List.getD_eq_getElem?_getD, List.getElem?_replicate, if_pos hi]
    rfl
  · refine ⟨rfl, rfl, rfl, fun r c hr hc => ?_⟩
    rw [accsOf_mmaGroup, List.getD_eq_getElem?_getD, List.getElem?_map, getElem?_mmaAccs _ _ _ _ _ _ hr hc, hx, nibAcc_int]
    rfl
  · rw [sat_mmaGroup rf cf sigma neg vs hx, Bool.or_eq_true, any_mmaAccs_sat rf cf sigma neg vs hx]
  · have hkept : SumsKept e e' := by
      simp only [List.mem_cons, List.not_mem_nil, or_false] at he'
      rcases he' with rfl | rfl | rfl
      · exact sumsKept_nameGroup g e
      · exact sumsKept_parkEnds g e
      · exact sumsKept_unparkEnds g e
    obtain ⟨hacc, hflags, -⟩ : _ ∧ _ ∧ _ := by simpa only [Group.sums, Prod.mk.injEq] using hkept.sums h
    exact ⟨hacc, hflags⟩

end Sys2Proof.Machine
end

section
/-! PROOFS. The register file and the scalar instructions (O31): what a register reads after a write, and what each
instruction makes of its engine. -/

namespace Sys2Proof.Machine

/-! ## The register file (R215) -/

section
variable (e : Engine) (i j v : Nat)

@[simp] theorem aReg_zero : aReg e 0 = 0 := rfl

@[simp] theorem setA_zero : setA 0 v e = e := rfl

theorem setA_of_ne {i : Nat} (hi : i ≠ 0) : setA i v e = { e with areg := Tab.put 0 e.areg i (BitVec.ofNat 32 v) } :=
  if_neg hi

theorem setA_eq : setA i v e = { e with areg := (setA i v e).areg } := by
  unfold setA
  split <;> rfl

theorem wf_areg_setA (h : Tab.wf 0 e.areg = true) : Tab.wf 0 (setA i v e).areg = true := by
  unfold setA
  split
  · exact h
  · exact Tab.wf_put h i _

theorem aReg_setA_same {i : Nat} (hi : i ≠ 0) : aReg (setA i v e) i = v % 2 ^ 32 := by
  rw [setA_of_ne e v hi, aReg, if_neg hi, Tab.get_put_same, BitVec.toNat_ofNat]

theorem aReg_setA_other {i j : Nat} (hij : j ≠ i) : aReg (setA i v e) j = aReg e j := by
  unfold aReg setA
  split
  · rfl
  split
  · rfl
  · rw [Tab.get_put_other _ _ hij]

end

/-! ## What a control instruction does to its engine -/

section
variable {op n : Nat} {s u : State} {x : Ectx}

/-- The row of a control instruction runs its meaning on the state after the fetch. -/
theorem exec_control {c : Instr} {f : Ectx → State → State} (hc : exec c s = .next (withIns op n f s))
    (h : issuing op n s x u) : exec c s = .next (f x u) := by
  rw [hc, withIns_issuing f h]

/-- The fetch reads the scratchpad. -/
theorem issuing_touch (h : issuing op n s x u) : Touch s u := by
  obtain ⟨c, p, bs, -, -, hread, -⟩ := h
  exact Touch.pair hread (spadRead_touch ..)

theorem writeA_issuing (h : issuing op n s x u) (i v : Nat) :
    engineBecomes n (setA i v x.e).onward u (writeA x.n i v u) := by
  obtain ⟨-, -, hn, he, -⟩ := issuing_fetch h
  rw [hn, he]
  exact engineBecomes_writeA ..

theorem advance_issuing (h : issuing op n s x u) : engineBecomes n x.e.onward u (advance x.n u) := by
  obtain ⟨-, -, hn, he, -⟩ := issuing_fetch h
  rw [hn, he]
  exact engineBecomes_updEng ..

theorem jumpTo_issuing (h : issuing op n s x u) (t : Nat) :
    engineBecomes n { x.e with pc := t, pst := .run } u (jumpTo x.n t u) := by
  obtain ⟨-, -, hn, he, -⟩ := issuing_fetch h
  rw [hn, he]
  exact engineBecomes_updEng ..

/-- The time does not pass while an instruction is fetched. -/
theorem timeOf_issuing (h : issuing op n s x u) : (timeOf u).toNat = (s.now - s.boot.t0) % 2 ^ 64 := by
  rw [timeOf, (issuing_touch h).now, (issuing_touch h).boot, BitVec.toNat_ofNat]

/-- BR goes to its target where the condition holds, else on. -/
theorem brIns_issuing (h : issuing op n s x u) :
    engineBecomes n (if brTaken (x.ins.par 6 4) (aReg x.e (x.ins.par 3 0)) then { x.e with pc := x.ins.a, pst := .run }
      else x.e.onward) u (brIns x u) := by
  unfold brIns
  split
  · exact jumpTo_issuing h _
  · exact advance_issuing h

/-- An engine that changes and goes on at an instruction: nothing else changes. -/
theorem jumpTo_updEng_issuing (h : issuing op n s x u) (f : Engine → Engine) (t : Nat) :
    engineBecomes n { f x.e with pc := t, pst := .run } u (jumpTo x.n t (updEng x.n f u)) := by
  obtain ⟨-, -, hn, he, -⟩ := issuing_fetch h
  rw [hn, he, jumpTo, updEng_updEng]
  exact engineBecomes_setEng ..

/-- LOOP on the value that its register reads once written. -/
theorem loopIns_eq (x : Ectx) (u : State) :
    let f := setA (x.ins.par 3 0) (aReg x.e (x.ins.par 3 0) + (2 ^ 32 - 1))
    loopIns x u = if aReg (f x.e) (x.ins.par 3 0) = 0 then advance x.n (updEng x.n f u)
      else jumpTo x.n x.ins.a (updEng x.n f u) :=
  ite_not ..

/-- LOOP writes its register, then goes to its target unless the register reads 0. -/
theorem loopIns_issuing (h : issuing op n s x u) :
    let e := setA (x.ins.par 3 0) (aReg x.e (x.ins.par 3 0) + (2 ^ 32 - 1)) x.e
    engineBecomes n (if aReg e (x.ins.par 3 0) = 0 then e.onward else { e with pc := x.ins.a, pst := .run }) u
      (loopIns x u) := by
  intro e
  rw [loopIns_eq]
  by_cases hz : aReg e (x.ins.par 3 0) = 0
  · rw [if_pos hz, if_pos hz]
    exact writeA_issuing h _ _
  · rw [if_neg hz, if_neg hz]
    exact jumpTo_updEng_issuing h _ _

/-- CLAIM writes its register, and the program of its command counts the claim. -/
theorem claimIns_issuing (h : issuing op n s x u) :
    let t := claimIns x u
    eng t n = (setA (x.ins.par 3 0) (claimOf x.p x.i).1 x.e).onward ∧ (∀ m, m ≠ n → eng t m = eng u m) ∧
      t.mem = u.mem ∧ t.cmds = u.cmds.map fun d =>
        if d.key = x.c.key then { d with work := .program (claimOf x.p x.i).2 } else d := by
  obtain ⟨-, -, hn, he, -⟩ := issuing_fetch h
  have hclaim : claimIns x u =
      writeA n (x.ins.par 3 0) (claimOf x.p x.i).1 (setProg x.c.key (claimOf x.p x.i).2 u) := by
    rw [← hn]
    rfl
  intro t
  obtain ⟨hown, hoth, ht⟩ := engineBecomes_writeA n (x.ins.par 3 0) (claimOf x.p x.i).1
    (setProg x.c.key (claimOf x.p x.i).2 u)
  rw [show t = _ from hclaim, he]
  refine ⟨hown, hoth, rfl, List.map_congr_left fun d _ => ?_⟩
  simp only [beq_iff_eq]

end

/-! ## The obligation -/

/-- Settles O31: the register file by the laws of its table, each instruction by what it does to the engine that issues
it. -/
theorem scalarState : Obligations.ScalarState := by
  unfold Obligations.ScalarState
  refine ⟨fun e i j v => ⟨aReg_zero e, setA_zero e v, wf_areg_setA e i v, aReg_setA_same e v, aReg_setA_other e v,
    setA_eq e i v⟩, fun n s u x => ⟨fun h => ?_, fun h => ?_, fun h => ?_, fun h => ?_, fun h => ?_, fun h => ?_⟩⟩
  · exact ⟨_, exec_control (f := setIns) rfl h, writeA_issuing h _ _⟩
  · exact ⟨_, exec_control (f := addIns) rfl h, writeA_issuing h _ _⟩
  · rw [← timeOf_issuing h]
    exact ⟨_, exec_control (f := timeIns) rfl h, writeA_issuing h _ _⟩
  · exact ⟨_, exec_control (f := brIns) rfl h, brIns_issuing h⟩
  · exact ⟨_, exec_control (f := loopIns) rfl h, loopIns_issuing h⟩
  · exact ⟨_, exec_control (f := claimIns) rfl h, claimIns_issuing h⟩

end Sys2Proof.Machine
end

section
/-! PROOFS. The indices of CLAIM and the conditions of BR (O32). -/

namespace Sys2Proof.Machine

/-! ## CLAIM (R234) -/

theorem claimOf_ordered {p : Prog} (h : p.ordered = true) (i : Nat) : claimOf p i =
    (if i + Tab.get 0 p.claimCnt i * p.engs.length < imgItems p.image then i + Tab.get 0 p.claimCnt i * p.engs.length
      else 0xFFFFFFFF,
      { p with claimCnt := Tab.put 0 p.claimCnt i (Tab.get 0 p.claimCnt i + 1) }) :=
  if_pos h

theorem claimOf_free {p : Prog} (h : p.ordered = false) (i : Nat) : claimOf p i =
    (if p.claimNext < imgItems p.image then p.claimNext else 0xFFFFFFFF,
      { p with claimNext := min (imgItems p.image) (p.claimNext + 1) }) :=
  if_neg (by simp [h])

/-! ## BR (R216) -/

/-- A register as a signed word. -/
theorem sgn_toNat (w : Word) : sgn 32 w.toNat = w.toInt := by
  rw [sgn, Nat.mod_eq_of_lt w.isLt, BitVec.toInt_eq_toNat_cond]
  split <;> split <;> omega

/-! ## The obligation -/

/-- Settles O32: CLAIM by the order of the claims, BR condition by condition. -/
theorem claimsAndBranches : Obligations.ClaimsAndBranches := by
  unfold Obligations.ClaimsAndBranches
  refine ⟨fun p i => ⟨fun h => ?_, fun h => ?_⟩, fun w => ⟨rfl, ?_, ?_, ?_, ?_⟩⟩
  · rw [claimOf_ordered h]
    dsimp only
    exact ⟨rfl, Tab.get_put_same .., rfl, fun j hj => Tab.get_put_other _ _ hj⟩
  · rw [claimOf_free h]
    exact ⟨rfl, fun hlt => Nat.min_eq_right hlt, rfl⟩
  · simp [brTaken, ← BitVec.toNat_inj]
  · simp [brTaken, ← BitVec.toNat_inj]
  · simp [brTaken, sgn_toNat]
  · simp [brTaken, sgn_toNat]

end Sys2Proof.Machine
end

section
/-! PROOFS. The instructions on which engines meet (O37): RED, BAR, END, and WAITANY. -/

namespace Sys2Proof.Machine

/-! ## RED (R198, R226) -/

/-- What RED notes of the engine that waits at its entry. -/
def redNote (x : Ectx) : RedWait := ⟨x.i, x.ins.par 4 0, x.ins.group, x.ins.flag⟩

/-- The state when RED has noted its engine, named the group and begun. -/
def redNoted (x : Ectx) (u : State) : State :=
  beginIns x (updEng x.n (nameGroup x.ins.group)
    (updProg x.c.key (fun p => { p with waitRed := p.waitRed ++ [redNote x] }) u))

/-- Is the engine a part of the RED's entry, and does no engine wait across (R226)? -/
def RedLawful (x : Ectx) : Prop :=
  x.i ∈ x.p.reduces.getD (x.ins.par 4 0) [] ∧ redCross x.p x.i (x.ins.par 4 0) = false

section
variable {x : Ectx} {u : State}

theorem redIns_of_closed (h : (grp x.e x.ins.group).st = .closed) : redIns x u = progFault x 2 u := by
  simp [redIns, isOpen_of_closed h, fNotOpen]

theorem redIns_of_unlawful (ho : (grp x.e x.ins.group).st ≠ .closed)
    (h : x.i ∉ x.p.reduces.getD (x.ins.par 4 0) [] ∨ redCross x.p x.i (x.ins.par 4 0) = true) :
    redIns x u = progFault x 0x14 u := by
  have hfault : (!decide (x.i ∈ x.p.reduces.getD (x.ins.par 4 0) []) || redCross x.p x.i (x.ins.par 4 0)) = true := by
    simpa only [Bool.or_eq_true, Bool.not_eq_true', decide_eq_false_iff_not] using h
  simp only [redIns, isOpen_iff.2 ho, Bool.not_true, Bool.false_eq_true, if_false, if_pos hfault, fReduce]

/-- A lawful RED waits for its group's register, then notes its engine; with the last part the groups are combined. -/
theorem redIns_of_lawful (ho : (grp x.e x.ins.group).st ≠ .closed) (h : RedLawful x) :
    redIns x u = onGroup x (fun _ s =>
      if (redWaits x.p (x.ins.par 4 0)).length + 1 = (x.p.reduces.getD (x.ins.par 4 0) []).length then
        redEnds x (x.p.reduces.getD (x.ins.par 4 0) []) (redWaits x.p (x.ins.par 4 0) ++ [redNote x]) (redNoted x s)
      else redNoted x s) u := by
  have hok : ¬ (!decide (x.i ∈ x.p.reduces.getD (x.ins.par 4 0) []) || redCross x.p x.i (x.ins.par 4 0)) = true := by
    simp only [h.1, h.2, decide_true, Bool.not_true, Bool.or_false, Bool.false_eq_true, not_false_eq_true]
  simp only [redIns, isOpen_iff.2 ho, Bool.not_true, Bool.false_eq_true, if_false, if_neg hok, List.length_append,
    List.length_singleton]
  rfl

end

theorem exec_red {n : Fin 64} {s u : State} {x : Ectx} (h : working 8 n.val s x u) :
    exec (.red n) s = .next (redIns x u) :=
  congrArg _ (withUnit_working _ h)

/-! ## BAR (R209, R241, R369) -/

/-- The program when an engine has issued the barrier. -/
def barProg (x : Ectx) : Prog := { x.p with waitBar := x.p.waitBar ++ [x.i] }

/-- An engine's record when a barrier lets it go on. -/
def Engine.pastBar (e : Engine) : Engine := { e with pc := e.pc + 1, pst := .run, dmaOut := [] }

section
variable (f : Engine → Engine) {l : List Nat} {j : Nat}

theorem eng_foldl_updEng_other (hj : j ∉ l) (s : State) : eng (l.foldl (fun st n => updEng n f st) s) j = eng s j := by
  induction l generalizing s with
  | nil => rfl
  | cons n l ih =>
    obtain ⟨hne, hj⟩ := not_or.1 (mt List.mem_cons.2 hj)
    exact (ih hj _).trans (eng_setEng_other _ _ hne)

/-- One change of each of several engines is seen once at each of them. -/
theorem eng_foldl_updEng (hl : l.Nodup) (hj : j ∈ l) (s : State) :
    eng (l.foldl (fun st n => updEng n f st) s) j = f (eng s j) := by
  induction l generalizing s with
  | nil => cases hj
  | cons n l ih =>
    obtain ⟨hn, hl⟩ := List.nodup_cons.1 hl
    rcases List.mem_cons.1 hj with rfl | hj
    · exact (eng_foldl_updEng_other f hn _).trans (eng_setEng_same ..)
    · exact (ih hl hj _).trans (congrArg f (eng_setEng_other _ _ (ne_of_mem_of_not_mem hj hn)))

end

section
variable {x : Ectx} {u : State}

theorem barIns_of_busy (h : x.e.units ≠ []) : barIns x u = u := if_pos h

theorem barIns_of_first (hu : x.e.units = []) (h : (barProg x).waitBar.length ≠ (barProg x).engs.length) :
    barIns x u = setProg x.c.key (barProg x) (updEng x.n (fun e => { e with pst := .waitBar }) u) :=
  (if_neg (not_not_intro hu)).trans (if_neg h)

theorem barIns_of_last (hu : x.e.units = []) (h : (barProg x).waitBar.length = (barProg x).engs.length) :
    barIns x u = barEnds x (barProg x) (updEng x.n (fun e => { e with pst := .waitBar }) u) :=
  (if_neg (not_not_intro hu)).trans (if_pos h)

/-- Without a checkpoint the engines only go on. -/
theorem barEnds_undigested {p : Prog} (h : p.digest = false) : barEnds x p u =
    p.engs.foldl (fun st n => updEng n Engine.pastBar st)
      (setProg x.c.key { p with waitBar := [], bars := p.bars + 1 } u) := by
  simp only [barEnds, h, advance, updEng_updEng]
  rfl

theorem eng_barEnds_undigested {p : Prog} (h : p.digest = false) (hp : p.engs.Nodup) {j : Nat} (hj : j ∈ p.engs) :
    eng (barEnds x p u) j = (eng u j).pastBar := by
  rw [barEnds_undigested h, eng_foldl_updEng _ hp hj]
  rfl

/-- A program set anew is the work of every command of its key. -/
theorem work_of_mem_setProg {k : Key} {p : Prog} {s : State} {d : Cmd} (hd : d ∈ (setProg k p s).cmds) (hk : d.key = k) :
    d.work = .program p := by
  obtain ⟨c, -, rfl⟩ := mem_updCmd_of_key hd hk
  rfl

/-! ## END (R241, R339) -/

/-- The program when an engine has ended. -/
def endProg (x : Ectx) : Prog := { x.p with ended := x.p.ended ++ [x.i] }

/-- The state when an engine's END has been noted. -/
def endNoted (x : Ectx) (u : State) : State :=
  setProg x.c.key (endProg x) (icuSend (32 + x.n) (updEng x.n (fun e => { e with pst := .ended, dmaOut := [] }) u))

theorem endIns_of_busy (h : x.e.units ≠ []) : endIns x u = u := if_pos h

theorem anyOpen_iff {e : Engine} : ((List.range 8).any fun g => (grp e g).isOpen) = true ↔
    ∃ g, g < 8 ∧ (grp e g).st ≠ .closed := by
  simp only [List.any_eq_true, List.mem_range, isOpen_iff]

theorem endIns_of_open (hu : x.e.units = []) (h : ∃ g, g < 8 ∧ (grp x.e g).st ≠ .closed) :
    endIns x u = progFault x 0x15 u :=
  (if_neg (not_not_intro hu)).trans (if_pos (anyOpen_iff.2 h))

theorem endIns_of_closed (hu : x.e.units = []) (h : ∀ g, g < 8 → (grp x.e g).st = .closed) : endIns x u =
    if (endProg x).ended.length = (endProg x).engs.length then commitProgram x.c (endProg x) (endNoted x u)
    else endNoted x u := by
  have hnone : ¬ ((List.range 8).any fun g => (grp x.e g).isOpen) = true :=
    mt anyOpen_iff.1 fun ⟨g, hg, ho⟩ => ho (h g hg)
  exact (if_neg (not_not_intro hu)).trans (if_neg hnone)

/-! ## WAITANY (R234) -/

theorem waitanyIns_of_pending (h : dmaPending x.e = true) : waitanyIns none x u = u := if_pos h

theorem waitanyIns_of_none_left (h : dmaPending x.e = false) : waitanyIns none x u =
    writeA x.n (x.ins.par 3 0) 0xFFFFFFFF (updEng x.n (fun e => { e with dmaOut := [] }) u) :=
  if_neg (by simp [h])

theorem waitanyIns_of_mem {i : BitVec 12} (h : i ∈ x.e.dmaOut) : waitanyIns (some i) x u =
    writeA x.n (x.ins.par 3 0) i.toNat (updEng x.n (fun e => { e with dmaOut := dmaAfter i e.dmaOut }) u) :=
  if_pos h

theorem waitanyIns_of_not_mem {i : BitVec 12} (h : i ∉ x.e.dmaOut) : waitanyIns (some i) x u = u := if_neg h

end

/-- Of two changes of one engine the second stays. -/
theorem engineBecomes_trans {n : Nat} {e f : Engine} {s t v : State} (h : engineBecomes n e s t)
    (k : engineBecomes n f t v) : engineBecomes n f s v := by
  obtain ⟨-, hoth, ht⟩ := h
  obtain ⟨hown, koth, kt⟩ := k
  refine ⟨hown, fun m hm => (koth m hm).trans (hoth m hm), ?_⟩
  rw [kt, ht]

/-- The engine changes, then a register is written and it goes on: nothing else changes. -/
theorem writeA_updEng_issuing {op n : Nat} {s u : State} {x : Ectx} (h : issuing op n s x u) (f : Engine → Engine)
    (i v : Nat) : engineBecomes n (setA i v (f x.e)).onward u (writeA x.n i v (updEng x.n f u)) := by
  obtain ⟨-, -, hn, he, -⟩ := issuing_fetch h
  have hf : engineBecomes n (f (eng u n)) u (updEng n f u) := engineBecomes_updEng ..
  rw [hn, he, ← hf.1]
  exact engineBecomes_trans hf (engineBecomes_writeA ..)

/-! ## The obligation -/

/-- Settles O37: each instruction by whether the engine may go on and whether it is the last, and what that leaves. -/
theorem meetingInstructions : Obligations.MeetingInstructions := by
  unfold Obligations.MeetingInstructions
  intro n s u x
  refine ⟨fun h => ?_, fun h => ?_, fun h => ?_, fun h => ?_⟩
  · have hn := working_engine h
    rw [exec_red h]
    refine ⟨fun hc => ?_, fun ho hl => ?_, fun e ho hi hx hw => ?_, fun t ho hi hx ht => ⟨fun hlen => ?_, fun hlen => ?_⟩⟩
    · rw [redIns_of_closed hc]
    · rw [redIns_of_unlawful ho hl]
    · rw [redIns_of_lawful ho ⟨hi, hx⟩, onGroup_wait _ (hn ▸ hw), hn]
    · rw [redIns_of_lawful ho ⟨hi, hx⟩, onGroup_at _ (seatOf_working h ht), if_neg hlen, ← hn]
      rfl
    · rw [redIns_of_lawful ho ⟨hi, hx⟩, onGroup_at _ (seatOf_working h ht), if_pos hlen, ← hn]
      rfl
  · obtain ⟨-, -, hn, he, -⟩ := issuing_fetch h
    rw [exec_control (f := barIns) rfl h]
    refine ⟨fun hu => ?_, fun hu hlen => ⟨_, congrArg _ (barIns_of_first hu hlen), ?_, fun d => work_of_mem_setProg⟩,
      fun hu hlen => ⟨?_, fun hdig hnodup _ => ⟨_, congrArg _ (barIns_of_last hu hlen), fun j hj => ?_⟩⟩⟩
    · rw [barIns_of_busy hu]
    · rw [hn, he]
      exact engineBecomes_updEng n.val (fun e => { e with pst := .waitBar }) u
    · rw [barIns_of_last hu hlen, hn]
      rfl
    · rw [hn]
      exact eng_barEnds_undigested (p := barProg x) hdig hnodup hj
  · have hn := (issuing_fetch h).2.2.1
    rw [exec_control (f := endIns) rfl h, ← hn]
    refine ⟨fun hu => ?_, fun hu ho => ?_, fun hu hc => ?_⟩
    · rw [endIns_of_busy hu]
    · rw [endIns_of_open hu ho]
    · rw [endIns_of_closed hu hc]
      exact ⟨fun hlen => congrArg _ (if_neg hlen), fun hlen => congrArg _ (if_pos hlen)⟩
  · refine ⟨fun hp => ?_, fun hp => ?_, fun i hi => ?_, fun i hi => ?_⟩
    · rw [exec_control (f := waitanyIns none) rfl h, waitanyIns_of_pending hp]
    · rw [exec_control (f := waitanyIns none) rfl h, waitanyIns_of_none_left hp]
      exact ⟨_, rfl, writeA_updEng_issuing h _ _ _⟩
    · rw [exec_control (f := waitanyIns (some i)) rfl h, waitanyIns_of_mem hi]
      exact ⟨_, rfl, writeA_updEng_issuing h (fun e => { e with dmaOut := dmaAfter i e.dmaOut }) _ _⟩
    · rw [exec_control (f := waitanyIns (some i)) rfl h, waitanyIns_of_not_mem hi]

end Sys2Proof.Machine
end

section
/-! PROOFS. DMA and ATOMF (O38): what a write of the scratchpad leaves of the engine, the end of a transfer each way, the
engines of a share, and the sums of an ATOMF. -/

namespace Sys2Proof.Machine

/-! ## The end of a transfer (R231) -/

section
variable (n : Nat) (bs : List Byte) (s : State)

theorem dmaOut_notePort (net : Bool) (units : List Nat) (hits : Nat) :
    (eng (updEng n (notePort net units hits) s) n).dmaOut = (eng s n).dmaOut := by
  rw [updEng, eng_setEng_same]
  rfl

theorem dmaOut_portWrite (net : Bool) (off : Nat) : (eng (portWrite net n off bs s) n).dmaOut = (eng s n).dmaOut := by
  unfold portWrite
  split
  · rfl
  dsimp only
  split
  · rfl
  split <;> exact dmaOut_notePort ..

theorem dmaOut_writeSpan (ps : List (Nat × Nat)) : (eng (writeSpan n ps bs s) n).dmaOut = (eng s n).dmaOut := by
  unfold writeSpan
  induction ps generalizing bs s with
  | nil => rfl
  | cons p ps ih => exact (ih _ _).trans (dmaOut_portWrite ..)

end

/-- An engine's record when its DMA at `pc` has delivered its bytes. -/
def Engine.delivered (e : Engine) (pc : Nat) : Engine := { e with dmaOut := e.dmaOut ++ [BitVec.ofNat 12 pc] }

/-- A DMA at `x` is noted and has finished. -/
theorem engineBecomes_dmaEnds {x : Ectx} {n : Nat} (hn : x.n = n) (s : State) :
    engineBecomes n (((eng s n).delivered x.e.pc).retired x.ix) s (retire x (noteDma n x.e.pc s)) := by
  rw [retire, hn, noteDma, updEng_updEng]
  exact engineBecomes_setEng ..

/-- Delivered bytes are written and hashed, and the DMA is noted: nothing else changes. -/
theorem deliverIn_spec (cast : Bool) (k : Key) (m i pc : Nat) (ps : List (Nat × Nat)) (bs : List Byte) (s : State) :
    let w := writeSpanBy cast m ps bs s
    let t := deliverIn cast k m i pc ps bs s
    t.mem = w.mem ∧ t.host = w.host ∧ t.queues = w.queues ∧ (∀ j, j ≠ m → eng t j = eng w j) ∧
      eng t m = (eng w m).delivered pc :=
  ⟨rfl, rfl, rfl, fun _ hj => eng_setEng_other _ _ hj, eng_setEng_same ..⟩

/-! ## Outward (R231) -/

section
variable {x : Ectx} {n : Nat} {a : ExtAddr} {runs ps : List (Nat × Nat)} {len : Nat} {bs : List Byte} {d : Decision}
  {u v w : State}

/-- The bytes that leave are hashed by a digested program (R365). -/
def hashOut (x : Ectx) (bs : List Byte) (s : State) : State :=
  updProg x.c.key (fun p => if p.digest then
    { p with outBytes := addAt p.outBytes x.i bs, outSince := addAt p.outSince x.i bs } else p) s

theorem dmaOutward_of_ok (hs : spanOf x.e x.ins.a len false = some ps) (hr : readSpan x.n ps u = (.ok bs, v))
    (hw : writeRuns x a runs bs v = (.ok (), w)) :
    dmaOutward x a runs len u = retire x (noteDma x.n x.e.pc (hashOut x bs w)) := by
  rw [dmaOutward, readOp_ok _ hs hr]
  simp only [hw]
  rfl

theorem dmaOutward_of_error (hs : spanOf x.e x.ins.a len false = some ps) (hr : readSpan x.n ps u = (.ok bs, v))
    (hw : writeRuns x a runs bs v = (.error d, w)) : dmaOutward x a runs len u = extFail x d w := by
  rw [dmaOutward, readOp_ok _ hs hr]
  simp only [hw]

/-- What an outward DMA leaves when its records are written. -/
theorem dmaOutward_spec (hn : x.n = n) (hs : spanOf x.e x.ins.a len false = some ps)
    (hr : readSpan n ps u = (.ok bs, v)) (hw : writeRuns x a runs bs v = (.ok (), w)) :
    let t := dmaOutward x a runs len u
    t.mem = w.mem ∧ t.host = w.host ∧ (∀ m, m ≠ n → eng t m = eng w m) ∧ (eng t n).pc = (eng w n).pc ∧
      (eng t n).dmaOut = (eng w n).dmaOut ++ [BitVec.ofNat 12 x.e.pc] ∧
      (eng t n).units = (eng w n).units.eraseIdx x.ix := by
  obtain ⟨hown, hoth, -⟩ := engineBecomes_dmaEnds hn (hashOut x bs w)
  rw [dmaOutward_of_ok hs (hn ▸ hr) hw, hn]
  refine ⟨rfl, rfl, hoth, ?_⟩
  rw [hown]
  exact ⟨rfl, rfl, rfl⟩

/-! ## Inward (R231) -/

theorem dmaInward_of_ok (hr : readRuns x a runs u = (.ok bs, v)) :
    dmaInward x a runs ps u = retire x (deliverIn false x.c.key x.n x.i x.e.pc ps bs v) := by
  simp only [dmaInward, hr]

theorem dmaInward_of_error (hr : readRuns x a runs u = (.error d, v)) : dmaInward x a runs ps u = extFail x d v := by
  simp only [dmaInward, hr]

/-- What an inward DMA without a share leaves when its records are read. -/
theorem dmaInward_spec (hn : x.n = n) (hr : readRuns x a runs u = (.ok bs, v)) :
    let t := dmaInward x a runs ps u
    t.mem = (writeSpan n ps bs v).mem ∧ (∀ m, m ≠ n → eng t m = eng v m) ∧
      (eng t n).dmaOut = (eng v n).dmaOut ++ [BitVec.ofNat 12 x.e.pc] ∧
      (eng t n).units = (eng v n).units.eraseIdx x.ix := by
  obtain ⟨hmem, -, -, hoth, hown⟩ := deliverIn_spec false x.c.key n x.i x.e.pc ps bs v
  have hkept := writeSpan_keepsIssue n ps bs v
  rw [dmaInward_of_ok hr, retire, hn]
  refine ⟨hmem, fun m hm => ?_, ?_, ?_⟩
  · rw [updEng, eng_setEng_other _ _ hm, hoth m hm]
    exact hkept.others m hm
  · rw [updEng, eng_setEng_same, hown]
    exact congrArg (· ++ [BitVec.ofNat 12 x.e.pc]) (dmaOut_writeSpan n bs v ps)
  · rw [updEng, eng_setEng_same, hown]
    exact congrArg (·.eraseIdx x.ix) hkept.units

end

/-! ## A share (R232) -/

/-- What a DMA with a share notes: its engine, tag, address, records and ranges. -/
def shareNote (x : Ectx) (tag : Nat) (a : ExtAddr) (ps : List (Nat × Nat)) (len : Nat) : ShareWait :=
  ⟨x.i, tag, match a with | .cluster _ => false | .device _ => true,
    match a with | .cluster y => clusterBase + x.n / 8 * slotBytes + y | .device y => y,
    x.ins.par 3 0, x.ins.par 7 4, len, ps⟩

theorem shareNote_device (x : Ectx) (tag : Nat) {a : ExtAddr} {d : Nat} (ps : List (Nat × Nat)) (len : Nat)
    (h : a = .device d) : (shareNote x tag a ps len).device = true ∧ (shareNote x tag a ps len).addr = d := by
  rw [h]
  exact ⟨rfl, rfl⟩

theorem shareNote_cluster (x : Ectx) (tag : Nat) {a : ExtAddr} {y : Nat} (ps : List (Nat × Nat)) (len : Nat)
    (h : a = .cluster y) : (shareNote x tag a ps len).device = false ∧
      (shareNote x tag a ps len).addr = 0x6000000000 + x.n / 8 * 0x800000 + y := by
  rw [h]
  exact ⟨rfl, rfl⟩

/-- The DMAs that wait under a tag. -/
def shareWaits (p : Prog) (tag : Nat) : List ShareWait := p.waitShare.filter fun w => w.tag == tag

/-- Do two DMAs of a share read the same records? -/
def ShareWait.Alike (w y : ShareWait) : Prop :=
  w.device = y.device ∧ w.addr = y.addr ∧ w.rec' = y.rec' ∧ w.gap = y.gap ∧ w.len = y.len

/-- The state when a DMA of a share has been noted and has begun. -/
def shareNoted (x : Ectx) (me : ShareWait) (u : State) : State :=
  beginIns x (updProg x.c.key (fun p => { p with waitShare := p.waitShare ++ [me] }) u)

section
variable {x : Ectx} {tag len : Nat} {a : ExtAddr} {runs ps : List (Nat × Nat)} {u : State} {e : Nat × Nat}

theorem dmaShared_of_unlisted (h : x.p.shares.find? (fun e => e.1 == tag) = none) :
    dmaShared x tag a runs ps len u = progFault x 0x13 u := by
  simp only [dmaShared, h, fShare]

theorem dmaShared_of_stranger (h : x.p.shares.find? (fun e => e.1 == tag) = some e) (hi : e.2.testBit x.i = false) :
    dmaShared x tag a runs ps len u = progFault x 0x13 u := by
  simp only [dmaShared, h, hi, Bool.not_false, if_true, fShare]

/-- The check of all that wait, this DMA among them, turns on the others. -/
theorem all_alike_iff (l : List ShareWait) (me : ShareWait) :
    (l ++ [me]).all (fun w => w.device == me.device && w.addr == me.addr && w.rec' == me.rec' && w.gap == me.gap &&
      w.len == me.len) = true ↔ ∀ w ∈ l, w.Alike me := by
  simp [ShareWait.Alike, and_assoc]

theorem dmaShared_eq (h : x.p.shares.find? (fun e => e.1 == tag) = some e) (hi : e.2.testBit x.i = true) :
    let me := shareNote x tag a ps len
    dmaShared x tag a runs ps len u =
      if !(shareWaits x.p tag ++ [me]).all (fun w => w.device == me.device && w.addr == me.addr && w.rec' == me.rec' &&
        w.gap == me.gap && w.len == me.len) then progFault x 0x13 u
      else if (shareWaits x.p tag ++ [me]).length = popcount 64 e.2 then
        shareEnds x a runs (shareWaits x.p tag ++ [me]) (shareNoted x me u)
      else shareNoted x me u := by
  simp only [dmaShared, h, hi, Bool.not_true, Bool.false_eq_true, if_false]
  rfl

theorem dmaShared_of_other (h : x.p.shares.find? (fun e => e.1 == tag) = some e) (hi : e.2.testBit x.i = true)
    (hs : ¬ ∀ w ∈ shareWaits x.p tag, w.Alike (shareNote x tag a ps len)) :
    dmaShared x tag a runs ps len u = progFault x 0x13 u := by
  rw [dmaShared_eq h hi, if_pos (by simpa only [Bool.not_eq_true', Bool.not_eq_true] using mt (all_alike_iff _ _).1 hs)]

/-- A DMA like the others waits with them; with the last one the read follows. -/
theorem dmaShared_of_alike (h : x.p.shares.find? (fun e => e.1 == tag) = some e) (hi : e.2.testBit x.i = true)
    (hs : ∀ w ∈ shareWaits x.p tag, w.Alike (shareNote x tag a ps len)) :
    dmaShared x tag a runs ps len u =
      if (shareWaits x.p tag).length + 1 = popcount 64 e.2 then
        shareEnds x a runs (shareWaits x.p tag ++ [shareNote x tag a ps len]) (shareNoted x (shareNote x tag a ps len) u)
      else shareNoted x (shareNote x tag a ps len) u := by
  rw [dmaShared_eq h hi, if_neg (by rw [(all_alike_iff _ _).2 hs]; exact Bool.false_ne_true), List.length_append,
    List.length_singleton]

end

/-- The DMAs that waited are dropped from those that wait. -/
def dropShares (k : Key) (l : List ShareWait) (s : State) : State :=
  updProg k (fun p => { p with waitShare := p.waitShare.filter fun w => !decide (w ∈ l) }) s

/-- The bytes read for a share reach one of its engines, whose DMA has finished. -/
def shareServe (x : Ectx) (bs : List Byte) (s : State) (w : ShareWait) : State :=
  retireWaiting 0x18 (x.p.engs.getD w.p 0) (deliverIn true x.c.key (x.p.engs.getD w.p 0) w.p
    (waitingPc (eng s (x.p.engs.getD w.p 0)) 0x18) w.dst bs s)

section
variable {x : Ectx} {a : ExtAddr} {runs : List (Nat × Nat)} {l : List ShareWait} {v w : State}

theorem shareEnds_of_error {d : Decision} (h : readRuns x a runs v = (.error d, w)) :
    shareEnds x a runs l v = extFail x d w := by
  simp only [shareEnds, h]

theorem shareEnds_of_ok {bs : List Byte} (h : readRuns x a runs v = (.ok bs, w)) :
    shareEnds x a runs l v = l.foldl (shareServe x bs) (dropShares x.c.key l w) := by
  simp only [shareEnds, h]
  rfl

end

/-! ## The row of DMA -/

section
variable {x : Ectx} {u : State} {ps : List (Nat × Nat)}

theorem exec_dma {n : Fin 64} {s : State} (h : working 0x18 n.val s x u) : exec (.dma n) s = .next (dmaIns x u) :=
  congrArg _ (withUnit_working _ h)

theorem dmaIns_outward (hf : x.ins.flag = true) :
    dmaIns x u = dmaOutward x (dmaAddr x.e x.ins.b) (dmaRuns (x.ins.par 3 0) (x.ins.par 7 4) (x.ins.c % 2 ^ 24))
      (x.ins.c % 2 ^ 24) u := by
  simp only [dmaIns, hf, if_true, fld_count]

theorem dmaIns_of_error {f : Nat} (hf : x.ins.flag = false) (hs : spanW x x.ins.a (x.ins.c % 2 ^ 24) = .error f) :
    dmaIns x u = progFault x f u := by
  simp only [dmaIns, hf, Bool.false_eq_true, if_false, fld_count, hs]

theorem dmaIns_inward (hf : x.ins.flag = false) (hs : spanW x x.ins.a (x.ins.c % 2 ^ 24) = .ok ps)
    (ht : x.ins.par 15 8 = 0) : dmaIns x u = dmaInward x (dmaAddr x.e x.ins.b)
      (dmaRuns (x.ins.par 3 0) (x.ins.par 7 4) (x.ins.c % 2 ^ 24)) ps u := by
  simp only [dmaIns, hf, Bool.false_eq_true, if_false, fld_count, hs, if_pos ht]

theorem dmaIns_shared (hf : x.ins.flag = false) (hs : spanW x x.ins.a (x.ins.c % 2 ^ 24) = .ok ps)
    (ht : x.ins.par 15 8 ≠ 0) : dmaIns x u = dmaShared x (x.ins.par 15 8) (dmaAddr x.e x.ins.b)
      (dmaRuns (x.ins.par 3 0) (x.ins.par 7 4) (x.ins.c % 2 ^ 24)) ps (x.ins.c % 2 ^ 24) u := by
  simp only [dmaIns, hf, Bool.false_eq_true, if_false, fld_count, hs, if_neg ht]

end

/-! ## ATOMF (R233) -/

/-- The bytes of FP32 elements and the addends, summed element by element. -/
def atomSums (cnt : Nat) (old bs : List Byte) : List Byte :=
  ((elems 4 cnt old).zip (elems 4 cnt bs)).flatMap fun p =>
    leBytes 4 (add32 (BitVec.ofNat 32 p.1) (BitVec.ofNat 32 p.2)).toNat

section
variable {x : Ectx} {u v w : State} {ps : List (Nat × Nat)} {bs old : List Byte}

theorem exec_atomf {n : Fin 64} {s : State} (h : working 0x19 n.val s x u) :
    exec (.atomf n) s = .next (atomfIns x u) :=
  congrArg _ (withUnit_working _ h)

theorem atomfIns_of_none (hs : spanOf x.e x.ins.a (elemUnits (aReg x.e (x.ins.par 11 8)) 4) false = none) :
    atomfIns x u = progFault x 0x10 u :=
  readOp_none _ _ hs

theorem atomfIns_of_beyond (hs : spanOf x.e x.ins.a (elemUnits (aReg x.e (x.ins.par 11 8)) 4) false = some ps)
    (hr : readSpan x.n ps u = (.ok bs, v))
    (hb : 16 * 524288 < 16 * atomUnit x.e x.ins.b + 4 * aReg x.e (x.ins.par 11 8)) :
    atomfIns x u = progFault x 0x12 v :=
  (readOp_ok _ hs hr).trans (if_pos hb)

theorem atomfIns_of_ok (hs : spanOf x.e x.ins.a (elemUnits (aReg x.e (x.ins.par 11 8)) 4) false = some ps)
    (hr : readSpan x.n ps u = (.ok bs, v))
    (hb : 16 * atomUnit x.e x.ins.b + 4 * aReg x.e (x.ins.par 11 8) ≤ 16 * 524288)
    (ho : clusterRead x.n (x.n / 8) (16 * atomUnit x.e x.ins.b) (4 * aReg x.e (x.ins.par 11 8)) v = (.ok old, w)) :
    atomfIns x u = retire x (clusterWrite (x.n / 8) (16 * atomUnit x.e x.ins.b)
      (atomSums (aReg x.e (x.ins.par 11 8)) old bs) w) := by
  refine (readOp_ok _ hs hr).trans ((if_neg (Nat.not_lt.2 hb)).trans ?_)
  simp only [ho, atomSums, List.flatMap_map]

end

/-! ## The obligation -/

/-- Settles O38: each way of a DMA by what is read and written, a share by those that wait, ATOMF by its sums. -/
theorem externalTransfers : Obligations.ExternalTransfers := by
  unfold Obligations.ExternalTransfers
  intro n s u x
  refine ⟨fun h => ?_, fun h => ?_⟩
  · have hn := working_engine h
    rw [exec_dma h]
    refine ⟨fun hf hs => ?_, fun ps bs v hf hs hr => ⟨fun w hw => ?_, fun d w hw => ?_⟩, fun f hf hs => ?_,
      fun ps hf hs ht => ⟨fun bs v hr => ?_, fun d v hr => ?_⟩, fun ps hf hok ht => ⟨fun hnone => ?_, fun e he =>
        ⟨fun hi => ?_, fun hi => ⟨shareNote x (x.ins.par 15 8) (dmaAddr x.e x.ins.b) ps (x.ins.c % 2 ^ 24), rfl, rfl, rfl,
          rfl, rfl, rfl, fun d => shareNote_device x _ ps _, fun y hy => hn ▸ shareNote_cluster x _ ps _ hy, fun hs => ?_,
          fun hs hlen => ?_, fun hs hlen => ⟨fun d w hr => ?_, fun bs w hr => ?_⟩⟩⟩⟩,
      deliverIn_spec, fun m v => engineBecomes_updEng ..⟩
    · rw [dmaIns_outward hf, dmaOutward, readOp_none _ _ hs]
    · rw [dmaIns_outward hf]
      exact ⟨_, rfl, dmaOutward_spec hn hs hr hw⟩
    · rw [dmaIns_outward hf, dmaOutward_of_error hs (hn ▸ hr) hw]
    · rw [dmaIns_of_error hf hs]
    · rw [dmaIns_inward hf hs ht]
      exact ⟨_, rfl, dmaInward_spec hn hr⟩
    · rw [dmaIns_inward hf hs ht, dmaInward_of_error hr]
    · rw [dmaIns_shared hf hok ht, dmaShared_of_unlisted hnone]
    · rw [dmaIns_shared hf hok ht, dmaShared_of_stranger he hi]
    · rw [dmaIns_shared hf hok ht, dmaShared_of_other he hi hs]
    · rw [dmaIns_shared hf hok ht, dmaShared_of_alike he hi hs, ← hn]
      exact congrArg _ (if_neg hlen)
    · rw [← hn] at hr
      rw [dmaIns_shared hf hok ht, dmaShared_of_alike he hi hs]
      exact congrArg _ ((if_pos hlen).trans (shareEnds_of_error hr))
    · rw [← hn] at hr
      rw [dmaIns_shared hf hok ht, dmaShared_of_alike he hi hs]
      exact congrArg _ ((if_pos hlen).trans (shareEnds_of_ok hr))
  · have hn := working_engine h
    rw [exec_atomf h]
    refine ⟨fun hs => ?_, fun ps bs v hs hr => ⟨fun hb => ?_, fun old w hb ho => ?_⟩⟩
    · rw [atomfIns_of_none hs]
    · rw [atomfIns_of_beyond hs (hn ▸ hr) hb]
    · rw [atomfIns_of_ok hs (hn ▸ hr) hb (hn ▸ ho), retire, hn]
      rfl

end Sys2Proof.Machine
end

section
/-! PROOFS. The canonical form of the byte memories (O3) and the invariants at reset (O4). -/

namespace Sys2Proof.Machine

/-- Settles O3: an idle step is a tick, any other the front command on the queue's rest; both keep what `Ages` lists, the
canonical form among it. -/
theorem memoryCanonicalKept : Obligations.MemoryCanonicalKept := by
  unfold Obligations.MemoryCanonicalKept
  intro s t hwf h
  cases hs : s.pending with
  | nil =>
    rw [step_idle hs] at h
    cases h
    exact (tick_ages s).wf hwf
  | cons c rest =>
    rw [step_command hs] at h
    exact (exec_ages h).wf hwf

/-- Settles O4: every byte memory is empty at reset, the fuse is intact and the part has not booted. -/
theorem invariantsAtReset : Obligations.InvariantsAtReset := by
  unfold Obligations.InvariantsAtReset
  refine ⟨(Memory.wf_iff _).2 ⟨Tab.wf_nil 0, Tab.wf_nil 0, Tab.wf_nil 0, Tab.wf_nil 0⟩, lifeInv_of_owned ?_ rfl⟩
  decide

end Sys2Proof.Machine
end

section
/-! PROOFS. Accesses through BAR2 (O11): served or denied, written or read. -/

namespace Sys2Proof.Machine

theorem exec_bar2Access_write {off : Nat} {data : List Byte} {s : State} (len : Nat) (hup : isUp s = true)
    (h : off + data.length ≤ 2 ^ s.host.bar2Log) :
    exec (.bar2Access off true len data) s = .next (bar2Access off true len data s) := by
  simp [exec, execBar2Access, hup, h]

theorem exec_bar2Access_read {off len : Nat} {s : State} (data : List Byte) (hup : isUp s = true)
    (h : off + len ≤ 2 ^ s.host.bar2Log) :
    exec (.bar2Access off false len data) s = .next (bar2Access off false len data s) := by
  simp [exec, execBar2Access, hup, h]

/-- A BAR2 access that is denied: counted and flagged. -/
def bar2Deny (s : State) : State := memFlag 4 { s with mem := { s.mem with bar2Denied := satInc s.mem.bar2Denied } }

theorem bar2Access_write_denied {off : Nat} {data : List Byte} {s : State} (len : Nat)
    (h : bar2Places s true (bar2Base s + off) data.length = none) : bar2Access off true len data s = bar2Deny s := by
  simp [bar2Access, bar2Deny, h]

theorem bar2Access_read_denied {off len : Nat} {s : State} (data : List Byte)
    (h : bar2Places s false (bar2Base s + off) len = none) :
    bar2Access off false len data s = emit (.bar2Data (List.replicate len 0) false) (bar2Deny s) := by
  simp [bar2Access, bar2Deny, h]

theorem bar2Access_write {off : Nat} {data : List Byte} {s : State} {ps : List (Place × Nat)} (len : Nat)
    (h : bar2Places s true (bar2Base s + off) data.length = some ps) :
    bar2Access off true len data s = writePlaces ps data s := by
  simp [bar2Access, h]

theorem bar2Access_read {off len : Nat} {bs : List Byte} {s t : State} {ps : List (Place × Nat)} (data : List Byte)
    (h : bar2Places s false (bar2Base s + off) len = some ps) (hr : readPlaces 1 ps s = (.ok bs, t)) :
    bar2Access off false len data s = emit (.bar2Data bs false) t := by
  simp [bar2Access, h, hr]

/-- Settles O11: an access by whether BAR2 may reach its places. -/
theorem bar2AccessPlace : Obligations.Bar2AccessPlace := by
  unfold Obligations.Bar2AccessPlace
  intro off len data s hup
  refine ⟨fun hw => ?_, fun hr => ?_⟩
  · rw [exec_bar2Access_write len hup hw]
    refine ⟨fun ps hps => ?_, fun hnone => ?_⟩
    · rw [bar2Access_write len hps]
    · rw [bar2Access_write_denied len hnone]
      exact ⟨bar2Deny s, rfl, rfl, rfl, rfl, rfl, rfl⟩
  · rw [exec_bar2Access_read data hup hr]
    refine ⟨fun ps bs t hps hok => ?_, fun hnone => ?_⟩
    · rw [bar2Access_read data hps hok]
      rfl
    · rw [bar2Access_read_denied data hnone]
      exact ⟨_, rfl, rfl, rfl, rfl, rfl, rfl⟩

end Sys2Proof.Machine
end

section
/-! PROOFS. The mapping of extents (O21): what claiming one extent changes, and what mapping a list of them adds up to. -/

namespace Sys2Proof.Machine

/-! ## One extent -/

/-- The extent has still to be zeroed, or is being released but not by an unload (log 53). -/
abbrev NeedsZeroing (s : State) (e : Nat) : Prop :=
  extState s e = .unzeroed ∨ (extState s e = .releasing ∧ unloadsExtent s e = false)

/-- A mapping takes the extent from the pool (R345). -/
abbrev Claimable (s : State) (e : Nat) : Prop := extState s e = .free ∨ NeedsZeroing s e

/-- The physical address lies in the bytes that extent `e` has now. -/
abbrev InExtent (s : State) (e a : Nat) : Prop :=
  carafePhys s (e * extBytes) ≤ a ∧ a < carafePhys s (e * extBytes) + extBytes

theorem claimExtent_of_needsZeroing {s : State} {e : Nat} (h : NeedsZeroing s e) :
    claimExtent e s = setExt e .mapped (zeroCarafe (carafePhys s (e * extBytes)) extBytes s) := by
  rcases h with h | ⟨h, hload⟩
  · simp only [claimExtent, h]
  · simp only [claimExtent, h, hload, Bool.false_eq_true, if_false]

theorem claimExtent_of_free {s : State} {e : Nat} (h : extState s e = .free) : claimExtent e s = setExt e .mapped s := by
  simp only [claimExtent, h]

theorem claimExtent_of_not_claimable {s : State} {e : Nat} (h : ¬ Claimable s e) : claimExtent e s = s := by
  unfold claimExtent
  split
  · exact absurd (.inl ‹_›) h
  · exact absurd (.inr (.inl ‹_›)) h
  · split
    · rfl
    · exact absurd (.inr (.inr ⟨‹_›, eq_false_of_ne_true ‹_›⟩)) h
  · rfl

/-- Of the state only translation entries, extents' states and Carafe's bytes and error marks differ. -/
def OnlyMaps (s t : State) : Prop :=
  t = { s with mem := { s.mem with vmap := t.mem.vmap, ext := t.mem.ext, carafe := t.mem.carafe, poison := t.mem.poison
                                   symErr := t.mem.symErr, writeBack := t.mem.writeBack } }

/-- Of the state only translation entries and extents' states differ. -/
def OnlyEntries (s t : State) : Prop := t = { s with mem := { s.mem with vmap := t.mem.vmap, ext := t.mem.ext } }

theorem OnlyMaps.trans {a b c : State} (h : OnlyMaps a b) (k : OnlyMaps b c) : OnlyMaps a c := by
  unfold OnlyMaps at *
  rw [k, h]

theorem OnlyEntries.trans {a b c : State} (h : OnlyEntries a b) (k : OnlyEntries b c) : OnlyEntries a c := by
  unfold OnlyEntries at *
  rw [k, h]

theorem OnlyMaps.carafePhys {s t : State} (h : OnlyMaps s t) (a : Nat) : carafePhys t a = carafePhys s a := by
  rw [h]; rfl

theorem OnlyMaps.unloadsExtent {s t : State} (h : OnlyMaps s t) (e : Nat) : unloadsExtent t e = unloadsExtent s e := by
  rw [h]; rfl

theorem OnlyMaps.locked {s t : State} (h : OnlyMaps s t) : t.mem.locked = s.mem.locked := by
  rw [h]

theorem zeroCarafe_onlyMaps (pa len : Nat) (s : State) : OnlyMaps s (zeroCarafe pa len s) := by
  unfold zeroCarafe
  split <;> rfl

theorem zeroCarafe_ext (pa len : Nat) (s : State) : (zeroCarafe pa len s).mem.ext = s.mem.ext := by
  unfold zeroCarafe
  split <;> rfl

theorem zeroCarafe_vmap (pa len : Nat) (s : State) : (zeroCarafe pa len s).mem.vmap = s.mem.vmap := by
  unfold zeroCarafe
  split <;> rfl

theorem get_filter_keys {α : Type} {d : α} (p : Nat → Bool) (t : Tab α) (i : Nat) :
    Tab.get d (t.filter fun q => p q.1) i = if p i then Tab.get d t i else d := by
  induction t with
  | nil => exact (ite_self d).symm
  | cons q t ih =>
    by_cases hi : i = q.1
    · subst hi
      by_cases hq : p q.1 = true <;> simp [hq, Tab.get, ih]
    · by_cases hq : p q.1 = true <;> simp [hq, hi, Tab.get, ih]

theorem get_carafe_zeroCarafe (pa len : Nat) (s : State) (a : Nat) :
    Tab.get 0 (zeroCarafe pa len s).mem.carafe a =
      if s.mem.locked = false ∧ pa ≤ a ∧ a < pa + len then 0 else Tab.get 0 s.mem.carafe a := by
  unfold zeroCarafe
  split
  next h => simp [h]
  next h =>
    refine (get_filter_keys (fun k => !(decide (pa ≤ k) && decide (k < pa + len))) ..).trans ?_
    by_cases hr : pa ≤ a ∧ a < pa + len <;> simp [h, hr]

theorem claimExtent_onlyMaps (e : Nat) (s : State) : OnlyMaps s (claimExtent e s) := by
  by_cases hz : NeedsZeroing s e
  · rw [claimExtent_of_needsZeroing hz]
    exact (zeroCarafe_onlyMaps ..).trans rfl
  by_cases hf : extState s e = .free
  · rw [claimExtent_of_free hf]
    rfl
  · rw [claimExtent_of_not_claimable (not_or.2 ⟨hf, hz⟩)]
    rfl

theorem claimExtent_onlyEntries {e : Nat} {s : State} (hz : ¬ NeedsZeroing s e) : OnlyEntries s (claimExtent e s) := by
  by_cases hf : extState s e = .free
  · rw [claimExtent_of_free hf]
    rfl
  · rw [claimExtent_of_not_claimable (not_or.2 ⟨hf, hz⟩)]
    rfl

theorem claimExtent_vmap (e : Nat) (s : State) : (claimExtent e s).mem.vmap = s.mem.vmap := by
  by_cases hz : NeedsZeroing s e
  · rw [claimExtent_of_needsZeroing hz]
    exact zeroCarafe_vmap ..
  · rw [claimExtent_onlyEntries hz]
    by_cases hf : extState s e = .free
    · rw [claimExtent_of_free hf]
      rfl
    · rw [claimExtent_of_not_claimable (not_or.2 ⟨hf, hz⟩)]

theorem extState_claimExtent (e : Nat) (s : State) (f : Nat) :
    extState (claimExtent e s) f = if f = e ∧ Claimable s e then .mapped else extState s f := by
  have hmapped (u : State) (hu : u.mem.ext = s.mem.ext) (hc : Claimable s e) :
      extState (setExt e .mapped u) f = if f = e ∧ Claimable s e then .mapped else extState s f := by
    rw [extState_setExt, extState, hu]
    simp only [hc, and_true, extState]
  by_cases hz : NeedsZeroing s e
  · rw [claimExtent_of_needsZeroing hz]
    exact hmapped _ (zeroCarafe_ext ..) (.inr hz)
  by_cases hf : extState s e = .free
  · rw [claimExtent_of_free hf]
    exact hmapped s rfl (.inl hf)
  · rw [claimExtent_of_not_claimable (not_or.2 ⟨hf, hz⟩), if_neg fun h => h.2.elim hf hz]

theorem get_carafe_claimExtent (e : Nat) (s : State) (a : Nat) : Tab.get 0 (claimExtent e s).mem.carafe a =
    if s.mem.locked = false ∧ NeedsZeroing s e ∧ InExtent s e a then 0 else Tab.get 0 s.mem.carafe a := by
  by_cases hz : NeedsZeroing s e
  · rw [claimExtent_of_needsZeroing hz]
    refine (get_carafe_zeroCarafe ..).trans ?_
    simp only [hz, true_and]
  · rw [claimExtent_onlyEntries hz, if_neg fun h => hz h.2.1]

/-! ## A list of extents -/

/-- Extent `e` is claimed and entry `v` of the context names it. -/
def mapExtent (ctx : Nat) (r w : Bool) (v e : Nat) (s : State) : State :=
  { claimExtent e s with mem := { (claimExtent e s).mem with
      vmap := Tab.put VEntry.init (claimExtent e s).mem.vmap (vkey ctx v) ⟨true, r, w, BitVec.ofNat 13 e⟩ } }

section
variable (ctx v : Nat) (r w : Bool) (e : Nat) (es : List Nat) (s : State)

theorem mapExtents_cons :
    mapExtents ctx r w v (e :: es) s = mapExtents ctx r w (v + 1) es (mapExtent ctx r w v e s) := rfl

theorem mapExtent_onlyMaps : OnlyMaps s (mapExtent ctx r w v e s) := (claimExtent_onlyMaps e s).trans rfl

theorem vkey_succ : vkey ctx (v + 1) = vkey ctx v + 1 := (Nat.add_assoc ..).symm

theorem mapExtent_vmap : (mapExtent ctx r w v e s).mem.vmap =
    Tab.put VEntry.init s.mem.vmap (vkey ctx v) ⟨true, r, w, BitVec.ofNat 13 e⟩ := by
  rw [← claimExtent_vmap e s]
  rfl

theorem mapExtent_onlyEntries {s : State} (hz : ¬ NeedsZeroing s e) : OnlyEntries s (mapExtent ctx r w v e s) :=
  (claimExtent_onlyEntries hz).trans rfl

theorem extState_mapExtent (f : Nat) :
    extState (mapExtent ctx r w v e s) f = if f = e ∧ Claimable s e then .mapped else extState s f :=
  extState_claimExtent e s f

/-- What is claimed has nothing left to zero. -/
theorem needsZeroing_mapExtent (f : Nat) : NeedsZeroing (mapExtent ctx r w v e s) f ↔ NeedsZeroing s f ∧ f ≠ e := by
  simp only [NeedsZeroing, extState_mapExtent, (mapExtent_onlyMaps ctx v r w e s).unloadsExtent]
  by_cases hf : f = e
  · subst hf
    by_cases hc : Claimable s f
    · simp [hc]
    · simpa [hc] using fun h => hc (.inr h)
  · simp [hf]

theorem claimable_mapExtent (f : Nat) : Claimable (mapExtent ctx r w v e s) f ↔ Claimable s f ∧ f ≠ e := by
  simp only [Claimable, needsZeroing_mapExtent, extState_mapExtent]
  by_cases hf : f = e
  · subst hf
    by_cases hc : Claimable s f
    · simp [hc]
    · simpa [hc] using fun h => hc (.inl h)
  · simp [hf]

theorem inExtent_mapExtent (f a : Nat) : InExtent (mapExtent ctx r w v e s) f a ↔ InExtent s f a := by
  simp only [InExtent, (mapExtent_onlyMaps ctx v r w e s).carafePhys]

theorem mapExtents_onlyMaps : OnlyMaps s (mapExtents ctx r w v es s) := by
  induction es generalizing v s with
  | nil => rfl
  | cons e es ih => exact (mapExtent_onlyMaps ctx v r w e s).trans (ih ..)

theorem mapExtents_onlyEntries {s : State} (h : ∀ e ∈ es, ¬ NeedsZeroing s e) :
    OnlyEntries s (mapExtents ctx r w v es s) := by
  induction es generalizing v s with
  | nil => rfl
  | cons e es ih =>
    obtain ⟨he, hes⟩ := List.forall_mem_cons.1 h
    exact (mapExtent_onlyEntries ctx v r w e he).trans
      (ih _ fun f hf hz => hes f hf ((needsZeroing_mapExtent ..).1 hz).1)

/-- The range of entries names the listed extents in order (R249, R251). -/
theorem mapExtents_vmap : (mapExtents ctx r w v es s).mem.vmap =
    Tab.putList VEntry.init s.mem.vmap (vkey ctx v) (es.map fun e => ⟨true, r, w, BitVec.ofNat 13 e⟩) := by
  induction es generalizing v s with
  | nil => rfl
  | cons e es ih =>
    rw [mapExtents_cons, ih, vkey_succ, mapExtent_vmap]
    rfl

theorem extState_mapExtents (f : Nat) :
    extState (mapExtents ctx r w v es s) f = if f ∈ es ∧ Claimable s f then .mapped else extState s f := by
  induction es generalizing v s with
  | nil => simp [mapExtents]
  | cons e es ih =>
    rw [mapExtents_cons, ih]
    simp only [claimable_mapExtent, extState_mapExtent]
    by_cases hf : f = e
    · simp [hf]
    · simp [hf]

theorem get_carafe_mapExtents (a : Nat) : Tab.get 0 (mapExtents ctx r w v es s).mem.carafe a =
    if s.mem.locked = false ∧ ∃ e ∈ es, NeedsZeroing s e ∧ InExtent s e a then 0 else Tab.get 0 s.mem.carafe a := by
  induction es generalizing v s with
  | nil => simp [mapExtents]
  | cons e es ih =>
    rw [mapExtents_cons, ih]
    simp only [(mapExtent_onlyMaps ctx v r w e s).locked, needsZeroing_mapExtent, inExtent_mapExtent]
    refine (congrArg _ (get_carafe_claimExtent e s a)).trans ?_
    by_cases he : NeedsZeroing s e ∧ InExtent s e a
    · by_cases hl : s.mem.locked = false
      · have hin : ∃ f ∈ e :: es, NeedsZeroing s f ∧ InExtent s f a := ⟨e, List.mem_cons_self, he⟩
        simp only [hl, eq_true he, eq_true hin, and_self, if_true, ite_self]
      · simp only [hl, Bool.true_eq_false, false_and, if_false]
    · have hne (f : Nat) : (NeedsZeroing s f ∧ f ≠ e) ∧ InExtent s f a ↔ NeedsZeroing s f ∧ InExtent s f a :=
        ⟨fun h => ⟨h.1.1, h.2⟩, fun h => ⟨⟨h.1, fun hf => he (hf ▸ h)⟩, h.2⟩⟩
      simp only [hne, List.mem_cons, exists_eq_or_imp, he, false_or, and_false, if_false]

end

/-! ## The obligation -/

/-- Settles O21: entries, extents' states and bytes each by induction over the list, a claimed extent having nothing left
to claim or zero. -/
theorem mapExtentsEntries : Obligations.MapExtentsEntries := by
  unfold Obligations.MapExtentsEntries
  intro ctx v r w es s
  refine ⟨fun i e hi => ?_, fun j hj => ?_, mapExtents_onlyMaps .., mapExtents_onlyEntries ctx v r w es, fun e => ⟨?_, ?_⟩,
    fun e he hz hl i hi => ?_, fun a ha => ?_⟩
  · obtain ⟨hlt, rfl⟩ := List.getElem?_eq_some_iff.1 hi
    rw [mapExtents_vmap, ← Nat.add_assoc]
    exact (Tab.get_putList _ _ _ (by simpa using hlt)).trans (List.getElem_map _)
  · rw [mapExtents_vmap]
    exact Tab.get_putList_other _ _ _ (by simpa [vkey] using hj)
  · intro he hc
    exact (extState_mapExtents ..).trans (if_pos ⟨he, hc⟩)
  · intro h
    refine (extState_mapExtents ..).trans (if_neg fun ⟨he, hc⟩ => ?_)
    exact h.elim (· he) fun ⟨hf, hz⟩ => hc.elim hf hz
  · exact (get_carafe_mapExtents ..).trans
      (if_pos ⟨hl, e, he, hz, Nat.le_add_right .., Nat.add_lt_add_left hi _⟩)
  · refine (get_carafe_mapExtents ..).trans (if_neg ?_)
    rintro ⟨-, e, he, hz, hlo, hhi⟩
    exact (ha e he hz).elim (Nat.not_lt.2 hlo) (Nat.not_le.2 hhi)

end Sys2Proof.Machine
end

section
/-! PROOFS. The tamper input and the wipe of the secure region (O41). -/

namespace Sys2Proof.Machine

/-! ## What the operations change -/

/-- Offering an event changes nothing but the Blotter. -/
theorem logSev_onlyBb (sev code source : Nat) (data : List Nat) (s : State) :
    logSev sev code source data s = { s with bb := (logSev sev code source data s).bb } := by
  unfold logSev
  extract_lets
  split <;> rfl

@[simp] theorem logSev_mem (sev code source : Nat) (data : List Nat) (s : State) :
    (logSev sev code source data s).mem = s.mem := by
  rw [logSev_onlyBb]

@[simp] theorem logSev_flash (sev code source : Nat) (data : List Nat) (s : State) :
    (logSev sev code source data s).flash = s.flash := by
  rw [logSev_onlyBb]

@[simp] theorem logEvent_flash (code source : Nat) (data : List Nat) (s : State) :
    (logEvent code source data s).flash = s.flash := logSev_flash ..

theorem slotOf_congr {s t : State} (h : s.flash = t.flash) (i : Nat) : slotOf s i = slotOf t i := by
  rw [slotOf, slotOf, h]

theorem slotIn_congr {s t : State} (h : s.flash = t.flash) (x : SlotState) : slotIn s x = slotIn t x := by
  simp only [slotIn, slotOf_congr h]

/-- The slot directory's copies lie beside the slots. -/
theorem slotOf_writeDir (a b : SlotState) (f : Flash) (s : State) (i : Nat) :
    slotOf { s with flash := writeDir a b f } i = slotOf { s with flash := f } i := by
  unfold writeDir
  extract_lets
  split <;> rfl

theorem slotOf_setSlot_same (i : Nat) (x : Slot) (s : State) : slotOf (setSlot i x s) i = x := by
  have hslot : slotOf { s with flash := if i = 0 then { s.flash with slot0 := x } else { s.flash with slot1 := x } } i = x := by
    unfold slotOf
    split <;> rfl
  unfold setSlot
  extract_lets
  split
  · exact hslot
  · exact (slotOf_writeDir ..).trans hslot

/-! ## The wipe's start and end -/

theorem startWipe_flash (cause : Nat) (s : State) : (startWipe cause s).flash = s.flash := by
  unfold startWipe
  split
  · exact logSev_flash ..
  · rfl

/-- A trigger during a wipe is only recorded (R280). -/
theorem startWipe_mem_active (cause : Nat) {s : State} (h : s.mem.wipeActive = true) : (startWipe cause s).mem = s.mem := by
  rw [startWipe, if_pos h, logSev_mem]

theorem startWipe_mem_idle (cause : Nat) {s : State} (h : s.mem.wipeActive = false) :
    (startWipe cause s).mem = { s.mem with
      locked := true, carafeKey := none, wipeActive := true, wipeTries := 0, wipeCause := BitVec.ofNat 2 cause
      secure := none } := by
  simp only [startWipe, h, Bool.false_eq_true, if_false]

theorem startWipe_wipeActive (cause : Nat) (s : State) : (startWipe cause s).mem.wipeActive = true := by
  cases h : s.mem.wipeActive
  · rw [startWipe_mem_idle cause h]
  · rw [startWipe_mem_active cause h, h]

theorem startWipe_carafe (cause : Nat) (s : State) : (startWipe cause s).mem.carafe = s.mem.carafe := by
  cases h : s.mem.wipeActive
  · rw [startWipe_mem_idle cause h]
  · rw [startWipe_mem_active cause h]

theorem wipeEnds_mem (failed : Bool) (s : State) : (wipeEnds failed s).mem = { s.mem with
    wipeActive := false, wipeFailed := s.mem.wipeFailed || failed
    wipes := if s.mem.wipes = 0xFFFF then s.mem.wipes else s.mem.wipes + 1 } := by
  rw [wipeEnds, logSev_mem]

theorem exec_wipeCheck_idle (clean : Bool) {s : State} (h : s.mem.wipeActive = false) :
    exec (.wipeCheck clean) s = .next s := by
  simp [exec, execWipeCheck, h]

theorem exec_wipeCheck_clean {s : State} (h : s.mem.wipeActive = true) :
    exec (.wipeCheck true) s = .next (wipeEnds false s) := by
  simp [exec, execWipeCheck, h]

theorem exec_wipeCheck_again {s : State} (h : s.mem.wipeActive = true) (htries : s.mem.wipeTries + 1 < 3) :
    exec (.wipeCheck false) s = .next { s with mem := { s.mem with wipeTries := s.mem.wipeTries + 1 } } := by
  simp [exec, execWipeCheck, h, htries]

theorem exec_wipeCheck_failed {s : State} (h : s.mem.wipeActive = true) (htries : 3 ≤ s.mem.wipeTries + 1) :
    exec (.wipeCheck false) s = .next (wipeEnds true s) := by
  simp [exec, execWipeCheck, h, Nat.not_lt.2 htries]

/-! ## The tamper input -/

/-- The assertion is counted and offered to the Blotter (R491). -/
def tamperNoted (ns : Nat) (s : State) : State :=
  logEvent 0x22 12 [ns / 1000] (svcFlag 2 { s with svc := { s.svc with
    tamper := satInc s.svc.tamper, tamperEnd := max s.svc.tamperEnd (s.now + (ns - 1000) / 10) } })

theorem tamperAssert_eq (ns : Nat) (s : State) : tamperAssert ns s = tamperSlots (startWipe 1 (tamperNoted ns s)) := rfl

/-- Emptying a receiving slot changes flash and the Blotter alone. -/
theorem tamperSlots_onlyFlash (s : State) :
    tamperSlots s = { s with flash := (tamperSlots s).flash, bb := (tamperSlots s).bb } := by
  unfold tamperSlots
  split
  · rw [logEvent, logSev_onlyBb]
    rfl
  · rfl

theorem slotOf_tamperSlots {s : State} {i : Nat} (h : slotIn s .receiving = some i) :
    slotOf (tamperSlots s) i = Slot.init := by
  simp only [tamperSlots, h]
  exact (slotOf_congr (logEvent_flash ..) i).trans (slotOf_setSlot_same ..)

theorem exec_tamper {ns : Nat} {s : State} (hphase : s.boot.phase ≠ .held) (hns : 1000 ≤ ns) :
    exec (.tamper ns) s = .next (tamperAssert ns s) :=
  congrArg _ (if_neg (not_or.2 ⟨hphase, Nat.not_lt.2 hns⟩))

theorem exec_tamper_short {ns : Nat} (s : State) (h : ns < 1000) : exec (.tamper ns) s = .next s :=
  congrArg _ (if_pos (.inr h))

/-- Settles O41: an assertion is noted, then the wipe starts, then a receiving slot is emptied; a check by its outcome and
the number of tries. -/
theorem tamperAndWipe : Obligations.TamperAndWipe := by
  unfold Obligations.TamperAndWipe
  refine ⟨fun ns s hphase hns => ⟨tamperAssert ns s, exec_tamper hphase hns, ?_⟩, fun ns s => exec_tamper_short s,
    fun s hactive => ⟨⟨wipeEnds false s, exec_wipeCheck_clean hactive, ?_⟩, exec_wipeCheck_again hactive,
      fun htries => ⟨wipeEnds true s, exec_wipeCheck_failed hactive htries, ?_⟩⟩, fun b s => exec_wipeCheck_idle b⟩
  · have hslots := tamperSlots_onlyFlash (startWipe 1 (tamperNoted ns s))
    have hstart := startWipe_touch 1 (tamperNoted ns s)
    have hnote := logEvent_touch 0x22 12 [ns / 1000] (svcFlag 2 { s with svc := { s.svc with
      tamper := satInc s.svc.tamper, tamperEnd := max s.svc.tamperEnd (s.now + (ns - 1000) / 10) } })
    have hmem : (tamperNoted ns s).mem = s.mem := logEvent_mem ..
    have hflash : (startWipe 1 (tamperNoted ns s)).flash = s.flash := (startWipe_flash ..).trans (logEvent_flash ..)
    have htmem : (tamperAssert ns s).mem = (startWipe 1 (tamperNoted ns s)).mem := by rw [tamperAssert_eq, hslots]
    have htsvc : (tamperAssert ns s).svc = (tamperNoted ns s).svc := by rw [tamperAssert_eq, hslots, hstart.svc]
    refine ⟨?_, ?_, ?_, fun hidle => ?_, fun i hi _ => ?_, ?_, ?_, ?_⟩
    · rw [htsvc]
      exact congrArg SvcSt.tamper hnote.svc
    · rw [htsvc]
      exact congrArg SvcSt.status hnote.svc
    · rw [htmem, startWipe_wipeActive]
    · rw [htmem, startWipe_mem_idle 1 (hmem ▸ hidle)]
      exact ⟨rfl, rfl, rfl, rfl, rfl⟩
    · rw [tamperAssert_eq, slotOf_tamperSlots ((slotIn_congr hflash _).trans hi)]
      rfl
    · rw [tamperAssert_eq, hslots]
      exact hstart.cmds.trans hnote.cmds
    · rw [htmem, startWipe_carafe, hmem]
    · rw [tamperAssert_eq, hslots]
      exact hstart.fuse.trans hnote.fuse
  · rw [wipeEnds_mem]
    refine ⟨rfl, Bool.or_false _, ?_, rfl⟩
    split
    · assumption
    · rfl
  · rw [wipeEnds_mem]
    exact ⟨rfl, Bool.or_true _, rfl⟩

end Sys2Proof.Machine
end

section
/-! PROOFS. The park of tile registers and the scratchpad windows (O39). -/

namespace Sys2Proof.Machine

/-! ## The park's transfers (R186, R187) -/

section
variable (g : Nat) (e : Engine)

theorem grp_parkEnds_same : grp (parkEnds g e) g = { grp e g with st := .parked, tile := 3 } :=
  (grp_setTile ..).trans (grp_setGrp_same ..)

theorem grp_parkEnds_other {h : Nat} (hne : h ≠ g) : grp (parkEnds g e) h = grp e h :=
  (grp_setTile ..).trans (grp_setGrp_other _ _ hne)

theorem areg_parkEnds : (parkEnds g e).areg = e.areg := areg_setTile ..

theorem grp_unparkEnds_same : grp (unparkEnds g e) g = { grp e g with st := .resident, slot := 7 } :=
  (grp_setTile ..).trans (grp_setGrp_same ..)

theorem grp_unparkEnds_other {h : Nat} (hne : h ≠ g) : grp (unparkEnds g e) h = grp e h :=
  (grp_setTile ..).trans (grp_setGrp_other _ _ hne)

theorem tileAt_unparkEnds : tileAt (unparkEnds g e) (grp e g).tile = .held := tileAt_setTile_same ..

/-- An engine's record when a group is lost on its way back. -/
def groupLost : Engine :=
  { setTile (grp e g).tile .empty (setGrp g (closeGroup (grp e g)) e) with fault := faultWord g 4 }

theorem cmd_groupLost : (groupLost g e).cmd = e.cmd := by
  unfold groupLost setTile
  split <;> rfl

theorem grp_groupLost_same : grp (groupLost g e) g = closeGroup (grp e g) :=
  (grp_setTile ..).trans (grp_setGrp_same ..)

end

theorem exec_park {n : Fin 64} {g : Fin 8} {s : State} (hup : isUp s = true)
    (h : (grp (eng s n.val) g.val).st = .parking) :
    exec (.park n g) s = .next (updEng n.val (parkEnds g.val) s) := by
  simp [exec, execPark, hup, h]

theorem exec_park_elsewhere {n : Fin 64} {g : Fin 8} {s : State} (h : (grp (eng s n.val) g.val).st ≠ .parking) :
    exec (.park n g) s = .next s := by
  simp [exec, execPark, h]

section
variable {n : Fin 64} {g : Fin 8} {s : State} (hup : isUp s = true) (hst : (grp (eng s n.val) g.val).st = .unparking)
  (htile : tileAt (eng s n.val) (grp (eng s n.val) g.val).tile = .unpark)
include hup hst htile

theorem exec_unpark_clean : exec (.unpark n g .clean) s = .next (updEng n.val (unparkEnds g.val) s) :=
  congrArg _ (if_pos ⟨hst, htile, hup⟩)

theorem exec_unpark_corrected (k : Nat) : exec (.unpark n g (.corrected k)) s = .next (updEng n.val (unparkEnds g.val)
    { s with arr := { s.arr with parkCorr := satAdd s.arr.parkCorr k } }) :=
  congrArg _ (if_pos ⟨hst, htile, hup⟩)

theorem exec_unpark_uncorrectable : exec (.unpark n g .uncorrectable) s = .next (parkLost n.val g.val s) :=
  congrArg _ (if_pos ⟨hst, htile, hup⟩)

end

/-- The error is counted and the group lost; the command is still to end. -/
def parkErrs (n g : Nat) (s : State) : State :=
  updEng n (groupLost g) (arrFlag 6 { s with arr := { s.arr with parkUncorr := satInc s.arr.parkUncorr } })

theorem eng_parkErrs (n g : Nat) (s : State) : eng (parkErrs n g s) n = groupLost g (eng s n) := eng_setEng_same ..

theorem parkLost_of_findCmd {n g : Nat} {s : State} {k : Key} {c : Cmd} (hcmd : (eng s n).cmd = some k)
    (hc : findCmd s k = some c) : parkLost n g s = failCmd c (atEngine n (mkDecision 4 2 0)) (parkErrs n g s) := by
  have hcmd' : (eng (parkErrs n g s) n).cmd = some k := by rw [eng_parkErrs, cmd_groupLost, hcmd]
  have hc' : findCmd (parkErrs n g s) k = some c := hc
  have hlost : parkLost n g s = match (eng (parkErrs n g s) n).cmd with
      | some k => (match findCmd (parkErrs n g s) k with
        | some c => failCmd c (atEngine n (mkDecision 4 2 0)) (parkErrs n g s)
        | none => parkErrs n g s)
      | none => parkErrs n g s := rfl
  simp only [hlost, hcmd', hc']

theorem failCmd_undecided {c : Cmd} (d : Decision) (s : State) (h : c.decided = none) :
    failCmd c d s = complete c.key d s := by
  simp only [failCmd, h]

/-- A status that was fixed before stays (log 69). -/
theorem failCmd_decided {c : Cmd} {d₀ : Decision} (d : Decision) (s : State) (h : c.decided = some d₀)
    (hp : c.pause = none) : failCmd c d s = settle [(c.key, d₀)] s := by
  simp only [failCmd, h, hp]

theorem key_of_findCmd {s : State} {k : Key} {c : Cmd} (h : findCmd s k = some c) : c.key = k :=
  eq_of_beq (List.find?_some (p := fun c : Cmd => c.key == k) h)

/-! ## The window registers (R272, R287) -/

theorem winWrite_eq (size : Bool) (w : Nat) (v : Word) (e : Engine) : winWrite size w v e =
    if size then { e with winSize := Tab.put 0 e.winSize w (v.setWidth 17) }
    else { e with winBase := Tab.put 0 e.winBase w (v.setWidth 17) } := by
  rw [winWrite, BitVec.ofNat_toNat]

theorem foldl_updEng_onlyEng (f : Engine → Engine) (l : List Nat) (s : State) :
    l.foldl (fun st n => updEng n f st) s = { s with eng := (l.foldl (fun st n => updEng n f st) s).eng } := by
  induction l generalizing s with
  | nil => rfl
  | cons n l ih => exact ih (updEng n f s)

theorem exec_spadWinWrite (size : Bool) (w : Fin 16) (v : Word) {s : State} (hup : isUp s = true) :
    exec (.spadWinWrite size w v) s = .next (winWriteAll size w.val v s) := by
  simp only [exec, execSpadWinWrite, if_pos hup]

theorem regIndex_at {base stride n i : Nat} (hs : 0 < stride) (hi : i < n) :
    regIndex base stride n (base + stride * i) = some i := by
  simp [regIndex, hs, hi]

theorem regIndex_beyond {base stride n o : Nat} (hs : 0 < stride) (h : base + stride * n ≤ o) :
    regIndex base stride n o = none := by
  refine if_neg fun ⟨_, _, hlt⟩ => ?_
  have := (Nat.div_lt_iff_lt_mul hs).1 hlt
  rw [Nat.mul_comm] at this
  omega

/-- The device-level SPAD registers lie at 0x01600000. -/
theorem regPeek_spad (p : Path) (s : State) {o : Nat} (h : o < 0x100000) :
    regPeek p s (0x01600000 + o) = spadReg s o := by
  have hdiv : (0x01600000 + o) / 0x100000 = 0x16 := by omega
  have hmod : (0x01600000 + o) % 0x100000 = o := by omega
  simp only [regPeek, hdiv, hmod]
  exact if_neg (by omega)

theorem regPoke_spad (p : Path) (v : Word) (s : State) {o : Nat} (h : o < 0x100000) :
    regPoke p (0x01600000 + o) v s = spadRegWrite o v s := by
  have hdiv : (0x01600000 + o) / 0x100000 = 0x16 := by omega
  have hmod : (0x01600000 + o) % 0x100000 = o := by omega
  simp only [regPoke, hdiv, hmod]
  exact if_neg (by omega)

theorem spadReg_window (s : State) {i : Nat} (h : i < 32) : spadReg s (0x40 + 4 * i) =
    some (Tab.get 0 (if i % 2 = 0 then (eng s 0).winBase else (eng s 0).winSize) (i / 2)).toNat := by
  have hne : 0x40 + 4 * i ≠ 0 := by omega
  have hgroup : regIndex 0x1010 4 8 (0x2040 + 4 * i) = none := regIndex_beyond (by decide) (by omega)
  have hk : regIndex 0x1030 4 8 (0x2040 + 4 * i) = none := regIndex_beyond (by decide) (by omega)
  simp only [spadReg, if_neg hne, regIndex_at (by decide : 0 < 4) h, engReg, hgroup, hk]

theorem spadRegWrite_window (v : Word) (s : State) {i : Nat} (h : i < 32) :
    spadRegWrite (0x40 + 4 * i) v s = winWriteAll (i % 2 == 1) (i / 2) v s := by
  simp only [spadRegWrite, regIndex_at (by decide : 0 < 4) h]

/-- Base and size register of window `w` are number `2 * w` and `2 * w + 1` of the array. -/
theorem windowNumber_bounds (size : Bool) {w : Nat} (h : w < 16) : 2 * w + size.toNat < 32 ∧
    (2 * w + size.toNat) / 2 = w ∧ (2 * w + size.toNat) % 2 = size.toNat := by
  cases size <;> simp only [Bool.toNat_false, Bool.toNat_true] <;> omega

/-- The device's register of a window, its base or its size. -/
def winReg (size : Bool) (w : Nat) : Nat := 0x01600000 + (0x40 + 4 * (2 * w + size.toNat))

theorem regPeek_winReg (size : Bool) {w : Nat} (h : w < 16) (p : Path) (s : State) : regPeek p s (winReg size w) =
    some (Tab.get 0 (if size then (eng s 0).winSize else (eng s 0).winBase) w).toNat := by
  obtain ⟨hlt, hhalf, hodd⟩ := windowNumber_bounds size h
  rw [winReg, regPeek_spad _ _ (by omega), spadReg_window s hlt, hhalf, hodd]
  cases size <;> rfl

theorem regPoke_winReg (size : Bool) {w : Nat} (h : w < 16) (p : Path) (v : Word) (s : State) :
    regPoke p (winReg size w) v s = winWriteAll size w v s := by
  obtain ⟨hlt, hhalf, hodd⟩ := windowNumber_bounds size h
  rw [winReg, regPoke_spad _ _ _ (by omega), spadRegWrite_window _ _ hlt, hhalf, hodd]
  cases size <;> rfl

/-- A write of a window register of the device, as SPAD_WIN_WRITE does it. -/
theorem exec_registerWrite_winReg (size : Bool) (w : Fin 16) (v : Quad) {s : State} (hup : isUp s = true) :
    exec (.registerWrite .bar0 (winReg size w) 4 v) s = exec (.spadWinWrite size w (v.setWidth 32)) s := by
  have hreg : (regPeek .bar0 s (winReg size w)).isSome = true := by
    rw [regPeek_winReg size w.isLt]
    rfl
  have halign : winReg size w % 4 = 0 := by
    rw [winReg]
    omega
  rw [exec_registerWrite_word (p := .bar0) v hup halign hreg, regPoke_winReg size w.isLt, exec_spadWinWrite _ _ _ hup]

/-! ## The obligation -/

/-- Settles O39: a transfer by its group's state, a lost group by whether its command's status is fixed, a window
register by its index among the device's. -/
theorem parkAndWindows : Obligations.ParkAndWindows := by
  unfold Obligations.ParkAndWindows
  refine ⟨fun n g s hup => ⟨fun hst => ?_, fun hst htile => ?_, fun hst htile _ k c hk hc => ?_, exec_park_elsewhere⟩,
    fun size w v s hup => ?_, fun w v s => ?_, fun p n i count s => ?_⟩
  · have hg := grp_parkEnds_same g.val (eng s n.val)
    refine ⟨parkEnds g.val (eng s n.val), exec_park hup hst, ?_, ?_, ?_, fun h => grp_parkEnds_other _ _, areg_parkEnds ..⟩ <;>
      rw [hg]
  · have hg := grp_unparkEnds_same g.val (eng s n.val)
    refine ⟨unparkEnds g.val (eng s n.val), exec_unpark_clean hup hst htile, exec_unpark_corrected hup hst htile, ?_, ?_, ?_,
      tileAt_unparkEnds .., fun h => grp_unparkEnds_other _ _⟩ <;>
      rw [hg]
  · have hexec := exec_unpark_uncorrectable hup hst htile
    rw [parkLost_of_findCmd hk hc] at hexec
    have heng := eng_parkErrs n.val g.val s
    refine ⟨parkErrs n.val g.val s, fun hd => ?_, fun d hd hp => ?_, rfl, rfl, ?_, ?_⟩
    · rw [hexec, failCmd_undecided _ _ hd, key_of_findCmd hc]
    · rw [hexec, failCmd_decided _ _ hd hp, key_of_findCmd hc]
    · rw [heng, grp_groupLost_same]
      rfl
    · rw [heng]
      rfl
  · refine ⟨_, exec_spadWinWrite size w v hup, foldl_updEng_onlyEng .., fun n hn => ?_, fun n hn => ?_⟩
    · exact eng_foldl_updEng_other _ (fun h => absurd (List.mem_range.1 h) (Nat.not_lt.2 hn)) s
    · exact (eng_foldl_updEng _ List.nodup_range (List.mem_range.2 hn) s).trans (winWrite_eq ..)
  · have hbase : 0x01600040 + 8 * w.val = winReg false w := by
      simp only [winReg, Bool.toNat_false]
      omega
    have hsize : 0x01600044 + 8 * w.val = winReg true w := by
      simp only [winReg, Bool.toNat_true]
      omega
    rw [hbase, hsize]
    exact ⟨fun hup => ⟨exec_registerWrite_winReg false w v hup, exec_registerWrite_winReg true w v hup,
      exec_registerWrite_word (p := .bar0) v hup (by decide) rfl⟩, regPeek_winReg false w.isLt .bar0 s,
      regPeek_winReg true w.isLt .bar0 s, rfl⟩
  · rw [startEngine, updEng, eng_setEng_same]
    exact ⟨rfl, rfl⟩

end Sys2Proof.Machine
end

section
/-! PROOFS. Refresh slots and the scrub reads in them (O40): what marking a line's extent leaves, what each outcome of a
read leaves, and what a scrub slot does before it reads. -/

namespace Sys2Proof.Machine

/-! ## Marking the extent of a line (R262) -/

/-- What every step of a read of `line` keeps from memory `a` to memory `b`: the scratchpads and the scrub's own record;
no line gains an error, and none but `line`, if it has one, comes to wait for write-back. -/
structure ReadKeeps (line : Nat) (a b : MemSt) : Prop where
  spad : b.spad = a.spad
  refSlots : b.refSlots = a.refSlots
  scrubCount : b.scrubCount = a.scrubCount
  scrubPasses : b.scrubPasses = a.scrubPasses
  symErr : ∀ w, Tab.get 0 a.symErr w = 0 → Tab.get 0 b.symErr w = 0
  writeBack : ∀ w ∈ b.writeBack, w ∈ a.writeBack ∨ (w = line ∧ Tab.get 0 a.symErr w ≠ 0)

/-- Marking the extent of `line` leaves the error counts, the line's bytes and marks, and every status bit set before. -/
structure MarkKeeps (line : Nat) (a b : MemSt) : Prop where
  read : ReadKeeps line a b
  ue : b.ue = a.ue
  ce : b.ce = a.ce
  chanCe : b.chanCe = a.chanCe
  status : ∀ i, a.status.getLsbD i = true → b.status.getLsbD i = true
  poison : ∀ w ∈ b.poison, w ∈ a.poison
  poisoned : line ∈ a.poison → line ∈ b.poison
  queued : line ∈ a.writeBack → line ∈ b.writeBack
  bytes : ∀ i, i < 64 → Tab.get 0 b.carafe (64 * line + i) = Tab.get 0 a.carafe (64 * line + i)

section
variable {line : Nat} {a b c : MemSt}

theorem ReadKeeps.refl (line : Nat) (a : MemSt) : ReadKeeps line a a :=
  ⟨rfl, rfl, rfl, rfl, fun _ => id, fun _ => .inl⟩

theorem ReadKeeps.trans (h : ReadKeeps line a b) (k : ReadKeeps line b c) : ReadKeeps line a c :=
  ⟨k.spad.trans h.spad, k.refSlots.trans h.refSlots, k.scrubCount.trans h.scrubCount, k.scrubPasses.trans h.scrubPasses,
    fun w hw => k.symErr w (h.symErr w hw), fun w hw => (k.writeBack w hw).elim (h.writeBack w) fun ⟨hl, hn⟩ =>
      .inr ⟨hl, mt (h.symErr w) hn⟩⟩

theorem MarkKeeps.refl (line : Nat) (a : MemSt) : MarkKeeps line a a :=
  ⟨.refl line a, rfl, rfl, rfl, fun _ => id, fun _ => id, id, id, fun _ _ => rfl⟩

theorem MarkKeeps.trans (h : MarkKeeps line a b) (k : MarkKeeps line b c) : MarkKeeps line a c :=
  ⟨h.read.trans k.read, k.ue.trans h.ue, k.ce.trans h.ce, k.chanCe.trans h.chanCe, fun i hi => k.status i (h.status i hi),
    fun w hw => h.poison w (k.poison w hw), k.poisoned ∘ h.poisoned, k.queued ∘ h.queued,
    fun i hi => (k.bytes i hi).trans (h.bytes i hi)⟩

/-- The pool's own record is no part of what is kept. -/
theorem MarkKeeps.pool (h : MarkKeeps line a b) (ext : Tab ExtState) (marked : List Nat) :
    MarkKeeps line a { b with ext := ext, marked := marked } :=
  ⟨⟨h.read.spad, h.read.refSlots, h.read.scrubCount, h.read.scrubPasses, h.read.symErr, h.read.writeBack⟩, h.ue, h.ce,
    h.chanCe, h.status, h.poison, h.poisoned, h.queued, h.bytes⟩

theorem MarkKeeps.flag (h : MarkKeeps line a b) (flags : BitVec 7) :
    MarkKeeps line a { b with status := b.status ||| flags } :=
  ⟨⟨h.read.spad, h.read.refSlots, h.read.scrubCount, h.read.scrubPasses, h.read.symErr, h.read.writeBack⟩, h.ue, h.ce,
    h.chanCe, fun i hi => by simp [h.status i hi], h.poison, h.poisoned, h.queued, h.bytes⟩

end

theorem freeSpare_some {s : State} {x : Nat} (h : freeSpare s = some x) :
    firstSpare ≤ x ∧ (s.flash.retired.find? fun p => p.2 == x) = none := by
  obtain ⟨i, -, rfl⟩ := List.mem_map.1 (List.mem_of_find?_eq_some h)
  have hfree := List.find?_some (p := fun x => !(s.flash.retired.any fun p => p.2 == x)) h
  exact ⟨Nat.le_add_left .., by simpa using hfree⟩

/-- The spare that takes an extent's place is not where the extent lies. -/
theorem freeSpare_ne {s : State} {pa e x : Nat} (he : extentAt s pa = some e) (hx : freeSpare s = some x) :
    pa / extBytes ≠ x := by
  rintro rfl
  obtain ⟨hspare, hfree⟩ := freeSpare_some hx
  have hfw : ¬ pa / extBytes < fwExt := Nat.not_lt.2 (Nat.le_trans (by decide) hspare)
  simp [extentAt, hfw, hfree] at he

/-- Zeroing another extent leaves the line. -/
theorem zeroCarafe_markKeeps {line x : Nat} (h : line * 64 / extBytes ≠ x) (s : State) :
    MarkKeeps line s.mem (zeroCarafe (x * extBytes) extBytes s).mem := by
  have hout : line < x * extBytes / 64 ∨ (x * extBytes + extBytes) / 64 ≤ line := by
    unfold extBytes at *
    omega
  have hbytes (i : Nat) (hi : i < 64) : ¬ (s.mem.locked = false ∧ x * extBytes ≤ 64 * line + i ∧
      64 * line + i < x * extBytes + extBytes) := by
    unfold extBytes at *
    omega
  have hcarafe (i : Nat) (hi : i < 64) := (get_carafe_zeroCarafe (x * extBytes) extBytes s (64 * line + i)).trans
    (if_neg (hbytes i hi))
  by_cases hl : s.mem.locked = true
  · rw [zeroCarafe, if_pos hl]
    exact .refl ..
  · rw [zeroCarafe, if_neg hl] at hcarafe ⊢
    refine ⟨⟨rfl, rfl, rfl, rfl, fun w hw => ?_, fun w hw => .inl ((List.mem_filter.1 hw).1)⟩, rfl, rfl, rfl, fun _ => id,
      fun w hw => (List.mem_filter.1 hw).1, fun hp => List.mem_filter.2 ⟨hp, by simpa using hout⟩,
      fun hq => List.mem_filter.2 ⟨hq, by simpa using hout⟩, hcarafe⟩
    refine (get_filter_keys (fun k => !(decide (x * extBytes / 64 ≤ k) && decide (k < (x * extBytes + extBytes) / 64)))
      ..).trans ?_
    rw [hw, ite_self]

theorem retireExtent_markKeeps {line e f : Nat} {s : State} (h : extentAt s (line * 64) = some f) :
    MarkKeeps line s.mem (retireExtent e s).mem := by
  unfold retireExtent
  split
  next x hx =>
    rw [logEvent_mem]
    have hzero := zeroCarafe_markKeeps (freeSpare_ne h hx) { s with flash := { s.flash with
      retired := s.flash.retired.filter (fun p => p.1 != e) ++ [(e, x)] } }
    exact (hzero.flag _).pool ..
  next => exact ((MarkKeeps.refl line s.mem).flag _).pool ..

theorem markAt_markKeeps (line : Nat) (s : State) : MarkKeeps line s.mem (markAt (line * 64) s).mem := by
  unfold markAt
  split
  next e he =>
    unfold markExtent
    split
    · exact .refl ..
    split
    · exact retireExtent_markKeeps he
    split
    · exact .refl ..
    · exact (MarkKeeps.refl line s.mem).pool ..
  next => exact .refl ..

/-! ## The outcomes of a line's read (R258 to R260, R266) -/

/-- An error that is not corrected is counted and flagged. -/
theorem carafeErr_mem_lost {kind : Nat} (h : kind ≠ 0) (line n : Nat) (s : State) : (carafeErr kind line n s).mem =
    { s.mem with
      errInfo := (carafeErr kind line n s).mem.errInfo, errAddr := (carafeErr kind line n s).mem.errAddr
      ue := satInc s.mem.ue, status := s.mem.status ||| 2 } := by
  simp only [carafeErr, memFlag, if_neg h]
  split <;> rfl

/-- A corrected one is counted for its channel too. -/
theorem carafeErr_mem_corrected (line n : Nat) (s : State) : (carafeErr 0 line n s).mem =
    { s.mem with
      errInfo := (carafeErr 0 line n s).mem.errInfo, errAddr := (carafeErr 0 line n s).mem.errAddr
      ce := s.mem.ce + 1, chanCe := Tab.upd 0 s.mem.chanCe (channelOf (line * 64)) satInc
      status := s.mem.status ||| 1 } := by
  simp only [carafeErr, memFlag, if_true]
  split <;> rfl

theorem carafeErr_readKeeps (kind line n : Nat) (s : State) : ReadKeeps line s.mem (carafeErr kind line n s).mem := by
  by_cases h : kind = 0
  · rw [h, carafeErr_mem_corrected]
    exact ⟨rfl, rfl, rfl, rfl, fun _ => id, fun _ => .inl⟩
  · rw [carafeErr_mem_lost h]
    exact ⟨rfl, rfl, rfl, rfl, fun _ => id, fun _ => .inl⟩

/-- The line is poisoned and has no other mark. -/
def poisonLine (line : Nat) (s : State) : State :=
  { s with mem := { s.mem with
      poison := if line ∈ s.mem.poison then s.mem.poison else s.mem.poison ++ [line]
      symErr := Tab.put 0 s.mem.symErr line 0
      writeBack := s.mem.writeBack.filter (· != line) } }

/-- The corrected line waits for its write-back. -/
def queueLine (line : Nat) (s : State) : State :=
  { s with mem := { s.mem with
      writeBack := if line ∈ s.mem.writeBack then s.mem.writeBack else s.mem.writeBack ++ [line]
      ceLines := Tab.put 0 s.mem.ceLines line 1 } }

theorem get_put_zero {t : Tab Nat} {w : Nat} (h : Tab.get 0 t w = 0) (line : Nat) : Tab.get 0 (Tab.put 0 t line 0) w = 0 := by
  rw [Tab.get_put, h, ite_self]

theorem mem_ite_append {l : List Nat} {x w : Nat} : w ∈ (if x ∈ l then l else l ++ [x]) ↔ w ∈ l ∨ w = x := by
  split
  next h => exact ⟨.inl, fun hw => hw.elim id fun hx => hx ▸ h⟩
  next => simp

theorem poisonLine_readKeeps (line : Nat) (s : State) : ReadKeeps line s.mem (poisonLine line s).mem :=
  ⟨rfl, rfl, rfl, rfl, fun _ hw => get_put_zero hw line, fun _ hw => .inl ((List.mem_filter.1 hw).1)⟩

theorem queueLine_readKeeps {line : Nat} {s : State} (h : Tab.get 0 s.mem.symErr line ≠ 0) :
    ReadKeeps line s.mem (queueLine line s).mem :=
  ⟨rfl, rfl, rfl, rfl, fun _ => id, fun _ hw => (mem_ite_append.1 hw).imp_right fun hl => ⟨hl, hl ▸ h⟩⟩

theorem uncorrectable_mem (kind line reader : Nat) (s : State) : (uncorrectable kind line reader s).mem =
    (markAt (line * 64) (poisonLine line (carafeErr kind line 0xF s))).mem := logEvent_mem ..

theorem uncorrectable_readKeeps (kind line reader : Nat) (s : State) :
    ReadKeeps line s.mem (uncorrectable kind line reader s).mem := by
  rw [uncorrectable_mem]
  exact (carafeErr_readKeeps ..).trans ((poisonLine_readKeeps ..).trans (markAt_markKeeps ..).read)

/-- The line is lost: poisoned, and the uncorrectable error counted (R258, R260). -/
def LineLost (line : Nat) (a b : MemSt) : Prop :=
  line ∈ b.poison ∧ b.ue = satInc a.ue ∧ Tab.get 0 b.symErr line = 0 ∧ b.ce = a.ce ∧ b.status.getLsbD 1 = true

theorem uncorrectable_lineLost {kind : Nat} (h : kind ≠ 0) (line reader : Nat) (s : State) :
    LineLost line s.mem (uncorrectable kind line reader s).mem := by
  have hmark := markAt_markKeeps line (poisonLine line (carafeErr kind line 0xF s))
  have herr := carafeErr_mem_lost h line 0xF s
  rw [uncorrectable_mem]
  have hzero : Tab.get 0 (poisonLine line (carafeErr kind line 0xF s)).mem.symErr line = 0 :=
    Tab.get_put_same (carafeErr kind line 0xF s).mem.symErr line 0
  refine ⟨hmark.poisoned (mem_ite_append.2 (.inr rfl)), hmark.ue.trans ?_, hmark.read.symErr _ hzero, hmark.ce.trans ?_,
    hmark.status 1 ?_⟩
  case refine_3 =>
    rw [poisonLine, herr]
    simp
  all_goals rw [poisonLine, herr]

theorem corrected_markKeeps (line n : Nat) (s : State) :
    MarkKeeps line (queueLine line (carafeErr 0 line n s)).mem (corrected line n s).mem := by
  have h : corrected line n s = let u := queueLine line (carafeErr 0 line n s)
      if 8 ≤ (u.mem.ceLines.filter fun p => p.1 * 64 / extBytes == line * 64 / extBytes).length then markAt (line * 64) u
      else u := rfl
  rw [h]
  extract_lets u
  split
  · exact markAt_markKeeps line u
  · exact .refl line u.mem

theorem corrected_readKeeps {line : Nat} {s : State} (h : Tab.get 0 s.mem.symErr line ≠ 0) (n : Nat) :
    ReadKeeps line s.mem (corrected line n s).mem := by
  refine (carafeErr_readKeeps 0 line n s).trans ((queueLine_readKeeps ?_).trans (corrected_markKeeps ..).read)
  rwa [carafeErr_mem_corrected]

/-- The error is corrected: counted, the line waiting for write-back, its bytes as they were (R259). -/
def LineCorrected (line : Nat) (a b : MemSt) : Prop :=
  b.ce = a.ce + 1 ∧ b.chanCe = Tab.upd 0 a.chanCe (channelOf (line * 64)) satInc ∧ b.ue = a.ue ∧ line ∈ b.writeBack ∧
    (line ∈ b.poison → line ∈ a.poison) ∧ b.status.getLsbD 0 = true ∧
    ∀ i, i < 64 → Tab.get 0 b.carafe (64 * line + i) = Tab.get 0 a.carafe (64 * line + i)

theorem corrected_lineCorrected (line n : Nat) (s : State) : LineCorrected line s.mem (corrected line n s).mem := by
  have hmark := corrected_markKeeps line n s
  have herr := carafeErr_mem_corrected line n s
  refine ⟨hmark.ce.trans ?_, hmark.chanCe.trans ?_, hmark.ue.trans ?_, hmark.queued (mem_ite_append.2 (.inr rfl)),
    fun hp => ?_, hmark.status 0 ?_, fun i hi => (hmark.bytes i hi).trans ?_⟩
  case refine_4 =>
    have hq := hmark.poison line hp
    rw [queueLine, herr] at hq
    exact hq
  case refine_5 =>
    rw [queueLine, herr]
    simp
  all_goals rw [queueLine, herr]

theorem corruptLine_readKeeps (line : Nat) (s : State) : ReadKeeps line s.mem (corruptLine line s).mem :=
  ⟨rfl, rfl, rfl, rfl, fun _ hw => get_put_zero hw line, fun _ => .inl⟩

/-- Errors in more than 6 symbols pass undetected (R258). -/
def LinePassed (line : Nat) (a b : MemSt) : Prop :=
  b.ue = a.ue ∧ b.ce = a.ce ∧ b.poison = a.poison ∧ Tab.get 0 b.symErr line = 0

theorem corruptLine_linePassed (line : Nat) (s : State) : LinePassed line s.mem (corruptLine line s).mem :=
  ⟨rfl, rfl, rfl, Tab.get_put_same s.mem.symErr line 0⟩

theorem readLine_readKeeps (reader line : Nat) (s : State) : ReadKeeps line s.mem (readLine reader line s).2.mem := by
  unfold readLine
  extract_lets kind n
  split
  · exact carafeErr_readKeeps ..
  split
  · exact uncorrectable_readKeeps ..
  split
  · exact .refl ..
  next hn =>
    split
    · exact corrected_readKeeps hn n
    split
    · exact uncorrectable_readKeeps ..
    split
    · exact corruptLine_readKeeps line { s with free := s.free + 1 }
    · exact uncorrectable_readKeeps kind line reader { s with free := s.free + 1 }

/-! ## What the scrubber's read of a line does -/

section
variable {line : Nat} {s : State}

theorem scrubbed_locked (hl : s.mem.locked = true) : (readLine 2 line s).2 = carafeErr 3 line 0xF s := by
  simp only [readLine, hl, if_true]

theorem scrubbed_poisoned (hl : s.mem.locked = false) (hp : line ∈ s.mem.poison) :
    (readLine 2 line s).2 = uncorrectable 3 line 2 s := by
  simp only [readLine, hl, hp, Bool.false_eq_true, if_false, if_true]

variable (hl : s.mem.locked = false) (hp : line ∉ s.mem.poison)
include hl hp

theorem scrubbed_clean (hn : Tab.get 0 s.mem.symErr line = 0) : (readLine 2 line s).2 = s := by
  simp only [readLine, hl, hp, hn, Bool.false_eq_true, if_false, if_true]

theorem scrubbed_correctable (hn : Tab.get 0 s.mem.symErr line = 1 ∨ Tab.get 0 s.mem.symErr line = 2) :
    (readLine 2 line s).2 = corrected line (Tab.get 0 s.mem.symErr line) s := by
  rcases hn with hn | hn <;> simp [readLine, hl, hp, hn]

theorem scrubbed_uncorrectable (h3 : 3 ≤ Tab.get 0 s.mem.symErr line) (h6 : Tab.get 0 s.mem.symErr line ≤ 6) :
    (readLine 2 line s).2 = uncorrectable 3 line 2 s := by
  have h0 : Tab.get 0 s.mem.symErr line ≠ 0 := by omega
  have h2 : ¬ Tab.get 0 s.mem.symErr line ≤ 2 := by omega
  simp only [readLine, hl, hp, h0, h2, h6, Bool.false_eq_true, if_false, if_true]

theorem scrubbed_beyond (h7 : 7 ≤ Tab.get 0 s.mem.symErr line) :
    LineLost line s.mem (readLine 2 line s).2.mem ∨ LinePassed line s.mem (readLine 2 line s).2.mem := by
  have h0 : Tab.get 0 s.mem.symErr line ≠ 0 := by omega
  have h2 : ¬ Tab.get 0 s.mem.symErr line ≤ 2 := by omega
  have h6 : ¬ Tab.get 0 s.mem.symErr line ≤ 6 := by omega
  simp only [readLine, hl, hp, h0, h2, h6, Bool.false_eq_true, if_false, if_true]
  split
  · exact .inr (corruptLine_linePassed line { s with free := s.free + 1 })
  · exact .inl (uncorrectable_lineLost (by decide) line 2 { s with free := s.free + 1 })

end

/-! ## A scrub slot (R255, R259, R261) -/

/-- The scrub read's record, the slots counted anew and the channel's corrected lines written back; the read is to come. -/
def scrubStart (ch : Nat) (s : State) : State :=
  let u := writeBacks ch { s with mem := { s.mem with refSlots := Tab.put 0 s.mem.refSlots ch 0 } }
  { u with mem := { u.mem with
    scrubCount := if u.mem.scrubCount + 1 = carafeLines then 0 else u.mem.scrubCount + 1
    scrubPasses := if u.mem.scrubCount + 1 = carafeLines then u.mem.scrubPasses + 1 else u.mem.scrubPasses } }

theorem scrubStart_mem (ch : Nat) (s : State) : (scrubStart ch s).mem = { s.mem with
    refSlots := Tab.put 0 s.mem.refSlots ch 0
    scrubCount := if s.mem.scrubCount + 1 = carafeLines then 0 else s.mem.scrubCount + 1
    scrubPasses := if s.mem.scrubCount + 1 = carafeLines then s.mem.scrubPasses + 1 else s.mem.scrubPasses
    writeBack := (writeBacks ch s).mem.writeBack, symErr := (writeBacks ch s).mem.symErr } := by
  unfold scrubStart writeBacks
  cases s.mem.locked <;> rfl

theorem scrubStart_touch (ch : Nat) (s : State) : Touch s (scrubStart ch s) := by
  unfold scrubStart writeBacks
  cases s.mem.locked <;> exact Touch.upd (Touch.refl s) rfl

theorem scrub_eq (ch : Nat) (s : State) : scrub ch s = (readLine 2 (scrubTarget ch s) (scrubStart ch s)).2 := by
  have htarget : scrubTarget ch (writeBacks ch { s with mem := { s.mem with refSlots := Tab.put 0 s.mem.refSlots ch 0 } }) =
      scrubTarget ch s := by
    unfold writeBacks
    cases s.mem.locked <;> rfl
  rw [← htarget]
  rfl

theorem get_foldl_put_zero (l : List Nat) (t : Tab Nat) (w : Nat) :
    Tab.get 0 (l.foldl (fun t x => Tab.put 0 t x 0) t) w = if w ∈ l then 0 else Tab.get 0 t w := by
  induction l generalizing t with
  | nil => simp
  | cons x l ih =>
    rw [List.foldl_cons, ih, Tab.get_put]
    by_cases hl : w ∈ l <;> by_cases hx : w = x <;> simp [hl, hx]

section
variable {ch : Nat} {s : State}

theorem scrubStart_locked : (scrubStart ch s).mem.locked = s.mem.locked := by rw [scrubStart_mem]

theorem scrubStart_poison : (scrubStart ch s).mem.poison = s.mem.poison := by rw [scrubStart_mem]

/-- Nothing is written back while Carafe is LOCKED (R266). -/
theorem writeBacks_locked (h : s.mem.locked = true) : writeBacks ch s = s := if_pos h

theorem mem_writeBack_scrubStart (h : s.mem.locked = false) (w : Nat) :
    w ∈ (scrubStart ch s).mem.writeBack ↔ w ∈ s.mem.writeBack ∧ channelOf (w * 64) ≠ ch := by
  rw [scrubStart_mem]
  simp [writeBacks, h]

theorem symErr_scrubStart (h : s.mem.locked = false) (w : Nat) : Tab.get 0 (scrubStart ch s).mem.symErr w =
    if w ∈ s.mem.writeBack ∧ channelOf (w * 64) = ch then 0 else Tab.get 0 s.mem.symErr w := by
  rw [scrubStart_mem]
  simp [writeBacks, h, get_foldl_put_zero]

theorem LineLost.of_scrubStart {line : Nat} {b : MemSt} (h : LineLost line (scrubStart ch s).mem b) :
    LineLost line s.mem b := by
  rw [scrubStart_mem] at h
  exact h

theorem LinePassed.of_scrubStart {line : Nat} {b : MemSt} (h : LinePassed line (scrubStart ch s).mem b) :
    LinePassed line s.mem b := by
  rw [scrubStart_mem] at h
  exact h

theorem LineCorrected.of_scrubStart {line : Nat} {b : MemSt} (h : LineCorrected line (scrubStart ch s).mem b) :
    LineCorrected line s.mem b := by
  rw [scrubStart_mem] at h
  exact h

end

theorem channelOf_scrubTarget {ch : Nat} (h : ch < 24) (s : State) : channelOf (scrubTarget ch s * 64) = ch := by
  have hline (c x : Nat) : ((24 * c + ch) * 256 + x % 4 * 64) / 64 * 64 / 256 % 24 = ch := by omega
  exact hline _ _

/-! ## The obligation -/

theorem exec_refresh {s : State} (ch : Fin 24) (hup : isUp s = true) : exec (.refresh ch) s = .next { s with mem := { s.mem with
    refSlots := Tab.put 0 s.mem.refSlots ch.val (min (Tab.get 0 s.mem.refSlots ch.val + 1) 8) } } :=
  congrArg _ (if_pos hup)

theorem exec_scrubRead_early {s : State} {ch : Fin 24} (h : Tab.get 0 s.mem.refSlots ch.val < 8) :
    exec (.scrubRead ch) s = .next s := by
  simp [exec, execScrubRead, refreshSlots, Nat.not_le.2 h]

theorem exec_scrubRead {s : State} {ch : Fin 24} (hup : isUp s = true) (h : 8 ≤ Tab.get 0 s.mem.refSlots ch.val) :
    exec (.scrubRead ch) s = .next (readLine 2 (scrubTarget ch.val s) (scrubStart ch.val s)).2 := by
  simp [exec, execScrubRead, refreshSlots, hup, h, scrub_eq]

/-- Settles O40: the slot's beginning, then the read of its line by what the line has: a lock, poison, or a number of
symbol errors. -/
theorem refreshAndScrub : Obligations.RefreshAndScrub := by
  unfold Obligations.RefreshAndScrub
  intro ch s hup
  refine ⟨exec_refresh ch hup, exec_scrubRead_early, fun h8 => ⟨_, exec_scrubRead hup h8, ?_⟩⟩
  have htouch := (scrubStart_touch ch.val s).trans (readLine_touch 2 (scrubTarget ch.val s) _)
  have hread := readLine_readKeeps 2 (scrubTarget ch.val s) (scrubStart ch.val s)
  refine ⟨htouch.queues, htouch.cmds, fun hs hp hl => ?_, hread.spad.trans ?_, hread.refSlots.trans ?_,
    hread.scrubCount.trans ?_, fun hn => hread.scrubPasses.trans ?_, fun hn => hread.scrubPasses.trans ?_,
    channelOf_scrubTarget ch.isLt s, fun hl => ?_, fun hl => ?_⟩
  · have hzero : Tab.get 0 (scrubStart ch.val s).mem.symErr (scrubTarget ch.val s) = 0 := by
      rw [symErr_scrubStart hl, hs]
      exact ite_self _
    rw [scrubbed_clean (scrubStart_locked.trans hl) (by simp [scrubStart_poison, hp]) hzero, scrubStart_mem]
    exact ⟨rfl, rfl⟩
  · rw [scrubStart_mem]
  · rw [scrubStart_mem]
  · rw [scrubStart_mem]
    rfl
  · rw [scrubStart_mem]
    exact if_pos hn
  · rw [scrubStart_mem]
    exact if_neg hn
  · rw [scrubbed_locked (scrubStart_locked.trans hl), carafeErr_mem_lost (by decide), scrubStart_mem, writeBacks_locked hl]
    exact ⟨rfl, rfl, rfl, rfl⟩
  have hl' : (scrubStart ch.val s).mem.locked = false := scrubStart_locked.trans hl
  refine ⟨fun w hw hch => ?_, fun hp => ?_, fun hp hq => ?_⟩
  · have hzero : Tab.get 0 (scrubStart ch.val s).mem.symErr w = 0 := (symErr_scrubStart hl w).trans (if_pos ⟨hw, hch⟩)
    refine ⟨hread.symErr w hzero, fun hmem => ?_⟩
    exact (hread.writeBack w hmem).elim (fun h => ((mem_writeBack_scrubStart hl w).1 h).2 hch) fun h => h.2 hzero
  · rw [scrubbed_poisoned hl' (by rwa [scrubStart_poison])]
    exact (uncorrectable_lineLost (by decide) ..).of_scrubStart
  · have hp' : scrubTarget ch.val s ∉ (scrubStart ch.val s).mem.poison := by
      rwa [scrubStart_poison]
    have hn : Tab.get 0 (scrubStart ch.val s).mem.symErr (scrubTarget ch.val s) =
        Tab.get 0 s.mem.symErr (scrubTarget ch.val s) := (symErr_scrubStart hl _).trans (if_neg fun h => hq h.1)
    rw [← hn]
    refine ⟨fun h0 => ?_, fun h12 => ?_, fun h3 h6 => ?_, fun h7 => ?_⟩
    · rw [scrubbed_clean hl' hp' h0, scrubStart_mem]
      exact ⟨rfl, rfl, rfl⟩
    · rw [scrubbed_correctable hl' hp' h12]
      obtain ⟨hce, hchan, hue, hqueued, hpois, hst, hbytes⟩ := (corrected_lineCorrected ..).of_scrubStart
      rw [channelOf_scrubTarget ch.isLt s] at hchan
      exact ⟨hce, hchan, hue, hqueued, mt hpois hp, hst, hbytes⟩
    · rw [scrubbed_uncorrectable hl' hp' h3 h6]
      exact (uncorrectable_lineLost (by decide) ..).of_scrubStart
    · exact (scrubbed_beyond hl' hp' h7).imp LineLost.of_scrubStart LinePassed.of_scrubStart

end Sys2Proof.Machine
end

section
/-! PROOFS. The flits of a message (R481): how many there are, and what each carries. -/

namespace Sys2Proof

@[simp] theorem slice_length (o n : Nat) (bs : List Byte) : (slice o n bs).length = n := by
  simp only [slice, List.length_append, List.length_take, List.length_replicate]
  omega

/-- A byte past the end reads as 0, in a slice as in the list. -/
theorem slice_getD {n j : Nat} (h : j < n) (o : Nat) (bs : List Byte) :
    (slice o n bs).getD j 0 = bs.getD (o + j) 0 := by
  simp only [slice, List.getD_eq_getElem?_getD, List.getElem?_append, List.length_take, List.length_drop]
  split
  case isTrue hin => rw [List.getElem?_take_of_lt h, List.getElem?_drop]
  case isFalse hout =>
    have hpast : bs.length ≤ o + j := by omega
    have hzero : (List.replicate (n - min n (bs.length - o)) (0 : Byte))[j - min n (bs.length - o)]? = some 0 := by
      rw [List.getElem?_replicate, if_pos (by omega)]
    rw [hzero, List.getElem?_eq_none hpast]
    rfl

theorem slice_drop (o n d : Nat) (bs : List Byte) : slice o n (bs.drop d) = slice (d + o) n bs := by
  simp only [slice, List.drop_drop]

namespace Machine

/-- Flit `k` of the bytes of a message, which begins with them if `first`. -/
def messageFlit (vc : Nat) (first : Bool) (bs : List Byte) (k : Nat) : Flit :=
  { bareFlit 1 with
    vc := BitVec.ofNat 2 vc, som := first && k == 0, eom := (bs.drop (224 * (k + 1))).isEmpty
    payload := slice (224 * k) 224 bs }

theorem messageFlit_drop (vc : Nat) (first : Bool) (bs : List Byte) (k : Nat) :
    messageFlit vc false (bs.drop 224) k = messageFlit vc first bs (k + 1) := by
  have hoff (m : Nat) : 224 + 224 * m = 224 * (m + 1) := by omega
  simp [messageFlit, slice_drop, List.drop_drop, hoff]

theorem msgFlits_length (vc n : Nat) (first : Bool) (bs : List Byte) (hne : bs ≠ []) (hn : bs.length ≤ 224 * n) :
    (msgFlits vc n first bs).length = (bs.length + 223) / 224 := by
  induction n generalizing first bs with
  | zero => exact absurd (List.length_eq_zero_iff.1 (by omega)) hne
  | succ n ih =>
    have hpos := List.length_pos_iff.2 hne
    by_cases hrest : bs.drop 224 = []
    · have hshort := List.drop_eq_nil_iff.1 hrest
      simp only [msgFlits, hrest, List.isEmpty_nil, if_true, List.length_singleton]
      omega
    · have hlong := mt List.drop_eq_nil_iff.2 hrest
      have htail := ih false (bs.drop 224) hrest (by rw [List.length_drop]; omega)
      simp only [msgFlits, List.isEmpty_eq_false_iff.2 hrest, Bool.false_eq_true, if_false, List.length_cons, htail,
        List.length_drop]
      omega

theorem msgFlits_getElem? {vc n k : Nat} {first : Bool} {bs : List Byte} {g : Flit}
    (h : (msgFlits vc n first bs)[k]? = some g) : g = messageFlit vc first bs k := by
  induction n generalizing first bs k with
  | zero => simp [msgFlits] at h
  | succ n ih =>
    cases k with
    | zero =>
      cases Option.some.inj h
      simp [messageFlit]
    | succ k =>
      rw [msgFlits, List.getElem?_cons_succ] at h
      split at h
      · simp at h
      · rw [ih h, messageFlit_drop]

theorem msgBytes_length (m : Msg) : (msgBytes m).length = 16 + m.body.length := by
  simp only [msgBytes, List.length_append, leBytes_length]

theorem msgFlits_msgBytes_length (vc : Nat) (m : Msg) :
    (msgFlits vc ((msgBytes m).length / 224 + 1) true (msgBytes m)).length = ((msgBytes m).length + 223) / 224 := by
  refine msgFlits_length _ _ _ _ (List.ne_nil_of_length_pos ?_) (by omega)
  rw [msgBytes_length]
  omega

/-- A message's flits: SOM on the first, EOM on the one after which no byte is left, its bytes in order. -/
theorem msgFlits_spec {vc k : Nat} {m : Msg} {g : Flit} (hvc : vc < 4)
    (h : (msgFlits vc ((msgBytes m).length / 224 + 1) true (msgBytes m))[k]? = some g) :
    g.kind = 1 ∧ g.vc.toNat = vc ∧ (g.som = true ↔ k = 0) ∧ (g.eom = true ↔ k + 1 = ((msgBytes m).length + 223) / 224) ∧
      g.payload.length = 224 ∧ ∀ j, j < 224 → g.payload.getD j 0 = (msgBytes m).getD (224 * k + j) 0 := by
  have hk := (List.getElem?_eq_some_iff.1 h).1
  rw [msgFlits_msgBytes_length] at hk
  cases msgFlits_getElem? h
  have heom : (messageFlit vc true (msgBytes m) k).eom = true ↔ k + 1 = ((msgBytes m).length + 223) / 224 := by
    simp only [messageFlit, List.isEmpty_iff, List.drop_eq_nil_iff]
    omega
  exact ⟨rfl, BitVec.toNat_ofNat vc 2 ▸ Nat.mod_eq_of_lt hvc, by simp [messageFlit], heom, slice_length ..,
    fun j hj => slice_getD hj ..⟩

end Machine
end Sys2Proof
end

section
/-! PROOFS. Flits, acknowledgement and retry on a Kweow link (O49): what each step of the receiver and of the retry
does to the link's record. -/

namespace Sys2Proof.Machine

/-! ## A link's record after an update -/

@[simp] theorem lnk_updLnk (l : Nat) (f : Link → Link) (s : State) : lnk (updLnk l f s) l = f (lnk s l) := lnk_setLnk ..

theorem lnk_emit (x : Sent) (s : State) (l : Nat) : lnk (emit x s) l = lnk s l := rfl

theorem lnk_ite_icuSend (c : Prop) [Decidable c] (src : Nat) (s : State) (l : Nat) :
    lnk (if c then icuSend src s else s) l = lnk s l := by
  split <;> rfl

theorem lnk_kwFlag (n : Nat) (s : State) (l : Nat) : lnk (kwFlag n s) l = lnk s l := rfl

theorem lnk_of_kw {a s : State} (h : s.kw = a.kw) (l : Nat) : lnk s l = lnk a l :=
  congrArg (fun k : KwSt => Tab.get Link.init k.links l) h

theorem sealable_iff {s : State} {l : Nat} :
    sealable s l = true ↔ (lnk s l).encrypted = false ∨ s.mem.wipeFailed = false := by
  simp [sealable]

/-- Nothing but a link's encryption decides, of its record, whether its flits can be sealed. -/
theorem sealable_setLnk {s : State} {l : Nat} {y : Link} (h : y.encrypted = (lnk s l).encrypted) :
    sealable (setLnk l y s) l = sealable s l := by
  simp only [sealable, lnk_setLnk, h]
  rfl

theorem LinkOut.sealable {a s : State} (h : LinkOut a s) (l : Nat) : sealable s l = Machine.sealable a l := by
  have hmem : s.mem = a.mem := (congrArg State.mem h.rest :)
  have henc : (lnk s l).encrypted = (lnk a l).encrypted := (congrArg Link.encrypted (h.link l) :)
  simp only [Machine.sealable, hmem, henc]

/-! ## Sending (R473, R477, R480) -/

/-- Flits none of which has credit stay queued. -/
theorem pump_of_no_credit {l : Nat} {s : State} (h : ∀ g ∈ (lnk s l).queued, hasCredit (lnk s l) g.vc.toNat = false) :
    pump l s = s := by
  have hnone : ((lnk s l).queued.find? fun g => hasCredit (lnk s l) g.vc.toNat) = none :=
    List.find?_eq_none.2 fun g hg => by simp [h g hg]
  have hstay (n : Nat) : pumpLink l n s = s := by
    cases n with
    | zero => rfl
    | succ n => simp only [pumpLink, hnone]
  rw [pump, hstay, ite_self]

theorem pump_of_no_queue {l : Nat} {s : State} (h : (lnk s l).queued = []) : pump l s = s :=
  pump_of_no_credit fun g hg => by simp [h] at hg

theorem kwSend_of_no_credit {l : Nat} {m : Msg} {s : State} (hst : (lnk s l).st = .active)
    (h : ∀ g ∈ (lnk s l).queued ++ msgFlits m.vc ((msgBytes m).length / 224 + 1) true (msgBytes m),
      hasCredit (lnk s l) g.vc.toNat = false) :
    kwSend l m s = setLnk l { lnk s l with
      queued := (lnk s l).queued ++ msgFlits m.vc ((msgBytes m).length / 224 + 1) true (msgBytes m) } s := by
  rw [kwSend, if_pos (beq_iff_eq.2 hst)]
  refine pump_of_no_credit fun g hg => ?_
  rw [lnk_updLnk] at hg ⊢
  exact h g hg

theorem lnk_flitOut (l : Nat) (f : Flit) (s : State) :
    ∃ k, lnk (flitOut l f s) l = { lnk s l with sinceAlign := k } := by
  unfold flitOut
  extract_lets u
  have hu : ∃ k, lnk u l = { lnk s l with sinceAlign := k } := by
    by_cases hfull : 4095 ≤ (lnk s l).sinceAlign
    · exact ⟨0, by simp only [u, if_pos hfull, lnk_emit, lnk_updLnk]⟩
    · exact ⟨(lnk s l).sinceAlign, by simp only [u, if_neg hfull]⟩
  obtain ⟨k, hk⟩ := hu
  exact ⟨k + 1, by rw [lnk_emit, lnk_updLnk, hk]⟩

theorem flitOut_getLast? (l : Nat) (f : Flit) (s : State) :
    (flitOut l f s).sent.getLast? = some (.flit l { f with parity := flitCode f }) :=
  List.getLast?_concat

theorem flitOut_cmds (l : Nat) (f : Flit) (s : State) : (flitOut l f s).cmds = s.cmds :=
  (congrArg State.cmds (flitOut_linkOut l f s).rest :)

/-- A RETRY_REQ or IDLE flit that can be sealed goes out last and leaves the link but for the alignment count. -/
theorem sendBare_sent {l : Nat} {s : State} (kind : Nat) (h : sealable s l = true) :
    ∃ g k, (sendBare l kind s).sent.getLast? = some (.flit l g) ∧ g.kind = BitVec.ofNat 8 kind ∧
      (sendBare l kind s).cmds = s.cmds ∧ lnk (sendBare l kind s) l = { lnk s l with sinceAlign := k } := by
  rw [sendBare, if_pos h]
  obtain ⟨k, hk⟩ := lnk_flitOut l _ s
  exact ⟨_, k, flitOut_getLast? .., rfl, flitOut_cmds .., hk⟩

/-! ## Corrected flits (R473) -/

section
variable {l n : Nat} {s : State}

/-- What holds of the state and of it with any count of corrected flits holds with this count. -/
theorem fecCount_induction {P : State → Prop} (hsame : P s)
    (hcount : ∀ c, P (setLnk l { lnk s l with fecCorr := c } s)) : P (fecCount l n s) := by
  unfold fecCount
  split
  · exact hcount _
  · exact hsame

theorem lnk_fecCount : ∃ c, lnk (fecCount l n s) l = { lnk s l with fecCorr := c } :=
  fecCount_induction (P := fun u => ∃ c, lnk u l = { lnk s l with fecCorr := c }) ⟨_, rfl⟩ fun c => ⟨c, lnk_setLnk ..⟩

theorem rxIv_fecCount (lsn : Nat) : rxIv (fecCount l n s) l lsn = rxIv s l lsn :=
  fecCount_induction (P := fun u => rxIv u l lsn = rxIv s l lsn) rfl fun c => by
    simp only [rxIv, weAreHigher, lnk_setLnk, setLnk_fuse]

theorem sealable_fecCount : sealable (fecCount l n s) l = sealable s l :=
  fecCount_induction (P := fun u => sealable u l = sealable s l) rfl fun _ => sealable_setLnk rfl

/-- The count of corrected flits has no part in what verifies. -/
theorem flitGood_fecCount (lsn : Nat) (f : Flit) (m : Nat) :
    flitGood (fecCount l n s) l lsn f m = flitGood s l lsn f m := by
  obtain ⟨c, hc⟩ := lnk_fecCount (l := l) (n := n) (s := s)
  simp only [flitGood, sealable_fecCount, rxIv_fecCount, hc]
  rfl

theorem waitsOn_fecCount (c : Cmd) : c.waitsOn (fecCount l n s) l = c.waitsOn s l :=
  fecCount_induction (P := fun u => c.waitsOn u l = c.waitsOn s l) rfl fun _ => rfl

theorem fecCount_cmds : (fecCount l n s).cmds = s.cmds :=
  fecCount_induction (P := fun u => u.cmds = s.cmds) rfl fun _ => rfl

theorem fecCount_sent : (fecCount l n s).sent = s.sent :=
  fecCount_induction (P := fun u => u.sent = s.sent) rfl fun _ => rfl

theorem flitGood_spec {lsn : Nat} {f : Flit} (h : flitGood s l lsn f n = true) :
    sealable s l = true ∧ n ≤ 8 ∧ f.parity = flitCode f ∧ f.epoch = (lnk s l).epoch := by
  simp only [flitGood, codeOk, Bool.and_eq_true, beq_iff_eq, decide_eq_true_eq] at h
  obtain ⟨⟨⟨hseal, hn, hcode⟩, hepoch⟩, -⟩ := h
  exact ⟨hseal, hn, hcode, hepoch⟩

end

/-! ## Acknowledgement (R476) -/

/-- How many flits a flit acknowledges, counted from the oldest of the last `held` before extended LSN `next`. -/
def ackCount (f : Flit) (next held : Nat) : Nat := (f.ack.toNat + 1 + 2 ^ 24 - (next - held) % 2 ^ 24) % 2 ^ 24

/-- A link of which a flit acknowledges the oldest `n`, with the flit's freed counts. -/
def ackedBy (n : Nat) (f : Flit) (x : Link) : Link :=
  { x with
    unacked := if n ≤ x.unacked.length then x.unacked.drop n else x.unacked
    retriesInRow := if 1 ≤ n ∧ n ≤ x.unacked.length then 0 else x.retriesInRow
    peerFreed := [f.cum0.toNat, f.cum1.toNat, f.cum2.toNat] }

section
variable (n : Nat) (f : Flit) (x : Link)

theorem ackedBy_unacked : (ackedBy n f x).unacked = if n ≤ x.unacked.length then x.unacked.drop n else x.unacked := rfl
theorem ackedBy_retriesInRow :
    (ackedBy n f x).retriesInRow = if 1 ≤ n ∧ n ≤ x.unacked.length then 0 else x.retriesInRow := rfl
theorem ackedBy_peerFreed : (ackedBy n f x).peerFreed = [f.cum0.toNat, f.cum1.toNat, f.cum2.toNat] := rfl
theorem ackedBy_queued : (ackedBy n f x).queued = x.queued := rfl
theorem ackedBy_rxLsn : (ackedBy n f x).rxLsn = x.rxLsn := rfl

theorem linkRest_ackedBy : ∃ r, linkRest (ackedBy n f x) =
    linkRest { x with retriesInRow := r, peerFreed := [f.cum0.toNat, f.cum1.toNat, f.cum2.toNat] } := ⟨_, rfl⟩

/-- A flit that acknowledges nothing new brings only its freed counts. -/
theorem ackedBy_zero : ackedBy 0 f x = { x with peerFreed := [f.cum0.toNat, f.cum1.toNat, f.cum2.toNat] } := by
  simp [ackedBy]

end

theorem takeAck_eq (l : Nat) (f : Flit) (s : State) : takeAck l f s =
    pump l (setLnk l (ackedBy (ackCount f (lnk s l).txLsn (lnk s l).unacked.length) f (lnk s l)) s) := by
  unfold takeAck ackedBy ackCount
  rfl

/-- What the acknowledgement and the flits that then go out leave of the link. -/
theorem linkRest_takeAck (l : Nat) (f : Flit) (s : State) : ∃ r, linkRest (lnk (takeAck l f s) l) =
    linkRest { lnk s l with retriesInRow := r, peerFreed := [f.cum0.toNat, f.cum1.toNat, f.cum2.toNat] } := by
  rw [takeAck_eq, (pump_linkOut ..).link, lnk_setLnk]
  exact linkRest_ackedBy ..

theorem takeAck_of_no_queue {l : Nat} (f : Flit) {s : State} (h : (lnk s l).queued = []) : takeAck l f s =
    setLnk l (ackedBy (ackCount f (lnk s l).txLsn (lnk s l).unacked.length) f (lnk s l)) s := by
  rw [takeAck_eq]
  exact pump_of_no_queue (by rw [lnk_setLnk, ackedBy_queued, h])

/-! ## A payload joins its message (R481) -/

section
variable {l : Nat} {f : Flit} {p b : List Byte} {s : State}

/-- The payload of a virtual channel's message so far. -/
def partialMsg (x : Link) (vc : Nat) : Option (List Byte) := (x.asm.find? fun a => a.1 == vc).map (·.2)

theorem assemble_of_none (hsom : f.som = false) (h : partialMsg (lnk s l) f.vc.toNat = none) :
    assemble l f p s = s := by
  unfold partialMsg at h
  simp only [assemble, hsom, h, Bool.false_eq_true, if_false, Option.map_none]

/-- The message with the payload `p` of flit `f`: begun with it, or gone on with. -/
def Joins (x : Link) (f : Flit) (p b : List Byte) : Prop :=
  (f.som = true ∧ b = p) ∨ (f.som = false ∧ ∃ a, partialMsg x f.vc.toNat = some a ∧ b = a ++ p)

theorem Joins.eq {x : Link} (h : Joins x f p b) :
    (if f.som then some p else (partialMsg x f.vc.toNat).map (· ++ p)) = some b := by
  rcases h with ⟨hsom, rfl⟩ | ⟨hsom, a, ha, rfl⟩
  · rw [if_pos hsom]
  · simp [hsom, ha]

theorem lnk_assemble_more (hb : Joins (lnk s l) f p b) (heom : f.eom = false) (hlen : b.length ≤ 66000) :
    lnk (assemble l f p s) l = { lnk s l with
      asm := ((lnk s l).asm.filter fun a => a.1 != f.vc.toNat) ++ [(f.vc.toNat, b)] } := by
  have h := hb.eq
  unfold partialMsg at h
  simp only [assemble, h, heom, Bool.not_false, if_true, lnk_updLnk, if_pos hlen]

theorem lnk_assemble_last (hb : Joins (lnk s l) f p b) (heom : f.eom = true) :
    lnk (assemble l f p s) l = { lnk s l with
      asm := (lnk s l).asm.filter fun a => a.1 != f.vc.toNat
      inbox := (lnk s l).inbox ++ (parseMsg f.vc.toNat b).toList } := by
  have h := hb.eq
  unfold partialMsg at h
  simp only [assemble, h, heom, Bool.not_true, Bool.false_eq_true, if_false]
  cases hm : parseMsg f.vc.toNat b with
  | none => simp
  | some m => simp [lnk_ite_icuSend]

/-- Only the messages of the link change. -/
theorem lnk_assemble : ∃ a i, lnk (assemble l f p s) l = { lnk s l with asm := a, inbox := i } := by
  unfold assemble
  extract_lets vc x had rest
  split
  · exact ⟨_, _, rfl⟩
  · split
    · exact ⟨_, _, lnk_updLnk ..⟩
    · split
      · exact ⟨_, _, lnk_updLnk ..⟩
      · dsimp only
        rw [lnk_ite_icuSend]
        exact ⟨_, _, lnk_updLnk ..⟩

end

/-! ## DATA flits (R476) -/

/-- A link with the next DATA flit counted as taken. -/
def taken (f : Flit) (x : Link) : Link :=
  { x with rxLsn := x.rxLsn + 1, rx := x.rx + 1, freedVc := vcInc x.freedVc f.vc.toNat }

section
variable {l n lsn : Nat} {f : Flit} {s : State}

theorem dataFlit_eq (h : extendLsn (lnk s l) f.lsn.toNat = some lsn) :
    dataFlit l f n s = takeFlit l f n lsn (lnk s l) (fecCount l n s) := by
  simp only [dataFlit, h]

theorem dataFlit_next (h : extendLsn (lnk s l) f.lsn.toNat = some lsn) (hnext : lsn = (lnk s l).rxLsn)
    (hgood : flitGood s l lsn f n = true) :
    dataFlit l f n s = takeAck l f (assemble l f (flitCrypt (lnk s l) (rxIv s l lsn) f.payload)
      (updLnk l (taken f) (fecCount l n s))) := by
  have hnew : ¬(lsn < (lnk s l).rxLsn ∧ (lnk s l).rxLsn ≤ lsn + 512) := by omega
  rw [dataFlit_eq h, takeFlit, if_neg hnew, flitGood_fecCount, if_pos ⟨hnext, hgood⟩, rxIv_fecCount]
  rfl

theorem dataFlit_dup (h : extendLsn (lnk s l) f.lsn.toNat = some lsn) (hold : lsn < (lnk s l).rxLsn)
    (hnear : (lnk s l).rxLsn ≤ lsn + 512) :
    dataFlit l f n s = updLnk l (fun x => { x with dup := satInc x.dup })
      (if flitGood s l lsn f n then takeAck l f (fecCount l n s) else fecCount l n s) := by
  rw [dataFlit_eq h, takeFlit, if_pos ⟨hold, hnear⟩, flitGood_fecCount]

theorem dataFlit_retry (h : extendLsn (lnk s l) f.lsn.toNat = none ∨
      ∃ lsn, extendLsn (lnk s l) f.lsn.toNat = some lsn ∧ ((lnk s l).rxLsn < lsn ∨ lsn + 512 < (lnk s l).rxLsn ∨
        (lsn = (lnk s l).rxLsn ∧ flitGood s l lsn f n = false))) :
    dataFlit l f n s = askRetry l (fecCount l n s) := by
  rcases h with hnone | ⟨lsn, hsome, hbad⟩
  · simp only [dataFlit, hnone]
  · have hdup : ¬(lsn < (lnk s l).rxLsn ∧ (lnk s l).rxLsn ≤ lsn + 512) := by omega
    have hnext : ¬(lsn = (lnk s l).rxLsn ∧ flitGood s l lsn f n = true) := by
      rintro ⟨heq, hgood⟩
      rcases hbad with hlt | hgt | ⟨-, hbad⟩
      · omega
      · omega
      · simp [hgood] at hbad
    rw [dataFlit_eq hsome, takeFlit, if_neg hdup, flitGood_fecCount, if_neg hnext]

/-- A RETRY_REQ goes out last, and the commands that wait on the link count it. -/
theorem askRetry_spec (h : sealable s l = true) : ∃ g k,
    (askRetry l s).sent.getLast? = some (.flit l g) ∧ g.kind = 2 ∧
    (askRetry l s).cmds =
      s.cmds.map (fun c => if c.waitsOn s l then { c with retryWaits := satInc c.retryWaits } else c) ∧
    lnk (askRetry l s) l = { lnk s l with sinceAlign := k } :=
  sendBare_sent 2 h

theorem askRetry_fecCount (h : sealable s l = true) : ∃ g c k,
    (askRetry l (fecCount l n s)).sent.getLast? = some (.flit l g) ∧ g.kind = 2 ∧
    (askRetry l (fecCount l n s)).cmds =
      s.cmds.map (fun c => if c.waitsOn s l then { c with retryWaits := satInc c.retryWaits } else c) ∧
    lnk (askRetry l (fecCount l n s)) l = { lnk s l with fecCorr := c, sinceAlign := k } := by
  obtain ⟨c, hc⟩ := lnk_fecCount (l := l) (n := n) (s := s)
  obtain ⟨g, k, hsent, hkind, hcmds, hlnk⟩ := askRetry_spec (sealable_fecCount (n := n).trans h)
  simp only [waitsOn_fecCount, fecCount_cmds] at hcmds
  rw [hc] at hlnk
  exact ⟨g, c, k, hsent, hkind, hcmds, hlnk⟩

end

/-! ## Retry (R477) -/

/-- One unacknowledged flit, with its place among them, is sent again unless it lies before extended LSN `n`. -/
def resendOne (l n oldest : Nat) (s : State) (p : Nat × Flit) : State :=
  if oldest + p.1 < n ∨ !sealable s l then s
  else flitOut l (sealFlit s l (oldest + p.1) p.2) (updLnk l (fun x => { x with tx := x.tx + 1 }) s)

theorem resendFrom_eq (l n : Nat) (s : State) : resendFrom l n s =
    ((List.range (lnk s l).unacked.length).zip (lnk s l).unacked).foldl
      (resendOne l n ((lnk s l).txLsn - (lnk s l).unacked.length)) s := rfl

theorem resendOne_linkOut (l n oldest : Nat) (s : State) (p : Nat × Flit) : LinkOut s (resendOne l n oldest s p) :=
  LinkOut.ite (LinkOut.refl s)
    ((updLnk_linkOut l (fun x => { x with tx := x.tx + 1 }) s rfl).trans (flitOut_linkOut ..))

theorem lnk_resendOne {l : Nat} {s : State} (h : sealable s l = true) (oldest : Nat) (p : Nat × Flit) :
    ∃ k, lnk (resendOne l 0 oldest s p) l = { lnk s l with tx := (lnk s l).tx + 1, sinceAlign := k } := by
  have hgo : ¬(oldest + p.1 < 0 ∨ (!sealable s l) = true) := by simp [h]
  rw [resendOne, if_neg hgo]
  obtain ⟨k, hk⟩ := lnk_flitOut l (sealFlit s l (oldest + p.1) p.2) (updLnk l (fun x => { x with tx := x.tx + 1 }) s)
  exact ⟨k, by rw [hk, lnk_updLnk]⟩

theorem lnk_foldl_resendOne {l : Nat} (oldest : Nat) (ps : List (Nat × Flit)) {s : State} (h : sealable s l = true) :
    ∃ k, lnk (ps.foldl (resendOne l 0 oldest) s) l =
      { lnk s l with tx := (lnk s l).tx + BitVec.ofNat 64 ps.length, sinceAlign := k } := by
  induction ps generalizing s with
  | nil => exact ⟨(lnk s l).sinceAlign, by simp⟩
  | cons p ps ih =>
    obtain ⟨j, hj⟩ := lnk_resendOne h oldest p
    obtain ⟨k, hk⟩ := ih ((resendOne_linkOut l 0 oldest s p).sealable l ▸ h)
    have hcount : (lnk s l).tx + 1 + BitVec.ofNat 64 ps.length = (lnk s l).tx + BitVec.ofNat 64 (ps.length + 1) := by
      have hone : BitVec.ofNat 64 (ps.length + 1) = 1 + BitVec.ofNat 64 ps.length :=
        (congrArg _ (Nat.add_comm ..)).trans (BitVec.ofNat_add ..)
      rw [hone, BitVec.add_assoc]
    exact ⟨k, by rw [List.foldl_cons, hk, hj, hcount, List.length_cons]⟩

theorem lnk_resendFrom {l : Nat} {s : State} (h : sealable s l = true) : ∃ k, lnk (resendFrom l 0 s) l =
    { lnk s l with tx := (lnk s l).tx + BitVec.ofNat 64 (lnk s l).unacked.length, sinceAlign := k } := by
  rw [resendFrom_eq]
  simpa using lnk_foldl_resendOne _ ((List.range (lnk s l).unacked.length).zip (lnk s l).unacked) h

/-- A retry counts itself and sends each unacknowledged flit once. -/
theorem lnk_retryFrom {l : Nat} {s : State} (h : sealable s l = true) (hfew : (lnk s l).retriesInRow < 16) :
    ∃ k, lnk (retryFrom l 0 s) l = { lnk s l with
      retries := satInc (lnk s l).retries, retriesInRow := (lnk s l).retriesInRow + 1
      tx := (lnk s l).tx + BitVec.ofNat 64 (lnk s l).unacked.length, sinceAlign := k } := by
  rw [retryFrom, if_neg (Nat.not_le.2 hfew)]
  obtain ⟨k, hk⟩ := lnk_resendFrom (l := l) (s := updLnk l (fun x => { x with
    retries := satInc x.retries, retriesInRow := x.retriesInRow + 1 }) s) (by
      rw [sealable, lnk_updLnk]
      exact h)
  exact ⟨k, by rw [hk, lnk_updLnk]⟩

/-! ## A link leaves ACTIVE (R472, R477) -/

@[simp] theorem logEvent_kw (code source : Nat) (data : List Nat) (s : State) :
    (logEvent code source data s).kw = s.kw := by
  unfold logEvent logSev
  extract_lets room
  split <;> rfl

@[simp] theorem runAlone_kw (b : Nat) (s : State) : (runAlone b s).kw = s.kw := by
  unfold runAlone
  extract_lets hit any u
  split <;> rfl

@[simp] theorem linkAlone_kw (l : Nat) (s : State) : (linkAlone l s).kw = s.kw := by
  unfold linkAlone
  refine List.foldlRecOn (motive := fun t : State => t.kw = s.kw) _ _ rfl fun t ht b _ => ?_
  split
  · rw [runAlone_kw, ht]
  · exact ht

theorem lnk_linkTo_of_active {l : Nat} {s : State} (st : LState) (h : (lnk s l).st = .active) :
    lnk (linkTo l st s) l = { lnk s l with
      st := st, sameInst := false, encrypted := false, retrains := satInc (lnk s l).retrains } := by
  rw [linkTo]
  dsimp only
  rw [if_pos h, lnk_of_kw (linkAlone_kw ..), lnk_of_kw (logEvent_kw ..), lnk_kwFlag,
    lnk_updLnk, lnk_updLnk]

/-- After 16 retries without progress the link goes through HOLDOFF. -/
theorem lnk_retryFrom_retrain {l : Nat} {s : State} (n : Nat) (hst : (lnk s l).st = .active)
    (hmany : 16 ≤ (lnk s l).retriesInRow) : lnk (retryFrom l n s) l = { lnk s l with
      st := .holdoff, sameInst := false, encrypted := false, retrains := satInc (lnk s l).retrains } := by
  rw [retryFrom, if_pos hmany, retrainLink, if_neg (by simp [hst])]
  exact lnk_linkTo_of_active _ hst

/-! ## The instructions on an ACTIVE link -/

section
variable {l : Fin 8} {f : Flit} {n : Nat} {s : State} (hup : isUp s = true) (hst : (lnk s l.val).st = .active)
include hup hst

theorem exec_dataFlit (hk : f.kind = 1) : exec (.dataFlit l f n) s = .next (dataFlit l.val f n s) := by
  simp [exec, execDataFlit, hup, hst, hk]

theorem exec_idleFlit (hk : f.kind = 0) (hgood : flitGood s l.val 0 f n = true) :
    exec (.idleFlit l f n) s = .next (takeAck l.val f (fecCount l.val n s)) := by
  simp [exec, execIdleFlit, hup, hst, hk, flitGood_fecCount, hgood]

theorem exec_idleFlit_bad (hk : f.kind = 0) (hbad : flitGood s l.val 0 f n = false) :
    exec (.idleFlit l f n) s = .next (fecCount l.val n s) := by
  simp [exec, execIdleFlit, hup, hst, hk, flitGood_fecCount, hbad]

theorem exec_retryReq (hk : f.kind = 2) (hgood : flitGood s l.val 0 f n = true) :
    exec (.retryReq l f n) s = .next (retryFrom l.val 0 (takeAck l.val f (fecCount l.val n s))) := by
  simp [exec, execRetryReq, hup, hst, hk, flitGood_fecCount, hgood]

theorem exec_retryTimeout (h : (lnk s l.val).unacked ≠ []) :
    exec (.retryTimeout l) s = .next (retryFrom l.val 0 s) := by
  simp [exec, execRetryTimeout, hup, hst, h]

theorem exec_alignmentFlit (h : 4095 ≤ (lnk s l.val).sinceAlign) : exec (.alignmentFlit l) s =
    .next (emit (.alignment l.val) (setLnk l.val { lnk s l.val with sinceAlign := 0 } s)) :=
  congrArg _ (if_pos (by simp [hup, hst, h]))

end

theorem exec_retryTimeout_of_nil {l : Fin 8} {s : State} (h : (lnk s l.val).unacked = []) :
    exec (.retryTimeout l) s = .next s :=
  congrArg _ (if_neg (by simp only [h, List.isEmpty_nil, Bool.not_true, Bool.and_false, Bool.false_eq_true, not_false_iff]))

theorem exec_alignmentFlit_early {l : Fin 8} {s : State} (h : (lnk s l.val).sinceAlign < 4095) :
    exec (.alignmentFlit l) s = .next s :=
  congrArg _ (if_neg (by simp only [decide_eq_false (Nat.not_le.2 h), Bool.and_false, Bool.false_eq_true, not_false_iff]))

/-! ## What a received flit leaves of the link -/

section
variable {l n lsn : Nat} {f : Flit} {s : State}

/-- The next DATA flit is taken once: it is counted and acknowledged, and its payload joins its channel's message. -/
theorem lnk_dataFlit_next (h : extendLsn (lnk s l) f.lsn.toNat = some lsn) (hnext : lsn = (lnk s l).rxLsn)
    (hgood : flitGood s l lsn f n = true) : ∃ c r a i,
    linkRest (lnk (dataFlit l f n s) l) =
      linkRest { taken f (lnk s l) with
        fecCorr := c, retriesInRow := r, peerFreed := [f.cum0.toNat, f.cum1.toNat, f.cum2.toNat]
        asm := a, inbox := i } ∧
    (f.som = false → partialMsg (lnk s l) f.vc.toNat = none → i = (lnk s l).inbox ∧ a = (lnk s l).asm) ∧
    ∀ b, Joins (lnk s l) f (flitCrypt (lnk s l) (rxIv s l lsn) f.payload) b →
      (f.eom = false → b.length ≤ 66000 → i = (lnk s l).inbox ∧
        a = ((lnk s l).asm.filter fun a => a.1 != f.vc.toNat) ++ [(f.vc.toNat, b)]) ∧
      (f.eom = true → i = (lnk s l).inbox ++ (parseMsg f.vc.toNat b).toList ∧
        a = (lnk s l).asm.filter fun a => a.1 != f.vc.toNat) := by
  obtain ⟨c, hc⟩ := lnk_fecCount (l := l) (n := n) (s := s)
  have hu : lnk (updLnk l (taken f) (fecCount l n s)) l = taken f { lnk s l with fecCorr := c } := by
    rw [lnk_updLnk, hc]
  rw [dataFlit_next h hnext hgood]
  generalize updLnk l (taken f) (fecCount l n s) = u at hu ⊢
  generalize flitCrypt (lnk s l) (rxIv s l lsn) f.payload = p
  obtain ⟨a, i, hai⟩ := lnk_assemble (l := l) (f := f) (p := p) (s := u)
  have hjoins {b : List Byte} (hb : Joins (lnk s l) f p b) : Joins (lnk u l) f p b := by
    rw [hu]
    exact hb
  have hmsgs {y : Link} (hy : lnk (assemble l f p u) l = y) : i = y.inbox ∧ a = y.asm := by
    rw [← hy, hai]
    exact ⟨rfl, rfl⟩
  obtain ⟨r, hr⟩ := linkRest_takeAck l f (assemble l f p u)
  refine ⟨c, r, a, i, ?_, fun hsom hnone => ?_, fun b hb => ⟨fun heom hlen => ?_, fun heom => ?_⟩⟩
  · rw [hr, hai, hu]
    rfl
  · rw [assemble_of_none hsom (by rw [hu]; exact hnone), hu] at hmsgs
    exact (hmsgs rfl :)
  · rw [lnk_assemble_more (hjoins hb) heom hlen, hu] at hmsgs
    exact (hmsgs rfl :)
  · rw [lnk_assemble_last (hjoins hb) heom, hu] at hmsgs
    exact (hmsgs rfl :)

/-- A DATA flit that has come before leaves the receiver as it was but for the counts. -/
theorem lnk_dataFlit_dup (h : extendLsn (lnk s l) f.lsn.toNat = some lsn) (hold : lsn < (lnk s l).rxLsn)
    (hnear : (lnk s l).rxLsn ≤ lsn + 512) : ∃ c r v,
    linkRest (lnk (dataFlit l f n s) l) = linkRest { lnk s l with
      dup := satInc (lnk s l).dup, fecCorr := c, retriesInRow := r, peerFreed := v } := by
  obtain ⟨c, hc⟩ := lnk_fecCount (l := l) (n := n) (s := s)
  have hcount {u : State} {y : Link} (hy : linkRest (lnk u l) = linkRest y) :
      linkRest (lnk (updLnk l (fun x => { x with dup := satInc x.dup }) u) l) =
        linkRest { y with dup := satInc y.dup } := by
    rw [lnk_updLnk]
    exact (congrArg (fun z : Link => { z with dup := satInc z.dup }) hy :)
  rw [dataFlit_dup h hold hnear]
  split
  · obtain ⟨r, hr⟩ := linkRest_takeAck l f (fecCount l n s)
    rw [hc] at hr
    exact ⟨c, r, _, hcount hr⟩
  · exact ⟨c, _, _, hcount (congrArg linkRest hc)⟩

/-- With nothing queued an acknowledgement sends nothing. -/
theorem takeAck_fecCount (f : Flit) (hq : (lnk s l).queued = []) : ∃ c, takeAck l f (fecCount l n s) =
    setLnk l (ackedBy (ackCount f (lnk s l).txLsn (lnk s l).unacked.length) f { lnk s l with fecCorr := c })
      (fecCount l n s) := by
  obtain ⟨c, hc⟩ := lnk_fecCount (l := l) (n := n) (s := s)
  exact ⟨c, by rw [takeAck_of_no_queue f (by rw [hc]; exact hq), hc]⟩

/-- A flit that acknowledges nothing new leaves the link as it was but for the peer's counts. -/
theorem takeAck_fecCount_of_none (hq : (lnk s l).queued = [])
    (hnone : ackCount f (lnk s l).txLsn (lnk s l).unacked.length = 0) : ∃ c v,
    lnk (takeAck l f (fecCount l n s)) l = { lnk s l with fecCorr := c, peerFreed := v } ∧
    sealable (takeAck l f (fecCount l n s)) l = sealable s l := by
  obtain ⟨c, hc⟩ := takeAck_fecCount (n := n) f hq
  obtain ⟨d, hd⟩ := lnk_fecCount (l := l) (n := n) (s := s)
  rw [hnone, ackedBy_zero] at hc
  rw [hc, lnk_setLnk, ← sealable_fecCount (n := n) (s := s)]
  exact ⟨c, _, rfl, sealable_setLnk (by rw [hd])⟩

end

/-! ## The obligation -/

/-- Settles O49: the flits of a message one by one, a DATA flit by where its LSN lies, a retry by how many there were
since the last progress. -/
theorem flitsReceived : Obligations.FlitsReceived := by
  unfold Obligations.FlitsReceived
  refine ⟨fun vc m hvc => ?_, fun l m s => ?_, fun l f n s hup hst => ?_⟩
  · exact ⟨msgFlits_msgBytes_length vc m, fun k g hg => msgFlits_msgBytes_length vc m ▸ msgFlits_spec hvc hg⟩
  · exact ⟨fun hst => if_neg (by simpa using hst), kwSend_of_no_credit⟩
  · intro x lsn? keyed acked
    have hacked : acked = ackCount f (lnk s l.val).txLsn (lnk s l.val).unacked.length := rfl
    clear_value acked
    subst hacked
    refine ⟨fun hgood => ?_, fun lsn hk hlsn hnext hgood => ?_, fun lsn hk hlsn hold hnear => ?_,
      fun hk hkeyed hbad => ?_, fun hk hgood hq => ?_, fun hk hbad => exec_idleFlit_bad hup hst hk hbad,
      fun hk hgood hq hnone hfew => ?_, fun hk hgood hq hnone hmany => ?_, fun hne hkeyed hfew => ?_,
      fun hne hmany => ?_, exec_retryTimeout_of_nil, exec_alignmentFlit hup hst, exec_alignmentFlit_early⟩
    · obtain ⟨hseal, hn, hcode, hepoch⟩ := flitGood_spec hgood
      exact ⟨hcode, hn, hepoch, sealable_iff.1 hseal⟩
    · obtain ⟨c, r, a, i, hrest, hnone, hjoins⟩ := lnk_dataFlit_next hlsn hnext hgood
      refine ⟨_, exec_dataFlit hup hst hk, ?_⟩
      have hinbox : (lnk (dataFlit l.val f n s) l.val).inbox = i := (congrArg Link.inbox hrest :)
      have hasm : (lnk (dataFlit l.val f n s) l.val).asm = a := (congrArg Link.asm hrest :)
      dsimp only
      rw [hinbox, hasm]
      exact ⟨(congrArg Link.st hrest :).trans hst, (congrArg Link.rxLsn hrest :), (congrArg Link.rx hrest :),
        (congrArg Link.freedVc hrest :), (congrArg Link.peerFreed hrest :), (congrArg Link.dup hrest :),
        (congrArg Link.retries hrest :), hnone, hjoins⟩
    · obtain ⟨c, r, v, hrest⟩ := lnk_dataFlit_dup (n := n) hlsn hold hnear
      exact ⟨_, exec_dataFlit hup hst hk, (congrArg Link.st hrest :).trans hst, (congrArg Link.rxLsn hrest :),
        (congrArg Link.rx hrest :), (congrArg Link.dup hrest :), (congrArg Link.inbox hrest :),
        (congrArg Link.asm hrest :)⟩
    · obtain ⟨g, c, k, hsent, hkind, hcmds, hlnk⟩ := askRetry_fecCount (n := n) (sealable_iff.2 hkeyed)
      refine ⟨_, g, exec_dataFlit hup hst hk, ?_⟩
      rw [dataFlit_retry hbad, hlnk]
      exact ⟨hcmds, hsent, hkind, rfl, rfl, rfl⟩
    · obtain ⟨c, hc⟩ := takeAck_fecCount (n := n) f hq
      refine ⟨_, exec_idleFlit hup hst hk hgood, ?_⟩
      dsimp only
      rw [hc, lnk_setLnk]
      exact ⟨ackedBy_unacked .., ackedBy_retriesInRow .., ackedBy_peerFreed .., ackedBy_rxLsn .., fecCount_sent⟩
    · obtain ⟨c, v, hlnk, hseal⟩ := takeAck_fecCount_of_none (n := n) hq hnone
      obtain ⟨k, hretry⟩ := lnk_retryFrom (hseal.trans (flitGood_spec hgood).1) (by rw [hlnk]; exact hfew)
      refine ⟨_, exec_retryReq hup hst hk hgood, ?_⟩
      rw [hretry, hlnk]
      exact ⟨rfl, rfl, rfl, rfl, hst⟩
    · obtain ⟨c, v, hlnk, -⟩ := takeAck_fecCount_of_none (n := n) hq hnone
      refine ⟨_, exec_retryReq hup hst hk hgood, ?_⟩
      rw [lnk_retryFrom_retrain 0 (by rw [hlnk]; exact hst) (by rw [hlnk]; exact hmany)]
    · obtain ⟨k, hretry⟩ := lnk_retryFrom (sealable_iff.2 hkeyed) hfew
      refine ⟨_, exec_retryTimeout hup hst hne, ?_⟩
      rw [hretry]
      exact ⟨rfl, rfl, rfl, rfl⟩
    · refine ⟨_, exec_retryTimeout hup hst hne, ?_⟩
      rw [lnk_retryFrom_retrain 0 hst hmany]
      exact ⟨rfl, rfl⟩

end Sys2Proof.Machine
end

section
/-! PROOFS. The tables of the interrupt controller: what a source is after each operation on it, what a pass over several
sources leaves, and the choice of a source and of a target. -/

namespace Sys2Proof.Machine

/-! ## Operations that change sources alone -/

/-- Only the table of sources differs. -/
def OnlySrc (a s : State) : Prop := s = { a with icu := { a.icu with src := s.icu.src } }

theorem OnlySrc.refl (s : State) : OnlySrc s s := rfl

theorem OnlySrc.trans {a b c : State} (h : OnlySrc a b) (k : OnlySrc b c) : OnlySrc a c := by
  unfold OnlySrc at *
  rw [k, h]

theorem OnlySrc.foldl {g : State → Nat → State} (h : ∀ st n, OnlySrc st (g st n)) (l : List Nat) (s : State) :
    OnlySrc s (l.foldl g s) := by
  induction l generalizing s with
  | nil => exact OnlySrc.refl s
  | cons n l ih => exact (h s n).trans (ih _)

theorem updSrc_onlySrc (n : Nat) (f : Src → Src) (s : State) : OnlySrc s (updSrc n f s) := rfl

theorem icuWithdraw_onlySrc (n : Nat) (s : State) : OnlySrc s (icuWithdraw n s) := updSrc_onlySrc ..

theorem icuClear_onlySrc (n : Nat) (s : State) : OnlySrc s (icuClear n s) := by
  unfold icuClear
  split <;> rfl

/-! ## One source after an operation -/

theorem src_updSrc (n m : Nat) (f : Src → Src) (s : State) :
    src (updSrc n f s) m = if m = n then f (src s m) else src s m := by
  rw [updSrc, src_setSrc]
  split
  · next h => rw [h]
  · rfl

/-- A source whose delivery, if it has one, is withdrawn (R407). -/
def Src.withdraw (x : Src) : Src :=
  if x.st = .delivered then { x with holder := 7, st := .pending, withdrawn := some x.holder } else x

theorem src_icuWithdraw (n m : Nat) (s : State) :
    src (icuWithdraw n s) m = if m = n then (src s m).withdraw else src s m :=
  src_updSrc n m Src.withdraw s

/-- A message source that is set (R399, R400). -/
def Src.request (x : Src) : Src :=
  match x.st with
  | .idle => { x with st := .pending }
  | .active => { x with st := .activePending }
  | _ => x

/-- Does a source hold a request already, so that another merges with it (R400)? -/
def Src.asked (x : Src) : Bool := decide (x.st = .pending ∨ x.st = .delivered ∨ x.st = .activePending)

theorem sendMsix_icu (v : Nat) (s : State) : (sendMsix v s).icu = s.icu := by
  unfold sendMsix
  split <;> rfl

theorem hostForward_icu (n : Nat) (s : State) : (hostForward n s).icu = s.icu := by
  unfold hostForward
  split
  · exact sendMsix_icu _ s
  · rfl

theorem src_congr {s t : State} (h : s.icu = t.icu) (n : Nat) : src s n = src t n := by rw [src, src, h]

theorem icuSet_of_idle {n : Nat} {s : State} (h : (src s n).st = .idle) :
    icuSet n s = hostForward n (setSrc n { src s n with st := .pending } s) := by
  simp only [icuSet, h]
  rfl

theorem icuSet_of_active {n : Nat} {s : State} (h : (src s n).st = .active) :
    icuSet n s = setSrc n { src s n with st := .activePending } s := by
  simp only [icuSet, h]
  rfl

theorem icuSet_of_asked {n : Nat} {s : State} (h : (src s n).asked = true) :
    icuSet n s = { s with icu := { s.icu with merged := satInc s.icu.merged } } := by
  rcases of_decide_eq_true h with h | h | h <;> simp only [icuSet, h]

/-- A source without a request is idle or active. -/
theorem Src.idle_or_active {x : Src} (h : ¬x.asked = true) : x.st = .idle ∨ x.st = .active := by
  unfold Src.asked at h
  cases hst : x.st <;> simp_all

theorem Src.request_of_asked {x : Src} (h : x.asked = true) : x.request = x := by
  rcases of_decide_eq_true h with h | h | h <;> simp only [Src.request, h]

theorem src_icuSet (n m : Nat) (s : State) :
    src (icuSet n s) m = if m = n then (src s m).request else src s m := by
  by_cases hasked : (src s n).asked = true
  · rw [icuSet_of_asked hasked]
    split
    · next h => rw [h, Src.request_of_asked hasked]; rfl
    · rfl
  · rcases Src.idle_or_active hasked with hst | hst
    · rw [icuSet_of_idle hst, src_congr (hostForward_icu ..), src_setSrc]
      split
      · next h => rw [h, Src.request, hst]
      · rfl
    · rw [icuSet_of_active hst, src_setSrc]
      split
      · next h => rw [h, Src.request, hst]
      · rfl

theorem tgt_icuSet (n : Nat) (s : State) : (icuSet n s).icu.tgt = s.icu.tgt := by
  by_cases hasked : (src s n).asked = true
  · rw [icuSet_of_asked hasked]
  · rcases Src.idle_or_active hasked with hst | hst
    · rw [icuSet_of_idle hst, hostForward_icu]
      rfl
    · rw [icuSet_of_active hst]
      rfl

/-- A request that merges is counted, no other (R400). -/
theorem merged_icuSet (n : Nat) (s : State) :
    (icuSet n s).icu.merged = if (src s n).asked then satInc s.icu.merged else s.icu.merged := by
  split
  · next hasked => rw [icuSet_of_asked hasked]
  · next hasked =>
    rcases Src.idle_or_active hasked with hst | hst
    · rw [icuSet_of_idle hst, hostForward_icu]
      rfl
    · rw [icuSet_of_active hst]
      rfl

/-- A message source whose request is cleared (R401). -/
def Src.unrequest (x : Src) : Src :=
  match x.st with
  | .pending | .delivered => { x with holder := 7, st := .idle, withdrawn := none }
  | .activePending => { x with st := .active }
  | _ => x

theorem src_icuClear (n m : Nat) (s : State) :
    src (icuClear n s) m = if m = n then (src s m).unrequest else src s m := by
  by_cases h : m = n
  · subst h
    unfold icuClear Src.unrequest
    cases hst : (src s m).st <;> simp [src_updSrc, Src.drop]
  · unfold icuClear
    split <;> simp [src_updSrc, h]

/-! ## A pass over several sources -/

section
variable {f : Src → Src} {g : State → Nat → State} {l : List Nat} {m : Nat}
  (hg : ∀ st n m, src (g st n) m = if m = n then f (src st m) else src st m)
include hg

theorem src_foldl_of_notMem (hm : m ∉ l) (s : State) : src (l.foldl g s) m = src s m := by
  induction l generalizing s with
  | nil => rfl
  | cons n l ih =>
    obtain ⟨hne, hm⟩ := not_or.1 (mt List.mem_cons.2 hm)
    rw [List.foldl_cons, ih hm, hg, if_neg hne]

theorem src_foldl_of_mem (hl : l.Nodup) (hm : m ∈ l) (s : State) : src (l.foldl g s) m = f (src s m) := by
  induction l generalizing s with
  | nil => cases hm
  | cons n l ih =>
    obtain ⟨hn, hl⟩ := List.nodup_cons.1 hl
    rcases List.mem_cons.1 hm with rfl | hm
    · rw [List.foldl_cons, src_foldl_of_notMem hg hn, hg, if_pos rfl]
    · rw [List.foldl_cons, ih hl hm, hg, if_neg (ne_of_mem_of_not_mem hm hn)]

end

/-- A pass of withdrawals leaves every source alone that none of them names. -/
theorem src_foldl_icuWithdraw {l : List Nat} {m : Nat} (hm : m ∉ l) (s : State) :
    src (l.foldl (fun st n => icuWithdraw n st) s) m = src s m :=
  src_foldl_of_notMem (fun st n m => src_icuWithdraw n m st) hm s

theorem mem_deliveredTo {s : State} {t n : Nat} :
    n ∈ deliveredTo s t ↔ n ∈ Tab.keys s.icu.src ∧ (src s n).st = .delivered ∧ (src s n).holder = t := by
  simp [deliveredTo]

/-! ## The choice of a source (R405) -/

theorem topSource_eq_argmax (s : State) (l : List Nat) : topSource s l = l.argmax fun n => (src s n).prio.toNat := by
  unfold topSource List.argmax
  congr 1
  funext best n
  cases best <;> rfl

theorem topSource_eq_none {s : State} {l : List Nat} : topSource s l = none ↔ l = [] := by
  rw [topSource_eq_argmax, List.argmax_eq_none]

theorem topSource_mem {s : State} {l : List Nat} {n : Nat} (h : topSource s l = some n) : n ∈ l :=
  List.argmax_mem ((topSource_eq_argmax s l).symm.trans h)

theorem le_topSource {s : State} {l : List Nat} {n m : Nat} (h : topSource s l = some n) (hm : m ∈ l) :
    (src s m).prio.toNat ≤ (src s n).prio.toNat :=
  List.le_of_mem_argmax (f := fun n => (src s n).prio.toNat) hm ((topSource_eq_argmax s l).symm.trans h)

theorem topSource_isSome {s : State} {l : List Nat} {n : Nat} (h : n ∈ l) : ∃ m, topSource s l = some m :=
  Option.ne_none_iff_exists'.1 (mt topSource_eq_none.1 (List.ne_nil_of_mem h))

end Sys2Proof.Machine
end

section
/-! PROOFS. Requests, delivery and wake (O42): the level sources, which target is best, what one DELIVERY does, and a target
that goes to sleep or awakes. -/

namespace Sys2Proof.Machine

/-! ## Requests (R397 to R400) -/

theorem exec_messageArrival {n : Fin 512} {s : State} (hsent : n.val ∈ s.icu.messages) (hmsg : icuMessage n.val = true) :
    exec (.messageArrival n) s =
      .next (icuSet n.val { s with icu := { s.icu with messages := s.icu.messages.erase n.val } }) :=
  congrArg _ (if_pos ⟨hsent, hmsg⟩)

theorem exec_levelAssert {n : Fin 512} {s : State} (hlevel : n.val ≤ 12) (hlow : (src s n.val).line = false)
    (hnow : lineNow s n.val = true) :
    exec (.levelAssert n) s = .next (hostForward n.val (setSrc n.val { src s n.val with
      line := true, st := if (src s n.val).st = .idle then .pending else (src s n.val).st } s)) :=
  congrArg _ (if_pos (by simp [icuLevel, hlevel, hlow, hnow]))

/-- A level source whose line has fallen. -/
def Src.lineFallen (x : Src) : Src :=
  match x.st with
  | .pending | .delivered => { x with holder := 7, line := false, st := .idle, withdrawn := none }
  | _ => { x with line := false }

theorem exec_levelDrop {n : Fin 512} {s : State} (hlevel : n.val ≤ 12) (hhigh : (src s n.val).line = true)
    (hnow : lineNow s n.val = false) :
    exec (.levelDrop n) s = .next (setSrc n.val (src s n.val).lineFallen s) := by
  refine (congrArg _ (if_pos (by simp [icuLevel, hlevel, hhigh, hnow]))).trans ?_
  rw [updSrc, Src.lineFallen]
  cases (src s n.val).st <;> rfl

theorem Src.lineFallen_of_waiting {x : Src} (h : x.st = .pending ∨ x.st = .delivered) :
    x.lineFallen = { x with holder := 7, line := false, st := .idle, withdrawn := none } := by
  rcases h with h | h <;> simp only [lineFallen, h]

theorem Src.lineFallen_of_claimed {x : Src} (h : x.st = .active ∨ x.st = .activePending ∨ x.st = .idle) :
    x.lineFallen = { x with line := false } := by
  rcases h with h | h | h <;> simp only [lineFallen, h]

/-! ## The best target (R402, R403) -/

/-- In a rising list, the order of places is the order of values. -/
theorem idxOf_le_idxOf_iff {l : List Nat} (hl : l.Pairwise (· < ·)) {a b : Nat} (ha : a ∈ l) (hb : b ∈ l) :
    l.idxOf a ≤ l.idxOf b ↔ a ≤ b := by
  have hlt {a b : Nat} (ha : a ∈ l) (hb : b ∈ l) (h : l.idxOf a < l.idxOf b) : a < b := by
    simpa using List.pairwise_iff_getElem.1 hl _ _ (List.idxOf_lt_length_iff.2 ha) (List.idxOf_lt_length_iff.2 hb) h
  refine ⟨fun h => ?_, fun h => Nat.le_of_not_lt fun hba => Nat.not_lt.2 h (hlt hb ha hba)⟩
  rcases Nat.lt_or_eq_of_le h with h | h
  · exact Nat.le_of_lt (hlt ha hb h)
  · exact Nat.le_of_eq ((List.idxOf_inj ha).1 h)

/-- Of a rising list, the first of those where `f` is least. -/
theorem argmin_eq_some_iff_of_rising {l : List Nat} (hl : l.Pairwise (· < ·)) (f : Nat → Nat) (d : Nat) :
    l.argmin f = some d ↔ d ∈ l ∧ ∀ t ∈ l, f d < f t ∨ (f d = f t ∧ d ≤ t) := by
  rw [List.argmin_eq_some_iff]
  constructor
  · rintro ⟨hd, hmin, hfirst⟩
    refine ⟨hd, fun t ht => ?_⟩
    rcases Nat.lt_or_eq_of_le (hmin t ht) with h | h
    · exact .inl h
    · exact .inr ⟨h, (idxOf_le_idxOf_iff hl hd ht).1 (hfirst t ht (Nat.le_of_eq h.symm))⟩
  · rintro ⟨hd, hleast⟩
    refine ⟨hd, fun t ht => ?_, fun t ht hle => (idxOf_le_idxOf_iff hl hd ht).2 ?_⟩
    · have := hleast t ht
      omega
    · have := hleast t ht
      omega

/-- The targets of a source that accept it, in rising order. -/
def eligibleTargets (s : State) (x : Src) : List Nat :=
  (List.range 5).filter fun t => x.targets.getLsbD t && tgtAccepts (tgt s t) x.prio.toNat

theorem mem_eligibleTargets {s : State} {x : Src} {t : Nat} : t ∈ eligibleTargets s x ↔
    t < 5 ∧ x.targets.getLsbD t = true ∧ (tgt s t).power = .awake ∧ (tgt s t).mask = false ∧
      (tgt s t).threshold ≤ x.prio ∧ ∀ c ∈ (tgt s t).claims, c.2 < x.prio.toNat := by
  simp [eligibleTargets, tgtAccepts, BitVec.le_def, and_assoc]

theorem eligibleTargets_rising (s : State) (x : Src) : (eligibleTargets s x).Pairwise (· < ·) :=
  List.pairwise_lt_range.filter _

theorem bestTarget_eq_argmin (s : State) (x : Src) :
    bestTarget s x = (eligibleTargets s x).argmin fun t => tgtRank (tgt s t) := by
  unfold bestTarget List.argmin
  congr 1
  funext best t
  cases best <;> rfl

theorem bestTarget_eq_none {s : State} {x : Src} : bestTarget s x = none ↔ ∀ t, t ∉ eligibleTargets s x := by
  rw [bestTarget_eq_argmin, List.argmin_eq_none, List.eq_nil_iff_forall_not_mem]

theorem bestTarget_eq_some {s : State} {x : Src} {d : Nat} : bestTarget s x = some d ↔
    d ∈ eligibleTargets s x ∧ ∀ t ∈ eligibleTargets s x, tgtRank (tgt s d) < tgtRank (tgt s t) ∨
      (tgtRank (tgt s d) = tgtRank (tgt s t) ∧ d ≤ t) := by
  rw [bestTarget_eq_argmin, argmin_eq_some_iff_of_rising (eligibleTargets_rising s x)]

theorem tgtRank_eq_max? (y : Tgt) : tgtRank y = ((y.claims.map fun c => c.2 + 1).max?).getD 0 := by
  rw [tgtRank, ← List.foldl_map (f := fun c : Nat × Nat => c.2 + 1) (g := max), List.foldl_max, Nat.zero_max]

theorem tgtRank_of_nil {y : Tgt} (h : y.claims = []) : tgtRank y = 0 := by
  rw [tgtRank, h]
  rfl

theorem tgtRank_of_ne_nil {y : Tgt} (h : y.claims ≠ []) :
    ∃ c ∈ y.claims, tgtRank y = 1 + c.2 ∧ ∀ c' ∈ y.claims, c'.2 ≤ c.2 := by
  obtain ⟨r, hr⟩ : ∃ r, (y.claims.map fun c => c.2 + 1).max? = some r :=
    Option.ne_none_iff_exists'.1 (by simpa using h)
  obtain ⟨hmem, hle⟩ := List.max?_eq_some_iff.1 hr
  obtain ⟨c, hc, rfl⟩ := List.mem_map.1 hmem
  refine ⟨c, hc, ?_, fun c' hc' => ?_⟩
  · rw [tgtRank_eq_max?, hr]
    exact Nat.add_comm ..
  · have := hle _ (List.mem_map_of_mem hc')
    omega

/-! ## Delivery (R404, R405, R413) -/

theorem mem_waitingSources {s : State} {n : Nat} : n ∈ waitingSources s ↔
    n ∈ Tab.keys s.icu.src ∧ (src s n).en = true ∧ (src s n).st = .pending ∧ icuReserved n = false := by
  simp [waitingSources, and_assoc]

theorem src_deliverTo (n t : Nat) (s : State) :
    src (deliverTo n t s) n = { src s n with st := .delivered, holder := t, withdrawn := none } := by
  have hset : src (updSrc n (fun x => { x with st := .delivered, holder := t, withdrawn := none }) s) n =
      { src s n with st := .delivered, holder := t, withdrawn := none } := by rw [src_updSrc, if_pos rfl]
  unfold deliverTo
  extract_lets
  split
  · exact hset
  · exact hset

section
variable {s : State}

/-- The sources that DELIVERY can deliver, and those for which it can wake a target. -/
def deliverable (s : State) : List Nat := (waitingSources s).filter fun n => (bestTarget s (src s n)).isSome
def wakeable (s : State) : List Nat := (waitingSources s).filter fun n => wantsWake s (src s n)

theorem mem_deliverable {n : Nat} :
    n ∈ deliverable s ↔ n ∈ waitingSources s ∧ ∃ t, bestTarget s (src s n) = some t := by
  rw [deliverable, List.mem_filter, Option.isSome_iff_exists]

theorem mem_wakeable {n : Nat} : n ∈ wakeable s ↔ n ∈ waitingSources s ∧ wantsWake s (src s n) = true :=
  List.mem_filter

theorem deliverable_eq_nil (h : ∀ n ∈ waitingSources s, bestTarget s (src s n) = none) : deliverable s = [] :=
  List.filter_eq_nil_iff.2 fun n hn => by simp [h n hn]

theorem exec_delivery_some {m d : Nat} (htop : topSource s (deliverable s) = some m)
    (hbest : bestTarget s (src s m) = some d) : exec .delivery s = .next (deliverTo m d s) := by
  rw [deliverable] at htop
  simp only [exec, execDelivery, icuDeliver, htop, hbest]

theorem exec_delivery_wake {m : Nat} (hnone : deliverable s = []) (htop : topSource s (wakeable s) = some m) :
    exec .delivery s = .next (wakeFor m s) := by
  rw [deliverable] at hnone
  rw [wakeable] at htop
  simp only [exec, execDelivery, icuDeliver, hnone, topSource_eq_none.2, htop]

theorem exec_delivery_idle (hnone : deliverable s = []) (hwake : wakeable s = []) : exec .delivery s = .next s := by
  rw [deliverable] at hnone
  rw [wakeable] at hwake
  simp only [exec, execDelivery, icuDeliver, hnone, hwake, topSource_eq_none.2]

end

/-! ## Sleep (R414) -/

theorem exec_targetAwake {t : Fin 5} {s : State} (h : (tgt s t.val).power = .waking) :
    exec (.targetAwake t) s = .next (setTgt t.val { tgt s t.val with power := .awake } s) :=
  congrArg _ (if_pos h)

/-- The state when a target has gone to sleep. -/
def slept (t : Nat) (s : State) : State :=
  (deliveredTo s t).foldl (fun st n => icuWithdraw n st) (setTgt t { tgt s t with power := .sleeping } s)

theorem exec_targetSleep {t : Fin 5} {s : State} (h : (tgt s t.val).power = .awake) :
    exec (.targetSleep t) s = .next (slept t.val s) :=
  congrArg _ (if_pos h)

theorem slept_onlySrc (t : Nat) (s : State) :
    OnlySrc (setTgt t { tgt s t with power := .sleeping } s) (slept t s) :=
  OnlySrc.foldl (fun st n => icuWithdraw_onlySrc n st) _ _

theorem src_slept {t n : Nat} {s : State} (h : (src s n).st ≠ .delivered ∨ (src s n).holder ≠ t) :
    src (slept t s) n = src s n :=
  src_foldl_icuWithdraw (fun hn => by
    obtain ⟨-, hst, hholder⟩ := mem_deliveredTo.1 hn
    exact h.elim (· hst) (· hholder)) _

/-! ## The obligation -/

/-- Settles O42: requests by the state of the source, DELIVERY by which sources can be delivered or can wake a target, the
best target as the first of least rank. -/
theorem interruptDelivery : Obligations.InterruptDelivery := by
  unfold Obligations.InterruptDelivery
  refine ⟨fun n s => ⟨fun hsent hmsg => ?_, exec_levelAssert, fun hlevel hhigh hnow => ?_⟩,
    ⟨fun s => ?_, fun t s => ⟨exec_targetAwake, fun hawake => ?_⟩⟩, fun s x => ?_,
    fun y => ⟨tgtRank_of_nil, tgtRank_of_ne_nil⟩⟩
  · intro u
    rw [exec_messageArrival hsent hmsg]
    exact ⟨fun hst => congrArg _ (icuSet_of_idle (s := u) hst), fun hst => congrArg _ (icuSet_of_active (s := u) hst),
      fun hst => congrArg _ (icuSet_of_asked (s := u) (decide_eq_true hst))⟩
  · rw [exec_levelDrop hlevel hhigh hnow]
    exact ⟨fun h => by rw [Src.lineFallen_of_waiting h], fun h => by rw [Src.lineFallen_of_claimed h]⟩
  · intro ok
    refine ⟨fun n t hok hn hbest => ?_, fun hidle => ?_, fun n hnone hok hn hwake => ?_⟩
    · have hmem : n ∈ deliverable s := mem_deliverable.2 ⟨mem_waitingSources.2 ⟨hn, hok⟩, t, hbest⟩
      obtain ⟨m, htop⟩ := topSource_isSome (s := s) hmem
      obtain ⟨hm, d, hd⟩ := mem_deliverable.1 (topSource_mem htop)
      refine ⟨m, d, exec_delivery_some htop hd, ?_, ?_, (mem_waitingSources.1 hm).2, hd, le_topSource htop hmem⟩
      · rw [src_deliverTo]
      · rw [src_deliverTo]
    · refine exec_delivery_idle (deliverable_eq_nil fun n hn => ?_) (List.filter_eq_nil_iff.2 fun n hn => ?_)
      · exact (hidle n (mem_waitingSources.1 hn).1 (mem_waitingSources.1 hn).2).1
      · simp [(hidle n (mem_waitingSources.1 hn).1 (mem_waitingSources.1 hn).2).2]
    · have hmem : n ∈ wakeable s := mem_wakeable.2 ⟨mem_waitingSources.2 ⟨hn, hok⟩, hwake⟩
      obtain ⟨m, htop⟩ := topSource_isSome (s := s) hmem
      obtain ⟨hm, hmwake⟩ := mem_wakeable.1 (topSource_mem htop)
      have hnil : deliverable s = [] := deliverable_eq_nil fun n hn =>
        hnone n (mem_waitingSources.1 hn).1 (mem_waitingSources.1 hn).2
      exact ⟨m, exec_delivery_wake hnil htop, (mem_waitingSources.1 hm).2, hmwake, le_topSource htop hmem⟩
  · refine ⟨slept t.val s, exec_targetSleep hawake, ?_, ?_, fun n => src_slept⟩
    · rw [slept_onlySrc t.val s]
      exact congrArg Tgt.power (tgt_setTgt_same ..)
    · rw [slept_onlySrc t.val s]
      rfl
  · intro eligible
    have hmem (t : Nat) : t ∈ eligibleTargets s x ↔ eligible t := mem_eligibleTargets
    simp only [bestTarget_eq_none, bestTarget_eq_some, hmem]
    exact ⟨trivial, fun d => trivial⟩

end Sys2Proof.Machine
end

section
/-! PROOFS. Claims, completions and the registers of the interrupt controller (O43): the next claim, and what a mask of
sources does to each source it names. -/

namespace Sys2Proof.Machine

/-! ## Saturating counts (R12) -/

theorem satAdd_zero (x : Word) : satAdd x 0 = x := by
  rw [satAdd]
  bv_omega

theorem satAdd_satAdd (x : Word) (a b : Nat) : satAdd (satAdd x a) b = satAdd x (a + b) := by
  simp only [satAdd, BitVec.toNat_ofNat]
  congr 1
  omega

/-! ## Claims (R402, R406, R422) -/

theorem levelFree_iff {y : Tgt} {p : Nat} : levelFree y p = true ↔ ∀ c ∈ y.claims, c.2 ≠ p := by
  simp [levelFree]

/-- The sources that a target may claim. -/
theorem mem_claimable {s : State} {t n : Nat} :
    n ∈ ((deliveredTo s t).filter fun n => levelFree (tgt s t) (src s n).prio.toNat) ↔
      n ∈ Tab.keys s.icu.src ∧ (src s n).st = .delivered ∧ (src s n).holder = t ∧
        ∀ c ∈ (tgt s t).claims, c.2 ≠ (src s n).prio.toNat := by
  rw [List.mem_filter, mem_deliveredTo, levelFree_iff, and_assoc, and_assoc]

theorem nextClaim_claimable {s : State} {t n : Nat} (h : nextClaim s t = some n) :
    (src s n).st = .delivered ∧ (src s n).holder = t ∧ ∀ c ∈ (tgt s t).claims, c.2 ≠ (src s n).prio.toNat :=
  (mem_claimable.1 (topSource_mem h)).2

theorem le_nextClaim {s : State} {t n m : Nat} (h : nextClaim s t = some n) (hm : m ∈ Tab.keys s.icu.src)
    (hst : (src s m).st = .delivered) (hholder : (src s m).holder = t)
    (hlevel : ∀ c ∈ (tgt s t).claims, c.2 ≠ (src s m).prio.toNat) : (src s m).prio.toNat ≤ (src s n).prio.toNat :=
  le_topSource h (mem_claimable.2 ⟨hm, hst, hholder, hlevel⟩)

section
variable {s : State} (hup : pathUp s .localPort = true)
include hup

theorem exec_icuTClaim_none {t : Fin 5} (h : nextClaim s t.val = none) : exec (.icuTClaim .localPort t) s =
    .next (emit (.readData .localPort 0x3FF) { s with icu := { s.icu with
      spurious := satInc s.icu.spurious, status := s.icu.status ||| 1 } }) := by
  simp only [exec, execIcuTClaim, hup, icuClaim, h]
  rfl

theorem exec_icuTClaim_some {t : Fin 5} {n : Nat} (h : nextClaim s t.val = some n) :
    exec (.icuTClaim .localPort t) s = .next (emit (.readData .localPort (BitVec.ofNat 64 n))
      (setTgt t.val { tgt s t.val with claims := (tgt s t.val).claims ++ [(n, (src s n).prio.toNat)] }
        (setSrc n { src s n with st := .active } s))) := by
  simp only [exec, execIcuTClaim, hup, icuClaim, h]
  rfl

/-- Through the local port a write is done. -/
theorem icuWrite_local (f : State → State) : icuWrite .localPort f s = f s := by
  simp [icuWrite, hup]

end

/-- Through BAR0 a claim claims nothing (R422). -/
theorem exec_icuTClaim_bar0 {s : State} (hup : isUp s = true) (t : Fin 5) :
    exec (.icuTClaim .bar0 t) s = .next (emit (.readData .bar0 0x3FF) s) := by
  simp [exec, execIcuTClaim, pathUp, hup]

/-- Through BAR0 a write is dropped and counted (R419). -/
theorem icuWrite_bar0 {s : State} (hup : isUp s = true) (f : State → State) : icuWrite .bar0 f s = icuDenied s := by
  simp [icuWrite, pathUp, hup]

/-! ## Completions (R409, R410) -/

theorem icuComplete_spurious (t : Nat) (s : State) : icuComplete t 0x3FF s = s := if_pos rfl

section
variable {s : State} {t n : Nat} (hn : n ≠ 0x3FF)
include hn

theorem icuComplete_of_held (hst : (src s n).st = .active ∨ (src s n).st = .activePending)
    (hholder : (src s n).holder = t) : icuComplete t n s = updTgt t (fun y => { y with claims := y.claims.filter fun c => c.1 != n })
      (setSrc n { src s n with holder := 7, st :=
        if (src s n).st == .activePending || (icuLevel n && (src s n).line) then .pending else .idle } s) :=
  (if_neg hn).trans (if_pos ⟨hst, hholder⟩)

/-- A completion by another than the holder, or of a source that is not active, is counted (R410). -/
theorem icuComplete_of_not_held
    (h : (src s n).holder ≠ t ∨ ((src s n).st ≠ .active ∧ (src s n).st ≠ .activePending)) :
    icuComplete t n s = { s with icu := { s.icu with
      badComplete := satInc s.icu.badComplete, status := s.icu.status ||| 2 } } :=
  (if_neg hn).trans (if_neg fun ⟨hst, hholder⟩ => h.elim (· hholder) fun hne => hst.elim hne.1 hne.2)

end

/-! ## The sources of a mask -/

theorem mem_maskSources {w : Nat} {v : Word} {n : Nat} :
    n ∈ maskSources w v ↔ n / 32 = w ∧ v.getLsbD (n % 32) = true := by
  simp only [maskSources, bitsOf, List.mem_map, List.mem_filter, List.mem_range, BitVec.testBit_toNat]
  constructor
  · rintro ⟨i, ⟨hi, hbit⟩, rfl⟩
    have hmod : (i + 32 * w) % 32 = i := by omega
    exact ⟨by omega, by rwa [hmod]⟩
  · rintro ⟨rfl, hbit⟩
    exact ⟨n % 32, ⟨Nat.mod_lt _ (by decide), hbit⟩, Nat.mod_add_div n 32⟩

theorem maskSources_nodup (w : Nat) (v : Word) : (maskSources w v).Nodup :=
  (List.nodup_range.filter _).map (add_left_injective (32 * w))

/-- The messages of a mask that have some property, counted by the bits of the word. -/
theorem length_filter_maskSources (w : Nat) (v : Word) (p : Nat → Bool) :
    (((maskSources w v).filter icuMessage).filter p).length =
      ((List.range 32).filter fun i => v.getLsbD i && icuMessage (32 * w + i) && p (32 * w + i)).length := by
  rw [maskSources, bitsOf, List.filter_map, List.filter_map, List.length_map, List.filter_filter, List.filter_filter]
  congr 2
  funext i
  simp only [Function.comp, BitVec.testBit_toNat, Nat.add_comm i]
  cases v.getLsbD i <;> cases icuMessage (32 * w + i) <;> simp

/-! ## Setting and clearing requests (R401, R416) -/

section
variable {w : Nat} {v : Word} {s : State} {n : Nat}

theorem src_icuPendSet_other (h : n ∉ maskSources w v) : src (icuPendSet w v s) n = src s n :=
  src_foldl_of_notMem (fun st n m => src_icuSet n m st) (mt List.mem_of_mem_filter h) s

theorem src_icuPendSet (h : n ∈ maskSources w v) (hmsg : icuMessage n = true) :
    src (icuPendSet w v s) n = (src s n).request :=
  src_foldl_of_mem (fun st n m => src_icuSet n m st) ((maskSources_nodup w v).filter _)
    (List.mem_filter.2 ⟨h, hmsg⟩) s

theorem src_icuPendClr_other (h : n ∉ maskSources w v) : src (icuPendClr w v s) n = src s n :=
  src_foldl_of_notMem (fun st n m => src_icuClear n m st) (mt List.mem_of_mem_filter h) s

theorem src_icuPendClr (h : n ∈ maskSources w v) (hmsg : icuMessage n = true) :
    src (icuPendClr w v s) n = (src s n).unrequest :=
  src_foldl_of_mem (fun st n m => src_icuClear n m st) ((maskSources_nodup w v).filter _)
    (List.mem_filter.2 ⟨h, hmsg⟩) s

end

theorem icuPendClr_onlySrc (w : Nat) (v : Word) (s : State) : OnlySrc s (icuPendClr w v s) :=
  OnlySrc.foldl (fun st n => icuClear_onlySrc n st) _ s

theorem tgt_icuPendSet (w : Nat) (v : Word) (s : State) : (icuPendSet w v s).icu.tgt = s.icu.tgt := by
  unfold icuPendSet
  generalize (maskSources w v).filter icuMessage = l
  induction l generalizing s with
  | nil => rfl
  | cons n l ih => exact (ih _).trans (tgt_icuSet n s)

/-- Requests to different sources: those merge whose source held a request before. -/
theorem merged_foldl_icuSet {l : List Nat} (hl : l.Nodup) (s : State) :
    (l.foldl (fun st n => icuSet n st) s).icu.merged =
      satAdd s.icu.merged (l.filter fun n => (src s n).asked).length := by
  induction l generalizing s with
  | nil => exact (satAdd_zero _).symm
  | cons n l ih =>
    obtain ⟨hn, hl⟩ := List.nodup_cons.1 hl
    have hrest : (l.filter fun m => (src (icuSet n s) m).asked) = l.filter fun m => (src s m).asked :=
      List.filter_congr fun m hm => by rw [src_icuSet, if_neg (ne_of_mem_of_not_mem hm hn)]
    rw [List.foldl_cons, ih hl, hrest, merged_icuSet, List.filter_cons]
    split
    · rw [satInc, satAdd_satAdd, List.length_cons, Nat.add_comm]
    · rfl

theorem merged_icuPendSet (w : Nat) (v : Word) (s : State) :
    (icuPendSet w v s).icu.merged = satAdd s.icu.merged ((List.range 32).filter fun i =>
      v.getLsbD i && icuMessage (32 * w + i) && (src s (32 * w + i)).asked).length :=
  (merged_foldl_icuSet ((maskSources_nodup w v).filter _) s).trans
    (congrArg _ (length_filter_maskSources w v fun n => (src s n).asked))

theorem Src.request_of_idle {x : Src} (h : x.st = .idle) : x.request = { x with st := .pending } := by
  simp only [request, h]

theorem Src.request_of_active {x : Src} (h : x.st = .active) : x.request = { x with st := .activePending } := by
  simp only [request, h]

theorem Src.unrequest_of_activePending {x : Src} (h : x.st = .activePending) :
    x.unrequest = { x with st := .active } := by
  simp only [unrequest, h]

theorem Src.unrequest_of_waiting {x : Src} (h : x.st = .pending ∨ x.st = .delivered) :
    x.unrequest = { x with st := .idle, holder := 7, withdrawn := none } := by
  rcases h with h | h <;> simp only [unrequest, h]

/-! ## Enables (R401, R407) -/

theorem src_disable (n m : Nat) (s : State) : src (icuWithdraw n (updSrc n (fun x => { x with en := false }) s)) m =
    if m = n then Src.withdraw { src s m with en := false } else src s m := by
  rw [src_icuWithdraw, src_updSrc]
  split <;> rfl

section
variable {w : Nat} {v : Word} {s : State} {n : Nat}

theorem src_icuEnSet_other (h : n ∉ maskSources w v) : src (icuEnSet w v s) n = src s n :=
  src_foldl_of_notMem (f := fun x => { x with en := true }) (fun st n m => src_updSrc n m _ st)
    (mt List.mem_of_mem_filter h) s

theorem src_icuEnSet (h : n ∈ maskSources w v) (hres : icuReserved n = false) :
    src (icuEnSet w v s) n = { src s n with en := true } :=
  src_foldl_of_mem (f := fun x => { x with en := true }) (fun st n m => src_updSrc n m _ st)
    ((maskSources_nodup w v).filter _) (List.mem_filter.2 ⟨h, by rw [hres]; rfl⟩) s

theorem src_icuEnClr_other (h : n ∉ maskSources w v) : src (icuEnClr w v s) n = src s n :=
  src_foldl_of_notMem (f := fun x => Src.withdraw { x with en := false }) (fun st n m => src_disable n m st) h s

theorem src_icuEnClr (h : n ∈ maskSources w v) :
    src (icuEnClr w v s) n = Src.withdraw { src s n with en := false } :=
  src_foldl_of_mem (f := fun x => Src.withdraw { x with en := false }) (fun st n m => src_disable n m st)
    (maskSources_nodup w v) h s

end

theorem icuEnSet_onlySrc (w : Nat) (v : Word) (s : State) : OnlySrc s (icuEnSet w v s) :=
  OnlySrc.foldl (fun st n => updSrc_onlySrc n _ st) _ s

theorem icuEnClr_onlySrc (w : Nat) (v : Word) (s : State) : OnlySrc s (icuEnClr w v s) :=
  OnlySrc.foldl (fun st n => (updSrc_onlySrc n _ st).trans (icuWithdraw_onlySrc n _)) _ s

/-! ## Targets and configuration (R407, R412) -/

theorem icuTCtrl_onlySrc (t : Nat) (v : Word) (s : State) :
    OnlySrc (setTgt t { tgt s t with mask := v.getLsbD 4, threshold := v.setWidth 4 } s) (icuTCtrl t v s) :=
  OnlySrc.foldl (fun st n => icuWithdraw_onlySrc n st) _ _

/-- Only what is delivered to the target can be withdrawn. -/
theorem src_icuTCtrl {t n : Nat} (v : Word) {s : State} (h : (src s n).st ≠ .delivered ∨ (src s n).holder ≠ t) :
    src (icuTCtrl t v s) n = src s n :=
  src_foldl_icuWithdraw (fun hn => by
    obtain ⟨-, hst, hholder⟩ := mem_deliveredTo.1 (List.mem_of_mem_filter hn)
    exact h.elim (· hst) (· hholder)) _

theorem icuSrcCfg_onlySrc (n : Nat) (v : Word) (s : State) : OnlySrc s (icuSrcCfg n v s) := by
  unfold icuSrcCfg
  extract_lets old u x
  have hu : OnlySrc s u := updSrc_onlySrc ..
  split
  · exact OnlySrc.refl s
  · split
    · exact hu.trans (icuWithdraw_onlySrc n u)
    · exact hu

theorem src_icuSrcCfg_other {n m : Nat} (v : Word) (s : State) (h : m ≠ n) : src (icuSrcCfg n v s) m = src s m := by
  unfold icuSrcCfg
  extract_lets old u x
  have hu : src u m = src s m := by rw [src_updSrc, if_neg h]
  split
  · rfl
  · split
    · rw [src_icuWithdraw, if_neg h, hu]
    · exact hu

/-- A source that is not delivered has nothing to withdraw. -/
theorem src_icuSrcCfg {n : Nat} (v : Word) {s : State} (hres : icuReserved n = false) (hst : (src s n).st ≠ .delivered) :
    src (icuSrcCfg n v s) n =
      { src s n with targets := BitVec.ofNat 5 (v.toNat / 2 ^ 16), prio := v.setWidth 4 } := by
  unfold icuSrcCfg
  extract_lets old u x
  have hu : src u n = { src s n with targets := BitVec.ofNat 5 (v.toNat / 2 ^ 16), prio := v.setWidth 4 } := by
    rw [src_updSrc, if_pos rfl]
  rw [hres, if_neg Bool.false_ne_true]
  split
  · rw [src_icuWithdraw, if_pos rfl, hu]
    exact if_neg hst
  · exact hu

/-! ## The obligation -/

/-- Settles O43: a claim by the choice among the delivered sources, a completion by who holds the source, the writes of a
mask source by source. -/
theorem interruptService : Obligations.InterruptService := by
  unfold Obligations.InterruptService
  refine ⟨fun t s hup => ⟨exec_icuTClaim_none hup, fun n hnext => ?_, fun hbar => exec_icuTClaim_bar0 hbar t,
    fun v => ?_, fun hbar => ?_⟩, fun w v s hup => ?_⟩
  · obtain ⟨hst, hholder, hlevel⟩ := nextClaim_claimable hnext
    exact ⟨hst, hholder, hlevel, fun m => le_nextClaim hnext, exec_icuTClaim_some hup hnext⟩
  · intro n
    have hexec : exec (.icuTComplete .localPort t v) s = .next (icuComplete t.val n s) :=
      congrArg _ (icuWrite_local hup _)
    rw [hexec]
    clear_value n
    refine ⟨fun hn => congrArg _ ?_, fun hn hholder hst hline => congrArg _ ?_, fun hn hholder hst => congrArg _ ?_,
      fun hn hnot => congrArg _ (icuComplete_of_not_held hn hnot)⟩
    · rw [hn, icuComplete_spurious]
    · rw [icuComplete_of_held hn (.inl hst) hholder, hst, hline]
      rfl
    · rw [icuComplete_of_held hn (hst.symm.imp_left (·.1)) hholder, if_pos]
      rcases hst with hst | ⟨-, hline⟩
      · simp [hst]
      · simp [hline]
  · have hdenied (f : State → State) : (.next (icuWrite .bar0 f s) : Host.Outcome State Fault Refusal) =
        .next (icuDenied s) := congrArg _ (icuWrite_bar0 hbar f)
    exact ⟨fun v => ⟨hdenied _, hdenied _⟩, fun w v => ⟨hdenied _, hdenied _, hdenied _, hdenied _⟩,
      fun n v => hdenied _⟩
  · intro named
    have hother {n : Nat} (h : ¬named n) : n ∉ maskSources w.val v := mt mem_maskSources.1 h
    have hmem {n : Nat} (h : named n) : n ∈ maskSources w.val v := mem_maskSources.2 h
    have hlocal (f : State → State) : (.next (icuWrite .localPort f s) : Host.Outcome State Fault Refusal) =
        .next (f s) := congrArg _ (icuWrite_local hup f)
    refine ⟨⟨icuPendSet w.val v s, hlocal _, fun n hn => src_icuPendSet_other (hother hn), fun n hn hmsg => ?_,
        merged_icuPendSet w.val v s, tgt_icuPendSet w.val v s⟩,
      ⟨icuPendClr w.val v s, hlocal _, fun n hn => src_icuPendClr_other (hother hn), icuPendClr_onlySrc w.val v s,
        fun n hn hmsg => ?_⟩,
      ⟨icuEnSet w.val v s, hlocal _, icuEnSet_onlySrc w.val v s, fun n hn => src_icuEnSet_other (hother hn),
        fun n hn => src_icuEnSet (hmem hn)⟩,
      ⟨icuEnClr w.val v s, hlocal _, icuEnClr_onlySrc w.val v s, fun n hn => src_icuEnClr_other (hother hn),
        fun n hn => ?_⟩,
      fun t => ⟨icuTCtrl t.val v s, hlocal _, icuTCtrl_onlySrc t.val v s, fun n => src_icuTCtrl v⟩,
      fun n hres hst => ⟨icuSrcCfg n.val v s, hlocal _, icuSrcCfg_onlySrc n.val v s,
        src_icuSrcCfg v hres (by simp [hst]), fun m => src_icuSrcCfg_other v s⟩⟩
    · rw [src_icuPendSet (hmem hn) hmsg]
      exact ⟨Src.request_of_idle, Src.request_of_active, fun hst => Src.request_of_asked (decide_eq_true hst)⟩
    · rw [src_icuPendClr (hmem hn) hmsg]
      exact ⟨Src.unrequest_of_activePending, Src.unrequest_of_waiting⟩
    · rw [src_icuEnClr (hmem hn)]
      exact ⟨fun hst => if_neg hst, fun hst => if_pos hst⟩

end Sys2Proof.Machine
end

section
/-! PROOFS. A step as its command's meaning (O1), and the two invariants that every command's law carries: the fuses'
one-way rules (O5) and the lifecycle rule (O6). -/

namespace Sys2Proof.Machine

/-- What every step does at most: that of the command in front, or of a tick. -/
theorem step_keeps_oneWay_and_life {s t : State} (h : step s = .next t) : fusesOneWay s t ∧ (lifeInv s → lifeInv t) := by
  cases hs : s.pending with
  | nil =>
    rw [step_idle hs] at h
    cases h
    exact ⟨(tick_ages s).fuse, (tick_ages s).life⟩
  | cons c rest =>
    rw [step_command hs] at h
    exact ⟨(exec_ages h).fuse, (exec_ages h).life⟩

/-- Settles O1: the step of a queue with a front. -/
theorem stepRunsFrontCommand : Obligations.StepRunsFrontCommand := by
  unfold Obligations.StepRunsFrontCommand
  exact fun c rest s h => step_command h

/-- Settles O5: neither a tick nor any command turns a fuse back. -/
theorem fusesOneWay_step : Obligations.FusesOneWay := by
  unfold Obligations.FusesOneWay
  exact fun s t h => (step_keeps_oneWay_and_life h).1

/-- Settles O6: a tick and every command keep the lifecycle rule. -/
theorem lifecycleKept : Obligations.LifecycleKept := by
  unfold Obligations.LifecycleKept
  exact fun s t hs h => (step_keeps_oneWay_and_life h).2 hs

end Sys2Proof.Machine
end

section
/-! PROOFS. Fields of byte strings: what a field of a string of fields reads as. -/

namespace Sys2Proof

theorem leNat_lt (bs : List Byte) : leNat bs < 256 ^ bs.length := by
  induction bs with
  | nil => exact Nat.one_pos
  | cons b bs ih =>
    have hb : b.toNat < 256 := b.isLt
    rw [leNat, List.length_cons, Nat.pow_succ]
    omega

theorem leNat_leBytes (n x : Nat) : leNat (leBytes n x) = x % 256 ^ n := by
  induction n generalizing x with
  | zero => exact (Nat.mod_one x).symm
  | succ n ih =>
    rw [leBytes, leNat, ih, BitVec.toNat_ofNat, show 256 ^ (n + 1) = 256 * 256 ^ n from Nat.pow_succ']
    exact (Nat.mod_mul (a := 256) (x := x)).symm

theorem leBytes_leNat (bs : List Byte) : leBytes bs.length (leNat bs) = bs := by
  induction bs with
  | nil => rfl
  | cons b bs ih =>
    have hb : b.toNat < 256 := b.isLt
    have hhead : BitVec.ofNat 8 (b.toNat + 256 * leNat bs) = b := BitVec.eq_of_toNat_eq (by
      rw [BitVec.toNat_ofNat]
      omega)
    rw [List.length_cons, leNat, leBytes, hhead, show (b.toNat + 256 * leNat bs) / 256 = leNat bs by omega, ih]

/-- The bytes of a number put together from a low and a high part. -/
theorem leBytes_add (m n : Nat) {x : Nat} (y : Nat) (hx : x < 256 ^ m) :
    leBytes (m + n) (x + y * 256 ^ m) = leBytes m x ++ leBytes n y := by
  induction m generalizing x with
  | zero =>
    obtain rfl : x = 0 := by simpa using hx
    simp [leBytes]
  | succ m ih =>
    have hdiv : (x + y * 256 ^ (m + 1)) / 256 = x / 256 + y * 256 ^ m := by
      rw [Nat.pow_succ, ← Nat.mul_assoc]
      omega
    have hlow : BitVec.ofNat 8 (x + y * 256 ^ (m + 1)) = BitVec.ofNat 8 x := BitVec.eq_of_toNat_eq (by
      rw [BitVec.toNat_ofNat, BitVec.toNat_ofNat, Nat.pow_succ, ← Nat.mul_assoc]
      omega)
    rw [Nat.add_right_comm, leBytes, hdiv, hlow, ih (by rw [Nat.pow_succ] at hx; omega)]
    rfl

/-- A field behind the first part of a string is a field of the rest. -/
theorem slice_append_right {o : Nat} (n : Nat) {a : List Byte} (b : List Byte) (h : a.length ≤ o) :
    slice o n (a ++ b) = slice (o - a.length) n b := by
  rw [slice, slice, List.drop_append, List.drop_eq_nil_of_le h, List.nil_append]

/-- A field within the first part of a string is a field of that part. -/
theorem slice_append_left {o n : Nat} {a : List Byte} (b : List Byte) (h : o + n ≤ a.length) :
    slice o n (a ++ b) = slice o n a := by
  have hdrop : ((a ++ b).drop o) = a.drop o ++ b := List.drop_append_of_le_length (by omega)
  have htake : (a.drop o ++ b).take n = (a.drop o).take n := List.take_append_of_le_length (by rw [List.length_drop]; omega)
  rw [slice, slice, hdrop, htake]

theorem slice_self (a : List Byte) : slice 0 a.length a = a := by
  simp [slice]

@[simp] theorem slice_leBytes (n x : Nat) : slice 0 n (leBytes n x) = leBytes n x := by
  simp [slice]

end Sys2Proof
end

section
/-! PROOFS. The Blotter's writer (O57): what a write of one record changes, which event it is, and where a record's fields
lie. -/

namespace Sys2Proof.Machine

/-! ## What the Blotter's operations leave alone -/

/-- The second state differs from the first in the Blotter alone. -/
def OnlyBb (a s : State) : Prop := s = { a with bb := s.bb }

theorem OnlyBb.trans {a b c : State} (h : OnlyBb a b) (k : OnlyBb b c) : OnlyBb a c :=
  Eq.trans k (congrArg (fun x : State => { x with bb := c.bb }) h)

theorem OnlyBb.flash {a s : State} (h : OnlyBb a s) : s.flash = a.flash := by
  rw [h]

theorem OnlyBb.fuse {a s : State} (h : OnlyBb a s) : s.fuse = a.fuse := by
  rw [h]

theorem OnlyBb.host {a s : State} (h : OnlyBb a s) : s.host = a.host := by
  rw [h]

theorem OnlyBb.boot {a s : State} (h : OnlyBb a s) : s.boot = a.boot := by
  rw [h]

theorem logEvent_onlyBb (code source : Nat) (data : List Nat) (s : State) : OnlyBb s (logEvent code source data s) :=
  logSev_onlyBb ..

/-- The next slot filled with a record, whatever it holds. -/
def putRecord (r : BitVec 1024) (sev : Nat) (s : State) : State :=
  let s := bbFlag 0 { s with bb := { s.bb with
    slots := Tab.put 0 s.bb.slots (s.bb.next.toNat % 65536) r, next := s.bb.next + 1, done := s.bb.next + 1 } }
  if 3 ≤ sev then bbFlag 1 s else s

theorem bbPut_eq (e : Event) (s : State) : bbPut e s = putRecord (bbRecord s.bb.next.toNat e) e.severity s := by
  unfold bbPut putRecord
  rfl

theorem onlyBb_set (s : State) (b : BbSt) : OnlyBb s { s with bb := b } := rfl

/-- What a written record leaves of the Blotter, and the status bit that it sets. -/
theorem putRecord_spec (r : BitVec 1024) (sev : Nat) (s : State) : ∃ st : BitVec 3, st.getLsbD 0 = true ∧
    putRecord r sev s = { s with bb := { s.bb with
      slots := Tab.put 0 s.bb.slots (s.bb.next.toNat % 65536) r
      next := s.bb.next + 1, done := s.bb.next + 1, status := st } } := by
  unfold putRecord
  dsimp only
  split
  · exact ⟨s.bb.status ||| 1 ||| 2, by simp, rfl⟩
  · exact ⟨s.bb.status ||| 1, by simp, rfl⟩

/-- The slot of a written record holds it, the others what they held before, and the counts pass it. -/
theorem putRecord_written (r : BitVec 1024) (sev : Nat) {s u : State} (hnext : u.bb.next = s.bb.next)
    (hslots : u.bb.slots = s.bb.slots) :
    (putRecord r sev u).bb.next = s.bb.next + 1 ∧ (putRecord r sev u).bb.done = s.bb.next + 1 ∧
      bbSlot (putRecord r sev u) (s.bb.next.toNat % 65536) = r ∧
      (∀ j, j ≠ s.bb.next.toNat % 65536 → bbSlot (putRecord r sev u) j = bbSlot s j) ∧
      (putRecord r sev u).bb.status.getLsbD 0 = true ∧ (putRecord r sev u).bb.queue = u.bb.queue ∧
      (putRecord r sev u).bb.rate = u.bb.rate ∧ (putRecord r sev u).bb.suppressed = u.bb.suppressed ∧
      (putRecord r sev u).bb.owed = u.bb.owed := by
  obtain ⟨st, hst, h⟩ := putRecord_spec r sev u
  rw [h]
  unfold bbSlot
  dsimp only
  rw [hnext, hslots]
  exact ⟨rfl, rfl, Tab.get_put_same .., fun j hj => Tab.get_put_other _ _ hj, hst, rfl, rfl, rfl, rfl⟩

theorem putRecord_onlyBb (r : BitVec 1024) (sev : Nat) (s : State) : OnlyBb s (putRecord r sev s) := by
  obtain ⟨st, -, h⟩ := putRecord_spec r sev s
  rw [h]
  exact onlyBb_set ..

theorem bbPut_onlyBb (e : Event) (s : State) : OnlyBb s (bbPut e s) := by
  rw [bbPut_eq]
  exact putRecord_onlyBb ..

theorem setRate_onlyBb (code w n : Nat) (s : State) : OnlyBb s (setRate code w n s) := onlyBb_set ..

theorem blotterStep_onlyBb (s : State) : OnlyBb s (blotterStep s) := by
  unfold blotterStep
  split
  · rfl
  · split
    · exact (onlyBb_set s _).trans (bbPut_onlyBb ..)
    · extract_lets b u r
      split
      · exact (onlyBb_set s _).trans (setRate_onlyBb ..)
      · exact ((onlyBb_set s _ : OnlyBb s u).trans (setRate_onlyBb ..)).trans (bbPut_onlyBb ..)

theorem blotterFlush_onlyBb (n : Nat) (s : State) : OnlyBb s (blotterFlush n s) := by
  induction n generalizing s with
  | zero => rfl
  | succ n ih =>
    unfold blotterFlush
    split
    · rfl
    · exact (blotterStep_onlyBb s).trans (ih _)

theorem blotterScan_onlyBb (s : State) : OnlyBb s (blotterScan s) := onlyBb_set ..

/-! ## Queueing an event -/

/-- An event as it is queued now. -/
def eventNow (sev code source : Nat) (data : List Nat) (s : State) : Event :=
  { code := code, source := source, severity := sev, data := data, time := s.now - s.boot.t0, boot := s.flash.bootCount }

/-- With room among the 240 places that any event may take, an event joins the queue. -/
theorem logSev_of_room (sev code source : Nat) (data : List Nat) {s : State} (h : s.bb.queue.length < 240) :
    logSev sev code source data s =
      { s with bb := { s.bb with queue := s.bb.queue ++ [eventNow sev code source data s] } } := by
  have hroom : s.bb.queue.length < (if sev = 4 then 256 else 240) := by split <;> omega
  simp only [logSev, if_pos hroom, eventNow]

/-! ## Writing one record -/

section
variable (s : State)

theorem rateOf_congr {t : State} (h : t.bb.rate = s.bb.rate) (code : Nat) : rateOf t code = rateOf s code := by
  rw [rateOf, rateOf, h]

theorem rateOf_setRate (code w n : Nat) : rateOf (setRate code w n s) code = (w, n) := by
  have hgone : ((s.bb.rate.filter fun r => r.1 != code).find? fun r => r.1 == code) = none :=
    List.find?_eq_none.2 fun r hr => by simpa using (List.mem_filter.1 hr).2
  simp [rateOf, setRate, List.find?_append, hgone]

end

/-! ## The rows -/

section
variable {s : State}

theorem exec_blotterWrite (h : bbScanned s = true) : exec .blotterWrite s = .next (blotterStep s) := by
  simp only [exec, execBlotterWrite, if_pos h]

theorem exec_blotterWrite_unscanned (h : bbScanned s = false) : exec .blotterWrite s = .next s := by
  simp only [exec, execBlotterWrite, h, Bool.false_eq_true, if_false]

theorem bbScanned_iff : bbScanned s = true ↔ s.boot.phase ≠ .held ∧ s.boot.phase ≠ .booting := by
  simp [bbScanned]

theorem blotterStep_of_empty (h : s.bb.queue = []) : blotterStep s = s := by
  simp only [blotterStep, h]

variable {e : Event} {rest : List Event}

/-- The state with the queue's front taken. -/
def frontTaken (rest : List Event) (s : State) : State := { s with bb := { s.bb with queue := rest } }

theorem blotterStep_of_owed (hq : s.bb.queue = e :: rest) (howed : 0 < s.bb.owed) :
    blotterStep s =
      putRecord (bbRecord s.bb.next.toNat (overrunEvent s)) 3 { s with bb := { s.bb with owed := 0 } } := by
  simp only [blotterStep, hq, if_pos howed]
  exact bbPut_eq ..

theorem blotterStep_of_within (hq : s.bb.queue = e :: rest) (howed : s.bb.owed = 0)
    (hrate : (rateOf s e.code).1 < 16 ∨ e.severity = 4) :
    blotterStep s = putRecord (bbRecord s.bb.next.toNat e) e.severity
      (setRate e.code ((rateOf s e.code).1 + 1) (rateOf s e.code).2 (frontTaken rest s)) := by
  have hlimit : ¬ (e.severity ≠ 4 ∧ 16 ≤ (rateOf (frontTaken rest s) e.code).1) := by
    rw [rateOf_congr (t := frontTaken rest s) s rfl]
    omega
  simp only [blotterStep, hq]
  rw [if_neg (by omega)]
  exact (if_neg hlimit).trans (bbPut_eq ..)

theorem blotterStep_of_limited (hq : s.bb.queue = e :: rest) (howed : s.bb.owed = 0)
    (hrate : 16 ≤ (rateOf s e.code).1) (hsev : e.severity ≠ 4) :
    blotterStep s = setRate e.code (rateOf s e.code).1 ((rateOf s e.code).2 + 1)
      { s with bb := { s.bb with queue := rest, suppressed := satInc s.bb.suppressed } } := by
  simp only [blotterStep, hq]
  rw [if_neg (by omega)]
  exact if_pos ⟨hsev, hrate⟩

/-- The records of a second's end, offered one after the other, all find room. -/
theorem foldl_logEvent_of_room (l : List (Nat × Nat × Nat)) (s : State) (h : s.bb.queue.length + l.length ≤ 240) :
    l.foldl (fun st r => logEvent 0xFE 10 [r.1, r.2.2] st) s =
      { s with bb := { s.bb with queue := s.bb.queue ++ l.map fun r => eventNow 2 0xFE 10 [r.1, r.2.2] s } } := by
  induction l generalizing s with
  | nil => simp
  | cons r l ih =>
    rw [List.length_cons] at h
    have hfirst : logEvent 0xFE 10 [r.1, r.2.2] s = { s with bb := { s.bb with
        queue := s.bb.queue ++ [eventNow 2 0xFE 10 [r.1, r.2.2] s] } } := logSev_of_room _ _ _ _ (by omega)
    rw [List.foldl_cons, hfirst, ih _ (by simp; omega)]
    simp [eventNow]

theorem exec_suppressed (h : s.boot.phase ≠ .held) :
    exec .suppressed s = .next ((s.bb.rate.filter fun r => decide (0 < r.2.2)).foldl
      (fun st r => logEvent 0xFE 10 [r.1, r.2.2] st) { s with bb := { s.bb with rate := [] } }) := by
  simp only [exec, execSuppressed, if_neg h]

end

/-! ## The fields of a record (R521) -/

theorem crcStep_lt {poly c : Nat} (n : Nat) (hp : poly < 2 ^ 32) (hc : c < 2 ^ 32) : crcStep poly n c < 2 ^ 32 := by
  induction n generalizing c with
  | zero => exact hc
  | succ n ih =>
    refine ih ?_
    have hhalf : c / 2 < 2 ^ 32 := by omega
    split
    · exact Nat.xor_lt_two_pow hhalf hp
    · exact hhalf

theorem crc32_lt (m : List Byte) : crc32 m < 2 ^ 32 := by
  have hfold : ∀ (m : List Byte) (c : Nat), c < 2 ^ 32 →
      m.foldl (fun c b => crcStep 0xEDB88320 8 (Nat.xor c b.toNat)) c < 2 ^ 32 := by
    intro m
    induction m with
    | nil => exact fun c hc => hc
    | cons b m ih =>
      exact fun c hc => ih _ (crcStep_lt 8 (by decide) (Nat.xor_lt_two_pow hc (by have := b.isLt; omega)))
  exact Nat.xor_lt_two_pow (hfold m _ (by decide)) (by decide)

@[simp] theorem bbData_length (e : Event) : (bbData e).length = 96 := slice_length ..

@[simp] theorem bbBody_length (n : Nat) (e : Event) : (bbBody n e).length = 124 := by
  simp [bbBody]

/-- A record's bytes: the body, and the CRC over it. -/
theorem leBytes_bbRecord (n : Nat) (e : Event) :
    leBytes 128 (bbRecord n e).toNat = bbBody n e ++ leBytes 4 (crc32 (bbBody n e)) := by
  have hbody : leNat (bbBody n e) < 256 ^ 124 := bbBody_length n e ▸ leNat_lt _
  have hcrc : crc32 (bbBody n e) ≤ 2 ^ 32 - 1 := Nat.le_sub_one_of_lt (crc32_lt _)
  have hpow : (256 : Nat) ^ 124 = 2 ^ 992 := by rw [show 992 = 8 * 124 from rfl, Nat.pow_mul]
  have htop : (2 : Nat) ^ 1024 = 2 ^ 32 * 2 ^ 992 := by rw [show 1024 = 32 + 992 from rfl, Nat.pow_add]
  have hfit : leNat (bbBody n e) + crc32 (bbBody n e) * 2 ^ 992 < 2 ^ 1024 := by
    have hmul := Nat.mul_le_mul_right (2 ^ 992) hcrc
    rw [htop]
    rw [hpow] at hbody
    generalize (2 : Nat) ^ 992 = P at *
    omega
  have hbytes := leBytes_leNat (bbBody n e)
  rw [bbBody_length] at hbytes
  rw [bbRecord, BitVec.toNat_ofNat, Nat.mod_eq_of_lt hfit, ← hpow, leBytes_add 124 4 _ hbody, hbytes]

/-- The fields of R521 at their places. -/
theorem bbBody_fields (n : Nat) (e : Event) (b : List Byte) : let r := bbBody n e ++ b
    leAt r 0 8 = n % 2 ^ 64 ∧ leAt r 8 4 = e.boot % 2 ^ 32 ∧
      leAt r 0xC 4 = (put' e.code 16 16 + put' e.source 8 8 + e.severity % 16) % 2 ^ 32 ∧
      leAt r 0x10 8 = e.time % 2 ^ 64 ∧ slice 0x18 96 r = bbData e ∧ leAt r 0x78 4 = 0 ∧ slice 0x7C 4 r = slice 0 4 b ∧
      r.take 124 = bbBody n e := by
  have hdata : slice 0 96 (bbData e) = bbData e := bbData_length e ▸ slice_self (bbData e)
  refine ⟨?_, ?_, ?_, ?_, ?_, ?_, ?_, List.take_left' (bbBody_length n e)⟩ <;>
    simp [leAt, bbBody, slice_append_right, slice_append_left, slice_leBytes, leNat_leBytes, hdata]

/-- A record's fields, each in its range, are the event's, and the CRC is that of the rest. -/
theorem bbRecord_fields {n : Nat} {e : Event} (hn : n < 2 ^ 64) (hboot : e.boot < 2 ^ 32) (hcode : e.code < 2 ^ 16)
    (hsource : e.source < 2 ^ 8) (hsev : e.severity < 16) (htime : e.time < 2 ^ 64) :
    let b := leBytes 128 (bbRecord n e).toNat
    leAt b 0 8 = n ∧ leAt b 8 4 = e.boot ∧ leAt b 0xC 4 = e.code * 2 ^ 16 + e.source * 2 ^ 8 + e.severity ∧
      leAt b 0x10 8 = e.time ∧ slice 0x18 96 b = bbData e ∧ leAt b 0x78 4 = 0 ∧ leAt b 0x7C 4 = crc32 (b.take 124) := by
  obtain ⟨hseq, hbt, hkind, htm, hdata, hzero, hcrc, htake⟩ := bbBody_fields n e (leBytes 4 (crc32 (bbBody n e)))
  rw [← leBytes_bbRecord] at *
  generalize leBytes 128 (bbRecord n e).toNat = b at *
  refine ⟨hseq.trans (Nat.mod_eq_of_lt hn), hbt.trans (Nat.mod_eq_of_lt hboot), hkind.trans ?_,
    htm.trans (Nat.mod_eq_of_lt htime), hdata, hzero, ?_⟩
  · simp only [put']
    omega
  · have hlow := Nat.mod_eq_of_lt (crc32_lt (bbBody n e))
    rw [htake, leAt, hcrc, slice_leBytes, leNat_leBytes, show 256 ^ 4 = 2 ^ 32 from rfl, hlow]

/-! ## The cases of the writer -/

section
variable {s : State} {e : Event} {rest : List Event}

/-- An event within its rate: the record goes to the next slot, and its code has one more this second. -/
theorem blotterStep_writes (hq : s.bb.queue = e :: rest) (howed : s.bb.owed = 0)
    (hrate : (rateOf s e.code).1 < 16 ∨ e.severity = 4) : let t := blotterStep s
    t.bb.queue = rest ∧ t.bb.next = s.bb.next + 1 ∧ t.bb.done = s.bb.next + 1 ∧
      bbSlot t (s.bb.next.toNat % 65536) = bbRecord s.bb.next.toNat e ∧
      (∀ j, j ≠ s.bb.next.toNat % 65536 → bbSlot t j = bbSlot s j) ∧ t.bb.status.getLsbD 0 = true ∧
      (rateOf t e.code).1 = (rateOf s e.code).1 + 1 ∧ t.bb.suppressed = s.bb.suppressed := by
  rw [blotterStep_of_within hq howed hrate]
  obtain ⟨hnext, hdone, hsame, hother, hst, hqueue, hrates, hsupp, -⟩ :=
    putRecord_written (bbRecord s.bb.next.toNat e) e.severity (s := s)
      (u := setRate e.code ((rateOf s e.code).1 + 1) (rateOf s e.code).2 (frontTaken rest s)) rfl rfl
  refine ⟨hqueue, hnext, hdone, hsame, hother, hst, ?_, hsupp⟩
  rw [rateOf_congr _ hrates, rateOf_setRate]

/-- After a loss the OVERRUN record goes first, and the queue waits. -/
theorem blotterStep_overrun (hq : s.bb.queue = e :: rest) (howed : 0 < s.bb.owed) : let t := blotterStep s
    t.bb.queue = e :: rest ∧ t.bb.owed = 0 ∧ t.bb.next = s.bb.next + 1 ∧ t.bb.done = s.bb.next + 1 ∧
      bbSlot t (s.bb.next.toNat % 65536) = bbRecord s.bb.next.toNat (overrunEvent s) ∧
      (∀ j, j ≠ s.bb.next.toNat % 65536 → bbSlot t j = bbSlot s j) ∧ t.bb.rate = s.bb.rate ∧
      t.bb.suppressed = s.bb.suppressed := by
  rw [blotterStep_of_owed hq howed]
  obtain ⟨hnext, hdone, hsame, hother, -, hqueue, hrates, hsupp, hzero⟩ :=
    putRecord_written (bbRecord s.bb.next.toNat (overrunEvent s)) 3 (s := s)
      (u := { s with bb := { s.bb with owed := 0 } }) rfl rfl
  exact ⟨hqueue.trans hq, hzero, hnext, hdone, hsame, hother, hrates, hsupp⟩

end

/-! ## The obligation -/

/-- Settles O57: which of its four cases the writer is in, what a written record changes, the second's end as so many
events that find room, and a record as a string of fields. -/
theorem blotterWriter : Obligations.BlotterWriter := by
  unfold Obligations.BlotterWriter
  intro s
  refine ⟨fun hph => exec_blotterWrite_unscanned ?_, fun hq => ?_, fun e rest hup hq howed hrate => ?_,
    fun e rest hup hq howed hrate hsev => ?_, fun e rest hup hq howed => ?_, fun hph hroom => ?_,
    fun n e hn hboot hcode hsource hsev htime => ?_⟩
  · rcases hph with h | h <;> simp [bbScanned, h]
  · cases hup : bbScanned s
    · exact exec_blotterWrite_unscanned hup
    · rw [exec_blotterWrite hup, blotterStep_of_empty hq]
  · exact ⟨_, exec_blotterWrite (bbScanned_iff.2 hup), blotterStep_writes hq howed hrate⟩
  · refine ⟨_, exec_blotterWrite (bbScanned_iff.2 hup), ?_⟩
    rw [blotterStep_of_limited hq howed hrate hsev]
    exact ⟨rfl, rfl, rfl, rfl, congrArg Prod.snd (rateOf_setRate ..)⟩
  · exact ⟨_, exec_blotterWrite (bbScanned_iff.2 hup), blotterStep_overrun hq howed⟩
  · refine ⟨_, exec_suppressed hph, ?_⟩
    rw [foldl_logEvent_of_room _ { s with bb := { s.bb with rate := [] } } hroom]
    exact ⟨rfl, rfl⟩
  · exact bbRecord_fields hn hboot hcode hsource hsev htime

end Sys2Proof.Machine
end

section
/-! PROOFS. Resets (O7), and what ends a trial (O8). -/

namespace Sys2Proof.Machine

/-! ## What each kind of reset leaves -/

/-- A warm reset keeps the domains of the memory controllers (R546). -/
theorem domState_resetMachine {cause : Nat} (hwarm : cause ≠ 0) (s : State) (d : Nat) :
    domState (resetMachine cause s) d = if 80 ≤ d ∧ d < 86 then domState s d else .off := by
  have hdom : (resetMachine cause s).pwr.dom = s.pwr.dom.filter fun q => decide (80 ≤ q.1) && decide (q.1 < 86) :=
    if_pos (by simpa using hwarm)
  rw [domState, hdom, get_filter_keys (fun n => decide (80 ≤ n) && decide (n < 86))]
  simp [domState]

theorem selfReset_flash (cause : Nat) (s : State) : (selfReset cause s).flash = s.flash :=
  (blotterFlush_onlyBb _ s).flash

theorem selfReset_fuse (cause : Nat) (s : State) : (selfReset cause s).fuse = s.fuse :=
  (blotterFlush_onlyBb _ s).fuse

/-- A reset that the part starts itself: booting again with its cause, no trial, fuses and flash as they were. -/
theorem selfReset_spec (cause : Nat) (s : State) : (selfReset cause s).boot.phase = .booting ∧
    (selfReset cause s).boot.cause = BitVec.ofNat 4 cause ∧ (selfReset cause s).boot.trial = false ∧
    (selfReset cause s).fuse = s.fuse ∧ (selfReset cause s).flash = s.flash :=
  ⟨rfl, rfl, rfl, selfReset_fuse .., selfReset_flash ..⟩

/-! ## The rows -/

section
variable {s : State}

theorem exec_resetN_short {lowNs : Nat} (h : lowNs < 1000) : exec (.resetN lowNs) s = .next s := by
  simp only [exec, execResetN, if_pos h]

/-- A pulse that counts ends a thermal trip's hold. -/
def thermalEnded (s : State) : State :=
  { s with pwr := { s.pwr with thermtrip := false }, boot := { s.boot with thermal := false } }

theorem exec_resetN_browned {lowNs : Nat} (h : 1000 ≤ lowNs) (hb : s.boot.brown ≠ []) :
    exec (.resetN lowNs) s = .next (thermalEnded s) := by
  simp [exec, execResetN, thermalEnded, Nat.not_lt.2 h, hb]

theorem exec_resetN {lowNs : Nat} (h : 1000 ≤ lowNs) (hb : s.boot.brown = []) :
    exec (.resetN lowNs) s = .next (resetMachine 1 (thermalEnded s)) := by
  simp [exec, execResetN, thermalEnded, Nat.not_lt.2 h, hb]

/-- The last three watchdog resets, this one among them. -/
def watchdogsNow (s : State) : List Nat := (s.flash.watchdogs ++ [s.now]).drop (s.flash.watchdogs.length - 2)

theorem exec_watchdog (p : Fin 5) (h : isUp s = true) : exec (.watchdog p) s = .next (selfReset 4
    (logEvent 0x04 0xFF [p.val] { s with flash := { s.flash with watchdogs := watchdogsNow s } })) := by
  simp [exec, execWatchdog, h, watchdogsNow]

theorem exec_trialTimeout (h : isUp s = true) (ht : s.boot.trial = true) :
    exec .trialTimeout s = .next (selfReset 3 s) := by
  simp [exec, execTrialTimeout, h, ht]

theorem exec_abandon_local (h : isUp s = true) (ht : s.boot.trial = true) :
    exec (.abandon .localPort) s = .next (selfReset 3 s) := by
  simp [exec, execAbandon, abandonTrial, h, ht]

theorem exec_abandon_bar0 (h : isUp s = true) : exec (.abandon .bar0) s = .next (fwFlag 4 s) := by
  simp [exec, execAbandon, abandonTrial, h]

end

/-- Settles O7: a power-on and a warm reset are `resetMachine`, whose parts are read off, and the resets that the part
starts itself differ from it in the Blotter alone. -/
theorem resetCauses : Obligations.ResetCauses := by
  unfold Obligations.ResetCauses
  refine ⟨fun s => ?_, fun lowNs s => ⟨fun hlow hb => ?_, exec_resetN_browned, exec_resetN_short⟩,
    fun p s hup => ?_, fun s hup ht => ?_, fun s hup ht => ?_, fun s => exec_abandon_bar0⟩
  · exact ⟨_, rfl, rfl, rfl, rfl, rfl, rfl, rfl, rfl, rfl, rfl, rfl, rfl, rfl, rfl, rfl, rfl, rfl, rfl, rfl, rfl, rfl,
      rfl, rfl, rfl, rfl, rfl, rfl⟩
  · exact ⟨_, exec_resetN hlow hb, rfl, rfl, rfl, rfl, rfl, rfl, rfl, rfl, rfl, rfl,
      domState_resetMachine (by decide) (thermalEnded s), rfl, rfl, rfl⟩
  · obtain ⟨hphase, hcause, -, hfuse, hflash⟩ := selfReset_spec 4
      (logEvent 0x04 0xFF [p.val] { s with flash := { s.flash with watchdogs := watchdogsNow s } })
    refine ⟨_, exec_watchdog p hup, hphase, hcause, ?_, ?_⟩
    · rw [hflash, logEvent_flash]
      rfl
    · rw [hfuse, logEvent_onlyBb]
  · obtain ⟨hphase, hcause, htrial, hfuse, -⟩ := selfReset_spec 3 s
    exact ⟨_, exec_trialTimeout hup ht, hphase, hcause, htrial, hfuse⟩
  · obtain ⟨hphase, hcause, htrial, hfuse, -⟩ := selfReset_spec 3 s
    exact ⟨_, exec_abandon_local hup ht, hphase, hcause, htrial, hfuse⟩

end Sys2Proof.Machine
end

section
/-! PROOFS. Slots and their directory, and what CONFIRM makes of them (O8). -/

namespace Sys2Proof.Machine

/-! ## Slots after a change of one (R508) -/

/-- Flash with another slot. -/
def withSlot (i : Nat) (x : Slot) (f : Flash) : Flash :=
  if i = 0 then { f with slot0 := x } else { f with slot1 := x }

theorem setSlot_eq (i : Nat) (x : Slot) (s : State) : setSlot i x s = { s with
    flash := if x.st = (slotOf s i).st then withSlot i x s.flash
      else writeDir (withSlot i x s.flash).slot0.st (withSlot i x s.flash).slot1.st (withSlot i x s.flash) } := rfl

theorem slotOf_setSlot_other {i k : Nat} (x : Slot) (s : State) (h : i = 0 ↔ k ≠ 0) :
    slotOf (setSlot i x s) k = slotOf s k := by
  have hslot : slotOf { s with flash := withSlot i x s.flash } k = slotOf s k := by
    unfold slotOf withSlot
    by_cases hk : k = 0
    · simp [hk, show i ≠ 0 from fun hi => h.1 hi hk]
    · simp [hk, h.2 hk]
  rw [setSlot_eq]
  split
  · exact hslot
  · exact (slotOf_writeDir ..).trans hslot

/-- Of the two slots the other one keeps what it held. -/
theorem slotOf_setSlot_sub {i : Nat} (x : Slot) (s : State) (hi : i < 2) :
    slotOf (setSlot i x s) (1 - i) = slotOf s (1 - i) :=
  slotOf_setSlot_other x s (by omega)

/-- A write of the directory is its newer copy. -/
theorem newestDir_writeDir (a b : SlotState) (f : Flash) :
    (newestDir (writeDir a b f)).st0 = a ∧ (newestDir (writeDir a b f)).st1 = b := by
  unfold writeDir
  split
  next h =>
    have hd : ¬ (newestDir f).seq + 1 < f.dirA.seq := by simp [newestDir, h]
    rw [newestDir, if_neg hd]
    exact ⟨rfl, rfl⟩
  next h =>
    have hd : f.dirB.seq < (newestDir f).seq + 1 := by simp [newestDir, h]
    rw [newestDir, if_pos hd]
    exact ⟨rfl, rfl⟩

theorem slots_writeDir (a b : SlotState) (f : Flash) :
    (writeDir a b f).slot0 = f.slot0 ∧ (writeDir a b f).slot1 = f.slot1 := by
  unfold writeDir
  split <;> exact ⟨rfl, rfl⟩

/-- The newer copy of the directory says what states the slots have. -/
def DirTrue (s : State) : Prop :=
  (newestDir s.flash).st0 = s.flash.slot0.st ∧ (newestDir s.flash).st1 = s.flash.slot1.st

theorem dirTrue_congr {s t : State} (h : t.flash = s.flash) (k : DirTrue s) : DirTrue t := by
  rw [DirTrue, h]
  exact k

/-- A change of a slot's state makes the directory true, and one that keeps the state leaves it so. -/
theorem dirTrue_setSlot {i : Nat} {x : Slot} {s : State} (h : x.st ≠ (slotOf s i).st ∨ DirTrue s) :
    DirTrue (setSlot i x s) := by
  rw [setSlot_eq, DirTrue]
  by_cases hst : x.st = (slotOf s i).st
  · obtain ⟨h0, h1⟩ : DirTrue s := h.resolve_left (not_not_intro hst)
    simp only [if_pos hst]
    unfold slotOf at hst
    unfold withSlot
    by_cases hi : i = 0
    · simp only [hi, if_true] at hst ⊢
      exact ⟨h0.trans hst.symm, h1⟩
    · simp only [hi, if_false] at hst ⊢
      exact ⟨h0, h1.trans hst.symm⟩
  · simp only [if_neg hst, slots_writeDir]
    exact newestDir_writeDir ..

theorem slotIn_of_first {s : State} {st : SlotState} (h : (slotOf s 0).st = st) : slotIn s st = some 0 := by
  simp [slotIn, h]

theorem slotIn_of_second {s : State} {st : SlotState} (h0 : (slotOf s 0).st ≠ st) (h1 : (slotOf s 1).st = st) :
    slotIn s st = some 1 := by
  simp [slotIn, h0, h1]

/-- The slot found in a state is one of the two and in that state. -/
theorem slotIn_some {s : State} {st : SlotState} {i : Nat} (h : slotIn s st = some i) :
    i < 2 ∧ (slotOf s i).st = st := by
  have hst : ((slotOf s i).st == st) = true := List.find?_some (p := fun k => (slotOf s k).st == st) h
  have hmem : i ∈ ([0, 1] : List Nat) := List.mem_of_find?_eq_some h
  refine ⟨?_, by simpa using hst⟩
  simp at hmem
  omega

theorem slotIn_none {s : State} {st : SlotState} (h : slotIn s st = none) {i : Nat} (hi : i < 2) :
    (slotOf s i).st ≠ st := by
  have hall := List.find?_eq_none.1 h i (by simp; omega)
  simpa using hall

/-- The only slot in a state is the one found. -/
theorem slotIn_of_only {s : State} {st : SlotState} {i : Nat} (hi : i < 2) (h : (slotOf s i).st = st)
    (hother : (slotOf s (1 - i)).st ≠ st) : slotIn s st = some i := by
  obtain rfl | rfl : i = 0 ∨ i = 1 := by omega
  · exact slotIn_of_first h
  · exact slotIn_of_second hother h

/-! ## CONFIRM (R516) -/

section
variable {s : State}

theorem exec_confirm_idle (h : s.boot.trial = false ∨ trialHealthy s = false) :
    exec (.confirm .localPort) s = .next s := by
  have hstay : confirmTrial .localPort s = s := by
    rcases h with h | h <;> simp [confirmTrial, h]
  simp [exec, execConfirm, hstay]

theorem exec_confirm_bar0 (h : isUp s = true) : exec (.confirm .bar0) s = .next (fwFlag 4 s) := by
  simp [exec, execConfirm, confirmTrial, h]

/-- The SVN_MIN that a confirmed image leaves. -/
def svnConfirmed (s : State) : Nat := max s.fuse.svnMin.toNat (slotSvn (slotOf s s.boot.slot))

theorem svnConfirmed_lt (s : State) : svnConfirmed s < 2 ^ 6 :=
  Nat.max_lt.2 ⟨s.fuse.svnMin.isLt, Nat.mod_lt _ (by decide)⟩

/-- The slots changed places and the fuse raised, before an old BACKUP is looked at. -/
def trialEnded (s : State) : State :=
  let u := setSlotState s.boot.slot .active (setSlotState (1 - s.boot.slot) .backup s)
  { u with boot := { u.boot with trial := false }
           fuse := { u.fuse with svnMin := BitVec.ofNat 6 (svnConfirmed s) } }

theorem confirmTrial_eq (htrial : s.boot.trial = true) (hhealthy : trialHealthy s = true) (hslot : s.boot.slot < 2)
    (hactive : slotIn s .active = some (1 - s.boot.slot)) : ∃ l, confirmTrial .localPort s =
      logEvent 0x14 0xFF l (fwFlag 2 (rejectOld (trialEnded s))) := by
  have hsvn : slotSvn (slotOf (setSlotState s.boot.slot .active (setSlotState (1 - s.boot.slot) .backup s)) s.boot.slot) =
      slotSvn (slotOf s s.boot.slot) := by
    rw [setSlotState, slotOf_setSlot_same, setSlotState, slotOf_setSlot_other _ _ (by omega)]
    rfl
  refine ⟨[s.boot.slot, (s.now - s.boot.t0) / 100000, svnConfirmed s], ?_⟩
  simp only [confirmTrial, htrial, hhealthy, hactive, Bool.not_true, Bool.or_self, Bool.false_eq_true, if_false, hsvn]
  rfl

theorem slotOf_trialEnded (hslot : s.boot.slot < 2) :
    slotOf (trialEnded s) s.boot.slot = { slotOf s s.boot.slot with st := .active } ∧
      slotOf (trialEnded s) (1 - s.boot.slot) = { slotOf s (1 - s.boot.slot) with st := .backup } := by
  have hflash (i : Nat) : slotOf (trialEnded s) i =
      slotOf (setSlotState s.boot.slot .active (setSlotState (1 - s.boot.slot) .backup s)) i := rfl
  constructor
  · rw [hflash, setSlotState, slotOf_setSlot_same, setSlotState, slotOf_setSlot_other _ _ (by omega)]
  · rw [hflash, setSlotState, slotOf_setSlot_other _ _ (by omega), setSlotState, slotOf_setSlot_same]

/-- The first of the two changes is one of a state, so that the directory says what the slots are from there on. -/
theorem dirTrue_trialEnded (hactive : slotIn s .active = some (1 - s.boot.slot)) : DirTrue (trialEnded s) := by
  have hfirst : DirTrue (setSlotState (1 - s.boot.slot) .backup s) :=
    dirTrue_setSlot (.inl (by rw [(slotIn_some hactive).2]; exact SlotState.noConfusion))
  exact dirTrue_congr (s := setSlotState s.boot.slot .active (setSlotState (1 - s.boot.slot) .backup s)) rfl
    (dirTrue_setSlot (.inr hfirst))

theorem rejectOld_of_backup {u : State} {i : Nat} (h : slotIn u .backup = some i) : rejectOld u =
    if slotSvn (slotOf u i) < u.fuse.svnMin.toNat then setSlotState i .rejected u else u := by
  simp only [rejectOld, h]

theorem rejectOld_boot (u : State) : (rejectOld u).boot = u.boot := by
  unfold rejectOld
  split
  · split <;> rfl
  · rfl

theorem rejectOld_fuse (u : State) : (rejectOld u).fuse = u.fuse := by
  unfold rejectOld
  split
  · split <;> rfl
  · rfl

theorem dirTrue_rejectOld {u : State} (h : DirTrue u) : DirTrue (rejectOld u) := by
  unfold rejectOld
  split
  · split
    · exact dirTrue_setSlot (.inr h)
    · exact h
  · exact h

/-- The slots after an old BACKUP is rejected: the one that is no BACKUP as it was, the other judged by its SVN. -/
theorem slotOf_rejectOld {u : State} {i : Nat} (hi : i < 2) (hb : (slotOf u (1 - i)).st = .backup)
    (ha : (slotOf u i).st = .active) :
    slotOf (rejectOld u) i = slotOf u i ∧ (slotOf (rejectOld u) (1 - i)).st =
      if slotSvn (slotOf u (1 - i)) < u.fuse.svnMin.toNat then .rejected else .backup := by
  have hii : 1 - (1 - i) = i := by omega
  have hin : slotIn u .backup = some (1 - i) :=
    slotIn_of_only (by omega) hb (by rw [hii, ha]; exact SlotState.noConfusion)
  rw [rejectOld_of_backup hin]
  split
  · refine ⟨slotOf_setSlot_other _ _ (by omega), ?_⟩
    rw [setSlotState, slotOf_setSlot_same]
  · exact ⟨rfl, hb⟩

theorem exec_confirm (h : trialHealthy s = true) :
    exec (.confirm .localPort) s = .next (confirmTrial .localPort s) := by
  have hup : isUp s = true := by
    simp only [trialHealthy, Bool.and_eq_true] at h
    exact h.1.1
  simp [exec, execConfirm, hup]

end

/-- Settles O8: the two changes of state, the fuse raised between them and the last look at the BACKUP slot, each by what
it leaves of the slots and of their directory. -/
theorem confirmEndsTrial : Obligations.ConfirmEndsTrial := by
  unfold Obligations.ConfirmEndsTrial
  refine ⟨fun s htrial hhealthy hslot hactive => ⟨_, exec_confirm hhealthy, ?_⟩, fun s => exec_confirm_idle,
    fun s => exec_confirm_bar0⟩
  obtain ⟨l, heq⟩ := confirmTrial_eq htrial hhealthy hslot hactive
  obtain ⟨hown, hother⟩ := slotOf_trialEnded hslot
  obtain ⟨hkept, hjudged⟩ := slotOf_rejectOld (u := trialEnded s) hslot (by rw [hother]) (by rw [hown])
  have hphase : s.boot.phase = .running := by
    simp only [trialHealthy, Bool.and_eq_true, isUp, beq_iff_eq] at hhealthy
    exact hhealthy.1.1
  have hflash : (confirmTrial .localPort s).flash = (rejectOld (trialEnded s)).flash := by
    rw [heq, logEvent_flash, fwFlag_flash]
  have hboot : (confirmTrial .localPort s).boot = { s.boot with trial := false, status := s.boot.status ||| 4 } := by
    rw [heq, (logEvent_onlyBb ..).boot]
    simp only [fwFlag, rejectOld_boot]
    rfl
  have hfuse : (confirmTrial .localPort s).fuse.svnMin.toNat = svnConfirmed s := by
    rw [heq, (logEvent_onlyBb ..).fuse, fwFlag_fuse, rejectOld_fuse]
    exact Nat.mod_eq_of_lt (svnConfirmed_lt s)
  have hended : (trialEnded s).fuse.svnMin.toNat = svnConfirmed s := Nat.mod_eq_of_lt (svnConfirmed_lt s)
  obtain ⟨hdir0, hdir1⟩ := dirTrue_congr hflash (dirTrue_rejectOld (dirTrue_trialEnded hactive))
  refine ⟨by rw [hboot], by rw [hboot]; exact hphase, ?_, ?_, hfuse, ?_, hdir0, hdir1, by rw [hboot]⟩
  · rw [slotOf_congr hflash, hkept, hown]
  · rw [slotOf_congr hflash, hkept, hown]
  · rw [slotOf_congr hflash, hjudged, hother, hended, hfuse]
    rfl

end Sys2Proof.Machine
end

section
/-! PROOFS. Trips, brown-outs and the board's signals (O59). -/

namespace Sys2Proof.Machine

/-! ## Holds -/

theorem mem_addOnce {x r : Nat} {l : List Nat} : r ∈ addOnce x l ↔ r = x ∨ r ∈ l := by
  unfold addOnce
  split
  case isTrue hx => exact ⟨.inr, fun h => h.elim (fun e => e ▸ hx) id⟩
  case isFalse hx => simp [or_comm]

section
variable {s : State}

/-- The trip as it is recorded before the part holds itself: nothing but the Blotter changes, and without VIO nothing. -/
def tripNoted (sensor : Nat) (temp : BitVec 16) (vio : Bool) (s : State) : State :=
  if vio then
    blotterFlush (2 * s.bb.queue.length + 4) (logSev 4 0x82 11 [sensor, temp.toNat] (if bbScanned s then s else blotterScan s))
  else s

theorem tripNoted_onlyBb (sensor : Nat) (temp : BitVec 16) (vio : Bool) (s : State) :
    OnlyBb s (tripNoted sensor temp vio s) := by
  have hscan : OnlyBb s (if bbScanned s then s else blotterScan s) := by
    split
    · rfl
    · exact blotterScan_onlyBb s
  unfold tripNoted
  split
  · exact (hscan.trans (logSev_onlyBb ..)).trans (blotterFlush_onlyBb ..)
  · rfl

theorem exec_thermtrip {i : Fin 111} {temp : BitVec 16} (vio : Bool) (hph : s.boot.phase ≠ .held)
    (h : tripAt i.val * 16 ≤ temp.toInt) :
    exec (.thermtrip i temp vio) s = .next (thermTrip i.val temp vio s) := by
  simp [exec, execThermtrip, hph, temp16, h]

theorem exec_thermtrip_below {i : Fin 111} {temp : BitVec 16} (vio : Bool) (h : temp.toInt < tripAt i.val * 16) :
    exec (.thermtrip i temp vio) s = .next s := by
  simp [exec, execThermtrip, temp16, Int.not_le.2 h]

/-- What a thermal trip leaves. -/
theorem thermTrip_spec (sensor : Nat) (temp : BitVec 16) (vio : Bool) (s : State) :
    let t := thermTrip sensor temp vio s
    t.boot.phase = .held ∧ t.boot.thermal = true ∧ t.pwr.thermtrip = true ∧ t.pwr.dom = [] ∧ t.cmds = [] ∧
      t.mem.carafe = [] ∧ t.fuse = s.fuse ∧ t.flash = s.flash ∧ t.host.mem = s.host.mem ∧ t.boot.brown = s.boot.brown ∧
      (vio = false → t.bb.slots = s.bb.slots) := by
  have hnoted := tripNoted_onlyBb sensor temp vio s
  have htrip : thermTrip sensor temp vio s = { holdReset { tripNoted sensor temp vio s with
      pwr := { (tripNoted sensor temp vio s).pwr with thermtrip := true, vout := 750 } } with
    boot := { (holdReset (tripNoted sensor temp vio s)).boot with
      thermal := true, brown := (tripNoted sensor temp vio s).boot.brown } } := rfl
  have hmem := congrArg HostSt.mem hnoted.host
  have hbrown := congrArg BootSt.brown hnoted.boot
  rw [htrip]
  refine ⟨rfl, rfl, rfl, rfl, rfl, rfl, hnoted.fuse, hnoted.flash, hmem, hbrown, ?_⟩
  rintro rfl
  rfl

/-! ## The board's signals -/

theorem exec_holdup (hph : s.boot.phase ≠ .held) (h : s.pwr.holdup = false) : exec .holdup s =
    .next (logSev 2 0x83 11 [1] (pwrFlag 2 { s with pwr := { s.pwr with holdup := true } })) := by
  simp [exec, execHoldup, supplyEdge, h, hph, b2n]

theorem exec_lowVoltage (hph : s.boot.phase ≠ .held) (h : s.pwr.lowv = false) : exec .lowVoltage s =
    .next (logSev 2 0x84 11 [1] (pwrFlag 3 { s with pwr := { s.pwr with lowv := true } })) := by
  simp [exec, execLowVoltage, supplyEdge, h, hph, b2n]

theorem exec_holdupRelease (hph : s.boot.phase ≠ .held) (h : s.pwr.holdup = true) : exec .holdupRelease s =
    .next (logSev 2 0x83 11 [0] { s with pwr := { s.pwr with holdup := false } }) := by
  simp [exec, execHoldupRelease, supplyEdge, h, hph, b2n]

theorem exec_lowVoltageRelease (hph : s.boot.phase ≠ .held) (h : s.pwr.lowv = true) : exec .lowVoltageRelease s =
    .next (logSev 2 0x84 11 [0] { s with pwr := { s.pwr with lowv := false } }) := by
  simp [exec, execLowVoltageRelease, supplyEdge, h, hph, b2n]

/-- Before the part has booted, the reference clock's level is noted and nothing else. -/
theorem exec_refclk_notStarted (h : s.boot.phase = .held ∨ s.boot.phase = .booting) :
    exec .refclkLost s = .next { s with pwr := { s.pwr with refclkOk := false } } ∧
      exec .refclkRestored s = .next { s with pwr := { s.pwr with refclkOk := true } } := by
  have hns (p : PwrSt) : notStarted { s with pwr := p } = true := by rcases h with h | h <;> simp [notStarted, h]
  have hkeep : { s with pwr := { s.pwr with refclkOk := s.pwr.refclkOk } } = s := rfl
  cases hr : s.pwr.refclkOk <;> rw [hr] at hkeep <;> simp [exec, execRefclkLost, execRefclkRestored, hr, hns, hkeep]

theorem exec_refclkLost (hheld : s.boot.phase ≠ .held) (hboot : s.boot.phase ≠ .booting) (h : s.pwr.refclkOk = true) :
    exec .refclkLost s = .next (logSev 3 0x85 11 [0] (pwrFlag 4 { s with
      pwr := { s.pwr with refclkOk := false }, det := { s.det with refclk := 0 } })) := by
  have hns (p : PwrSt) : notStarted { s with pwr := p } = false := by simp [notStarted, hheld, hboot]
  simp [exec, execRefclkLost, h, hns]

theorem exec_refclkRestored (hheld : s.boot.phase ≠ .held) (hboot : s.boot.phase ≠ .booting)
    (h : s.pwr.refclkOk = false) : exec .refclkRestored s = .next (logSev 3 0x85 11 [1] { s with
      pwr := { s.pwr with refclkOk := true }, det := { s.det with refclk := 10000 } }) := by
  have hns (p : PwrSt) : notStarted { s with pwr := p } = false := by simp [notStarted, hheld, hboot]
  simp [exec, execRefclkRestored, h, hns]

/-- What an offered event leaves of the pins and what follows from them. -/
theorem logSev_board (sev code source : Nat) (data : List Nat) (u : State) :
    (logSev sev code source data u).pwr = u.pwr ∧ (logSev sev code source data u).boot = u.boot ∧
      (logSev sev code source data u).det = u.det := by
  rw [logSev_onlyBb]
  exact ⟨rfl, rfl, rfl⟩

end

/-! ## The obligation -/

/-- Settles O59: a hold is a power-on reset that stays held, with the lists of rails set beside it; the signals are their
bit, their flag and an event. -/
theorem tripsAndSupply : Obligations.TripsAndSupply := by
  unfold Obligations.TripsAndSupply
  refine ⟨fun i temp vio s hph => ⟨fun h => ⟨_, exec_thermtrip vio hph h, thermTrip_spec ..⟩, exec_thermtrip_below vio⟩,
    fun rail vio s => ?_, fun rail s => ⟨fun h => ?_, fun h => ?_, fun hb hlow hth => ?_, fun hph => ⟨?_, ?_, ?_, ?_, ?_, ?_⟩,
      exec_refclk_notStarted⟩⟩
  · refine ⟨_, rfl, rfl, fun r => mem_addOnce, rfl, ?_, ?_, rfl, rfl, rfl, rfl, rfl, rfl⟩
    · rintro rfl r
      exact mem_addOnce
    · rintro rfl r
      exact List.mem_filter.trans (by simp)
  · simp [exec, execRailRestored, h]
  · have hb : s.boot.brown ≠ [] := by
      rcases h with h | h
      · exact fun hnil => h (by simp [hnil])
      · exact h.1
    have hstay : s.boot.brown.filter (· != rail.val) ≠ [] ∨ s.boot.thermal = true := h.imp_right (·.2)
    simp only [exec, execRailRestored, if_neg hb, if_pos hstay]
  · have hgo : ¬ (s.boot.brown.filter (· != rail.val) ≠ [] ∨ s.boot.thermal = true) := by rw [hlow, hth]; simp
    refine ⟨resetMachine 0 s, ?_, rfl, rfl, rfl, rfl, rfl, rfl⟩
    simp only [exec, execRailRestored, if_neg hb, if_neg hgo]
  all_goals intro h
  · refine ⟨_, exec_holdup hph h, ?_⟩
    rw [(logSev_board ..).1, (logSev_board ..).2.1]
    exact ⟨rfl, rfl, rfl⟩
  · refine ⟨_, exec_lowVoltage hph h, ?_⟩
    rw [(logSev_board ..).1, (logSev_board ..).2.1]
    exact ⟨rfl, rfl, rfl⟩
  · exact ⟨_, exec_holdupRelease hph h, (logSev_board ..).1⟩
  · exact ⟨_, exec_lowVoltageRelease hph h, (logSev_board ..).1⟩
  · intro hboot
    refine ⟨_, exec_refclkLost hph hboot h, ?_⟩
    rw [(logSev_board ..).1, (logSev_board ..).2.2]
    exact ⟨rfl, rfl, rfl⟩
  · intro hboot
    refine ⟨_, exec_refclkRestored hph hboot h, ?_⟩
    rw [(logSev_board ..).1, (logSev_board ..).2.2]
    exact ⟨rfl, rfl⟩

end Sys2Proof.Machine
end

section
/-! PROOFS. What the random number generator's operations change: its own state and what was sent, and in which of them
its state stays what it is. -/

namespace Sys2Proof.Machine

theorem OnlyRng.refl (s : State) : OnlyRng s s := rfl

theorem onlyRng_set (s : State) (r : RngSt) (l : List Sent) : OnlyRng s { s with rng := r, sent := l } := rfl

theorem OnlyRng.flash {a s : State} (h : OnlyRng a s) : s.flash = a.flash := by
  rw [h]

theorem OnlyRng.mem {a s : State} (h : OnlyRng a s) : s.mem = a.mem := by
  rw [h]

theorem OnlyRng.kw {a s : State} (h : OnlyRng a s) : s.kw = a.kw := by
  rw [h]

/-- The second state differs from the first in the generator and what was sent, and the generator's state is the same. -/
def Draws (a s : State) : Prop := OnlyRng a s ∧ s.rng.st = a.rng.st

theorem Draws.refl (s : State) : Draws s s := ⟨rfl, rfl⟩

theorem Draws.trans {a b c : State} (h : Draws a b) (k : Draws b c) : Draws a c := ⟨h.1.trans k.1, k.2.trans h.2⟩

theorem draws_set {s : State} {r : RngSt} (l : List Sent) (h : r.st = s.rng.st) :
    Draws s { s with rng := r, sent := l } := ⟨rfl, h⟩

theorem rngSetLatch_draws (p : Path) (w : Word) (s : State) : Draws s (rngSetLatch p w s) := by
  cases p <;> exact ⟨rfl, rfl⟩

theorem swAnswer_draws (p : Path) (bytes : Nat) (status : Word) (s : State) : Draws s (swAnswer p bytes status s) := by
  unfold swAnswer
  split
  · exact (rngSetLatch_draws ..).trans ⟨rfl, rfl⟩
  · exact ⟨rfl, rfl⟩

theorem swValid_draws (p : Path) (bytes : Nat) (w : Word) (s : State) : Draws s (swValid p bytes w s) :=
  (rngSetLatch_draws ..).trans (swAnswer_draws ..)

theorem deliverWord_draws (port : Nat) (w : Word) (s : State) : Draws s (deliverWord port w s) := by
  unfold deliverWord
  extract_lets
  split
  · exact ⟨rfl, rfl⟩
  · split <;> exact ⟨rfl, rfl⟩

theorem takeWord_draws {s t : State} {w : Word} (h : takeWord s = some (w, t)) : Draws s t := by
  unfold takeWord at h
  extract_lets at h
  split at h
  · cases h
  · cases h
    refine draws_set _ ?_
    split <;> rfl

theorem serveWaiting_draws (n : Nat) (s : State) : Draws s (serveWaiting n s) := by
  induction n generalizing s with
  | zero => exact Draws.refl s
  | succ n ih =>
    unfold serveWaiting
    split
    · exact Draws.refl s
    next w t h =>
      split
      · refine Draws.trans (Draws.trans ?_ (deliverWord_draws ..)) (ih _)
        exact (takeWord_draws h).trans ⟨rfl, rfl⟩
      · split
        · exact Draws.refl s
        · refine Draws.trans (Draws.trans ?_ (swValid_draws ..)) (ih _)
          exact (takeWord_draws h).trans ⟨rfl, rfl⟩

theorem takeUpTo_draws (n : Nat) (s : State) : Draws s (takeUpTo n s).2 := by
  induction n generalizing s with
  | zero => exact Draws.refl s
  | succ n ih =>
    unfold takeUpTo
    split
    · exact Draws.refl s
    next w t h => exact (takeWord_draws h).trans (ih t)

theorem holdRequest_draws (port : Nat) (s : State) : Draws s (holdRequest port s) := by
  unfold holdRequest
  split <;> exact ⟨rfl, rfl⟩

theorem drawWords_draws (port n : Nat) (had : List Word) (s : State) : Draws s (drawWords port n had s).2 := by
  unfold drawWords
  extract_lets r all
  have hr : Draws s r.2 := by
    unfold r
    split
    · exact takeUpTo_draws ..
    · exact Draws.refl s
  split
  · exact hr
  · dsimp only
    split
    · exact hr
    · exact hr.trans (holdRequest_draws ..)

theorem drawKey_draws (s : State) : Draws s (drawKey s).2 :=
  (drawWords_draws 1 8 s.rng.keyWords s).trans ⟨rfl, rfl⟩

end Sys2Proof.Machine
end

section
/-! PROOFS. The boot sequence (O9): what the ROM finds, which slot it starts, and what the start of its image keeps. -/

namespace Sys2Proof.Machine

/-! ## What a boot keeps of the flash, up to where BAR0 becomes accessible -/

/-- Flash that the start of an image leaves alone. -/
def imageFlash (f : Flash) : Slot × Slot × Nat × Nat × Nat := (f.slot0, f.slot1, f.bootCount, f.lastOnline, f.lastFails)

/-- The second state has the first one's fuses, slots, counts of boots and the channels that trained. -/
structure Boots (a s : State) : Prop where
  fuse : s.fuse = a.fuse
  flash : imageFlash s.flash = imageFlash a.flash
  trained : s.boot.trained = a.boot.trained

theorem Boots.refl (s : State) : Boots s s := ⟨rfl, rfl, rfl⟩

theorem Boots.trans {a b c : State} (h : Boots a b) (k : Boots b c) : Boots a c :=
  ⟨k.fuse.trans h.fuse, k.flash.trans h.flash, k.trained.trans h.trained⟩

theorem Boots.foldl {α : Type} {f : State → α → State} (h : ∀ st x, Boots st (f st x)) (l : List α) (s : State) :
    Boots s (l.foldl f s) := by
  induction l generalizing s with
  | nil => exact Boots.refl s
  | cons x l ih => exact (h s x).trans (ih _)

theorem Touch.boots {a s : State} (h : Touch a s) : Boots a s :=
  ⟨h.fuse, (congrArg imageFlash h.flash : imageFlash (flashRest s.flash) = imageFlash (flashRest a.flash)),
    congrArg BootSt.trained h.boot⟩

theorem OnlyBb.boots {a s : State} (h : OnlyBb a s) : Boots a s :=
  ⟨h.fuse, congrArg imageFlash h.flash, congrArg BootSt.trained h.boot⟩

theorem Boots.slotOf {a s : State} (h : Boots a s) (i : Nat) : slotOf s i = slotOf a i := by
  have hf := h.flash
  simp only [imageFlash, Prod.mk.injEq] at hf
  rw [Machine.slotOf, Machine.slotOf, hf.1, hf.2.1]

/-! ## The standing table -/

theorem mapExtents_boots (ctx v : Nat) (r w : Bool) (es : List Nat) (s : State) : Boots s (mapExtents ctx r w v es s) := by
  rw [mapExtents_onlyMaps (ctx := ctx) (v := v) (r := r) (w := w) (es := es) (s := s)]
  exact ⟨rfl, rfl, rfl⟩

theorem tableContext_boots {t : State} {b : List Byte} {s : State} (h : tableContext b s = .ok t) : Boots s t := by
  unfold tableContext at h
  extract_lets at h
  split at h
  · cases h
  · cases h
    exact (Boots.foldl (fun _ _ => (extentFreed_touch ..).boots) ..).trans (mapExtents_boots ..)

theorem createQueue_boots {t : State} {d : List Byte} {s : State} (h : createQueue d s = .ok t) : Boots s t := by
  unfold createQueue at h
  split at h
  · cases h
  · split at h
    · cases h
    · cases h
      exact ⟨rfl, rfl, rfl⟩

theorem streamEnable_boots (i v : Nat) (s : State) : Boots s (streamEnable i v s) := by
  unfold streamEnable
  split
  · exact ⟨rfl, rfl, rfl⟩
  · exact ⟨rfl, rfl, rfl⟩
  · extract_lets u
    split
    · exact Boots.trans (b := updStrm i _ u) ⟨rfl, rfl, rfl⟩ (devWrite_touch ..).boots
    · exact ⟨rfl, rfl, rfl⟩

theorem tableStream_boots {t : State} {b : List Byte} {s : State} (h : tableStream b s = .ok t) : Boots s t := by
  unfold tableStream at h
  extract_lets i at h
  split at h
  · cases h
  · split at h
    · injection h with h
      subst h
      refine (Boots.foldl (fun st k => ?_) ..).trans (streamEnable_boots ..)
      split
      · exact Boots.refl st
      · exact ⟨rfl, rfl, rfl⟩
    · cases h

theorem tableApply_boots {t : State} {kind : Nat} {b : List Byte} {s : State} (h : tableApply kind b s = .ok t) :
    Boots s t := by
  have hplain {c : Prop} [Decidable c] {e : Nat} {u : State}
      (hu : (if c then Except.error e else Except.ok u) = Except.ok t) (k : Boots s u) : Boots s t := by
    split at hu
    · cases hu
    · cases hu
      exact k
  unfold tableApply at h
  split at h
  · exact tableContext_boots h
  · unfold tableQueue at h
    split at h
    · cases h
    · exact createQueue_boots h
  · exact hplain h ⟨rfl, rfl, rfl⟩
  · exact hplain h ⟨rfl, rfl, rfl⟩
  · exact hplain h ⟨rfl, rfl, rfl⟩
  · exact tableStream_boots h
  · exact hplain h ⟨rfl, rfl, rfl⟩
  · cases h

theorem applyTable_boots (i : Nat) (es : List (Nat × List Byte)) (s : State) : Boots s (applyTable i es s) := by
  induction es generalizing i s with
  | nil => exact Boots.refl s
  | cons p es ih =>
    unfold applyTable
    split
    · exact (tableApply_boots ‹_›).trans (ih ..)
    · refine Boots.trans ?_ (ih ..)
      exact Boots.trans (b := { s with boot := { s.boot with tableFails := s.boot.tableFails + 1 } }) ⟨rfl, rfl, rfl⟩
        (logEvent_onlyBb ..).boots

/-! ## Key, interrupt controller, hardware -/

/-- Only memories, the generator, what was sent, the count of free values and the Blotter differ; a generator that has not
failed has not failed since. -/
def KeyDrawn (a s : State) : Prop :=
  s = { a with mem := s.mem, rng := s.rng, sent := s.sent, free := s.free, bb := s.bb } ∧
    (a.rng.st ≠ .fatal → s.rng.st ≠ .fatal)

theorem KeyDrawn.trans {a b c : State} (h : KeyDrawn a b) (k : KeyDrawn b c) : KeyDrawn a c :=
  ⟨Eq.trans k.1 (congrArg (fun x : State => { x with
    mem := c.mem, rng := c.rng, sent := c.sent, free := c.free, bb := c.bb }) h.1), k.2 ∘ h.2⟩

theorem KeyDrawn.boots {a s : State} (h : KeyDrawn a s) : Boots a s := by
  rw [h.1]
  exact ⟨rfl, rfl, rfl⟩

theorem Draws.keyDrawn {a s : State} (h : Draws a s) : KeyDrawn a s :=
  ⟨by rw [h.1], fun hf => by rw [h.2]; exact hf⟩

/-- A generator that has not failed is RUNNING after the window that firmware waits for. -/
theorem bootWindow_keyDrawn (s : State) : KeyDrawn s (bootWindow s) := by
  have hbuffer (u : State) (h : KeyDrawn s u) (l : List Digest) (n k : Nat) :
      KeyDrawn s (bufferBlocks l { u with free := n, rng := { u.rng with clean := k } }) :=
    h.trans ⟨rfl, id⟩
  unfold bootWindow
  refine hbuffer _ ?_ _ _ _
  split
  · exact ⟨rfl, id⟩
  · exact ⟨rfl, id⟩
  · exact ⟨rfl, fun _ => RngState.noConfusion⟩
  · exact ⟨rfl, fun _ => RngState.noConfusion⟩

theorem bootDraw_keyDrawn (s : State) : KeyDrawn s (bootDraw s).2 := by
  unfold bootDraw
  split
  · exact ⟨rfl, id⟩
  · extract_lets r
    have hwords : KeyDrawn s (if rngWords s.rng + s.rng.keyWords.length < 8 then bootWindow s else s) := by
      split
      · exact bootWindow_keyDrawn s
      · exact ⟨rfl, id⟩
    exact (hwords.trans (drawKey_draws _).keyDrawn).trans (serveWaiting_draws ..).keyDrawn

theorem bootKey_keyDrawn (s : State) : KeyDrawn s (bootKey s) := by
  have hmem (u : State) (m : MemSt) (n : Nat) : KeyDrawn u { u with mem := m, free := n } := ⟨rfl, id⟩
  unfold bootKey
  extract_lets m u
  have hu : KeyDrawn s u := hmem s _ s.free
  split
  · exact hu
  · have hdraw : KeyDrawn u (if u.mem.wipeFailed then (none, u) else bootDraw u).2 := by
      split
      · exact ⟨rfl, id⟩
      · exact bootDraw_keyDrawn u
    split
    next k v he =>
      rw [he] at hdraw
      exact (hu.trans hdraw).trans (hmem v _ _)
    next v he =>
      rw [he] at hdraw
      refine (hu.trans hdraw).trans ?_
      split
      · refine KeyDrawn.trans (b := logEvent 0x32 0xFF [2] v) ⟨?_, ?_⟩ (hmem _ _ _)
        · rw [logEvent_onlyBb]
        · rw [logEvent_onlyBb]
          exact id
      · exact hmem v _ v.free

theorem icuBoot_onlyIcu (s : State) : icuBoot s = { s with icu := (icuBoot s).icu } := by
  have hfold {α : Type} (f : State → α → State) (h : ∀ u x, f u x = { u with icu := (f u x).icu }) (l : List α) (u : State) :
      l.foldl f u = { u with icu := (l.foldl f u).icu } := by
    induction l generalizing u with
    | nil => rfl
    | cons x l ih =>
      rw [List.foldl_cons, ih, h]
  unfold icuBoot
  rw [hfold _ (fun u t => ?_), hfold _ (fun u n => ?_)]
  · rfl
  · rfl

/-- What the hardware's start leaves alone, and the channels that trained. -/
theorem bootHardware_spec (f : BootFindings) (s : State) : (bootHardware f s).fuse = s.fuse ∧
    imageFlash (bootHardware f s).flash = imageFlash s.flash ∧ (bootHardware f s).flash.table = s.flash.table ∧
    (bootHardware f s).boot = { s.boot with trained := f.trained } ∧ (bootHardware f s).rng.st = s.rng.st := by
  have hsend (u : State) : (sendVout u).fuse = u.fuse ∧ (sendVout u).flash = u.flash ∧ (sendVout u).boot = u.boot ∧
      (sendVout u).rng = u.rng := by
    unfold sendVout
    split <;> exact ⟨rfl, rfl, rfl, rfl⟩
  unfold bootHardware
  extract_lets
  obtain ⟨hfuse, hflash, hboot, hrng⟩ := hsend _
  rw [hfuse, hflash, hboot, hrng]
  exact ⟨rfl, rfl, rfl, rfl, rfl⟩

/-! ## The start of an image (R498 steps 4 to 8) -/

theorem startFirmware_spec (i : Nat) (trial : Bool) (s : State) : (startFirmware i trial s).fuse = s.fuse ∧
    (startFirmware i trial s).flash = s.flash ∧ (startFirmware i trial s).rng = s.rng ∧
    (startFirmware i trial s).boot.slot = i ∧ (startFirmware i trial s).boot.trial = trial ∧
    (startFirmware i trial s).boot.tableFails = s.boot.tableFails := by
  unfold startFirmware
  extract_lets
  rw [logEvent_onlyBb]
  exact ⟨rfl, rfl, rfl, rfl, rfl, rfl⟩

/-- The image's start up to the standing table. -/
def imageStarted (f : BootFindings) (i : Nat) (trial : Bool) (s : State) : State :=
  bootKey (bootHardware f (startFirmware i trial s))

/-- A standing table applied. -/
def tableRun (u : State) : State := applyTable 0 (tableEntries (u.flash.table.length / 4 + 1) u.flash.table) u

/-- The image's start up to where BAR0 becomes accessible. -/
def imageServed (f : BootFindings) (i : Nat) (trial : Bool) (s : State) : State :=
  icuBoot (tableRun (imageStarted f i trial s))

theorem bootFirmware_eq (f : BootFindings) (i : Nat) (trial : Bool) (s : State) : bootFirmware f i trial s =
    if (bootReady f (imageServed f i trial s)).boot.trial && trialFails (bootReady f (imageServed f i trial s)) then
      selfReset 3 (bootReady f (imageServed f i trial s))
    else bootReady f (imageServed f i trial s) := by
  unfold bootFirmware imageServed tableRun imageStarted
  rfl

section
variable (f : BootFindings) (i : Nat) (trial : Bool) (s : State)

theorem imageStarted_spec : (imageStarted f i trial s).fuse = s.fuse ∧
    imageFlash (imageStarted f i trial s).flash = imageFlash s.flash ∧
    (imageStarted f i trial s).flash.table = s.flash.table ∧ (imageStarted f i trial s).boot.slot = i ∧
    (imageStarted f i trial s).boot.trial = trial ∧ (imageStarted f i trial s).boot.tableFails = s.boot.tableFails ∧
    (imageStarted f i trial s).boot.trained = f.trained ∧
    (s.rng.st ≠ .fatal → (imageStarted f i trial s).rng.st ≠ .fatal) := by
  obtain ⟨hfuse, hflash, hrng, hslot, htrial, hfails⟩ := startFirmware_spec i trial s
  obtain ⟨hfuse', hflash', htable', hboot', hrng'⟩ := bootHardware_spec f (startFirmware i trial s)
  obtain ⟨hkey, hlive⟩ := bootKey_keyDrawn (bootHardware f (startFirmware i trial s))
  have hboot : (imageStarted f i trial s).boot = { (startFirmware i trial s).boot with trained := f.trained } := by
    rw [imageStarted, hkey]
    exact hboot'
  have hfl : (imageStarted f i trial s).flash = (bootHardware f (startFirmware i trial s)).flash := by
    rw [imageStarted, hkey]
  have hfu : (imageStarted f i trial s).fuse = (bootHardware f (startFirmware i trial s)).fuse := by
    rw [imageStarted, hkey]
  rw [hboot, hfl, hfu, hflash', htable', hflash]
  refine ⟨hfuse'.trans hfuse, rfl, rfl, hslot, htrial, hfails, rfl, fun hs => hlive ?_⟩
  rw [hrng', hrng]
  exact hs

theorem imageServed_boots : Boots (imageStarted f i trial s) (imageServed f i trial s) := by
  have htable : Boots (imageStarted f i trial s) (tableRun (imageStarted f i trial s)) := applyTable_boots ..
  have hicu (u : State) : Boots u (icuBoot u) := by
    rw [icuBoot_onlyIcu]
    exact ⟨rfl, rfl, rfl⟩
  exact htable.trans (hicu _)

theorem imageServed_keeps : Keeps (imageStarted f i trial s) (imageServed f i trial s) := by
  have htable : Keeps (imageStarted f i trial s) (tableRun (imageStarted f i trial s)) := applyTable_keeps ..
  exact htable.trans (icuBoot_keeps _)

/-- With an empty standing table nothing but the interrupt controller is set up. -/
theorem imageServed_of_no_table (h : s.flash.table = []) :
    imageServed f i trial s = { imageStarted f i trial s with icu := (imageServed f i trial s).icu } := by
  have htable : (imageStarted f i trial s).flash.table = [] := (imageStarted_spec f i trial s).2.2.1.trans h
  have hserved : imageServed f i trial s = icuBoot (imageStarted f i trial s) := by
    rw [imageServed, tableRun, htable]
    rfl
  rw [hserved]
  exact icuBoot_onlyIcu _

/-- What BAR0's becoming accessible changes. -/
theorem bootReady_spec (u : State) : (bootReady f u).fuse = u.fuse ∧ (bootReady f u).rng = u.rng ∧
    (bootReady f u).boot = { u.boot with phase := .running, readyMs := f.readyMs } ∧
    (u.boot.trial = true → (bootReady f u).flash = u.flash) ∧
    (∀ k, slotOf (bootReady f u) k = slotOf u k) ∧ (bootReady f u).flash.bootCount = u.flash.bootCount := by
  unfold bootReady
  dsimp only
  rw [logEvent_onlyBb]
  refine ⟨rfl, rfl, rfl, fun h => if_pos h, fun k => ?_, ?_⟩
  · cases u.boot.trial <;> rfl
  · cases u.boot.trial <;> rfl

/-- What the start of an image keeps, and how it ends: in service from its slot, or, for a trial image that finds a check
failed, in a reset with cause 3. -/
theorem bootFirmware_spec : let t := bootFirmware f i trial s
    t.fuse = s.fuse ∧ (∀ k, slotOf t k = slotOf s k) ∧ t.flash.bootCount = s.flash.bootCount ∧
      ((t.boot.phase = .running ∧ t.boot.slot = i ∧ t.boot.trial = trial) ∨
        (trial = true ∧ t.boot.phase = .booting ∧ t.boot.cause = 3)) ∧
      (trial = true → f.trained ≠ 0xFFFFFF → t.boot.phase = .booting ∧ t.boot.cause = 3) ∧
      (f.trained = 0xFFFFFF → s.rng.st ≠ .fatal → s.flash.lastOnline = 0 → s.flash.table = [] →
        s.boot.tableFails ≤ s.flash.lastFails → t.boot.phase = .running) := by
  obtain ⟨hfuse, hflash, -, hslot, htrial, hfails, htrained, hlive⟩ := imageStarted_spec f i trial s
  have hserved := imageServed_boots f i trial s
  have hkept := imageServed_keeps f i trial s
  obtain ⟨rfuse, rrng, rboot, rflash, rslots, rcount⟩ := bootReady_spec f (imageServed f i trial s)
  have hall := hserved.flash.trans hflash
  simp only [imageFlash, Prod.mk.injEq] at hall
  obtain ⟨h0, h1, hcount, honline, hlast⟩ := hall
  have hslots (k : Nat) : slotOf (bootReady f (imageServed f i trial s)) k = slotOf s k := by
    rw [rslots, slotOf, slotOf, h0, h1]
  have hfu := (rfuse.trans hserved.fuse).trans hfuse
  have hct := rcount.trans hcount
  have htr : (bootReady f (imageServed f i trial s)).boot.trial = trial := by
    rw [rboot]
    exact hkept.trial.trans htrial
  have hsl : (bootReady f (imageServed f i trial s)).boot.slot = i := by
    rw [rboot]
    exact hkept.slot.trans hslot
  have hchan : (bootReady f (imageServed f i trial s)).boot.trained = f.trained := by
    rw [rboot]
    exact hserved.trained.trans htrained
  obtain ⟨sphase, scause, -, sfuse, sflash⟩ := selfReset_spec 3 (bootReady f (imageServed f i trial s))
  intro t
  have ht : t = _ := bootFirmware_eq f i trial s
  clear_value t
  rw [htr] at ht
  by_cases hfail : (trial && trialFails (bootReady f (imageServed f i trial s))) = true
  · rw [if_pos hfail] at ht
    obtain ⟨hon, hlost⟩ := Bool.and_eq_true_iff.1 hfail
    subst ht
    refine ⟨sfuse.trans hfu, fun k => (slotOf_congr sflash k).trans (hslots k), by rw [sflash, hct],
      .inr ⟨hon, sphase, scause⟩, fun _ _ => ⟨sphase, scause⟩, fun hch hrng hzero htable htf => ?_⟩
    have hsv := imageServed_of_no_table f i trial s htable
    have hst : (bootReady f (imageServed f i trial s)).rng.st ≠ .fatal := by
      rw [rrng, hsv]
      exact hlive hrng
    have htfs : (bootReady f (imageServed f i trial s)).boot.tableFails = s.boot.tableFails := by
      rw [rboot, hsv]
      exact hfails
    have hfl := rflash (hkept.trial.trans (htrial.trans hon))
    have hpass : trialFails (bootReady f (imageServed f i trial s)) = false := by
      have hlf : ¬ s.flash.lastFails < s.boot.tableFails := Nat.not_lt.2 htf
      simp [trialFails, hchan, hch, hfl, honline, hzero, hst, hlast, htfs, hlf]
    rw [hpass] at hlost
    cases hlost
  · rw [if_neg hfail] at ht
    subst ht
    have hrun : (bootReady f (imageServed f i trial s)).boot.phase = .running := by rw [rboot]
    refine ⟨hfu, hslots, hct, .inl ⟨hrun, hsl, htr⟩, fun hon hch => absurd ?_ hfail, fun _ _ _ _ _ => hrun⟩
    have hoff : ((bootReady f (imageServed f i trial s)).boot.trained != 0xFFFFFF) = true := by
      rw [hchan]
      exact bne_iff_ne.2 hch
    have hlost : trialFails (bootReady f (imageServed f i trial s)) = true := by simp only [trialFails, hoff, Bool.true_or]
    exact Bool.and_eq_true_iff.2 ⟨hon, hlost⟩

end

end Sys2Proof.Machine
end

section
/-! PROOFS. The boot ROM's choice of a slot, and where the boot sequence leads (O9). -/

namespace Sys2Proof.Machine

/-! ## What the ROM leaves alone until it starts an image -/

/-- Flash that the settling and the choice of a slot leave alone. -/
def romFlash (f : Flash) : Nat × List Nat × List Byte × Nat × Nat :=
  (f.bootCount, f.watchdogs, f.table, f.lastOnline, f.lastFails)

/-- The ROM's work on slots and records: fuses, generator, and boot state but for latches and STATUS, are as they were. -/
structure RomWork (a s : State) : Prop where
  fuse : s.fuse = a.fuse
  rng : s.rng = a.rng
  boot : s.boot = { a.boot with latched := s.boot.latched, status := s.boot.status }
  flash : romFlash s.flash = romFlash a.flash

theorem RomWork.refl (s : State) : RomWork s s := ⟨rfl, rfl, rfl, rfl⟩

theorem RomWork.trans {a b c : State} (h : RomWork a b) (k : RomWork b c) : RomWork a c := by
  refine ⟨k.fuse.trans h.fuse, k.rng.trans h.rng, ?_, k.flash.trans h.flash⟩
  rw [k.boot, h.boot]

theorem OnlyBb.romWork {a s : State} (h : OnlyBb a s) : RomWork a s := by
  rw [h]
  exact ⟨rfl, rfl, rfl, rfl⟩

theorem setSlot_romWork (i : Nat) (x : Slot) (s : State) : RomWork s (setSlot i x s) := by
  refine ⟨rfl, rfl, rfl, ?_⟩
  have hslot : romFlash (withSlot i x s.flash) = romFlash s.flash := by
    unfold withSlot
    split <;> rfl
  have hdir (a b : SlotState) (f : Flash) : romFlash (writeDir a b f) = romFlash f := by
    unfold writeDir
    split <;> rfl
  rw [setSlot_eq]
  dsimp only
  split
  · exact hslot
  · exact (hdir ..).trans hslot

theorem bootable_congr {s t : State} (h : t.fuse = s.fuse) (x : Slot) : bootable t x = bootable s x := by
  simp only [bootable, imageOk, h]

/-- Whether an image may start does not depend on what its slot is called. -/
theorem bootable_state (s : State) (x : Slot) (st : SlotState) : bootable s { x with st := st } = bootable s x := rfl

/-- There are two slots. -/
theorem slotOf_eq_of_same {i k : Nat} (h : ¬ (i = 0 ↔ k ≠ 0)) (s : State) : slotOf s k = slotOf s i := by
  unfold slotOf
  by_cases h0 : i = 0 <;> simp_all

/-! ## One candidate -/

/-- Slots in a state have moved to another one, if at all. -/
structure SlotMoved (st to' : SlotState) (s t : State) : Prop extends RomWork s t where
  slots : ∀ k, slotOf t k = slotOf s k ∨ ((slotOf s k).st = st ∧ (slotOf t k).st = to')

/-- A slot's state set, whatever is logged with it. -/
theorem SlotMoved.of_setSlot {i : Nat} {x : Slot} {st to' : SlotState} {s t : State} (hst : (slotOf s i).st = st)
    (hx : x.st = to') (hwork : RomWork s t) (hslots : ∀ k, slotOf t k = slotOf (setSlot i x s) k) :
    SlotMoved st to' s t := by
  refine ⟨hwork, fun k => ?_⟩
  rw [hslots]
  by_cases hk : i = 0 ↔ k ≠ 0
  · exact .inl (slotOf_setSlot_other x s hk)
  · rw [slotOf_eq_of_same hk, slotOf_eq_of_same hk, slotOf_setSlot_same]
    exact .inr ⟨hst, hx⟩

/-- A slot that is not in the state which moves is kept. -/
theorem SlotMoved.other {st to' : SlotState} {s t : State} (h : SlotMoved st to' s t) {k : Nat}
    (hk : (slotOf s k).st ≠ st) : slotOf t k = slotOf s k :=
  (h.slots k).resolve_right fun hm => hk hm.1

/-- Neither state of a move: the slots in it are the same ones, with what they hold. -/
theorem SlotMoved.slotIn {st to' w : SlotState} {s t : State} (h : SlotMoved st to' s t) (hst : w ≠ st) (hto : w ≠ to') :
    slotIn t w = slotIn s w := by
  have hsame (k : Nat) : ((slotOf t k).st == w) = ((slotOf s k).st == w) := by
    rcases h.slots k with hk | ⟨hs, ht⟩
    · rw [hk]
    · rw [hs, ht, beq_false_of_ne (Ne.symm hst), beq_false_of_ne (Ne.symm hto)]
  simp only [Machine.slotIn, hsame]

/-- No candidate in a state may start. -/
def Unfit (s : State) (st : SlotState) : Prop := ∀ i, slotIn s st = some i → bootable s (slotOf s i) = false

theorem SlotMoved.fit {st to' w : SlotState} {s t : State} (h : SlotMoved st to' s t) (hst : w ≠ st) {i : Nat}
    (hi : Machine.slotIn s w = some i) : bootable t (slotOf t i) = bootable s (slotOf s i) := by
  rw [bootable_congr h.fuse, h.other (by rw [(slotIn_some hi).2]; exact hst)]

theorem SlotMoved.unfit {st to' w : SlotState} {s t : State} (h : SlotMoved st to' s t) (hst : w ≠ st) (hto : w ≠ to') :
    Unfit t w ↔ Unfit s w := by
  unfold Unfit
  rw [h.slotIn hst hto]
  exact forall_congr' fun i => ⟨fun k hi => (h.fit hst hi) ▸ k hi, fun k hi => (h.fit hst hi).trans (k hi)⟩

/-- A candidate that may start is the one found; any other is REJECTED. -/
theorem tryslot_cases (st to' : SlotState) (s : State) :
    (∃ i t, tryslot (slotIn s st) to' s = (some i, t) ∧ slotIn s st = some i ∧ bootable s (slotOf s i) = true ∧
      SlotMoved st to' s t ∧ (slotOf t i).st = to') ∨
    (∃ t, tryslot (slotIn s st) to' s = (none, t) ∧ Unfit s st ∧ SlotMoved st .rejected s t ∧
      ∀ i, slotIn s st = some i → (slotOf t i).st = .rejected) := by
  cases hc : slotIn s st with
  | none => exact .inr ⟨s, rfl, fun i hi => by simp [hc] at hi, ⟨.refl s, fun k => .inl rfl⟩, fun i hi => by simp at hi⟩
  | some i =>
    have hst := (slotIn_some hc).2
    have hfit : bootable (setSlotState i to' s) (slotOf (setSlotState i to' s) i) = bootable s (slotOf s i) := by
      rw [setSlotState, slotOf_setSlot_same, bootable_state]
      exact bootable_congr rfl _
    cases hb : bootable s (slotOf s i) with
    | true =>
      refine .inl ⟨i, setSlotState i to' s, ?_, rfl, hb, ?_, ?_⟩
      · simp only [tryslot, hfit, hb, if_true]
      · exact .of_setSlot (x := { slotOf s i with st := to' }) hst rfl (setSlot_romWork ..) fun k => rfl
      · rw [setSlotState, slotOf_setSlot_same]
    | false =>
      have hflag (u : State) : RomWork u (if to' = .trial then fwFlag 3 u else u) ∧
          (if to' = .trial then fwFlag 3 u else u).flash = u.flash := by
        split
        · exact ⟨⟨rfl, rfl, rfl, rfl⟩, rfl⟩
        · exact ⟨.refl u, rfl⟩
      obtain ⟨hwork, hflash⟩ := hflag (setSlotState i to' s)
      generalize hu : (if to' = .trial then fwFlag 3 (setSlotState i to' s) else setSlotState i to' s) = u at hwork hflash
      refine .inr ⟨logEvent 0x15 0xFF [i, 3] (setSlotState i .rejected u), ?_, ?_, ?_, ?_⟩
      · simp only [tryslot, hfit, hb, hu, Bool.false_eq_true, if_false]
      · intro k hk
        rw [hc] at hk
        cases hk
        exact hb
      · have hslot (k : Nat) : slotOf (logEvent 0x15 0xFF [i, 3] (setSlotState i .rejected u)) k =
            slotOf (setSlot i { slotOf s i with st := .rejected } s) k := by
          rw [slotOf_congr (logEvent_flash ..), setSlotState]
          by_cases hk : i = 0 ↔ k ≠ 0
          · rw [slotOf_setSlot_other _ _ hk, slotOf_setSlot_other _ _ hk, slotOf_congr hflash, setSlotState,
              slotOf_setSlot_other _ _ hk]
          · rw [slotOf_eq_of_same hk, slotOf_eq_of_same hk, slotOf_setSlot_same, slotOf_setSlot_same,
              slotOf_congr hflash, setSlotState, slotOf_setSlot_same]
        exact .of_setSlot hst rfl (((setSlot_romWork ..).trans hwork).trans
          ((setSlot_romWork ..).trans (logEvent_onlyBb ..).romWork)) hslot
      · intro k hk
        cases hk
        rw [slotOf_congr (logEvent_flash ..), setSlotState, slotOf_setSlot_same]

/-! ## The choice (R497 steps 3 and 4) -/

/-- A slot whose state makes it no candidate. -/
def NoCandidate (st : SlotState) : Prop := st ≠ .pending ∧ st ≠ .active ∧ st ≠ .backup

/-- What the choice of a slot can come to, the PENDING one before the ACTIVE one and that before the BACKUP. -/
inductive Chosen (s : State) : Option (Nat × Bool) → State → Prop
  | pending {i t} (hin : slotIn s .pending = some i) (hfit : bootable s (slotOf s i) = true)
      (ht : (slotOf t i).st = .trial) : Chosen s (some (i, true)) t
  | active {i t} (hnone : Unfit s .pending) (hin : slotIn s .active = some i) (hfit : bootable s (slotOf s i) = true)
      (ht : (slotOf t i).st = .active)
      (hrej : ∀ j, slotIn s .pending = some j → (slotOf t j).st = .rejected) : Chosen s (some (i, false)) t
  | backup {i t} (hnone : Unfit s .pending) (hnone' : Unfit s .active) (hin : slotIn s .backup = some i)
      (hfit : bootable s (slotOf s i) = true) (ht : (slotOf t i).st = .active) : Chosen s (some (i, false)) t
  | none {t} (hnone : Unfit s .pending) (hnone' : Unfit s .active) (hnone'' : Unfit s .backup) : Chosen s none t

/-- The slots that are no candidates are kept, and so is all but slots and records. -/
structure ChoiceKeeps (s t : State) : Prop extends RomWork s t where
  slots : ∀ k, NoCandidate (slotOf s k).st → slotOf t k = slotOf s k

theorem SlotMoved.choice {st to' : SlotState} {s t : State} (h : SlotMoved st to' s t) (hst : ¬ NoCandidate st) :
    ChoiceKeeps s t :=
  ⟨h.toRomWork, fun _ hk => h.other fun he => hst (he ▸ hk)⟩

theorem ChoiceKeeps.trans {a b c : State} (h : ChoiceKeeps a b) (k : ChoiceKeeps b c) : ChoiceKeeps a c :=
  ⟨h.toRomWork.trans k.toRomWork, fun i hi => (k.slots i (by rwa [h.slots i hi])).trans (h.slots i hi)⟩

theorem chooseSlot_cases (s : State) : ∃ r t, chooseSlot s = (r, t) ∧ ChoiceKeeps s t ∧ Chosen s r t := by
  have hpend : ¬ NoCandidate .pending := fun h => h.1 rfl
  have hact : ¬ NoCandidate .active := fun h => h.2.1 rfl
  have hback : ¬ NoCandidate .backup := fun h => h.2.2 rfl
  unfold chooseSlot
  rcases tryslot_cases .pending .trial s with ⟨i, t, heq, hin, hfit, hmoved, hst⟩ | ⟨u, heq, hno, hmoved, hrej⟩
  · rw [heq]
    exact ⟨_, t, rfl, hmoved.choice hpend, .pending hin hfit hst⟩
  · rw [heq]
    dsimp only
    have hin' : slotIn u .active = slotIn s .active := hmoved.slotIn SlotState.noConfusion SlotState.noConfusion
    have hunf : Unfit u .active ↔ Unfit s .active := hmoved.unfit SlotState.noConfusion SlotState.noConfusion
    rcases tryslot_cases .active .active u with ⟨i, t, heq', hin, hfit, hmoved', hst⟩ | ⟨v, heq', hno', hmoved', hrej'⟩
    · rw [heq']
      rw [hin'] at hin
      rw [hmoved.fit SlotState.noConfusion hin] at hfit
      refine ⟨_, t, rfl, (hmoved.choice hpend).trans (hmoved'.choice hact), .active hno hin hfit hst fun j hj => ?_⟩
      rw [hmoved'.other (by rw [hrej j hj]; exact SlotState.noConfusion), hrej j hj]
    · rw [heq']
      dsimp only
      have hkept := (hmoved.choice hpend).trans (hmoved'.choice hact)
      have hin'' : slotIn v .backup = slotIn s .backup :=
        (hmoved'.slotIn SlotState.noConfusion SlotState.noConfusion).trans
          (hmoved.slotIn SlotState.noConfusion SlotState.noConfusion)
      have hunf' : Unfit v .backup ↔ Unfit s .backup :=
        (hmoved'.unfit SlotState.noConfusion SlotState.noConfusion).trans
          (hmoved.unfit SlotState.noConfusion SlotState.noConfusion)
      rcases tryslot_cases .backup .active v with ⟨i, t, heq'', hin, hfit, hmoved'', hst⟩ | ⟨t, heq'', hno'', hmoved'', -⟩
      · rw [heq'']
        have hinu : slotIn u .backup = some i := by
          rw [← hmoved'.slotIn SlotState.noConfusion SlotState.noConfusion, hin]
        rw [hin''] at hin
        rw [hmoved'.fit SlotState.noConfusion hinu, hmoved.fit SlotState.noConfusion hin] at hfit
        exact ⟨_, t, rfl, hkept.trans (hmoved''.choice hback), .backup hno (hunf.1 hno') hin hfit hst⟩
      · rw [heq'']
        exact ⟨_, t, rfl, hkept.trans (hmoved''.choice hback), .none hno (hunf.1 hno') (hunf'.1 hno'')⟩

/-! ## The ROM before its choice (R497 steps 1 and 2, R508) -/

/-- What settling makes of a slot. -/
def settledSlot (x : Slot) : Slot :=
  match x.st with
  | .receiving => Slot.init
  | .trial => { x with st := .rejected }
  | _ => x

theorem settledSlot_receiving {x : Slot} (h : x.st = .receiving) : settledSlot x = Slot.init := by
  rw [settledSlot, h]

theorem settledSlot_trial {x : Slot} (h : x.st = .trial) : settledSlot x = { x with st := .rejected } := by
  rw [settledSlot, h]

theorem settledSlot_other {x : Slot} (hr : x.st ≠ .receiving) (ht : x.st ≠ .trial) : settledSlot x = x := by
  unfold settledSlot
  split
  · exact absurd ‹_› hr
  · exact absurd ‹_› ht
  · rfl

theorem settleSlot_spec {i : Nat} (hi : i < 2) (s : State) : RomWork s (settleSlot i s) ∧
    slotOf (settleSlot i s) i = settledSlot (slotOf s i) ∧ slotOf (settleSlot i s) (1 - i) = slotOf s (1 - i) := by
  unfold settleSlot
  split
  next h =>
    rw [slotOf_congr (logEvent_flash ..), slotOf_congr (logEvent_flash ..), slotOf_setSlot_same]
    exact ⟨(setSlot_romWork ..).trans (logEvent_onlyBb ..).romWork, (settledSlot_receiving h).symm, slotOf_setSlot_sub _ _ hi⟩
  next h =>
    have hflag (u : State) : RomWork u (fwFlag 3 u) := ⟨rfl, rfl, rfl, rfl⟩
    rw [slotOf_congr (logEvent_flash ..), slotOf_congr (logEvent_flash ..), slotOf_congr (fwFlag_flash ..),
      slotOf_congr (fwFlag_flash ..), setSlotState, slotOf_setSlot_same]
    exact ⟨((setSlot_romWork ..).trans (hflag _)).trans (logEvent_onlyBb ..).romWork, (settledSlot_trial h).symm,
      slotOf_setSlot_sub _ _ hi⟩
  next hr ht => exact ⟨.refl s, (settledSlot_other hr ht).symm, rfl⟩

/-- The directory read and what was latched before recorded. -/
def romStart (s : State) : State :=
  let s := readDir (blotterScan { s with flash := { s.flash with bootCount := min (s.flash.bootCount + 1) 0xFFFFFFF } })
  measureRefclk (s.boot.latched.foldl (fun st r => logSev 4 0x86 11 [r] st) { s with boot := { s.boot with latched := [] } })

/-- The slots settled. -/
def romSettled (s : State) : State := settleSlot 1 (settleSlot 0 (romStart s))

theorem bootRom_eq (f : BootFindings) (s : State) : bootRom f s =
    if (romSettled s).fuse.decommissioned then
      { romSettled s with boot := { (romSettled s).boot with phase := .decommissioned } }
    else if watchdogRule (romSettled s) then enterRecovery 1 (romSettled s)
    else match chooseSlot (romSettled s) with
      | (none, s) => enterRecovery 0 s
      | (some (i, trial), s) => bootFirmware f i trial s := rfl

theorem romStart_spec (s : State) : (romStart s).fuse = s.fuse ∧ (romStart s).rng = s.rng ∧
    (romStart s).boot = { s.boot with latched := [] } ∧ (romStart s).flash =
      { (readDir s).flash with bootCount := min (s.flash.bootCount + 1) 0xFFFFFFF } := by
  have hfold (l : List Nat) (u : State) : OnlyBb u (l.foldl (fun st r => logSev 4 0x86 11 [r] st) u) := by
    induction l generalizing u with
    | nil => exact rfl
    | cons r l ih =>
      have hlog : OnlyBb u (logSev 4 0x86 11 [r] u) := logSev_onlyBb ..
      exact hlog.trans (ih _)
  have hclock (u : State) : (measureRefclk u).fuse = u.fuse ∧ (measureRefclk u).rng = u.rng ∧
      (measureRefclk u).boot = u.boot ∧ (measureRefclk u).flash = u.flash := by
    unfold measureRefclk
    split
    · exact ⟨rfl, rfl, rfl, rfl⟩
    · rw [logSev_onlyBb]
      exact ⟨rfl, rfl, rfl, rfl⟩
  unfold romStart
  extract_lets fl u
  obtain ⟨hfuse, hrng, hboot, hflash⟩ :=
    hclock (u.boot.latched.foldl (fun st r => logSev 4 0x86 11 [r] st) { u with boot := { u.boot with latched := [] } })
  rw [hfuse, hrng, hboot, hflash, hfold]
  have hscan : u = readDir { s with
      flash := { s.flash with bootCount := min (s.flash.bootCount + 1) 0xFFFFFFF }
      bb := (blotterScan { s with flash := { s.flash with bootCount := min (s.flash.bootCount + 1) 0xFFFFFFF } }).bb } :=
    congrArg readDir (blotterScan_onlyBb _)
  rw [hscan]
  exact ⟨rfl, rfl, rfl, rfl⟩

theorem slotOf_romStart (s : State) (k : Nat) : slotOf (romStart s) k = slotOf (readDir s) k := by
  simp only [slotOf, (romStart_spec s).2.2.2]

theorem romSettled_work (s : State) : RomWork (romStart s) (romSettled s) :=
  (settleSlot_spec (by decide) _).1.trans (settleSlot_spec (by decide) _).1

theorem slotOf_romSettled (s : State) {k : Nat} (hk : k < 2) :
    slotOf (romSettled s) k = settledSlot (slotOf (readDir s) k) := by
  obtain ⟨-, hown0, hother0⟩ := settleSlot_spec (i := 0) (by decide) (romStart s)
  obtain ⟨-, hown1, hother1⟩ := settleSlot_spec (i := 1) (by decide) (settleSlot 0 (romStart s))
  obtain rfl | rfl : k = 0 ∨ k = 1 := by omega
  · exact hother1.trans (hown0.trans (congrArg settledSlot (slotOf_romStart s 0)))
  · exact hown1.trans (congrArg settledSlot (hother0.trans (slotOf_romStart s 1)))

/-- Settling leaves the candidates the candidates that they were. -/
theorem settledSlot_of_candidate {x : Slot} {st : SlotState} (hst : ¬ NoCandidate st) :
    ((settledSlot x).st = st ↔ x.st = st) ∧ (x.st = st → settledSlot x = x) := by
  unfold settledSlot
  unfold NoCandidate at hst
  split
  next h => cases st <;> simp_all [Slot.init]
  next h => cases st <;> simp_all
  next => exact ⟨Iff.rfl, fun _ => rfl⟩

theorem slotIn_romSettled (s : State) {st : SlotState} (hst : ¬ NoCandidate st) :
    slotIn (romSettled s) st = slotIn (readDir s) st := by
  have hsame {k : Nat} (hk : k < 2) : ((slotOf (romSettled s) k).st == st) = ((slotOf (readDir s) k).st == st) := by
    rw [slotOf_romSettled s hk, Bool.eq_iff_iff, beq_iff_eq, beq_iff_eq]
    exact (settledSlot_of_candidate hst).1
  unfold slotIn
  simp only [List.find?, hsame (k := 0) (by decide), hsame (k := 1) (by decide)]

theorem bootable_romSettled (s : State) {st : SlotState} (hst : ¬ NoCandidate st) {i : Nat}
    (hi : slotIn (readDir s) st = some i) :
    bootable (romSettled s) (slotOf (romSettled s) i) = bootable (readDir s) (slotOf (readDir s) i) := by
  obtain ⟨hlt, hin⟩ := slotIn_some hi
  rw [slotOf_romSettled s hlt, (settledSlot_of_candidate hst).2 hin]
  exact bootable_congr ((romSettled_work s).fuse.trans (romStart_spec s).1) _

/-- What the ROM leaves for the choice, and for a part that it does not start. -/
theorem romSettled_spec (s : State) : (romSettled s).fuse = s.fuse ∧ (romSettled s).rng = s.rng ∧
    (romSettled s).boot.tableFails = s.boot.tableFails ∧
    romFlash (romSettled s).flash = romFlash { s.flash with bootCount := min (s.flash.bootCount + 1) 0xFFFFFFF } ∧
    watchdogRule (romSettled s) = watchdogRule (readDir s) := by
  obtain ⟨hfuse, hrng, hboot, hflash⟩ := romSettled_work s
  obtain ⟨sfuse, srng, sboot, sflash⟩ := romStart_spec s
  have hfl : romFlash (romSettled s).flash = romFlash { s.flash with bootCount := min (s.flash.bootCount + 1) 0xFFFFFFF } := by
    rw [hflash, sflash]
    rfl
  rw [sboot] at hboot
  refine ⟨hfuse.trans sfuse, hrng.trans srng, by rw [hboot], hfl, ?_⟩
  have hw : (romSettled s).flash.watchdogs = s.flash.watchdogs := congrArg (fun x => x.2.1) hfl
  have hr : (readDir s).flash.watchdogs = s.flash.watchdogs := rfl
  rw [watchdogRule, watchdogRule, hw, hr, hboot]
  rfl

theorem enterRecovery_spec (cause : Nat) (s : State) : (enterRecovery cause s).fuse = s.fuse ∧
    (enterRecovery cause s).boot.phase = .recovery ∧ (enterRecovery cause s).flash = { s.flash with watchdogs := [] } := by
  unfold enterRecovery
  rw [logEvent_onlyBb]
  exact ⟨rfl, rfl, rfl⟩

/-- Where a part that is neither decommissioned nor held by the watchdog rule goes: the start of the slot chosen, or
RECOVERY. -/
theorem bootRom_chosen (f : BootFindings) {s : State} (hdec : s.fuse.decommissioned = false)
    (hdog : watchdogRule (readDir s) = false) : ∃ r u, ChoiceKeeps (romSettled s) u ∧ Chosen (romSettled s) r u ∧
    bootRom f s = match r with
      | none => enterRecovery 0 u
      | some (i, trial) => bootFirmware f i trial u := by
  obtain ⟨hfuse, -, -, -, hw⟩ := romSettled_spec s
  obtain ⟨r, u, heq, hkeeps, hchosen⟩ := chooseSlot_cases (romSettled s)
  refine ⟨r, u, hkeeps, hchosen, ?_⟩
  rw [bootRom_eq, hfuse, if_neg (Bool.not_eq_true _ ▸ hdec), hw, if_neg (Bool.not_eq_true _ ▸ hdog), heq]
  rcases r with _ | ⟨i, trial⟩ <;> rfl

theorem exec_boot (f : BootFindings) {s : State} (h : s.boot.phase = .booting) : exec (.boot f) s = .next (bootRom f s) := by
  simp [exec, execBoot, h]

/-- Whatever the boot comes to: fuses, the count of boots, and the slots that were settled. -/
theorem bootRom_keeps (f : BootFindings) (s : State) : (bootRom f s).fuse = s.fuse ∧
    (bootRom f s).flash.bootCount = min (s.flash.bootCount + 1) 0xFFFFFFF ∧
    ∀ k, NoCandidate (slotOf (romSettled s) k).st → slotOf (bootRom f s) k = slotOf (romSettled s) k := by
  obtain ⟨hfuse, -, -, hflash, hw⟩ := romSettled_spec s
  have hcount := congrArg Prod.fst hflash
  have hrec (c : Nat) (u : State) (h : ChoiceKeeps (romSettled s) u) : (enterRecovery c u).fuse = s.fuse ∧
      (enterRecovery c u).flash.bootCount = min (s.flash.bootCount + 1) 0xFFFFFFF ∧
      ∀ k, NoCandidate (slotOf (romSettled s) k).st → slotOf (enterRecovery c u) k = slotOf (romSettled s) k := by
    obtain ⟨rfuse, -, rflash⟩ := enterRecovery_spec c u
    refine ⟨rfuse.trans (h.fuse.trans hfuse), ?_, fun k hk => ?_⟩
    · rw [rflash]
      exact (congrArg Prod.fst h.flash).trans hcount
    · rw [← h.slots k hk, slotOf, slotOf, rflash]
  by_cases hdec : s.fuse.decommissioned = true
  · rw [bootRom_eq, hfuse, if_pos hdec]
    exact ⟨hfuse, hcount, fun k _ => rfl⟩
  · by_cases hdog : watchdogRule (readDir s) = true
    · rw [bootRom_eq, hfuse, if_neg hdec, hw, if_pos hdog]
      exact hrec 1 _ ⟨.refl _, fun _ _ => rfl⟩
    · obtain ⟨r, u, hkeeps, -, heq⟩ := bootRom_chosen f (Bool.eq_false_of_not_eq_true hdec) (Bool.eq_false_of_not_eq_true hdog)
      rw [heq]
      rcases r with _ | ⟨i, trial⟩
      · exact hrec 0 u hkeeps
      · dsimp only
        obtain ⟨ffuse, fslots, fcount, -⟩ := bootFirmware_spec f i trial u
        exact ⟨ffuse.trans (hkeeps.fuse.trans hfuse), fcount.trans ((congrArg Prod.fst hkeeps.flash).trans hcount),
          fun k hk => (fslots k).trans (hkeeps.slots k hk)⟩

/-- A slot in which a session was open is empty after the boot, one whose trial was not confirmed is rejected. -/
theorem bootRom_settles (f : BootFindings) (s : State) {k : Nat} (hk : k < 2) :
    ((slotOf (readDir s) k).st = .receiving → (slotOf (bootRom f s) k).st = .empty) ∧
    ((slotOf (readDir s) k).st = .trial → (slotOf (bootRom f s) k).st = .rejected) := by
  obtain ⟨-, -, hslots⟩ := bootRom_keeps f s
  have hset := slotOf_romSettled s hk
  have hkeep := hslots k
  rw [hset] at hkeep
  constructor
  · intro h
    have hx : settledSlot (slotOf (readDir s) k) = Slot.init := by rw [settledSlot, h]
    rw [hx] at hkeep
    rw [hkeep ⟨SlotState.noConfusion, SlotState.noConfusion, SlotState.noConfusion⟩]
    rfl
  · intro h
    have hx : settledSlot (slotOf (readDir s) k) = { slotOf (readDir s) k with st := .rejected } := by
      rw [settledSlot, h]
    rw [hx] at hkeep
    rw [hkeep ⟨SlotState.noConfusion, SlotState.noConfusion, SlotState.noConfusion⟩]

/-- The choice read off the slots as the directory has them. -/
inductive Started (f : BootFindings) (s : State) : State → Prop
  | trial {i t} (hin : slotIn s .pending = some i) (hfit : bootable s (slotOf s i) = true)
      (hend : (t.boot.phase = .running ∧ t.boot.slot = i ∧ t.boot.trial = true) ∨
        (t.boot.phase = .booting ∧ t.boot.cause = 3))
      (hlost : f.trained ≠ 0xFFFFFF → t.boot.phase = .booting ∧ t.boot.cause = 3)
      (hok : f.trained = 0xFFFFFF → s.rng.st ≠ .fatal → s.flash.lastOnline = 0 → s.flash.table = [] →
        s.boot.tableFails ≤ s.flash.lastFails → t.boot.phase = .running)
      (hst : (slotOf t i).st = .trial) : Started f s t
  | active {i t} (hnone : Unfit s .pending) (hin : slotIn s .active = some i) (hfit : bootable s (slotOf s i) = true)
      (hend : t.boot.phase = .running ∧ t.boot.slot = i ∧ t.boot.trial = false) (hst : (slotOf t i).st = .active)
      (hrej : ∀ j, slotIn s .pending = some j → (slotOf t j).st = .rejected) : Started f s t
  | backup {i t} (hnone : Unfit s .pending) (hnone' : Unfit s .active) (hin : slotIn s .backup = some i)
      (hfit : bootable s (slotOf s i) = true) (hend : t.boot.phase = .running ∧ t.boot.slot = i ∧ t.boot.trial = false)
      (hst : (slotOf t i).st = .active) : Started f s t
  | recovery {t} (hnone : Unfit s .pending) (hnone' : Unfit s .active) (hnone'' : Unfit s .backup)
      (hend : t.boot.phase = .recovery) : Started f s t

theorem bootRom_started (f : BootFindings) {s : State} (hdec : s.fuse.decommissioned = false)
    (hdog : watchdogRule (readDir s) = false) : Started f (readDir s) (bootRom f s) := by
  obtain ⟨-, hrng, hfails, hflash, -⟩ := romSettled_spec s
  obtain ⟨r, u, hkeeps, hchosen, heq⟩ := bootRom_chosen f hdec hdog
  have hpend : ¬ NoCandidate .pending := fun h => h.1 rfl
  have hact : ¬ NoCandidate .active := fun h => h.2.1 rfl
  have hback : ¬ NoCandidate .backup := fun h => h.2.2 rfl
  have hunfit {st : SlotState} (hst : ¬ NoCandidate st) (h : Unfit (romSettled s) st) : Unfit (readDir s) st := by
    intro i hi
    rw [← bootable_romSettled s hst hi]
    exact h i ((slotIn_romSettled s hst).trans hi)
  have hplain {i : Nat} {trial : Bool} (h : trial = false) :
      (bootFirmware f i trial u).boot.phase = .running ∧ (bootFirmware f i trial u).boot.slot = i ∧
        (bootFirmware f i trial u).boot.trial = trial := by
    obtain ⟨-, -, -, hrun, -⟩ := bootFirmware_spec f i trial u
    exact hrun.resolve_right fun hr => Bool.noConfusion (h.symm.trans hr.1)
  rw [heq]
  cases hchosen with
  | @pending i _ hin hfit ht =>
    obtain ⟨-, fslots, -, fend, flost, fok⟩ := bootFirmware_spec f i true u
    change Started f (readDir s) (bootFirmware f i true u)
    generalize bootFirmware f i true u = t at fslots fend flost fok ⊢
    rw [slotIn_romSettled s hpend] at hin
    rw [bootable_romSettled s hpend hin] at hfit
    have hfl : romFlash u.flash = romFlash { s.flash with bootCount := min (s.flash.bootCount + 1) 0xFFFFFFF } :=
      hkeeps.flash.trans hflash
    have htf : u.boot.tableFails = s.boot.tableFails := (congrArg BootSt.tableFails hkeeps.boot).trans hfails
    simp only [romFlash, Prod.mk.injEq] at hfl
    obtain ⟨-, -, htable, honline, hlast⟩ := hfl
    refine .trial hin hfit (fend.imp_right And.right) (flost rfl) (fun hch hg ho hta hle => fok hch ?_ ?_ ?_ ?_) ?_
    · rw [hkeeps.rng, hrng]
      exact hg
    · exact honline.trans ho
    · exact htable.trans hta
    · rw [htf, hlast]
      exact hle
    · rw [fslots, ht]
  | @active i _ hnone hin hfit ht hrej =>
    obtain ⟨-, fslots, -⟩ := bootFirmware_spec f i false u
    rw [slotIn_romSettled s hact] at hin
    rw [bootable_romSettled s hact hin] at hfit
    change Started f (readDir s) (bootFirmware f i false u)
    refine .active (hunfit hpend hnone) hin hfit (hplain rfl) (by rw [fslots, ht]) fun j hj => ?_
    rw [fslots, hrej j ((slotIn_romSettled s hpend).trans hj)]
  | @backup i _ hnone hnone' hin hfit ht =>
    obtain ⟨-, fslots, -⟩ := bootFirmware_spec f i false u
    rw [slotIn_romSettled s hback] at hin
    rw [bootable_romSettled s hback hin] at hfit
    change Started f (readDir s) (bootFirmware f i false u)
    exact .backup (hunfit hpend hnone) (hunfit hact hnone') hin hfit (hplain rfl) (by rw [fslots, ht])
  | none hnone hnone' hnone'' =>
    exact .recovery (hunfit hpend hnone) (hunfit hact hnone') (hunfit hback hnone'') (enterRecovery_spec 0 u).2.1

/-- Settles O9: what every boot keeps and settles, and the four ends of a part that may run, each fitting the clauses of
the slots that led to it. -/
theorem bootOutcome : Obligations.BootOutcome := by
  unfold Obligations.BootOutcome
  intro f a hboot
  refine ⟨_, exec_boot f hboot, ?_⟩
  obtain ⟨hfuse, hcount, -⟩ := bootRom_keeps f a
  obtain ⟨sfuse, -, -, -, hw⟩ := romSettled_spec a
  refine ⟨hfuse, hcount, rfl, rfl, fun i hi => bootRom_settles f a hi,
    fun (hdec : a.fuse.decommissioned = true) => ?_,
    fun (hdec : a.fuse.decommissioned = false) hdog => ?_, fun hdec hdog => ?_⟩
  · rw [bootRom_eq, sfuse, if_pos hdec]
  · rw [bootRom_eq, sfuse, if_neg (Bool.not_eq_true _ ▸ hdec), hw, if_pos hdog]
    obtain ⟨-, hphase, hflash⟩ := enterRecovery_spec 1 (romSettled a)
    exact ⟨hphase, by rw [hflash]⟩
  · have hstarted := bootRom_started f (s := a) hdec hdog
    generalize bootRom f a = t at hstarted
    generalize readDir a = s at hstarted ⊢
    have hfound {i j : Nat} {st : SlotState} (h : slotIn s st = some i) (k : slotIn s st = some j) : i = j :=
      Option.some.inj (h.symm.trans k)
    have hclash {i : Nat} {st : SlotState} (h : Unfit s st) (hi : slotIn s st = some i) (hb : bootable s (slotOf s i) = true) :
        False := Bool.noConfusion (hb.symm.trans (h i hi))
    cases hstarted with
    | @trial j _ hin hfit hend hlost hok hst =>
      refine ⟨fun i hi _ => hfound hin hi ▸ hend, fun _ _ _ => hlost, fun i hi _ h1 h2 h3 h4 h5 => ?_,
        fun i hi => absurd (hin.symm.trans hi) (Option.some_ne_none j), fun k i hk hb => ?_, fun i _ _ hno => ?_,
        fun hno => absurd (slotIn_some hin).2 (hno j hfit).1⟩
      · obtain rfl := hfound hin hi
        have hrun := hok h1 h2 h3 h4 h5
        obtain ⟨h, hslot, htr⟩ := hend.resolve_right fun hb => Phase.noConfusion (hrun.symm.trans hb.1)
        exact ⟨h, hslot, htr, hst⟩
      · obtain rfl := hfound hin hk
        exact Bool.noConfusion (hfit.symm.trans hb)
      · exact absurd (slotIn_some hin).2 (hno j (slotIn_some hin).1 hfit).1
    | @active j _ hnone hin hfit hend hst hrej =>
      refine ⟨fun i hi hb => (hclash hnone hi hb).elim, fun i hi hb => (hclash hnone hi hb).elim,
        fun i hi hb => (hclash hnone hi hb).elim, fun i _ hi _ => hfound hin hi ▸ hend, fun k i hk _ hi _ => ?_,
        fun i _ _ hno => absurd (slotIn_some hin).2 (hno j (slotIn_some hin).1 hfit).2,
        fun hno => absurd (slotIn_some hin).2 (hno j hfit).2.1⟩
      obtain rfl := hfound hin hi
      obtain ⟨hrun, hslot, htr⟩ := hend
      exact ⟨hrun, hslot, htr, hst, hrej k hk⟩
    | @backup j _ hnone hnone' hin hfit hend hst =>
      refine ⟨fun i hi hb => (hclash hnone hi hb).elim, fun i hi hb => (hclash hnone hi hb).elim,
        fun i hi hb => (hclash hnone hi hb).elim, fun i _ hi hb => (hclash hnone' hi hb).elim,
        fun k i _ _ hi hb => (hclash hnone' hi hb).elim, fun i hi _ _ => ?_,
        fun hno => absurd (slotIn_some hin).2 (hno j hfit).2.2⟩
      obtain rfl := hfound hin hi
      obtain ⟨hrun, hslot, htr⟩ := hend
      exact ⟨hrun, hslot, htr, hst⟩
    | recovery hnone hnone' hnone'' hend =>
      exact ⟨fun i hi hb => (hclash hnone hi hb).elim, fun i hi hb => (hclash hnone hi hb).elim,
        fun i hi hb => (hclash hnone hi hb).elim, fun i _ hi hb => (hclash hnone' hi hb).elim,
        fun k i _ _ hi hb => (hclash hnone' hi hb).elim, fun i hi hb _ => (hclash hnone'' hi hb).elim, fun _ => hend⟩

end Sys2Proof.Machine
end

section
/-! PROOFS. The random number generator's health (O55) and its requests and test (O56): what a failure, the service of those
who wait, and an answer to software make of its state. -/

namespace Sys2Proof.Machine

/-! ## Failures and restarts (R429 to R431) -/

theorem foldl_emit {α : Type} (f : α → Sent) (l : List α) (s : State) :
    l.foldl (fun st x => emit (f x) st) s = { s with sent := s.sent ++ l.map f } := by
  induction l generalizing s with
  | nil => simp
  | cons x l ih =>
    rw [List.foldl_cons, ih, emit, List.map_cons]
    simp

/-- An 8-byte read that failed reads a latch that was just cleared beside FAILED, a 4-byte read FAILED alone: the same
bits. -/
theorem swFailed_eq (p : Path) (bytes : Nat) (s : State) :
    swFailed p bytes s = rngSetLatch p 0 { s with sent := s.sent ++ [.readData p 0x80000000] } := by
  have hwide : ((0 : Word) ++ (0x80000000 : Word)) = (0x80000000 : Quad) := by decide
  unfold swFailed swAnswer
  split
  · have hlatch : rngLatch p (rngSetLatch p 0 s).rng = 0 := by cases p <;> rfl
    rw [hlatch, hwide]
    cases p <;> rfl
  · cases p <;> rfl

/-- Failing what waits changes latches, and sends FAILED to each. -/
theorem foldl_swFailed (l : List (Path × Nat × Nat)) (s : State) : ∃ x y,
    l.foldl (fun st w => swFailed w.1 w.2.1 st) s = { s with
      rng := { s.rng with latchBar0 := x, latchLocal := y }
      sent := s.sent ++ l.map fun w => .readData w.1 0x80000000 } := by
  induction l generalizing s with
  | nil => exact ⟨s.rng.latchBar0, s.rng.latchLocal, by simp⟩
  | cons w l ih =>
    obtain ⟨x, y, h⟩ := ih (swFailed w.1 w.2.1 s)
    refine ⟨x, y, ?_⟩
    rw [List.foldl_cons, h, swFailed_eq, List.map_cons]
    cases w.1 <;> simp [rngSetLatch]

theorem rngFatal_spec (s : State) : ∃ x y b, rngFatal s = { s with
    rng := { s.rng with
      st := .fatal, waiting := [], swWait := [], latchBar0 := x, latchLocal := y, flags := s.rng.flags ||| 2 }
    sent := s.sent ++ (s.rng.waiting.map fun p => .rng p 2 0) ++ s.rng.swWait.map fun w => .readData w.1 0x80000000
    bb := b } := by
  obtain ⟨x, y, h⟩ := foldl_swFailed s.rng.swWait (s.rng.waiting.foldl (fun st p => emit (.rng p 2 0) st)
    { s with rng := { s.rng with st := .fatal, waiting := [], swWait := [] } })
  rw [foldl_emit (fun p => Sent.rng p 2 0)] at h
  refine ⟨x, y, (rngFatal s).bb, ?_⟩
  have hlog (l : List Nat) (u : State) : logEvent 0x31 5 l u = { u with bb := (logEvent 0x31 5 l u).bb } :=
    logEvent_onlyBb ..
  unfold rngFatal
  dsimp only
  rw [hlog, foldl_emit (fun p => Sent.rng p 2 0), h]
  rfl

/-- The count of failed restarts in a row that a failure goes on from (R431). -/
def failBase (r : RngSt) : Nat := if 1024 ≤ r.clean then 0 else r.failRun

/-- The generator as a failure leaves it, but for where it leads. -/
def rngFailed (forming : Nat) (failed : Bool) (cells : List Nat) (r : RngSt) : RngSt :=
  { r with
    buffer := [], taken := 0, heldBlocks := []
    discards := satAdd r.discards (r.buffer.length + r.heldBlocks.length + forming)
    cellFail := BitVec.ofNat 8 (ofBits cells)
    failRun := if failed then failBase r + 1 else failBase r
    flags := r.flags ||| 1 }

theorem rngFailure_eq (test forming : Nat) (failed : Bool) (cells : List Nat) (s : State) : ∃ b,
    rngFailure test forming failed cells s = if 4 ≤ (rngFailed forming failed cells s.rng).failRun then
        rngFatal { s with rng := rngFailed forming failed cells s.rng, bb := b }
      else rngRestart { s with rng := rngFailed forming failed cells s.rng, bb := b } := by
  unfold rngFailure
  extract_lets u r base run v w
  have hw : w = { s with rng := rngFailed forming failed cells s.rng, bb := w.bb } := logEvent_onlyBb ..
  exact ⟨w.bb, by rw [← hw]; rfl⟩

/-- A failure: everything formed is gone, the failing cells are noted, and the fourth failed restart in a row is the last. -/
theorem rngFailure_spec (test forming : Nat) (failed : Bool) (cells : List Nat) (s : State) :
    let t := rngFailure test forming failed cells s
    t.rng.passed = s.rng.passed ∧ t.rng.buffer = [] ∧ t.rng.heldBlocks = [] ∧ t.rng.taken = 0 ∧
      t.rng.rctFails = s.rng.rctFails ∧ t.rng.aptFails = s.rng.aptFails ∧
      t.rng.discards = satAdd s.rng.discards (s.rng.buffer.length + s.rng.heldBlocks.length + forming) ∧
      t.rng.cellFail = BitVec.ofNat 8 (ofBits cells) ∧ t.rng.flags.getLsbD 0 = true ∧
      t.rng.failRun = (if failed then failBase s.rng + 1 else failBase s.rng) ∧
      t.rng.st = (if 4 ≤ t.rng.failRun then .fatal else .restart) ∧
      (t.rng.st = .restart → t.rng.periods = 0 ∧ t.rng.restarts = satInc s.rng.restarts ∧
        t.rng.waiting = s.rng.waiting ∧ t.rng.swWait = s.rng.swWait ∧ t.sent = s.sent) ∧
      (t.rng.st = .fatal → t.rng.waiting = [] ∧ t.rng.swWait = [] ∧ t.sent = s.sent ++
        (s.rng.waiting.map fun p => .rng p 2 0) ++ s.rng.swWait.map fun w => .readData w.1 0x80000000) := by
  obtain ⟨b, h⟩ := rngFailure_eq test forming failed cells s
  rw [h]
  split
  next hrun =>
    obtain ⟨x, y, b', hf⟩ := rngFatal_spec { s with rng := rngFailed forming failed cells s.rng, bb := b }
    rw [hf]
    refine ⟨rfl, rfl, rfl, rfl, rfl, rfl, rfl, rfl, ?_, rfl, (if_pos hrun).symm, fun h => RngState.noConfusion h,
      fun _ => ⟨rfl, rfl, rfl⟩⟩
    simp [rngFailed]
  next hrun =>
    refine ⟨rfl, rfl, rfl, rfl, rfl, rfl, rfl, rfl, ?_, rfl, (if_neg hrun).symm, fun _ => ⟨rfl, rfl, rfl, rfl, rfl⟩,
      fun h => RngState.noConfusion h⟩
    simp [rngRestart, rngFailed]

/-! ## Words for those who wait (R432, R433) -/

/-- The generator after its oldest word has left. -/
def wordTaken (rest : List Digest) (r : RngSt) : RngSt :=
  if r.taken = 7 then { r with buffer := rest, taken := 0 } else { r with taken := r.taken + 1 }

/-- The oldest word of a block. -/
def oldestWord (b : Digest) (r : RngSt) : Word := BitVec.ofNat 32 (b.toNat / 2 ^ (32 * r.taken))

theorem takeWord_nil {s : State} (h : s.rng.buffer = []) : takeWord s = none := by
  simp only [takeWord, h]

theorem takeWord_cons {s : State} {b : Digest} {rest : List Digest} (h : s.rng.buffer = b :: rest) :
    takeWord s = some (oldestWord b s.rng, { s with rng := wordTaken rest s.rng }) := by
  unfold takeWord
  extract_lets r
  split
  next hb => exact absurd (h.symm.trans hb) (List.cons_ne_nil b rest)
  next b' rest' hb =>
    obtain ⟨rfl, rfl⟩ := List.cons.inj (h.symm.trans hb)
    rfl

theorem wordTaken_waiting (rest : List Digest) (r : RngSt) :
    (wordTaken rest r).waiting = r.waiting ∧ (wordTaken rest r).swWait = r.swWait ∧
      (wordTaken rest r).seedWords = r.seedWords ∧ (wordTaken rest r).keyWords = r.keyWords := by
  unfold wordTaken
  split <;> exact ⟨rfl, rfl, rfl, rfl⟩

theorem deliverWord_eq (p : Nat) (w : Word) (s : State) : deliverWord p w s = { s with
    rng := { s.rng with
      seedWords := if p = 2 then s.rng.seedWords ++ [w] else s.rng.seedWords
      keyWords := if p = 1 then s.rng.keyWords ++ [w] else s.rng.keyWords }
    sent := s.sent ++ [.rng p 0 w] } := by
  unfold deliverWord emit
  by_cases h2 : p = 2
  · simp [h2]
  · by_cases h1 : p = 1 <;> simp [h1, h2]

/-- A valid word: the 4-byte read latches it, the 8-byte read takes it from the latch at once (R437). -/
theorem swValid_four (path : Path) (w : Word) (s : State) :
    swValid path 4 w s = rngSetLatch path w { s with sent := s.sent ++ [.readData path 0] } := by
  cases path <;> rfl

theorem swValid_eight (path : Path) (w : Word) (s : State) :
    swValid path 8 w s = rngSetLatch path 0 { s with sent := s.sent ++ [.readData path (w ++ (0 : Word))] } := by
  cases path <;> rfl

theorem serveWaiting_of_idle (n : Nat) {s : State}
    (h : s.rng.buffer = [] ∨ (s.rng.waiting = [] ∧ s.rng.swWait = [])) : serveWaiting n s = s := by
  cases n with
  | zero => rfl
  | succ n =>
    cases hb : s.rng.buffer with
    | nil => simp only [serveWaiting, takeWord_nil hb]
    | cons b rest =>
      obtain ⟨hw, hs⟩ := h.resolve_left (by rw [hb]; exact List.cons_ne_nil _ _)
      simp [serveWaiting, takeWord_cons hb, hw, hs]

/-- The lowest port of those that wait is the one found. -/
theorem find_lowest {l : List Nat} {p : Nat} (hp : p < 3) (hmem : p ∈ l) (hlow : ∀ x ∈ l, p ≤ x) :
    ([0, 1, 2] : List Nat).find? (fun q => q ∈ l) = some p := by
  have hnone {q : Nat} (hq : q < p) : q ∉ l := fun h => Nat.not_le.2 hq (hlow q h)
  obtain rfl | rfl | rfl : p = 0 ∨ p = 1 ∨ p = 2 := by omega
  · simp [hmem]
  · simp [hmem, hnone (q := 0)]
  · simp [hmem, hnone (q := 0), hnone (q := 1)]

theorem serveWaiting_port (n : Nat) {s : State} {b : Digest} {rest : List Digest} {p : Nat}
    (h : s.rng.buffer = b :: rest) (hp : p < 3) (hmem : p ∈ s.rng.waiting) (hlow : ∀ x ∈ s.rng.waiting, p ≤ x) :
    serveWaiting (n + 1) s = serveWaiting n (deliverWord p (oldestWord b s.rng) { s with
      rng := { wordTaken rest s.rng with waiting := s.rng.waiting.erase p } }) := by
  simp only [serveWaiting, takeWord_cons h, find_lowest hp hmem hlow, (wordTaken_waiting rest s.rng).1]

theorem serveWaiting_read (n : Nat) {s : State} {b : Digest} {rest : List Digest} {path : Path} {bytes t0 : Nat}
    {more : List (Path × Nat × Nat)} (h : s.rng.buffer = b :: rest) (hw : s.rng.waiting = [])
    (hs : s.rng.swWait = (path, bytes, t0) :: more) : serveWaiting (n + 1) s =
      serveWaiting n (swValid path bytes (oldestWord b s.rng) { s with
        rng := { wordTaken rest s.rng with swWait := more } }) := by
  simp [serveWaiting, takeWord_cons h, hw, hs]

/-! ## The rows of O55 -/

section
variable {raw : BitVec 1024} {s : State}

theorem exec_blockPeriod_running {cells : List CellTest} (hst : s.rng.st = .running)
    (hp : periodTests raw 128 0 s.rng.cells = (cells, none)) :
    exec (.blockPeriod raw) s = .next (rngBlock raw cells s) := by
  simp only [exec, execBlockPeriod, hst, hp]

theorem exec_blockPeriod_fails {cells : List CellTest} {rct apt : List Nat} (hst : s.rng.st = .running)
    (hp : periodTests raw 128 0 s.rng.cells = (cells, some (rct, apt))) : exec (.blockPeriod raw) s =
      .next (rngFailure (if rct = [] then 1 else 0) 1 (decide (s.rng.clean < 1024)) (rct ++ apt)
        (rngCount rct.length apt.length s)) := by
  simp only [exec, execBlockPeriod, hst, hp]

theorem exec_blockPeriod_counted {cells : List CellTest} (hst : s.rng.st = .startup ∨ s.rng.st = .restart)
    (hn : s.rng.periods < 8) (hp : periodTests raw 128 0 s.rng.cells = (cells, none)) : exec (.blockPeriod raw) s =
      .next { s with rng := { s.rng with cells := cells, periods := s.rng.periods + 1 } } := by
  rcases hst with hst | hst <;> simp only [exec, execBlockPeriod, hst, hp, if_neg (Nat.not_le.2 hn)]

theorem exec_blockPeriod_startup_fails {cells : List CellTest} {rct apt : List Nat}
    (hst : s.rng.st = .startup ∨ s.rng.st = .restart) (hn : s.rng.periods < 8)
    (hp : periodTests raw 128 0 s.rng.cells = (cells, some (rct, apt))) : exec (.blockPeriod raw) s =
      .next (startupFails (if rct = [] then 1 else 0) 0 (rct ++ apt) (rngCount rct.length apt.length s)) := by
  rcases hst with hst | hst <;> simp only [exec, execBlockPeriod, hst, hp, if_neg (Nat.not_le.2 hn)]

theorem exec_blockPeriod_full (hn : 8 ≤ s.rng.periods) (hst : s.rng.st = .startup ∨ s.rng.st = .restart) :
    exec (.blockPeriod raw) s = .next s := by
  rcases hst with hst | hst <;> simp only [exec, execBlockPeriod, hst, if_pos hn]

theorem exec_blockPeriod_stopped (hst : s.rng.st = .kat ∨ s.rng.st = .fatal) : exec (.blockPeriod raw) s = .next s := by
  rcases hst with hst | hst <;> simp only [exec, execBlockPeriod, hst]

theorem exec_startupTestEnd (ok : Bool) (hst : s.rng.st = .startup ∨ s.rng.st = .restart) (hn : 8 ≤ s.rng.periods) :
    exec (.startupTestEnd ok) s = .next (if ok then startupPasses s else startupFails 2 0 [] s) := by
  simp only [exec, execStartupTestEnd, if_pos (And.intro hst hn)]

theorem exec_startupTestEnd_other (ok : Bool)
    (h : s.rng.st = .running ∨ s.rng.st = .kat ∨ s.rng.st = .fatal ∨ s.rng.periods < 8) :
    exec (.startupTestEnd ok) s = .next s := by
  have hno : ¬ ((s.rng.st = .startup ∨ s.rng.st = .restart) ∧ 8 ≤ s.rng.periods) := by
    rintro ⟨hst, hn⟩
    rcases h with h | h | h | h
    · rw [h] at hst; simp at hst
    · rw [h] at hst; simp at hst
    · rw [h] at hst; simp at hst
    · omega
  simp only [exec, execStartupTestEnd, if_neg hno]

theorem rngBlock_held {cells : List CellTest} (h : s.rng.heldBlocks.length < 3) : rngBlock raw cells s = { s with
    rng := { s.rng with
      cells := cells, clean := s.rng.clean + 1
      heldBlocks := s.rng.heldBlocks ++ [digestOf (leBytes 128 raw.toNat)] } } := by
  have hlen : (s.rng.heldBlocks ++ [digestOf (leBytes 128 raw.toNat)]).length < 4 := by
    rw [List.length_append, List.length_singleton]
    omega
  simp only [rngBlock, if_pos hlen]

theorem rngBlock_buffered {cells : List CellTest} (h : s.rng.heldBlocks.length = 3) : rngBlock raw cells s =
    serveWaiting (s.rng.waiting.length + s.rng.swWait.length) { s with
      rng := { s.rng with
        cells := cells, clean := s.rng.clean + 1, heldBlocks := []
        buffer := s.rng.buffer ++ (s.rng.heldBlocks ++ [digestOf (leBytes 128 raw.toNat)]).take (64 - s.rng.buffer.length)
        blocks := s.rng.blocks + BitVec.ofNat 64 (min (64 - s.rng.buffer.length) 4) } } := by
  have hlen : (s.rng.heldBlocks ++ [digestOf (leBytes 128 raw.toNat)]).length = 4 := by
    rw [List.length_append, List.length_singleton, h]
  simp only [rngBlock, hlen, Nat.lt_irrefl, if_false, bufferBlocks]

end

/-- Settles O55: a clean period's block by the room it finds, and every failure by what one failure leaves. -/
theorem rngHealth : Obligations.RngHealth := by
  unfold Obligations.RngHealth
  intro raw s r dig run
  refine ⟨fun cells hst hp => ⟨fun hh => ?_, fun hh => ?_⟩, fun n h => serveWaiting_of_idle n h,
    fun n b rest hb => ⟨fun p hp hmem hlow => ?_, fun path t0 more hw => ⟨fun hs => ?_, fun hs => ?_⟩⟩,
    fun cells rct apt hst hp => ⟨_, exec_blockPeriod_fails hst hp, ?_⟩,
    fun hst hn cells hp => exec_blockPeriod_counted hst hn hp,
    fun hst hn cells rct apt hp => ⟨_, exec_blockPeriod_startup_fails hst hn hp, ?_⟩,
    fun hn hst => exec_blockPeriod_full hn hst, fun hst => exec_blockPeriod_stopped hst,
    fun hst hn => ⟨⟨_, exec_startupTestEnd true hst hn, ?_⟩, ⟨_, exec_startupTestEnd false hst hn, ?_⟩⟩,
    fun b h => exec_startupTestEnd_other b h, rfl⟩
  · rw [exec_blockPeriod_running hst hp, rngBlock_held hh]
  · rw [exec_blockPeriod_running hst hp, rngBlock_buffered hh]
  · obtain ⟨-, -, hseed, hkey⟩ := wordTaken_waiting rest s.rng
    rw [serveWaiting_port n hb hp hmem hlow, deliverWord_eq]
    simp only [hseed, hkey]
    rfl
  · rw [serveWaiting_read n hb hw hs, swValid_four]
    rfl
  · rw [serveWaiting_read n hb hw hs, swValid_eight]
    rfl
  · obtain ⟨-, hbuf, hheld, htaken, hrct, hapt, hdis, hcell, hflag, hrun, hst', hrestart, hfatal⟩ :=
      rngFailure_spec (if rct = [] then 1 else 0) 1 (decide (s.rng.clean < 1024)) (rct ++ apt)
        (rngCount rct.length apt.length s)
    refine ⟨hbuf, hheld, htaken, hrct, hapt, hdis, hcell, hflag, ?_, hst', fun h => ?_, hfatal⟩
    · rw [hrun]
      simp only [decide_eq_true_eq]
      rfl
    · obtain ⟨-, hre, hwait, hsw, hsent⟩ := hrestart h
      exact ⟨hre, hwait, hsw, hsent⟩
  · obtain ⟨hpass, hbuf, hheld, htaken, hrct, hapt, hdis, hcell, hflag, hrun, hst', hrestart, hfatal⟩ :=
      rngFailure_spec (if rct = [] then 1 else 0) 0 (decide (s.rng.st = .restart)) (rct ++ apt)
        { rngCount rct.length apt.length s with rng := { (rngCount rct.length apt.length s).rng with passed := false } }
    refine ⟨hpass, hbuf, hheld, htaken, hrct, hapt, hdis, hcell, hflag, ?_, hst', hrestart, fun h => ?_⟩
    · refine hrun.trans ?_
      simp only [decide_eq_true_eq]
      rfl
    · obtain ⟨hwait, hsw, -⟩ := hfatal h
      exact ⟨hwait, hsw⟩
  · exact ⟨rfl, rfl, rfl, rfl, rfl, rfl, rfl⟩
  · obtain ⟨hpass, hbuf, -, -, -, -, hdis, hcell, hflag, hrun, hst', -, -⟩ :=
      rngFailure_spec 2 0 (decide (s.rng.st = .restart)) [] { s with rng := { s.rng with passed := false } }
    refine ⟨hpass, hbuf, hcell, hdis, hflag, ?_, hst'⟩
    refine hrun.trans ?_
    simp only [decide_eq_true_eq]
    rfl

/-! ## Requests and reads (O56) -/

section
variable {s : State}

/-- A generator that makes no words now but may again: those who ask wait. -/
def MustWait (r : RngSt) : Prop := (r.st = .running ∧ r.buffer = []) ∨ r.st = .restart ∨ r.st = .kat

theorem exec_rngRequest_word (p : Fin 3) {b : Digest} {rest : List Digest} (hst : s.rng.st = .running)
    (hb : s.rng.buffer = b :: rest) : exec (.rngRequest p) s =
      .next (deliverWord p.val (oldestWord b s.rng) { s with rng := wordTaken rest s.rng }) := by
  simp only [exec, execRngRequest, hst, if_true, takeWord_cons hb]

theorem exec_rngRequest_waits (p : Fin 3) (h : MustWait s.rng) : exec (.rngRequest p) s =
    .next { s with rng := { s.rng with waiting := s.rng.waiting ++ [p.val] } } := by
  rcases h with ⟨hst, hb⟩ | hst | hst
  · simp only [exec, execRngRequest, hst, if_true, takeWord_nil hb]
  · simp only [exec, execRngRequest, hst, reduceCtorEq, if_false]
  · simp only [exec, execRngRequest, hst, reduceCtorEq, if_false]

theorem exec_rngRequest_startup (p : Fin 3) (hst : s.rng.st = .startup) : exec (.rngRequest p) s =
    .next { s with sent := s.sent ++ [.rng p.val 1 0] } := by
  simp only [exec, execRngRequest, hst, emit]

theorem exec_rngRequest_fatal (p : Fin 3) (hst : s.rng.st = .fatal) : exec (.rngRequest p) s =
    .next { s with sent := s.sent ++ [.rng p.val 2 0] } := by
  simp only [exec, execRngRequest, hst, emit]

theorem pathUp_of_running (h : s.boot.phase = .running) (path : Path) : pathUp s path = true := by
  cases path <;> simp [pathUp, isUp, h]

/-- A read of RNG_SW_STAT while the path is served. -/
theorem exec_rngSwStatRead (h : s.boot.phase = .running) (path : Path) (bytes : Nat) :
    exec (.rngSwStatRead path bytes) s = .next (rngSwRead path bytes s) := by
  simp only [exec, execRngSwStatRead, pathUp_of_running h, if_true]

theorem rngSwRead_word (path : Path) (bytes : Nat) {b : Digest} {rest : List Digest} (hst : s.rng.st = .running)
    (hb : s.rng.buffer = b :: rest) : rngSwRead path bytes s =
      swValid path bytes (oldestWord b s.rng) { s with rng := wordTaken rest s.rng } := by
  simp only [rngSwRead, hst, if_true, takeWord_cons hb]

theorem rngSwRead_waits (path : Path) (bytes : Nat) (h : MustWait s.rng) : rngSwRead path bytes s =
    { s with rng := { s.rng with swWait := s.rng.swWait ++ [(path, bytes, s.now)] } } := by
  rcases h with ⟨hst, hb⟩ | hst | hst
  · simp only [rngSwRead, hst, if_true, takeWord_nil hb]
  · simp only [rngSwRead, hst, reduceCtorEq, if_false]
  · simp only [rngSwRead, hst, reduceCtorEq, if_false]

theorem rngSwRead_startup (path : Path) (bytes : Nat) (hst : s.rng.st = .startup) :
    rngSwRead path bytes s = swNotReady path bytes s := by
  simp only [rngSwRead, hst]

theorem rngSwRead_fatal (path : Path) (bytes : Nat) (hst : s.rng.st = .fatal) :
    rngSwRead path bytes s = swFailed path bytes s := by
  simp only [rngSwRead, hst]

theorem swNotReady_four (path : Path) (u : State) : swNotReady path 4 u = rngSetLatch path 0 { u with
    rng := { u.rng with swNotReady := satInc u.rng.swNotReady, flags := u.rng.flags ||| 32 }
    sent := u.sent ++ [.readData path 0x40000000] } := by
  cases path <;> rfl

/-- The only read that waits, and for 16 µs by now, is NOT_READY at the next tick. -/
theorem tick_of_late {path : Path} {t0 : Nat} (hw : s.rng.swWait = [(path, 4, t0)]) (ht : t0 + 1600 ≤ s.now + 1) :
    tick s = rngSetLatch path 0 { s with
      now := s.now + 1
      rng := { s.rng with swWait := [], swNotReady := satInc s.rng.swNotReady, flags := s.rng.flags ||| 32 }
      sent := s.sent ++ [.readData path 0x40000000] } := by
  simp only [tick, rngTick, hw, List.filter_cons, List.filter_nil, ht, decide_true, if_true, Bool.not_true,
    Bool.false_eq_true, if_false, List.foldl_cons, List.foldl_nil, swNotReady_four]

theorem exec_rngSwDataRead (h : s.boot.phase = .running) (path : Path) : exec (.rngSwDataRead path) s =
    .next (emit (.readData path ((rngLatch path s.rng).setWidth 64)) (rngSetLatch path 0 s)) := by
  simp only [exec, execRngSwDataRead, pathUp_of_running h, rngSwData, Bool.not_true, Bool.false_eq_true, if_false]

/-! ## The known-answer test (R439 to R441) -/

theorem exec_katEntry (h : s.boot.phase = .running) (path : Path) (len : BitVec 8) :
    exec (.katEntry path len) s = .next (rngKatEntry path len s) := by
  simp only [exec, execKatEntry, pathUp_of_running h, if_true]

theorem exec_katExit (h : s.boot.phase = .running) (path : Path) (len : BitVec 8) :
    exec (.katExit path len) s = .next (rngKatExit path len s) := by
  simp only [exec, execKatExit, pathUp_of_running h, if_true]

theorem exec_katGo (h : s.boot.phase = .running) (path : Path) (len : BitVec 8) :
    exec (.katGo path len) s = .next (rngKatGo path len s) := by
  simp only [exec, execKatGo, pathUp_of_running h, if_true]

/-- From BAR0 the test is denied, whatever is asked. -/
theorem rngKat_bar0 (len : BitVec 8) (u : State) : rngKatEntry .bar0 len u = rngFlag 6 u ∧
    rngKatExit .bar0 len u = rngFlag 6 u ∧ rngKatGo .bar0 len u = rngFlag 6 u := by
  have hpath : ¬ (Path.bar0 = .localPort ∧ u.rng.st = .kat) := fun h => Path.noConfusion h.1
  refine ⟨rfl, rfl, ?_⟩
  rw [rngKatGo, if_neg hpath]
  rfl

/-- The digest's words stand in RNG_KAT_OUT. -/
theorem katOut_rngKatHash (len : BitVec 8) (u : State) {k : Nat} (hk : k < 8) :
    Tab.get 0 (rngKatHash len u).rng.katOut k = BitVec.ofNat 32
      ((digestOf (((Tab.getList 0 u.rng.katIn 0 32).flatMap fun w => leBytes 4 w.toNat).take (min len.toNat 128))).toNat /
        2 ^ (32 * k)) := by
  unfold rngKatHash
  extract_lets input d
  change Tab.get 0 (Tab.putList 0 [] 0 ((List.range 8).map fun j => BitVec.ofNat 32 (d.toNat / 2 ^ (32 * j)))) k = _
  have hget := Tab.get_putList (d := (0 : Word)) [] 0 ((List.range 8).map fun j => BitVec.ofNat 32 (d.toNat / 2 ^ (32 * j)))
    (k := k) (by simpa using hk)
  rw [Nat.zero_add] at hget
  rw [hget]
  simp [d, input]

theorem rngKatGo_of_kat (len : BitVec 8) (h : s.rng.st = .kat) : rngKatGo .localPort len s = rngKatHash len s := by
  simp only [rngKatGo, h, and_self, if_true]

theorem rngKatGo_of_not_kat (len : BitVec 8) (h : s.rng.st ≠ .kat) :
    rngKatGo .localPort len s = rngKatEntry .localPort len s := by
  simp only [rngKatGo, h, and_false, if_false]

theorem rngKatEntry_of_running (len : BitVec 8) (h : s.rng.st = .running) : rngKatEntry .localPort len s =
    { rngFlush 1 s with rng := { (rngFlush 1 s).rng with
      st := .kat, katLen := len, cells := List.replicate 8 CellTest.init } } := by
  simp only [rngKatEntry, h, if_true]

theorem rngKatEntry_of_not_running (len : BitVec 8) (h : s.rng.st ≠ .running) :
    rngKatEntry .localPort len s = rngFlag 4 s := by
  simp only [rngKatEntry, h, if_false]

theorem rngKatExit_of_kat (len : BitVec 8) (h : s.rng.st = .kat) : rngKatExit .localPort len s =
    rngRestart { s with rng := { s.rng with katLen := len } } := by
  simp only [rngKatExit, h, if_true]

theorem rngKatExit_of_not_kat (len : BitVec 8) (h : s.rng.st ≠ .kat) : rngKatExit .localPort len s =
    { s with rng := { s.rng with katLen := len } } := by
  simp only [rngKatExit, h, if_false]

/-- A write that leaves the test with KAT_GO set hashes first. -/
theorem rngCtrlWrite_leaves {v : Word} (h : s.rng.st = .kat) (h0 : v.getLsbD 0 = false) (h16 : v.getLsbD 16 = true) :
    rngCtrlWrite .localPort v s = rngKatExit .localPort (BitVec.ofNat 8 (fld v.toNat 15 8))
      (rngKatHash (BitVec.ofNat 8 (fld v.toNat 15 8)) s) := by
  simp only [rngCtrlWrite, h0, h, h16, and_self, if_true, Bool.not_false]

end

/-- Settles O56: requests and reads by the state of the generator that they find, and the test by its three writes. -/
theorem rngRequestsAndTest : Obligations.RngRequestsAndTest := by
  unfold Obligations.RngRequestsAndTest
  intro p len s r out
  refine ⟨fun b rest hst hb => ⟨?_, fun hup path => ⟨?_, ?_⟩⟩, exec_rngRequest_startup p, exec_rngRequest_fatal p,
    exec_rngRequest_waits p, fun hup => ⟨fun path bytes h => ?_, fun path t0 hq hw ht => ?_, fun path hst => ?_,
    fun path hst => ?_, exec_rngSwDataRead hup .bar0, exec_rngSwDataRead hup .localPort, fun c hc => ?_, fun hst => ?_,
    fun hst => ?_, fun hst => ?_, fun hst => ?_, fun hst => ?_, fun v hst h0 h16 => ?_, fun hst => ?_⟩⟩
  · obtain ⟨-, -, hseed, hkey⟩ := wordTaken_waiting rest s.rng
    rw [exec_rngRequest_word p hst hb, deliverWord_eq]
    simp only [hseed, hkey]
    rfl
  · rw [exec_rngSwStatRead hup, rngSwRead_word _ _ hst hb, swValid_four]
    rfl
  · rw [exec_rngSwStatRead hup, rngSwRead_word _ _ hst hb, swValid_eight]
    rfl
  · rw [exec_rngSwStatRead hup, rngSwRead_waits _ _ h]
  · rw [step_idle hq, tick_of_late hw ht]
  · rw [exec_rngSwStatRead hup, rngSwRead_startup _ _ hst, swNotReady_four]
  · rw [exec_rngSwStatRead hup, rngSwRead_fatal _ _ hst, swFailed_eq]
  · obtain ⟨hentry, hexit, hgo⟩ := rngKat_bar0 len s
    simp only [List.mem_cons, List.not_mem_nil, or_false] at hc
    rcases hc with rfl | rfl | rfl
    · rw [exec_katEntry hup, hentry]
    · rw [exec_katExit hup, hexit]
    · rw [exec_katGo hup, hgo]
  · refine ⟨_, exec_katEntry hup .localPort len, ?_⟩
    rw [rngKatEntry_of_running len hst]
    exact ⟨rfl, rfl, rfl, rfl, rfl⟩
  · rw [exec_katEntry hup, rngKatEntry_of_not_running len hst]
  · refine ⟨_, exec_katExit hup .localPort len, ?_⟩
    rw [rngKatExit_of_kat len hst]
    exact ⟨rfl, rfl, rfl⟩
  · rw [exec_katExit hup, rngKatExit_of_not_kat len hst]
  · refine ⟨_, exec_katGo hup .localPort len, ?_⟩
    rw [rngKatGo_of_kat len hst]
    exact ⟨rfl, hst, rfl, rfl, fun k => katOut_rngKatHash len s⟩
  · have hkat (n : BitVec 8) : (rngKatHash n s).rng.st = .kat := hst
    dsimp only
    rw [rngCtrlWrite_leaves hst h0 h16, rngKatExit_of_kat _ (hkat _)]
    refine ⟨rfl, ?_, fun k => katOut_rngKatHash _ s⟩
    simp [rngRestart, rngKatHash, rngFlag]
  · rw [exec_katGo hup, exec_katEntry hup, rngKatGo_of_not_kat len hst]

end Sys2Proof.Machine
end

section
/-! PROOFS. Power samples and points (O58): what a sample notes, one stage down or up, and what follows of the regulator and
of the records. -/

namespace Sys2Proof.Machine

/-! ## What follows a change of the point -/

/-- The regulator told, the trim set, a throttling that ended accounted for: nothing else differs. -/
def PowerTold (a s : State) : Prop := s = { a with
  pwr := { a.pwr with
    vout := s.pwr.vout, trim := s.pwr.trim, cause := s.pwr.cause, throttleSamples := s.pwr.throttleSamples }
  sent := s.sent, bb := s.bb }

theorem PowerTold.refl (s : State) : PowerTold s s := rfl

theorem PowerTold.trans {a b c : State} (h : PowerTold a b) (k : PowerTold b c) : PowerTold a c :=
  Eq.trans k (congrArg (fun x : State => { x with
    pwr := { x.pwr with
      vout := c.pwr.vout, trim := c.pwr.trim, cause := c.pwr.cause, throttleSamples := c.pwr.throttleSamples }
    sent := c.sent, bb := c.bb }) h)

theorem OnlyBb.powerTold {a s : State} (h : OnlyBb a s) : PowerTold a s := by
  rw [h]
  exact rfl

theorem sendVout_told (s : State) : PowerTold s (sendVout s) := by
  unfold sendVout
  split <;> exact rfl

theorem trimVcore_told (s : State) : PowerTold s (trimVcore s) := by
  have htrim (n : Nat) : PowerTold s { s with pwr := { s.pwr with trim := n } } := rfl
  unfold trimVcore
  dsimp only
  split
  · exact rfl
  · exact (htrim _).trans (sendVout_told _)

theorem endThrottle_told (was s : State) : PowerTold s (endThrottle was s) := by
  have hend : PowerTold s { s with pwr := { s.pwr with cause := 0, throttleSamples := 0 } } := rfl
  have hlog (l : List Nat) (u : State) : OnlyBb u (logSev 0 0x81 11 l u) := logSev_onlyBb ..
  unfold endThrottle
  split
  · exact hend.trans (hlog ..).powerTold
  · exact rfl

/-! ## A sample (R536 to R542) -/

/-- What a sample notes before it is judged. -/
theorem sample_spec (p : PowerReading) (s : State) : let u := throttleTime (noteSample p s)
    u.pwr.rate = p.rate ∧ u.pwr.point = s.pwr.point ∧ u.pwr.cap = s.pwr.cap ∧ u.pwr.actual = s.pwr.actual ∧
      u.pwr.hold = s.pwr.hold ∧ u.pwr.quiet = s.pwr.quiet ∧ u.pwr.sinceLower = s.pwr.sinceLower + 1 ∧
      u.queues = s.queues ∧ u.cmds = s.cmds := by
  unfold throttleTime
  dsimp only
  split <;> exact ⟨rfl, rfl, rfl, rfl, rfl, rfl, rfl, rfl, rfl⟩

/-- One stage less. -/
def lowered (p : PwrSt) : PwrSt :=
  { p with
    actual := if p.actual = 0 then p.actual else p.actual - 1, hold := if p.actual = 0 then p.hold + 1 else p.hold
    sinceLower := 0, quiet := 0 }

theorem lowerStage_spec (power temp : Bool) {s : State} (h : ¬ (s.pwr.actual = 0 ∧ s.pwr.hold = 7)) :
    ∃ st : BitVec 7, st.getLsbD 0 = true ∧
      PowerTold { s with pwr := { lowered s.pwr with status := st } } (lowerStage power temp s) := by
  have hlog (l : List Nat) (u : State) : OnlyBb u (logSev 1 0x80 11 l u) := logSev_onlyBb ..
  unfold lowerStage
  extract_lets _ p cause act hold u v
  rw [if_neg h]
  have htail : PowerTold v (sendVout (logSev 1 0x80 11 [cause, p.actual.toNat, act.toNat, hold.toNat] v)) :=
    (hlog ..).powerTold.trans (sendVout_told _)
  refine ⟨v.pwr.status, ?_, PowerTold.trans ?_ htail⟩
  · simp [v, pwrFlag]
  · cases temp <;> exact rfl

/-- One stage more. -/
def raised (p : PwrSt) : PwrSt :=
  { p with
    actual := if p.hold = 0 then p.actual + 1 else p.actual, hold := if p.hold = 0 then 0 else p.hold - 1, quiet := 0 }

theorem raiseStage_told (s : State) : PowerTold { s with pwr := raised s.pwr } (raiseStage s) :=
  (sendVout_told _).trans (endThrottle_told ..)

theorem powerSample_excess (p : PowerReading) {s : State} {u : State} (hu : u = throttleTime (noteSample p s))
    (h : (overCap u || overTemp (readings p.temps)) = true) : powerSample p s = trimVcore (
      if 10 ≤ u.pwr.sinceLower then
        lowerStage (overCap u) (overTemp (readings p.temps)) { u with pwr := { u.pwr with quiet := 0 } }
      else { u with pwr := { u.pwr with quiet := 0 } }) := by
  subst hu
  simp only [powerSample, h, if_true]

theorem powerSample_calm (p : PowerReading) {s : State} {u : State} (hu : u = throttleTime (noteSample p s))
    (h : (overCap u || overTemp (readings p.temps)) = false) {n : Nat}
    (hn : n = if mayRaise (readings p.temps) u then u.pwr.quiet + 1 else 0) : powerSample p s = trimVcore (
      if 100 ≤ n then raiseStage { u with pwr := { u.pwr with quiet := n } }
      else { u with pwr := { u.pwr with quiet := n } }) := by
  subst hu hn
  simp only [powerSample, h, Bool.false_eq_true, if_false]

theorem exec_powerSample (p : PowerReading) {s : State} (h : isUp s = true) :
    exec (.powerSample p) s = .next (powerSample p s) := by
  simp only [exec, execPowerSample, h, if_true]

/-- A sample with a limit exceeded, by what it leaves: the quiet time is over, and after ten samples a stage goes. -/
theorem powerSample_lowers (p : PowerReading) {s u : State} (hu : u = throttleTime (noteSample p s))
    (h : (overCap u || overTemp (readings p.temps)) = true) :
    (10 ≤ u.pwr.sinceLower → ¬ (u.pwr.actual = 0 ∧ u.pwr.hold = 7) → ∃ st : BitVec 7, st.getLsbD 0 = true ∧
      PowerTold { u with pwr := { lowered u.pwr with status := st } } (powerSample p s)) ∧
    (u.pwr.sinceLower < 10 ∨ (u.pwr.actual = 0 ∧ u.pwr.hold = 7) →
      PowerTold { u with pwr := { u.pwr with quiet := 0 } } (powerSample p s)) := by
  rw [powerSample_excess p hu h]
  constructor
  · intro hten hlow
    obtain ⟨st, hst, hspec⟩ := lowerStage_spec (overCap u) (overTemp (readings p.temps))
      (s := { u with pwr := { u.pwr with quiet := 0 } }) hlow
    rw [if_pos hten]
    exact ⟨st, hst, hspec.trans (trimVcore_told _)⟩
  · intro hno
    refine PowerTold.trans ?_ (trimVcore_told _)
    split
    next hten =>
      have hbottom := hno.resolve_left (Nat.not_lt.2 hten)
      have hstay : lowerStage (overCap u) (overTemp (readings p.temps)) { u with pwr := { u.pwr with quiet := 0 } } =
          { u with pwr := { u.pwr with quiet := 0 } } := by
        simp only [lowerStage, hbottom, and_self, if_true]
      rw [hstay]
      exact .refl _
    · exact .refl _

/-- A sample with no limit exceeded: the quiet time goes on or begins again, and after a hundred a stage comes back. -/
theorem powerSample_raises (p : PowerReading) {s u : State} (hu : u = throttleTime (noteSample p s))
    (h : (overCap u || overTemp (readings p.temps)) = false) :
    (mayRaise (readings p.temps) u = true → 99 ≤ u.pwr.quiet →
      PowerTold { u with pwr := raised u.pwr } (powerSample p s)) ∧
    (mayRaise (readings p.temps) u = true → u.pwr.quiet < 99 →
      PowerTold { u with pwr := { u.pwr with quiet := u.pwr.quiet + 1 } } (powerSample p s)) ∧
    (mayRaise (readings p.temps) u = false →
      PowerTold { u with pwr := { u.pwr with quiet := 0 } } (powerSample p s)) := by
  have hcalm := powerSample_calm p hu h rfl
  rw [hcalm]
  refine ⟨fun hmay hq => ?_, fun hmay hq => ?_, fun hmay => ?_⟩
  · have hn : 100 ≤ u.pwr.quiet + 1 := by omega
    rw [if_pos hmay, if_pos hn]
    exact (raiseStage_told { u with pwr := { u.pwr with quiet := u.pwr.quiet + 1 } }).trans (trimVcore_told _)
  · have hn : ¬ 100 ≤ u.pwr.quiet + 1 := by omega
    rw [if_pos hmay, if_neg hn]
    exact trimVcore_told _
  · rw [hmay, if_neg Bool.false_ne_true, if_neg (by decide)]
    exact trimVcore_told _

/-- Whatever a sample leads to, the reading is noted, the configuration and the commands stay. -/
theorem powerSample_noted (p : PowerReading) {s u : State} (hu : u = throttleTime (noteSample p s)) :
    (powerSample p s).pwr.rate = u.pwr.rate ∧ (powerSample p s).pwr.point = u.pwr.point ∧
      (powerSample p s).pwr.cap = u.pwr.cap ∧ (powerSample p s).pwr.samples = u.pwr.samples ∧
      (powerSample p s).queues = u.queues ∧ (powerSample p s).cmds = u.cmds := by
  have htold {q : PwrSt} (hq : PowerTold { u with pwr := q } (powerSample p s)) (h : q.rate = u.pwr.rate ∧
      q.point = u.pwr.point ∧ q.cap = u.pwr.cap ∧ q.samples = u.pwr.samples) :
      (powerSample p s).pwr.rate = u.pwr.rate ∧ (powerSample p s).pwr.point = u.pwr.point ∧
        (powerSample p s).pwr.cap = u.pwr.cap ∧ (powerSample p s).pwr.samples = u.pwr.samples ∧
        (powerSample p s).queues = u.queues ∧ (powerSample p s).cmds = u.cmds := by
    obtain ⟨h1, h2, h3, h4⟩ := h
    rw [hq]
    exact ⟨h1, h2, h3, h4, rfl, rfl⟩
  cases hex : overCap u || overTemp (readings p.temps) with
  | true =>
    obtain ⟨hlow, hstay⟩ := powerSample_lowers p hu hex
    by_cases hgo : 10 ≤ u.pwr.sinceLower ∧ ¬ (u.pwr.actual = 0 ∧ u.pwr.hold = 7)
    · obtain ⟨st, -, hq⟩ := hlow hgo.1 hgo.2
      exact htold hq ⟨rfl, rfl, rfl, rfl⟩
    · exact htold (hstay (by rwa [not_and_or, not_not, Nat.not_le] at hgo)) ⟨rfl, rfl, rfl, rfl⟩
  | false =>
    obtain ⟨hup, hwait, hreset⟩ := powerSample_raises p hu hex
    cases hmay : mayRaise (readings p.temps) u with
    | false => exact htold (hreset hmay) ⟨rfl, rfl, rfl, rfl⟩
    | true =>
      rcases Nat.lt_or_ge u.pwr.quiet 99 with hq | hq
      · exact htold (hwait hmay hq) ⟨rfl, rfl, rfl, rfl⟩
      · exact htold (hup hmay hq) ⟨rfl, rfl, rfl, rfl⟩

/-! ## A write of PWR_CFG (R534, R535) -/

/-- The actual point that a configured one gives. -/
def pointGiven (v : Word) (s : State) : Nat :=
  if throttled s then min s.pwr.actual.toNat (v.toNat % 8) else v.toNat % 8

theorem exec_pointSet (v : Word) {s : State} (h : isUp s = true) : exec (.pointSet v) s = .next (pwrCfg v s) := by
  simp only [exec, execPointSet, h, if_true]

theorem pwrCfg_refused {v : Word} {s : State} (h : 10 < fld v.toNat 15 8) : pwrCfg v s =
    { s with pwr := { s.pwr with status := s.pwr.status ||| 64 } } := by
  simp only [pwrCfg, if_pos h]
  rfl

theorem pwrCfg_told {v : Word} {s : State} (h : fld v.toNat 15 8 ≤ 10) : PowerTold { s with
    pwr := { s.pwr with
      point := BitVec.ofNat 3 (v.toNat % 8), cap := BitVec.ofNat 8 (fld v.toNat 15 8)
      idleOff := BitVec.ofNat 8 (fld v.toNat 23 16), actual := BitVec.ofNat 3 (pointGiven v s) }
    det := { s.det with point := BitVec.ofNat 8 (v.toNat % 8), cap := BitVec.ofNat 8 (fld v.toNat 15 8) } }
    (pwrCfg v s) := by
  have hlog (l : List Nat) (u : State) : OnlyBb u (logSev 1 0x88 11 l u) := logSev_onlyBb ..
  have hset (u w : State) (l : List Nat) (h : PowerTold u w) :
      PowerTold u (endThrottle s (sendVout (logSev 1 0x88 11 l w))) :=
    ((h.trans (hlog l w).powerTold).trans (sendVout_told _)).trans (endThrottle_told ..)
  simp only [pwrCfg, if_neg (Nat.not_lt.2 h)]
  exact hset _ _ _ rfl

/-- Settles O58: a sample by what it is judged as, a write by its cap. -/
theorem powerControl : Obligations.PowerControl := by
  unfold Obligations.PowerControl
  refine ⟨fun p s hup => ?_, fun v s hup => ⟨fun hcap => ?_, fun hcap => ⟨_, exec_pointSet v hup, ?_⟩⟩⟩
  · intro u excess
    obtain ⟨hrate, hpoint, hcap, hactual, hhold, hquiet, hsince, hqueues, hcmds⟩ := sample_spec p s
    obtain ⟨krate, kpoint, kcap, ksamples, kqueues, kcmds⟩ := powerSample_noted p (s := s) (u := u) rfl
    have hlowers := powerSample_lowers p (s := s) (u := u) rfl
    have hraises := powerSample_raises p (s := s) (u := u) rfl
    change u.pwr.actual = _ at hactual
    change u.pwr.hold = _ at hhold
    change u.pwr.quiet = _ at hquiet
    change u.pwr.sinceLower = _ at hsince
    have hlow (hex : excess = true) (hten : 9 ≤ s.pwr.sinceLower) (hstage : ¬ (s.pwr.actual = 0 ∧ s.pwr.hold = 7)) :=
      (hlowers hex).1 (by omega) (by rwa [hactual, hhold])
    refine ⟨_, exec_powerSample p hup, krate.trans hrate, kpoint.trans hpoint, kcap.trans hcap, ksamples,
      kqueues.trans hqueues, kcmds.trans hcmds, fun hex hten hact => ?_, fun hex hten hact hh => ?_, fun hex hno => ?_,
      fun hex => ?_, fun hex hmay hq => ?_, fun hex hmay hq => ?_, fun hex hmay => ?_⟩
    · obtain ⟨st, hst, htold⟩ := hlow hex hten fun hb => hact hb.1
      rw [htold]
      refine ⟨?_, ?_, rfl, hst⟩
      · exact (if_neg (hactual ▸ hact)).trans (congrArg (· - 1) hactual)
      · exact (if_neg (hactual ▸ hact)).trans hhold
    · obtain ⟨st, hst, htold⟩ := hlow hex hten fun hb => hh hb.2
      have hzero := hactual.trans hact
      rw [htold]
      refine ⟨?_, ?_, rfl, hst⟩
      · exact (if_pos hzero).trans hzero
      · exact (if_pos hzero).trans (congrArg (· + 1) hhold)
    · rw [(hlowers hex).2 (by rw [hactual, hhold]; exact hno.imp_left fun h => by omega)]
      exact ⟨hactual, hhold⟩
    · by_cases hgo : 10 ≤ u.pwr.sinceLower ∧ ¬ (u.pwr.actual = 0 ∧ u.pwr.hold = 7)
      · obtain ⟨st, -, htold⟩ := (hlowers hex).1 hgo.1 hgo.2
        rw [htold]
        rfl
      · rw [(hlowers hex).2 (by rwa [not_and_or, not_not, Nat.not_le] at hgo)]
    · obtain ⟨hrise, -, -⟩ := hraises hex
      rw [hrise hmay (by omega)]
      refine ⟨fun hh => ⟨?_, ?_⟩, fun hh => ⟨?_, ?_⟩⟩
      · exact (if_neg (hhold ▸ hh)).trans (congrArg (· - 1) hhold)
      · exact (if_neg (hhold ▸ hh)).trans hactual
      · exact if_pos (hhold.trans hh)
      · exact (if_pos (hhold.trans hh)).trans (congrArg (· + 1) hactual)
    · obtain ⟨-, hwait, -⟩ := hraises hex
      rw [hwait hmay (by omega)]
      exact ⟨congrArg (· + 1) hquiet, hactual, hhold⟩
    · obtain ⟨-, -, hreset⟩ := hraises hex
      rw [hreset hmay]
      exact ⟨rfl, hactual, hhold⟩
  · rw [exec_pointSet v hup, pwrCfg_refused hcap]
  · have hpoint : v.toNat % 8 < 2 ^ 3 := Nat.mod_lt _ (by decide)
    have hwide : v.toNat % 8 < 2 ^ 8 := Nat.lt_trans hpoint (by decide)
    have hcap8 : fld v.toNat 15 8 < 2 ^ 8 := Nat.lt_of_le_of_lt hcap (by decide)
    have hgiven : pointGiven v s < 2 ^ 3 := by
      unfold pointGiven
      split
      · exact Nat.lt_of_le_of_lt (Nat.min_le_right ..) hpoint
      · exact hpoint
    rw [pwrCfg_told hcap]
    refine ⟨?_, ?_, ?_, rfl, ?_, ?_, ?_, rfl, rfl⟩
    · exact Nat.mod_eq_of_lt hpoint
    · exact Nat.mod_eq_of_lt hcap8
    · exact Nat.mod_eq_of_lt (Nat.mod_lt _ (by decide))
    · exact Nat.mod_eq_of_lt hgiven
    · exact Nat.mod_eq_of_lt hwide
    · exact Nat.mod_eq_of_lt hcap8

end Sys2Proof.Machine
end

section
/-! PROOFS. Power domains (O60): the end of a command leaves them alone, and what a wake, a fault and a switch-off make of
them. -/

namespace Sys2Proof.Machine

/-! ## The end of a command leaves power alone -/

theorem foldl_pwr {α : Type} {f : State → α → State} (h : ∀ st x, (f st x).pwr = st.pwr) (l : List α) (s : State) :
    (l.foldl f s).pwr = s.pwr := by
  induction l generalizing s with
  | nil => rfl
  | cons x l ih => exact (ih _).trans (h s x)

@[simp] theorem flogWrite_pwr (q cause kind : Nat) (seq : Word) (addr : Nat) (record : List Byte) (s : State) :
    (flogWrite q cause kind seq addr record s).pwr = s.pwr := rfl

@[simp] theorem queueError_pwr (q kind cause : Nat) (seq : Word) (addr : Nat) (record : List Byte) (s : State) :
    (queueError q kind cause seq addr record s).pwr = s.pwr := by
  unfold queueError
  extract_lets
  split <;> rfl

@[simp] theorem sendMsix_pwr (v : Nat) (s : State) : (sendMsix v s).pwr = s.pwr := by
  unfold sendMsix
  split <;> rfl

@[simp] theorem sendReply_pwr (p : Nat) (dst : NetAddr) (tags : List Word) (src : Word) (body : Nat → List Byte)
    (s : State) : (sendReply p dst tags src body s).pwr = s.pwr := by
  unfold sendReply
  extract_lets
  split <;> rfl

@[simp] theorem notifyQueue_pwr (q : Nat) (record : List Byte) (s : State) : (notifyQueue q record s).pwr = s.pwr := by
  unfold notifyQueue
  extract_lets
  split
  · split <;> simp
  · rfl

@[simp] theorem writeRecord_pwr (c : Cmd) (d : Decision) (s : State) : (writeRecord c d s).pwr = s.pwr := by
  unfold writeRecord
  extract_lets q x rb a
  split
  · rfl
  · have hring := (ringWrite_touch q a rb s).pwr
    split
    · rename_i t heq
      rw [heq] at hring
      rw [notifyQueue_pwr]
      split
      · rw [sendMsix_pwr]
        exact hring
      · exact hring
    · rename_i e t heq
      rw [heq] at hring
      simpa using hring

@[simp] theorem raiseFence_pwr (f v : Nat) (s : State) : (raiseFence f v s).pwr = s.pwr := rfl

@[simp] theorem signalFence_pwr (c : Cmd) (d : Decision) (s : State) : (signalFence c d s).pwr = s.pwr := by
  unfold signalFence
  extract_lets
  split
  · rfl
  · split <;> rfl

@[simp] theorem releaseEngines_pwr (ok killed : Bool) (k : Key) (s : State) :
    (releaseEngines ok killed k s).pwr = s.pwr :=
  foldl_pwr (fun st n => by dsimp only; split <;> rfl) _ s

@[simp] theorem dropModel_pwr (id : Nat) (s : State) : (dropModel id s).pwr = s.pwr :=
  foldl_pwr (fun st e => (extentFreed_touch e st).pwr) _ s

@[simp] theorem cmdWrite_pwr (c : Cmd) (a : Nat) (bs : List Byte) (s : State) : (cmdWrite c a bs s).2.pwr = s.pwr :=
  (spaceWrite_touch ..).pwr

@[simp] theorem writeReport_pwr (c : Cmd) (rep : List Byte) (d : Decision) (s : State) :
    (writeReport c rep d s).2.pwr = s.pwr := by
  have hwrite := cmdWrite_pwr c c.p2 rep s
  unfold writeReport
  split <;> (rename_i heq; rwa [heq] at hwrite)

@[simp] theorem endLoad_pwr (c : Cmd) (d : Decision) (s : State) : (endLoad c d s).2.pwr = s.pwr := by
  unfold endLoad
  split
  · dsimp only
    split <;> simp
  · rfl

@[simp] theorem keepGroup_pwr (p : SplitSt) (s : State) : (keepGroup p s).pwr = s.pwr := by
  unfold keepGroup
  split <;> rfl

@[simp] theorem dropWork_pwr (c : Cmd) (s : State) : (dropWork c s).pwr = s.pwr := by
  unfold dropWork
  split
  · rw [keepGroup_pwr, foldl_pwr fun st e => (releaseExtent_touch st e).pwr]
    rfl
  · rfl

theorem LinkOut.pwr {a s : State} (h : LinkOut a s) : s.pwr = a.pwr := by
  rw [h.rest]

@[simp] theorem kwSend_pwr (l : Nat) (m : Msg) (s : State) : (kwSend l m s).pwr = s.pwr := (kwSend_linkOut l m s).pwr

@[simp] theorem bindingSend_pwr (b ty : Nat) (w3 : Word) (body : List Byte) (s : State) :
    (bindingSend b ty w3 body s).pwr = s.pwr := by
  unfold bindingSend
  split <;> simp

@[simp] theorem sendCmdEnd_pwr (c : Cmd) (s : State) : (sendCmdEnd c s).pwr = s.pwr := by
  unfold sendCmdEnd
  split
  · split <;> simp
  · rfl

@[simp] theorem sendSplitFail_pwr (c : Cmd) (d : Decision) (s : State) : (sendSplitFail c d s).pwr = s.pwr := by
  unfold sendSplitFail
  split
  · extract_lets p
    split
    · refine foldl_pwr (fun st i => ?_) _ s
      split
      · rfl
      · split <;> simp
    · rfl
  · rfl

@[simp] theorem destroyNote_pwr (q : Nat) (f : Tally → Tally) (s : State) : (destroyNote q f s).pwr = s.pwr := rfl

@[simp] theorem destroyCount_pwr (c : Cmd) (d : Decision) (newErr : Nat) (s : State) :
    (destroyCount c d newErr s).pwr = s.pwr := by
  unfold destroyCount
  split <;> rfl

@[simp] theorem engineFate_pwr (c : Cmd) (d : Decision) (s : State) : (engineFate c d s).pwr = s.pwr := by
  unfold engineFate
  split <;> rfl

@[simp] theorem noteRecent_pwr (c : Cmd) (d : Decision) (s : State) : (noteRecent c d s).pwr = s.pwr := rfl

@[simp] theorem finishDestroy_pwr (q : Nat) (s : State) : (finishDestroy q s).2.pwr = s.pwr := by
  unfold finishDestroy
  split
  · split
    · extract_lets d w t
      have hw : t.pwr = s.pwr := cmdWrite_pwr ..
      split <;> exact hw
    · rfl
  · rfl

@[simp] theorem finishOne_pwr (k : Key) (d : Decision) (s : State) : (finishOne k d s).2.pwr = s.pwr := by
  unfold finishOne
  split
  · rfl
  · extract_lets
    simp only [finishDestroy_pwr, destroyCount_pwr]
    split <;> simp

@[simp] theorem settleN_pwr (fuel : Nat) (l : List (Key × Decision)) (s : State) : (settleN fuel l s).pwr = s.pwr := by
  induction fuel generalizing l s with
  | zero => rfl
  | succ fuel ih =>
    cases l with
    | nil => rfl
    | cons x l => exact (ih _ _).trans (finishOne_pwr ..)

@[simp] theorem settle_pwr (l : List (Key × Decision)) (s : State) : (settle l s).pwr = s.pwr := settleN_pwr ..

@[simp] theorem failCmd_pwr (c : Cmd) (d : Decision) (s : State) : (failCmd c d s).pwr = s.pwr := by
  unfold failCmd
  split <;> exact settle_pwr ..

@[simp] theorem engineFaulted_pwr (p cause n : Nat) (s : State) : (engineFaulted p cause n s).pwr = s.pwr := by
  have hlog : (logEvent 0x50 2 [n, p, cause] s).pwr = s.pwr := (logEvent_touch ..).pwr
  unfold engineFaulted
  extract_lets
  split
  · split
    · split
      · exact hlog
      · exact (failCmd_pwr ..).trans hlog
    · exact hlog
  · exact hlog

/-- An engine's failure changes nothing of power but domains and requests. -/
theorem engineFail_pwr (p cause : Nat) (s : State) : (engineFail p cause s).pwr = { s.pwr with
    dom := (engineFail p cause s).pwr.dom, offReq := (engineFail p cause s).pwr.offReq
    wakeAfter := (engineFail p cause s).pwr.wakeAfter } := by
  cases hn : servedBy s p with
  | none =>
    rw [engineFail_unserved cause hn]
  | some n =>
    have hunmap : (unmapEngine p n (engineFaulted p cause n s)).pwr = { s.pwr with
        dom := (unmapEngine p n (engineFaulted p cause n s)).pwr.dom
        offReq := (unmapEngine p n (engineFaulted p cause n s)).pwr.offReq
        wakeAfter := (unmapEngine p n (engineFaulted p cause n s)).pwr.wakeAfter } := by
      rw [← engineFaulted_pwr p cause n s]
      rfl
    rw [engineFail_served cause hn]
    dsimp only
    cases spareFor { s with emap := lostEngine p n s.emap } (p / 9) with
    | none => exact hunmap
    | some q =>
      have hsub : (substitute n q (unmapEngine p n (engineFaulted p cause n s))).pwr = _ := (substitute_touch ..).pwr
      dsimp only [Option.elim]
      rw [hsub]
      exact hunmap

/-! ## A cluster goes offline (R41, R550) -/

/-- An engine domain of a cluster without power. -/
def engineOff (c : Nat) (s : State) (i : Nat) : State :=
  if domState s (9 * c + i) = .failed then s else setDom (9 * c + i) .off s

theorem domState_engineOff (c i e : Nat) (s : State) : domState (engineOff c s i) e =
    if e = 9 * c + i ∧ domState s e ≠ .failed then .off else domState s e := by
  unfold engineOff
  split
  next h =>
    have hno : ¬ (e = 9 * c + i ∧ domState s e ≠ .failed) := fun ⟨he, hf⟩ => hf (he ▸ h)
    rw [if_neg hno]
  next h =>
    rw [domState_setDom]
    by_cases he : e = 9 * c + i
    · rw [if_pos he, if_pos ⟨he, he ▸ h⟩]
    · rw [if_neg he, if_neg fun hc => he hc.1]

theorem foldl_engineOff (c n : Nat) (s : State) : ∃ d, (List.range n).foldl (engineOff c) s =
      { s with pwr := { s.pwr with dom := d } } ∧
    ∀ e, domState ((List.range n).foldl (engineOff c) s) e =
      if (9 * c ≤ e ∧ e < 9 * c + n) ∧ domState s e ≠ .failed then .off else domState s e := by
  induction n with
  | zero => exact ⟨s.pwr.dom, rfl, fun e => (if_neg (by omega)).symm⟩
  | succ n ih =>
    obtain ⟨d, heq, hdom⟩ := ih
    rw [List.range_succ, List.foldl_append, List.foldl_cons, List.foldl_nil]
    refine ⟨(engineOff c ((List.range n).foldl (engineOff c) s) n).pwr.dom, ?_, fun e => ?_⟩
    · rw [heq, engineOff]
      split <;> rfl
    · rw [domState_engineOff, hdom]
      by_cases hf : domState s e = .failed
      · simp [hf]
      · by_cases hlow : 9 * c ≤ e ∧ e < 9 * c + n
        · simp [hf, hlow, show e < 9 * c + (n + 1) by omega]
        · by_cases he : e = 9 * c + n
          · simp [he]
          · simp [hf, hlow, he, show ¬ (9 * c ≤ e ∧ e < 9 * c + (n + 1)) by omega]

/-- A logical engine that no physical one serves, and that keeps no region. -/
def unserve (c : Nat) (s : State) (i : Nat) : State :=
  updEng (8 * c + i) (fun e => { e with kept := [], keepNext := [] })
    { s with emap := { s.emap with phys := Tab.put 0 s.emap.phys (8 * c + i) 0 } }

theorem physOf_unserve (c i k : Nat) (s : State) :
    physOf (unserve c s i) k = if k = 8 * c + i then none else physOf s k := by
  have hphys : (unserve c s i).emap.phys = Tab.put 0 s.emap.phys (8 * c + i) 0 := rfl
  unfold physOf
  rw [hphys, Tab.get_put]
  by_cases h : k = 8 * c + i
  · simp only [if_pos h]
  · simp only [if_neg h]

theorem foldl_unserve (c n : Nat) (s : State) : ∃ m g, (List.range n).foldl (unserve c) s =
      { s with emap := m, eng := g } ∧
    ∀ i, i < n → physOf ((List.range n).foldl (unserve c) s) (8 * c + i) = none := by
  induction n with
  | zero => exact ⟨s.emap, s.eng, rfl, fun i hi => absurd hi (Nat.not_lt_zero i)⟩
  | succ n ih =>
    obtain ⟨m, g, heq, hnone⟩ := ih
    rw [List.range_succ, List.foldl_append, List.foldl_cons, List.foldl_nil]
    have honly (u : State) : unserve c u n = { u with emap := (unserve c u n).emap, eng := (unserve c u n).eng } := rfl
    refine ⟨_, _, (honly _).trans (by rw [heq]), fun i hi => ?_⟩
    · rw [physOf_unserve]
      by_cases he : i = n
      · rw [if_pos (by rw [he])]
      · rw [if_neg (by omega), hnone i (by omega)]

/-- A cluster offline: its engines' domains are off unless they have failed, its logical engines are served by none. -/
theorem clusterOffline_spec (c : Nat) (s : State) : ∃ d m g, clusterOffline c s =
      { s with pwr := { s.pwr with dom := d }, emap := m, eng := g } ∧
    (∀ i, i < 8 → physOf (clusterOffline c s) (8 * c + i) = none) ∧
    ∀ e, domState (clusterOffline c s) e =
      if (9 * c ≤ e ∧ e < 9 * c + 9) ∧ domState s e ≠ .failed then .off else domState s e := by
  obtain ⟨d, hoff, hdom⟩ := foldl_engineOff c 9 s
  obtain ⟨m, g, hun, hphys⟩ := foldl_unserve c 8 ((List.range 9).foldl (engineOff c) s)
  have heq : clusterOffline c s = (List.range 8).foldl (unserve c) ((List.range 9).foldl (engineOff c) s) := rfl
  rw [heq]
  have hkeep (u : State) (m : MapSt) (g : Tab Engine) (e : Nat) :
      domState { u with emap := m, eng := g } e = domState u e := rfl
  refine ⟨d, m, g, ?_, hphys, fun e => ?_⟩
  · rw [hun, hoff]
  · rw [hun, hkeep, hdom]

/-! ## Ports -/

@[simp] theorem linkAlone_pwr (l : Nat) (s : State) : (linkAlone l s).pwr = s.pwr := by
  refine foldl_pwr (fun st b => ?_) _ s
  split
  · unfold runAlone
    extract_lets
    split <;> rfl
  · rfl

@[simp] theorem linkTo_pwr (l : Nat) (st : LState) (s : State) : (linkTo l st s).pwr = s.pwr := by
  unfold linkTo
  extract_lets was u
  split
  · rw [linkAlone_pwr, (logEvent_touch ..).pwr, kwFlag_pwr, updLnk_pwr, updLnk_pwr]
  · exact updLnk_pwr ..

theorem lnk_linkTo (l : Nat) (st : LState) (s : State) : (lnk (linkTo l st s) l).st = st ∧
    (lnk (linkTo l st s) l).sameInst = false ∧ (lnk (linkTo l st s) l).encrypted = false := by
  by_cases h : (lnk s l).st = .active
  · rw [lnk_linkTo_of_active st h]
    exact ⟨rfl, rfl, rfl⟩
  · simp only [linkTo, if_neg h, lnk_updLnk, and_self]

/-! ## The rows -/

section
variable {d : Fin 96} {s : State}

/-- The state of the domain that wakes, its memory zero. -/
def domainOn (d : Nat) (s : State) : State :=
  setDom d .on (zeroDomain d { s with pwr := { s.pwr with wakes := satInc s.pwr.wakes } })

theorem exec_domainWake (hup : isUp s = true) (hst : domState s d.val = .waking)
    (hcl : d.val < 72 → domState s (72 + d.val / 9) = .on) :
    exec (.domainWake d) s = .next (portWakes d.val (domainOn d.val s)) := by
  have hmay : mayComeOn s d.val = true := by
    rcases Nat.lt_or_ge d.val 72 with h | h
    · simp [mayComeOn, hcl h]
    · simp [mayComeOn, h]
  simp only [exec, execDomainWake, hup, hst, hmay, beq_self_eq_true, Bool.and_self, if_true]
  rfl

theorem exec_domainWake_other (h : domState s d.val ≠ .waking ∨ (d.val < 72 ∧ domState s (72 + d.val / 9) ≠ .on)) :
    exec (.domainWake d) s = .next s := by
  have hno : (isUp s && domState s d.val == .waking && mayComeOn s d.val) = false := by
    rcases h with h | ⟨h, hc⟩
    · simp [h]
    · simp [mayComeOn, h, hc]
  simp only [exec, execDomainWake, hno, Bool.false_eq_true, if_false]

/-- A failed domain flagged and counted, before what it takes with it. -/
def domainFailed (d : Nat) (s : State) : State :=
  logSev 3 0x87 11 [d] (pwrFlag 5 (setDom d .failed { s with pwr := { s.pwr with domFaults := satInc s.pwr.domFaults } }))

theorem exec_domainFault (hup : isUp s = true) (hst : domState s d.val = .waking) :
    exec (.domainFault d) s = .next (domainFails d.val (domainFailed d.val s)) := by
  simp only [exec, execDomainFault, hup, hst, beq_self_eq_true, Bool.and_self, if_true]
  rfl

theorem exec_domainFault_other (h : domState s d.val ≠ .waking) : exec (.domainFault d) s = .next s := by
  have hno : (isUp s && domState s d.val == .waking) = false := by simp [h]
  simp only [exec, execDomainFault, hno, Bool.false_eq_true, if_false]

/-- The requests of a domain answered: it is off, or WAKING where a wake was ordered meanwhile. -/
def domainAnswered (d : Nat) (s : State) : State :=
  setDom d (if d ∈ s.pwr.wakeAfter then .waking else .off) { s with
    pwr := { s.pwr with offReq := s.pwr.offReq.filter (· != d), wakeAfter := s.pwr.wakeAfter.filter (· != d) } }

theorem exec_domainOff (hup : isUp s = true) (hst : domState s d.val = .on) (hmay : mayGoOff s d.val = true) :
    exec (.domainOff d) s = .next (loseDomain d.val (domainAnswered d.val s)) := by
  simp only [exec, execDomainOff, hup, hst, hmay, beq_self_eq_true, Bool.and_self, if_true, decide_eq_true_eq]
  rfl

theorem exec_domainOff_stays (hmay : mayGoOff s d.val = false) : exec (.domainOff d) s = .next s := by
  simp only [exec, execDomainOff, hmay, Bool.and_false, Bool.false_eq_true, if_false]

/-- A domain that wakes changes memory, domains, the count of wakes and, for a port, its link. -/
theorem zeroDomain_spec (d : Nat) (s : State) : zeroDomain d s = { s with mem := (zeroDomain d s).mem } ∧
    (zeroDomain d s).mem.carafe = s.mem.carafe ∧ (d < 72 → ∀ q ∈ (zeroDomain d s).mem.spad, q.1 / slotBytes ≠ d) ∧
    (72 ≤ d → d < 80 → ∀ q ∈ (zeroDomain d s).mem.cluster, q.1 / slotBytes ≠ d - 72) := by
  unfold zeroDomain
  split
  next h =>
    refine ⟨rfl, rfl, fun _ q hq => ?_, fun h' => absurd h (Nat.not_lt.2 h')⟩
    simpa using (List.mem_filter.1 hq).2
  next h =>
    split
    · refine ⟨rfl, rfl, fun h' => absurd h' h, fun _ _ q hq => ?_⟩
      simpa using (List.mem_filter.1 hq).2
    next h' => exact ⟨rfl, rfl, fun hd => absurd hd h, fun _ hd => absurd hd h'⟩

/-- What a domain's switching off takes with it is memory, what its engine kept, or its link, but no domain. -/
theorem loseDomain_pwr (d : Nat) (s : State) : (loseDomain d s).pwr = s.pwr := by
  have hzero : (zeroDomain d s).pwr = s.pwr := by rw [(zeroDomain_spec d s).1]
  unfold loseDomain
  dsimp only
  split
  · split <;> exact hzero
  · split
    · exact (linkTo_pwr ..).trans hzero
    · exact hzero

theorem loseDomain_spad {d : Nat} (hd : d < 72) (s : State) : ∀ q ∈ (loseDomain d s).mem.spad, q.1 / slotBytes ≠ d := by
  obtain ⟨-, -, hspad, -⟩ := zeroDomain_spec d s
  have hmem : (loseDomain d s).mem = (zeroDomain d s).mem := by
    unfold loseDomain
    dsimp only
    rw [if_pos hd]
    split <;> rfl
  rw [hmem]
  exact hspad hd

theorem loseDomain_link {d : Nat} (h86 : 86 ≤ d) (h94 : d < 94) (s : State) :
    (lnk (loseDomain d s) (d - 86)).st = .disabled ∧ (lnk (loseDomain d s) (d - 86)).sameInst = false ∧
      (lnk (loseDomain d s) (d - 86)).encrypted = false := by
  unfold loseDomain
  dsimp only
  rw [if_neg (by omega), if_pos ⟨h86, h94⟩]
  exact lnk_linkTo ..

/-- A domain that may go off does, and its requests are answered. -/
theorem domainOff_spec (d : Nat) (s : State) : domState (loseDomain d (domainAnswered d s)) d =
      (if d ∈ s.pwr.wakeAfter then .waking else .off) ∧ d ∉ (loseDomain d (domainAnswered d s)).pwr.wakeAfter ∧
      d ∉ (loseDomain d (domainAnswered d s)).pwr.offReq := by
  have hgone (l : List Nat) : d ∉ l.filter (· != d) := fun h => absurd (List.mem_filter.1 h).2 (by simp)
  rw [domState, loseDomain_pwr]
  exact ⟨domState_setDom_same .., hgone _, hgone _⟩

end

theorem portWakes_onlyKw (d : Nat) (s : State) : portWakes d s = { s with kw := (portWakes d s).kw } := by
  unfold portWakes
  split <;> rfl

theorem portWakes_link {d : Nat} (h86 : 86 ≤ d) (h94 : d < 94) (s : State) :
    (lnk (portWakes d s) (d - 86)).st = .detect := by
  unfold portWakes
  rw [if_pos ⟨h86, h94⟩, lnk_updLnk]

/-- What a failed domain leaves of the counts and flags of power, whatever it takes with it. -/
theorem domainFails_power (d : Nat) (s : State) : (domainFails d s).pwr.domFaults = s.pwr.domFaults ∧
    (domainFails d s).pwr.status = s.pwr.status := by
  unfold domainFails
  split
  · rw [engineFail_pwr]
    exact ⟨rfl, rfl⟩
  · split
    · obtain ⟨m, e, g, heq, -⟩ := clusterOffline_spec (d - 72) s
      rw [heq]
      exact ⟨rfl, rfl⟩
    · exact ⟨rfl, rfl⟩

/-- A failed domain that is no engine's stays FAILED and ends no command. -/
theorem domainFails_other {d : Nat} (hd : 72 ≤ d) (s : State) : domState (domainFails d s) d = domState s d ∧
    (domainFails d s).cmds = s.cmds := by
  unfold domainFails
  rw [if_neg (Nat.not_lt.2 hd)]
  split
  next h =>
    obtain ⟨m, e, g, heq, -, hdom⟩ := clusterOffline_spec (d - 72) s
    rw [hdom, if_neg (by omega), heq]
    exact ⟨rfl, rfl⟩
  · exact ⟨rfl, rfl⟩

theorem domainFails_cluster {d : Nat} (hd : 72 ≤ d) (hd' : d < 80) (s : State) :
    domainFails d s = clusterOffline (d - 72) s := by
  unfold domainFails
  rw [if_neg (Nat.not_lt.2 hd), if_pos hd']

theorem domainFailed_spec (d : Nat) (s : State) : (domainFailed d s).pwr.domFaults = satInc s.pwr.domFaults ∧
    (domainFailed d s).pwr.status.getLsbD 5 = true ∧ (domainFailed d s).cmds = s.cmds ∧
    ∀ e, domState (domainFailed d s) e = if e = d then .failed else domState s e := by
  have hlog (u : State) : OnlyBb u (logSev 3 0x87 11 [d] u) := logSev_onlyBb ..
  unfold domainFailed
  rw [hlog]
  refine ⟨rfl, ?_, rfl, fun e => ?_⟩
  · simp [pwrFlag, setDom]
  · exact domState_setDom d e .failed { s with pwr := { s.pwr with domFaults := satInc s.pwr.domFaults } }

/-! ## Idle engines (R548) -/

theorem exec_idleOff {n : Fin 64} {e : Nat} {s : State} (h : physOf s n.val = some e) : exec (.idleOff n) s = .next (
    if isUp s = true ∧ s.pwr.idleOff ≠ 0 ∧ (eng s n.val).cmd = none ∧ readyNeeds s n.val = false ∧ domState s e = .on ∧
        e ∉ s.pwr.offReq then
      { s with pwr := { s.pwr with offReq := s.pwr.offReq ++ [e] } }
    else s) := by
  simp [exec, execIdleOff, h, and_assoc]

/-- Settles O60: a wake and a switch-off by what they do to memory, requests and ports, a fault by what goes with it. -/
theorem powerDomains : Obligations.PowerDomains := by
  unfold Obligations.PowerDomains
  intro d s hup
  refine ⟨fun hst hcl => ⟨_, exec_domainWake hup hst hcl, ?_⟩,
    fun hst => ⟨exec_domainWake_other (.inl hst), exec_domainFault_other hst⟩,
    fun hd hcl => exec_domainWake_other (.inr ⟨hd, hcl⟩), fun hst => ⟨_, exec_domainFault hup hst, ?_⟩,
    fun hst => ⟨fun hd hreq => ?_, fun hd hreq => ?_, fun h72 h80 hoff => ?_, fun h86 hport hwake => ?_, fun h80 hno => ?_⟩,
    fun n e he => ⟨fun hidle hcmd hneed hon hreq => ?_, fun hno => ?_⟩⟩
  · obtain ⟨hzero, hcarafe, hspad, hcluster⟩ :=
      zeroDomain_spec d.val { s with pwr := { s.pwr with wakes := satInc s.pwr.wakes } }
    have hon : domainOn d.val s = { setDom d.val .on { s with pwr := { s.pwr with wakes := satInc s.pwr.wakes } } with
        mem := (zeroDomain d.val { s with pwr := { s.pwr with wakes := satInc s.pwr.wakes } }).mem } :=
      congrArg (setDom d.val .on) hzero
    have hdom (e : Nat) : domState (portWakes d.val (domainOn d.val s)) e =
        if e = d.val then .on else domState s e := by
      rw [portWakes_onlyKw, hon]
      exact domState_setDom ..
    refine ⟨by rw [hdom, if_pos rfl], ?_, fun e he => by rw [hdom, if_neg he], ?_, ?_, ?_, ?_,
      fun h86 h94 => portWakes_link h86 h94 _⟩
    · rw [portWakes_onlyKw, hon]
      rfl
    · rw [portWakes_onlyKw, hon]
      exact hcarafe
    · rw [portWakes_onlyKw, hon]
      rfl
    · rw [portWakes_onlyKw, hon]
      exact hspad
    · rw [portWakes_onlyKw, hon]
      exact hcluster
  · obtain ⟨hcount, hflag, hcmds, hdom⟩ := domainFailed_spec d.val s
    obtain ⟨kcount, kflag⟩ := domainFails_power d.val (domainFailed d.val s)
    refine ⟨kcount.trans hcount, by rw [kflag, hflag], fun h72 => ?_, fun h72 h80 i hi => ?_⟩
    · obtain ⟨hself, hends⟩ := domainFails_other h72 (domainFailed d.val s)
      exact ⟨by rw [hself, hdom, if_pos rfl], hends.trans hcmds⟩
    · obtain ⟨m, e, g, -, hphys, hoff⟩ := clusterOffline_spec (d.val - 72) (domainFailed d.val s)
      rw [domainFails_cluster h72 h80]
      refine ⟨hphys i hi, fun hf => ?_⟩
      have hsame : domState (domainFailed d.val s) (9 * (d.val - 72) + i) = domState s (9 * (d.val - 72) + i) := by
        rw [hdom, if_neg (by omega)]
      rw [hoff, hsame, if_pos ⟨by omega, hf⟩]
  · have hmay : mayGoOff s d.val = true := by
      rw [mayGoOff, if_pos hd]
      exact decide_eq_true hreq
    obtain ⟨hdom, hwake, hoff⟩ := domainOff_spec d.val s
    exact ⟨_, exec_domainOff hup hst hmay, hdom, hwake, hoff, loseDomain_spad hd _⟩
  · refine exec_domainOff_stays ?_
    rw [mayGoOff, if_pos hd]
    exact decide_eq_false hreq
  · have hmay : mayGoOff s d.val = true := by
      rw [mayGoOff, if_neg (Nat.not_lt.2 h72), if_pos h80, List.all_eq_true]
      intro i hi
      simpa using hoff i (List.mem_range.1 hi)
    obtain ⟨hdom, -, -⟩ := domainOff_spec d.val s
    exact ⟨_, exec_domainOff hup hst hmay, hdom⟩
  · have hmay : mayGoOff s d.val = true := by
      rw [mayGoOff, if_neg (by omega), if_neg (by omega), if_neg (by omega), hport]
      rfl
    obtain ⟨hdom, -, -⟩ := domainOff_spec d.val s
    rw [if_neg hwake] at hdom
    exact ⟨_, exec_domainOff hup hst hmay, hdom, fun h94 => loseDomain_link h86 h94 _⟩
  · refine exec_domainOff_stays ?_
    rw [mayGoOff, if_neg (by omega), if_neg (by omega)]
    split
    · rfl
    next h => rw [hno.resolve_left h, Bool.not_true]
  · rw [exec_idleOff he, if_pos ⟨hup, hidle, hcmd, hneed, hon, hreq⟩]
  · rw [exec_idleOff he, if_neg]
    rintro ⟨-, hidle, hcmd, hneed, hon, hreq⟩
    rcases hno with h | h | h | h | h
    · exact hidle h
    · exact h hcmd
    · exact Bool.noConfusion (hneed.symm.trans h)
    · exact h hon
    · exact hreq h

end Sys2Proof.Machine
end

section
/-! PROOFS. The PCIe function's resets (O12): with no command in flight, the queues bound to PCIe go, each with its entry
in the fault log, and nothing else of the part does. -/

namespace Sys2Proof

/-! ## Keys taken out of a table -/

theorem Tab.remove_eq_filter {α : Type} (t : Tab α) (i : Nat) : Tab.remove t i = t.filter fun p => !decide (p.1 = i) := by
  induction t with
  | nil => rfl
  | cons p t ih =>
    rw [Tab.remove, ih]
    by_cases h : i = p.1
    · simp [h]
    · simp [h, Ne.symm h]

theorem Tab.foldl_remove {α : Type} [DecidableEq α] (d : α) (l : List Nat) (t : Tab α) :
    l.foldl (fun u i => Tab.put d u i d) t = t.filter fun p => !decide (p.1 ∈ l) := by
  induction l generalizing t with
  | nil => simp
  | cons i l ih =>
    have hput : Tab.put d t i d = Tab.remove t i := if_pos rfl
    rw [List.foldl_cons, ih, hput, Tab.remove_eq_filter, List.filter_filter]
    congr 1
    funext p
    by_cases h : p.1 = i <;> simp [h]

/-- Keys that are out stay out. -/
theorem Tab.foldl_remove_twice {α : Type} [DecidableEq α] (d : α) (l : List Nat) (t : Tab α) :
    l.foldl (fun u i => Tab.put d u i d) (l.foldl (fun u i => Tab.put d u i d) t) =
      l.foldl (fun u i => Tab.put d u i d) t := by
  rw [Tab.foldl_remove, Tab.foldl_remove, List.filter_filter]
  simp

end Sys2Proof

namespace Sys2Proof.Machine

theorem foldl_flrDestroy (l : List Nat) (s : State) : ∃ q, l.foldl (fun st i => flrDestroy i st) s = { s with queues := q } := by
  induction l generalizing s with
  | nil => exact ⟨s.queues, rfl⟩
  | cons i l ih =>
    obtain ⟨q, h⟩ := ih (flrDestroy i s)
    exact ⟨q, by rw [List.foldl_cons, h]; rfl⟩

/-- A queue gone, with its record in the fault log. -/
theorem flrQueue_eq (q : Nat) (s : State) : ∃ g, flrQueue q s = { s with
    queues := Tab.put Queue.init s.queues q Queue.init
    fe := { s.fe with flog := g, flogCount := s.fe.flogCount + 1, status := (flrQueue q s).fe.status } } :=
  ⟨_, rfl⟩

theorem foldl_flrQueue (l : List Nat) (s : State) : ∃ g st, l.foldl (fun st q => flrQueue q st) s = { s with
    queues := l.foldl (fun u q => Tab.put Queue.init u q Queue.init) s.queues
    fe := { s.fe with flog := g, flogCount := s.fe.flogCount + BitVec.ofNat 32 l.length, status := st } } := by
  induction l generalizing s with
  | nil => exact ⟨s.fe.flog, s.fe.status, by simp⟩
  | cons q l ih =>
    obtain ⟨g, hq⟩ := flrQueue_eq q s
    obtain ⟨g', st, h⟩ := ih (flrQueue q s)
    have hcount : s.fe.flogCount + 1 + BitVec.ofNat 32 l.length = s.fe.flogCount + BitVec.ofNat 32 (l.length + 1) := by
      rw [BitVec.add_assoc, Nat.add_comm l.length 1, BitVec.ofNat_add]
      rfl
    refine ⟨g', st, ?_⟩
    rw [List.foldl_cons, h, hq, List.length_cons, ← hcount]
    rfl

theorem noteFree_of_none {s : State} (h : s.cmds = []) : noteFree s = s := by
  have hsame : { s with cmds := [] } = s := by rw [← h]
  simp only [noteFree, h, List.map_nil, hsame]

/-- A function reset with no command in flight. -/
theorem pcieReset_idle {s : State} (h : s.cmds = []) : ∃ g st q, pcieReset s = { s with
    queues := (pcieQueues s).foldl (fun u q => Tab.put Queue.init u q Queue.init) q
    fe := { s.fe with
      flog := g, flogCount := s.fe.flogCount + BitVec.ofNat 32 (pcieQueues s).length, status := st
      aqCtrl := s.fe.aqCtrl &&& 0x7FFFFFFF }
    host := (flrConfig s).host } := by
  obtain ⟨q, hdestroy⟩ := foldl_flrDestroy (pcieQueues s) s
  obtain ⟨g, st, hgone⟩ := foldl_flrQueue (pcieQueues s) { s with queues := q }
  have hsettle (u : State) (hu : u.cmds = []) : settle (flrWatchers [] u) (flrConfig u) = flrConfig u := by
    have hc : (flrConfig u).cmds = [] := hu
    simp only [settle, flrWatchers, hu, List.filterMap_nil, settleN]
    exact noteFree_of_none hc
  refine ⟨g, st, q, ?_⟩
  have hcs : pcieCmds s = [] := by rw [pcieCmds, h]; rfl
  unfold pcieReset
  extract_lets cs qs a b c
  have hc : c = { s with
      queues := (pcieQueues s).foldl (fun u q => Tab.put Queue.init u q Queue.init) q
      fe := { s.fe with
        flog := g, flogCount := s.fe.flogCount + BitVec.ofNat 32 (pcieQueues s).length, status := st } } := by
    simp only [c, b, a, cs, hcs, List.foldl_nil, qs, hdestroy, hgone]
  have hkeys : cs.map Cmd.key = [] := by simp only [cs, hcs, List.map_nil]
  rw [hkeys, hsettle c (by rw [hc]; exact h), hc]
  rfl

/-- Settles O12: both resets are one, and without commands it is the end of the queues and of the configuration. -/
theorem functionReset : Obligations.FunctionReset := by
  unfold Obligations.FunctionReset
  refine ⟨fun s hup => ?_, fun s hup hc => ?_, fun addr size s hup => ?_⟩
  · simp only [exec, execFunctionLevelReset, execPerstN, hup, if_true, and_self]
  · have hexec : exec .functionLevelReset s = .next (pcieReset s) := by
      simp only [exec, execFunctionLevelReset, hup, if_true]
    obtain ⟨g, st, q, ht⟩ := pcieReset_idle hc
    refine ⟨_, hexec, ?_⟩
    rw [ht]
    exact ⟨(Tab.foldl_remove_twice ..).symm, rfl, rfl, rfl, rfl, rfl, rfl, rfl, rfl, rfl, rfl, rfl⟩
  · simp only [exec, execAtsInvalidation, hup, if_true, emit]

end Sys2Proof.Machine
end

section
/-! PROOFS. The service port: how a request is answered, and the owner's settings (O52). -/

namespace Sys2Proof.Machine

/-! ## Answers (R488) -/

section
variable {op : Nat} {s : State}

theorem svcServed_of_up (h : isUp s = true) (op : Nat) : svcServed s op = true := by
  have hphase : s.boot.phase = .running := by simpa [isUp] using h
  simp only [svcServed, hphase]

theorem serve_busy (act : State → State) (hs : svcServed s op = true) (hb : svcBusy s = true) :
    serve op act s = svcAnswer op 4 [] s := by
  simp only [serve, hs, hb, Bool.not_true, Bool.false_eq_true, if_false, if_true]

theorem serve_free (act : State → State) (hs : svcServed s op = true) (hb : svcBusy s = false) :
    serve op act s = act (svcBegin op s) := by
  simp only [serve, hs, hb, Bool.not_true, Bool.false_eq_true, if_false]

theorem svcBusy_iff (s : State) : svcBusy s = true ↔ s.now < s.svc.doneAt := decide_eq_true_iff

theorem svcBusy_of_done (h : s.svc.doneAt ≤ s.now) : svcBusy s = false := decide_eq_false (Nat.not_lt.2 h)

/-- An answer is sent and counted; AUTH and REFUSED are counted again. -/
theorem svcAnswer_spec (op st : Nat) (body : List Byte) (s : State) :
    (svcAnswer op st body s).sent = s.sent ++ [.svc op st body] ∧
      (svcAnswer op st body s).svc.reqs = satInc s.svc.reqs ∧
      (svcAnswer op st body s).svc.denied = (if st = 2 ∨ st = 3 then satInc s.svc.denied else s.svc.denied) := by
  unfold svcAnswer
  dsimp only
  split <;> exact ⟨rfl, rfl, rfl⟩

/-- Only the port's own counts differ after an answer, and what was sent. -/
theorem svcAnswer_onlySvc (op st : Nat) (body : List Byte) (s : State) :
    svcAnswer op st body s = { s with
      svc := (svcAnswer op st body s).svc, sent := s.sent ++ [.svc op st body] } := by
  unfold svcAnswer
  dsimp only
  split <;> rfl

end

/-! ## Requests that the owner signs (R489, R490) -/

section
variable {op : Nat} {shape : Bool} {act : State → Option State} {r : SvcReq} {s : State}

theorem serveOwner_busy (hup : isUp s = true) (hb : s.now < s.svc.doneAt) :
    serveOwner op shape act r s = svcAnswer op 4 [] s :=
  serve_busy _ (svcServed_of_up hup op) ((svcBusy_iff s).2 hb)

theorem serveOwner_free (hup : isUp s = true) (hb : s.svc.doneAt ≤ s.now) : serveOwner op shape act r s =
    if !shape then svcBadFrame op (svcBegin op s)
    else if !ownerSigned s op r then svcAuth op (svcBegin op s)
    else match act (svcBegin op s) with
      | some s => svcAnswer op 0 [] (ownerAccept r s)
      | none => svcAnswer op 3 [] (logEvent 0x24 8 [op, 3] (svcBegin op s)) :=
  serve_free _ (svcServed_of_up hup op) (svcBusy_of_done hb)

theorem serveOwner_misframed (hup : isUp s = true) (hb : s.svc.doneAt ≤ s.now) (hf : shape = false) :
    serveOwner op shape act r s = svcAnswer op 1 [] (svcBegin op s) := by
  rw [serveOwner_free hup hb, hf]
  rfl

theorem serveOwner_unsigned (hup : isUp s = true) (hb : s.svc.doneAt ≤ s.now) (ho : ownerSigned s op r = false) :
    serveOwner op shape act r s = svcAnswer op 1 [] (svcBegin op s) ∨
      serveOwner op shape act r s = svcAnswer op 2 [] (logEvent 0x24 8 [op, 2] (svcBegin op s)) := by
  rw [serveOwner_free hup hb, ho]
  cases shape
  · exact .inl rfl
  · exact .inr rfl

/-- An accepted request takes effect, stores its NONCE and is answered OK. -/
theorem serveOwner_ok {t : State} (hup : isUp s = true) (hb : s.svc.doneAt ≤ s.now) (hf : shape = true)
    (ho : ownerSigned s op r = true) (ht : act (svcBegin op s) = some t) :
    serveOwner op shape act r s = svcAnswer op 0 [] (ownerAccept r t) := by
  simp only [serveOwner_free hup hb, hf, ho, ht, Bool.not_true, Bool.false_eq_true, if_false]

theorem serveOwner_refused (hup : isUp s = true) (hb : s.svc.doneAt ≤ s.now) (hf : shape = true)
    (ho : ownerSigned s op r = true) (ht : act (svcBegin op s) = none) :
    serveOwner op shape act r s = svcAnswer op 3 [] (logEvent 0x24 8 [op, 3] (svcBegin op s)) := by
  simp only [serveOwner_free hup hb, hf, ho, ht, Bool.not_true, Bool.false_eq_true, if_false]

theorem framedN_of_length {n sig : Nat} (hf : framed r sig = true) (hn : r.body.length = n) :
    framedN r n sig = true := by
  rw [framedN, hf, hn, beq_self_eq_true, Bool.and_self]

theorem framed_of_framedN {n sig : Nat} (h : framedN r n sig = true) : framed r sig = true :=
  (Bool.and_eq_true_iff.1 h).1

end

section
variable {i : Instr} {op : Nat} {shape : Bool} {act : State → Option State} {r : SvcReq} {s : State}
  (hexec : exec i s = .next (serveOwner op shape act r s)) (hup : isUp s = true) (hb : s.svc.doneAt ≤ s.now)
  (hf : shape = true) (ho : ownerSigned s op r = true)
include hexec hup hb hf ho

theorem exec_accepted {t : State} (ht : act (svcBegin op s) = some t) :
    exec i s = .next (svcAnswer op 0 [] (ownerAccept r t)) := by
  rw [hexec, serveOwner_ok hup hb hf ho ht]

theorem exec_refused (ht : act (svcBegin op s) = none) :
    exec i s = .next (svcAnswer op 3 [] (logEvent 0x24 8 [op, 3] (svcBegin op s))) := by
  rw [hexec, serveOwner_refused hup hb hf ho ht]

end

/-- The owner's settings, by their codes. -/
def settingOps (r : SvcReq) : List (Nat × Instr) :=
  [(0x10, .setGlobalTimeout r), (0x11, .setCarafeCrypt r), (0x12, .setKwPolicy r), (0x13, .setEthAddr r),
    (0x14, .setJobKey r), (0x15, .installCert r), (0x16, .stageTable r), (0x17, .commitTable r)]

/-- Each setting is served as an operation that the owner signs. -/
theorem exec_setting {r : SvcReq} (s : State) {p : Nat × Instr} (hp : p ∈ settingOps r) : ∃ shape act,
    exec p.2 s = .next (serveOwner p.1 shape act r s) ∧ (shape = true → framed r 64 = true) := by
  simp only [settingOps, List.mem_cons, List.not_mem_nil, or_false] at hp
  rcases hp with rfl | rfl | rfl | rfl | rfl | rfl | rfl | rfl
  · exact ⟨_, _, rfl, fun h => framed_of_framedN (Bool.and_eq_true_iff.1 h).1⟩
  · exact ⟨_, _, rfl, framed_of_framedN⟩
  · exact ⟨_, _, rfl, framed_of_framedN⟩
  · exact ⟨_, _, rfl, fun h => framed_of_framedN (Bool.and_eq_true_iff.1 h).1⟩
  · exact ⟨_, _, rfl, fun h => framed_of_framedN (Bool.and_eq_true_iff.1 h).1⟩
  · exact ⟨_, _, rfl, framed_of_framedN⟩
  · exact ⟨_, _, rfl, fun h => (Bool.and_eq_true_iff.1 h).1⟩
  · exact ⟨_, _, rfl, framed_of_framedN⟩

theorem exec_getStatus {r : SvcReq} {s : State} (hs : svcServed s 1 = true) (hb : svcBusy s = false)
    (hf : framedN r 0 0 = true) : exec (.getStatus r) s = .next (svcAnswer 1 0
      (Config.statusBody [lifeState s, fwRunningWord s, fwLifeWord s, s.now - s.boot.t0]) (svcBegin 1 s)) := by
  refine congrArg _ ((serve_free _ hs hb).trans ?_)
  rw [hf]
  rfl

/-- The address that SET_ETH_ADDR's body gives. -/
def newAddr (b : List Byte) : EthAddr :=
  { mac := if leAt b 4 6 = 0 then none else some (BitVec.ofNat 48 (leAt b 4 6)), ip4 := BitVec.ofNat 32 (leAt b 12 4)
    ip6 := BitVec.ofNat 128 (leAt b 16 16), jobPort := BitVec.ofNat 16 (leAt b 32 2) }

/-- Settles O52: the answers that all settings share, then each setting by its effect. -/
theorem ownerSettings : Obligations.OwnerSettings := by
  unfold Obligations.OwnerSettings
  refine ⟨fun r s hup => ?_,
    fun r op s => ⟨fun hs hb hf => ⟨_, exec_getStatus hs hb hf⟩, fun hs hb => ?_, fun hs hb hk => ?_⟩,
    svcAnswer_spec⟩
  · intro ops during took b
    refine ⟨fun p hp hb => ?_, fun p hp hb hf => ?_, fun p hp hb ho => ?_, fun hb hf => ⟨fun hn hlo hhi ho => ?_,
      fun hn ho => ?_, fun hn ho => ?_, fun hn hp ho => ?_, fun hn hp ho hw hid k hk => ?_, fun hn hp ho hw => ?_,
      fun k hn ho hk hser hsig => ?_, fun hlo hhi hfit ho => ?_, fun hn ho => ⟨fun hsum => ?_, fun hsum => ?_⟩⟩⟩
    · obtain ⟨shape, act, hexec, -⟩ := exec_setting s hp
      rw [hexec, serveOwner_busy hup hb]
    · obtain ⟨shape, act, hexec, hshape⟩ := exec_setting s hp
      have hsh : shape = false := by
        by_contra hne
        exact Bool.noConfusion (hf.symm.trans (hshape (Bool.eq_true_of_not_eq_false hne)))
      rw [hexec, serveOwner_misframed hup hb hsh]
      rfl
    · obtain ⟨shape, act, hexec, -⟩ := exec_setting s hp
      rw [hexec]
      exact (serveOwner_unsigned hup hb ho).imp (congrArg _) (congrArg _)
    · have hshape : (framedN r 4 64 && decide (1 ≤ leAt b 0 4 ∧ leAt b 0 4 ≤ 3600000)) = true := by
        rw [framedN_of_length hf hn, decide_eq_true ⟨hlo, hhi⟩, Bool.and_self]
      exact (exec_accepted (show exec (.setGlobalTimeout r) s = .next (serveOwner 0x10 _ _ r s) from rfl)
        hup hb hshape ho rfl).trans rfl
    · exact (exec_accepted (show exec (.setCarafeCrypt r) s = .next (serveOwner 0x11 _ _ r s) from rfl)
        hup hb (framedN_of_length hf hn) ho rfl).trans rfl
    · exact (exec_accepted (show exec (.setKwPolicy r) s = .next (serveOwner 0x12 _ _ r s) from rfl)
        hup hb (framedN_of_length hf hn) ho rfl).trans rfl
    · have hshape : (framedN r 36 64 && decide (leAt b 0 4 < 2)) = true := by
        rw [framedN_of_length hf hn, decide_eq_true hp, Bool.and_self]
      exact ⟨newAddr b, (exec_accepted (show exec (.setEthAddr r) s = .next (serveOwner 0x13 _ _ r s) from rfl)
        hup hb hshape ho rfl).trans rfl, rfl, rfl, rfl, rfl⟩
    · have hshape : (framedN r 128 64 && decide (leAt b 0 4 < 2)) = true := by
        rw [framedN_of_length hf hn, decide_eq_true hp, Bool.and_self]
      have hk' : Config.unwrapJobKey (svcBegin 0x14 s).fuse.serial.toNat (r.body.drop 4) = some k := hk
      have hok : ((svcBegin 0x14 s).mem.wipeFailed || !(svcBegin 0x14 s).fuse.identity) = false := by
        simp only [svcBegin, hw, hid, Bool.not_true, Bool.or_self]
      refine (exec_accepted (t := { svcBegin 0x14 s with
        flash := { s.flash with jobKey := s.flash.jobKey.set (leAt b 0 4) (some k) } })
        (show exec (.setJobKey r) s = .next (serveOwner 0x14 _ _ r s) from rfl) hup hb hshape ho ?_).trans rfl
      simp only [hok, hk', Bool.false_eq_true, if_false]
      rfl
    · have hshape : (framedN r 128 64 && decide (leAt b 0 4 < 2)) = true := by
        rw [framedN_of_length hf hn, decide_eq_true hp, Bool.and_self]
      refine exec_refused (show exec (.setJobKey r) s = .next (serveOwner 0x14 _ _ r s) from rfl) hup hb hshape ho ?_
      simp only [svcBegin, hw, Bool.true_or, if_true]
    · have hk' : (svcBegin 0x15 s).flash.owner = some k := hk
      refine (exec_accepted (t := { svcBegin 0x15 s with
        flash := { s.flash with cert := some ⟨s.fuse.serial, BitVec.ofNat 128 (leAt b 8 16), b.drop 24⟩ } })
        (show exec (.installCert r) s = .next (serveOwner 0x15 _ _ r s) from rfl) hup hb (framedN_of_length hf hn) ho
        ?_).trans rfl
      dsimp only
      split
      next k' hfound =>
        obtain rfl : k = k' := Option.some.inj (hk'.symm.trans hfound)
        exact if_pos ⟨hser, hsig⟩
      next hfound => exact absurd (hk'.symm.trans hfound) (Option.some_ne_none k)
    · have hlen : (b.drop 4).length ≤ 4096 ∧ leAt b 0 4 + (b.drop 4).length ≤ 65536 := by
        rw [List.length_drop]
        omega
      have hshape : (framed r 64 && decide (4 ≤ b.length ∧ (b.drop 4).length ≤ 4096 ∧
          leAt b 0 4 + (b.drop 4).length ≤ 65536)) = true := by
        rw [hf, decide_eq_true ⟨hlo, hlen⟩, Bool.and_self]
      rw [← List.length_drop]
      exact (exec_accepted (show exec (.stageTable r) s = .next (serveOwner 0x16 _ _ r s) from rfl)
        hup hb hshape ho rfl).trans rfl
    · exact (exec_accepted (show exec (.commitTable r) s = .next (serveOwner 0x17 _ _ r s) from rfl)
        hup hb (framedN_of_length hf hn) ho (if_pos hsum)).trans rfl
    · exact exec_refused (show exec (.commitTable r) s = .next (serveOwner 0x17 _ _ r s) from rfl)
        hup hb (framedN_of_length hf hn) ho (if_neg hsum)
  · exact congrArg _ (serve_busy _ hs hb)
  · have hexec : exec (.unknownOp op r) s = .next (serve op.toNat (svcAnswer op.toNat 5 []) s) := by
      simp only [exec, execUnknownOp, hk, Bool.false_eq_true, if_false]
    rw [hexec, serve_free _ hs hb]

end Sys2Proof.Machine
end

section
/-! PROOFS. Operations on the part's life and firmware: ownership, decommissioning and the owner lock (O53), the update of
an image and the Blotter's last reader (O54). -/

namespace Sys2Proof

/-! ## Records of one length, one after the other -/

theorem length_flatten_of_length {m : Nat} {l : List (List Byte)} (hl : ∀ x ∈ l, x.length = m) :
    l.flatten.length = m * l.length := by
  induction l with
  | nil => rfl
  | cons x l ih =>
    rw [List.flatten_cons, List.length_append, hl x List.mem_cons_self, ih fun y hy => hl y (List.mem_cons_of_mem x hy),
      List.length_cons, Nat.mul_add, Nat.mul_one, Nat.add_comm]

theorem slice_flatten {m : Nat} {l : List (List Byte)} (hl : ∀ x ∈ l, x.length = m) {i : Nat} (hi : i < l.length) :
    slice (m * i) m l.flatten = l[i] := by
  induction l generalizing i with
  | nil => exact absurd hi (Nat.not_lt_zero i)
  | cons x l ih =>
    have hx : x.length = m := hl x List.mem_cons_self
    rw [List.flatten_cons]
    cases i with
    | zero =>
      rw [Nat.mul_zero, slice_append_left _ (by omega), ← hx, slice_self]
      rfl
    | succ i =>
      have hoff : m * (i + 1) - x.length = m * i := by rw [hx, Nat.mul_add, Nat.mul_one, Nat.add_sub_cancel]
      rw [slice_append_right _ _ (by rw [hx]; exact Nat.le_mul_of_pos_right m (Nat.succ_pos i)), hoff,
        ih (fun y hy => hl y (List.mem_cons_of_mem x hy)) (Nat.lt_of_succ_lt_succ hi)]
      rfl

end Sys2Proof

namespace Sys2Proof.Machine

/-! ## An operation of R504: form, signature, reasons, effect -/

section
variable {op : Nat} {auth : Bool} {own : State → Option Nat} {act : State → State} {s : State}

theorem serveLife_unsigned (hs : svcServed s op = true) (hb : svcBusy s = false) :
    serveLife op true false own act s = svcAnswer op 2 [] (logEvent 0x24 8 [op, 2] (svcBegin op s)) :=
  serve_free _ hs hb

theorem serveLife_judged (hs : svcServed s op = true) (hb : svcBusy s = false) : serveLife op true true own act s =
    match (commonReason s op).or (own (svcBegin op s)) with
    | some reason => svcRefuse op reason (svcBegin op s)
    | none => act (svcBegin op s) :=
  serve_free _ hs hb

/-- Refused for the first of the reasons that hold. -/
theorem serveLife_refused {n : Nat} (hs : svcServed s op = true) (hb : svcBusy s = false)
    (h : (commonReason s op).or (own (svcBegin op s)) = some n) :
    serveLife op true true own act s = svcRefuse op n (svcBegin op s) := by
  rw [serveLife_judged hs hb, h]

theorem serveLife_done (hs : svcServed s op = true) (hb : svcBusy s = false) (hc : commonReason s op = none)
    (ho : own (svcBegin op s) = none) : serveLife op true true own act s = act (svcBegin op s) := by
  rw [serveLife_judged hs hb, hc, ho]
  rfl

end

@[simp] theorem svcAnswer_flash (op st : Nat) (body : List Byte) (s : State) : (svcAnswer op st body s).flash = s.flash := by
  rw [svcAnswer_onlySvc]

@[simp] theorem svcAnswer_fuse (op st : Nat) (body : List Byte) (s : State) : (svcAnswer op st body s).fuse = s.fuse := by
  rw [svcAnswer_onlySvc]

@[simp] theorem svcAnswer_boot (op st : Nat) (body : List Byte) (s : State) : (svcAnswer op st body s).boot = s.boot := by
  rw [svcAnswer_onlySvc]

/-- An accepted operation stores its NONCE and answers OK; nothing else of flash, fuses or boot state differs. -/
theorem ownerOk_spec (op : Nat) (r : SvcReq) (s : State) :
    (ownerOk op r s).flash = { s.flash with nonce := r.nonce } ∧ (ownerOk op r s).fuse = s.fuse ∧
      (ownerOk op r s).boot = s.boot ∧ (ownerOk op r s).sent = s.sent ++ [.svc op 0 []] := by
  rw [ownerOk, svcAnswer_onlySvc]
  exact ⟨rfl, rfl, rfl, rfl⟩

theorem slotOf_ownerOk (op : Nat) (r : SvcReq) (s : State) (k : Nat) : slotOf (ownerOk op r s) k = slotOf s k := by
  rw [slotOf, (ownerOk_spec op r s).1]
  rfl

/-! ## The reasons of R505 -/

/-- The reasons against an operation that ends an ownership. -/
def endReason (s : State) : Option Nat :=
  if lifeState s ≠ 1 then some 1 else if s.flash.lock = true then some 2
  else if s.boot.trial = true then some 3 else if s.pwr.holdup = true then some 4
  else if s.pwr.lowv = true then some 5 else if runActive s = true then some 6
  else if captureLive s = true then some 7 else none

theorem commonReason_end {op : Nat} (h : op = 0x41 ∨ op = 0x42) (s : State) : commonReason s op = endReason s := by
  have hupd : isUpdateOp op = false ∧ endsOwnership op = true ∧ op ≠ 0x40 := by
    rcases h with rfl | rfl <;> exact ⟨rfl, rfl, by decide⟩
  obtain ⟨hu, he, hne⟩ := hupd
  simp only [commonReason, endReason, lifeAllows, hu, he, if_neg hne, Bool.false_and, Bool.false_or, Bool.or_false,
    Bool.and_true, Bool.not_eq_true', beq_eq_false_iff_ne]

section
variable {s : State} (hcalm : s.pwr.holdup = false ∧ s.pwr.lowv = false)

theorem commonReason_take_owned (h : lifeState s ≠ 0) : commonReason s 0x40 = some 1 := by
  have hlife : lifeAllows s 0x40 = false := by simp [lifeAllows, h]
  simp only [commonReason, hlife, Bool.not_false, if_true]

include hcalm

theorem commonReason_calm {op : Nat} (hlife : lifeAllows s op = true) (hu : isUpdateOp op = false)
    (he : endsOwnership op = false) : commonReason s op = none := by
  obtain ⟨hh, hl⟩ := hcalm
  simp only [commonReason, hlife, hu, he, hh, hl, Bool.false_and, Bool.or_self, Bool.and_false, Bool.not_true,
    Bool.false_eq_true, if_false]

end

/-! ## A change of life (R503, R506, R507) -/

/-- The change is made, volatile memory is lost, and the part boots again with cause 5. -/
theorem lifeChange_spec (change : State → State) (s : State) : let t := lifeChange change s
    t.boot.phase = .booting ∧ t.boot.cause = 5 ∧ t.flash = (change s).flash ∧ t.fuse = (change s).fuse ∧
      t.mem.carafe = [] ∧ t.host.mem = (change s).host.mem ∧ t.sent = (change s).sent := by
  have hstart (u : State) : ∃ m b, startWipe 2 u = { u with mem := m, bb := b } := by
    have hlog (l : List Nat) : OnlyBb u (logSev 2 0x23 8 l u) := logSev_onlyBb ..
    unfold startWipe
    split
    · exact ⟨_, _, hlog _⟩
    · exact ⟨_, _, rfl⟩
  have hend (u : State) : ∃ m b, wipeEnds false u = { u with mem := m, bb := b } := by
    have hlog (c : Nat) (l : List Nat) (v : State) : OnlyBb v (logSev c 0x23 8 l v) := logSev_onlyBb ..
    unfold wipeEnds
    exact ⟨_, _, hlog ..⟩
  have hreset (u : State) : (selfReset 5 u).sent = u.sent ∧ (selfReset 5 u).host.mem = u.host.mem ∧
      (selfReset 5 u).mem.carafe = [] := by
    have hflush := blotterFlush_onlyBb (2 * u.bb.queue.length + 2) u
    unfold selfReset
    rw [hflush]
    exact ⟨rfl, rfl, rfl⟩
  obtain ⟨m, b, h1⟩ := hstart (change s)
  obtain ⟨m', b', h2⟩ := hend (startWipe 2 (change s))
  have hlog (l : List Nat) (u : State) : OnlyBb u (logEvent 0x20 0xFF l u) := logEvent_onlyBb ..
  unfold lifeChange
  extract_lets c u
  obtain ⟨hphase, hcause, -, hfuse, hflash⟩ :=
    selfReset_spec 5 (logEvent 0x20 0xFF [lifeState s, lifeState u] u)
  obtain ⟨hsent, hmem, hcarafe⟩ := hreset (logEvent 0x20 0xFF [lifeState s, lifeState u] u)
  have hu : u = { change s with mem := m', bb := b' } := by
    simp only [u, c, h2, h1]
  refine ⟨hphase, hcause, hflash.trans ?_, hfuse.trans ?_, hcarafe, hmem.trans ?_, hsent.trans ?_⟩
  · rw [hlog, hu]
  · rw [hlog, hu]
  · rw [hlog, hu]
  · rw [hlog, hu]

/-! ## The rows -/

section
variable {i : Instr} {op : Nat} {shape auth : Bool} {own : State → Option Nat} {act : State → State} {s : State}
  (hexec : exec i s = .next (serveLife op shape auth own act s)) (hs : svcServed s op = true) (hb : svcBusy s = false)
  (hf : shape = true)
include hexec hs hb hf

theorem exec_life_unsigned (ha : auth = false) :
    exec i s = .next (svcAnswer op 2 [] (logEvent 0x24 8 [op, 2] (svcBegin op s))) := by
  rw [hexec, hf, ha, serveLife_unsigned hs hb]

theorem exec_life_refused (ha : auth = true) {n : Nat} (h : (commonReason s op).or (own (svcBegin op s)) = some n) :
    exec i s = .next (svcRefuse op n (svcBegin op s)) := by
  rw [hexec, hf, ha, serveLife_refused hs hb h]

theorem exec_life_done (ha : auth = true) (hc : commonReason s op = none) (ho : own (svcBegin op s) = none) :
    exec i s = .next (act (svcBegin op s)) := by
  rw [hexec, hf, ha, serveLife_done hs hb hc ho]

end

/-- The lock set or cleared by an accepted request. -/
theorem ownerLock_spec (op : Nat) (on : Bool) (r : SvcReq) (s : State) :
    (ownerLock on (ownerOk op r s)).flash = { s.flash with lock := on, nonce := r.nonce } ∧
      (ownerLock on (ownerOk op r s)).boot = s.boot ∧
      (ownerLock on (ownerOk op r s)).sent = s.sent ++ [.svc op 0 []] := by
  obtain ⟨hflash, -, hboot, hsent⟩ := ownerOk_spec op r s
  have hlog (l : List Nat) (u : State) : OnlyBb u (logEvent 0x21 0xFF l u) := logEvent_onlyBb ..
  unfold ownerLock
  rw [hlog]
  refine ⟨?_, hboot, hsent⟩
  dsimp only
  rw [hflash]

/-- Settles O53: each operation refused for a reason of R505, or its change of life followed by a reset. -/
theorem lifecycleOperations : Obligations.LifecycleOperations := by
  unfold Obligations.LifecycleOperations
  intro r s hup hb calm stopReason refused
  have hs := svcServed_of_up hup
  have htake : exec (.takeOwnership r) s = .next (serveLife 0x40 _ _ _ _ s) := rfl
  have hrelease : exec (.releaseOwnership r) s = .next (serveLife 0x41 _ _ _ _ s) := rfl
  have hdecom : exec (.decommission r) s = .next (serveLife 0x42 _ _ _ _ s) := rfl
  have hlock : exec (.setOwnerLock r) s = .next (serveLife 0x43 _ _ _ _ s) := rfl
  have hunlock : exec (.clearOwnerLock r) s = .next (serveLife 0x44 _ _ _ _ s) := rfl
  refine ⟨fun hf hsig => ⟨fun hlife => ?_, fun hlife hcalm => ?_⟩, fun hf hsig => ?_,
    fun hf ho => ⟨fun n hn => ?_, fun hn => ?_⟩, fun hf hser ho => ⟨fun n hn => ?_, fun hn => ?_⟩,
    fun hf hlife hcalm => ⟨fun ho => ?_, fun ho => ?_⟩⟩
  · exact exec_life_refused htake (hs _) hb hf hsig (by rw [commonReason_take_owned hlife]; rfl)
  · have hallow : lifeAllows s 0x40 = true := by simp [lifeAllows, hlife]
    refine ⟨_, exec_life_done htake (hs _) hb hf hsig (commonReason_calm hcalm hallow rfl rfl) rfl, ?_⟩
    obtain ⟨hphase, hcause, hflash, hfuse, hcarafe, hmem, hsent⟩ := lifeChange_spec (fun s : State => { s with
      flash := { s.flash with owner := some (BitVec.ofNat 512 (leNat r.body)), nonce := r.nonce } })
      (svcAnswer 0x40 0 [] (svcBegin 0x40 s))
    exact ⟨hphase, hcause, hflash, hfuse, hcarafe, hmem, hsent⟩
  · exact exec_life_unsigned htake (hs _) hb hf hsig
  · have hreason : commonReason s 0x41 = some n := (commonReason_end (.inl rfl) s).trans hn
    exact exec_life_refused hrelease (hs _) hb hf ho (by rw [hreason]; rfl)
  · refine ⟨_, exec_life_done hrelease (hs _) hb hf ho ((commonReason_end (.inl rfl) s).trans hn) rfl, ?_⟩
    obtain ⟨hphase, hcause, hflash, hfuse, hcarafe, -, -⟩ := lifeChange_spec releaseOwner (ownerOk 0x41 r (svcBegin 0x41 s))
    exact ⟨hphase, hcause, hflash, hfuse, hcarafe⟩
  · have hreason : commonReason s 0x42 = some n := (commonReason_end (.inr rfl) s).trans hn
    have hshape : (framedN r 8 64 && r.body == serialBytes s) = true := by rw [hf, hser, beq_self_eq_true, Bool.and_self]
    exact exec_life_refused hdecom (hs _) hb hshape ho (by rw [hreason]; rfl)
  · have hshape : (framedN r 8 64 && r.body == serialBytes s) = true := by rw [hf, hser, beq_self_eq_true, Bool.and_self]
    refine ⟨_, exec_life_done hdecom (hs _) hb hshape ho ((commonReason_end (.inr rfl) s).trans hn) rfl, ?_⟩
    obtain ⟨hphase, hcause, hflash, hfuse, hcarafe, -, -⟩ := lifeChange_spec (fun s : State => { s with
      fuse := { s.fuse with decommissioned := true, identity := false } }) (ownerOk 0x42 r (svcBegin 0x42 s))
    exact ⟨hphase, hcause, hfuse, hflash, hcarafe⟩
  · have hallow : lifeAllows s 0x43 = true := by simp [lifeAllows, hlife]
    exact ⟨_, exec_life_done hlock (hs _) hb hf ho (commonReason_calm hcalm hallow rfl rfl) rfl,
      ownerLock_spec 0x43 true r (svcBegin 0x43 s)⟩
  · have hallow : lifeAllows s 0x44 = true := by simp [lifeAllows, hlife]
    exact ⟨_, exec_life_done hunlock (hs _) hb hf ho (commonReason_calm hcalm hallow rfl rfl) rfl,
      ownerLock_spec 0x44 false r (svcBegin 0x44 s)⟩

/-! ## The update of an image (R508 to R515) -/

section
variable {s : State}

theorem slotIn_isSome {st : SlotState} (h : slotIn s st ≠ none) : (slotIn s st).isSome = true := by
  rwa [Option.isSome_iff_ne_none]

/-- Why BEGIN is refused, after the common reasons. -/
theorem beginReason_open {len : Nat} (h : slotIn s .receiving ≠ none ∨ slotIn s .pending ≠ none) :
    (if (slotIn s .receiving).isSome ∨ (slotIn s .pending).isSome then some 9
      else if len = 0 ∨ 33554432 < len ∨ len % 4096 ≠ 0 then some 0xA else none) = some 9 :=
  if_pos (h.imp slotIn_isSome slotIn_isSome)

theorem beginReason_free {len : Nat} (hr : slotIn s .receiving = none) (hp : slotIn s .pending = none) :
    (if (slotIn s .receiving).isSome ∨ (slotIn s .pending).isSome then some 9
      else if len = 0 ∨ 33554432 < len ∨ len % 4096 ≠ 0 then some 0xA else none) =
    if len = 0 ∨ 33554432 < len ∨ len % 4096 ≠ 0 then some 0xA else none := by
  rw [hr, hp]
  rfl

/-- COMMIT's own reasons for the slot that is RECEIVING, in their order. -/
theorem commitReason_of_slot {i : Nat} (h : slotIn s .receiving = some i) : commitReason s =
    if (slotOf s i).blocks.length < (slotOf s i).length / 4096 then some 0xC
    else if sha256 (imgBytes (slotOf s i) 0 (slotOf s i).length) ≠ (slotOf s i).digest then some 0xD
    else if !imageOk s (slotOf s i) then some 0xE
    else if slotSvn (slotOf s i) < s.fuse.svnMin.toNat then some 0xF
    else none := by
  rw [commitReason, h]

/-- A block stored at its offset. -/
def blockStored (off : Nat) (bs : List Byte) (x : Slot) : Slot :=
  { x with image := Tab.putList 0 x.image off bs, blocks := if off ∈ x.blocks then x.blocks else x.blocks ++ [off] }

theorem mem_blockStored (off : Nat) (bs : List Byte) (x : Slot) : off ∈ (blockStored off bs x).blocks := by
  unfold blockStored
  dsimp only
  split
  · assumption
  · simp

/-- A slot written by an accepted operation, with what is flagged and recorded beside it. -/
theorem slotOf_of_setSlot {i : Nat} {x : Slot} {t : State} (hi : i < 2) (h : t.flash = (setSlot i x s).flash) :
    slotOf t i = x ∧ slotOf t (1 - i) = slotOf s (1 - i) := by
  rw [slotOf_congr h, slotOf_congr h, slotOf_setSlot_same]
  exact ⟨rfl, slotOf_setSlot_sub x s hi⟩

end

theorem svcServed_update {s : State} {op : Nat} (h : svcServed s 0x48 = true) (h1 : 0x48 ≤ op) (h2 : op ≤ 0x4C) :
    svcServed s op = true := by
  have hrange : decide (0x48 ≤ op ∧ op ≤ 0x4C) = true := decide_eq_true ⟨h1, h2⟩
  unfold svcServed at h ⊢
  cases hp : s.boot.phase <;> simp_all

/-- The records that a BB_READ answers with. -/
def bbReadBody (s : State) (first count : Nat) : List (List Byte) :=
  (List.range count).map fun i => leBytes 128 (bbSlot s ((i + first) % 65536)).toNat

theorem exec_bbRead {r : SvcReq} {s : State} (hs : svcServed s 0x50 = true) (hb : svcBusy s = false)
    (hf : framedN r 12 0 = true) (hlo : 1 ≤ leAt r.body 8 4) (hhi : leAt r.body 8 4 ≤ 31)
    (hheld : ∀ i, i < leAt r.body 8 4 → bbHeld s (leAt r.body 0 8 + i) = true) : exec (.bbRead r) s =
      .next (svcAnswer 0x50 0 (bbReadBody s (leAt r.body 0 8) (leAt r.body 8 4)).flatten (svcBegin 0x50 s)) := by
  have hshape : (framedN r 12 0 && decide (1 ≤ leAt r.body 8 4 ∧ leAt r.body 8 4 ≤ 31)) = true := by
    rw [hf, decide_eq_true ⟨hlo, hhi⟩, Bool.and_self]
  have hall : ((List.range (leAt r.body 8 4)).map (· + leAt r.body 0 8)).filter (bbHeld (svcBegin 0x50 s)) =
      (List.range (leAt r.body 8 4)).map (· + leAt r.body 0 8) := by
    rw [List.filter_eq_self]
    intro n hn
    obtain ⟨i, hi, rfl⟩ := List.mem_map.1 hn
    rw [Nat.add_comm]
    exact hheld i (List.mem_range.1 hi)
  refine congrArg _ ((serve_free _ hs hb).trans ?_)
  rw [hshape]
  simp only [hall, List.map_map, Bool.not_true, Bool.false_eq_true, if_false]
  rfl

theorem exec_updateStatus {r : SvcReq} {s : State} (hs : svcServed s 0x4E = true) (hb : svcBusy s = false)
    (hf : framedN r 0 0 = true) : exec (.updateStatus r) s = .next (svcAnswer 0x4E 0
      (leBytes 4 (fwSlotWord s 0) ++ (leBytes 4 (fwSlotWord s 1) ++ ([fwSessionWord s, fwRefusalWord s, fwTrialWord s,
        fwLifeWord s].map (leBytes 4)).flatten)) (svcBegin 0x4E s)) := by
  refine congrArg _ ((serve_free _ hs hb).trans ?_)
  rw [hf]
  rfl

section
variable {r : SvcReq} {s : State} {i : Nat} (hs : svcServed s 0x48 = true) (hb : svcBusy s = false)
include hs hb

/-- A block at an offset within the image is stored there. -/
theorem exec_updateBlock_stores (hf : framedN r 4096 0 = true) (hc : commonReason s 0x49 = none)
    (hi : slotIn s .receiving = some i) (hoff : ¬ (r.nonce.toNat % 4096 ≠ 0 ∨ (slotOf s i).length ≤ r.nonce.toNat)) :
    exec (.updateBlock r) s = .next (svcAnswer 0x49 0 []
      (setSlot i (blockStored r.nonce.toNat r.body (slotOf s i)) (svcBegin 0x49 s))) := by
  have hblock : exec (.updateBlock r) s = .next (serveLife 0x49 _ _ _ _ s) := rfl
  have hin : slotIn (svcBegin 0x49 s) .receiving = some i := hi
  have hdone := exec_life_done hblock (svcServed_update hs (by decide) (by decide)) hb hf rfl hc (by
    rw [hin]
    exact if_neg hoff)
  simp only [hin, Option.getD_some] at hdone
  exact hdone

/-- COMMIT's own reasons, in their order, for the slot that is RECEIVING. -/
theorem exec_updateCommit_refused {n : Nat} (hf : framedN r 0 64 = true) (ho : ownerSigned s 0x4A r = true)
    (hc : commonReason s 0x4A = none) (hn : commitReason s = some n) :
    exec (.updateCommit r) s = .next (svcRefuse 0x4A n (svcBegin 0x4A s)) := by
  have hcommit : exec (.updateCommit r) s = .next (serveLife 0x4A _ _ _ _ s) := rfl
  have hown : commitReason (svcBegin 0x4A s) = some n := hn
  exact exec_life_refused hcommit (svcServed_update hs (by decide) (by decide)) hb hf ho (by
    rw [hc, hown]
    rfl)

/-- An image that passes is PENDING, its slot otherwise as it was. -/
theorem exec_updateCommit_done (hf : framedN r 0 64 = true) (ho : ownerSigned s 0x4A r = true)
    (hc : commonReason s 0x4A = none) (hi : slotIn s .receiving = some i) (hn : commitReason s = none) :
    ∃ t, exec (.updateCommit r) s = .next t ∧ slotOf t i = { slotOf s i with st := .pending } ∧
      slotOf t (1 - i) = slotOf s (1 - i) ∧ t.boot.status = s.boot.status ||| 1 ∧ t.fuse = s.fuse ∧
      t.flash.nonce = r.nonce := by
  have hcommit : exec (.updateCommit r) s = .next (serveLife 0x4A _ _ _ _ s) := rfl
  have hin : slotIn (svcBegin 0x4A s) .receiving = some i := hi
  have hdone := exec_life_done hcommit (svcServed_update hs (by decide) (by decide)) hb hf ho hc hn
  simp only [hin, Option.getD_some] at hdone
  refine ⟨_, hdone, ?_⟩
  generalize hl : [i, _, _, _, _] = l
  obtain ⟨kflash, kfuse, kboot, -⟩ :=
    ownerOk_spec 0x4A r (logEvent 0x12 0xFF l (fwFlag 0 (setSlotState i .pending (svcBegin 0x4A s))))
  obtain ⟨hslot, hother⟩ := slotOf_of_setSlot (s := svcBegin 0x4A s) (x := { slotOf s i with st := .pending })
    (slotIn_some hi).1 (logEvent_flash 0x12 0xFF l (fwFlag 0 (setSlotState i .pending (svcBegin 0x4A s))))
  refine ⟨(slotOf_ownerOk ..).trans hslot, (slotOf_ownerOk ..).trans hother, ?_, kfuse.trans ?_, ?_⟩
  · rw [kboot, (logEvent_onlyBb ..).boot]
    rfl
  · rw [(logEvent_onlyBb ..).fuse]
    rfl
  · exact congrArg Flash.nonce kflash

/-- CANCEL empties the slot that it finds. -/
theorem exec_updateCancel_done (hf : framedN r 0 64 = true) (ho : ownerSigned s 0x4C r = true)
    (hc : commonReason s 0x4C = none) (hi : cancelSlot s = some i) (hlt : i < 2) :
    ∃ t, exec (.updateCancel r) s = .next t ∧ slotOf t i = Slot.init ∧ slotOf t (1 - i) = slotOf s (1 - i) ∧
      t.flash.nonce = r.nonce := by
  have hcancel : exec (.updateCancel r) s = .next (serveLife 0x4C _ _ _ _ s) := rfl
  have hfound : cancelSlot (svcBegin 0x4C s) = some i := hi
  have hdone := exec_life_done hcancel (svcServed_update hs (by decide) (by decide)) hb hf ho hc (by rw [hfound]; rfl)
  simp only [hfound, Option.getD_some] at hdone
  refine ⟨_, hdone, ?_⟩
  obtain ⟨hslot, hother⟩ := slotOf_of_setSlot (s := svcBegin 0x4C s) (x := Slot.init) hlt
    (logEvent_flash 0x13 0xFF [0] (setSlot i Slot.init (svcBegin 0x4C s)))
  obtain ⟨kflash, -⟩ := ownerOk_spec 0x4C r (logEvent 0x13 0xFF [0] (setSlot i Slot.init (svcBegin 0x4C s)))
  exact ⟨(slotOf_ownerOk ..).trans hslot, (slotOf_ownerOk ..).trans hother, congrArg Flash.nonce kflash⟩

end

/-- Settles O54: each operation refused for its own reason, or by the slot that it writes. -/
theorem firmwareUpdate : Obligations.FirmwareUpdate := by
  unfold Obligations.FirmwareUpdate
  refine ⟨fun r s hs hb => ?_, fun r s hup hb hf hlo hhi ho hc => ?_, fun r s => ⟨fun hs hb hf => ?_,
    fun hs hb hf hlo hhi hheld => ?_⟩⟩
  · intro go ok len off
    have hbegin : exec (.updateBegin r) s = .next (serveLife 0x48 _ _ _ _ s) := rfl
    have hblock : exec (.updateBlock r) s = .next (serveLife 0x49 _ _ _ _ s) := rfl
    have hactivate : exec (.updateActivate r) s = .next (serveLife 0x4B _ _ _ _ s) := rfl
    have hcancel : exec (.updateCancel r) s = .next (serveLife 0x4C _ _ _ _ s) := rfl
    have hserved (op : Nat) (h1 : 0x48 ≤ op) (h2 : op ≤ 0x4C) := svcServed_update hs h1 h2
    have hno {op n : Nat} {o : Option Nat} (hc : commonReason s op = none) (ho : o = some n) :
        (commonReason s op).or o = some n := by
      rw [hc, ho]
      rfl
    have hin (op : Nat) (st : SlotState) : slotIn (svcBegin op s) st = slotIn s st := rfl
    refine ⟨fun hf ⟨ho, hc⟩ => ⟨fun hr hp h0 hmax hmod => ?_, fun hopen => ?_, fun hr hp hlen => ?_⟩,
      fun hf hc => ⟨fun hr => ?_, fun i hi => ⟨fun hal hlt => ?_, fun hbad => ?_⟩⟩,
      fun hf ⟨ho, hc⟩ => ⟨fun hr => exec_updateCommit_refused hs hb hf ho hc (by rw [commitReason, hr]), fun i hi => ?_⟩,
      fun hf ⟨ho, hc⟩ => ⟨fun hp => ?_, fun hp => ?_⟩, fun hf ⟨ho, hc⟩ => ⟨fun hr hp => ?_, fun i hi => ?_⟩⟩
    · have hlen : ¬ (len = 0 ∨ 33554432 < len ∨ len % 4096 ≠ 0) := by omega
      exact (exec_life_done hbegin hs hb hf ho hc ((beginReason_free hr hp).trans (if_neg hlen))).trans rfl
    · exact exec_life_refused hbegin hs hb hf ho (hno hc (beginReason_open hopen))
    · exact exec_life_refused hbegin hs hb hf ho (hno hc ((beginReason_free hr hp).trans (if_pos hlen)))
    · exact exec_life_refused hblock (hserved _ (by decide) (by decide)) hb hf rfl (hno hc (by rw [hin, hr]))
    · obtain ⟨hlt2, hst⟩ := slotIn_some hi
      obtain ⟨hslot, hother⟩ := slotOf_of_setSlot (s := svcBegin 0x49 s) (x := blockStored off r.body (slotOf s i)) hlt2
        (svcAnswer_flash 0x49 0 [] _)
      have hoff : ¬ (off % 4096 ≠ 0 ∨ (slotOf s i).length ≤ off) := by omega
      refine ⟨_, exec_updateBlock_stores hs hb hf hc hi hoff, ?_⟩
      rw [hslot]
      exact ⟨rfl, mem_blockStored .., hst, hother⟩
    · exact exec_life_refused hblock (hserved _ (by decide) (by decide)) hb hf rfl (hno hc (by
        rw [hin, hi]
        exact if_pos hbad))
    · intro x whole same
      have hreason : commitReason s = _ := commitReason_of_slot hi
      refine ⟨fun hw => exec_updateCommit_refused hs hb hf ho hc ?_,
        fun hw hsum => exec_updateCommit_refused hs hb hf ho hc ?_,
        fun hw hsum him => exec_updateCommit_refused hs hb hf ho hc ?_,
        fun hw hsum him hlow => exec_updateCommit_refused hs hb hf ho hc ?_,
        fun hw hsum him hhigh => exec_updateCommit_done hs hb hf ho hc hi ?_⟩
      · exact hreason.trans (if_pos (Nat.not_le.1 hw))
      · exact (hreason.trans (if_neg (Nat.not_lt.2 hw))).trans (if_pos hsum)
      · rw [hreason, if_neg (Nat.not_lt.2 hw), if_neg (not_not_intro hsum)]
        exact if_pos (by rw [him]; rfl)
      · rw [hreason, if_neg (Nat.not_lt.2 hw), if_neg (not_not_intro hsum), if_neg (by rw [him]; decide)]
        exact if_pos hlow
      · rw [hreason, if_neg (Nat.not_lt.2 hw), if_neg (not_not_intro hsum), if_neg (by rw [him]; decide)]
        exact if_neg (Nat.not_lt.2 hhigh)
    · exact exec_life_refused hactivate (hserved _ (by decide) (by decide)) hb hf ho (hno hc (by rw [hin, hp]; rfl))
    · have hown : (if (slotIn (svcBegin 0x4B s) .pending).isSome then none else some 8) = none :=
        if_pos (slotIn_isSome hp)
      refine ⟨_, exec_life_done hactivate (hserved _ (by decide) (by decide)) hb hf ho hc hown, ?_⟩
      obtain ⟨hphase, hcause, -, hfuse, hflash⟩ := selfReset_spec 2 (ownerOk 0x4B r (svcBegin 0x4B s))
      obtain ⟨kflash, kfuse, -⟩ := ownerOk_spec 0x4B r (svcBegin 0x4B s)
      exact ⟨hphase, hcause, hflash.trans kflash, hfuse.trans kfuse⟩
    · exact exec_life_refused hcancel (hserved _ (by decide) (by decide)) hb hf ho (hno hc (by
        rw [cancelSlot, hin, hin, hr, hp]
        rfl))
    · rcases hi with hi | ⟨hr, hp⟩
      · exact exec_updateCancel_done hs hb hf ho hc (by rw [cancelSlot, hi]; rfl) (slotIn_some hi).1
      · exact exec_updateCancel_done hs hb hf ho hc (by rw [cancelSlot, hr, hp]; rfl) (slotIn_some hp).1
  · have hwindow : exec (.setConfirmWindow r) s = .next (serveLife 0x4D _ _ _ _ s) := rfl
    have hshape : (framedN r 4 64 && decide (10 ≤ leAt r.body 0 4 ∧ leAt r.body 0 4 ≤ 3600)) = true := by
      rw [hf, decide_eq_true ⟨hlo, hhi⟩, Bool.and_self]
    refine ⟨_, exec_life_done hwindow (svcServed_of_up hup _) hb hshape ho hc rfl, ?_⟩
    obtain ⟨kflash, -, kboot, -⟩ := ownerOk_spec 0x4D r { svcBegin 0x4D s with
      flash := { s.flash with confirmS := BitVec.ofNat 12 (leAt r.body 0 4) } }
    exact ⟨kflash, kboot⟩
  · refine ⟨_, exec_updateStatus hs hb hf, ?_, ?_⟩
    · rw [leAt, slice_append_left _ (by simp), slice_leBytes, leNat_leBytes]
      rfl
    · rw [leAt, slice_append_right _ _ (by simp), leBytes_length]
      rw [slice_append_left _ (by simp), slice_leBytes, leNat_leBytes]
      rfl
  · have hlen : ∀ x ∈ bbReadBody s (leAt r.body 0 8) (leAt r.body 8 4), x.length = 128 := by
      intro x hx
      obtain ⟨i, -, rfl⟩ := List.mem_map.1 hx
      exact leBytes_length ..
    have hcount : (bbReadBody s (leAt r.body 0 8) (leAt r.body 8 4)).length = leAt r.body 8 4 := by
      simp [bbReadBody]
    refine ⟨_, exec_bbRead hs hb hf hlo hhi hheld, by rw [length_flatten_of_length hlen, hcount], fun i hi => ?_⟩
    rw [slice_flatten hlen (by rw [hcount]; exact hi)]
    simp [bbReadBody, Nat.add_comm]

end Sys2Proof.Machine
end

section
/-! PROOFS. The Ethernet ports' frames (O44) and the records of a stream (O45). -/

namespace Sys2Proof.Machine

/-! ## Frames of a port -/

section
variable {p : Fin 2} {s : State} (hup : portUp s p.val = true)
include hup

theorem exec_badFcsFrame (cw : Nat) : exec (.badFcsFrame p cw) s =
    .next (updPrt p.val (fun x => { x with fcs := satInc x.fcs, fecUncorr := satAdd x.fecUncorr cw }) s) := by
  simp only [exec, execBadFcsFrame, hup, if_true]

theorem exec_pauseFrame : exec (.pauseFrame p) s =
    .next (ingFlag 1 (updPrt p.val (fun x => { x with pause := satInc x.pause }) (rxFrame p.val s))) := by
  simp only [exec, execPauseFrame, hup, if_true]

/-- A request whose tags are not those of R452 is dropped; another is answered where it is for the port's own address. -/
theorem addrReply_dropped (src : NetAddr) {ts : List Word} (v6 own : Bool) (ht : tagsOk ts = false) :
    addrReply p.val src ts v6 own s = dropIp p.val (rxFrame p.val s) := by
  simp only [addrReply, hup, ht, Bool.not_true, Bool.not_false, Bool.false_eq_true, if_false, if_true]

theorem addrReply_taken (src : NetAddr) {ts : List Word} (v6 own : Bool) (ht : tagsOk ts = true) :
    addrReply p.val src ts v6 own s = if own = true then
      emit (.arpReply p.val src ts v6 (macOf s p.val)) (rxFrame p.val s) else rxFrame p.val s := by
  simp only [addrReply, hup, ht, Bool.not_true, Bool.false_eq_true, if_false]
  rfl

end

/-- A frame counted in RX and once more changes its own port alone. -/
theorem prt_counted (p : Nat) (f : PortSt → PortSt) (s : State) :
    prt (updPrt p f (rxFrame p s)) p = f { prt s p with rx := (prt s p).rx + 1 } ∧
      ∀ q, q ≠ p → prt (updPrt p f (rxFrame p s)) q = prt s q := by
  refine ⟨?_, fun q hq => ?_⟩
  · rw [prt_updPrt, if_pos rfl, rxFrame, prt_updPrt, if_pos rfl]
  · rw [prt_updPrt, if_neg hq, rxFrame, prt_updPrt, if_neg hq]

theorem prt_ingFlag (b : Nat) (s : State) (q : Nat) : prt (ingFlag b s) q = prt s q := rfl

/-- Another table of ports and one flag of the status: nothing else of the state is another. -/
theorem ingFlag_ports {s t : State} (b : Nat) (h : t = { s with ing := { s.ing with ports := t.ing.ports } }) :
    ingFlag b t = { s with
      ing := { s.ing with status := (ingFlag b t).ing.status, ports := (ingFlag b t).ing.ports } } := by
  rw [h]
  rfl

/-- A frame counted in RX and once more changes the table of ports alone. -/
theorem counted_eq (p : Nat) (f : PortSt → PortSt) (s : State) : updPrt p f (rxFrame p s) =
    { s with ing := { s.ing with ports := (updPrt p f (rxFrame p s)).ing.ports } } := by
  unfold updPrt
  unfold rxFrame
  unfold updPrt
  rfl

/-- A request names the port's own address. -/
theorem own_iff {w : Nat} (a b : BitVec w) : (a == b && a != 0) = true ↔ a = b ∧ a ≠ 0 := by
  rw [Bool.and_eq_true_iff, beq_iff_eq, bne_iff_ne]

/-- Does something listen for a datagram that R453 accepts? -/
def listened (s : State) (d : Datagram) : Bool :=
  dgIpOk d && ((streamFor s d.port.val d.dst).isSome || d.dst == jobPortOf s d.port.val)

theorem listened_iff (s : State) (d : Datagram) : listened s d = true ↔
    dgIpOk d = true ∧ ((streamFor s d.port.val d.dst).isSome = true ∨ d.dst = jobPortOf s d.port.val) := by
  rw [listened, Bool.and_eq_true_iff, Bool.or_eq_true_iff, beq_iff_eq]

theorem not_listened {s : State} {d : Datagram}
    (h : dgIpOk d = false ∨ (streamFor s d.port.val d.dst = none ∧ d.dst ≠ jobPortOf s d.port.val)) :
    listened s d = false := by
  rcases h with h | ⟨hnone, hjob⟩
  · rw [listened, h, Bool.false_and]
  · rw [listened, hnone, beq_false_of_ne hjob, Option.isSome_none, Bool.or_self, Bool.and_false]

theorem exec_droppedDatagram {d : Datagram} {s : State} (hup : portUp s d.port.val = true) (hfit : dgFits d = true)
    (hno : listened s d = false) : exec (.droppedDatagram d) s = .next (dropIp d.port.val (rxFrame d.port.val s)) := by
  rw [listened] at hno
  simp only [exec, execDroppedDatagram, hup, hfit, hno, Bool.not_false, Bool.and_self, if_true]

theorem exec_droppedDatagram_other {d : Datagram} {s : State} (h : dgFits d = false ∨ listened s d = true) :
    exec (.droppedDatagram d) s = .next s := by
  have hno : (portUp s d.port.val && dgFits d && !listened s d) = false := by
    rcases h with h | h
    · rw [h, Bool.and_false, Bool.false_and]
    · rw [h, Bool.not_true, Bool.and_false]
  rw [listened] at hno
  simp only [exec, execDroppedDatagram, hno, Bool.false_eq_true, if_false]

/-- Settles O44: each frame by what it counts, and a request by whether its tags and its address are the port's. -/
theorem ethernetFrames : Obligations.EthernetFrames := by
  unfold Obligations.EthernetFrames
  intro p src ts a4 a6 d cw s hup hport x port
  subst hport
  refine ⟨exec_badFcsFrame hup cw, ⟨_, exec_pauseFrame hup, ?_⟩,
    fun hfit hno => ⟨_, exec_droppedDatagram hup hfit (not_listened hno), ?_⟩,
    fun h => exec_droppedDatagram_other (h.imp_right (listened_iff s d).2), fun ht c hc => ?_, fun ht => ?_, fun ht => ?_⟩
  · obtain ⟨hown, hother⟩ := prt_counted d.port.val (fun x => { x with pause := satInc x.pause }) s
    exact ⟨(prt_ingFlag _ _ _).trans hown, rfl, fun q hq => (prt_ingFlag _ _ _).trans (hother q hq), ingFlag_ports 1 (counted_eq _ _ _)⟩
  · obtain ⟨hown, hother⟩ := prt_counted d.port.val (fun x => { x with dropIp := satInc x.dropIp }) s
    exact ⟨hown, hother, counted_eq _ _ _⟩
  · rcases hc with rfl | rfl
    · exact congrArg _ (addrReply_dropped hup src false _ ht)
    · exact congrArg _ (addrReply_dropped hup src true _ ht)
  · have h := addrReply_taken hup src false (a4 == (ethOf s d.port.val).ip4 && a4 != 0) ht
    simp only [own_iff] at h
    exact congrArg Host.Outcome.next h
  · have h := addrReply_taken hup src true (a6 == (ethOf s d.port.val).ip6 && a6 != 0) ht
    simp only [own_iff] at h
    exact congrArg Host.Outcome.next h

end Sys2Proof.Machine
end

section
/-! PROOFS. The records of a capture stream and their assembly (O45). -/

namespace Sys2Proof.Machine

/-! ## A record, by what it is -/

section
variable {x : Stream} {d : List Byte} {now : Nat}

theorem takeRecord_bad (h : recOk x d = false) :
    x.takeRecord d now = x.badRecord (if d.length < 32 then 2 ^ 64 else (recHdr d).seq) := by
  simp only [Stream.takeRecord, h, Bool.not_false, if_true]

/-- Is the record one of a frame accounted for or completed? -/
def seqKnown (x : Stream) (seq : Nat) : Bool :=
  x.recent.any (fun q => q.toNat == seq) || x.complete.any (fun f => f.seq.toNat == seq)

theorem takeRecord_known (h : recOk x d = true) (hk : seqKnown x (recHdr d).seq = true) :
    x.takeRecord d now = { x with stale := satInc x.stale } := by
  rw [seqKnown] at hk
  simp only [Stream.takeRecord, h, hk, Bool.not_true, Bool.false_eq_true, if_false, if_true]

variable (h : recOk x d = true) (hk : seqKnown x (recHdr d).seq = false)
include h hk

theorem takeRecord_new (hnew : ∀ f ∈ x.asm, f.seq.toNat ≠ (recHdr d).seq) :
    x.takeRecord d now = (x.newFrame (recHdr d) (d.drop 32)).complete? (recHdr d).seq now := by
  rw [seqKnown] at hk
  have hnone : x.asm.find? (fun f => f.seq.toNat == (recHdr d).seq) = none :=
    List.find?_eq_none.2 fun f hf => by simpa using hnew f hf
  simp only [Stream.takeRecord, h, hk, hnone, Bool.not_true, Bool.false_eq_true, if_false]

theorem takeRecord_further {f : CapFrame} (hf : x.asm.find? (fun f => f.seq.toNat == (recHdr d).seq) = some f) :
    x.takeRecord d now =
      if !recAgrees f (recHdr d) then x.badRecord (recHdr d).seq
      else if f.recs.any fun r => r.1 == (recHdr d).index then { x with stale := satInc x.stale }
      else Stream.complete? (recHdr d).seq now { x with
        asm := x.asm.map fun g =>
          if g.seq == f.seq then { g with recs := g.recs ++ [((recHdr d).index, d.drop 32)] } else g } := by
  rw [seqKnown] at hk
  simp only [Stream.takeRecord, h, hk, hf, Bool.not_true, Bool.false_eq_true, if_false]

end

/-- A bad record taints its frame; one too short to name a frame taints none. -/
theorem badRecord_spec (x : Stream) (d : List Byte) :
    let y := x.badRecord (if d.length < 32 then 2 ^ 64 else (recHdr d).seq)
    (32 ≤ d.length → (recHdr d).seq ∈ y.badSeqs) ∧
      y.asm = x.asm.map fun f => if 32 ≤ d.length ∧ f.seq.toNat = (recHdr d).seq then { f with tainted := true } else f := by
  refine ⟨fun hlen => ?_, List.map_congr_left fun f _ => ?_⟩
  · rw [if_neg (Nat.not_lt.2 hlen)]
    change _ ∈ if (recHdr d).seq ∈ x.badSeqs then x.badSeqs else x.badSeqs ++ [(recHdr d).seq]
    split
    · assumption
    · exact List.mem_append_right _ (List.mem_singleton_self _)
  · by_cases hlen : 32 ≤ d.length
    · simp only [hlen, Nat.not_lt.2 hlen, if_false, true_and]
    · have hne : f.seq.toNat ≠ 2 ^ 64 := Nat.ne_of_lt f.seq.isLt
      simp only [hlen, Nat.not_le.1 hlen, if_true, hne, if_false, false_and]

/-- A number just accounted for is among the last 256. -/
theorem mem_note (x : Stream) (seq : Quad) : seq ∈ (x.note seq).recent := by
  have hlen : (x.recent ++ [seq]).length - 256 ≤ x.recent.length := by
    rw [List.length_append, List.length_singleton]
    omega
  unfold Stream.note
  dsimp only
  rw [List.drop_append_of_le_length hlen]
  exact List.mem_append_right _ (List.mem_singleton_self _)

theorem mem_dropFrame (why : DropWhy) (f : CapFrame) (x : Stream) : f.seq ∈ (x.dropFrame why f).recent := by
  unfold Stream.dropFrame
  dsimp only
  exact mem_note x f.seq

/-! ## A new frame -/

/-- The assembly that the first record of a new frame opens. -/
def firstOf (x : Stream) (h : RecHdr) (data : List Byte) : CapFrame where
  seq := BitVec.ofNat 64 h.seq
  recCount := h.count
  frameBytes := h.frameBytes
  format := BitVec.ofNat 16 h.format
  capTime := BitVec.ofNat 64 h.time
  recs := [(h.index, data)]
  tainted := decide (h.seq ∈ x.badSeqs)
  time := 0

theorem newFrame_of_room {x : Stream} {h : RecHdr} {data : List Byte} (hroom : x.asm.length < 4) :
    x.newFrame h data = { x with asm := x.asm ++ [firstOf x h data] } := by
  unfold Stream.newFrame
  split
  · rw [if_neg (Nat.not_le.2 hroom)]
    rfl
  · rfl

/-- With four assemblies open the oldest is evicted; its being dropped taints no other frame. -/
theorem newFrame_of_full {x : Stream} {h : RecHdr} {data : List Byte} {f : CapFrame} {rest : List CapFrame}
    (hasm : x.asm = f :: rest) (hfull : 4 ≤ x.asm.length) (hne : f.seq.toNat ≠ h.seq) :
    x.newFrame h data = { ({ x with asm := rest } : Stream).dropFrame .evicted f with
      asm := rest ++ [firstOf x h data] } := by
  have hbad : (h.seq ∈ x.badSeqs.filter (· != f.seq.toNat)) ↔ h.seq ∈ x.badSeqs := by
    rw [List.mem_filter, bne_iff_ne]
    exact and_iff_left hne.symm
  unfold Stream.newFrame
  rw [hasm] at hfull ⊢
  simp only [hfull, if_true]
  simp only [Stream.dropFrame, Stream.note, hbad, firstOf]

/-- Does the frame hold all its records and none that was bad? -/
def isWhole (seq : Nat) (f : CapFrame) : Bool := f.seq.toNat == seq && f.recs.length == f.recCount && !f.tainted

theorem complete?_none {x : Stream} {seq now : Nat} (h : ∀ f ∈ x.asm, isWhole seq f = false) :
    x.complete? seq now = x := by
  have hnone : x.asm.find? (isWhole seq) = none := List.find?_eq_none.2 fun f hf => by rw [h f hf]; decide
  unfold isWhole at hnone
  simp only [Stream.complete?, hnone]

theorem complete?_some {x : Stream} {seq now : Nat} {f : CapFrame} (h : x.asm.find? (isWhole seq) = some f) :
    x.complete? seq now = { x with
      asm := x.asm.filter fun g => !(g.seq == f.seq)
      complete := x.complete ++ [{ f with time := BitVec.ofNat 64 now }] } := by
  unfold isWhole at h
  simp only [Stream.complete?, h]

theorem not_whole_of_seq {seq : Nat} {f : CapFrame} (h : f.seq.toNat ≠ seq) : isWhole seq f = false := by
  rw [isWhole, beq_false_of_ne h, Bool.false_and, Bool.false_and]

theorem firstOf_not_whole {x : Stream} {h : RecHdr} {data : List Byte} (hopen : h.count ≠ 1 ∨ h.seq ∈ x.badSeqs) :
    isWhole h.seq (firstOf x h data) = false := by
  rcases hopen with hn | hbad
  · have hlen : ((firstOf x h data).recs.length == (firstOf x h data).recCount) = false := beq_false_of_ne hn.symm
    rw [isWhole, hlen, Bool.and_false, Bool.false_and]
  · have ht : (firstOf x h data).tainted = true := decide_eq_true hbad
    rw [isWhole, ht, Bool.not_true, Bool.and_false]

/-- An assembly that gains the first record of a frame of several, or of a tainted one, completes none. -/
theorem complete?_opened {x : Stream} {h : RecHdr} {data : List Byte} {now : Nat} {y : Stream} {l : List CapFrame}
    (hasm : y.asm = l ++ [firstOf x h data]) (hnew : ∀ f ∈ l, f.seq.toNat ≠ h.seq)
    (hopen : h.count ≠ 1 ∨ h.seq ∈ x.badSeqs) : y.complete? h.seq now = y := by
  refine complete?_none fun f hf => ?_
  rw [hasm] at hf
  rcases List.mem_append.1 hf with hf | hf
  · exact not_whole_of_seq (hnew f hf)
  · exact List.mem_singleton.1 hf ▸ firstOf_not_whole hopen

theorem recHdr_seq_lt (d : List Byte) : (recHdr d).seq < 2 ^ 64 := by
  change leAt d 8 8 < 2 ^ 64
  rw [leAt_eq_leNat]
  calc leNat ((d.drop 8).take 8) < 256 ^ ((d.drop 8).take 8).length := leNat_lt _
    _ ≤ 256 ^ 8 := Nat.pow_le_pow_right (by decide) (List.length_take_le _ _)
    _ = 2 ^ 64 := by decide

/-- The only record of a frame completes it at once. -/
theorem complete?_single {x : Stream} {h : RecHdr} {data : List Byte} {now : Nat} (hlt : h.seq < 2 ^ 64)
    (hnew : ∀ f ∈ x.asm, f.seq.toNat ≠ h.seq) (hone : h.count = 1) (hgood : h.seq ∉ x.badSeqs) :
    ({ x with asm := x.asm ++ [firstOf x h data] } : Stream).complete? h.seq now = { x with
      complete := x.complete ++ [{ firstOf x h data with time := BitVec.ofNat 64 now }] } := by
  have hseq : (firstOf x h data).seq.toNat = h.seq := Nat.mod_eq_of_lt hlt
  have hwhole : isWhole h.seq (firstOf x h data) = true := by
    have hlen : (firstOf x h data).recs.length = (firstOf x h data).recCount := hone.symm
    have ht : (firstOf x h data).tainted = false := decide_eq_false hgood
    rw [isWhole, hseq, hlen, ht, beq_self_eq_true, beq_self_eq_true, Bool.not_false, Bool.and_self, Bool.and_self]
  have hfind : (x.asm ++ [firstOf x h data]).find? (isWhole h.seq) = some (firstOf x h data) := by
    rw [List.find?_append, List.find?_eq_none.2 fun f hf => by rw [not_whole_of_seq (hnew f hf)]; decide,
      Option.none_or, List.find?_singleton, if_pos hwhole]
  have hkeep : (x.asm ++ [firstOf x h data]).filter (fun g => !(g.seq == (firstOf x h data).seq)) = x.asm := by
    rw [List.filter_append, List.filter_eq_self.2, List.filter_cons_of_neg, List.filter_nil, List.append_nil]
    · rw [beq_self_eq_true]
      decide
    · intro f hf
      have hne : f.seq ≠ (firstOf x h data).seq := fun he => hnew f hf ((congrArg BitVec.toNat he).trans hseq)
      rw [beq_false_of_ne hne]
      rfl
  rw [complete?_some hfind, hkeep]

/-! ## A further record -/

/-- A record is added to its frame. -/
def addRec (q : Quad) (r : Nat × List Byte) (g : CapFrame) : CapFrame :=
  if g.seq == q then { g with recs := g.recs ++ [r] } else g

theorem addRec_seq (q : Quad) (r : Nat × List Byte) (g : CapFrame) : (addRec q r g).seq = g.seq := by
  unfold addRec
  split <;> rfl

/-- The record that a frame waited for completes it. -/
theorem complete?_last {x : Stream} {seq now : Nat} {f : CapFrame} {r : Nat × List Byte}
    (hf : x.asm.find? (fun g => g.seq.toNat == seq) = some f) (hlen : f.recs.length + 1 = f.recCount)
    (ht : f.tainted = false) :
    ({ x with asm := x.asm.map (addRec f.seq r) } : Stream).complete? seq now = { x with
      asm := x.asm.filter fun g => !(g.seq == f.seq)
      complete := x.complete ++ [{ f with recs := f.recs ++ [r], time := BitVec.ofNat 64 now }] } := by
  obtain ⟨hseq, as, bs, hasm, hbefore⟩ := List.find?_eq_some_iff_append.1 hf
  rw [beq_iff_eq] at hseq
  have hadd : addRec f.seq r f = { f with recs := f.recs ++ [r] } := if_pos (beq_self_eq_true _)
  have hwhole : isWhole seq (addRec f.seq r f) = true := by
    rw [hadd, isWhole, List.length_append, List.length_singleton, hlen, hseq, ht, beq_self_eq_true, beq_self_eq_true]
    decide
  have hfind : (x.asm.map (addRec f.seq r)).find? (isWhole seq) = some (addRec f.seq r f) := by
    rw [List.find?_map, Option.map_eq_some_iff]
    refine ⟨f, List.find?_eq_some_iff_append.2 ⟨hwhole, as, bs, hasm, fun g hg => ?_⟩, rfl⟩
    have hne : (addRec f.seq r g).seq.toNat ≠ seq := by
      rw [addRec_seq]
      simpa using hbefore g hg
    change (!isWhole seq (addRec f.seq r g)) = true
    rw [not_whole_of_seq hne]
    rfl
  have hkeep : (x.asm.map (addRec f.seq r)).filter (fun g => !(g.seq == (addRec f.seq r f).seq)) =
      x.asm.filter fun g => !(g.seq == f.seq) := by
    rw [List.filter_map, addRec_seq]
    have hp : (fun g : CapFrame => !(g.seq == f.seq)) ∘ addRec f.seq r = fun g => !(g.seq == f.seq) := by
      funext g
      rw [Function.comp_apply, addRec_seq]
    rw [hp]
    refine (List.map_congr_left fun g hg => ?_).trans (List.map_id _)
    have hne := (List.mem_filter.1 hg).2
    exact if_neg (by simpa using hne)
  rw [complete?_some hfind, hkeep, hadd]

/-! ## The frame that brings a record, and a frame's deadline -/

theorem exec_record (g : Datagram) (s : State) :
    exec (.record g.port g.dst g.payload g.head) s = execRecord g.port g.dst g.payload s g.head := rfl

theorem datagram_head (g : Datagram) : g.head.datagram g.port g.dst g.payload = g := rfl

theorem exec_record_long {g : Datagram} {s : State} (hfit : dgFits g = false) :
    exec (.record g.port g.dst g.payload g.head) s = .next s := by
  rw [exec_record, execRecord, datagram_head]
  simp only [hfit, Bool.not_false, Bool.or_true, if_true]

section
variable {g : Datagram} {s : State} (hup : portUp s g.port.val = true) (hfit : dgFits g = true)
include hup hfit

theorem exec_record_dropped
    (h : dgIpOk g = false ∨ streamFor (rxFrame g.port.val s) g.port.val g.dst = none ∧ g.dst ≠ jobPortOf s g.port.val) :
    exec (.record g.port g.dst g.payload g.head) s = .next (dropIp g.port.val (rxFrame g.port.val s)) := by
  rw [exec_record, execRecord, datagram_head]
  rcases h with hip | ⟨hnone, hjob⟩
  · simp only [hup, hfit, hip, Bool.not_true, Bool.not_false, Bool.or_self, Bool.false_eq_true, if_false, if_true]
  · have hjob' : g.dst ≠ jobPortOf (rxFrame g.port.val s) g.port.val := hjob
    simp only [hup, hfit, hnone, hjob', Bool.not_true, Bool.or_self, Bool.false_eq_true, if_false, ite_self]

theorem exec_record_taken (hip : dgIpOk g = true) {i : Nat}
    (hi : streamFor (rxFrame g.port.val s) g.port.val g.dst = some i) :
    exec (.record g.port g.dst g.payload g.head) s =
      .next (setStrm i ((strm s i).takeRecord g.payload (timeOf s).toNat) (rxFrame g.port.val s)) := by
  rw [exec_record, execRecord, datagram_head]
  simp only [hup, hfit, hip, hi, Bool.not_true, Bool.or_self, Bool.false_eq_true, if_false]
  rfl

end

theorem exec_reasmTimeout {i : Fin 16} {q : Quad} {f : CapFrame} {s : State} (hup : isUp s = true)
    (hf : (strm s i.val).asm.find? (fun f => f.seq == q) = some f) :
    exec (.reasmTimeout i q) s = .next (setStrm i.val (({ strm s i.val with
      asm := (strm s i.val).asm.filter fun g => !(g.seq == f.seq) } : Stream).dropFrame .incomplete f) s) := by
  have hexec : exec (.reasmTimeout i q) s = execReasmTimeout i q s := rfl
  rw [hexec, execReasmTimeout]
  simp only [hup, hf, Bool.not_true, Bool.false_eq_true, if_false]
  rfl

/-- Settles O45: a record by R456 and by the frame it is of, at the stream's own state. -/
theorem recordsAssembled : Obligations.RecordsAssembled := by
  unfold Obligations.RecordsAssembled
  refine ⟨?_, ?_, ?_⟩
  · intro g i s hup hfit hip p d hi
    refine ⟨_, exec_record_taken hup hfit hip hi, ?_⟩
    intro x h known first
    have htime : BitVec.ofNat 64 (timeOf s).toNat = timeOf s := by rw [BitVec.ofNat_toNat, BitVec.setWidth_eq]
    refine ⟨fun hbad => ?_, fun hok hk => takeRecord_known hok hk, fun hok hk hnew hcount => ⟨fun hroom => ?_, ?_⟩,
      fun hok hk hnew hone hroom => ⟨fun hgood => ?_, fun hbad => ?_⟩, fun f hok hk hf => ⟨?_, ?_, ?_⟩⟩
    · rw [takeRecord_bad hbad]
      obtain ⟨hmem, hasm⟩ := badRecord_spec x d
      exact ⟨rfl, rfl, rfl, rfl, hmem, hasm⟩
    · rw [takeRecord_new hok hk hnew, newFrame_of_room hroom]
      exact complete?_opened rfl hnew (.inl hcount)
    · intro f rest hasm hfull
      have hne := hnew f (hasm ▸ List.mem_cons_self)
      rw [takeRecord_new hok hk hnew, newFrame_of_full hasm hfull hne,
        complete?_opened rfl (fun f hf => hnew f (hasm ▸ List.mem_cons_of_mem _ hf)) (.inl hcount)]
      refine ⟨rfl, rfl, rfl, rfl, rfl, rfl, ?_⟩
      dsimp only
      exact mem_dropFrame _ f _
    · rw [takeRecord_new hok hk hnew, newFrame_of_room hroom,
        complete?_single (recHdr_seq_lt d) hnew hone hgood, htime]
      exact ⟨rfl, rfl⟩
    · rw [takeRecord_new hok hk hnew, newFrame_of_room hroom]
      exact complete?_opened rfl hnew (.inr hbad)
    · intro hagree
      rw [takeRecord_further hok hk hf, hagree]
      rfl
    · intro hagree ⟨r, hr, hidx⟩
      have hany : (f.recs.any fun r => r.1 == h.index) = true := List.any_eq_true.2 ⟨r, hr, beq_iff_eq.2 hidx⟩
      rw [takeRecord_further hok hk hf, hagree, hany]
      rfl
    · intro hagree hno hlen ht
      have hany : (f.recs.any fun r => r.1 == h.index) = false :=
        List.any_eq_false.2 fun r hr => by simpa using hno r hr
      rw [takeRecord_further hok hk hf, hagree, hany]
      have hlast := complete?_last (r := (h.index, d.drop 32)) (now := (timeOf s).toNat) hf hlen ht
      rw [htime] at hlast
      exact ⟨congrArg Stream.asm hlast, congrArg Stream.complete hlast⟩
  · intro g s hup p
    exact ⟨exec_record_long, fun hfit hip => exec_record_dropped hup hfit (.inl hip),
      fun hfit _ hnone hjob => exec_record_dropped hup hfit (.inr ⟨hnone, hjob⟩)⟩
  · intro i q f s hup hf
    refine ⟨_, exec_reasmTimeout hup hf, ?_⟩
    have hq : f.seq = q := beq_iff_eq.1 (List.find?_some (p := fun f : CapFrame => f.seq == q) hf)
    subst hq
    exact ⟨rfl, rfl, rfl, rfl, rfl, mem_dropFrame _ f _⟩

end Sys2Proof.Machine
end

section
/-! PROOFS. A device write into sound Carafe memory, and the fields of a ring entry. -/

namespace Sys2Proof

/-- A field past the end of a string reads zero. -/
theorem slice_eq_replicate {o : Nat} (n : Nat) {bs : List Byte} (h : bs.length ≤ o) : slice o n bs = List.replicate n 0 := by
  rw [slice, List.drop_eq_nil_of_le h, List.take_nil, List.length_nil, Nat.sub_zero, List.nil_append]

theorem leNat_replicate_zero (n : Nat) : leNat (List.replicate n 0) = 0 := by
  induction n with
  | zero => rfl
  | succ n ih =>
    rw [List.replicate_succ, leNat, ih]
    rfl

end Sys2Proof

namespace Sys2Proof.Machine

/-- A field of a padded string is the field of the string. -/
theorem slice_slice_zero {o n m : Nat} (h : o + n ≤ m) (bs : List Byte) : slice o n (slice 0 m bs) = slice o n bs := by
  refine List.ext_getElem (by rw [slice_length, slice_length]) fun j hj hj' => ?_
  have hjn : j < n := by rwa [slice_length] at hj
  rw [← List.getD_eq_getElem _ 0 hj, ← List.getD_eq_getElem _ 0 hj', slice_getD hjn, slice_getD hjn,
    slice_getD (show o + j < m by omega), Nat.zero_add]

/-! ## A write into memory with nothing locked, poisoned, damaged or retired -/

/-- Carafe memory whose lines all read and write as they are stored. -/
structure SoundMem (s : State) : Prop where
  locked : s.mem.locked = false
  poison : s.mem.poison = []
  symErr : s.mem.symErr = []
  retired : s.flash.retired = []

/-- The second state is the first with these bytes at `a` in Carafe. -/
structure Wrote (a : Nat) (bs : List Byte) (s t : State) : Prop where
  bytes : ∀ j, Tab.get 0 t.mem.carafe j =
    if a ≤ j ∧ j < a + bs.length then bs.getD (j - a) 0 else Tab.get 0 s.mem.carafe j
  rest : t = { s with mem := { s.mem with carafe := t.mem.carafe, writeBack := t.mem.writeBack } }

theorem Wrote.sound {a : Nat} {bs : List Byte} {s t : State} (h : Wrote a bs s t) (hs : SoundMem s) : SoundMem t := by
  rw [h.rest]
  exact ⟨hs.locked, hs.poison, hs.symErr, hs.retired⟩

theorem Wrote.nil (a : Nat) (s : State) : Wrote a [] s s :=
  ⟨fun _ => (if_neg fun h => Nat.not_lt.2 h.1 h.2).symm, rfl⟩

/-- Two writes one behind the other are one. -/
theorem Wrote.append {a k : Nat} {bs : List Byte} {s t u : State} (h : Wrote a (bs.take k) s t)
    (h' : Wrote (a + k) (bs.drop k) t u) : Wrote a bs s u := by
  refine ⟨fun j => ?_, ?_⟩
  · have hfirst := h.bytes j
    rw [List.length_take] at hfirst
    rw [h'.bytes j, List.length_drop, hfirst]
    by_cases hin : a ≤ j ∧ j < a + bs.length
    · rw [if_pos hin]
      by_cases hsecond : a + k ≤ j
      · have hidx : k + (j - (a + k)) = j - a := by omega
        rw [if_pos ⟨hsecond, by omega⟩, List.getD_eq_getElem?_getD, List.getElem?_drop, hidx,
          List.getD_eq_getElem?_getD]
      · rw [if_neg fun h => hsecond h.1, if_pos ⟨hin.1, by omega⟩, List.getD_eq_getElem?_getD,
          List.getElem?_take_of_lt (by omega), List.getD_eq_getElem?_getD]
    · rw [if_neg hin, if_neg (by omega), if_neg (by omega)]
  · rw [h'.rest]
    have hrest := h.rest
    generalize t.mem.carafe = c at hrest
    generalize t.mem.writeBack = w at hrest
    rw [hrest]

/-- The bytes of consecutive keys, as a reader finds them. -/
theorem get_putList_getD (t : Tab Byte) (a : Nat) (bs : List Byte) (j : Nat) : Tab.get 0 (Tab.putList 0 t a bs) j =
    if a ≤ j ∧ j < a + bs.length then bs.getD (j - a) 0 else Tab.get 0 t j := by
  split
  case isTrue h =>
    obtain ⟨k, rfl⟩ := Nat.exists_eq_add_of_le h.1
    have hk : k < bs.length := by omega
    rw [Tab.get_putList _ _ _ hk, Nat.add_sub_cancel_left, List.getD_eq_getElem _ _ hk]
  case isFalse h => exact Tab.get_putList_other _ _ _ (by omega)

/-- A sound line is delivered and stays as it is. -/
theorem readLine_sound {s : State} (hs : SoundMem s) (reader line : Nat) : readLine reader line s = (true, s) := by
  simp only [readLine, hs.locked, hs.poison, hs.symErr, Tab.get_nil, List.not_mem_nil, Bool.false_eq_true, if_false,
    if_true]

theorem writeLine_wrote {s : State} (hs : SoundMem s) (pa : Nat) (bs : List Byte) : Wrote pa bs s (writeLine pa bs s) := by
  have hput : ∀ line : Nat, Tab.put 0 s.mem.symErr line 0 = s.mem.symErr := fun line => by rw [hs.symErr]; rfl
  have hpoison : ∀ line : Nat, s.mem.poison.filter (· != line) = s.mem.poison := fun line => by rw [hs.poison]; rfl
  have hopen : ¬ s.mem.locked = true := by rw [hs.locked]; decide
  unfold writeLine
  simp only [if_neg hopen, readLine_sound hs, hput, hpoison]
  split
  · exact ⟨get_putList_getD _ _ _, rfl⟩
  · exact ⟨get_putList_getD _ _ _, rfl⟩

/-- Line by line, with a step for each line that the bytes reach. -/
theorem carafeWriteN_wrote (fuel : Nat) {pa : Nat} {bs : List Byte} {s : State} (hs : SoundMem s)
    (hfuel : bs.length + pa % 64 ≤ 64 * fuel) : Wrote pa bs s (carafeWriteN fuel pa bs s) := by
  induction fuel generalizing pa bs s with
  | zero =>
    obtain rfl : bs = [] := List.eq_nil_of_length_eq_zero (by omega)
    exact Wrote.nil pa s
  | succ fuel ih =>
    rw [carafeWriteN]
    split
    case isTrue h =>
      obtain rfl := List.isEmpty_iff.1 h
      exact Wrote.nil pa s
    case isFalse =>
      have hline := writeLine_wrote hs pa (bs.take (64 - pa % 64))
      refine hline.append (ih (hline.sound hs) ?_)
      have hnext : (pa + (64 - pa % 64)) % 64 = 0 := by omega
      rw [List.length_drop, hnext]
      omega

theorem carafeWrite_wrote {s : State} (hs : SoundMem s) (pa : Nat) (bs : List Byte) :
    Wrote pa bs s (carafeWrite pa bs s) :=
  carafeWriteN_wrote _ hs (by omega)

theorem carafePhys_sound {s : State} (hs : SoundMem s) (a : Nat) : carafePhys s a = a := by
  rw [carafePhys, spareOf, hs.retired]
  exact Nat.div_add_mod' a extBytes

theorem locate_zero {s : State} (hs : SoundMem s) (write : Bool) {a : Nat} (ha : a < fwExt * extBytes) :
    locate s View.zero write a = .ok (.carafe a) := by
  have hctx : View.zero.ctx = 0 := rfl
  rw [locate, if_pos hctx, if_pos ha, carafePhys_sound hs]

/-- Where the pieces of a range of context 0 lie. -/
def carafePieces (ps : List (Nat × Nat)) : List (Place × Nat) := ps.map fun p => (.carafe p.1, p.2)

theorem locateAll_zero {s : State} (hs : SoundMem s) (write : Bool) {ps : List (Nat × Nat)}
    (hps : ∀ p ∈ ps, p.1 < fwExt * extBytes) : locateAll s View.zero write ps = .ok (carafePieces ps) := by
  induction ps with
  | nil => rfl
  | cons p ps ih =>
    rw [locateAll, locate_zero hs write (hps p List.mem_cons_self), ih fun q hq => hps q (List.mem_cons_of_mem _ hq)]
    rfl

/-- Each piece begins within the range. -/
theorem piecesOf_lt (fuel : Nat) {a len : Nat} {p : Nat × Nat} (hp : p ∈ piecesOf fuel a len) : p.1 < a + len := by
  induction fuel generalizing a len with
  | zero => exact absurd hp List.not_mem_nil
  | succ fuel ih =>
    rw [piecesOf] at hp
    split at hp
    case isTrue => exact absurd hp List.not_mem_nil
    case isFalse h =>
      rcases List.mem_cons.1 hp with rfl | hp
      · exact Nat.lt_add_of_pos_right (Nat.pos_of_ne_zero h)
      · exact Nat.lt_of_lt_of_le (ih hp) (by omega)

theorem writePlaces_wrote (fuel : Nat) {a : Nat} {bs : List Byte} {s : State} (hs : SoundMem s)
    (hfuel : bs.length = 0 ∨ bs.length + a % 0x200000 ≤ 0x200000 * fuel) :
    Wrote a bs s (writePlaces (carafePieces (piecesOf fuel a bs.length)) bs s) := by
  induction fuel generalizing a bs s with
  | zero =>
    obtain rfl : bs = [] := List.eq_nil_of_length_eq_zero (by omega)
    exact Wrote.nil a s
  | succ fuel ih =>
    rw [piecesOf]
    split
    case isTrue h =>
      obtain rfl := List.eq_nil_of_length_eq_zero h
      exact Wrote.nil a s
    case isFalse =>
      generalize hk : min bs.length (0x200000 - a % 0x200000) = k
      have hpiece := carafeWrite_wrote hs a (bs.take k)
      have hnext : (a + k) % 0x200000 = 0 ∨ bs.length = k := by omega
      have hrest := ih (a := a + k) (bs := bs.drop k) (hpiece.sound hs) (by
        rw [List.length_drop]
        omega)
      rw [List.length_drop] at hrest
      exact hpiece.append hrest

/-- A write of context 0 leaves exactly its bytes. -/
theorem devWrite_wrote {s : State} (hs : SoundMem s) {a : Nat} {bs : List Byte}
    (hend : a + bs.length ≤ fwExt * extBytes) : Wrote a bs s (devWrite View.zero a bs s).2 := by
  have hloc := locateAll_zero hs true (ps := pieces a bs.length) fun p hp =>
    Nat.lt_of_lt_of_le (piecesOf_lt _ hp) hend
  rw [devWrite, hloc]
  exact writePlaces_wrote _ hs (by omega)

/-! ## The entries of a ring (R464) -/

theorem entryBytes_length (kind tag bytes a b time : Nat) (rest : List Byte) :
    (entryBytes kind tag bytes a b time rest).length = 64 := by
  simp [entryBytes]

/-- The 32 bytes that each kind of entry has, and then its own. -/
theorem entryBytes_fields (kind tag bytes a b time : Nat) (rest tail : List Byte) :
    let e := entryBytes kind tag bytes a b time rest ++ tail
    leAt e 0 4 = (kind * 2 ^ 24 + tag) % 2 ^ 32 ∧ leAt e 4 4 = bytes % 2 ^ 32 ∧ leAt e 8 8 = a % 2 ^ 64 ∧
      leAt e 0x10 8 = b % 2 ^ 64 ∧ leAt e 0x18 8 = time % 2 ^ 64 ∧ e.drop 64 = tail := by
  refine ⟨?_, ?_, ?_, ?_, ?_, List.drop_left' (entryBytes_length ..)⟩ <;>
    simp [leAt, entryBytes, slice_append_right, slice_append_left, slice_leBytes, leNat_leBytes]

/-- A field of an entry's own 32 bytes. -/
theorem entryBytes_own {kind tag bytes a b time : Nat} {rest : List Byte} (tail : List Byte) {o n : Nat}
    (h : o + n ≤ 32) : leAt (entryBytes kind tag bytes a b time rest ++ tail) (0x20 + o) n = leAt rest o n := by
  have hhead : (leBytes 4 (kind * 2 ^ 24 + tag) ++ leBytes 4 bytes ++ leBytes 8 a ++ leBytes 8 b ++ leBytes 8 time).length =
      0x20 := by simp
  rw [leAt, slice_append_left _ (by rw [entryBytes_length]; omega), entryBytes,
    slice_append_right _ _ (by rw [hhead]; omega), hhead, Nat.add_sub_cancel_left, slice_slice_zero h]
  rfl

end Sys2Proof.Machine
end

section
/-! PROOFS. The ring of a capture stream: frames committed, a stream started and stopped (O46). -/

namespace Sys2Proof.Machine

/-! ## What an access, an entry and a gap entry leave of the streams -/

theorem strm_devWrite (v : View) (a : Nat) (bs : List Byte) (s : State) (j : Nat) :
    strm (devWrite v a bs s).2 j = strm s j := by
  rw [strm, (devWrite_touch v a bs s).ing, strm]

theorem strm_devRead (v : View) (a n : Nat) (s : State) (j : Nat) : strm (devRead v a n s).2 j = strm s j := by
  rw [strm, (devRead_touch v a n s).ing, strm]

@[simp] theorem strm_ingFlag (n : Nat) (s : State) (j : Nat) : strm (ingFlag n s) j = strm s j := rfl

theorem setStrm_setStrm (i : Nat) (x y : Stream) (s : State) : setStrm i y (setStrm i x s) = setStrm i y s := by
  unfold setStrm
  dsimp only
  rw [Tab.put_put]

/-- PROD after `len` bytes more. -/
def Stream.advance (x : Stream) (len : Nat) : Stream := { x with prod := x.prod + BitVec.ofNat 64 len }

theorem Stream.advance_zero (x : Stream) : x.advance 0 = x := by
  have hzero : x.prod + BitVec.ofNat 64 0 = x.prod := BitVec.add_zero _
  rw [Stream.advance, hzero]

theorem strm_ringPut (i : Nat) (e : List Byte) (len : Nat) (s : State) (j : Nat) :
    strm (ringPut i e len s) j = if j = i then (strm s i).advance len else strm s j := by
  rw [ringPut, writeProd, strm_devWrite, updStrm, strm_setStrm, strm_devWrite, strm_devWrite]
  rfl

/-- The bytes of the gap entry that is due. -/
def Stream.gapLen (x : Stream) : Nat := if x.gap.due then 64 else 0

/-- A stream whose gap entry, if one is due, has been written. -/
def Stream.afterGap (x : Stream) : Stream := { x.advance x.gapLen with
  gap := if x.gap.due then Gap.init else x.gap
  gaps := if x.gap.due then satInc x.gaps else x.gaps }

theorem strm_putGap (i : Nat) (s : State) (j : Nat) :
    strm (putGap i s) j = if j = i then (strm s i).afterGap else strm s j := by
  unfold putGap
  split
  case isTrue h =>
    dsimp only
    rw [strm_ingFlag, updStrm, strm_setStrm]
    simp only [strm_ringPut, if_true, Stream.afterGap, Stream.gapLen, h]
    split <;> rfl
  case isFalse h =>
    split
    case isTrue hj =>
      rw [hj, Stream.afterGap, Stream.gapLen]
      simp only [if_neg h, Stream.advance_zero]
    case isFalse => rfl

theorem strm_ringRoom {i room : Nat} {s u : State} (h : ringRoom i s = (room, u)) (j : Nat) : strm u j = strm s j := by
  have hu : u = (ringRoom i s).2 := by rw [h]
  have hread := strm_devRead View.zero (strm s i).consAddr.toNat 8 s j
  rw [hu, ringRoom]
  generalize devRead View.zero (strm s i).consAddr.toNat 8 s = r at hread
  obtain ⟨r | r, t⟩ := r <;> exact hread

/-! ## The entries written -/

/-- A WRAP or END entry of `len` bytes. -/
def putPlain (i kind len : Nat) (s : State) : State :=
  ringPut i (entryBytes kind (strm s i).tag.toNat len 0 0 (timeOf s).toNat []) len s

/-- The END entry after the gap entry that is due: the stream is DISABLED. -/
def closeStream (i : Nat) (s : State) : State :=
  let w := putPlain i 4 64 (putGap i s)
  ingFlag 2 (setStrm i { strm w i with st := .disabled } w)

/-- The frame's own entry, after the gap and WRAP entries it needs. -/
def putFrame (i : Nat) (f : CapFrame) (s : State) : State :=
  let a := putGap i s
  let w := wrapBytes (strm a i) (strm a i).prod.toNat (64 + f.frameBytes)
  let b := if w = 0 then a else putPlain i 3 w a
  let c := ringPut i (frameEntry (strm b i) f) (64 + f.frameBytes) b
  setStrm i { (strm c i).note f.seq with frames := (strm c i).frames + 1 } c

theorem strm_putPlain (i kind len : Nat) (s : State) (j : Nat) :
    strm (putPlain i kind len s) j = if j = i then (strm s i).advance len else strm s j :=
  strm_ringPut ..

theorem strm_closeStream (i : Nat) (s : State) (j : Nat) : strm (closeStream i s) j =
    if j = i then { (strm s i).afterGap.advance 64 with st := .disabled } else strm s j := by
  rw [closeStream]
  dsimp only
  rw [strm_ingFlag, strm_setStrm]
  simp only [strm_putPlain, strm_putGap, if_true]
  split <;> rfl

theorem closeStream_status (i : Nat) (s : State) : (closeStream i s).ing.status.getLsbD 2 = true := by
  have hflag : ∀ b : BitVec 4, (b ||| BitVec.ofNat 4 (2 ^ 2)).getLsbD 2 = true := by decide
  exact hflag _

/-- The stream with its frame committed. -/
def Stream.committed (x : Stream) (f : CapFrame) : Stream :=
  let y := x.afterGap
  let z := (y.advance (wrapBytes x y.prod.toNat (64 + f.frameBytes))).advance (64 + f.frameBytes)
  { z.note f.seq with frames := x.frames + 1 }

/-- A WRAP entry of no bytes is none. -/
theorem strm_wrap (i w : Nat) (a : State) (j : Nat) :
    strm (if w = 0 then a else putPlain i 3 w a) j = if j = i then (strm a i).advance w else strm a j := by
  split
  case isTrue h =>
    rw [h, Stream.advance_zero]
    split
    case isTrue hj => rw [hj]
    case isFalse => rfl
  case isFalse => exact strm_putPlain ..

theorem strm_putFrame (i : Nat) (f : CapFrame) (s : State) (j : Nat) :
    strm (putFrame i f s) j = if j = i then (strm s i).committed f else strm s j := by
  rw [putFrame]
  dsimp only
  rw [strm_setStrm]
  simp only [strm_ringPut, strm_wrap, strm_putGap, if_true]
  split <;> rfl

/-! ## The model's steps, by their entries -/

theorem frameEntry_tag {x y : Stream} (h : x.tag = y.tag) (f : CapFrame) : frameEntry x f = frameEntry y f := by
  rw [frameEntry, h, ← frameEntry]

theorem finishStop_eq (i : Nat) (s : State) : finishStop i s =
    if (strm s i).st = .stopping ∧ (strm s i).complete = [] then closeStream i s else s := by
  have htag : (strm (putGap i s) i).tag = (strm s i).tag := by
    rw [strm_putGap, if_pos rfl]
    rfl
  unfold finishStop closeStream putPlain
  rw [htag]
  rfl

/-- A stream with these frames still to commit. -/
def Stream.holding (x : Stream) (l : List CapFrame) : Stream := { x with complete := l }

section
variable {i : Nat} {f : CapFrame} {rest : List CapFrame} {room : Nat} {s u : State}
  (hroom : ringRoom i (setStrm i ((strm s i).holding rest) s) = (room, u))
include hroom

theorem strm_room : strm u i = (strm s i).holding rest := by
  rw [strm_ringRoom hroom, strm_setStrm_same]

/-- The frame fits or is dropped, by the room that the ring shows with the frame taken from the queue. -/
theorem commitFrame_eq (hc : (strm s i).complete = f :: rest) : commitFrame i f s =
    if !frameFits (strm s i) room f then setStrm i (Stream.dropFrame .full f ((strm s i).holding rest)) u
    else putFrame i f u := by
  have hstrm := strm_room hroom
  have hpop : updStrm i (fun x => { x with complete := x.complete.drop 1 }) s =
      setStrm i ((strm s i).holding rest) s := by
    rw [updStrm, hc]
    rfl
  have hfits : frameFits (strm u i) room f = frameFits (strm s i) room f := by
    rw [hstrm]
    rfl
  have hentry : ∀ w, frameEntry (strm (if w = 0 then putGap i u else putPlain i 3 w (putGap i u)) i) f =
      frameEntry (strm (putGap i u) i) f := fun w =>
    frameEntry_tag (by rw [strm_wrap, if_pos rfl]; rfl) f
  unfold commitFrame putFrame
  rw [hpop]
  simp only [hroom, hfits, hentry]
  unfold updStrm putPlain
  rw [hstrm]

end

theorem exec_frameCommit {i : Fin 16} {f : CapFrame} {rest : List CapFrame} {s : State} (hup : isUp s = true)
    (hc : (strm s i.val).complete = f :: rest) :
    exec (.frameCommit i) s = .next (finishStop i.val (commitFrame i.val f s)) := by
  have hexec : exec (.frameCommit i) s = execFrameCommit i s := rfl
  rw [hexec, execFrameCommit, hc, hup]
  rfl

/-! ## A stream started and stopped -/

theorem exec_streamEnable {i : Fin 16} {v : BitVec 31} {s : State} (hup : isUp s = true) :
    exec (.streamEnable i v) s = .next (streamEnable i.val v.toNat s) := by
  have hexec : exec (.streamEnable i v) s = execStreamEnable i v s := rfl
  rw [hexec, execStreamEnable, if_pos hup]

theorem exec_streamStop {i : Fin 16} {v : BitVec 31} {s : State} (hup : isUp s = true) :
    exec (.streamStop i v) s = .next (streamStop i.val v.toNat s) := by
  have hexec : exec (.streamStop i v) s = execStreamStop i v s := rfl
  rw [hexec, execStreamStop, if_pos hup]

/-- A stream just started holds nothing. -/
def Stream.started (x : Stream) : Stream := { x with
  st := .active
  prod := 0
  asm := []
  complete := []
  recent := []
  badSeqs := []
  gap := Gap.init }

section
variable {i v : Nat} {s : State}

theorem streamEnable_active (h : (strm s i).st = .active) :
    streamEnable i v s = setStrm i (setCtrl v (strm s i)) s := by
  unfold streamEnable
  rw [h]
  rfl

theorem streamEnable_stopping (h : (strm s i).st = .stopping) : streamEnable i v s = ingFlag 3 s := by
  unfold streamEnable
  rw [h]

theorem streamEnable_disabled (h : (strm s i).st = .disabled) : streamEnable i v s =
    if streamOk (setStrm i (setCtrl v (strm s i)) s) i then
      writeProd i (setStrm i (setCtrl v (strm s i)).started s)
    else ingFlag 3 (setStrm i (setCtrl v (strm s i)) s) := by
  unfold streamEnable
  rw [h]
  dsimp only [updStrm]
  rw [strm_setStrm_same, setStrm_setStrm]
  rfl

theorem streamStop_other (h : (strm s i).st ≠ .active) :
    streamStop i v s = setStrm i (setCtrl v (strm s i)) s := by
  unfold streamStop
  split
  · exact absurd ‹_› h
  · rfl

/-- A stream just stopped: its incomplete frames are dropped. -/
def Stream.stopped (x : Stream) (v : Nat) : Stream :=
  { x.asm.foldl (fun w f => Stream.dropFrame .stopped f w) (setCtrl v x) with st := .stopping, asm := [] }

theorem streamStop_active (h : (strm s i).st = .active) :
    streamStop i v s = finishStop i (setStrm i ((strm s i).stopped v) s) := by
  unfold streamStop
  rw [h]
  rfl

end

/-- Dropping frames as stopped counts them and leaves the completed ones. -/
theorem foldl_dropFrame_stopped (l : List CapFrame) (x : Stream) :
    let y := l.foldl (fun w f => Stream.dropFrame .stopped f w) x
    y.complete = x.complete ∧ y.gap.stopped = x.gap.stopped + l.length := by
  induction l generalizing x with
  | nil => exact ⟨rfl, rfl⟩
  | cons f l ih =>
    obtain ⟨hcomplete, hstopped⟩ := ih (Stream.dropFrame .stopped f x)
    have hone : (Stream.dropFrame .stopped f x).gap.stopped = x.gap.stopped + 1 := rfl
    have hcount : x.gap.stopped + 1 + l.length = x.gap.stopped + (f :: l).length := by
      rw [List.length_cons]
      omega
    have hsame : (Stream.dropFrame .stopped f x).complete = x.complete := by
      unfold Stream.dropFrame Stream.note
      rfl
    rw [hone, hcount] at hstopped
    rw [hsame] at hcomplete
    rw [List.foldl_cons]
    exact ⟨hcomplete, hstopped⟩

theorem stopped_spec (x : Stream) (v : Nat) :
    (x.stopped v).complete = x.complete ∧ (x.stopped v).gap.stopped = x.gap.stopped + x.asm.length := by
  have hfold := foldl_dropFrame_stopped x.asm (setCtrl v x)
  unfold Stream.stopped
  dsimp only
  exact hfold

theorem stopped_st_asm (x : Stream) (v : Nat) : (x.stopped v).st = .stopping ∧ (x.stopped v).asm = [] := ⟨rfl, rfl⟩

/-- What the stream shows of a committed frame. -/
theorem committed_spec (x : Stream) (f : CapFrame) : let y := x.committed f
    y.st = x.st ∧ y.frames = x.frames + 1 ∧ y.complete = x.complete ∧ y.dropped = x.dropped ∧
      y.prod = x.prod + BitVec.ofNat 64 x.gapLen +
        BitVec.ofNat 64 (wrapBytes x (x.prod + BitVec.ofNat 64 x.gapLen).toNat (64 + f.frameBytes)) +
        BitVec.ofNat 64 (64 + f.frameBytes) ∧
      y.gap = (if x.gap.due then Gap.init else x.gap) ∧ y.gaps = (if x.gap.due then satInc x.gaps else x.gaps) ∧
      f.seq ∈ y.recent := by
  have hmem := mem_note ((x.afterGap.advance (wrapBytes x x.afterGap.prod.toNat (64 + f.frameBytes))).advance
    (64 + f.frameBytes)) f.seq
  unfold Stream.committed
  dsimp only
  refine ⟨?_, rfl, ?_, ?_, ?_, ?_, ?_, hmem⟩
  all_goals
    unfold Stream.note
    rfl

/-- The fields of R464 of an entry that names no frame. -/
theorem plainEntry_fields {kind len time : Nat} (tag : BitVec 16) (hkind : kind < 256) (htime : time < 2 ^ 64)
    (hlen : len < 2 ^ 32) : let e := entryBytes kind tag.toNat len 0 0 time []
    e.length = 64 ∧ leAt e 0 4 = kind * 2 ^ 24 + tag.toNat ∧ leAt e 4 4 = len ∧ leAt e 8 16 = 0 ∧
      leAt e 0x18 8 = time ∧ leAt e 0x20 32 = 0 := by
  have htag : tag.toNat < 2 ^ 16 := tag.isLt
  obtain ⟨hword, hbytes, -, -, htm, -⟩ := entryBytes_fields kind tag.toNat len 0 0 time [] []
  have hown := entryBytes_own (kind := kind) (tag := tag.toNat) (bytes := len) (a := 0) (b := 0) (time := time)
    (rest := []) [] (o := 0) (n := 32) (by decide)
  rw [List.append_nil] at hword hbytes htm hown
  have hzeros : leAt (entryBytes kind tag.toNat len 0 0 time []) 8 16 = 0 := by
    have hsplit : entryBytes kind tag.toNat len 0 0 time [] = (leBytes 4 (kind * 2 ^ 24 + tag.toNat) ++ leBytes 4 len) ++
        (List.replicate 16 0 ++ (leBytes 8 time ++ slice 0 32 [])) := by
      rw [entryBytes, show List.replicate 16 (0 : Byte) = leBytes 8 0 ++ leBytes 8 0 from rfl]
      simp only [List.append_assoc]
    rw [leAt, hsplit, slice_append_right _ _ (by simp), slice_append_left _ (by simp)]
    simp only [List.length_append, leBytes_length]
    rfl
  refine ⟨entryBytes_length .., hword.trans (Nat.mod_eq_of_lt (by omega)), hbytes.trans (Nat.mod_eq_of_lt hlen), hzeros,
    htm.trans (Nat.mod_eq_of_lt htime), hown.trans ?_⟩
  rw [leAt, slice_eq_replicate _ (by simp), leNat_replicate_zero]

/-- The fields of R464 of a frame's entry. -/
theorem frameEntry_fields (x : Stream) (f : CapFrame) (hlen : f.frameBytes + 64 < 2 ^ 32) : let e := frameEntry x f
    leAt e 0 4 = 2 ^ 24 + x.tag.toNat ∧ leAt e 4 4 = 64 + f.frameBytes ∧ leAt e 8 8 = f.seq.toNat ∧
      leAt e 0x10 8 = f.capTime.toNat ∧ leAt e 0x18 8 = f.time.toNat ∧ leAt e 0x20 4 = f.frameBytes ∧
      leAt e 0x24 4 = f.format.toNat ∧ leAt e 0x28 24 = 0 ∧ e.drop 64 = frameSamples f := by
  have htag : x.tag.toNat < 2 ^ 16 := x.tag.isLt
  have hformat : f.format.toNat < 2 ^ 16 := f.format.isLt
  obtain ⟨hword, hbytes, hseq, hcap, htime, hdrop⟩ := entryBytes_fields 1 x.tag.toNat (64 + f.frameBytes) f.seq.toNat
    f.capTime.toNat f.time.toNat (leBytes 4 f.frameBytes ++ leBytes 4 f.format.toNat) (frameSamples f)
  have hown (o n : Nat) (h : o + n ≤ 32) := entryBytes_own (kind := 1) (tag := x.tag.toNat) (bytes := 64 + f.frameBytes)
    (a := f.seq.toNat) (b := f.capTime.toNat) (time := f.time.toNat)
    (rest := leBytes 4 f.frameBytes ++ leBytes 4 f.format.toNat) (frameSamples f) h
  refine ⟨hword.trans (by omega), hbytes.trans (by omega), hseq.trans (Nat.mod_eq_of_lt f.seq.isLt),
    hcap.trans (Nat.mod_eq_of_lt f.capTime.isLt), htime.trans (Nat.mod_eq_of_lt f.time.isLt),
    (hown 0 4 (by decide)).trans ?_, (hown 4 4 (by decide)).trans ?_, (hown 8 24 (by decide)).trans ?_, hdrop⟩
  · rw [leAt, slice_append_left _ (by simp), slice_leBytes, leNat_leBytes]
    omega
  · rw [leAt, slice_append_right _ _ (by simp), leBytes_length, Nat.sub_self, slice_leBytes, leNat_leBytes]
    omega
  · rw [leAt, slice_eq_replicate _ (by simp), leNat_replicate_zero]

/-- The fields of R464 of a gap entry. -/
theorem gapEntry_fields (x : Stream) {time : Nat} (htime : time < 2 ^ 64) : let e := gapEntry x time
    let top := fun n => min n 0xFFFFFFFF
    e.length = 64 ∧ leAt e 0 4 = 2 * 2 ^ 24 + x.tag.toNat ∧ leAt e 4 4 = 64 ∧ leAt e 8 8 = x.gap.lo.toNat ∧
      leAt e 0x10 8 = x.gap.hi.toNat ∧ leAt e 0x18 8 = time ∧
      leAt e 0x20 4 = top (x.gap.full + x.gap.incomplete + x.gap.evicted + x.gap.stopped) ∧
      leAt e 0x24 4 = top x.gap.records ∧ leAt e 0x28 8 = x.gap.bytes % 2 ^ 64 ∧ leAt e 0x30 4 = top x.gap.full ∧
      leAt e 0x34 4 = top x.gap.incomplete ∧ leAt e 0x38 4 = top x.gap.evicted ∧
      leAt e 0x3C 4 = min x.gap.stopped 255 * 2 ^ 24 + min x.gap.bad 0xFFFFFF := by
  have htag : x.tag.toNat < 2 ^ 16 := x.tag.isLt
  have htop (n : Nat) : sat32 n % 2 ^ 32 = min n 0xFFFFFFFF := Nat.mod_eq_of_lt (by rw [sat32]; omega)
  intro e top
  generalize hrest : leBytes 4 (sat32 (x.gap.full + x.gap.incomplete + x.gap.evicted + x.gap.stopped)) ++
    leBytes 4 (sat32 x.gap.records) ++ leBytes 8 x.gap.bytes ++ leBytes 4 (sat32 x.gap.full) ++
    leBytes 4 (sat32 x.gap.incomplete) ++ leBytes 4 (sat32 x.gap.evicted) ++
    leBytes 4 (min x.gap.stopped 255 * 2 ^ 24 + min x.gap.bad 0xFFFFFF) = rest
  have he : e = entryBytes 2 x.tag.toNat 64 x.gap.lo.toNat x.gap.hi.toNat time rest := hrest ▸ rfl
  clear_value e
  subst he
  obtain ⟨hword, hbytes, hlo, hhi, htm, -⟩ := entryBytes_fields 2 x.tag.toNat 64 x.gap.lo.toNat x.gap.hi.toNat time rest []
  have hown (o n : Nat) (h : o + n ≤ 32) := entryBytes_own (kind := 2) (tag := x.tag.toNat) (bytes := 64)
    (a := x.gap.lo.toNat) (b := x.gap.hi.toNat) (time := time) (rest := rest) [] h
  simp only [List.append_nil] at hword hbytes hlo hhi htm hown
  refine ⟨entryBytes_length .., hword.trans (by omega), hbytes, hlo.trans (Nat.mod_eq_of_lt x.gap.lo.isLt),
    hhi.trans (Nat.mod_eq_of_lt x.gap.hi.isLt), htm.trans (Nat.mod_eq_of_lt htime), (hown 0 4 (by decide)).trans ?_,
    (hown 4 4 (by decide)).trans ?_, (hown 8 8 (by decide)).trans ?_, (hown 16 4 (by decide)).trans ?_,
    (hown 20 4 (by decide)).trans ?_, (hown 24 4 (by decide)).trans ?_, (hown 28 4 (by decide)).trans ?_⟩
  all_goals
    subst hrest
    simp only [leAt, slice_append_right, slice_append_left, slice_leBytes, leNat_leBytes, List.length_append, leBytes_length,
      Nat.reduceAdd, Nat.reduceLeDiff, Nat.reducePow, Nat.sub_self, Nat.le_refl]
  · exact htop _
  · exact htop _
  · exact htop _
  · exact htop _
  · exact htop _
  · exact Nat.mod_eq_of_lt (by omega)

/-! ## The steps that O46 names -/

section
variable {i : Fin 16} {s : State} (hup : isUp s = true)
include hup

/-- After the frame the stream is closed where it was STOPPING and nothing is left. -/
theorem exec_frameCommit_dropped {f : CapFrame} {rest : List CapFrame} {room : Nat} {u : State}
    (hc : (strm s i.val).complete = f :: rest)
    (hroom : ringRoom i.val (setStrm i.val ((strm s i.val).holding rest) s) = (room, u))
    (hfit : frameFits (strm s i.val) room f = false) :
    let v := setStrm i.val (Stream.dropFrame .full f ((strm s i.val).holding rest)) u
    exec (.frameCommit i) s =
      .next (if (strm s i.val).st = .stopping ∧ rest = [] then closeStream i.val v else v) := by
  intro v
  have hv : strm v i.val = Stream.dropFrame .full f ((strm s i.val).holding rest) := strm_setStrm_same ..
  have hst : (strm v i.val).st = (strm s i.val).st := by
    rw [hv]
    unfold Stream.dropFrame Stream.note
    rfl
  have hrest : (strm v i.val).complete = rest := by
    rw [hv]
    unfold Stream.dropFrame Stream.note
    rfl
  have hcommit : commitFrame i.val f s = v := by
    rw [commitFrame_eq hroom hc, hfit]
    rfl
  rw [exec_frameCommit hup hc, hcommit, finishStop_eq, hst, hrest]

theorem exec_frameCommit_taken {f : CapFrame} {rest : List CapFrame} {room : Nat} {u : State}
    (hc : (strm s i.val).complete = f :: rest)
    (hroom : ringRoom i.val (setStrm i.val ((strm s i.val).holding rest) s) = (room, u))
    (hfit : frameFits (strm s i.val) room f = true) :
    exec (.frameCommit i) s = .next (if (strm s i.val).st = .stopping ∧ rest = [] then
      closeStream i.val (putFrame i.val f u) else putFrame i.val f u) := by
  obtain ⟨hst, -, hrest, -⟩ := committed_spec ((strm s i.val).holding rest) f
  have hv : strm (putFrame i.val f u) i.val = ((strm s i.val).holding rest).committed f := by
    rw [strm_putFrame, if_pos rfl, strm_room hroom]
  have hst' : (strm (putFrame i.val f u) i.val).st = (strm s i.val).st := by rw [hv, hst]; rfl
  have hrest' : (strm (putFrame i.val f u) i.val).complete = rest := by rw [hv, hrest]; rfl
  have hcommit : commitFrame i.val f s = putFrame i.val f u := by
    rw [commitFrame_eq hroom hc, hfit]
    rfl
  rw [exec_frameCommit hup hc, hcommit, finishStop_eq, hst', hrest']

/-- What an ACTIVE stream shows of a committed frame. -/
theorem frameCommit_active {f : CapFrame} {rest : List CapFrame} {room : Nat} {u : State}
    (hc : (strm s i.val).complete = f :: rest)
    (hroom : ringRoom i.val (setStrm i.val ((strm s i.val).holding rest) s) = (room, u))
    (hfit : frameFits (strm s i.val) room f = true) (hst : (strm s i.val).st = .active) :
    exec (.frameCommit i) s = .next (putFrame i.val f u) ∧
      strm (putFrame i.val f u) i.val = ((strm s i.val).holding rest).committed f ∧
      ∀ j, j ≠ i.val → strm (putFrame i.val f u) j = strm s j := by
  refine ⟨?_, ?_, fun j hj => ?_⟩
  · rw [exec_frameCommit_taken hup hc hroom hfit, if_neg]
    rw [hst]
    exact fun h => StreamState.noConfusion h.1
  · rw [strm_putFrame, if_pos rfl, strm_room hroom]
  · rw [strm_putFrame, if_neg hj, strm_ringRoom hroom, strm_setStrm, if_neg hj]

/-- A stream that starts: PROD is 0 and written where its consumer reads it. -/
theorem streamEnable_starts {v : BitVec 31} (hst : (strm s i.val).st = .disabled)
    (hok : streamOk (setStrm i.val (setCtrl v.toNat (strm s i.val)) s) i.val = true) :
    let z := (setCtrl v.toNat (strm s i.val)).started
    let t := (devWrite View.zero (strm s i.val).prodAddr.toNat (leBytes 8 0) (setStrm i.val z s)).2
    exec (.streamEnable i v) s = .next t ∧ strm t i.val = z ∧ ∀ j, j ≠ i.val → strm t j = strm s j := by
  intro z t
  refine ⟨?_, ?_, fun j hj => ?_⟩
  · rw [exec_streamEnable hup, streamEnable_disabled hst, if_pos hok, writeProd, strm_setStrm_same]
    rfl
  · rw [strm_devWrite, strm_setStrm_same]
  · rw [strm_devWrite, strm_setStrm, if_neg hj]

/-- A stop with completed frames left drops the incomplete ones and closes nothing yet. -/
theorem streamStop_stopping {v : BitVec 31} (hst : (strm s i.val).st = .active) (hc : (strm s i.val).complete ≠ []) :
    exec (.streamStop i v) s = .next (setStrm i.val ((strm s i.val).stopped v.toNat) s) := by
  rw [exec_streamStop hup, streamStop_active hst, finishStop_eq, strm_setStrm_same, if_neg]
  rw [(stopped_spec _ _).1]
  exact fun h => hc h.2

theorem streamStop_closes {v : BitVec 31} (hst : (strm s i.val).st = .active) (hc : (strm s i.val).complete = []) :
    exec (.streamStop i v) s =
      .next (closeStream i.val (setStrm i.val ((strm s i.val).stopped v.toNat) s)) := by
  rw [exec_streamStop hup, streamStop_active hst, finishStop_eq, strm_setStrm_same, if_pos]
  rw [(stopped_spec _ _).1]
  exact ⟨rfl, hc⟩

end

/-- Settles O46: the model's commit and control by the entries that they put in the ring. -/
theorem streamCommitAndControl : Obligations.StreamCommitAndControl := by
  unfold Obligations.StreamCommitAndControl
  refine ⟨?_, ?_, ?_⟩
  · intro i s hup x put gapFirst other ends
    have hput : put = ringPut i.val := rfl
    clear_value put
    subst hput
    have hgap : gapFirst = putGap i.val := rfl
    clear_value gapFirst
    subst hgap
    have hother : other = putPlain i.val := rfl
    clear_value other
    subst hother
    have hends : ends = closeStream i.val := rfl
    clear_value ends
    subst hends
    refine ⟨?_, ?_⟩
    · intro f rest room u hc hroom done
      refine ⟨exec_frameCommit_dropped hup hc hroom, exec_frameCommit_taken hup hc hroom, fun hfit hst => ?_⟩
      obtain ⟨hexec, hstrm, hother⟩ := frameCommit_active hup hc hroom hfit hst
      obtain ⟨-, hframes, hrest, hdropped, hprod, hgap, hgaps, hmem⟩ := committed_spec (x.holding rest) f
      rw [← hstrm] at hframes hrest hdropped hprod hgap hgaps hmem
      exact ⟨_, hexec, hframes, hrest, hdropped, hprod, fun hdue => ⟨hgap.trans (if_pos hdue), hgaps.trans (if_pos hdue)⟩,
        fun hdue => ⟨hgap.trans (if_neg (Bool.eq_false_iff.1 hdue)), hgaps.trans (if_neg (Bool.eq_false_iff.1 hdue))⟩,
        hmem, hother⟩
    · intro v y
      refine ⟨fun hst hok => ?_, fun hst hok => ?_, fun hst => ?_, fun hst => ?_, fun hst => ?_, fun hst hc => ?_,
        fun hst hc => ?_⟩
      · obtain ⟨hexec, hstrm, hother⟩ := streamEnable_starts hup hst hok
        exact ⟨_, hexec, ⟨hstrm, rfl⟩, hother⟩
      · rw [exec_streamEnable hup, streamEnable_disabled hst, hok]
        rfl
      · rw [exec_streamEnable hup, streamEnable_active hst]
      · rw [exec_streamEnable hup, streamEnable_stopping hst]
      · have hne : x.st ≠ .active := by
          rcases hst with h | h <;> exact fun k => StreamState.noConfusion (h.symm.trans k)
        rw [exec_streamStop hup, streamStop_other hne]
      · obtain ⟨hcomplete, hstopped⟩ := stopped_spec x v.toNat
        refine ⟨_, streamStop_stopping hup hst hc, ?_⟩
        rw [strm_setStrm_same]
        exact ⟨rfl, rfl, hcomplete, hstopped⟩
      · refine ⟨_, _, streamStop_closes hup hst hc, rfl, rfl, ?_⟩
        rw [strm_closeStream, if_pos rfl, strm_setStrm_same]
        exact ⟨rfl, rfl, closeStream_status ..⟩
  · intro x f kind len time hkind htime hlen hframe plain entry gap top
    obtain ⟨hsize, hword, hbytes, hpair, htm, hown⟩ := plainEntry_fields x.tag hkind htime hlen
    obtain ⟨fword, fbytes, fseq, fcap, ftime, flen, fformat, fpad, fsamples⟩ := frameEntry_fields x f hframe
    exact ⟨hsize, hword, hbytes, hpair, htm, hown, fword, fbytes, fseq, fcap, ftime, flen, fformat, fpad, fsamples,
      gapEntry_fields x htime⟩
  · intro a bs s hend hlocked hpoison hsym hretired t
    have hwrote := devWrite_wrote ⟨hlocked, hpoison, hsym, hretired⟩ (a := a) (bs := bs) hend
    exact ⟨hwrote.bytes, hwrote.rest⟩

end Sys2Proof.Machine
end

section
/-! PROOFS. Job frames at an Ethernet port (O47). -/

namespace Sys2Proof.Machine

/-! ## The checks of a job frame, one after the other -/

/-- The state with a job frame of good form counted and told to the control complex. -/
def jobTold (d : Datagram) (s : State) : State := icuSend (136 + d.port.val) (rxFrame d.port.val s)

/-- Is the port's job port keyed? -/
def jobKeyed (d : Datagram) (s : State) : Bool := (s.flash.jobKey.getD d.port.val none).isSome

theorem rxFrame_flash (p : Nat) (s : State) : (rxFrame p s).flash = s.flash := rfl

theorem lnk_jobTold (d : Datagram) (s : State) (l : Nat) : lnk (jobTold d s) l = lnk s l := rfl

theorem que_jobTold (d : Datagram) (s : State) (q : Nat) : que (jobTold d s) q = que s q := rfl

theorem relays_jobTold (d : Datagram) (s : State) : (jobTold d s).ing.relays = s.ing.relays := rfl

theorem routeOf_jobTold (d : Datagram) (s : State) (q : Nat) : routeOf (jobTold d s) q = routeOf s q := rfl

/-- The state with the sender of an accepted frame noted at its queue. -/
def jobNoted (d : Datagram) (s : State) : State := updQue (jobHdr d.payload).q
  (fun x => { x with notify := some (d.src, d.port.val, d.tags, (jobHdr d.payload).src) }) (jobTold d s)

theorem que_jobNoted (d : Datagram) (s : State) : que (jobNoted d s) (jobHdr d.payload).q =
    { que s (jobHdr d.payload).q with notify := some (d.src, d.port.val, d.tags, (jobHdr d.payload).src) } := by
  rw [jobNoted, updQue, que_setQue_same, que_jobTold]

section
variable {d : Datagram} {s : State}

theorem jobFrame_notIp (hip : dgIpOk d = false) :
    jobFrame d s = dropIp d.port.val (rxFrame d.port.val s) := by
  simp only [jobFrame, hip, Bool.not_false, if_true]

theorem jobFrame_badForm (hip : dgIpOk d = true) (hform : jobFormOk d.payload (jobKeyed d s) = false) :
    jobFrame d s = jobDrop d.port.val (rxFrame d.port.val s) := by
  rw [jobKeyed] at hform
  simp only [jobFrame, hip, rxFrame_flash, hform, Bool.not_true, Bool.not_false, Bool.false_eq_true, if_false, if_true]

variable (hip : dgIpOk d = true) (hform : jobFormOk d.payload (jobKeyed d s) = true)
include hip hform

theorem jobFrame_routed {l : Nat} (hl : routeOf s (jobHdr d.payload).q = some l) :
    jobFrame d s = relayJob d l (jobTold d s) := by
  rw [jobKeyed] at hform
  rw [← routeOf_jobTold d, jobTold] at hl
  simp only [jobFrame, hip, rxFrame_flash, hform, hl, Bool.not_true, Bool.false_eq_true, if_false, jobTold]

variable (hl : routeOf s (jobHdr d.payload).q = none)
include hl

/-- The queue does not accept the frame, or its tag does not verify. -/
theorem jobFrame_refused (hno : jobAccepted (jobTold d s) (.eth d) (jobHdr d.payload) = false ∨
      jobTagOk (jobTold d s) d.port.val d.payload = false) :
    jobFrame d s = jobDrop d.port.val (jobTold d s) := by
  have hcond : (!jobAccepted (jobTold d s) (.eth d) (jobHdr d.payload) ||
      !jobTagOk (jobTold d s) d.port.val d.payload) = true := by
    rcases hno with hno | hno
    · rw [hno, Bool.not_false, Bool.true_or]
    · rw [hno, Bool.not_false, Bool.or_true]
  rw [jobKeyed] at hform
  rw [← routeOf_jobTold d, jobTold] at hl
  rw [jobTold] at hcond
  simp only [jobFrame, hip, rxFrame_flash, hform, hl, hcond, Bool.not_true, Bool.false_eq_true, if_false, if_true, jobTold]

/-- An accepted frame: where its answers and notices go is noted. -/
theorem jobFrame_accepted (hacc : jobAccepted (jobTold d s) (.eth d) (jobHdr d.payload) = true)
    (htag : jobTagOk (jobTold d s) d.port.val d.payload = true) :
    jobFrame d s = jobRun (.eth d) d.payload (jobNoted d s) := by
  rw [jobKeyed] at hform
  rw [← routeOf_jobTold d, jobTold] at hl
  rw [jobTold] at hacc htag
  simp only [jobFrame, hip, rxFrame_flash, hform, hl, hacc, htag, Bool.not_true, Bool.or_self, Bool.false_eq_true,
    if_false, jobNoted, jobTold]

end

/-- May the link relay a frame for this queue? -/
def RelayAllowed (s : State) (l q : Nat) : Prop :=
  (lnk s l).st = .active ∧ ((que s q).st = .unused ∨ (que s q).kind ≠ 1 ∨ (lnk s l).sameInst = true)

theorem relay_refused_iff (s : State) (l q : Nat) :
    ((lnk s l).st ≠ .active ∨ ((que s q).st ≠ .unused ∧ (que s q).kind = 1 ∧ !(lnk s l).sameInst)) ↔
      ¬ RelayAllowed s l q := by
  unfold RelayAllowed
  cases (lnk s l).sameInst <;> simp only [Bool.not_true, Bool.not_false, Bool.false_eq_true] <;> tauto

theorem relayJob_dropped {d : Datagram} {l : Nat} {s : State}
    (h : jobTagOk s d.port.val d.payload = false ∨ ¬ RelayAllowed s l (jobHdr d.payload).q) :
    relayJob d l s = jobDrop d.port.val s := by
  unfold relayJob
  dsimp only
  split
  · rfl
  · rename_i htag
    rcases h with h | h
    · exact absurd (congrArg not h) htag
    · exact if_pos ((relay_refused_iff ..).2 h)

theorem relayJob_sent {d : Datagram} {l : Nat} {s : State} (htag : jobTagOk s d.port.val d.payload = true)
    (hallowed : RelayAllowed s l (jobHdr d.payload).q) : relayJob d l s = kwSend l
      { ty := 1, vc := 1, w2 := 0, w3 := 0, body := d.payload.take (32 + 64 * (jobHdr d.payload).n) }
      { s with ing := { s.ing with relays := s.ing.relays ++ [(l, d)] } } := by
  have hno := fun h => (relay_refused_iff s l (jobHdr d.payload).q).1 h hallowed
  unfold relayJob
  rw [htag]
  dsimp only
  rw [if_neg hno]
  rfl

/-! ## The run of an accepted frame -/

section
variable {from' : JobSrc} {b : List Byte} {s : State} {x : Queue} (hx : que s (jobHdr b).q = x)
include hx

theorem jobRun_inactive (hst : x.st ≠ .active) :
    jobRun from' b s = jobReply from' (jobHdr b) 5 s := by
  subst hx
  unfold jobRun
  dsimp only
  rw [if_pos hst]

variable (hst : x.st = .active)
include hst

theorem jobRun_poll (hk : (jobHdr b).kind = 2) :
    jobRun from' b s = jobReply from' (jobHdr b) 0 (cqDoorbell (jobHdr b).q (jobHdr b).cqHead s) := by
  subst hx
  unfold jobRun
  dsimp only
  rw [if_neg (not_not_intro hst), if_pos hk]

variable (hk : (jobHdr b).kind ≠ 2)
include hk

theorem jobRun_old (hseq : (jobHdr b).seq.toNat ≤ x.lastFrame.toNat) :
    jobRun from' b s = jobReply from' (jobHdr b) 2 (cqDoorbell (jobHdr b).q (jobHdr b).cqHead s) := by
  subst hx
  unfold jobRun
  dsimp only
  rw [if_neg (not_not_intro hst), if_neg hk, if_pos hseq]

theorem jobRun_gap (hseq : x.lastFrame.toNat + 1 < (jobHdr b).seq.toNat) :
    jobRun from' b s = jobReply from' (jobHdr b) 3 (cqDoorbell (jobHdr b).q (jobHdr b).cqHead s) := by
  subst hx
  unfold jobRun
  dsimp only
  rw [if_neg (not_not_intro hst), if_neg hk, if_neg (by omega), if_pos (by omega)]

variable (hseq : (jobHdr b).seq.toNat = x.lastFrame.toNat + 1)
include hseq

theorem jobRun_full (hroom : (x.sqHead + BitVec.ofNat 32 (2 ^ x.sqLog.toNat) -
      x.sqTail).toNat < (jobHdr b).n) :
    jobRun from' b s = jobReply from' (jobHdr b) 4 (cqDoorbell (jobHdr b).q (jobHdr b).cqHead s) := by
  subst hx
  unfold jobRun
  dsimp only
  rw [if_neg (not_not_intro hst), if_neg hk, if_neg (by omega), if_neg (not_not_intro hseq), if_pos hroom]

theorem jobRun_taken (hroom : (jobHdr b).n ≤ (x.sqHead +
      BitVec.ofNat 32 (2 ^ x.sqLog.toNat) - x.sqTail).toNat) {z : State}
    (hz : writeEntries (jobHdr b).q (List.range (jobHdr b).n) x.sqTail b
      (cqDoorbell (jobHdr b).q (jobHdr b).cqHead s) = some z) :
    jobRun from' b s = jobReply from' (jobHdr b) 1 (updQue (jobHdr b).q (fun x => { x with lastFrame := (jobHdr b).seq })
      (sqDoorbell (jobHdr b).q (x.sqTail + BitVec.ofNat 32 (jobHdr b).n) z)) := by
  subst hx
  unfold jobRun
  dsimp only
  rw [if_neg (not_not_intro hst), if_neg hk, if_neg (by omega), if_neg (not_not_intro hseq),
    if_neg (Nat.not_lt.2 hroom), hz]

end

/-! ## The frame at its port -/

section
variable {d : Datagram} {s : State} (hup : portUp s d.port.val = true) (hfit : dgFits d = true)
  (hport : d.dst = jobPortOf s d.port.val)
include hfit hport

theorem toJobPort_of : toJobPort s d = true := by
  rw [toJobPort, hfit, hport, beq_self_eq_true]
  rfl

include hup

/-- The row of the frame's own kind takes it. -/
theorem exec_jobFrame :
    exec (if isPoll d then Instr.poll d else Instr.submit d) s = .next (jobFrame d s) := by
  have hto := toJobPort_of hfit hport
  have hpoll : exec (.poll d) s = execPoll d s := rfl
  have hsubmit : exec (.submit d) s = execSubmit d s := rfl
  cases hkind : isPoll d
  · rw [if_neg Bool.false_ne_true, hsubmit, execSubmit, hup, hto, hkind]
    rfl
  · rw [if_pos rfl, hpoll, execPoll, hup, hto, hkind]
    rfl

end

theorem exec_submit_of_poll {d : Datagram} {s : State} (h : isPoll d = true) : exec (.submit d) s = .next s := by
  have hsubmit : exec (.submit d) s = execSubmit d s := rfl
  rw [hsubmit, execSubmit, h, Bool.not_true, Bool.and_false]
  rfl

theorem exec_poll_of_submit {d : Datagram} {s : State} (h : isPoll d = false) : exec (.poll d) s = .next s := by
  have hpoll : exec (.poll d) s = execPoll d s := rfl
  rw [hpoll, execPoll, h, Bool.and_false]
  rfl

/-- Settles O47: the frame's row by the checks in their order, and an accepted frame by its number and the queue's room. -/
theorem jobFrames : Obligations.JobFrames := by
  unfold Obligations.JobFrames
  intro d s hup hfit hport p b h c u keyed
  have hexec : exec c s = .next (jobFrame d s) := exec_jobFrame hup hfit hport
  refine ⟨exec_submit_of_poll, exec_poll_of_submit, fun hip => ?_, fun hip hform => ?_, ?_, ?_⟩
  · rw [hexec, jobFrame_notIp hip]
  · rw [hexec, jobFrame_badForm hip hform]
  · intro l hip hform hroute v allowed
    rw [hexec, jobFrame_routed hip hform hroute]
    exact ⟨fun hno => congrArg _ (relayJob_dropped hno), fun htag hall => congrArg _ (relayJob_sent htag hall)⟩
  · intro hip hform hroute v
    refine ⟨fun hno => hexec.trans (congrArg _ (jobFrame_refused hip hform hroute hno)), fun hacc htag => ?_⟩
    · rw [hexec, jobFrame_accepted hip hform hroute hacc htag]
      intro w x
      have hque := que_jobNoted d s
      have hpoll : isPoll d = true → h.kind = 2 := beq_iff_eq.1
      have hsubmit : isPoll d = false → h.kind ≠ 2 := beq_eq_false_iff_ne.1
      refine ⟨fun hst => congrArg _ (jobRun_inactive hque hst), ?_⟩
      intro hst w'
      exact ⟨fun hk => congrArg _ (jobRun_poll hque hst (hpoll hk)),
        fun hk hseq => congrArg _ (jobRun_old hque hst (hsubmit hk) hseq),
        fun hk hseq => congrArg _ (jobRun_gap hque hst (hsubmit hk) hseq),
        fun hk hseq hroom => congrArg _ (jobRun_full hque hst (hsubmit hk) hseq hroom),
        fun hk hseq hroom z hz => congrArg _ (jobRun_taken hque hst (hsubmit hk) hseq hroom hz)⟩

end Sys2Proof.Machine
end

section
/-! PROOFS. The training of a Kweow link (O48). -/

namespace Sys2Proof.Machine

/-! ## What sending adds to -/

/-- Sending on links, with nothing taken back of what was sent. -/
structure Sending (a s : State) : Prop where
  out : LinkOut a s
  sent : ∀ x ∈ a.sent, x ∈ s.sent

theorem Sending.refl (s : State) : Sending s s := ⟨.refl s, fun _ h => h⟩

theorem Sending.trans {a b c : State} (h : Sending a b) (k : Sending b c) : Sending a c :=
  ⟨h.out.trans k.out, fun x hx => k.sent x (h.sent x hx)⟩

theorem Sending.ite {a x y : State} {c : Prop} [Decidable c] (h : Sending a x) (k : Sending a y) :
    Sending a (if c then x else y) := by
  split
  · exact h
  · exact k

theorem Sending.foldl {α : Type} {f : State → α → State} (h : ∀ st x, Sending st (f st x)) (l : List α) (s : State) :
    Sending s (l.foldl f s) := by
  induction l generalizing s with
  | nil => exact Sending.refl s
  | cons x l ih => exact (h s x).trans (ih (f s x))

theorem emit_sending (x : Sent) (s : State) : Sending s (emit x s) :=
  ⟨emit_linkOut x s, fun _ h => List.mem_append_left _ h⟩

theorem updLnk_sending (l : Nat) {f : Link → Link} {s : State} (k : linkRest (f (lnk s l)) = linkRest (lnk s l)) :
    Sending s (updLnk l f s) :=
  ⟨updLnk_linkOut l f s k, fun _ h => h⟩

theorem flitOut_sending (l : Nat) (f : Flit) (s : State) : Sending s (flitOut l f s) := by
  unfold flitOut
  extract_lets u
  have hu : Sending s u := by
    unfold u
    exact Sending.ite ((updLnk_sending l rfl).trans (emit_sending ..)) (Sending.refl s)
  exact (hu.trans (updLnk_sending l rfl)).trans (emit_sending ..)

theorem pumpLink_sending (l n : Nat) (s : State) : Sending s (pumpLink l n s) := by
  induction n generalizing s with
  | zero => exact Sending.refl s
  | succ n ih =>
    unfold pumpLink
    extract_lets x
    split
    · exact Sending.refl s
    next f _ =>
      extract_lets sealed t
      have ht : Sending s t := updLnk_sending l rfl
      exact (ht.trans (flitOut_sending l sealed t)).trans (ih _)

theorem pump_sending (l : Nat) (s : State) : Sending s (pump l s) :=
  Sending.ite (pumpLink_sending ..) (Sending.refl s)

theorem kwSend_sending (l : Nat) (m : Msg) (s : State) : Sending s (kwSend l m s) := by
  unfold kwSend
  split
  · extract_lets fs
    exact (updLnk_sending l (f := fun x => { x with queued := x.queued ++ fs }) rfl).trans (pump_sending ..)
  · exact Sending.refl s

theorem sendJoins_sending (p : SplitSt) (s : State) : Sending s (sendJoins p s) :=
  Sending.foldl (fun st _ => Sending.ite (kwSend_sending ..) (Sending.refl st)) _ s

theorem rejoin_sending (s : State) : Sending s (rejoin s) := by
  unfold rejoin
  refine Sending.foldl (fun st c => ?_) _ s
  split
  · exact Sending.ite (sendJoins_sending ..) (Sending.refl st)
  · exact Sending.refl st

theorem resendFrom_sending (l n : Nat) (s : State) : Sending s (resendFrom l n s) := by
  unfold resendFrom
  refine Sending.foldl (fun st p => Sending.ite (Sending.refl st) ?_) _ s
  exact (updLnk_sending l rfl).trans (flitOut_sending ..)

/-! ## A link that goes down -/

theorem lnk_updLnk_other (l : Nat) (f : Link → Link) (s : State) {m : Nat} (h : m ≠ l) :
    lnk (updLnk l f s) m = lnk s m :=
  lnk_setLnk_other _ _ _ h

theorem logEvent_queue_link {s : State} {data : List Nat} (h : s.bb.queue.length < 240) :
    (logEvent 0x60 7 data s).bb.queue = s.bb.queue ++ [{
      code := 0x60, source := 7, severity := 1, data := data, time := s.now - s.boot.t0, boot := s.flash.bootCount }] := by
  have hsev : severityOf 0x60 = 1 := by decide
  have hroom : s.bb.queue.length < if (1 : Nat) = 4 then 256 else 240 := h
  rw [logEvent, hsev, logSev]
  dsimp only
  rw [if_pos hroom]

@[simp] theorem linkAlone_bb (l : Nat) (s : State) : (linkAlone l s).bb = s.bb := by
  unfold linkAlone
  refine List.foldlRecOn (motive := fun t : State => t.bb = s.bb) _ _ rfl fun t ht b _ => ?_
  split
  · rw [← ht]
    unfold runAlone
    extract_lets
    split <;> rfl
  · exact ht

/-- A link that is not ACTIVE goes down without a record. -/
theorem linkTo_of_inactive {l : Nat} {s : State} (to' : LState) (h : (lnk s l).st ≠ .active) :
    linkTo l to' s = setLnk l { lnk s l with st := to', sameInst := false, encrypted := false } s := by
  rw [linkTo]
  dsimp only
  rw [if_neg h]
  rfl

/-- Leaving ACTIVE: the link, its flag and the event. -/
theorem linkTo_of_active {l : Nat} {s : State} (to' : LState) (h : (lnk s l).st = .active) :
    let t := linkTo l to' s
    lnk t l = { lnk s l with
        st := to', sameInst := false, encrypted := false, retrains := satInc (lnk s l).retrains } ∧
      t.kw.status = s.kw.status ||| BitVec.ofNat 16 (2 ^ l) ∧ (∀ m, m ≠ l → lnk t m = lnk s m) ∧
      (s.bb.queue.length < 240 → t.bb.queue = s.bb.queue ++ [{
        code := 0x60, source := 7, severity := 1, data := [l, 0], time := s.now - s.boot.t0
        boot := s.flash.bootCount }]) := by
  refine ⟨lnk_linkTo_of_active to' h, ?_, fun m hm => ?_, fun hroom => ?_⟩
  all_goals rw [linkTo, if_pos h]
  · rw [linkAlone_kw, logEvent_kw]
    rfl
  · rw [lnk_of_kw (linkAlone_kw ..), lnk_of_kw (logEvent_kw ..), lnk_kwFlag, lnk_updLnk_other _ _ _ hm,
      lnk_updLnk_other _ _ _ hm]
  · rw [linkAlone_bb, logEvent_queue_link]
    · rfl
    · exact hroom

/-- What a failure of training makes of the link. -/
def Link.failed (x : Link) (cause : Nat) : Link := { x with
  st := .holdoff
  cause := BitVec.ofNat 3 cause
  trainFails := satInc x.trainFails
  sameInst := false
  encrypted := false }

section
variable {l : Nat} {s : State} (h : (lnk s l).st ≠ .active)
include h

theorem trainFail_eq (cause : Nat) : trainFail l cause s = setLnk l ((lnk s l).failed cause)
    (logEvent 0x60 7 [l, cause]
      (updLnk l (fun x => { x with cause := BitVec.ofNat 3 cause, trainFails := satInc x.trainFails }) s)) := by
  have hlog : ∀ u, lnk (logEvent 0x60 7 [l, cause] u) l = lnk u l := fun u => lnk_of_kw (logEvent_kw ..) l
  rw [trainFail, linkTo_of_inactive, hlog, lnk_updLnk]
  · rfl
  · rw [hlog, lnk_updLnk]
    exact h

theorem lnk_trainFail (cause : Nat) : lnk (trainFail l cause s) l = (lnk s l).failed cause := by
  rw [trainFail_eq h, lnk_setLnk]

theorem lnk_trainFail_other (cause : Nat) {m : Nat} (hm : m ≠ l) : lnk (trainFail l cause s) m = lnk s m := by
  rw [trainFail_eq h, lnk_setLnk_other _ _ _ hm, lnk_of_kw (logEvent_kw ..), lnk_updLnk_other _ _ _ hm]

theorem trainFail_rest (cause : Nat) : trainFail l cause s = { s with
    kw := { s.kw with links := (trainFail l cause s).kw.links }, bb := (trainFail l cause s).bb } := by
  rw [trainFail_eq h, logEvent_onlyBb 0x60 7 [l, cause] (updLnk l _ s)]
  rfl

theorem trainFail_queue (cause : Nat) (hroom : s.bb.queue.length < 240) :
    (trainFail l cause s).bb.queue = s.bb.queue ++ [{
      code := 0x60, source := 7, severity := 1, data := [l, cause], time := s.now - s.boot.t0
      boot := s.flash.bootCount }] := by
  rw [trainFail_eq h, setLnk_bb, logEvent_queue_link]
  · rfl
  · exact hroom

end

/-! ## The rows but for IDENTIFY -/

section
variable {l : Fin 8} {s : State} (hup : isUp s = true)
include hup

theorem linkStep_eq (l : Nat) (from' : LState) (f : Link → Link) :
    linkStep l from' f s = if (lnk s l).st = from' then setLnk l (f (lnk s l)) s else s := by
  unfold linkStep
  by_cases h : (lnk s l).st = from'
  · rw [if_pos h, hup, h, beq_self_eq_true]
    rfl
  · rw [if_neg h, beq_false_of_ne h, Bool.and_false]
    rfl

theorem exec_laneLoss_active (hst : (lnk s l.val).st = .active) :
    exec (.laneLoss l) s = .next (linkTo l.val .holdoff s) := by
  have hexec : exec (.laneLoss l) s = execLaneLoss l s := rfl
  rw [hexec, execLaneLoss, hup, hst]
  rfl

theorem exec_retrain (hst : (lnk s l.val).st ≠ .disabled) :
    exec (.retrain l) s = .next (linkTo l.val .holdoff s) := by
  have hexec : exec (.retrain l) s = execRetrain l s := rfl
  rw [hexec, execRetrain, hup, retrainLink, if_neg hst]
  rfl

theorem exec_retrain_disabled (hst : (lnk s l.val).st = .disabled) : exec (.retrain l) s = .next s := by
  have hexec : exec (.retrain l) s = execRetrain l s := rfl
  rw [hexec, execRetrain, hup, retrainLink, if_pos hst]
  rfl

theorem exec_trainingTimeout {cause : Nat} (h : ((lnk s l.val).st = .equalize ∧ cause = 1) ∨
      ((lnk s l.val).st = .align ∧ cause = 2) ∨ ((lnk s l.val).st = .identify ∧ cause = 3)) :
    exec (.trainingTimeout l) s = .next (trainFail l.val cause s) := by
  have hexec : exec (.trainingTimeout l) s = execTrainingTimeout l s := rfl
  rw [hexec, execTrainingTimeout, hup]
  rcases h with ⟨hst, rfl⟩ | ⟨hst, rfl⟩ | ⟨hst, rfl⟩ <;>
  · rw [hst]
    rfl

theorem exec_trainingTimeout_other (h : (lnk s l.val).st = .disabled ∨ (lnk s l.val).st = .detect ∨
      (lnk s l.val).st = .active ∨ (lnk s l.val).st = .holdoff) : exec (.trainingTimeout l) s = .next s := by
  have hexec : exec (.trainingTimeout l) s = execTrainingTimeout l s := rfl
  rw [hexec, execTrainingTimeout, hup]
  rcases h with hst | hst | hst | hst <;>
  · rw [hst]
    rfl

theorem exec_identifyDone {p : PeerInfo} (hst : (lnk s l.val).st = .identify) :
    exec (.identifyDone l p) s = .next (identify l.val p s) := by
  have hexec : exec (.identifyDone l p) s = execIdentifyDone l p s := rfl
  rw [hexec, execIdentifyDone, hup, hst]
  rfl

end

theorem exec_laneLoss_inactive {l : Fin 8} {s : State} (hst : (lnk s l.val).st ≠ .active) :
    exec (.laneLoss l) s = .next s := by
  have hexec : exec (.laneLoss l) s = execLaneLoss l s := rfl
  rw [hexec, execLaneLoss, beq_false_of_ne hst, Bool.and_false]
  rfl

theorem exec_identifyDone_other {l : Fin 8} {s : State} {p : PeerInfo} (hst : (lnk s l.val).st ≠ .identify) :
    exec (.identifyDone l p) s = .next s := by
  have hexec : exec (.identifyDone l p) s = execIdentifyDone l p s := rfl
  rw [hexec, execIdentifyDone, beq_false_of_ne hst, Bool.and_false]
  rfl

/-! ## IDENTIFY -/

/-- The device's own part of the exchange as it goes out. -/
def ownIdentify (s : State) (l : Nat) (p : PeerInfo) (priv : BitVec 256) : Sent :=
  .identify l s.fuse.serial s.flash.cert (ecdhPublic priv.toNat)
    (Config.identitySign s.fuse.serial.toNat (exchangeOf s p (ecdhPublic priv.toNat))) p.serial
    (BitVec.ofNat 24 (lnk s l).rxLsn)

/-- The link that an accepted exchange leaves. -/
def Link.joined (x : Link) (p : PeerInfo) (exch : List Byte) (priv : BitVec 256) (same encrypt : Bool) : Link :=
  { resumeLink x p with
    st := .active
    sameInst := same
    encrypted := encrypt
    key := BitVec.ofNat 256 (leNat (hkdf32 exch (ecdh priv.toNat p.pub)))
    peer := p.serial
    lastPeer := some p.serial
    epoch := x.epoch + 1
    retriesInRow := 0
    sinceAlign := 0 }

theorem lnk_identify_noKey {l : Nat} {p : PeerInfo} {s : State} (hst : (lnk s l).st ≠ .active)
    (h : s.rng.st = .fatal ∨ s.mem.wipeFailed = true) : lnk (identify l p s) l = (lnk s l).failed 5 := by
  have hlnk : lnk (if s.rng.st = .fatal then logEvent 0x32 0xFF [1] s else s) l = lnk s l := by
    split
    · exact lnk_of_kw (logEvent_kw ..) l
    · rfl
  unfold identify
  rw [if_pos h, lnk_trainFail, hlnk]
  rw [hlnk]
  exact hst

theorem OnlyRng.fuse {a s : State} (h : OnlyRng a s) : s.fuse = a.fuse := by
  rw [h]

theorem onlyRng_of_drawKey {s u : State} {k : Option (BitVec 256)} (h : drawKey s = (k, u)) : OnlyRng s u := by
  have hdraws := (drawKey_draws s).1
  rw [h] at hdraws
  exact hdraws

theorem exchangeOf_congr {s u : State} (hfuse : u.fuse = s.fuse) (hflash : u.flash = s.flash) (p : PeerInfo)
    (pub : List Byte) : exchangeOf u p pub = exchangeOf s p pub := by
  unfold exchangeOf
  rw [hfuse, hflash]

theorem sameInstallation_congr {s u : State} (hflash : u.flash = s.flash) (p : PeerInfo) (exch : List Byte) :
    sameInstallation u p exch = sameInstallation s p exch := by
  unfold sameInstallation
  rw [hflash]

section
variable {l : Nat} {p : PeerInfo} {s u : State} (hrng : s.rng.st ≠ .fatal) (hwipe : s.mem.wipeFailed = false)
include hrng hwipe

theorem no_refusal : ¬ (s.rng.st = .fatal ∨ s.mem.wipeFailed = true) := by
  rw [hwipe]
  exact fun h => h.elim hrng Bool.noConfusion

theorem identify_waits (h : drawKey s = (none, u)) : identify l p s = u := by
  unfold identify
  rw [if_neg (no_refusal hrng hwipe), h]

/-- With the key drawn: refused as foreign, or ACTIVE. -/
theorem identify_drawn {priv : BitVec 256} (h : drawKey s = (some priv, u)) :
    let exch := exchangeOf s p (ecdhPublic priv.toNat)
    identify l p s = if !sameInstallation s p exch && s.kw.refuse then trainFail l 4 (emit (ownIdentify s l p priv) u)
      else rejoin (pump l (resendFrom l 0 (kwFlag (8 + l) (updLnk l
        (fun x => x.joined p exch priv (sameInstallation s p exch) (s.kw.encrypt || p.encrypt))
        (emit (ownIdentify s l p priv) u))))) := by
  intro exch
  have honly := onlyRng_of_drawKey h
  have hexch : exchangeOf u p (ecdhPublic priv.toNat) = exch := exchangeOf_congr honly.fuse honly.flash ..
  have hsame (x : Sent) : sameInstallation (emit x u) p exch = sameInstallation s p exch :=
    sameInstallation_congr honly.flash ..
  have hrefuse (x : Sent) : (emit x u).kw = s.kw := honly.kw
  unfold identify
  rw [if_neg (no_refusal hrng hwipe), h]
  dsimp only
  rw [hexch, hsame, hrefuse, honly.fuse, honly.flash, lnk_of_kw honly.kw]
  rfl

end

/-- The link after everything that sending on an ACTIVE link adds. -/
theorem joined_sending (l : Nat) (s : State) : Sending s (rejoin (pump l (resendFrom l 0 s))) :=
  ((resendFrom_sending ..).trans (pump_sending ..)).trans (rejoin_sending _)

theorem LinkOut.rng {a s : State} (h : LinkOut a s) : s.rng = a.rng := by
  rw [h.rest]

theorem LinkOut.status {a s : State} (h : LinkOut a s) : s.kw.status = a.kw.status := by
  rw [h.rest]

/-- What sending leaves of a link. -/
theorem linkRest_fields {x y : Link} (h : linkRest x = linkRest y) : x.epoch = y.epoch ∧ x.peer = y.peer ∧
    x.lastPeer = y.lastPeer ∧ x.key = y.key ∧ x.sameInst = y.sameInst ∧ x.encrypted = y.encrypted ∧
    x.rxLsn = y.rxLsn ∧ x.trainFails = y.trainFails := by
  have hfield {α : Type} (f : Link → α) : f (linkRest x) = f (linkRest y) := congrArg f h
  exact ⟨hfield Link.epoch, hfield Link.peer, hfield Link.lastPeer, hfield Link.key, hfield Link.sameInst,
    hfield Link.encrypted, hfield Link.rxLsn, hfield Link.trainFails⟩

/-- The receive count and the failures that a link resumes with. -/
theorem resumeLink_counts (x : Link) (p : PeerInfo) :
    (resumeLink x p).rxLsn = (if x.lastPeer = some p.serial ∧ p.wasReset = false then x.rxLsn else 0) ∧
      (resumeLink x p).trainFails = x.trainFails := by
  have hiff : (x.lastPeer = some p.serial ∧ (!p.wasReset) = true) ↔ (x.lastPeer = some p.serial ∧ p.wasReset = false) := by
    rw [Bool.not_eq_true']
  unfold resumeLink
  by_cases h : x.lastPeer = some p.serial ∧ p.wasReset = false
  · rw [if_pos (hiff.2 h), if_pos h]
    exact ⟨rfl, rfl⟩
  · rw [if_neg (hiff.not.2 h), if_neg h]
    exact ⟨rfl, rfl⟩

section
variable {l : Nat} {p : PeerInfo} {s u : State} (hrng : s.rng.st ≠ .fatal) (hwipe : s.mem.wipeFailed = false)
  {priv : BitVec 256} (h : drawKey s = (some priv, u))
include hrng hwipe h

theorem lnk_identify_foreign (hst : (lnk s l).st ≠ .active)
    (hforeign : sameInstallation s p (exchangeOf s p (ecdhPublic priv.toNat)) = false) (hrefuse : s.kw.refuse = true) :
    lnk (identify l p s) l = (lnk s l).failed 4 := by
  have hlnk (x : Sent) : lnk (emit x u) l = lnk s l := lnk_of_kw (onlyRng_of_drawKey h).kw l
  rw [identify_drawn hrng hwipe h, hforeign, hrefuse, Bool.not_false, Bool.and_self, if_pos rfl, lnk_trainFail, hlnk]
  rw [hlnk]
  exact hst

/-- An accepted peer: the device's part is sent, and the link is ACTIVE with what the exchange gave. -/
theorem identify_accepted
    (hok : sameInstallation s p (exchangeOf s p (ecdhPublic priv.toNat)) = true ∨ s.kw.refuse = false) :
    let exch := exchangeOf s p (ecdhPublic priv.toNat)
    let t := identify l p s
    ownIdentify s l p priv ∈ t.sent ∧ t.rng = u.rng ∧ t.kw.status = s.kw.status ||| BitVec.ofNat 16 (2 ^ (8 + l)) ∧
      linkRest (lnk t l) =
        linkRest ((lnk s l).joined p exch priv (sameInstallation s p exch) (s.kw.encrypt || p.encrypt)) := by
  intro exch
  have hkw := (onlyRng_of_drawKey h).kw
  have hlnk (x : Sent) : lnk (emit x u) l = lnk s l := lnk_of_kw hkw l
  have hcond : ¬ (!sameInstallation s p exch && s.kw.refuse) = true := by
    rcases hok with h | h
    · rw [h, Bool.not_true, Bool.false_and]
      exact Bool.false_ne_true
    · rw [h, Bool.and_false]
      exact Bool.false_ne_true
  rw [identify_drawn hrng hwipe h, if_neg hcond]
  generalize hv : kwFlag (8 + l) (updLnk l _ (emit (ownIdentify s l p priv) u)) = v
  have hsend := joined_sending l v
  refine ⟨hsend.sent _ ?_, hsend.out.rng.trans ?_, hsend.out.status.trans ?_, (hsend.out.link l).trans ?_⟩ <;> rw [← hv]
  · exact List.mem_append_right _ (List.mem_singleton_self _)
  · rfl
  · rw [← hkw]
    rfl
  · rw [lnk_kwFlag, lnk_updLnk, hlnk]

end

/-- Settles O48: each row by the state that its link stands in; IDENTIFY by the key, the peer and what sending adds. -/
theorem linkTraining : Obligations.LinkTraining := by
  unfold Obligations.LinkTraining
  intro l s hup x
  refine ⟨?_, ?_, fun r => ?_, ?_, fun cause hcause => ?_, exec_trainingTimeout_other hup, fun c hc hst => ?_,
    exec_laneLoss_inactive, exec_retrain_disabled hup, fun hna hnd => ?_, fun p => ⟨exec_identifyDone_other, fun hst => ?_⟩⟩
  · exact congrArg _ (linkStep_eq hup l.val .detect fun x => { x with st := .equalize })
  · exact congrArg _ (linkStep_eq hup l.val .equalize fun x => { x with st := .align })
  · exact congrArg _ (linkStep_eq hup l.val .align fun x => { x with st := .identify, reversed := r })
  · exact congrArg _ (linkStep_eq hup l.val .holdoff fun x => { x with st := .detect })
  · have hna : x.st ≠ .active := by
      rcases hcause with ⟨h, -⟩ | ⟨h, -⟩ | ⟨h, -⟩ <;> exact fun k => LState.noConfusion (h.symm.trans k)
    have hexec := exec_trainingTimeout hup (cause := cause.toNat) (hcause.imp (And.imp_right (congrArg BitVec.toNat))
      (Or.imp (And.imp_right (congrArg BitVec.toNat)) (And.imp_right (congrArg BitVec.toNat))))
    have hlink := lnk_trainFail hna cause.toNat
    have hword : BitVec.ofNat 3 cause.toNat = cause := by rw [BitVec.ofNat_toNat, BitVec.setWidth_eq]
    rw [Link.failed, hword] at hlink
    exact ⟨_, hexec, hlink, fun m hm => lnk_trainFail_other hna _ hm, trainFail_rest hna _, trainFail_queue hna _⟩
  · have hexec : exec c s = .next (linkTo l.val .holdoff s) := by
      rcases hc with rfl | rfl
      · exact exec_laneLoss_active hup hst
      · exact exec_retrain hup fun k => LState.noConfusion (hst.symm.trans k)
    exact ⟨_, hexec, linkTo_of_active .holdoff hst⟩
  · rw [exec_retrain hup hnd, linkTo_of_inactive _ hna]
  · have hna : x.st ≠ .active := fun k => LState.noConfusion (hst.symm.trans k)
    refine ⟨fun hno => ⟨_, exec_identifyDone hup hst, ?_⟩, fun hrng hwipe => ⟨fun u hdraw => ?_, ?_⟩⟩
    · rw [lnk_identify_noKey hna hno]
      exact ⟨rfl, rfl, rfl⟩
    · rw [exec_identifyDone hup hst, identify_waits hrng hwipe hdraw]
      exact ⟨rfl, lnk_of_kw (onlyRng_of_drawKey hdraw).kw _⟩
    · intro priv u hdraw pub exch mine
      refine ⟨fun hforeign hrefuse => ⟨_, exec_identifyDone hup hst, ?_⟩, fun hok => ⟨_, exec_identifyDone hup hst, ?_⟩⟩
      · rw [lnk_identify_foreign hrng hwipe hdraw hna hforeign hrefuse]
        exact ⟨rfl, rfl, rfl⟩
      · obtain ⟨hsent, hrngs, hstatus, hlink⟩ := identify_accepted (l := l.val) (p := p) hrng hwipe hdraw hok
        obtain ⟨hepoch, hpeer, hlast, hkey, hsame, hencrypted, hrx, hfails⟩ := linkRest_fields hlink
        obtain ⟨hcount, hkept⟩ := resumeLink_counts x p
        exact ⟨hsent, linkRest_st hlink, hepoch, hpeer, hlast, hkey, hsame, hencrypted, hrngs, hrx.trans hcount,
          hfails.trans hkept, hstatus⟩

end Sys2Proof.Machine
end
